-- ==== Sys2Proof/Word.lean ====
section
/-!
DEFINITION. The word types of the module and their plainest arithmetic (spec 00, R8 to R10: little-endian
values, bit 0 least significant).
-/

namespace Sys2Proof

/-- One byte of storage. -/
abbrev Byte := BitVec 8

/-- A 32-bit register or lane (R12). -/
abbrev Word := BitVec 32

/-- A 64-bit register (R17). -/
abbrev DWord := BitVec 64

/-- The low `n` bytes of a number, lowest byte first (R9). -/
def toBytes : Nat → Nat → List Byte
  | 0, _ => []
  | n + 1, v => BitVec.ofNat 8 v :: toBytes n (v / 256)

/-- The number a list of bytes holds, lowest byte first (R9). -/
def ofBytes : List Byte → Nat
  | [] => 0
  | b :: r => b.toNat + 256 * ofBytes r

/-- Field [lo + len − 1 : lo] of a number (R8). -/
def fieldOf (v lo len : Nat) : Nat := v / 2 ^ lo % 2 ^ len

/-- Bit [i] of a number (R8). -/
def bitOf (v i : Nat) : Bool := v / 2 ^ i % 2 == 1

/-- `v` with field [lo + len − 1 : lo] replaced by `x` (R8). -/
def putField (v lo len x : Nat) : Nat :=
  v - fieldOf v lo len * 2 ^ lo + x % 2 ^ len * 2 ^ lo

/-- The value of an `n`-bit two's-complement field. -/
def signedOf (n v : Nat) : Int := if v < 2 ^ (n - 1) then (v : Int) else (v : Int) - (2 ^ n : Nat)

/-- The `n`-bit two's-complement code of an integer. -/
def codeOf (n : Nat) (x : Int) : Nat := (x % (2 ^ n : Nat)).toNat

/-- 1 for true, 0 for false. -/
def b2n (b : Bool) : Nat := if b then 1 else 0

/-- `v` rounded up to the next whole multiple count of `d`: ⌈v / d⌉. -/
def ceilDiv (v d : Nat) : Nat := (v + d - 1) / d

end Sys2Proof
end

