-- ==== Sys2Proof/Syntax.lean ====
section
/-!
DEFINITION. The commands of the block: one constructor of `Instr` for each row of spec/opcode_table.json, with the
operands the row's rule gives it. What a firmware agent decides (which frames a grant takes, where a range lies) and
what the outside world supplies (the bytes a host read returns, a sensor's value) are operands.
-/

namespace Sys2Proof

/-- Who makes a register access: function 0, a virtual function, the Steward, Hawthorn or the debug port
(R504, R558, R609, R614). -/
inductive Agent where
  | pf
  | vf (v : Fin 16)
  | steward
  | hawthorn
  | debug
  deriving DecidableEq, Repr

/-- The two tiers of external memory (R200). -/
inductive Tier where
  | near
  | deep
  deriving DecidableEq, Repr

/-- A mailbox request being carried out: its mailbox, its SEQ and the agent that issued it (R521, R522). -/
structure Req where
  mbx : Fin 64
  seq : BitVec 8
  by_ : Agent
  deriving DecidableEq, Repr

/-- What an address argument names (R521): bytes the host returned, or a partition-virtual or device address. -/
inductive Src where
  | host (bytes : List Byte)
  | virt (addr : Nat)
  deriving DecidableEq, Repr

/-- The containment domains of R440. -/
inductive Domain where
  | array (n : Fin 128)
  | field (f : Fin 4)
  | port (n : Fin 48)
  | nearmc (k : Fin 32)
  | deepmc (k : Fin 32)
  | deviceKept
  | deviceLost
  | replicaGroup
  deriving DecidableEq, Repr

/-- Who issues a memory request (R212, R216, R203): the Steward at a device address, or a partition at a
partition-virtual address, perhaps for one of its drafts. -/
inductive MemIssuer where
  | steward
  | part (p : Fin 64) (draft : Option (Fin 16))
  deriving DecidableEq, Repr

/-- A memory request (R201, R227, R233). -/
inductive MemOp where
  | read (len : Nat)
  | write (bytes : List Byte) (poisoned : Bool)
  deriving DecidableEq, Repr

/-- What the Reed–Solomon decoder finds in a granule: a corrected symbol is one of its 64 data symbols or 4 check symbols (R206). -/
inductive MemErr where
  | none
  | corrected (symbol : Fin 68)
  | uncorrectable
  deriving DecidableEq, Repr

/-- A granule in which a patrol pass finds an error (R230). -/
structure ScrubHit where
  granule : Nat
  err     : MemErr
  deriving DecidableEq, Repr

/-- The causes of a channel fault (R237). -/
inductive ChanCause where
  | crcReplays
  | linkEcc
  | bankSlow
  | drainTimeout
  deriving DecidableEq, Repr

/-- The Steward's placement of a manifest's grant: device addresses of 2 MiB frames and 64 KiB draft pieces, of the
translation and piece tables, and of the yard ranges, channels and semaphores (R212 to R215, R273, R199). -/
structure Placement where
  nearTable  : Nat
  deepTable  : Nat
  hostTable  : Nat
  pieceTable : Nat
  nearFrames : List Nat
  deepFrames : List Nat
  draftPages : List Nat
  yardBase   : List Nat
  channels   : List (Fin 256)
  semBase    : Nat
  semWin     : Nat
  commitWord : List Nat
  commitRec  : Nat
  deriving DecidableEq, Repr

/-- The 24-byte header of a Siori message (R397). -/
structure SHdr where
  type_   : Nat
  version : Nat
  rsv     : Nat
  srcSite : Nat
  dstSite : Nat
  shard   : Nat
  round   : Nat
  length  : Nat
  deriving DecidableEq, Repr

/-- A fragment of a chunk (R374, R398). -/
structure ChunkMsg where
  index     : Nat
  baseRound : Nat
  frag      : Nat
  nfrag     : Nat
  privet    : Bool
  wireBytes : Nat
  crc       : Nat
  poisoned  : Bool
  bytes     : List Byte
  deriving DecidableEq, Repr

/-- OPEN (R398). -/
structure OpenMsg where
  deadline   : Nat
  quorum     : Nat
  decline    : Bool
  orderRound : Nat
  root       : List Byte
  deriving DecidableEq, Repr

/-- HELLO (R398). -/
structure HelloMsg where
  round     : Nat
  leader    : Nat
  nContrib  : Nat
  baseRound : Nat
  hold      : Bool
  newRoot   : List Byte
  deriving DecidableEq, Repr

/-- One contributor of an anchor record (R382). -/
structure Contributor where
  site      : Nat
  baseRound : Nat
  merged    : Nat
  weight    : Word
  deriving DecidableEq, Repr

/-- An anchor record manifest (R382). -/
structure Manifest where
  magic     : Nat
  shard     : Nat
  round     : Nat
  leader    : Nat
  nseg      : Nat
  bodyBytes : Nat
  prevRoot  : List Byte
  newRoot   : List Byte
  bodyHash  : List Byte
  contrib   : List Contributor
  bitmaps   : List (List Nat)
  deriving DecidableEq, Repr

/-- A fragment of a manifest or of a record body (R398). -/
structure FragMsg where
  segment : Nat
  frag    : Nat
  nfrag   : Nat
  total   : Nat
  bytes   : List Byte
  deriving DecidableEq, Repr

/-- A flit of a Ropaurn port (R406). -/
structure Flit where
  seq     : Nat
  vc      : Fin 4
  ftype   : Nat
  ack     : Nat
  nak     : Bool
  rsv     : Nat
  credit  : List Nat
  payload : List Byte
  crc     : Nat
  deriving DecidableEq, Repr

/-- The header of a Ropaurn frame (R412). -/
structure FrameHdr where
  destMod  : Nat
  destPart : Nat
  vc       : Nat
  srcMod   : Nat
  srcPart  : Nat
  rsv      : Nat
  life     : Nat
  kind     : Nat
  red      : Nat
  last     : Bool
  poison   : Bool
  enc      : Bool
  epoch    : Nat
  dstAddr  : Nat
  msgSeq   : Nat
  frameIdx : Nat
  frameCtr : Nat
  deriving DecidableEq, Repr

/-- A Ropaurn frame (R412). -/
structure Frame where
  hdr     : FrameHdr
  payload : List Byte
  tag     : List Byte
  deriving DecidableEq, Repr

/-- A key-agreement message of a handshake (R547): INIT, RESP or CONFIRM. -/
structure KeyMsg where
  ktype     : Nat
  newEpoch  : Nat
  fresh     : Bool
  sessionId : Nat
  random    : List Byte
  kem       : List Byte
  pubKey    : List Byte
  signature : List Byte
  deriving DecidableEq, Repr

/-- The link or session a key agreement concerns (R548): a port's hop link or an end-to-end session. -/
inductive KeyOwner where
  | hop (n : Fin 48)
  | e2e (i : Nat)
  deriving DecidableEq, Repr

/-- A Siori envelope as it arrives (R432). -/
structure Envelope where
  etype     : Nat
  epoch     : Nat
  rsv       : Nat
  sessionId : Nat
  counter   : Nat
  body      : List Byte
  tag       : List Byte
  deriving DecidableEq, Repr

/-- An Ethernet frame that is no Siori datagram (R426). -/
inductive EthKind where
  | arp
  | neighborDiscovery
  | icmpEcho
  | ptp
  | ipFragment
  | badChecksum
  | pause
  | other
  deriving DecidableEq, Repr

/-- The fields of a flow (R428). -/
structure FlowFields where
  session  : Nat
  port     : Nat
  dscp     : Nat
  label    : Nat
  rate     : Nat
  burst    : Nat
  hopLimit : Nat
  deriving DecidableEq, Repr

/-- The fields of an inbound window (R420). -/
structure WindowFields where
  base : Nat
  len  : Nat
  ctrl : Nat
  src  : Nat
  mask : Nat
  deriving DecidableEq, Repr

/-- The arguments of KEEPER_SET (R471). -/
structure KeeperArgs where
  keeperMod  : Nat
  keeperArea : Nat
  keptMod    : Nat
  keptArea   : Nat
  shadowBase : Nat
  g0         : Nat
  nblk       : Nat
  momPeriod  : Nat
  shadowEn   : Bool
  keepEn     : Bool
  deriving DecidableEq, Repr

/-- A host request of the host window that ended badly (R510). -/
inductive HostFail where
  | unsupported
  | completerAbort
  | timeout
  deriving DecidableEq, Repr

/-- Where in a page an access reads: its offset and its width in bytes (R616). -/
structure Span where
  off   : Nat
  width : Nat
  deriving DecidableEq, Repr

/-- What one of `n` engines does before the next command comes: the engine, and at most how many of its rows, tiles or beats it gets through. -/
structure Work (n : Nat) where
  unit : Fin n
  most : Nat
  deriving DecidableEq, Repr

/-- The records of a lineage that have been fetched (R393): the manifests of the diverged rounds before the latest, in order, and the latest. -/
structure Lineage where
  earlier : List Manifest
  whole   : Manifest
  deriving DecidableEq, Repr

/-- The kinds of host link event that reset configuration space (R503, R525, R623). -/
inductive LinkDownKind where
  | hotReset
  | perst
  | linkDown
  | surprise
  deriving DecidableEq, Repr

/-- A signed request (R561). -/
structure SignedReq where
  code      : Nat
  deviceId  : Nat
  nonce     : List Byte
  argHash   : List Byte
  slot      : Nat
  pubKey    : List Byte
  signature : List Byte
  deriving DecidableEq, Repr

/-- A firmware image: its header (R535) and its body. -/
structure FwImage where
  magic       : Nat
  kind        : Nat
  svn         : Nat
  version     : Nat
  bodyBytes   : Nat
  bodyHash    : List Byte
  ownerSigned : Bool
  rsvOk       : Bool
  vendorKey   : List Byte
  ownerKey    : List Byte
  vendorSig   : List Byte
  ownerSig    : List Byte
  header      : List Byte
  body        : List Byte
  deriving DecidableEq, Repr

/-- The sensors of the sideband (R631). -/
inductive PldmSensor where
  | inputVoltage
  | inputCurrent
  | inputPower
  | hottestJunction
  | coolantInlet
  | coolantOutlet
  | deviceState
  | hawthornState
  | fruRecord
  deriving DecidableEq, Repr

/-- The commands, one for each row of the table, in the table's order. -/
inductive Instr where
  -- register accesses (chapters 00, 19)
  | regWrite (who : Agent) (page off width : Nat) (value : DWord)
  | eventClear (who : Agent) (page off width : Nat) (value hwSet : DWord)
  | lowHalfRead (who : Agent) (page : Nat) (at_ : Span) (update : Option DWord)
  | blkLockWrite (page : Nat) (value : Word) (same : Option (Nat × Word))
  | slotsPeakRead (who : Agent) (t : Tier) (k : Fin 32) (update : Option Word)
  | inflightHwmRead (who : Agent) (p : Fin 64) (update : Option Word)
  | stashHwmRead (who : Agent) (p : Fin 64) (update : Option DWord)
  | reclaimMaxRead (who : Agent) (p : Fin 64) (update : Option Word)
  | rplQRead (who : Agent) (m : Nat)
  -- channels and carriages (chapter 05)
  | doorbell (who : Agent) (chan : Nat) (value : Word)
  | carriageHead (c : Fin 256)
  | carriageDispatch (c : Fin 256)
  | idleCarriage (c : Fin 256)
  | resume (who : Agent) (chan : Nat)
  | dropPkt (who : Agent) (chan : Nat)
  | flush (who : Agent) (chan : Nat)
  | chanEnable (c : Fin 256)
  | chanDisable (c : Fin 256)
  | carriageComplete (c : Fin 256)
  | signal (c : Fin 256) (acked : Bool)
  | wait (c : Fin 256)
  | fence (c : Fin 256)
  | fenceComplete (c : Fin 256) (acked : Bool)
  | draftBegin (c : Fin 256)
  | commit (c : Fin 256)
  | discard (c : Fin 256)
  | draftDecision (p : Fin 64) (d : Fin 16)
  | draftRemapDone (p : Fin 64) (d : Fin 16)
  | draftPagesDropped (p : Fin 64) (d : Fin 16)
  -- arrays and vector engines (chapters 03, 04)
  | stream (w : Work 128)
  | slotLoadDone (a : Fin 128)
  | fold (q : Fin 8)
  | foldStart (w : Work 8)
  | ctxSave (a : Fin 128) (parity : Bool)
  | ctxRestore (a : Fin 128) (parity : Bool)
  | ctxZero (a : Fin 128)
  | ctxDone (a : Fin 128)
  | compatApply (a : Fin 128)
  | arrayParity (a : Fin 128)
  | vecParity (a : Fin 128)
  | selftest (a : Fin 128)
  | selftestDone (a : Fin 128) (pass : Bool)
  | vchain (w : Work 128)
  -- memory (chapter 06)
  | memAccess (who : MemIssuer) (addr : Nat) (op : MemOp) (err : MemErr)
  | translationFill (cache : Fin 5) (p : Fin 64) (t : Tier) (v : Nat)
  | writeBatch (t : Tier) (k : Fin 32)
  | refresh (t : Tier) (k : Fin 32) (bank : Nat)
  | mcHot (t : Tier) (k : Fin 32) (temp : Int)
  | bankSlow (t : Tier) (k : Fin 32) (bank : Fin 128)
  | bankSlowLimit (t : Tier) (k : Fin 32) (bank : Fin 128)
  | scrubPass (t : Tier) (k : Fin 32) (hits : List ScrubHit)
  | scrubNow (t : Tier) (k : Fin 32)
  | scrubDone (t : Tier) (k : Fin 32)
  | tierTraining (t : Tier) (fails : List (Fin 32 × Nat))
  | tierZeroingDone
  | chanFault (t : Tier) (k : Fin 32) (cause : ChanCause)
  | poisonFillDone (t : Tier) (k : Fin 32)
  | warmReset (rq : Option Req)
  | mcDrainDone (t : Tier) (k : Fin 32)
  | drainTimeout (t : Tier) (k : Fin 32)
  | selfRefreshExit
  | functionLevelReset (p : Fin 64)
  | xlatInv (p : Fin 64) (value : Word)
  | xlatInvDone (p : Fin 64)
  -- Cart engines, rings and drain compressors (chapters 07, 08)
  | cartCopy (e : Fin 64)
  | cartGather (e : Fin 64)
  | cartScatter (e : Fin 64)
  | cartFill (e : Fin 64)
  | runAhead (e : Fin 64)
  | ringEnable (who : Agent) (a : Nat) (k : Fin 7) (value : Word)
  | ringRowRelease (a : Fin 128) (k : Fin 7)
  | pzEnable (who : Agent) (a : Nat) (value : Word)
  | pzFlush (who : Agent) (a : Nat)
  -- the step, the Pruners and the norm tree (chapters 02, 09, 10)
  | numSnap (who : Agent) (p : Fin 64)
  | stepRegWrite (who : Agent) (p : Fin 64) (off width : Nat) (value : DWord)
  | pruneAccum (p : Fin 64)
  | pruneUpdate (p : Fin 64)
  | ledgerBlock (k : Fin 32)
  | normClose (p : Fin 64)
  | deferredPass (p : Fin 64) (d : Fin 16)
  | ledgerRecovery (p : Fin 64)
  | barrier (p : Fin 64)
  | barrierReady (p : Fin 64)
  | readyReceived (p : Fin 64) (src : Nat) (step : Word)
  | stepCommitReceived (p : Fin 64) (step : Word)
  | commitRecordAck (p : Fin 64)
  | commitTimeout (p : Fin 64)
  | normSend (p : Fin 64)
  | normValueReceived (p : Fin 64) (src : Nat) (step : Word) (value : DWord)
  | normRecordReceived (p : Fin 64) (step : Word) (n : DWord) (c pred : Word)
  | normTimeout (p : Fin 64)
  -- the Coach and the Siori exchange (chapter 11)
  | coachBind (p : Fin 64)
  | coachFound (p : Fin 64)
  | coachJoin (p : Fin 64)
  | coachUnbind (p : Fin 64)
  | unbindRelease (p : Fin 64)
  | coachPartners (p : Fin 64)
  | partnersReread (p : Fin 64)
  | chunkSend (p : Fin 64) (seg : Nat) (flow : Nat)
  | chunkResend (p : Fin 64) (seg : Nat) (flow : Nat)
  | chunk (p : Fin 64) (h : SHdr) (m : ChunkMsg)
  | ack (p : Fin 64) (h : SHdr) (chunks : List Nat)
  | roundDeadline (p : Fin 64)
  | close (p : Fin 64) (h : SHdr) (void : Bool) (merged : Nat)
  | open_ (p : Fin 64) (h : SHdr) (m : OpenMsg)
  | openRepeat (p : Fin 64)
  | helloSend (p : Fin 64)
  | hello (p : Fin 64) (h : SHdr) (m : HelloMsg)
  | segmentOuter (p : Fin 64) (seg : Nat)
  | manifestSign (p : Fin 64)
  | manifest (p : Fin 64) (h : SHdr) (m : FragMsg) (whole : Manifest) (signed : List Byte)
      (key signature : List Byte)
  | body (p : Fin 64) (h : SHdr) (m : FragMsg)
  | adoptionDone (p : Fin 64)
  | rebaseBlock (p : Fin 64)
  | rebaseDone (p : Fin 64)
  | coachRecovery (p : Fin 64)
  | rebaseResume (rq : Req) (p : Fin 64)
  | rebaseRollback (rq : Req) (p : Fin 64)
  | leaderTimeout (p : Fin 64)
  | holdReceived (p : Fin 64) (release : Bool)
  | reconcile (p : Fin 64) (aWin : List Byte) (records : Lineage)
  | digestReq (p : Fin 64) (h : SHdr) (level node : Nat)
  | digestResp (p : Fin 64) (h : SHdr) (level node : Nat) (digests : List Nat)
  | blockReq (p : Fin 64) (h : SHdr) (g : Nat) (leafOnly : Bool) (replicas : List (Nat × Nat × List Byte))
  | blockData (p : Fin 64) (h : SHdr) (g leaf : Nat) (bytes : List Byte)
  -- ports, links and encryption (chapter 12)
  | portTrain (n : Fin 48)
  | retrain (n : Fin 48)
  | trainPhaseDone (n : Fin 48) (lanes : BitVec 2) (partnerEnc : Bool)
  | trainPhaseTimeout (n : Fin 48)
  | flit (n : Fin 48) (f : Flit) (fecFailed : Bool)
  | nak (n : Fin 48) (ack : Nat)
  | fastRetrain (n : Fin 48) (ok : Bool)
  | controlFlit (n : Fin 48) (sample : Int) (delay : Nat)
  | frame (n : Fin 48) (f : Frame) (residence : Nat)
  | arrivalSignal (n : Fin 48) (srcMod srcPart : Nat)
  | queueDropPkt (q : Fin 3)
  | frameExpired (n : Fin 48)
  | hopRekey (n : Fin 48)
  | keyWait (o : KeyOwner)
  | graceClose (o : KeyOwner)
  | handshakeInit (o : KeyOwner) (m : KeyMsg)
  | handshakeResp (o : KeyOwner) (m : KeyMsg)
  | handshakeConfirm (o : KeyOwner) (m : KeyMsg)
  | handshakeRetry (o : KeyOwner)
  | envelope (n : Fin 48) (e : Envelope)
  | staleEpoch (session : Nat) (epoch counter : Nat)
  | ethAutonegRestart (n : Fin 48)
  | ethUp (n : Fin 48)
  | ethDown (n : Fin 48)
  | ethFrame (n : Fin 48) (kind : EthKind) (bytes : List Byte)
  | ptpMessage (n : Fin 48) (offsetPpb : Int)
  | flowAdd (rq : Req) (i : Nat) (f : FlowFields)
  | flowRate (rq : Req) (i : Nat) (rate : Nat)
  | flowWithdraw (rq : Req) (i : Nat)
  | windowSet (rq : Req) (p : Fin 64) (w : Nat) (f : WindowFields)
  -- recovery and keeper duty (chapter 13)
  | boundMissed (d : Domain)
  | recRelaid (rq : Req) (d : Domain)
  | fieldFault (f : Fin 4) (pass : Bool) (failing : List (Fin 32))
  | shadowArrival (p : Fin 64) (generation : Word) (gap : Bool)
  | shadowAck (p : Fin 64) (generation : Word)
  | shadowHeartbeat (p : Fin 64) (fromKeeper : Bool)
  | moduleLost (p : Fin 64)
  | keeperLost (p : Fin 64)
  | rebuild (rq : Req) (p : Fin 64) (desc staging : Nat) (keeper : Nat) (keeperRate partnerRate : Nat)
  | rebuildReq (p : Fin 64)
  | rebuildBlock (p : Fin 64) (g : Nat) (anchor : List Byte)
  | rebuildDone (p : Fin 64) (step : Word) (round : Word)
  | keeperSet (rq : Req) (p : Fin 64) (k : KeeperArgs)
  -- partitions and lending (chapter 14)
  | partCreate (rq : Req) (record : Src)
  | partResize (rq : Req) (record : Src)
  | partDestroy (rq : Req) (id : Nat)
  | manifestLoad (rq : Req) (p : Fin 64) (m : Src) (place : Placement)
  | manifestUnload (rq : Req) (p : Fin 64)
  | partQuery (rq : Req) (id : Nat) (result : Nat)
  | zeroingDone (p : Fin 64)
  | lend (lender fill : Fin 64) (a : Fin 128) (slot : Nat)
  | lendDone (a : Fin 128)
  | reclaim (a : Fin 128) (saveOk restoreOk : Bool)
  | reclaimDone (a : Fin 128)
  | shortfall (p : Fin 64) (port : Bool) (resource : Nat) (factor : Fin 1025)
  | shortfallClear (p : Fin 64)
  -- host attachment (chapter 15)
  | hdmBind (rq : Req) (p : Fin 64) (base : Nat)
  | hdmUnbind (rq : Req)
  | hostwinMap (rq : Req) (p : Fin 64) (first count : Nat) (entries : Src)
  | hostwinUnmap (rq : Req) (p : Fin 64) (first count : Nat)
  | mbxAssign (rq : Req) (m : Nat) (leaf : Nat)
  | quiesce (rq : Req) (mode : Nat) (timeoutMs : Nat)
  | quiesceComplete
  | unquiesce (rq : Req)
  | semAdd (who : Agent) (i : Nat) (value : Word)
  | reqGo (who : Agent) (m : Nat) (value : Word)
  | reqQ (who : Agent) (m : Nat) (value : Word)
  | rplDone (who : Agent) (m : Nat) (value : Word)
  | rplDropPkt (who : Agent) (m : Nat)
  | mbxCfgWrite (who : Agent) (m : Nat) (value : Word)
  | mbxRequestTake (m : Fin 64)
  | mbxReply (m : Fin 64)
  | hdmHostRead (off : Nat)
  | hdmHostWrite (off : Nat) (bytes : List Byte)
  | hostEviction (off : Nat)
  | birsp (off : Nat) (dirty : Option (List Byte))
  | hdmBiTimeout
  | h2dSnoop (addr : Nat)
  | hostErr (e : Fin 64) (why : HostFail) (addr : Nat)
  | hostLinkDown (kind : LinkDownKind)
  | hostLinkUp (width : Nat) (rate : Nat)
  | flrFunction0
  | flrVf (v : Fin 16)
  | ideFail
  | msixUnmask (who : Agent) (vector : Fin 2048)
  -- Hawthorn, Thorn, SPDM and the debug port (chapter 16)
  | hawthornBoot (entropyOk : Bool)
  | stewardRelease (ms : BitVec 16) (pmon : List (BitVec 16))
  | info (rq : Req)
  | random (rq : Req) (count : Nat)
  | nonce (rq : Req)
  | fwStage (rq : Req) (kind : Nat) (image : FwImage)
  | fwActivate (rq : Req) (kind : Nat)
  | svnCommit (rq : Req) (kind : Nat)
  | ownerKeyAdd (rq : Req) (slot : Nat) (key : List Byte) (sr : Option SignedReq) (senseOk : Bool)
  | ownerKeyRevoke (rq : Req) (slot : Nat) (sr : SignedReq)
  | vendorKeyRevoke (rq : Req) (slot : Nat) (sr : SignedReq)
  | mrExtend (rq : Req) (index : Nat) (value : List Byte)
  | fabricSet (rq : Req) (hashes : List (List Byte)) (sr : Option SignedReq)
  | debugUnlock (rq : Req) (scope : Word) (sr : SignedReq)
  | debugLock (rq : Req)
  | dbgSealBlow (rq : Req) (confirm : Word) (deviceId : DWord) (sr : Option SignedReq)
  | thornKeySet (rq : Req) (slot : Nat) (key : List Word)
  | thornKeyDerive (rq : Req) (slot : Nat) (label : List Word)
  | thornMac (rq : Req) (slot : Nat) (message : Src) (length : Nat)
  | thornStart (value : Word)
  | thDataWrite (value : Word)
  | thKeyWrite (slot : Fin 8) (w : Fin 8) (value : Word)
  | thornDone
  | entropyFail
  | entropyRetest (pass : Bool)
  | drbgReseed
  | ideRekey (stream : Fin 5) (units : Nat)
  | kSetGo (stream : Fin 5)
  | getVersion
  | getCapabilities
  | negotiateAlgorithms
  | getDigests
  | getCertificate (slot offset length : Nat)
  | challenge (nonce : List Byte)
  | getMeasurements (block : Nat) (nonce : List Byte)
  | keyExchange (encapKey : List Byte)
  | finish (session : Fin 4) (verify : List Byte)
  | heartbeat (session : Fin 4)
  | keyUpdate (session : Fin 4)
  | endSession (session : Fin 4)
  | chunkGet (handle : Nat) (seq : Nat)
  | vendorDefinedRequest (session : Fin 4) (stream : Fin 5) (keySet : Fin 2) (key : List Byte)
  | dbgInfo (seq : BitVec 8)
  | pageRead (seq : BitVec 8) (page off count : Nat)
  | pageWrite (seq : BitVec 8) (page off : Nat) (words : List Word)
  | memRead (seq : BitVec 8) (addr count : Nat)
  | memWrite (seq : BitVec 8) (addr : Nat) (words : List Word)
  | coreHalt (seq : BitVec 8) (mask : BitVec 8)
  | coreResume (seq : BitVec 8) (mask : BitVec 8)
  | coreStep (seq : BitVec 8) (core : Nat) (count : Nat)
  | coreRegRead (seq : BitVec 8) (core reg : Nat)
  | coreRegWrite (seq : BitVec 8) (core reg : Nat) (value : DWord)
  | mbxAccess (value : Word)
  -- power, clocks, monitors, ageing, the input and the coolant (chapters 17, 20)
  | governorSample (avg100us avg1ms avg1s : Nat)
  | powerCapSet (rq : Req) (watts : Nat)
  | domainPower (rq : Req) (domain : Nat) (on_ : Bool)
  | domainWake (domain : Fin 20)
  | domainReady (domain : Fin 20)
  | thermalSample (a : Fin 128) (t0 t1 : Int)
  | voltageDroop (monitor : Fin 64) (tenthMv : BitVec 16)
  | ageingReading (slacks : List Int)
  | ageingMeasure (rq : Req) (slacks : List Int)
  | ageingConfig (rq : Req) (period guard_ floor : Nat)
  | clockStep (f : Fin 4)
  | inputRange (tenMv : BitVec 16)
  | inputFault (timeAllows : Bool) (tenMv : BitVec 16)
  | coldReset
  | coolantSample (inlet outlet : Int)
  -- counters and events (chapter 18)
  | perfLatch (who : Agent) (p : Fin 64)
  | perfClear (who : Agent) (p : Fin 64)
  | perfSelWrite (who : Agent) (p : Fin 64) (k : Fin 8) (value : Word)
  | evqEnable (who : Agent) (p : Fin 64) (value : Word)
  | eventRecordWrite
  | evqConsumerRead (q : Option (Fin 64))
  | evqHoldoffEnd (q : Option (Fin 64))
  | evqModuleSet (rq : Req) (base : Nat) (ctrl : Word)
  | eventTest (rq : Req) (leaf : Nat)
  -- the sideband and the later rows (chapters 12, 15, 16, 17, 20)
  | pldmGetSensor (sensor : PldmSensor)
  | pldmPowerCap (watts : Nat)
  | pldmWarmReset
  | rekeying (session : Nat)
  | spdmChunkSend (handle : Nat) (seq : Nat) (last : Bool) (bytes : List Byte)
  | railRecovers (monitor : Fin 64) (tenthMv : BitVec 16)
  | ringSlotWrite (who : Agent) (chan slot off : Nat) (bytes : List Byte)
  | rplMsgRead (who : Agent) (m : Nat) (i : Nat)
  | hostTrainFail (why : Nat)
  | quiesceTimeout
  deriving DecidableEq, Repr

end Sys2Proof
end

