-- ==== Sys2Proof/Machine/Numeric.lean ====
section
/-!
DEFINITION. Number formats, rounding and conversion (spec 02): every value is held exactly as sign, whole significand
and power of two, every operation is computed exactly, and one rounding at its end gives the stored bits.
-/

namespace Sys2Proof.Machine

/-- A value as the module computes with it: NaN, an infinity, or ± man × 2^exp. -/
inductive FVal where
  | nan
  | inf (neg : Bool)
  | fin (neg : Bool) (man : Nat) (exp : Int)
  deriving DecidableEq, Repr

/-- A floating layout (R44): exponent and fraction bits, bias, the largest finite code, and whether the all-ones
exponent holds infinities and NaNs. `nanCode` is the canonical NaN (R45), 0 where the format has none. -/
structure FloatFmt where
  ebits   : Nat
  mbits   : Nat
  bias    : Nat
  maxCode : Nat
  hasInf  : Bool
  nanCode : Nat
  deriving DecidableEq, Repr

def fp64 : FloatFmt := ⟨11, 52, 1023, 0x7FEFFFFFFFFFFFFF, true, 0x7FF8000000000000⟩
def fp32 : FloatFmt := ⟨8, 23, 127, 0x7F7FFFFF, true, 0x7FC00000⟩
def bf16 : FloatFmt := ⟨8, 7, 127, 0x7F7F, true, 0x7FC0⟩
def fp16 : FloatFmt := ⟨5, 10, 15, 0x7BFF, true, 0x7E00⟩
def e4m3 : FloatFmt := ⟨4, 3, 7, 0x7E, false, 0x7F⟩
def e5m2 : FloatFmt := ⟨5, 2, 15, 0x7B, true, 0x7E⟩
def e2m3 : FloatFmt := ⟨2, 3, 1, 0x1F, false, 0⟩
def e3m2 : FloatFmt := ⟨3, 2, 3, 0x1F, false, 0⟩
def e2m1 : FloatFmt := ⟨2, 1, 1, 0x7, false, 0⟩
/-- The finite part of an accumulator slot: a 28-bit significand with FP32's exponent range (R65). -/
def acc28 : FloatFmt := ⟨8, 27, 127, 0x7F7FFFFFF, true, 0x7F8000001⟩

/-- Reads a code of a floating format (R44 to R46); every NaN is one value (R45). -/
def decodeFloat (f : FloatFmt) (bits : Nat) : FVal :=
  let neg := bitOf bits (f.ebits + f.mbits)
  let e := fieldOf bits f.mbits f.ebits
  let m := fieldOf bits 0 f.mbits
  let code := fieldOf bits 0 (f.ebits + f.mbits)
  if f.hasInf && e == 2 ^ f.ebits - 1 then (if m = 0 then .inf neg else .nan)
  else if f.nanCode ≠ 0 ∧ code = f.nanCode then .nan
  else if e = 0 then .fin neg m (1 - (f.bias : Int) - f.mbits)
  else .fin neg (m + 2 ^ f.mbits) ((e : Int) - f.bias - f.mbits)

/-- How a kept magnitude is rounded: to nearest with ties to even, toward zero, or stochastically under one 16-bit
draw (R59, R61). -/
inductive Rounding where
  | nearest
  | truncate
  | stochastic (draw : Nat)
  deriving DecidableEq, Repr

/-- Whether the discarded part `rem` of `2^sh` units rounds the kept magnitude `q` up (R59, R61). -/
def roundsUp (r : Rounding) (q rem sh : Nat) : Bool :=
  match r with
  | .nearest => 2 ^ sh < 2 * rem || (2 * rem == 2 ^ sh && q % 2 == 1)
  | .truncate => false
  | .stochastic draw => 2 ^ 16 ≤ rem * 2 ^ 16 / 2 ^ sh + draw

/-- `man × 2^exp` in whole units of `2^u`, rounded. -/
def roundAt (r : Rounding) (man : Nat) (exp u : Int) : Nat :=
  if u ≤ exp then man * 2 ^ (exp - u).toNat
  else
    let sh := (u - exp).toNat
    let q := man / 2 ^ sh
    if roundsUp r q (man % 2 ^ sh) sh then q + 1 else q

/-- The exponent of the unit in the last place at which `man × 2^exp` is held in a format, subnormals included. -/
def ulpExp (f : FloatFmt) (man : Nat) (exp : Int) : Int :=
  max ((Nat.log2 man : Int) + exp - f.mbits) (1 - (f.bias : Int) - f.mbits)

/-- The magnitude code of a rounded `man × 2^exp`, beyond `maxCode` where it overflows. -/
def magCode (f : FloatFmt) (r : Rounding) (man : Nat) (exp : Int) : Nat :=
  if man = 0 then 0
  else
    let u := ulpExp f man exp
    let q := roundAt r man exp u
    (u - (1 - (f.bias : Int) - f.mbits)).toNat * 2 ^ f.mbits + q

/-- A code with its sign bit. -/
def withSign (f : FloatFmt) (neg : Bool) (code : Nat) : Nat := code + b2n neg * 2 ^ (f.ebits + f.mbits)

/-- The code of an infinity in a format that has one. -/
def infCode (f : FloatFmt) : Nat := (2 ^ f.ebits - 1) * 2 ^ f.mbits

/-- Rounds a value to a format as IEEE 754 arithmetic does: overflow gives an infinity, NaNs are canonical (R136). -/
def encodeArith (f : FloatFmt) (r : Rounding) : FVal → Nat
  | .nan => f.nanCode
  | .inf neg => withSign f neg (infCode f)
  | .fin neg man exp =>
    let c := magCode f r man exp
    withSign f neg (if f.maxCode < c then infCode f else c)

/-- Whether a value is zero. -/
def isZeroV : FVal → Bool
  | .fin _ 0 _ => true
  | _ => false

/-- Whether a value is finite. -/
def isFinV : FVal → Bool
  | .fin .. => true
  | _ => false

/-- The sign with which a value is held. -/
def negOf : FVal → Bool
  | .nan => false
  | .inf n => n
  | .fin n _ _ => n

/-- Flips a value's sign; a NaN stays canonical (R135). -/
def negV : FVal → FVal
  | .nan => .nan
  | .inf n => .inf (!n)
  | .fin n m e => .fin (!n) m e

/-- Clears a value's sign. -/
def absV : FVal → FVal
  | .nan => .nan
  | .inf _ => .inf false
  | .fin _ m e => .fin false m e

/-- The exact product, IEEE 754 for non-finite operands. -/
def mulV : FVal → FVal → FVal
  | .nan, _ => .nan
  | _, .nan => .nan
  | .inf a, .inf b => .inf (a != b)
  | .inf a, .fin b m _ => if m = 0 then .nan else .inf (a != b)
  | .fin a m _, .inf b => if m = 0 then .nan else .inf (a != b)
  | .fin a m e, .fin b n g => .fin (a != b) (m * n) (e + g)

/-- ± man as a whole number. -/
def signedMan (neg : Bool) (man : Nat) : Int := if neg then -(man : Int) else man

/-- The exact sum; x + (−x) is +0, and −0 + −0 is −0. -/
def addV : FVal → FVal → FVal
  | .nan, _ => .nan
  | _, .nan => .nan
  | .inf a, .inf b => if a = b then .inf a else .nan
  | .inf a, .fin .. => .inf a
  | .fin .., .inf b => .inf b
  | .fin a m e, .fin b n g =>
    let x := min e g
    let s := signedMan a m * 2 ^ (e - x).toNat + signedMan b n * 2 ^ (g - x).toNat
    .fin (if s = 0 then a && b else decide (s < 0)) s.natAbs x

/-- The exact difference. -/
def subV (a b : FVal) : FVal := addV a (negV b)

/-- The exact value of a·b + c. -/
def fmaV (a b c : FVal) : FVal := addV (mulV a b) c

/-- A value times a power of two. -/
def scaleV (k : Int) : FVal → FVal
  | .fin n m e => .fin n m (e + k)
  | v => v

/-- The quotient to 80 significant bits with a sticky last bit: enough for one correct rounding. -/
def divV : FVal → FVal → FVal
  | .nan, _ => .nan
  | _, .nan => .nan
  | .inf _, .inf _ => .nan
  | .inf a, .fin b _ _ => .inf (a != b)
  | .fin a _ _, .inf b => .fin (a != b) 0 0
  | .fin a m e, .fin b n g =>
    if n = 0 then (if m = 0 then .nan else .inf (a != b))
    else
      let k := 80 + Nat.log2 n
      let q := m * 2 ^ k / n
      .fin (a != b) (2 * q + b2n (m * 2 ^ k % n != 0)) (e - g - k - 1)

/-- The whole square root, bit by bit from bit `i` down. -/
def isqrtFrom : Nat → Nat → Nat → Nat
  | 0, _, r => r
  | i + 1, n, r => isqrtFrom i n (if (r + 2 ^ i) * (r + 2 ^ i) ≤ n then r + 2 ^ i else r)

/-- The whole square root. -/
def isqrt (n : Nat) : Nat := isqrtFrom (Nat.log2 n / 2 + 1) n 0

/-- The square root to at least 80 bits with a sticky last bit. -/
def sqrtV : FVal → FVal
  | .nan => .nan
  | .inf n => if n then .nan else .inf false
  | .fin n m e =>
    if m = 0 then .fin n 0 0
    else if n then .nan
    else
      let (m, e) := if e % 2 = 0 then (m, e) else (2 * m, e - 1)
      let w := m * 2 ^ 160
      let s := isqrt w
      .fin false (2 * s + b2n (s * s != w)) (e / 2 - 80 - 1)

/-- The order of two values that are not NaN; ±0 are equal. -/
def ltV : FVal → FVal → Bool
  | .nan, _ => false
  | _, .nan => false
  | .inf a, .inf b => a && !b
  | .inf a, .fin .. => a
  | .fin .., .inf b => !b
  | .fin a m e, .fin b n g =>
    let x := min e g
    decide (signedMan a m * 2 ^ (e - x).toNat < signedMan b n * 2 ^ (g - x).toNat)

/-- Equality of two values that are not NaN. -/
def eqV (a b : FVal) : Bool :=
  match a, b with
  | .nan, _ => false
  | _, .nan => false
  | _, _ => !ltV a b && !ltV b a

/-- Whether a value is NaN. -/
def isNanV : FVal → Bool
  | .nan => true
  | _ => false

/-- Whether a value is an infinity. -/
def isInfV : FVal → Bool
  | .inf _ => true
  | _ => false

/-- MIN and MAX of R135: NaN if either is NaN, −0 below +0. -/
def minV (a b : FVal) : FVal :=
  if isNanV a || isNanV b then .nan
  else if ltV a b || (eqV a b && negOf a) then a else b

def maxV (a b : FVal) : FVal :=
  if isNanV a || isNanV b then .nan
  else if ltV b a || (eqV a b && !negOf a) then a else b

/-- An FP32 word as a value, and an FP32 result of one rounding (R136). -/
def decF32 (w : Word) : FVal := decodeFloat fp32 w.toNat
def encF32 (v : FVal) : Word := BitVec.ofNat 32 (encodeArith fp32 .nearest v)
def f32Add (a b : Word) : Word := encF32 (addV (decF32 a) (decF32 b))
def f32Sub (a b : Word) : Word := encF32 (subV (decF32 a) (decF32 b))
def f32Mul (a b : Word) : Word := encF32 (mulV (decF32 a) (decF32 b))
def f32Fma (a b c : Word) : Word := encF32 (fmaV (decF32 a) (decF32 b) (decF32 c))
def f32Div (a b : Word) : Word := encF32 (divV (decF32 a) (decF32 b))
def f32Sqrt (a : Word) : Word := encF32 (sqrtV (decF32 a))
def f32One : Word := 0x3F800000#32
def f32Nan : Word := 0x7FC00000#32

/-- An FP64 word as a value, and an FP64 result of one rounding. -/
def decF64 (w : DWord) : FVal := decodeFloat fp64 w.toNat
def encF64 (v : FVal) : DWord := BitVec.ofNat 64 (encodeArith fp64 .nearest v)
def f64Add (a b : DWord) : DWord := encF64 (addV (decF64 a) (decF64 b))

/-- A BF16 pattern as a value (R44). -/
def decBf16 (w : Nat) : FVal := decodeFloat bf16 w

/-- Element bits of a format code (R43). -/
def elemBits (code : Nat) : Nat :=
  match code with
  | 0x0 => 32 | 0x1 => 16 | 0x2 => 16 | 0x3 => 8 | 0x4 => 8 | 0x5 => 8 | 0x6 => 8 | 0x7 => 6 | 0x8 => 6
  | 0x9 => 4 | 0xA => 8 | 0xB => 8 | 0xC => 4 | 0xD => 32 | 0xE => 4 | _ => 8

/-- Codes 0x5 to 0xA carry one E8M0 scale per 32 elements (R43). -/
def isMx (code : Nat) : Bool := 5 ≤ code && code ≤ 0xA

/-- Integer codes: INT8, INT4, INT32 (R53). -/
def isIntFmt (code : Nat) : Bool := code == 0xB || code == 0xC || code == 0xD

/-- The width class of R80: 8, 4 or 16 bits; none for a format an array does not take. -/
def widthClass (code : Nat) : Option Nat :=
  if code ∈ [0x3, 0x4, 0x5, 0x6, 0x7, 0x8, 0xA, 0xB] then some 8
  else if code ∈ [0x9, 0xC] then some 4
  else if code ∈ [0x1, 0x2] then some 16
  else none

/-- The floating element layout of a format code. -/
def floatOf (code : Nat) : Option FloatFmt :=
  match code with
  | 0x0 => some fp32 | 0x1 => some bf16 | 0x2 => some fp16 | 0x3 => some e4m3 | 0x4 => some e5m2
  | 0x5 => some e4m3 | 0x6 => some e5m2 | 0x7 => some e2m3 | 0x8 => some e3m2 | 0x9 => some e2m1
  | _ => none

/-- A whole number as a value. -/
def intV (x : Int) : FVal := .fin (decide (x < 0)) x.natAbs 0

/-- An element's own value, before any block scale (R44, R52, R53). -/
def decodeElem (code bits : Nat) : FVal :=
  match floatOf code with
  | some f => decodeFloat f bits
  | none =>
    if code == 0xA then scaleV (-6) (intV (signedOf 8 (bits % 256)))
    else intV (signedOf (elemBits code) (bits % 2 ^ elemBits code))

/-- The power an E8M0 scale byte denotes; none for 0xFF, which denotes NaN (R48). -/
def scaleExp (s : Nat) : Option Int := if s % 256 = 0xFF then none else some ((s % 256 : Nat) - 127)

/-- An element times its block scale; a scale of 0xFF makes it NaN (R48). -/
def scaledElem (code bits scale : Nat) : FVal :=
  match scaleExp scale with
  | none => .nan
  | some k => scaleV k (decodeElem code bits)

/-- A converted element and what the health counters record of it (R75). -/
structure Conv where
  bits   : Nat
  ovf    : Bool
  vanish : Bool
  nan    : Bool
  deriving DecidableEq, Repr

/-- Whether a finite magnitude exceeds the value of a format's largest finite code. -/
def exceeds (f : FloatFmt) (man : Nat) (exp : Int) : Bool :=
  match decodeFloat f f.maxCode with
  | .fin _ m e => ltV (.fin false m e) (.fin false man exp)
  | _ => false

/-- Conversion of one element into a floating layout. `sat`: overflow saturates (OVF = SAT, or an element of an MX
format); otherwise it follows the IEEE column of R60. -/
def convFloat (f : FloatFmt) (sat : Bool) (r : Rounding) (v : FVal) : Conv :=
  match v with
  | .nan => ⟨f.nanCode, false, false, true⟩
  | .inf neg =>
    if f.hasInf then ⟨withSign f neg (infCode f), false, false, false⟩
    else if sat then ⟨withSign f neg f.maxCode, true, false, false⟩
    else ⟨f.nanCode, true, false, true⟩
  | .fin neg man exp =>
    let c := magCode f r man exp
    if f.maxCode < c then
      if sat then ⟨withSign f neg f.maxCode, exceeds f man exp, false, false⟩
      else if f.hasInf then ⟨withSign f neg (infCode f), exceeds f man exp, false, false⟩
      else ⟨f.nanCode, exceeds f man exp, false, true⟩
    else ⟨withSign f neg c, exceeds f man exp, man != 0 && c == 0, false⟩

/-- Conversion into an integer of `n` bits in the range [`lo`, `hi`]: saturating, NaN to 0 (R53). DESIGN CHOICE (log 188): an integer overflows
outside its range, so that −128 into INT8 is no overflow (R75 speaks of the largest finite magnitude). -/
def convInt (n : Nat) (lo hi : Int) (r : Rounding) (v : FVal) : Conv :=
  match v with
  | .nan => ⟨0, false, false, false⟩
  | .inf neg => ⟨codeOf n (if neg then lo else hi), true, false, false⟩
  | .fin neg man exp =>
    let q : Int := signedMan neg (roundAt r man exp 0)
    let beyond := ltV (intV hi) v || ltV v (intV lo)
    let x := if q < lo then lo else if hi < q then hi else q
    ⟨codeOf n x, beyond, man != 0 && x == 0, false⟩

/-- The range of an integer format code (R53). -/
def intRange (code : Nat) : Int × Int :=
  if code = 0xB then (-128, 127) else if code = 0xC then (-8, 7) else (-2147483648, 2147483647)

/-- The rounding a CONV names, under one draw (R59, R61). -/
def convRounding (conv draw : Nat) : Rounding := if bitOf conv 0 then .stochastic draw else .nearest

/-- Conversion into a format without block scale (R60). -/
def convScalar (code conv draw : Nat) (v : FVal) : Conv :=
  match floatOf code with
  | some f => convFloat f (!bitOf conv 1) (convRounding conv draw) v
  | none => convInt (elemBits code) (intRange code).1 (intRange code).2 (convRounding conv draw) v

/-- ⌊log₂⌋ of the largest magnitude of a block; none when every element is zero (R50). -/
def amaxLog (vs : List FVal) : Option Int :=
  vs.foldl (fun acc v =>
    match v with
    | .fin _ 0 _ => acc
    | .fin _ m e => some (match acc with | none => (Nat.log2 m : Int) + e | some a => max a ((Nat.log2 m : Int) + e))
    | _ => acc) none

/-- The e_max of each MX element format (R50). -/
def mxEmax (code : Nat) : Int :=
  match code with
  | 0x5 => 8 | 0x6 => 15 | 0x7 => 2 | 0x8 => 4 | 0x9 => 2 | _ => 0

/-- Conversion of one MX element after block scaling: it saturates under either OVF (R60). -/
def convMxElem (code conv draw : Nat) (v : FVal) : Conv :=
  match floatOf code with
  | some f => convFloat f true (convRounding conv draw) v
  | none => convInt 8 (-127) 127 (convRounding conv draw) (scaleV 6 v)

/-- Conversion of a block into an MX format: the scale byte and the elements (R50, R51). -/
def convMx (code conv : Nat) (draw : Nat → Nat) (vs : List FVal) : Nat × List Conv :=
  if vs.all isFinV then
    let x : Int := match amaxLog vs with
      | none => -127
      | some l => max (-127) (min 127 (l - mxEmax code))
    ((x + 127).toNat, vs.zipIdx.map fun p => convMxElem code conv (draw p.2) (scaleV (-x) p.1))
  else (0xFF, vs.map fun _ => ⟨0, false, false, true⟩)

/-- The largest magnitude of a block of finite values. -/
def amaxV (vs : List FVal) : FVal := vs.foldl (fun a v => maxV a (absV v)) (.fin false 0 0)

/-- The smallest S in [0, 254] with amax ≤ q_max × 2^(S − 127), from `n` candidates up (R55). -/
def sdScaleFrom (amax : FVal) (qmax : Nat) : Nat → Nat → Nat
  | 0, s => s
  | n + 1, s =>
    if ltV (.fin false qmax ((s : Int) - 127)) amax && s < 254 then sdScaleFrom amax qmax n (s + 1) else s

/-- Encodes 32 values in SD4 or SD8 (R54 to R56): the scale and the two's-complement element codes. -/
def convSd (bits conv : Nat) (draw : Nat → Nat) (vs : List FVal) : Nat × List Conv :=
  let qmax := 2 ^ (bits - 1) - 1
  if vs.all isFinV then
    let amax := amaxV vs
    let s := if isZeroV amax then 0 else sdScaleFrom amax qmax 254 0
    (s, vs.zipIdx.map fun p =>
      convInt bits (-(qmax : Int)) qmax (convRounding conv (draw p.2)) (scaleV (127 - (s : Int)) p.1))
  else (0xFF, vs.map fun _ => ⟨0, false, false, true⟩)

/-- What an SD block holds (R57): its values, no value, or damage. -/
inductive SdBlock where
  | values (vs : List FVal)
  | noValue
  | damaged
  deriving DecidableEq, Repr

/-- Reads an SD block from its scale and element codes (R57). -/
def decodeSd (bits scale : Nat) (codes : List Nat) : SdBlock :=
  let rsv := 2 ^ (bits - 1)
  if scale = 0xFF then (if codes.all (· == 0) then .noValue else .damaged)
  else if codes.any (· == rsv) then .damaged
  else .values (codes.map fun q => scaleV ((scale : Int) - 127) (intV (signedOf bits q)))

/-- Saturating INT32 combination of a list of inputs (R69). -/
def int32Sum (xs : List Int) : Int :=
  let hi := xs.any (· == 2147483647)
  let lo := xs.any (· == -2147483648)
  if lo then -2147483648
  else if hi then 2147483647
  else max (-2147483648) (min 2147483647 (xs.foldl (· + ·) 0))

/-- An INT32 word as an integer, and back. -/
def i32 (w : Word) : Int := w.toInt
def ofI32 (x : Int) : Word := BitVec.ofInt 32 x

/-! The accumulator slot of floating mode (R65 to R67). -/

/-- A sum on its way to an entry: the sticky flags and the finite part (R65). -/
structure Acc where
  nan  : Bool
  pinf : Bool
  ninf : Bool
  fin  : FVal
  deriving DecidableEq, Repr

/-- An empty sum. -/
def accZero : Acc := ⟨false, false, false, .fin false 0 0⟩

/-- A value as an addend: a non-finite one sets its flag and adds nothing (R66). -/
def accOf : FVal → Acc
  | .nan => ⟨true, false, false, .fin false 0 0⟩
  | .inf false => ⟨false, true, false, .fin false 0 0⟩
  | .inf true => ⟨false, false, true, .fin false 0 0⟩
  | v => ⟨false, false, false, v⟩

/-- Rounds a finite part to the 28-bit significand; overflow sets a flag and writes zero (R66). -/
def accRound (a : Acc) : Acc :=
  match a.fin with
  | .fin neg man exp =>
    let c := magCode acc28 .nearest man exp
    if acc28.maxCode < c then
      { a with pinf := a.pinf || !neg, ninf := a.ninf || neg, fin := .fin false 0 0 }
    else { a with fin := decodeFloat acc28 (withSign acc28 neg c) }
  | _ => a

/-- One adding level of the tree or one addition into the entry (R66). -/
def accAdd (a b : Acc) : Acc :=
  accRound ⟨a.nan || b.nan, a.pinf || b.pinf, a.ninf || b.ninf, addV a.fin b.fin⟩

/-- Applies a block scale of 2^k: exact unless the range is left (R66, R89). -/
def accScale (k : Int) (a : Acc) : Acc := accRound { a with fin := scaleV k a.fin }

/-- The 40-bit slot of a sum (R65). -/
def accBits (a : Acc) : BitVec 40 :=
  let code := match a.fin with
    | .fin neg man exp => withSign acc28 neg (magCode acc28 .nearest man exp)
    | _ => 0
  BitVec.ofNat 40 (b2n a.nan * 2 ^ 39 + b2n a.pinf * 2 ^ 38 + b2n a.ninf * 2 ^ 37 + code)

/-- Reads a 40-bit slot (R65). -/
def accRead (w : BitVec 40) : Acc :=
  let n := w.toNat
  ⟨bitOf n 39, bitOf n 38, bitOf n 37, decodeFloat { acc28 with hasInf := false, nanCode := 0 } (n % 2 ^ 36)⟩

/-- The drained value (R67). -/
def accValue (a : Acc) : FVal :=
  if a.nan || (a.pinf && a.ninf) then .nan
  else if a.pinf then .inf false
  else if a.ninf then .inf true
  else a.fin

/-- One integer accumulation (R68): the nearer limit and SAT where the exact result leaves the range. -/
def intAcc (w : BitVec 40) (x : Int) : BitVec 40 :=
  let v := signedOf 32 (w.toNat % 2 ^ 32) + x
  let beyond := v < -2147483648 || 2147483647 < v
  let c := max (-2147483648) (min 2147483647 v)
  BitVec.ofNat 40 (codeOf 32 c + b2n (bitOf w.toNat 32 || beyond) * 2 ^ 32)

/-- A pairwise tree over a list: one level adds neighbours, an odd last element passes (R84, R139). -/
def pairUp {α : Type} (op : α → α → α) : List α → List α
  | a :: b :: r => op a b :: pairUp op r
  | r => r

/-- `n` levels of a pairwise tree. -/
def treeLevels {α : Type} (op : α → α → α) : Nat → List α → List α
  | 0, xs => xs
  | n + 1, xs => treeLevels op n (pairUp op xs)

end Sys2Proof.Machine
end

