-- ==== Sys2Proof/Config.lean ====
section
/-!
DEFINITION. The values the spec leaves open, each an opaque constant: nothing in Lean can see its value, so a claim
holds whatever it is. Named standards whose arithmetic the spec does not restate stand here as functions of their
operands.
-/

namespace Sys2Proof

/-- A free value: the spec fixes no value where the model applies it to the counter of the state. -/
opaque Config.freeValue : Nat → DWord

/-- The credits that receive queue `q` of the module grants its ports (R421), which the spec does not number. -/
opaque Config.queueCredits : Nat → Nat

/-- The block offsets at which the layers of leaf `p`'s shard end, in the order of the forward pass: the Steward's stage layout (R330),
which the spec does not number. -/
opaque Config.layerEnds : Nat → List Nat

/-- The bases of leaf `p`'s striped MOM1 and MOM2 (R466), where no UPDATE has named them. -/
opaque Config.momentBases : Nat → Nat × Nat

/-- The staging area of leaf `p` (R465) in a rebuild of one deep channel (R468), which no command names. -/
opaque Config.stagingOf : Nat → Nat

/-- The four check symbols of a granule of 64 bytes: a Reed–Solomon code over 8-bit symbols (R206), whose polynomials the spec does not
name. -/
opaque Config.checkSymbols : List Byte → Word

/-- What of the IP and UDP headers of a Siori datagram the spec gives no value for (R428): the module's own address, the UDP source port
under IPv6, the identification field under IPv4, and the checksums of their standards by protocol and bytes. -/
opaque Config.ownAddress : List Byte
opaque Config.udpSource : Nat
opaque Config.ipv4Ident : List Byte → Nat
opaque Config.inetSum : Nat → List Byte → Nat

/-- The generator's draw of 16 bits from a seed, a stream index and a draw counter (R62). -/
opaque Config.srDraw : DWord → Nat → Nat → BitVec 16

/-- The candidate for a transcendental result of the vector engine, which counts where it keeps the bound of R143: the function's code,
with 64 added for a BF16 half, and its operand. -/
opaque Config.transcendental : Nat → Word → Word

/-- The candidates for a softmax's sum of a row's elements and for an output of an element under a maximum and a sum, which count where
they keep the bound of R150. -/
opaque Config.softmaxSum : List Word → Word
opaque Config.softmaxOut : Word → Word → Word → Word

/-- SHAKE256 of a message, the first `n` bytes (R533, R541, R548). -/
opaque Config.shake256 : List Byte → Nat → List Byte

/-- SHA3-384 of a message (R545). -/
opaque Config.sha3x384 : List Byte → List Byte

/-- One AES-256 block under a key (R552, R553). -/
opaque Config.aes256 : List Byte → List Byte → List Byte

/-- AES-256-GCM: the ciphertext and tag of a key, nonce, additional data and plaintext (R412, R432). -/
opaque Config.gcmSeal : List Byte → List Byte → List Byte → List Byte → List Byte × List Byte

/-- AES-256-GCM: the plaintext of a key, nonce, additional data, ciphertext and tag; none where the tag fails. -/
opaque Config.gcmOpen : List Byte → List Byte → List Byte → List Byte → List Byte → Option (List Byte)

/-- Falcon-1024 (R530, R542): the public key of a seed, a signature under a seed, and the check of a signature. -/
opaque Config.falconKey : List Byte → List Byte
opaque Config.falconSign : List Byte → List Byte → List Byte
opaque Config.falconVerify : List Byte → List Byte → List Byte → Bool

/-- ML-KEM-1024 (R548): the encapsulation key of a seed, the ciphertext and shared secret for a key under
randomness, and the shared secret of a ciphertext under a seed. -/
opaque Config.kemKey : List Byte → List Byte
opaque Config.kemEncaps : List Byte → List Byte → List Byte × List Byte
opaque Config.kemDecaps : List Byte → List Byte → List Byte

/-- The key of Thorn's slot 0 (R554), derived from the device secret in a way the spec does not state. -/
opaque Config.recordKey : List Byte → List Byte

/-- The certificate chain of slot 0 (R545): Vutofen's root, the DevID certificate and the alias certificate of two public keys. -/
opaque Config.certChain : List Byte → List Byte → List Byte

/-- What the SPDM standard fixes and the spec does not restate (R545): the bytes a response's signature covers, by response code, nonce
or key sent, and body; the check of FINISH and the next secret of KEY_UPDATE, each from a session's secret. -/
opaque Config.spdmSigned : Nat → List Byte → List Byte → List Byte
opaque Config.spdmVerify : List Byte → List Byte
opaque Config.spdmUpdate : List Byte → List Byte

/-- The random generator's words by request count (R552). -/
opaque Config.drbg : Nat → DWord

end Sys2Proof
end

