-- ==== Sys2Proof/Machine/Store.lean ====
section
/-!
DEFINITION. Sparse storage in one canonical form: a list of (key, value) pairs with strictly rising keys and no
entry equal to what an unlisted key reads as. All of the module's memories and register files are held so.
-/

namespace Sys2Proof.Machine

/-- Sparse storage: an unlisted key reads as the default of the operation that reads it. -/
abbrev Store (α : Type) := List (Nat × α)

/-- Reads key `i`; an unlisted key reads as `d i`. -/
def storeGet {α : Type} (d : Nat → α) : Store α → Nat → α
  | [], i => d i
  | (k, v) :: r, i => if k = i then v else storeGet d r i

/-- Places a pair before the first larger key. -/
def storeInsert {α : Type} (i : Nat) (v : α) : Store α → Store α
  | [] => [(i, v)]
  | (k, w) :: r => if i < k then (i, v) :: (k, w) :: r else (k, w) :: storeInsert i v r

/-- Takes every pair of key `i` out. -/
def storeErase {α : Type} (i : Nat) : Store α → Store α
  | [] => []
  | (k, w) :: r => if k = i then storeErase i r else (k, w) :: storeErase i r

/-- Writes `v` at key `i`; the default value is held by not listing the key. -/
def storePut {α : Type} [DecidableEq α] (d : Nat → α) (m : Store α) (i : Nat) (v : α) : Store α :=
  if v = d i then storeErase i m else storeInsert i v (storeErase i m)

/-- Writes a list of values at consecutive keys from `i` on. -/
def storePutList {α : Type} [DecidableEq α] (d : Nat → α) (m : Store α) (i : Nat) : List α → Store α
  | [] => m
  | v :: vs => storePutList d (storePut d m i v) (i + 1) vs

/-- Reads `n` consecutive keys from `i` on. -/
def storeGetList {α : Type} (d : Nat → α) (m : Store α) (i : Nat) : Nat → List α
  | 0 => []
  | n + 1 => storeGet d m i :: storeGetList d m (i + 1) n

/-- Returns every key of [lo, hi) to its default. -/
def storeClear {α : Type} (m : Store α) (lo hi : Nat) : Store α :=
  m.filter fun p => p.1 < lo || hi ≤ p.1

/-- The store of a list of values at keys 0, 1, ... that leaves out those equal to `z`. -/
def storeOf {α : Type} [DecidableEq α] (z : α) (vs : List α) : Store α :=
  vs.zipIdx.filterMap fun q => if q.1 = z then none else some (q.2, q.1)

/-- The canonical form: keys strictly rising, no entry at its default. -/
def storeWf {α : Type} [DecidableEq α] (d : Nat → α) : Store α → Bool
  | [] => true
  | [(k, v)] => decide (v ≠ d k)
  | (k, v) :: (k', v') :: r => decide (v ≠ d k) && decide (k < k') && storeWf d ((k', v') :: r)

end Sys2Proof.Machine
end

