-- ==== Sys2Proof/Machine/Regs.lean ====
section
/-!
DEFINITION. The register pages: the page map (R608), and for each kind of block the registers of its page with their
offsets, widths, access masks and reset values, as the chapters' tables give them (R12, R18, R607 to R618).
-/

namespace Sys2Proof.Machine

/-- The kinds of block (R608). -/
inductive Kind where
  | dev | hawthorn | thorn | power | clock | health | ageing | part | mbx | perf | array | vec | cart
  | nearmc | deepmc | pruner | privet | port | coach | recovery | hostif | chan | perfUser
  deriving DecidableEq, Repr

/-- The KIND code of BLK_ID (R608, R610). -/
def kindCode : Kind → Nat
  | .dev => 0x01 | .hawthorn => 0x02 | .thorn => 0x03 | .power => 0x04 | .clock => 0x05
  | .health => 0x06 | .ageing => 0x07 | .part => 0x08 | .mbx => 0x09 | .perf => 0x0A
  | .array => 0x0B | .vec => 0x0C | .cart => 0x0D | .nearmc => 0x0E | .deepmc => 0x0F
  | .pruner => 0x10 | .privet => 0x11 | .port => 0x12 | .coach => 0x13 | .recovery => 0x14
  | .hostif => 0x15 | .chan => 0x16 | .perfUser => 0x17

/-- The first page index and the number of pages of a kind (R608). -/
def kindPages : Kind → Nat × Nat
  | .dev => (0x0000, 1) | .hawthorn => (0x0001, 1) | .thorn => (0x0002, 1) | .power => (0x0004, 1)
  | .clock => (0x0005, 1) | .health => (0x0006, 1) | .ageing => (0x0007, 1) | .part => (0x0010, 64)
  | .mbx => (0x0050, 64) | .perf => (0x0090, 64) | .array => (0x0100, 128) | .vec => (0x0180, 128)
  | .cart => (0x0200, 64) | .nearmc => (0x0240, 32) | .deepmc => (0x0260, 32) | .pruner => (0x0280, 32)
  | .privet => (0x02A0, 4) | .port => (0x02C0, 48) | .coach => (0x02F0, 1) | .recovery => (0x02F4, 1)
  | .hostif => (0x0300, 1) | .chan => (0x0400, 256) | .perfUser => (0x0600, 64)

/-- Every kind, in page order. -/
def allKinds : List Kind :=
  [.dev, .hawthorn, .thorn, .power, .clock, .health, .ageing, .part, .mbx, .perf, .array, .vec, .cart,
   .nearmc, .deepmc, .pruner, .privet, .port, .coach, .recovery, .hostif, .chan, .perfUser]

/-- The page index of instance `n` of a kind (R608). -/
def pageOf (k : Kind) (n : Nat) : Nat := (kindPages k).1 + n

/-- The kind and instance of a page index; none where the map lists no block (R607). -/
def pageKind (x : Nat) : Option (Kind × Nat) :=
  (allKinds.find? fun k => (kindPages k).1 ≤ x && x < (kindPages k).1 + (kindPages k).2).map
    fun k => (k, x - (kindPages k).1)

/-- The page index of a tier's controller (R608). -/
def pageMc (t : Tier) (k : Nat) : Nat :=
  match t with
  | .near => pageOf .nearmc k
  | .deep => pageOf .deepmc k

/-- One row of a register table: `count` registers from `off` on, `stride` bytes apart; the bits a write sets (RW),
clears (W1C) or takes without storing (WO); whether a read clears (RC); the reset value. -/
structure RegRow where
  off    : Nat
  count  : Nat
  stride : Nat
  wide   : Bool
  rw     : Nat
  w1c    : Nat
  wo     : Nat
  rc     : Bool
  reset  : Nat
  deriving DecidableEq, Repr

/-- A read-only 32-bit register. -/
def ro (off : Nat) (reset : Nat := 0) : RegRow := ⟨off, 1, 4, false, 0, 0, 0, false, reset⟩
/-- A read-only 64-bit register. -/
def ro64 (off : Nat) : RegRow := ⟨off, 1, 8, true, 0, 0, 0, false, 0⟩
/-- `count` read-only 64-bit registers. -/
def ros64 (off count stride : Nat) : RegRow := ⟨off, count, stride, true, 0, 0, 0, false, 0⟩
/-- A read-write 32-bit register with its writable bits. -/
def rw (off mask : Nat) (reset : Nat := 0) : RegRow := ⟨off, 1, 4, false, mask, 0, 0, false, reset⟩
/-- A read-write 64-bit register with its writable bits. -/
def rw64 (off mask : Nat) : RegRow := ⟨off, 1, 8, true, mask, 0, 0, false, 0⟩
/-- A write-only 32-bit register. -/
def wo (off mask : Nat) : RegRow := ⟨off, 1, 4, false, 0, 0, mask, false, 0⟩
/-- `count` stall or event counters: COUNT read-only, OVF in bit 63 cleared by writing 1 (R121). -/
def stalls (off count : Nat) : RegRow := ⟨off, count, 8, true, 0, 2 ^ 63, 0, false, 0⟩

/-- All ones in `n` bits. -/
def mask (n : Nat) : Nat := 2 ^ n - 1

/-- The bits of BLK_EVENT that a kind of page defines (R123, R159, R170, R243, R276, R304, R364, R400, R439, R474,
R498, R526, R557, R563, R585, R587, R588, R592, R598, R617, R633, R634). -/
def eventMask : Kind → Nat
  | .dev => mask 2 | .hawthorn => mask 8 | .thorn => mask 1 | .power => mask 4 | .clock => 0
  | .health => mask 3 | .ageing => mask 2 | .part => mask 14 | .mbx => 0 | .perf => mask 2
  | .array => mask 4 | .vec => mask 2 | .cart => mask 3 | .nearmc => mask 7 | .deepmc => mask 7
  | .pruner => mask 4 | .privet => mask 2 | .port => mask 8 | .coach => mask 13 | .recovery => mask 10
  | .hostif => mask 6 | .chan => mask 2 | .perfUser => 0

/-- The common header (R18, R610 to R614). BLK_ID, BLK_REV and BLK_CAPS are computed where they are read. -/
def headerRows (k : Kind) : List RegRow :=
  [ro 0x000, ro 0x004, ro 0x008, rw 0x00C (if k = .array then 1 else 0), ro 0x010,
   ⟨0x014, 1, 4, false, 0, eventMask k, 0, false, 0⟩, rw 0x018 (eventMask k), rw 0x01C 1,
   ro64 0x020, ro64 0x028, ro 0x030]

/-- The memory controller pages (R242); SCRUB_PERIOD resets to the tier's default (R230). -/
def mcRows (period : Nat) : List RegRow :=
  [⟨0x040, 1, 4, false, mask 12, 0, 2 ^ 12, false, 0xC20⟩, ro 0x044, rw 0x048 0xFF period,
   rw 0x04C (mask 32) 1000, ⟨0x050, 4, 4, false, 0, 0, 0, false, 0⟩, ro64 0x060, ro64 0x068, ro64 0x070,
   ro 0x078, ro64 0x080, ro64 0x088, ro64 0x090, ro64 0x098, ro 0x0A0,
   ⟨0x0A4, 1, 4, false, 0, 0, 0, true, 0⟩, ro64 0x0A8]

/-- The ARRAY page (R121, R268, R293). -/
def arrayRows : List RegRow :=
  [rw 0x040 1, ro 0x044, rw64 0x050 (mask 48), wo 0x058 3, ro 0x05C, ro64 0x060, ro64 0x068, stalls 0x080 10,
   ⟨0x100, 7, 0x10, false, mask 21, 0, 0, false, 0⟩, ⟨0x104, 7, 0x10, false, mask 21, 0, 0, false, 0⟩,
   ⟨0x108, 7, 0x10, false, 0, 0, 0, false, 0⟩, ⟨0x10C, 7, 0x10, false, 0, 0, 0, false, 0⟩,
   ⟨0x180, 1, 4, false, 0xFD, 0, 2, false, 0⟩, rw 0x184 (mask 21), rw 0x188 (mask 22), rw 0x18C (mask 21),
   rw 0x190 (mask 21), ro 0x194]

/-- The PART page (R497, R498, R219, R529, R333, R363, R399, R420, R472); PEER_PART resets to p. -/
def partRows (p : Nat) : List RegRow :=
  [⟨0x040, 32, 4, false, 0, 0, 0, false, 0⟩, ro 0x0C0, ro 0x0C4, ro 0x0C8 0x400, ro 0x0CC 0x400, ro 0x0D0,
   ro64 0x0D8, ro64 0x0E0, ⟨0x0E8, 1, 4, false, 0, 0, 0, true, 0⟩, ro 0x0EC, ro64 0x0F0,
   rw64 0x100 (mask 48), rw 0x108 (mask 17), rw 0x10C (mask 20), rw64 0x110 (mask 48), wo 0x118 0xFFFFF003,
   ro 0x11C, ro64 0x120, rw64 0x128 (mask 48), rw 0x130 (mask 27), rw 0x134 (mask 21), rw 0x138 (mask 15),
   rw 0x200 (mask 12) 0x600, rw 0x204 0xFFFF, rw 0x208 0x3FFF3FFF, rw 0x20C (mask 24), rw64 0x210 (mask 48),
   rw 0x218 (mask 14), rw 0x21C (mask 32) 0x7F800000, rw 0x220 0xFFFF 100, rw 0x224 0xFF, ro 0x228,
   rw 0x22C 0xFFFF 200, ro 0x230, ro 0x234, ⟨0x238, 1, 4, false, 0, 0, 0, true, 0⟩, ro64 0x240,
   ⟨0x248, 1, 8, true, 0, 0, 0, true, 0⟩, ro64 0x250, ro64 0x258, ro 0x260, rw 0x264 (mask 15),
   ro 0x280, ro 0x284, ro64 0x288, ro64 0x290, ro64 0x298, ro 0x2A0,
   ro 0x300, ro 0x304, ro 0x308, ro 0x30C, ros64 0x310 10 8,
   rw 0x3F0 (mask 6) p, ⟨0x400, 16, 0x20, true, mask 48, 0, 0, false, 0⟩,
   ⟨0x408, 16, 0x20, true, mask 64, 0, 0, false, 0⟩, ⟨0x410, 16, 0x20, false, mask 17, 0, 0, false, 0⟩,
   ⟨0x414, 16, 0x20, false, mask 24, 0, 0, false, 0⟩, ⟨0x418, 16, 0x20, false, mask 24, 0, 0, false, 0⟩,
   rw 0x600 0x3F03 0x700, rw 0x604 (mask 30), rw 0x608 (mask 30), rw64 0x610 (mask 48), rw64 0x618 (mask 48),
   rw64 0x620 (mask 48), rw64 0x628 (mask 36), rw 0x630 (mask 27), ro 0x634, ro 0x638, ro 0x63C, ro64 0x640,
   ro64 0x648]

/-- The PERF page (R592, R77). -/
def perfRows : List RegRow :=
  [⟨0x040, 1, 4, false, 2, 0, 5, false, 0⟩, rw 0x044 (mask 27), rw64 0x048 (mask 48), ro 0x050, ro 0x054,
   ro64 0x058, ro64 0x060, ro64 0x068, ro64 0x070, stalls 0x080 8, ros64 0x0C0 8 8,
   ⟨0x100, 8, 4, false, mask 20, 0, 0, false, 0⟩, ⟨0x120, 4, 4, false, 0, 0, 0, false, 2500⟩,
   ⟨0x3F0, 1, 4, false, 2, 0, 1, false, 0⟩, ro64 0x3F8, ros64 0x400 64 8]

/-- The PORT page (R438). -/
def portRows : List RegRow :=
  [⟨0x040, 1, 4, false, mask 5, 0, 2 ^ 5, false, 0⟩, ro 0x044, rw 0x048 (mask 24) 0x1312D0, ro 0x04C,
   ros64 0x050 12 8, ro 0x0B0, rw 0x0B4 (mask 21) 0x1407D0,
   ⟨0x800, 256, 8, true, 0x00BFFFFFFFFFFFFF, 0, 0, false, 0⟩]

/-- The block's own registers of each kind of page. -/
def bodyRows (k : Kind) (n : Nat) : List RegRow :=
  match k with
  | .dev => [ro 0x040, ro 0x044, ⟨0x050, 4, 4, false, 0, 0, 0, false, 0⟩, ro64 0x060, ro64 0x068, ro64 0x070,
      ro 0x200, ro64 0x208, ro 0x210, ro 0x214, ro64 0x218]
  | .hawthorn => [ro 0x040, ro 0x044, ro 0x048, ro64 0x050, ro 0x058, ro64 0x060, ro64 0x068, ro64 0x070,
      ⟨0x100, 64, 4, false, 0, 0, 0, false, 0⟩]
  | .thorn => [⟨0x040, 1, 4, false, 7, 0, 8, false, 0⟩, ro 0x044, rw 0x048 (mask 32), wo 0x04C (mask 32),
      ⟨0x050, 4, 4, false, 0, 0, 0, false, 0⟩, rw 0x060 (mask 5) 24,
      ⟨0x080, 64, 4, false, 0, 0, mask 32, false, 0⟩, ros64 0x180 8 8]
  | .power => [ro 0x040 2600, ro 0x044, ro 0x048, ro 0x04C, ro 0x050, ro 0x054, ro64 0x058, ro64 0x060,
      ro 0x068, ro 0x06C]
  | .clock => [ro64 0x040, ro 0x048, ⟨0x050, 4, 4, false, 0, 0, 0, false, 2500⟩, ro64 0x060]
  | .health => [ro 0x040, ro 0x044, ro 0x048, ro 0x04C, ⟨0x400, 128, 4, false, 0, 0, 0, false, 0⟩,
      ⟨0x600, 64, 4, false, 0, 0, 0, false, 0⟩, ⟨0x700, 32, 4, false, 0, 0, 0, false, 0⟩]
  | .ageing => [ro 0x040 24, ro 0x044 20, ro 0x048 2000, ro64 0x050, ro 0x058 0xFFFF, rw 0x060 (mask 10),
      ro64 0x068, ⟨0x100, 16, 4, false, 0, 0, 0, false, 0⟩]
  | .part => partRows n
  | .mbx => [rw 0x040 (mask 15), ro 0x044, ro64 0x048, ro64 0x050, ro64 0x058]
  | .perf => perfRows
  | .perfUser => perfRows
  | .array => arrayRows
  | .vec => [ro 0x040, ro64 0x048, ro64 0x050, ro64 0x058, ro64 0x060, ro64 0x068, stalls 0x080 10]
  | .cart => [ro 0x040, ro64 0x048, ro64 0x050, ro64 0x058, ro64 0x060, ro64 0x068, ro64 0x070, stalls 0x080 14]
  | .nearmc => mcRows 6
  | .deepmc => mcRows 24
  | .pruner => [ro 0x040, rw64 0x048 (mask 48), ro64 0x050, ro64 0x058, ro64 0x060, ro64 0x068, ro64 0x070,
      stalls 0x080 14]
  | .privet => [ros64 0x040 9 8, ro 0x088]
  | .port => portRows
  | .coach => [ro 0x040, ro64 0x048, ro64 0x050, ro64 0x058, rw 0x060 (mask 21) 0x1407D0, ros64 0x068 5 8]
  | .recovery => [ro 0x040, ro 0x044, ro64 0x048, ro 0x050, ros64 0x058 6 8]
  | .hostif => [ro 0x040, ro 0x044, ro64 0x048, ro 0x050, ros64 0x058 8 8]
  | .chan => [rw 0x040 1, wo 0x044 3, ro 0x048, ro 0x04C, ro 0x050, ro 0x054, ro64 0x058, ro64 0x060]

/-- A register word as an access meets it: its row and which half of a 64-bit register it is. -/
structure RegWord where
  row   : RegRow
  upper : Bool
  deriving DecidableEq, Repr

/-- Whether a word offset is one of a row's registers (the lower half of a wide one). -/
def rowHits (r : RegRow) (off : Nat) : Bool :=
  r.off ≤ off && (off - r.off) % r.stride == 0 && (off - r.off) / r.stride < r.count

/-- The register word at a word-aligned offset of a page; none between defined registers (R616). -/
def regWordAt (k : Kind) (n off : Nat) : Option RegWord :=
  let rows := headerRows k ++ bodyRows k n
  match rows.find? fun r => rowHits r off with
  | some r => some ⟨r, false⟩
  | none =>
    match rows.find? fun r => r.wide && 4 ≤ off && rowHits r (off - 4) with
    | some r => some ⟨r, true⟩
    | none => none

/-- The reset value of a register word. -/
def regResetAt (k : Kind) (n off : Nat) : Word :=
  match regWordAt k n off with
  | some w => BitVec.ofNat 32 (if w.upper then w.row.reset / 2 ^ 32 else w.row.reset)
  | none => 0

/-- The key of a register word: page index × 4 KiB + offset (R607). -/
def regKey (page off : Nat) : Nat := page * 0x1000 + off

/-- Pages beyond BAR 0's name BAR 2 in register accesses (R505, R528): the mailbox region of MBX[n]. -/
def mbxRegion (n : Nat) : Nat := 0x4000 + n

/-- The MSI-X table of function `fn` (0 function 0, 1 + v virtual function v), eight pages of 256 entries (R505). -/
def msixPage (fn vector : Nat) : Nat := 0x4100 + 8 * fn + vector / 256

/-- The word of a vector's entry at byte `w` of its 16 (R505). -/
def msixOff (vector w : Nat) : Nat := vector % 256 * 16 + w

/-- The message control of a function's MSI-X capability: [0] enable, [1] function mask; and its pending bits. -/
def msixCtrlPage (fn : Nat) : Nat := 0x4200 + fn

/-- BAR 2's doorbell groups of channels 2i and 2i + 1 (R505), its pending bit array, and the first page of BAR 4 (R506). -/
def doorbellPage (i : Nat) : Nat := 0x5000 + i
def pendingPage : Nat := 0x5100
def bar4Page : Nat := 0x6000

/-- What an unwritten register word reads as: its reset value. MSI-X vectors start masked, as PCIe sets them. -/
def regReset (key : Nat) : Word :=
  let page := key / 0x1000
  if 0x4100 ≤ page then (if page < 0x4188 && key % 16 == 12 then 1 else 0)
  else
    match pageKind page with
    | some (k, n) => regResetAt k n (key % 0x1000)
    | none => 0

/-- The writable mask of a register word, cut to its half. -/
def halfMask (w : RegWord) (m : Nat) : Nat := if w.upper then m / 2 ^ 32 else m % 2 ^ 32

/-- The severity of an event bit of a kind of page (R20 and the tables named at `eventMask`): 0 NOTE, 1 WARN, 2 FAULT,
3 FATAL. -/
def eventSev (k : Kind) (bit : Nat) : Nat :=
  let row : List Nat := match k with
    | .dev => [0, 1] | .hawthorn => [1, 3, 2, 1, 1, 0, 0, 1] | .thorn => [1] | .power => [1, 0, 3, 1]
    | .health => [2, 3, 1] | .ageing => [0, 1]
    | .part => [1, 0, 2, 2, 1, 2, 1, 0, 2, 2, 1, 1, 1, 2]
    | .perf => [0, 1] | .array => [2, 0, 2, 2] | .vec => [2, 2] | .cart => [2, 1, 2]
    | .nearmc => [1, 2, 1, 2, 2, 3, 0] | .deepmc => [1, 2, 1, 2, 2, 3, 0]
    | .pruner => [1, 2, 2, 0] | .privet => [2, 2] | .port => [2, 1, 0, 1, 0, 1, 1, 0]
    | .coach => [0, 1, 1, 1, 1, 1, 1, 1, 1, 2, 2, 1, 2] | .recovery => [0, 1, 1, 2, 2, 0, 1, 1, 1, 1]
    | .hostif => [1, 0, 1, 2, 2, 1] | .chan => [1, 2]
    | _ => []
  row.getD bit 0

end Sys2Proof.Machine
end

