-- ==== Sys2Proof/Machine/State.lean ====
section
/-!
DEFINITION. The state of the module: every register page, memory, ring, buffer, mode and message the spec gives it, as
plain data, with the queue of the commands that wait. Registers stand in one store by page and offset; what a register
only reports (a credit count, an age) is computed where it is read.
-/

namespace Sys2Proof.Machine

/-- Who holds what, in module numbering (R477, R479): a partition's masks, its yard bytes and its fill slots by
module field. -/
structure Holding where
  arrays : BitVec 128
  carts  : BitVec 64
  ports  : BitVec 48
  folds  : BitVec 8
  yard   : List Nat
  fill   : List Nat
  deriving DecidableEq, Repr

/-- The empty holding. -/
def Holding.none : Holding := ⟨0, 0, 0, 0, [0, 0, 0, 0], [0, 0, 0, 0]⟩

/-- A partition of the tree (R475 to R479): the partition in whose view its record is numbered (none: the module's numbering), the
record of 128 bytes and what the record gives in module numbering. -/
structure Part where
  present : Bool
  leaf    : Bool
  parent  : Nat
  depth   : Nat
  top     : Nat
  vf      : Option Nat
  view    : Option Nat
  record  : BitVec 1024
  hold    : Holding
  deriving DecidableEq, Repr

/-- No partition. -/
def Part.none : Part := ⟨false, false, 127, 0, 0, .none, .none, 0, Holding.none⟩

/-- A manifest's grant to a leaf (R197, R199): masks in module numbering. -/
structure Grant where
  loaded     : Bool
  arrays     : BitVec 128
  bayBytes   : Nat
  yardBytes  : List Nat
  yardBase   : List Nat
  nearBytes  : Nat
  deepBytes  : Nat
  draftBytes : Nat
  channels   : List Nat
  semBase    : Nat
  semCount   : Nat
  ports      : BitVec 48
  counters   : Nat
  entitle    : BitVec 5
  folds      : List (Nat × Nat)
  seed       : DWord
  draftFree  : List Nat
  pieceTable : Nat
  commitWord : List Nat
  commitRec  : Nat
  loadedAt   : Nat
  nearFrames : List Nat
  deepFrames : List Nat
  draftPages : List Nat
  hostTable  : Nat
  deriving DecidableEq, Repr

/-- No manifest. -/
def Grant.none : Grant :=
  ⟨false, 0, 0, [0, 0, 0, 0], [0, 0, 0, 0], 0, 0, 0, [], 0, 0, 0, 0, 0, [], 0, [], 0, [], 0, 0, [], [], [], 0⟩

/-- The state of a draft (R196). -/
inductive DraftState where
  | free
  | open_
  | spoiled
  | committing
  | discarding
  deriving DecidableEq, Repr

/-- Why a draft ended (R194). -/
inductive DraftReason where
  | requested
  | predicate
  | fault
  | conflict
  | pages
  | reset
  deriving DecidableEq, Repr

/-- A deferred write of a draft PRUNE (R357): the carriage; the rule record, the clip factor and the next block of its deferred pass once
that has begun; whether the draft has committed and the pass may run. -/
structure Deferred where
  word  : BitVec 1024
  begun : Option (BitVec 512 × Word × Nat)
  ready : Bool
  deriving DecidableEq, Repr

/-- A draft of a leaf (R181 to R196). -/
structure Draft where
  state     : DraftState
  reason    : DraftReason
  pageLimit : Nat
  pages     : List (Nat × Nat)
  free      : List Nat
  semBase   : Nat
  semCount  : Nat
  semValues : List Word
  scr0      : Nat × Nat
  scr1      : Nat × Nat
  closing   : Option (BitVec 1024)
  closeChan : Nat
  deferred  : List Deferred
  used      : Nat
  deriving DecidableEq, Repr

/-- A draft index that is FREE. -/
def Draft.none : Draft := ⟨.free, .requested, 0, [], [], 0, 0, [], (0, 0), (0, 0), .none, 0, [], 0⟩

/-- What SMXS collects of a row (R147 to R149): its unmasked elements with their maximum and sum, the count of +∞, the case the row is
decided by, the log-sum-exp. -/
structure SmxRow where
  xs    : List Word
  m     : Word
  s     : Word
  k     : Nat
  nan   : Bool
  empty : Bool
  inf   : Bool
  lse   : Word
  deriving DecidableEq, Repr

/-- Where a VCHAIN stands inside a row (R132, R154): the pass, the next beat, the running row values by stage, what SMXS has read of the
row with its mask, its statistics. -/
structure VecRow where
  pass   : Nat
  beat   : Nat
  run    : List (Option Word)
  smx    : List (Word × Bool)
  stat   : Option SmxRow
  deriving DecidableEq, Repr

/-- A row in the skid buffer (R93): its number, its output bytes, its scale bytes. -/
structure SkidRow where
  row    : Nat
  bytes  : List Byte
  scales : List Byte
  deriving DecidableEq, Repr

/-- A FOLD a sequencer runs (R105 to R107, R112): its carriage, whether it has begun and so holds its arrays, the group of rows, the
work unit and the tile it comes to next, and the slot the next tile of each array goes to. -/
structure FoldRun where
  word  : BitVec 1024
  begun : Bool
  group : Nat
  unit  : Nat
  tile  : Nat
  turn  : List Nat
  deriving DecidableEq, Repr

/-- A carriage dispatched and not complete (R172, R177): where it came from, the engine that runs it, how far it has come and where
its rings started; of a STREAM its rows in the skid buffer, of a VCHAIN its place inside a row; of a CART the bytes of its row not yet
delivered, or of a load the bytes taken from the inbox, whether POISON_COPIED was raised, whether staged data may serve it (R261),
its message number (R413), the codec unit it holds (R258), the length of the row under way and the ring scales that go with it (R267); of an UPDATE the blocks each Pruner has done, its rule record and clip factor. -/
structure Flight where
  chan     : Nat
  part     : Nat
  word     : BitVec 1024
  engine   : Nat
  plane    : Nat
  row      : Nat
  started  : Bool
  rows     : Bool
  loads    : Bool
  faulted  : Bool
  empty    : Bool
  ringPos  : List (Nat × Nat)
  startAt  : Nat
  buf      : List (Byte × Bool)
  warned   : Bool
  chained  : Bool
  msg      : Option Nat
  next     : List Nat
  rule     : BitVec 512
  clip     : Word
  skid     : List SkidRow
  inRow    : Option VecRow
  unit     : Option Nat
  rowLen   : Nat
  scales   : List (Byte × Bool)
  deriving DecidableEq, Repr

/-- A channel's standing beside its page (R163, R169): the leaf it belongs to, whether the carriage at the read pointer
passed its first check, whether the channel waits at a FENCE, a WAIT, a COMMIT or a DISCARD. -/
structure Chan where
  owner    : Option Nat
  headOk   : Bool
  closing  : Bool
  quiesced : Bool
  deriving DecidableEq, Repr

/-- A channel of no leaf. -/
def Chan.none : Chan := ⟨.none, false, false, false⟩

/-- One matrix slot of an array (R79, R94): its cells by 128 row + column, its scale bytes in source order, L_BAXIS of its
load (R98). -/
structure Slot where
  bytes  : Store Byte
  scales : Store Byte
  baxis  : Nat
  deriving DecidableEq, Repr

/-- An empty slot. -/
def Slot.none : Slot := ⟨[], [], 0⟩

/-- A lend (R487 to R494): the fill leaf and its slot in the array's field, the lender, when a reclaim began, if one runs. -/
structure Lent where
  fill      : Nat
  lender    : Nat
  slot      : Nat
  reclaimAt : Option Nat
  deriving DecidableEq, Repr

/-- An array (entries by 256 column + entry) with its feeder, drain, inbox and drain compressor (R79 to R122, R255, R265, R293). -/
structure ArrayUnit where
  slot0    : Slot
  slot1    : Slot
  entries  : Store (BitVec 40)
  inbox    : List (Byte × Bool)
  compat   : Bool
  draws    : Nat
  parityAt : List Nat
  stopped  : Bool
  lentTo   : Option Lent
  pzBytes  : List (Byte × Bool)
  ringWr   : List Nat
  ringRd   : List Nat
  deriving DecidableEq, Repr

/-- An array as reset leaves it. -/
def ArrayUnit.none : ArrayUnit :=
  ⟨Slot.none, Slot.none, [], [], false, 0, [], false, .none, [], [0, 0, 0, 0, 0, 0, 0],
   [0, 0, 0, 0, 0, 0, 0]⟩

/-- A vector engine (R128, R129, R150): its registers by 256 v + lane, its draw count. -/
structure VecUnit where
  regs  : Store Word
  draws : Nat
  deriving DecidableEq, Repr

/-- A vector engine as reset leaves it. -/
def VecUnit.none : VecUnit := ⟨[], 0⟩

/-- A fill slot of a leaf (R487 to R493): the array it is bound to and, while it is bound to none, the saved bytes of its bay with
their poison marks; its context image stands with the other images. -/
structure FillSlot where
  bound : Option Nat
  bay   : List (Byte × Bool)
  deriving DecidableEq, Repr

/-- A fill slot that has never run. -/
def FillSlot.none : FillSlot := ⟨.none, []⟩

/-- A context image in the yard (R112, R113, R154): an array with its vector engine and ARRAY_STATE, and the sequencer whose state it
holds. -/
structure CtxImage where
  array : ArrayUnit
  vec   : VecUnit
  state : Word
  fold  : Option (Nat × FoldRun)
  valid : Bool
  deriving DecidableEq, Repr

/-- No image. -/
def CtxImage.none : CtxImage := ⟨ArrayUnit.none, VecUnit.none, 0, .none, false⟩

/-- A Cart engine's staged data (R259 to R262): the blocks by virtual address with their bytes and poison marks, those fetched for
the next carriage and those that serve the present one; leaf, channel and draft of the last carriage started; the channel of the
last one dispatched, and whether a WAIT, FENCE or SERIAL carriage followed it there; whether run-ahead has stopped. -/
structure CartUnit where
  staged   : List (Nat × List (Byte × Bool))
  inUse    : List (Nat × List (Byte × Bool))
  part     : Nat
  chan     : Nat
  draft    : Option Nat
  dchan    : Option Nat
  broken   : Bool
  raStop   : Bool
  last     : Option (BitVec 1024)
  deriving DecidableEq, Repr

/-- A Cart engine with nothing staged. -/
def CartUnit.none : CartUnit := ⟨[], [], 0, 0, .none, .none, false, true, .none⟩

/-- An event record that is not yet written to its queues (R598 to R600); `none` as a destination is the module
queue. -/
structure EvRec where
  time   : Nat
  page   : Nat
  bit    : Nat
  sev    : Nat
  part   : Option Nat
  rep    : Nat
  arg0   : DWord
  arg1   : DWord
  dests  : List (Option Nat)
  deriving DecidableEq, Repr

/-- What a queue remembers beside its registers (R601, R602): the records lost since credit ran out, the holdoff's end,
a record written in the holdoff, when the consumer word was last read. -/
structure EvQueue where
  lost     : Nat
  holdEnd  : Nat
  covered  : Bool
  lastRead : Nat
  deriving DecidableEq, Repr

/-- A queue with nothing outstanding. -/
def EvQueue.none : EvQueue := ⟨0, 0, false, 0⟩

/-- A line of the snoop filter (R512): its window offset, its device address, whether the host's copy is known clean, and
the back-invalidation that waits for its BIRsp, if any (true: BISnpInv), and when it was sent. -/
structure SfLine where
  off     : Nat
  dev     : Nat
  clean   : Bool
  waiting : Option Bool
  sent    : Nat
  deriving DecidableEq, Repr

/-- Everything the module sends out: answers to reads, interrupts, messages, frames and sideband responses. -/
inductive Out where
  | readData (who : Agent) (page off : Nat) (value : DWord)
  | memData (bytes : List Byte) (poisoned : Bool)
  | msix (fn vector : Nat)
  | stewardIrq (m : Nat)
  | message (type_ : Nat) (fields : List Nat) (bytes packet : List Byte)
  | frame (port : Nat) (bytes : List Byte)
  | flit (port : Nat) (kind : Nat) (fields : List Nat) (bytes : List Byte)
  | queueMsg (kind : Nat) (dest : Nat) (fields : List Nat)
  | shadow (dest addr : Nat) (last poison : Bool) (bytes : List Byte)
  | handshake (kind : Nat) (fields : List Nat) (bytes : List Byte)
  | biSnoop (inv : Bool) (off : Nat)
  | snoopReply (addr : Nat)
  | hostMsg (kind : Nat) (fields : List Nat)
  | spdm (code : Nat) (fields : List Nat) (bytes : List Byte)
  | tap (value : Word)
  | busError (addr : Nat)
  | aer (fn : Nat) (kind : Nat) (addr : Nat)
  | pldm (kind : Nat) (value : Int)
  | fru (ordering serial : List Byte) (deviceId : DWord)
  | ethernet (port : Nat) (kind : Nat) (bytes : List Byte)
  deriving DecidableEq, Repr

/-- A mailbox reply that waits for its direction to be empty (R522). -/
structure Reply where
  code   : Nat
  seq    : BitVec 8
  status : Nat
  words  : List Word
  deriving DecidableEq, Repr

/-- A mailbox (R518 to R522, R528): its FULL flags, its queues of words, the words left of the reply being read, the requests taken and the
replies that wait.
Its message registers stand with the other registers, in BAR 2's region of the mailbox. -/
structure Mailbox where
  reqFull : Bool
  rplFull : Bool
  reqQ    : List Word
  rplQ    : List Word
  rplLeft : Nat
  credits : Word
  taken   : List (List Word)
  replies : List Reply
  leaf    : Option Nat
  deriving DecidableEq, Repr

/-- A mailbox with nothing in it. -/
def Mailbox.none : Mailbox := ⟨false, false, [], [], 0, 0, [], [], .none⟩

/-- The thermal control of an array island (R576): its duty in sixteenths, when it last rose and fell, since when its
junction has been at 105 °C or above. -/
structure Therm where
  duty     : Nat
  roseAt   : Nat
  fellAt   : Nat
  hotSince : Option Nat
  deriving DecidableEq, Repr

/-- An island that is not throttled. -/
def Therm.none : Therm := ⟨0, 0, 0, .none⟩

/-- A command whose reply waits for power domains to be ready (R565). -/
structure DomainWait where
  rq      : Req
  code    : Nat
  words   : List Word
  domains : List Nat
  deriving DecidableEq, Repr

/-- Power, thermal control, ageing and the input beside their pages (R564 to R583, R626, R629); `enWaits`: writes of PORT_CTRL that wait
for their domain (R565), by port. The ageing history, the baselines of the process monitors and the
age in nanoseconds lie in the Steward's non-volatile record: a cold reset keeps them (R583). -/
structure Power where
  capNext     : Option Nat
  govHigh     : List Nat
  zeroSince   : Nat
  alarm       : Bool
  energyRem   : Nat
  onAt        : Store Nat
  lastOn      : Option Nat
  wakeQueue   : List Nat
  waits       : List DomainWait
  enWaits     : List (Nat × Nat)
  tripped     : BitVec 20
  operatorOff : BitVec 20
  therm       : Store Therm
  droop       : BitVec 64
  rangeSince  : Option Nat
  deltaSince  : Option Nat
  inletSince  : Option Nat
  deltaDone   : Bool
  inletDone   : Bool
  decided     : Store Bool
  lastClock   : Store (Option Nat)
  exhausted   : BitVec 16
  history     : List DWord
  ageNs       : Nat
  pmonBase    : List Nat
  deriving DecidableEq, Repr

/-- Power after a cold reset: every domain off, and the Steward's order of waking (R567). -/
def Power.reset : Power :=
  { capNext := none, govHigh := [], zeroSince := 0, alarm := false, energyRem := 0, onAt := [], lastOn := none,
    wakeQueue := [16, 17, 18, 19, 0, 1, 2, 3, 4, 5, 6, 7, 8, 9, 10, 11, 12, 13, 14, 15], waits := [], enWaits := [], tripped := 0,
    operatorOff := 0, therm := [], droop := 0, rangeSince := none, deltaSince := none, inletSince := none, deltaDone := false, inletDone := false,
    decided := [], lastClock := [], exhausted := 0, history := [],
    ageNs := 0, pmonBase := [] }

/-- Why a memory request waits at its issuer (R224); `service`: its controller serves nothing now (R237, R238);
`snoop`: a line the host may hold (R512), which is no stall cause. -/
inductive WaitCause where
  | snoop
  | bankQuota
  | slotExhausted
  | translation
  | service
  deriving DecidableEq, Repr

/-- A request slot in which a write waits for its batch (R221, R226): the leaf it was made for (none: the Steward or another agent of
the module), the virtual address it was made at, its granule by device address / 64, its poison, when it came. -/
structure MemSlot where
  part  : Option Nat
  va    : Nat
  line  : Nat
  mark  : Bool
  since : Nat
  deriving DecidableEq, Repr

/-- A request that waits at its issuer (R222, R224), with the errors its granules will show. -/
structure MemReq where
  who   : MemIssuer
  va    : Nat
  op    : MemOp
  err   : MemErr
  since : Nat
  cause : WaitCause
  deriving DecidableEq, Repr

/-- What tags an entry of a translation cache (R217): the partition, the tier, the virtual page of 2 MiB or piece of 64 KiB. -/
structure XlTag where
  part  : Nat
  tier  : Tier
  piece : Bool
  idx   : Nat
  deriving DecidableEq, Repr

/-- A memory controller beside its page (R208, R221 to R239): since when its drain runs, whether a channel fault waits for the
restart, the times of the corrected errors in the window, since when each slow bank has been slow, when the pass in progress began,
whether a poison fill runs; the occupied slots in the order they were taken, the cached check granules by group, latest used first,
each with whether it is still to be written back, and the row open in each bank plus 1. -/
structure McUnit where
  draining  : Option Nat
  faultNext : Bool
  ceTimes   : List Nat
  slowSince : List (Nat × Nat)
  passStart : Nat
  filling   : Bool
  slots     : List MemSlot
  chk       : List (Nat × Bool)
  rows      : Store Nat
  deriving DecidableEq, Repr

/-- A controller with nothing outstanding. -/
def McUnit.none : McUnit := ⟨.none, false, [], [], 0, false, [], [], []⟩

/-- An open recovery (R441, R445 to R447): its domain, when it was opened, its bound in nanoseconds if it has one, its deadline,
whether the deadline has been moved. -/
structure Recovery where
  domain   : Domain
  start    : Nat
  bound    : Option Nat
  deadline : Option Nat
  moved    : Bool
  deriving DecidableEq, Repr

/-- The key of one direction in one epoch (R422, R432): key, salt, the counter of what it has sealed, the time of the first. -/
structure KeyDir where
  epoch   : Nat
  key     : List Byte
  salt    : List Byte
  counter : Nat
  since   : Option Nat
  deriving DecidableEq, Repr

/-- The keys of a hop link or an end-to-end session (R433 to R435) with its handshake in progress (R548): the key sent under, one
installed that waits for the partner's CONFIRM, the one sent under before; the key received under and the one before it; the two
views of the grace window as its end and what is left of GRACE_FRAMES; the handshake's messages and secrets. -/
structure Keys where
  send      : Option KeyDir
  ready     : Option KeyDir
  prevSend  : Option KeyDir
  recv      : Option KeyDir
  prevRecv  : Option KeyDir
  graceEnd  : Option Nat
  graceLeft : Nat
  ownEnd    : Option Nat
  ownLeft   : Nat
  busy      : Bool
  mine      : Bool
  fresh     : Bool
  newEpoch  : Nat
  init      : List Byte
  resp      : List Byte
  seed      : List Byte
  expect    : List Byte
  sentAt    : Nat
  idIn      : Nat
  idOut     : Nat
  waitSince : Option Nat
  deriving DecidableEq, Repr

/-- No keys. -/
def Keys.none : Keys :=
  ⟨.none, .none, .none, .none, .none, .none, 0, .none, 0, false, false, false, 0, [], [], [], [], 0, 0, 0, .none⟩

/-- A frame that waits to leave or to enter a queue (R410, R411, R414, R421): when it came, the leaf that sent it, if it is the
module's own, the port it came by, if it is in transit, and the nanoseconds that counted against its lifetime before. -/
structure SendItem where
  frame : Frame
  since : Nat
  owner : Option Nat
  ingress : Option Nat
  spent : Nat
  deriving DecidableEq, Repr

/-- What a port expects of a source stream (R417): the message, its next frame, whether the message has had a gap. -/
structure StreamIn where
  srcMod  : Nat
  srcPart : Nat
  msg     : Nat
  idx     : Nat
  gap     : Bool
  deriving DecidableEq, Repr

/-- A whole message that waits to be visible before it signals (R417): its stream, its leaf and the semaphore, if any. -/
structure Arrival where
  srcMod  : Nat
  srcPart : Nat
  part    : Nat
  sem     : Option Nat
  deriving DecidableEq, Repr

/-- A port beside its page (R402, R404 to R411, R417, R421 to R425): MODE (true: Ethernet) and WIDTH as the latest training took them; the
training's attempt, phase, the start of the phase and lanes; fast retrains failed in a
row; the next SEQ to send, the last received in order, whether flits are discarded until a replay; the replay buffer of sent
flits and the replays without ACK; credits held and credits taken by frames not yet consumed; frames waiting to leave, QUEUE
frames waiting in VC3; streams and arrivals; hop keys with the fabric list they admit;
Ethernet's start of auto-negotiation and whether ETH_DOWN was raised. -/
structure PortUnit where
  trained   : Option (Bool × Nat)
  attempt   : Nat
  phase     : Nat
  phaseAt   : Nat
  lanes     : BitVec 2
  fastFails : Nat
  txSeq     : Nat
  rxSeq     : Nat
  dropping  : Bool
  replay    : List (Nat × Nat × List Byte)
  replays   : Nat
  credit    : List Nat
  sendQ     : List SendItem
  vc3       : List SendItem
  streams   : List StreamIn
  arrivals  : List Arrival
  keys      : Keys
  fabric    : List (List Byte)
  delay     : Nat
  ethSince  : Option Nat
  ethTold   : Bool
  deriving DecidableEq, Repr

/-- A port that has never trained. -/
def PortUnit.none : PortUnit :=
  ⟨.none, 0, 0, 0, 0, 0, 0, 4095, false, [], 0, [0, 0, 0, 0], [], [], [], [], Keys.none, [], 0, .none, false⟩

/-- The norm unit of a leaf for one step (R322 to R324, R344): the values taken in the order they came, `none` the leaf's own; when
its own pass ended, when it sent its sum up; the norm record once it is formed or has come. -/
structure NormUnit where
  terms    : List (Option Nat × DWord)
  closedAt : Option Nat
  sentAt   : Option Nat
  record   : Option (DWord × Word × Word)
  deriving DecidableEq, Repr

/-- A norm unit that has taken nothing. -/
def NormUnit.none : NormUnit := ⟨[], .none, .none, .none⟩

/-- The commit barrier of a leaf (R359 to R362): the BARRIER that is open and the updates it waits for, its step, the children whose
READY has come, when the module sent READY (at the root: when its own conditions held), the step whose commit record is being
written. -/
structure Barrier where
  word   : Option (BitVec 1024)
  chan   : Nat
  own    : Bool
  ready  : List Nat
  sentAt : Option Nat
  record : Option Nat
  deriving DecidableEq, Repr

/-- No barrier. -/
def Barrier.none : Barrier := ⟨.none, 0, false, [], .none, .none⟩

/-- The keeper duty of a leaf (R463): when its keeper and its kept neighbour were last heard, whether KEEPER_LOST and MODULE_LOST
stand. -/
structure KeepRun where
  keeperHeard : Nat
  keptHeard   : Nat
  keeperGone  : Bool
  keptGone    : Bool
  deriving DecidableEq, Repr

/-- A keeper duty under which nothing has been heard. -/
def KeepRun.none : KeepRun := ⟨0, 0, false, false⟩

/-- The step of a leaf beside its page (R313, R322, R334, R343, R359): the step registers' governing values where a write is
deferred, the semaphore bases, the 32 sums of squares, the norm unit, the barrier, whether the time-outs were raised (for the children's
values, for the record, for the barrier), whether
NO_KEEPER was raised since the manifest came; the bases of the moments and of the accumulator as a PRUNE last named them; whether the leaf was rebuilt since its latest commit; the keeper duty. -/
structure LeafRun where
  gov      : List (Nat × Nat)
  fwdBase  : Word
  bwdBase  : Word
  sums     : Store DWord
  norm     : NormUnit
  barrier  : Barrier
  toldNorm : Bool
  toldRec  : Bool
  toldStep : Bool
  noKeeper : Bool
  moms     : Option (Nat × Nat)
  accum    : Option Nat
  rebuilt  : Bool
  keep     : KeepRun
  deriving DecidableEq, Repr

/-- A leaf with no step under way. -/
def LeafRun.none : LeafRun := ⟨[], 0, 0, [], NormUnit.none, Barrier.none, false, false, false, false, .none, .none, false, KeepRun.none⟩

/-- A chunk this site has sent in the round (R375, R435): the segment, the epoch and first counter of its latest encryption, its flow,
when its last fragment left, whether it is acknowledged; `queued`: moved to the session's other flows. -/
structure SentChunk where
  seg     : Nat
  epoch   : Nat
  counter : Nat
  flow    : Nat
  sentAt  : Nat
  acked   : Bool
  queued  : Bool
  deriving DecidableEq, Repr

/-- Fragments of a chunk, a body or a manifest that have come (R374, R398). -/
structure FragSet where
  site   : Nat
  index  : Nat
  nfrag  : Nat
  total  : Nat
  crc    : Nat
  base   : Nat
  privet : Bool
  bad    : Bool
  parts  : List (Nat × List Byte)
  deriving DecidableEq, Repr

/-- A whole chunk of a counterpart in INBOUND (R376): its SD4 scales and elements. -/
structure InChunk where
  site  : Nat
  index : Nat
  base  : Nat
  bytes : List Byte
  deriving DecidableEq, Repr

/-- What a counterpart last announced (R390, R392): its latest record and its base round. -/
structure Peer where
  site     : Nat
  round    : Nat
  leader   : Nat
  nContrib : Nat
  base     : Nat
  root     : List Byte
  deriving DecidableEq, Repr

/-- A leaf's shard at the Coach beside its page (R365 to R396): the descriptor and the partner table as read; whether the current
round has been marked, commits since the mark; the leader order with the round of its record and the step taken in it; the round's
deadline, once open; when the leader was last heard (at the leader: when OPEN last went out); whether sending has stopped and
whether the round was void; chunks sent, fragments, chunks in INBOUND; the bodies of the record being built or received and of the
latest adopted one; manifest fragments, the record being adopted, the earlier ones of a winning lineage and the latest adopted one with its signature; the next segment or block of what is
under way; whether adoption must run again; UNBIND and PARTNERS asked for; HOLD asked for; DRIFT_HOLD or DRIFT_EXCEEDED
raised; the partner joined from; counterparts; a winning lineage; the root and the round before the record; when HELLO last went
out; a join that keeps its progress; rounds stopped by ANCHOR_UNRESOLVED; recovery after a reset outstanding; digest groups and
blocks asked for. -/
structure Shard where
  desc       : BitVec 2048
  partners   : List (BitVec 512)
  marked     : Bool
  steps      : Nat
  order      : List Nat
  orderRound : Nat
  turn       : Nat
  deadline   : Option Nat
  heardAt    : Nat
  stopped    : Bool
  void       : Bool
  sent       : List SentChunk
  frags      : List FragSet
  inbound    : List InChunk
  bodyFrags  : List FragSet
  bodies     : Store (List Byte)
  retained   : Store (List Byte)
  manFrags   : List FragSet
  incoming   : Option Manifest
  earlier    : List Manifest
  record     : Option Manifest
  sig        : List Byte
  pos        : Nat
  again      : Bool
  unbind     : Bool
  reread     : Bool
  held       : Bool
  told       : Bool
  joining    : Option Nat
  peers      : List Peer
  rival      : Option Peer
  prevRoot   : List Byte
  prevRound  : Nat
  helloAt    : Nat
  rejoin     : Bool
  stuck      : Bool
  recovering : Bool
  wantNodes  : List Nat
  wantBlocks : List Nat
  deriving DecidableEq, Repr

/-- A shard bound to nothing. -/
def Shard.none : Shard :=
  { desc := 0, partners := [], marked := true, steps := 0, order := [], orderRound := 0, turn := 0, deadline := .none, heardAt := 0,
    stopped := false, void := false, sent := [], frags := [], inbound := [], bodyFrags := [], bodies := [], retained := [],
    manFrags := [], incoming := .none, earlier := [], record := .none, sig := [], pos := 0, again := false, unbind := false, reread := false, held := false,
    told := false, joining := .none, peers := [], rival := .none, prevRoot := [], prevRound := 0, helloAt := 0,
    rejoin := false, stuck := false, recovering := false, wantNodes := [], wantBlocks := [] }

/-- A Siori message that waits for a key it may be sent under (R433, R549). -/
structure Mail where
  part    : Nat
  site    : Nat
  session : Nat
  type_   : Nat
  round   : Nat
  fields  : List Nat
  bytes   : List Byte
  len     : Nat
  deriving DecidableEq, Repr

/-- A Siori message in its envelope, on its way out (R432): the epoch and counter it is sealed under and the UDP payload. -/
structure Packet where
  mail   : Mail
  epoch  : Nat
  ctr    : Nat
  sealed : List Byte
  deriving DecidableEq, Repr

/-- A flow (R428, R429): its fields, whether it is in use, its bucket in 8,000ths of a byte and when that was last filled, the packets that
wait for it. -/
structure Flow where
  fields : FlowFields
  used   : Bool
  tokens : Nat
  filled : Nat
  queue  : List Packet
  deriving DecidableEq, Repr

/-- A flow that is not in use. -/
def Flow.none : Flow := ⟨⟨0, 0, 0, 0, 0, 0, 0⟩, false, 0, 0, []⟩

/-- A key slot of Thorn (R554, R555): its words, which of them have been written, the limit of its key in blocks; whether an operation
was refused for its limit, and the words written since; the words written while an operation uses the slot. -/
structure ThornSlot where
  words   : Store Word
  written : BitVec 8
  limit   : Nat
  spent   : Bool
  redone  : BitVec 8
  next    : List (Nat × Word)
  deriving DecidableEq, Repr

/-- A slot without a key. -/
def ThornSlot.none : ThornSlot := ⟨[], 0, 0, false, 0, []⟩

/-- An operation of Thorn (R553): its slot and the key it uses, its length, the message bytes it has been given. -/
structure ThornRun where
  slot : Nat
  key  : List Byte
  len  : Nat
  msg  : List Byte
  deriving DecidableEq, Repr

/-- Where a session of the SPDM responder stands (R545): absent, between KEY_EXCHANGE and FINISH, or established. -/
inductive SpdmPhase where
  | absent
  | shaking
  | established
  deriving DecidableEq, Repr

/-- A session of the SPDM responder with its secret. -/
structure SpdmSession where
  phase  : SpdmPhase
  secret : List Byte
  deriving DecidableEq, Repr

/-- A large SPDM message in transfer: its handle, the number of its next chunk, its bytes still to send or so far received. -/
structure SpdmLarge where
  handle : Nat
  seq    : Nat
  bytes  : List Byte
  deriving DecidableEq, Repr

/-- The SPDM responder (R545): how far the connection is negotiated (1 version, 2 capabilities, 3 algorithms), its sessions, the large
response being fetched and the large request being received, the next handle. -/
structure Spdm where
  stage    : Nat
  sessions : Store SpdmSession
  sending  : Option SpdmLarge
  taking   : Option SpdmLarge
  handle   : Nat
  deriving DecidableEq, Repr

/-- A responder no requester has spoken to. -/
def Spdm.none : Spdm := ⟨0, [], .none, .none, 0⟩

/-- Hawthorn's volatile state beside its page (R541 to R561): whether the Steward is released and was since power-good; the fabric list;
the latest nonce with its time; the random requests served, in all and since the latest reseed; when the entropy source last failed
a test; the unlocked scope and the time of the unlock; Thorn; the SPDM responder; the Steward cores halted, what is known of their
registers by 65,536 core + number; the words a test access has brought, and how many of a reply it has taken. -/
structure Haw where
  released   : Bool
  booted     : Bool
  fabric     : List (List Byte)
  nonce      : Option (List Byte × Nat)
  drbg       : Nat
  sinceSeed  : Nat
  failedAt   : Nat
  scope      : Word
  unlockedAt : Nat
  thorn      : Store ThornSlot
  thornRun   : Option ThornRun
  spdm       : Spdm
  halted     : BitVec 8
  coreRegs   : List (Nat × DWord)
  tapIn      : List Word
  tapOut     : Nat
  deriving DecidableEq, Repr

/-- Hawthorn before its ROM runs. -/
def Haw.none : Haw :=
  ⟨false, false, [], .none, 0, 0, 0, 0, 0, [], .none, Spdm.none, 0, [], [], 0⟩

/-- A rebuild of a leaf (R465, R468): the staging area, the keeper, the deep channel it is limited to, the block offsets left, and the
tag step of each delta record taken, plus 1. -/
structure Rebuild where
  active  : Bool
  staging : Nat
  keeper  : Nat
  channel : Option Nat
  left    : List Nat
  tags    : Store Nat
  deriving DecidableEq, Repr

/-- No rebuild. -/
def Rebuild.none : Rebuild := ⟨false, 0, 0, .none, [], []⟩

/-- A partition command whose zeroing runs (R480, R496): the request it answers, the leaf, the units it has released, which belong to
no partition until the zeroing is done; whether it unloads a manifest or destroys the leaf. -/
structure ZeroJob where
  rq      : Req
  code    : Nat
  part    : Nat
  held    : Holding
  unload  : Bool
  destroy : Bool
  deriving DecidableEq, Repr

/-- A warm reset under way (R238, R567): the commands to reply to; whether the controllers have restarted and domains are being woken. -/
structure Warm where
  rqs    : List Req
  waking : Bool
  deriving DecidableEq, Repr

/-- A change of the HDM window's binding that waits for the host's answers (R514): the command to reply to, the leaf and base to bind. -/
structure HdmMove where
  reply  : Option (Req × Nat)
  target : Option (Nat × Nat)
  deriving DecidableEq, Repr

/-- The HDM window beside its page (R512, R514): the change under way, the host's accesses that are held (none: a read). -/
structure HdmUnit where
  move : Option HdmMove
  held : List (Nat × Option (List Byte))
  deriving DecidableEq, Repr

/-- A QUIESCE under way (R524): its request, its mode, when its timeout expires. -/
structure Quiesce where
  rq       : Req
  mode     : Nat
  deadline : Nat
  deriving DecidableEq, Repr

/-- An IDE stream (R515, R551): its two key sets, the one in use if any, since when, what it has protected, whether IDE_REKEY was
raised for it. -/
structure IdeStream where
  keys  : Store (Option (List Byte))
  cur   : Option Nat
  since : Nat
  units : Nat
  told  : Bool
  deriving DecidableEq, Repr

/-- A stream without keys. -/
def IdeStream.none : IdeStream := ⟨[], .none, 0, 0, false⟩

/-- Why a step stops. -/
inductive Fault where
  /-- Raised by MEM_ACCESS for an untranslated Steward access outside the regions of the address map (R203); the spec
  ends the access with a bus error, so the stop is safe. -/
  | busError
  deriving DecidableEq, Repr

/-- Why a command is refused. -/
inductive Refusal where
  /-- Raised by the dispatch for a command that has no meaning yet; the command does nothing, so it is safe. -/
  | notModelled (mnemonic : String)
  deriving DecidableEq, Repr

/-- A one-bit fuse field (R534): three cells as read under the low margin and under the high one. -/
structure FuseBit where
  low  : BitVec 3
  high : BitVec 3
  deriving DecidableEq, Repr

/-- A fuse bit no cell of which is blown. -/
def FuseBit.intact : FuseBit := ⟨0, 0⟩

/-- The fuse array (R533): `ownerTouched` marks the owner slots some cell of whose hash is blown. -/
structure Fuses where
  uds          : List Byte
  vendorHash   : Store (List Byte)
  vendorRevoke : Store FuseBit
  ownerHash    : Store (List Byte)
  ownerTouched : BitVec 4
  ownerValid   : Store FuseBit
  ownerRevoke  : Store FuseBit
  svnHfw       : Nat
  svnSfw       : Nat
  dbgSeal      : FuseBit
  deriving DecidableEq, Repr

/-- What survives every reset (R120, R532, R533): the fuses, the boot flash's four firmware slots (HFW A and B,
SFW A and B) with the first choice of each kind (true: B), the record of retired arrays; what the factory wrote of the FRU record (R636):
whether the ordering code is YG48-L-F, the serial number. -/
structure NonVolatile where
  fuses    : Fuses
  flash    : Store (Option FwImage)
  hfwFirst : Bool
  sfwFirst : Bool
  retired  : BitVec 128
  sealed   : Bool
  serial   : List Byte
  deriving DecidableEq, Repr

/-- Everything the module holds but its commands and its non-volatile records. -/
structure Block where
  now       : Nat
  free      : Nat
  regs      : Store Word
  latch     : Store (Option Word)
  mem       : Store Byte
  poison    : Store Bool
  poisonB   : Store Bool
  hostMem   : Store Byte
  hostBad   : Store Bool
  rings     : Store Byte
  sems      : Store Word
  chans     : Store Chan
  flights   : List Flight
  parts     : Store Part
  grants    : Store Grant
  drafts    : Store Draft
  arrays    : Store ArrayUnit
  vecs      : Store VecUnit
  slots     : Store FillSlot
  images    : Store CtxImage
  carts     : Store CartUnit
  foldRun   : Store (Option FoldRun)
  events    : List EvRec
  evQueues  : Store EvQueue
  health    : Store DWord
  mailboxes : Store Mailbox
  snoop     : List SfLine
  power     : Power
  mcs       : Store McUnit
  memQ      : List MemReq
  xlCaches  : Store (List XlTag)
  cacheSel  : Nat
  xlInvs    : List (Nat × Nat)
  recs      : List Recovery
  ports     : Store PortUnit
  leafRuns  : Store LeafRun
  queues    : Store (List Frame)
  msgSeq    : Store Nat
  shards    : Store Shard
  flows     : Store Flow
  sessions  : Store Keys
  pdraws    : Store Nat
  prDone    : Store (List Nat)
  lost      : List (Nat × Nat)
  mail      : List Mail
  haw       : Haw
  slew      : Int
  slewAcc   : Int
  rebuilds  : Store Rebuild
  zeroing   : List ZeroJob
  warm      : Option Warm
  hdm       : HdmUnit
  quiescing : Option Quiesce
  invWaits  : List (Nat × Req × Nat)
  ide       : Store IdeStream
  out       : List Out
  deriving DecidableEq, Repr

/-- The state of the module: the commands that wait, first in first out; the non-volatile records; the rest. -/
structure State where
  pending : List Instr
  nv      : NonVolatile
  block   : Block
  deriving DecidableEq, Repr

/-- The non-volatile records of a module fresh from the factory, unsealed (R1); the spec names no serial number (DESIGN CHOICE, log 197). -/
def NonVolatile.factory : NonVolatile :=
  { fuses :=
      { uds := List.replicate 32 0, vendorHash := [], vendorRevoke := [], ownerHash := [], ownerTouched := 0, ownerValid := [],
        ownerRevoke := [], svnHfw := 0, svnSfw := 0, dbgSeal := FuseBit.intact },
    flash := [], hfwFirst := false, sfwFirst := false, retired := 0, sealed := false, serial := [] }

/-- The module's volatile state after a cold reset. -/
def Block.reset : Block :=
  { now := 0, free := 0, regs := [], latch := [], mem := [], poison := [], poisonB := [], hostMem := [], hostBad := [], rings := [], sems := [],
    chans := [], flights := [], parts := [], grants := [], drafts := [], arrays := [], vecs := [], slots := [],
    images := [], carts := [], foldRun := [], events := [], evQueues := [], health := [], mailboxes := [], snoop := [], power := Power.reset, mcs := [], memQ := [], xlCaches := [], cacheSel := 4, xlInvs := [], recs := [], ports := [], leafRuns := [], queues := [], msgSeq := [], shards := [], flows := [], sessions := [], pdraws := [], prDone := [], lost := [], mail := [], haw := Haw.none, slew := 0, slewAcc := 0, rebuilds := [], zeroing := [], warm := none, hdm := ⟨none, []⟩, quiescing := none, invWaits := [], ide := [], out := [] }

/-- The module right after reset, with no command waiting. -/
def State.reset : State := { pending := [], nv := NonVolatile.factory, block := Block.reset }

end Sys2Proof.Machine
end

