-- ==== Sys2Proof/Machine/Ops.lean ====
section
/-!
DEFINITION. The named operations every command is made of: reading and writing registers, memory, semaphores and
units; a partition's view and its translation of addresses; answers to the outside.
-/

namespace Sys2Proof.Machine

/-! Commands act on the block; the queue is the step's. -/

/-- A command whose whole effect is on the block. -/
def onBlock (f : Block → Block) (s : State) : Host.Outcome State Fault Refusal :=
  .next { s with block := f s.block }

/-- A command that also reads or writes the non-volatile records. -/
def onBoth (f : NonVolatile → Block → NonVolatile × Block) (s : State) : Host.Outcome State Fault Refusal :=
  .next { s with nv := (f s.nv s.block).1, block := (f s.nv s.block).2 }

/-! Registers. -/

/-- A register word (R607). -/
def Block.reg (b : Block) (page off : Nat) : Word := storeGet regReset b.regs (regKey page off)

/-- Sets a register word. -/
def Block.setReg (b : Block) (page off : Nat) (v : Word) : Block :=
  { b with regs := storePut regReset b.regs (regKey page off) v }

/-- A register word as a number. -/
def Block.regN (b : Block) (page off : Nat) : Nat := (b.reg page off).toNat

/-- A 64-bit register (R17): the low word at the lower offset (R9). -/
def Block.reg64 (b : Block) (page off : Nat) : Nat := b.regN page off + 2 ^ 32 * b.regN page (off + 4)

/-- Sets a register word to a number, cut to 32 bits. -/
def Block.setN (b : Block) (page off v : Nat) : Block := b.setReg page off (BitVec.ofNat 32 v)

/-- Sets a 64-bit register, cut to 64 bits. -/
def Block.set64 (b : Block) (page off v : Nat) : Block :=
  (b.setN page off (v % 2 ^ 32)).setN page (off + 4) (v / 2 ^ 32)

/-- Adds to a 32-bit count. -/
def Block.add32 (b : Block) (page off n : Nat) : Block := b.setN page off (b.regN page off + n)

/-- Adds to a 64-bit count. -/
def Block.add64 (b : Block) (page off n : Nat) : Block := b.set64 page off (b.reg64 page off + n)

/-- A field of a register word. -/
def Block.fld (b : Block) (page off lo len : Nat) : Nat := fieldOf (b.regN page off) lo len

/-- Sets a field of a register word. -/
def Block.setFld (b : Block) (page off lo len v : Nat) : Block :=
  b.setN page off (putField (b.regN page off) lo len v)

/-- Sets a range of register words from a list of bytes, word by word. -/
def Block.setBytes (b : Block) (page off : Nat) : List Byte → Nat → Block
  | _, 0 => b
  | bs, n + 1 => Block.setBytes (b.setN page off (ofBytes (bs.take 4))) page (off + 4) (bs.drop 4) n

/-- The bytes of a range of register words. -/
def Block.regBytes (b : Block) (page off n : Nat) : List Byte :=
  (List.range n).flatMap fun i => toBytes 4 (b.regN page (off + 4 * i))

/-! Units. -/

def Block.chan (b : Block) (c : Nat) : Chan := storeGet (fun _ => Chan.none) b.chans c
def Block.setChan (b : Block) (c : Nat) (x : Chan) : Block :=
  { b with chans := storePut (fun _ => Chan.none) b.chans c x }
def Block.part (b : Block) (p : Nat) : Part := storeGet (fun _ => Part.none) b.parts p
def Block.setPart (b : Block) (p : Nat) (x : Part) : Block :=
  { b with parts := storePut (fun _ => Part.none) b.parts p x }
def Block.grant (b : Block) (p : Nat) : Grant := storeGet (fun _ => Grant.none) b.grants p
def Block.setGrant (b : Block) (p : Nat) (x : Grant) : Block :=
  { b with grants := storePut (fun _ => Grant.none) b.grants p x }
def Block.draft (b : Block) (p d : Nat) : Draft := storeGet (fun _ => Draft.none) b.drafts (16 * p + d)
def Block.setDraft (b : Block) (p d : Nat) (x : Draft) : Block :=
  { b with drafts := storePut (fun _ => Draft.none) b.drafts (16 * p + d) x }
def Block.arr (b : Block) (a : Nat) : ArrayUnit := storeGet (fun _ => ArrayUnit.none) b.arrays a
def Block.setArr (b : Block) (a : Nat) (x : ArrayUnit) : Block :=
  { b with arrays := storePut (fun _ => ArrayUnit.none) b.arrays a x }
def Block.vec (b : Block) (e : Nat) : VecUnit := storeGet (fun _ => VecUnit.none) b.vecs e
def Block.setVec (b : Block) (e : Nat) (x : VecUnit) : Block :=
  { b with vecs := storePut (fun _ => VecUnit.none) b.vecs e x }
def Block.slot (b : Block) (k : Nat) : FillSlot := storeGet (fun _ => FillSlot.none) b.slots k
def Block.setSlot (b : Block) (k : Nat) (x : FillSlot) : Block :=
  { b with slots := storePut (fun _ => FillSlot.none) b.slots k x }
def Block.image (b : Block) (k : Nat) : CtxImage := storeGet (fun _ => CtxImage.none) b.images k
def Block.setImage (b : Block) (k : Nat) (x : CtxImage) : Block :=
  { b with images := storePut (fun _ => CtxImage.none) b.images k x }
def Block.cart (b : Block) (e : Nat) : CartUnit := storeGet (fun _ => CartUnit.none) b.carts e
def Block.setCart (b : Block) (e : Nat) (x : CartUnit) : Block :=
  { b with carts := storePut (fun _ => CartUnit.none) b.carts e x }
def Block.fold (b : Block) (q : Nat) : Option FoldRun := storeGet (fun _ => none) b.foldRun q
def Block.setFold (b : Block) (q : Nat) (x : Option FoldRun) : Block :=
  { b with foldRun := storePut (fun _ => none) b.foldRun q x }
def Block.mbx (b : Block) (m : Nat) : Mailbox := storeGet (fun _ => Mailbox.none) b.mailboxes m
def Block.setMbx (b : Block) (m : Nat) (x : Mailbox) : Block :=
  { b with mailboxes := storePut (fun _ => Mailbox.none) b.mailboxes m x }
def Block.evq (b : Block) (q : Nat) : EvQueue := storeGet (fun _ => EvQueue.none) b.evQueues q
def Block.setEvq (b : Block) (q : Nat) (x : EvQueue) : Block :=
  { b with evQueues := storePut (fun _ => EvQueue.none) b.evQueues q x }
/-- A semaphore by its module index (R171). -/
def Block.sem (b : Block) (i : Nat) : Word := storeGet (fun _ => 0) b.sems i
def Block.setSem (b : Block) (i : Nat) (v : Word) : Block := { b with sems := storePut (fun _ => 0) b.sems i v }
def Block.run (b : Block) (p : Nat) : LeafRun := storeGet (fun _ => LeafRun.none) b.leafRuns p
def Block.setRun (b : Block) (p : Nat) (x : LeafRun) : Block :=
  { b with leafRuns := storePut (fun _ => LeafRun.none) b.leafRuns p x }

/-- The value of a step register that governs: the earlier one while a write is deferred (R334). -/
def Block.govern (b : Block) (p off : Nat) : Nat :=
  match (b.run p).gov.find? fun q => q.1 == off with
  | some q => q.2
  | none => b.regN (pageOf .part p) off

/-- The counts f (not limited to m) and b of a leaf's step (R313). -/
def Block.fwdCount (b : Block) (p : Nat) : Nat :=
  (b.sem ((b.grant p).semBase + fieldOf (b.govern p 0x208) 0 14) - (b.run p).fwdBase).toNat
def Block.bwdCount (b : Block) (p : Nat) : Nat :=
  (b.sem ((b.grant p).semBase + fieldOf (b.govern p 0x208) 16 14) - (b.run p).bwdBase).toNat

/-- STEP_PHASE (R314): 0 IDLE, 1 WARMUP, 2 STEADY, 3 DRAIN, 4 END. -/
def Block.phase (b : Block) (p : Nat) : Nat :=
  let m := fieldOf (b.govern p 0x204) 0 16
  if m = 0 then 0
  else if m ≤ b.bwdCount p then 4
  else if b.bwdCount p = 0 then 1
  else if m ≤ b.fwdCount p then 3 else 2

/-- INFLIGHT (R316). -/
def Block.inflight (b : Block) (p : Nat) : Nat :=
  if fieldOf (b.govern p 0x204) 0 16 = 0 then 0 else (b.fwdCount p + 2 ^ 32 - b.bwdCount p) % 2 ^ 16

/-- INFLIGHT_HWM follows INFLIGHT (R316). -/
def Block.noteInflight (b : Block) (p : Nat) : Block :=
  if fieldOf (b.govern p 0x204) 0 16 = 0 then b
  else b.setN (pageOf .part p) 0x238 (max (b.regN (pageOf .part p) 0x238) (b.inflight p))

/-- An addition to a semaphore (R172), which INFLIGHT_HWM of a leaf follows (R316). -/
def Block.addSem (b : Block) (i n : Nat) : Block :=
  let b := b.setSem i (b.sem i + BitVec.ofNat 32 n)
  let counts (p : Nat) : Bool :=
    let v := b.govern p 0x208
    (b.grant p).loaded && (i == (b.grant p).semBase + fieldOf v 0 14 || i == (b.grant p).semBase + fieldOf v 16 14)
  ((List.range 64).filter counts).foldl Block.noteInflight b

/-- Sends something out. -/
def Block.emit (b : Block) (o : Out) : Block := { b with out := o :: b.out }

/-- Uses up one free value; the value used is `Config.freeValue b.free`. -/
def Block.tick (b : Block) : Block := { b with free := b.free + 1 }

/-- Applies `f` for every element of a list, first to last. -/
def Block.each {α : Type} (b : Block) (xs : List α) (f : Block → α → Block) : Block := xs.foldl f b

/-- Applies `f` where `c` holds. -/
def Block.ifSo (b : Block) (c : Bool) (f : Block → Block) : Block := if c then f b else b

/-! The partition tree and views (R475 to R478). -/

/-- The units of a mask in [lo, lo + n), ascending. -/
def unitsIn (m lo n : Nat) : List Nat := ((List.range n).map (lo + ·)).filter fun i => bitOf m i

/-- The arrays of field `f` a holding has. -/
def Holding.arraysIn (h : Holding) (f : Nat) : List Nat := unitsIn h.arrays.toNat (32 * f) 32
def Holding.cartsIn (h : Holding) (f : Nat) : List Nat := unitsIn h.carts.toNat (16 * f) 16
def Holding.portList (h : Holding) : List Nat := unitsIn h.ports.toNat 0 48
def Holding.foldList (h : Holding) : List Nat := unitsIn h.folds.toNat 0 8

/-- The module fields of a view, in order (R478): those with arrays, fill slots or yard bytes. -/
def Holding.fields (h : Holding) : List Nat :=
  (List.range 4).filter fun f => !(h.arraysIn f).isEmpty || h.fill.getD f 0 != 0 || h.yard.getD f 0 != 0

/-- Whether partition `p` is `q` or lies below it (R475: a depth of at most 4). -/
def Block.under (b : Block) : Nat → Nat → Nat → Bool
  | 0, p, q => p == q
  | n + 1, p, q => p == q || Block.under b n (b.part p).parent q

/-- The leaves at or below a partition, ascending. -/
def Block.leavesUnder (b : Block) (q : Nat) : List Nat :=
  (List.range 64).filter fun p => (b.part p).present && (b.part p).leaf && b.under 4 p q

/-- The children of a partition. -/
def Block.children (b : Block) (q : Nat) : List Nat :=
  (List.range 112).filter fun p => (b.part p).present && (b.part p).parent == q

/-- The key of a leaf's fill slot: `j` of module field `f` (R489). -/
def slotKey (p f j : Nat) : Nat := 128 * p + 32 * f + j

/-- The fill slots of a view in module field `f`, in order. -/
def Block.fillKeys (b : Block) (q f : Nat) : List Nat :=
  (b.leavesUnder q).flatMap fun p => (List.range ((b.part p).hold.fill.getD f 0)).map (slotKey p f)

/-- What an array number of a view names: a physical array or a fill slot. -/
inductive ArrayRef where
  | unit (a : Nat)
  | fill (key : Nat)
  deriving DecidableEq, Repr

/-- Array `i` of partition `q`'s view (R478). -/
def Block.arrayAt (b : Block) (q i : Nat) : Option ArrayRef :=
  match (b.part q).hold.fields[i / 32]? with
  | none => none
  | some f =>
    let us := (b.part q).hold.arraysIn f
    match us[i % 32]? with
    | some a => some (.unit a)
    | none => ((b.fillKeys q f)[i % 32 - us.length]?).map .fill

/-- The physical array an array number names now: a fill slot names the array it is bound to. -/
def Block.arrayUnit (b : Block) (q i : Nat) : Option Nat :=
  match b.arrayAt q i with
  | some (.unit a) => some a
  | some (.fill k) => (b.slot k).bound
  | none => none

/-- Cart engine `i` of a view (R478). -/
def Block.cartAt (b : Block) (q i : Nat) : Option Nat :=
  match (b.part q).hold.fields[i / 16]? with
  | none => none
  | some f => ((b.part q).hold.cartsIn f)[i % 16]?

/-- The channels of a view, ascending. -/
def Block.chansOf (b : Block) (q : Nat) : List Nat :=
  (List.range 256).filter fun c => match (b.chan c).owner with
    | some p => b.under 4 p q
    | none => false

def Block.portAt (b : Block) (q i : Nat) : Option Nat := ((b.part q).hold.portList)[i]?
def Block.foldAt (b : Block) (q i : Nat) : Option Nat := ((b.part q).hold.foldList)[i]?

/-- The top-level partition that virtual function `v` serves (R502). -/
def Block.partOfVf (b : Block) (v : Nat) : Option Nat :=
  (List.range 112).find? fun p => (b.part p).present && (b.part p).vf == some v

/-- The function of a partition: 1 + v of its top-level partition's virtual function v. -/
def Block.fnOf (b : Block) (p : Nat) : Nat :=
  match (b.part (b.part p).top).vf with
  | some v => 1 + v
  | none => 0

/-- What a page of a requester's view names (R607, R609). -/
inductive PageRef where
  | page (x : Nat)
  | unbound (vec : Bool)
  | absent
  deriving DecidableEq, Repr

/-- The mailboxes that exist (R518): MBX[4..15] are absent, and MBX[2] once the fuse DBG_SEAL is blown (R2). -/
def Block.mbxExists (b : Block) (m : Nat) : Bool :=
  !(4 ≤ m && m < 16) && !(m == 2 && bitOf (b.regN (pageOf .hawthorn 0) 0x044) 0)

/-- The device page of page `x` of partition `q`'s view (R608, R609). -/
def Block.viewPage (b : Block) (q vf x : Nat) : PageRef :=
  let leafPage (k : Kind) (n : Nat) : PageRef :=
    if n ∈ b.leavesUnder q then .page (pageOf k n) else .absent
  let arrayPage (k : Kind) (n : Nat) : PageRef :=
    match b.arrayAt q n with
    | some (.unit a) => .page (pageOf k a)
    | some (.fill key) =>
      match (b.slot key).bound with
      | some a => .page (pageOf k a)
      | none => .unbound (k == .vec)
    | none => .absent
  let unitPage (k : Kind) (u : Option Nat) : PageRef :=
    match u with
    | some n => .page (pageOf k n)
    | none => .absent
  match pageKind x with
  | some (.part, n) => leafPage .part n
  | some (.perf, n) => leafPage .perf n
  | some (.perfUser, n) => leafPage .perfUser n
  | some (.mbx, n) =>
    if n = 16 + vf then .page x
    else match (b.mbx n).leaf with
      | some p => if 32 ≤ n && p ∈ b.leavesUnder q then .page x else .absent
      | none => .absent
  | some (.array, n) => arrayPage .array n
  | some (.vec, n) => arrayPage .vec n
  | some (.cart, n) => unitPage .cart (b.cartAt q n)
  | some (.port, n) => unitPage .port (b.portAt q n)
  | some (.chan, n) => unitPage .chan ((b.chansOf q)[n]?)
  | _ => .absent

/-- The device page a requester reaches at page index `x` (R607, R609, R559). Of the controllers' pages Hawthorn sees none (R244). -/
def Block.pageRef (b : Block) (who : Agent) (x : Nat) : PageRef :=
  let device : PageRef :=
    match pageKind x with
    | some (.mbx, n) => if b.mbxExists n then .page x else .absent
    | some _ => .page x
    | none => .absent
  match who with
  | .vf v =>
    match b.partOfVf v with
    | some q => b.viewPage q v x
    | none => .absent
  | .debug => if x = pageOf .hawthorn 0 || x = pageOf .thorn 0 then .absent else device
  | .hawthorn => if pageOf .nearmc 0 ≤ x && x < pageOf .pruner 0 then .absent else device
  | _ => device

/-- Whether leaf `p`'s view shows a device page (R598). -/
def Block.holdsPage (b : Block) (p page : Nat) : Bool :=
  match pageKind page with
  | some (.part, n) => n == p
  | some (.perf, n) => n == p
  | some (.perfUser, n) => n == p
  | some (.mbx, n) => (b.mbx n).leaf == some p
  | some (.array, n) => bitOf (b.part p).hold.arrays.toNat n ||
      (b.fillKeys p (n / 32)).any fun k => (b.slot k).bound == some n
  | some (.vec, n) => bitOf (b.part p).hold.arrays.toNat n ||
      (b.fillKeys p (n / 32)).any fun k => (b.slot k).bound == some n
  | some (.cart, n) => bitOf (b.part p).hold.carts.toNat n
  | some (.port, n) => bitOf (b.part p).hold.ports.toNat n
  | some (.chan, n) => (b.chan n).owner == some p
  | _ => false

/-- The page index by which leaf `p`'s view names a device page; none where the view does not show it (R599). -/
def Block.viewIndex (b : Block) (p page : Nat) : Option Nat :=
  match pageKind page with
  | some (k, _) =>
    if b.holdsPage p page then
      ((List.range (kindPages k).2).map (pageOf k)).find? fun x => b.viewPage p 64 x == .page page
    else none
  | none => none

/-! Device addresses (R202 to R205). -/

/-- The regions of the device address map (R202). -/
inductive Region where
  | near
  | deep
  | host
  | bay
  | yard
  deriving DecidableEq, Repr

/-- The first address of a region (R202). -/
def regionBase : Region → Nat
  | .near => 0
  | .deep => 0x010000000000
  | .host => 0x800000000000
  | .bay => 0xFE0000000000
  | .yard => 0xFF0000000000

/-- The bytes of a region (R202). -/
def regionSize : Region → Nat
  | .near => 0x3C00000000
  | .deep => 0x1E000000000
  | .host => 0x7E0000000000
  | .bay => 0x10000000
  | .yard => 0x8000000

/-- The region an address lies in (R202). -/
def regionOf (a : Nat) : Option Region :=
  [Region.near, .deep, .host, .bay, .yard].find? fun r => regionBase r ≤ a && a < regionBase r + regionSize r

/-- The bytes of one bay and of one yard (R202). -/
def baySize : Nat := 0x200000
def yardSize : Nat := 0x2000000

/-- The channel of a tier address (R204). -/
def channelOf (t : Tier) (a : Nat) : Nat :=
  match t with
  | .near => (fieldOf a 12 5) ^^^ (fieldOf a 17 5) ^^^ (fieldOf a 22 5)
  | .deep => fieldOf (a - regionBase .deep) 12 5

/-- The channel-local offset of a tier address (R204). -/
def localOf (t : Tier) (a : Nat) : Nat :=
  let a' := if t = .deep then a - regionBase .deep else a
  a' / 2 ^ 17 * 2 ^ 12 + a' % 2 ^ 12

/-- The data granule, ECC group and position of a channel-local offset (R205). -/
def granuleOf (l : Nat) : Nat := l / 64
def groupOf (g : Nat) : Nat := g / 15
def positionOf (g : Nat) : Nat := g % 15

/-- The bank and the row within the bank of a group (R205). -/
def bankOf (t : Tier) (q : Nat) : Nat × Nat :=
  let r := q / 2
  match t with
  | .near => (fieldOf r 0 6 ^^^ fieldOf r 6 6, r / 64)
  | .deep => (fieldOf r 0 7 ^^^ fieldOf r 7 7, r / 128)

/-- The tier address of a channel and a channel-local offset: the inverse of R204 in the deep tier. -/
def deepAddr (k l : Nat) : Nat := regionBase .deep + l / 2 ^ 12 * 2 ^ 17 + k * 2 ^ 12 + l % 2 ^ 12

/-- The tier of an address. -/
def tierOf (a : Nat) : Option Tier :=
  match regionOf a with
  | some .near => some .near
  | some .deep => some .deep
  | _ => none

/-! Bytes at device addresses. -/

/-- What memory, a bay or the yard holds where nothing has been written: zero (R235, R274). -/
def memDefault : Nat → Byte := fun _ => 0

/-- The canonical form of a memory: addresses strictly rising, no byte listed that reads as the default. -/
def Memory.wf (m : Store Byte) : Bool := storeWf memDefault m

/-- One byte at a device address. -/
def Block.byte (b : Block) (a : Nat) : Byte := storeGet memDefault b.mem a

/-- `n` bytes from a device address on. -/
def Block.bytes (b : Block) (a n : Nat) : List Byte := storeGetList memDefault b.mem a n

/-- A little-endian number of `n` bytes. -/
def Block.num (b : Block) (a n : Nat) : Nat := ofBytes (b.bytes a n)

/-- The 64-byte granules or lines that [a, a + n) touches (R201, R264). -/
def linesOf (a n : Nat) : List Nat := if n = 0 then [] else (List.range ((a + n - 1) / 64 - a / 64 + 1)).map (a / 64 + ·)

/-- The two copies of a line's mark: of a tier's granule its bits of POISON_A and POISON_B (R207). -/
def Block.poisonA (b : Block) (line : Nat) : Bool := storeGet (fun _ => false) b.poison line
def Block.poisonBit (b : Block) (line : Nat) : Bool := storeGet (fun _ => false) b.poisonB line

/-- Whether a line is marked poisoned: its mark is set in either copy (R207, R264). -/
def Block.marked (b : Block) (line : Nat) : Bool := b.poisonA line || b.poisonBit line

/-- Whether any line of [a, a + n) is marked. -/
def Block.poisoned (b : Block) (a n : Nat) : Bool := (linesOf a n).any b.marked

/-- Marks a line or clears its mark, in both copies (R233). -/
def Block.mark (b : Block) (line : Nat) (m : Bool) : Block :=
  { b with poison := storePut (fun _ => false) b.poison line m, poisonB := storePut (fun _ => false) b.poisonB line m }

/-- The mark of a line after a write of [a, a + n) with these marks (R233, R264): marked data sets it, a whole unmarked
line clears it, a partial write leaves it. -/
def Block.markWrite (b : Block) (a : Nat) (marks : List Bool) (line : Nat) : Block :=
  let lo := max a (64 * line)
  let hi := min (a + marks.length) (64 * line + 64)
  if ((marks.drop (lo - a)).take (hi - lo)).any id then b.mark line true
  else if hi - lo = 64 then b.mark line false
  else b

/-- Writes bytes, each with its poison mark, at a device address. -/
def Block.putM (b : Block) (a : Nat) (bs : List (Byte × Bool)) : Block :=
  let b := { b with mem := storePutList memDefault b.mem a (bs.map Prod.fst) }
  b.each (linesOf a bs.length) fun b l => b.markWrite a (bs.map Prod.snd) l

/-- Writes bytes at a device address, all marked or all unmarked. -/
def Block.put (b : Block) (a : Nat) (bs : List Byte) (m : Bool) : Block := b.putM a (bs.map fun v => (v, m))

/-- `n` bytes at a device address, each with the mark of its line. -/
def Block.getM (b : Block) (a n : Nat) : List (Byte × Bool) :=
  (b.bytes a n).zipIdx.map fun p => (p.1, b.marked ((a + p.2) / 64))

/-- The entries of [src, src + n) shifted to `dst`; the keys of [dst, dst + n) are cleared first. -/
def storeCopy {α : Type} [DecidableEq α] (d : Nat → α) (m : Store α) (src n dst : Nat) : Store α :=
  (m.filter fun e => src ≤ e.1 && e.1 < src + n).foldl (fun m e => storePut d m (e.1 - src + dst) e.2)
    (storeClear m dst (dst + n))

/-- Copies a 64-byte-aligned range with its poison. -/
def Block.copy (b : Block) (src n dst : Nat) : Block :=
  { b with mem := storeCopy memDefault b.mem src n dst,
           poison := storeCopy (fun _ => false) b.poison (src / 64) (n / 64) (dst / 64),
           poisonB := storeCopy (fun _ => false) b.poisonB (src / 64) (n / 64) (dst / 64) }

/-- `n` bytes of host memory, each with the mark of its line (R234, R510). -/
def Block.getHost (b : Block) (h n : Nat) : List (Byte × Bool) :=
  (storeGetList memDefault b.hostMem h n).zipIdx.map fun p => (p.1, storeGet (fun _ => false) b.hostBad ((h + p.2) / 64))

/-- Writes bytes with their marks to host memory: marked data leaves as poisoned TLPs (R234). -/
def Block.putHost (b : Block) (h : Nat) (bs : List (Byte × Bool)) : Block :=
  let mark (m : Store Bool) (line : Nat) : Store Bool :=
    let lo := max h (64 * line)
    let hi := min (h + bs.length) (64 * line + 64)
    if ((bs.drop (lo - h)).take (hi - lo)).any Prod.snd then storePut (fun _ => false) m line true
    else if hi - lo = 64 then storePut (fun _ => false) m line false
    else m
  { b with hostMem := storePutList memDefault b.hostMem h (bs.map Prod.fst),
           hostBad := (linesOf h bs.length).foldl mark b.hostBad }

/-- Writes a little-endian number of `n` bytes. -/
def Block.putNum (b : Block) (a n v : Nat) : Block := b.put a (toBytes n v) false

/-- Clears a range: zero data and clear poison (R235, R274, R495). -/
def Block.zero (b : Block) (lo hi : Nat) : Block :=
  { b with mem := storeClear b.mem lo hi, poison := storeClear b.poison (lo / 64) ((hi + 63) / 64),
           poisonB := storeClear b.poisonB (lo / 64) ((hi + 63) / 64) }

/-- Cuts [va, va + n) at 4 KiB boundaries, inside which one translation and one channel hold. -/
def chunksFrom : Nat → Nat → Nat → List (Nat × Nat)
  | 0, _, _ => []
  | f + 1, va, n =>
    if n = 0 then []
    else
      let k := min n (4096 - va % 4096)
      (va, k) :: chunksFrom f (va + k) (n - k)

/-- The pieces of [va, va + n). -/
def chunks (va n : Nat) : List (Nat × Nat) := chunksFrom (n / 4096 + 2) va n

/-! The controllers (R205 to R208, R221 to R229, R242). -/

/-- A controller's number in the state: 0 to 31 near, 32 to 63 deep. -/
def mcIndex (t : Tier) (k : Nat) : Nat := if t = .near then k else 32 + k

def Block.mc (b : Block) (t : Tier) (k : Nat) : McUnit := storeGet (fun _ => McUnit.none) b.mcs (mcIndex t k)
def Block.setMc (b : Block) (t : Tier) (k : Nat) (x : McUnit) : Block :=
  { b with mcs := storePut (fun _ => McUnit.none) b.mcs (mcIndex t k) x }

/-- MC_STATE.STATE (R242). -/
def Block.mcState (b : Block) (t : Tier) (k : Nat) : Nat := b.fld (pageMc t k) 0x044 0 3
def Block.setMcState (b : Block) (t : Tier) (k v : Nat) : Block := b.setFld (pageMc t k) 0x044 0 3 v

/-- The offsets within the channel's physical memory of a data granule and of a group's check granule (R205). -/
def physGranule (g : Nat) : Nat := groupOf g * 1024 + 64 * positionOf g
def physCheck (q : Nat) : Nat := q * 1024 + 960

/-- The device address of channel-local offset `l` of channel `k`: the inverse of R204. -/
def chanAddr (t : Tier) (k l : Nat) : Nat :=
  match t with
  | .deep => deepAddr k l
  | .near => l / 2 ^ 12 * 2 ^ 17 + (k ^^^ fieldOf l 12 5 ^^^ fieldOf l 17 5) * 2 ^ 12 + l % 2 ^ 12

/-- The 64 bytes of the check granule of group `q` of a channel (R207): the check symbols of its 15 data granules (R206), then both copies
of their poison bits. -/
def Block.checkGranule (b : Block) (t : Tier) (k q : Nat) : List Byte :=
  let at_ (p : Nat) : Nat := chanAddr t k (64 * (15 * q + p))
  let bits (f : Nat → Bool) : Nat := (List.range 15).foldl (fun v p => v + b2n (f (at_ p / 64)) * 2 ^ p) 0
  ((List.range 15).flatMap fun p => toBytes 4 (Config.checkSymbols (b.bytes (at_ p) 64)).toNat) ++
    toBytes 2 (bits b.poisonA) ++ toBytes 2 (bits b.poisonBit)

/-- The ECC group of a tier address on its channel, and the bank a line (an address / 64) lies in. -/
def groupAt (t : Tier) (a : Nat) : Nat := groupOf (granuleOf (localOf t a))
def bankOfLine (t : Tier) (line : Nat) : Nat := (bankOf t (groupAt t (64 * line))).1

/-- `n` granules of group `q` accessed at the devices: the first opens the row, where another is open; the check granule comes into the
cache of 512, where it is not there, and the one used longest ago leaves it (R208, R242). -/
def Block.devTouch (b : Block) (t : Tier) (k q n : Nat) (write : Bool) : Block :=
  let page := pageMc t k
  let x := b.mc t k
  let (bank, row) := bankOf t q
  let isOpen := storeGet (fun _ => 0) x.rows bank == row + 1
  let hit := x.chk.any fun e => e.1 == q
  let dirty := write || x.chk.any fun e => e.1 == q && e.2
  let chk := ((q, dirty) :: x.chk.filter fun e => e.1 != q).take 512
  let b := b.setMc t k { x with rows := storePut (fun _ => 0) x.rows bank (row + 1), chk := chk }
  let b := (b.add64 page 0x090 (n - 1 + b2n isOpen)).add64 page 0x098 (b2n !isOpen)
  b.add64 page 0x0A8 (b2n !hit)

/-- The groups that [a, a + n) of one 4 KiB block touches on its channel, each with its number of granules. -/
def groupsIn (t : Tier) (a n : Nat) : List (Nat × Nat) :=
  let g0 := granuleOf (localOf t a)
  let g1 := g0 + (a % 64 + n - 1) / 64
  (List.range (groupOf g1 - groupOf g0 + 1)).map fun i =>
    let q := groupOf g0 + i
    (q, min g1 (15 * q + 14) - max g0 (15 * q) + 1)

/-- SLOTS_PEAK follows the slots that are occupied with `n` more (R242). -/
def Block.peakSlots (b : Block) (t : Tier) (k n : Nat) : Block :=
  b.setN (pageMc t k) 0x0A4 (max (b.regN (pageMc t k) 0x0A4) (min 256 ((b.mc t k).slots.length + n)))

/-- The share of a controller's issue cycles that a leaf's record gives it (R479, R482); the Steward's requests rank before the shares. -/
def Block.memShare (b : Block) (p : Nat) : Nat := fieldOf (b.part p).record.toNat (8 * 0x60) 11

/-- Whose turn it is among those that wait (R482, R483): the module's own come first; then the leaf least served by its share, leaves of
share 0 last. -/
def turnBy (share served : Nat → Nat) (waiting : List (Option Nat)) : Option (Option Nat) :=
  waiting.foldl (fun best p =>
    match best, p with
    | none, _ => some p
    | some none, _ => best
    | some (some _), none => some none
    | some (some q), some r => if (served r + 1) * share q < (served q + 1) * share r then some p else best) none

/-- The leaf whose turn it is among those with requests pending, `done` being those of the requests served so far (R482). -/
def Block.memTurn (b : Block) (done : List (Option Nat)) (waiting : List (Option Nat)) : Option (Option Nat) :=
  turnBy b.memShare (fun x => done.count (some x)) waiting

/-- The slot a controller issues next (R225). -/
def Block.nextSlot (b : Block) (t : Tier) (k : Nat) (done : List (Option Nat)) (ss : List MemSlot) : Option MemSlot :=
  match ss.find? fun s => s.since + 2000 ≤ b.now with
  | some s => some s
  | none =>
    let mine := match b.memTurn done (ss.map MemSlot.part) with
      | some p => ss.filter fun (s : MemSlot) => s.part == p
      | none => []
    let isOpen (s : MemSlot) : Bool :=
      let (bank, row) := bankOf t (groupAt t (64 * s.line))
      storeGet (fun _ => 0) (b.mc t k).rows bank == row + 1
    (mine.find? isOpen).or mine.head?

/-- Issues the writes of a list of slots one after another. -/
def Block.issueSlots (b : Block) (t : Tier) (k : Nat) : Nat → List (Option Nat) → List MemSlot → Block
  | 0, _, _ => b
  | n + 1, done, ss =>
    match b.nextSlot t k done ss with
    | none => b
    | some s => Block.issueSlots (b.devTouch t k (groupAt t (64 * s.line)) 1 true) t k n (s.part :: done) (ss.erase s)

/-- The SLOW bits of banks that hold no request older than 20 µs clear (R229). -/
def Block.slowEnds (b : Block) (t : Tier) (k : Nat) : Block :=
  let x := b.mc t k
  let old (bank : Nat) : Bool := x.slots.any fun s => bankOfLine t s.line == bank && decide (s.since + 20000 < b.now)
  let past := x.slowSince.filter fun q => !old q.1
  let b := b.each past fun b q => b.setFld (pageMc t k) (0x050 + 4 * (q.1 / 32)) (q.1 % 32) 1 0
  b.setMc t k { x with slowSince := x.slowSince.filter fun q => old q.1 }

/-- Issues as one batch the writes of the slots that `sel` picks, which are then free (R221, R225, R226). -/
def Block.issueBatch (b : Block) (t : Tier) (k : Nat) (sel : MemSlot → Bool) : Block :=
  let x := b.mc t k
  let ss := x.slots.filter sel
  if ss.isEmpty then b
  else
    let b := b.setMc t k { x with slots := x.slots.filter fun s => !sel s }
    (b.issueSlots t k ss.length [] ss).slowEnds t k

/-- The slots of a channel that a requester holds, its floor, and what the shared slots are and hold (R223): 256 without 8 of the
Steward's and the floors of the leaves with a manifest. -/
def McUnit.heldBy (x : McUnit) (part : Option Nat) : Nat := x.slots.countP fun (s : MemSlot) => s.part == part
def Block.slotFloor (b : Block) (t : Tier) (k : Nat) (part : Option Nat) : Nat :=
  match part with
  | none => 8
  | some p => if (b.grant p).loaded then b.fld (pageMc t k) 0x040 9 2 else 0
def Block.slotUsers (b : Block) (t : Tier) (k : Nat) : List (Option Nat) :=
  none :: ((List.range 64).filter fun p => (b.grant p).loaded || (b.mc t k).slots.any fun s => s.part == some p).map some
def Block.sharedSlots (b : Block) (t : Tier) (k : Nat) : Nat := 256 - ((b.slotUsers t k).map (b.slotFloor t k)).sum
def Block.sharedUsed (b : Block) (t : Tier) (k : Nat) : Nat :=
  ((b.slotUsers t k).map fun u => (b.mc t k).heldBy u - b.slotFloor t k u).sum

/-- Why a request to a line cannot take a slot now, if it cannot (R223, R224). `mark`: a write, with its poison. Writes to one granule combine
(R227), unless one is poisoned and the other is not. -/
def Block.slotWait (b : Block) (t : Tier) (k : Nat) (part : Option Nat) (line : Nat) (mark : Option Bool) : Option WaitCause :=
  let x := b.mc t k
  let bank := bankOfLine t line
  let merges := x.slots.any fun s => s.line == line && some s.mark == mark
  let barred := mark.isSome && x.slots.any fun s => s.line == line && s.part == part && some s.mark != mark
  if merges then none
  else if b.fld (pageMc t k) 0x040 0 9 ≤ x.slots.length && b.fld (pageMc t k) 0x040 0 9 ≤ (x.slots.countP fun s => bankOfLine t s.line == bank) then
    some .bankQuota
  else if barred || (b.slotFloor t k part ≤ x.heldBy part && b.sharedSlots t k ≤ b.sharedUsed t k) then some .slotExhausted
  else none

/-- A write to a line takes a slot or combines with one that waits (R221, R227). -/
def Block.holdSlot (b : Block) (t : Tier) (k : Nat) (part : Option Nat) (va line : Nat) (mark : Bool) : Block :=
  let x := b.mc t k
  if x.slots.any fun s => s.line == line && s.mark == mark then b
  else
    let b := b.peakSlots t k 1
    b.setMc t k { x with slots := x.slots ++ [⟨part, va, line, mark, b.now⟩] }

/-- A write to a line by an engine, which waits for a slot while the controller issues its batch; 64 pending writes are a batch (R226). -/
def Block.writeLine (b : Block) (t : Tier) (k : Nat) (part : Option Nat) (va line : Nat) (mark : Bool) : Block :=
  let b := b.ifSo (b.slotWait t k part line (some mark)).isSome fun b => b.issueBatch t k fun _ => true
  let b := b.holdSlot t k part va line mark
  b.ifSo (64 ≤ (b.mc t k).slots.length) fun b => b.issueBatch t k fun _ => true

/-- A read of [a, a + n) of a tier at its controllers: its data bytes, rows and check granules are counted; each granule holds a slot
until its data has been returned (R208, R221, R242). -/
def Block.mcRead (b : Block) (a n : Nat) : Block :=
  b.each (chunks a n) fun b q =>
    match tierOf q.1 with
    | none => b
    | some t =>
      let k := channelOf t q.1
      let b := (b.add64 (pageMc t k) 0x080 q.2).peakSlots t k 1
      b.each (groupsIn t q.1 q.2) fun b g => b.devTouch t k g.1 g.2 false

/-- A write of [a, a + n) of a tier, of leaf `part` at virtual address `va`; `mark` says which of its lines carry poisoned data. Data bytes are
counted, its granules take slots (R221, R226, R242). -/
def Block.mcWrite (b : Block) (part : Option Nat) (va a n : Nat) (mark : Nat → Bool) : Block :=
  b.each (chunks a n) fun b q =>
    match tierOf q.1 with
    | none => b
    | some t =>
      let k := channelOf t q.1
      let b := b.add64 (pageMc t k) 0x088 q.2
      b.each (linesOf q.1 q.2) fun b line => b.writeLine t k part (va + (max (64 * line) a - a)) line (mark line)

/-- An access of the module's own to a tier, unmarked. -/
def Block.countTier (b : Block) (a n : Nat) (write : Bool) : Block :=
  if write then b.mcWrite none a a n fun _ => false else b.mcRead a n

/-- A write of the module's own, counted where it meets a tier: bytes, and a little-endian number of `n` bytes. -/
def Block.putTier (b : Block) (a : Nat) (bs : List Byte) : Block := (b.put a bs false).countTier a bs.length true
def Block.putTierNum (b : Block) (a n v : Nat) : Block := b.putTier a (toBytes n v)

/-- Which lines of a write at `a` carry marked bytes. -/
def lineMark (a : Nat) (ms : List Bool) (line : Nat) : Bool :=
  let lo := max (64 * line) a
  ((ms.drop (lo - a)).take (64 * line + 64 - lo)).any id

/-! Translation (R212 to R217, R270, R273, R508). -/

/-- What an address of a partition names. -/
inductive Xl where
  | dev (a : Nat)
  | host (a : Nat) (coh : Bool)
  | bad
  | outside
  deriving DecidableEq, Repr

/-- On whose behalf an access is made: the leaf and, for a draft carriage, the draft. -/
structure Ctx where
  part  : Nat
  draft : Option Nat
  deriving DecidableEq, Repr

/-- The 8-byte entry of virtual page `v` in a table of `len` entries; none beyond its length (R212). -/
def Block.entry (b : Block) (base len v : Nat) : Option Nat :=
  if v < len then some (b.num (base + 8 * v) 8) else none

/-- The device address of a tier's virtual offset through the tables (R213, R215), for a read or a write. -/
def Block.xlTier (b : Block) (p : Nat) (t : Tier) (off : Nat) (wr : Bool) : Xl :=
  let page := pageOf .part p
  let (base, len) := match t with
    | .near => (b.reg64 page 0x100, b.regN page 0x108)
    | .deep => (b.reg64 page 0x110, b.regN page 0x10C)
  match b.entry base len (off / 2 ^ 21) with
  | none => .bad
  | some e =>
    if !bitOf e 0 || !bitOf e (if wr then 2 else 1) then .bad
    else if bitOf e 4 && t = .near then
      let piece := b.num (fieldOf e 21 27 * 2 ^ 21 + 8 * (off / 2 ^ 16 % 32)) 8
      if bitOf piece 0 then .dev (fieldOf piece 16 32 * 2 ^ 16 + off % 2 ^ 16) else .bad
    else .dev (fieldOf e 21 27 * 2 ^ 21 + off % 2 ^ 21)

/-- The draft page that holds a near-tier offset, if the draft has one (R216). -/
def Draft.page (d : Draft) (off : Nat) : Option Nat := (d.pages.find? fun q => q.1 == off / 2 ^ 16).map (·.2)

/-- The device address of offset `o` of bay `n` of a view (R270, R488). -/
def Block.xlBay (b : Block) (p n o : Nat) : Xl :=
  match b.arrayAt p n with
  | some (.unit a) =>
    if bitOf (b.grant p).arrays.toNat a && o < (b.grant p).bayBytes then
      .dev (regionBase .bay + a * baySize + o)
    else .outside
  | some (.fill k) =>
    let fb := fieldOf (b.part p).record.toNat (8 * 0x34) 22
    match (b.slot k).bound with
    | some a => if o < fb then .dev (regionBase .bay + a * baySize + (baySize - fb) + o) else .outside
    | none => .outside
  | none => .outside

/-- The device address of offset `o` of the yard of view field `f'` (R273). -/
def Block.xlYard (b : Block) (p f' o : Nat) : Xl :=
  match (b.part p).hold.fields[f']? with
  | some f =>
    if o < (b.grant p).yardBytes.getD f 0 then
      .dev (regionBase .yard + f * yardSize + (b.grant p).yardBase.getD f 0 + o)
    else .outside
  | none => .outside

/-- The host address of a host-window offset (R508). -/
def Block.xlHost (b : Block) (p off : Nat) (wr : Bool) : Xl :=
  let page := pageOf .part p
  match b.entry (b.reg64 page 0x128) (b.regN page 0x130) (off / 2 ^ 21) with
  | none => .bad
  | some e =>
    if !bitOf e 0 || !bitOf e (if wr then 2 else 1) then .bad
    else .host (fieldOf e 21 43 * 2 ^ 21 + off % 2 ^ 21) (bitOf e 4)

/-- What a partition-virtual address names for an access of a leaf or of one of its drafts. -/
def Block.xl (b : Block) (x : Ctx) (va : Nat) (wr : Bool) : Xl :=
  match regionOf va with
  | some .near =>
    let tables := b.xlTier x.part .near va wr
    match x.draft with
    | some d =>
      match (b.draft x.part d).page va with
      | some pg => .dev (pg + va % 2 ^ 16)
      | none => tables
    | none => tables
  | some .deep => b.xlTier x.part .deep (va - regionBase .deep) wr
  | some .host => b.xlHost x.part (va - regionBase .host) wr
  | some .bay => b.xlBay x.part ((va - regionBase .bay) / baySize) ((va - regionBase .bay) % baySize)
  | some .yard => b.xlYard x.part ((va - regionBase .yard) / yardSize) ((va - regionBase .yard) % yardSize)
  | none => .outside

/-! Answers and messages. -/

/-- Appends the reply of a mailbox command (R521, R522). -/
def Block.reply (b : Block) (rq : Req) (code status : Nat) (words : List Word) : Block :=
  let m := b.mbx rq.mbx
  b.setMbx rq.mbx { m with replies := m.replies ++ [⟨code, rq.seq, status, words⟩] }

/-- A number as reply words, low word first. -/
def words64 (v : Nat) : List Word := [BitVec.ofNat 32 v, BitVec.ofNat 32 (v / 2 ^ 32)]

/-- A list of 32-bit words of bytes. -/
def wordsOf : Nat → List Byte → List Word
  | 0, _ => []
  | n + 1, bs => BitVec.ofNat 32 (ofBytes (bs.take 4)) :: wordsOf n (bs.drop 4)

/-- The bytes of a list of words. -/
def bytesOfWords (ws : List Word) : List Byte := ws.flatMap fun w => toBytes 4 w.toNat

/-- Raises an MSI-X vector of a function (R516): sent, held pending while masked, or counted while the function's
interrupts are off. -/
def Block.msix (b : Block) (fn v : Nat) : Block :=
  let ctrl := b.regN (msixCtrlPage fn) 0
  if !bitOf ctrl 0 || bitOf ctrl 1 then b.add64 (pageOf .hostif 0) 0x088 1
  else if bitOf (b.regN (msixPage fn v) (msixOff v 12)) 0 then
    b.setFld (msixCtrlPage fn) (0x10 + 4 * (v / 32)) (v % 32) 1 1
  else b.emit (.msix fn v)

/-- The bytes an address argument names (R521): what the host returned, or the leaf's or the device's memory. -/
def Block.argBytes (b : Block) (leaf : Option Nat) (a : Src) (n : Nat) : List Byte :=
  match a with
  | .host bs => (bs ++ List.replicate n 0).take n
  | .virt va =>
    match leaf with
    | none => b.bytes va n
    | some p =>
      (List.range n).map fun i =>
        match b.xl ⟨p, none⟩ (va + i) false with
        | .dev d => b.byte d
        | .host h _ => storeGet memDefault b.hostMem h
        | _ => 0

end Sys2Proof.Machine
end

