-- ==== Sys2Proof/Machine/Flags.lean ====
section
/-!
DEFINITION. Events, their records and severities (R20, R598 to R600, R615), the counters of the PERF page (R592 to R596)
and the numeric health counters (R74 to R78).
-/

namespace Sys2Proof.Machine

/-- The severity of bit `bit` of a page's BLK_EVENT. -/
def severity (page bit : Nat) : Nat :=
  match pageKind page with
  | some (k, _) => eventSev k bit
  | none => 0

/-- The queues an event's record goes to (R598); `none` is the module queue. -/
def Block.eventDests (b : Block) (page bit sev : Nat) (part : Option Nat) (extra : List Nat) : List (Option Nat) :=
  let toModule := bitOf (b.regN page 0x018) bit && fieldOf (b.regN (pageOf .dev 0) 0x200) 5 2 ≤ sev
  let leaves := (List.range 64).filter fun p =>
    (b.part p).present && (b.part p).leaf &&
      (sev == 3 || part == some p || extra.contains p || b.holdsPage p page) &&
      b.fld (pageOf .perf p) 0x044 5 2 ≤ sev
  (if toModule then [none] else []) ++ leaves.map some

/-- Folds an occurrence into the record of its source and bit within 10 µs of the record's TIME (R600). -/
def foldEvent (now page bit : Nat) : List EvRec → Option (List EvRec)
  | [] => none
  | e :: r =>
    if e.page = page ∧ e.bit = bit ∧ e.sev ≤ 1 ∧ now ≤ e.time + 10000 then
      some ({ e with rep := min (e.rep + 1) 65535 } :: r)
    else (foldEvent now page bit r).map (e :: ·)

/-- Sends a platform event message beside an event (R631). -/
def Block.platformEvent (b : Block) (page bit : Nat) : Block := b.emit (.pldm 0x0A (page * 32 + bit))

/-- Raises event `bit` of a page: sets its BLK_EVENT bit, makes or folds its record, and on FATAL records the cause,
enters FATAL and sends a platform event message (R598, R600, R615, R617, R631). -/
def Block.raise (b : Block) (page bit : Nat) (part : Option Nat := none) (arg0 arg1 : Nat := 0)
    (extra : List Nat := []) : Block :=
  let sev := severity page bit
  let b := b.setFld page 0x014 bit 1 1
  let dests := b.eventDests page bit sev part extra
  let rec_ : EvRec := ⟨b.now, page, bit, sev, part, 0, BitVec.ofNat 64 arg0, BitVec.ofNat 64 arg1, dests⟩
  let b := { b with events := (if sev ≤ 1 then foldEvent b.now page bit b.events else none).getD (b.events ++ [rec_]) }
  if sev = 3 then
    let dev := pageOf .dev 0
    let first := b.fld dev 0x040 0 3 != 5
    ((b.ifSo first fun b => b.setN dev 0x044 (page + bit * 2 ^ 16)).setFld dev 0x040 0 3 5).platformEvent page bit
  else b

/-- Raises an event of a leaf's PART page (R598). -/
def Block.raisePart (b : Block) (p bit : Nat) (arg0 arg1 : Nat := 0) : Block :=
  b.raise (pageOf .part p) bit (some p) arg0 arg1

/-- Adds `n` to a counter of COUNT [47:0] and a sticky bit [63] set by a wrap (R121, R595, R77). -/
def wrapAdd (v : DWord) (n : Nat) : DWord :=
  let c := v.toNat % 2 ^ 48 + n
  BitVec.ofNat 64 (c % 2 ^ 48 + (if 2 ^ 48 ≤ c then 2 ^ 63 else v.toNat / 2 ^ 63 * 2 ^ 63))

/-- The index by which leaf `p`'s view names a unit of a kind of PERF_SEL (R592, R594). -/
def Block.unitIndex (b : Block) (p kind unit : Nat) : Option Nat :=
  match kind with
  | 2 => (List.range 64).find? fun i => b.cartAt p i == some unit
  | 3 => (List.range 256).find? fun i => (b.chansOf p)[i]? == some unit
  | 4 => (List.range 48).find? fun i => b.portAt p i == some unit
  | 5 => some 0
  | _ => (List.range 128).find? fun i => b.arrayUnit p i == some unit

/-- Counts `n` of an event in the counters leaf `p` has selected it in (R594, R595). -/
def Block.countEv (b : Block) (p kind unit ev n : Nat) : Block :=
  let page := pageOf .perf p
  b.each (List.range (b.grant p).counters) fun b k =>
    let sel := b.regN page (0x100 + 4 * k)
    let u := fieldOf sel 11 8
    if bitOf sel 19 && fieldOf sel 0 8 == ev && fieldOf sel 8 3 == kind &&
        (u == 0xFF || b.unitIndex p kind unit == some u) then
      let old := BitVec.ofNat 64 (b.reg64 page (0x080 + 8 * k))
      let new := wrapAdd old n
      let b := b.set64 page (0x080 + 8 * k) new.toNat
      b.ifSo (2 ^ 48 ≤ old.toNat % 2 ^ 48 + n && bitOf (b.regN page 0x040) 1) fun b => b.raise page 0 (some p)
    else b

/-- A live health counter of a leaf: counter `i` (TOTAL, OVF, VANISH, NAN) of format code `f` (R75, R77). -/
def Block.healthOf (b : Block) (p f i : Nat) : DWord := storeGet (fun _ => 0) b.health (64 * p + 4 * f + i)

/-- Adds to a live health counter. -/
def Block.addHealth (b : Block) (p f i n : Nat) : Block :=
  { b with health := storePut (fun _ => 0) b.health (64 * p + 4 * f + i) (wrapAdd (b.healthOf p f i) n) }

/-- Counts converted elements of a format for a leaf (R74 to R76). -/
def Block.countConv (b : Block) (p f : Nat) (cs : List Conv) : Block :=
  (((b.addHealth p f 0 cs.length).addHealth p f 1 (cs.countP (·.ovf))).addHealth p f 2
    (cs.countP (·.vanish))).addHealth p f 3 (cs.countP (·.nan))

/-- PERF_CYCLES of a leaf: time-base cycles since its manifest was loaded (R592). -/
def Block.perfCycles (b : Block) (p : Nat) : Nat :=
  if (b.grant p).loaded then b.now - (b.grant p).loadedAt else 0

/-- A latch of the programmable counters (R596). -/
def Block.perfLatch (b : Block) (p : Nat) : Block :=
  let page := pageOf .perf p
  let b := b.each (List.range 8) fun b k => b.set64 page (0x0C0 + 8 * k) (b.reg64 page (0x080 + 8 * k))
  (b.set64 page 0x068 (b.perfCycles p)).set64 page 0x070 b.now

/-- A snapshot of the health counters with its latch (R78, R596). -/
def Block.numSnap (b : Block) (p : Nat) : Block :=
  let page := pageOf .perf p
  let b := b.each (List.range 64) fun b i =>
    b.set64 page (0x400 + 8 * i) (storeGet (fun _ => 0) b.health (64 * p + i)).toNat
  let b := { b with health := storeClear b.health (64 * p) (64 * p + 64) }
  (b.set64 page 0x3F8 b.now).perfLatch p

end Sys2Proof.Machine
end

