-- ==== Sys2Proof/Machine/Access.lean ====
section
/-!
DEFINITION. A carriage's reads and writes of partition-virtual addresses: translation, poison, draft pages, conflicts and
the traffic counters (R183, R186 to R188, R212 to R220, R233, R234).
-/

namespace Sys2Proof.Machine

/-- Spoils an OPEN draft with a reason; a SPOILED draft keeps its first cause (R191, R196). -/
def Block.spoil (b : Block) (p d : Nat) (why : DraftReason) : Block :=
  let x := b.draft p d
  if x.state = .open_ then b.setDraft p d { x with state := .spoiled, reason := why } else b

/-- Spoils the draft of an access, if it is a draft's. -/
def Block.spoilCtx (b : Block) (x : Ctx) (why : DraftReason) : Block :=
  match x.draft with
  | some d => b.spoil x.part d why
  | none => b

/-- Spoils with CONFLICT every open draft of a leaf, other than `except`, that holds a copy of the page of a near-tier
offset (R187). -/
def Block.conflict (b : Block) (p off : Nat) (except : Option Nat) : Block :=
  b.each ((List.range 16).filter fun d =>
      some d != except && (b.draft p d).state == .open_ && ((b.draft p d).page off).isSome)
    fun b d => b.spoil p d .conflict

/-! The translation caches (R217, R219, R224). -/

/-- The translation table of a leaf for a tier: its base and its length (R212). -/
def Block.tableOf (b : Block) (p : Nat) (t : Tier) : Nat × Nat :=
  let page := pageOf .part p
  match t with
  | .near => (b.reg64 page 0x100, b.regN page 0x108)
  | .deep => (b.reg64 page 0x110, b.regN page 0x10C)

/-- The entries a cache holds: 4,096 in each field's, 8,192 in the shared one, number 4. -/
def cacheSize (c : Nat) : Nat := if c < 4 then 4096 else 8192

/-- Whether a cached entry maps a tier's offset for a leaf. -/
def XlTag.maps (e : XlTag) (p : Nat) (t : Tier) (off : Nat) : Bool :=
  e.part == p && e.tier == t && e.idx == off / 2 ^ (if e.piece then 16 else 21)

def Block.xlCache (b : Block) (c : Nat) : List XlTag := storeGet (fun _ => []) b.xlCaches c
def Block.setXlCache (b : Block) (c : Nat) (es : List XlTag) : Block :=
  { b with xlCaches := storePut (fun _ => []) b.xlCaches c es }
def Block.xlHit (b : Block) (c p : Nat) (t : Tier) (off : Nat) : Bool := (b.xlCache c).any fun e => e.maps p t off

/-- Whether an invalidation of a written value covers a cached entry of its leaf (R219). -/
def invDrops (value : Nat) (e : XlTag) : Bool :=
  bitOf value 0 || (bitOf value 1 == (e.tier == .deep) && (if e.piece then e.idx / 32 else e.idx) == fieldOf value 12 20)

/-- Every cache drops the entries of a leaf that an invalidation covers (R218). -/
def Block.dropTags (b : Block) (p value : Nat) : Block :=
  b.each (List.range 5) fun b c => b.setXlCache c ((b.xlCache c).filter fun e => !(e.part == p && invDrops value e))

/-- A miss: the entry is read from the deep tier, with its piece entry where it is split, and a valid one comes into the cache, from which the
one used longest ago goes. -/
def Block.xlMiss (b : Block) (c p : Nat) (t : Tier) (off : Nat) : Block :=
  let (base, len) := b.tableOf p t
  let v := off / 2 ^ 21
  let b := (b.add64 (pageOf .part p) 0x120 1).countEv p 5 0 0x1B 1
  match b.entry base len v with
  | none => b
  | some e =>
    let b := b.mcRead (base + 8 * v) 8
    let split := bitOf e 4 && t == .near
    let at_ := fieldOf e 21 27 * 2 ^ 21 + 8 * (off / 2 ^ 16 % 32)
    let valid := bitOf e 0 && (!split || bitOf (b.num at_ 8) 0)
    let b := b.ifSo (bitOf e 0 && split) fun b => b.mcRead at_ 8
    b.ifSo valid fun b =>
      b.setXlCache c ((⟨p, t, split, off / 2 ^ (if split then 16 else 21)⟩ :: b.xlCache c).take (cacheSize c))

/-- The use of a tier's offset through the tables: a cached entry becomes the one used latest. -/
def Block.xlLook (b : Block) (c p : Nat) (t : Tier) (off : Nat) : Block :=
  match (b.xlCache c).find? fun e => e.maps p t off with
  | some e => b.setXlCache c (e :: (b.xlCache c).erase e)
  | none => b.xlMiss c p t off

/-- The tier and the offset that an address is translated by through the tables; none where a draft's page map or no table does (R216). -/
def Block.xlKey (b : Block) (x : Ctx) (va : Nat) : Option (Tier × Nat) :=
  match regionOf va with
  | some .near =>
    match x.draft with
    | some d => if ((b.draft x.part d).page va).isSome then none else some (.near, va)
    | none => some (.near, va)
  | some .deep => some (.deep, va - regionBase .deep)
  | _ => none

/-- The translation of an access in the cache of the engine whose command runs. -/
def Block.xlUse (b : Block) (x : Ctx) (va : Nat) : Block :=
  match b.xlKey x va with
  | some (t, off) => b.xlLook b.cacheSel x.part t off
  | none => b

/-! Reads and writes. -/

/-- A leaf's traffic in its counters (R594); at the host interface (R526). -/
def Block.countXl (b : Block) (p : Nat) (x : Xl) (n : Nat) (write : Bool) : Block :=
  match x with
  | .dev a =>
    match tierOf a with
    | some .near => b.countEv p 5 0 (if write then 0x18 else 0x17) n
    | some .deep => b.countEv p 5 0 (if write then 0x1A else 0x19) n
    | none => b
  | .host _ _ => b.add64 (pageOf .hostif 0) (if write then 0x068 else 0x060) n
  | _ => b

/-- A leaf reads `n` bytes at a device address, with their marks. -/
def Block.loadDev (b : Block) (p a n : Nat) : Block × List (Byte × Bool) :=
  ((b.mcRead a n).countXl p (.dev a) n false, b.getM a n)

/-- A leaf writes bytes with their marks at a device address that its virtual address `va` names. -/
def Block.storeDev (b : Block) (p va a : Nat) (bs : List (Byte × Bool)) : Block :=
  ((b.putM a bs).mcWrite (some p) va a bs.length (lineMark a (bs.map Prod.snd))).countXl p (.dev a) bs.length true

/-- What a read brings: bytes with their poison marks, or the address at which translation failed. -/
inductive Got where
  | ok (bs : List (Byte × Bool))
  | fault (va : Nat)
  deriving DecidableEq, Repr

/-- Reads one piece. -/
def Block.readPiece (b : Block) (x : Ctx) (va n : Nat) : Block × Got :=
  let w := b.xl x va false
  let b := b.xlUse x va
  match w with
  | .dev a => ((b.loadDev x.part a n).1, .ok (b.loadDev x.part a n).2)
  | .host h _ => (b.countXl x.part w n false, .ok (b.getHost h n))
  | _ => (b, .fault va)

/-- Reads a list of pieces, up to the first that fails. -/
def Block.readPieces (b : Block) (x : Ctx) : List (Nat × Nat) → Block × Got
  | [] => (b, .ok [])
  | (va, n) :: r =>
    match b.readPiece x va n with
    | (b, .fault a) => (b, .fault a)
    | (b, .ok bs) =>
      match Block.readPieces b x r with
      | (b, .fault a) => (b, .fault a)
      | (b, .ok cs) => (b, .ok (bs ++ cs))

/-- Reads [va, va + n) for a carriage; a draft that reads poison is spoiled (R188). -/
def Block.readV (b : Block) (x : Ctx) (va n : Nat) : Block × Got :=
  match b.readPieces x (chunks va n) with
  | (b, .ok bs) => (if bs.any Prod.snd then b.spoilCtx x .fault else b, .ok bs)
  | (b, .fault a) => (b, .fault a)

/-- Whether a range lies in one of a draft's scratch ranges (R183). -/
def Draft.inScratch (d : Draft) (va n : Nat) : Bool :=
  (d.scr0.1 ≤ va && va + n ≤ d.scr0.1 + d.scr0.2) || (d.scr1.1 ≤ va && va + n ≤ d.scr1.1 + d.scr1.2)

/-- Takes a page of the draft's reservation for the page of a near-tier offset, copying the committed contents unless the
write covers the page; none where PAGE_LIMIT is reached (R186). -/
def Block.takePage (b : Block) (p d off : Nat) (whole : Bool) : Option Block :=
  let x := b.draft p d
  match x.free with
  | [] => none
  | pg :: rest =>
    if x.pages.length < x.pageLimit then
      let va := off / 2 ^ 16 * 2 ^ 16
      let b := match b.xlTier p .near va false with
        | .dev src =>
          if whole then b
          else
            let b := ((b.mcRead src 65536).countXl p (.dev src) 65536 false).copy src 65536 pg
            (b.mcWrite (some p) va pg 65536 b.marked).countXl p (.dev pg) 65536 true
        | _ => b
      some (b.setDraft p d { x with pages := x.pages ++ [(off / 2 ^ 16, pg)], free := rest, used := x.used + 1 })
    else none

/-- A suppressed draft write (R183, R186, R188). -/
def Block.suppress (b : Block) (p d : Nat) (why : DraftReason) : Block :=
  let b' := b.spoil p d why
  b'.ifSo (why == .pages && (b.draft p d).state == .open_)
    fun b => b.raisePart p 4 d (b.draft p d).pages.length

/-- Writes a piece of a non-draft carriage, or of a draft where its writes go to committed places: none where
translation fails. -/
def Block.writePlain (b : Block) (p va : Nat) (bs : List (Byte × Bool)) : Option Block :=
  let w := b.xl ⟨p, none⟩ va true
  let b := b.xlUse ⟨p, none⟩ va
  match w with
  | .dev a =>
    let b := b.storeDev p va a bs
    some (if tierOf a = some .near then b.conflict p va none else b)
  | .host h _ => some ((b.putHost h bs).countXl p w bs.length true)
  | _ => none

/-- Writes a piece of a draft carriage (R183, R186, R216): a page the draft holds takes it; else the committed page must allow the write, and
the draft takes a page for it. `whole` says that the write covers the piece's whole page. -/
def Block.writeDraft (b : Block) (p d va : Nat) (bs : List (Byte × Bool)) (whole : Bool) : Option Block :=
  match regionOf va with
  | some .near =>
    match (b.draft p d).page va with
    | some pg => some (b.storeDev p va (pg + va % 2 ^ 16) bs)
    | none =>
      let w := b.xlTier p .near va true
      let b := b.xlUse ⟨p, some d⟩ va
      match w with
      | .dev _ =>
        match b.takePage p d va whole with
        | none => some (b.suppress p d .pages)
        | some b =>
          match (b.draft p d).page va with
          | some pg => some (b.storeDev p va (pg + va % 2 ^ 16) bs)
          | none => some b
      | _ => none
  | some .bay => if (b.draft p d).inScratch va bs.length then b.writePlain p va bs else some (b.suppress p d .fault)
  | some .yard => if (b.draft p d).inScratch va bs.length then b.writePlain p va bs else some (b.suppress p d .fault)
  | _ => some (b.suppress p d .fault)

/-- Writes a list of pieces in order, up to the first whose translation fails. -/
def Block.writePieces (b : Block) (x : Ctx) (lo hi : Nat) : List (Nat × Nat) → List (Byte × Bool) → Block × Option Nat
  | [], _ => (b, none)
  | (va, n) :: r, bs =>
    let piece := bs.take n
    let whole := lo ≤ va / 2 ^ 16 * 2 ^ 16 && va / 2 ^ 16 * 2 ^ 16 + 2 ^ 16 ≤ hi
    match (match x.draft with
      | some d => b.writeDraft x.part d va piece whole
      | none => b.writePlain x.part va piece) with
    | none => (b, some va)
    | some b => Block.writePieces b x lo hi r (bs.drop n)

/-- Writes bytes with their marks at [va, va + n) for a carriage; answers the address at which translation failed, if
any. -/
def Block.writeV (b : Block) (x : Ctx) (va : Nat) (bs : List (Byte × Bool)) : Block × Option Nat :=
  b.writePieces x va (va + bs.length) (chunks va bs.length) bs

/-- Unmarked bytes. -/
def clean (bs : List Byte) : List (Byte × Bool) := bs.map fun v => (v, false)

/-- The bytes of marked bytes. -/
def raw (bs : List (Byte × Bool)) : List Byte := bs.map Prod.fst

/-- Whether any byte is marked. -/
def anyMark (bs : List (Byte × Bool)) : Bool := bs.any Prod.snd

end Sys2Proof.Machine
end

