-- ==== Sys2Proof/Machine/RegCore.lean ====
section
/-!
DEFINITION. What a register access meets: the value a register reads as in a requester's view, who may write it, and how
a write's bits take effect (R12 to R19, R504, R593, R597, R607 to R616).
-/

namespace Sys2Proof.Machine

/-- The switched domain a page's block lies in (R564); none for the always-on domain. -/
def domainOfPage (k : Kind) (n : Nat) : Option Nat :=
  match k with
  | .array => some (n / 8)
  | .vec => some (n / 8)
  | .nearmc => some 16
  | .deepmc => some 17
  | .pruner => some 17
  | .port => some (18 + n / 24)
  | _ => none

/-- Whether a switched domain is ready (R566). -/
def Block.domainReady (b : Block) (d : Nat) : Bool := bitOf (b.regN (pageOf .power 0) 0x050) d

/-- Whether the domain of a block is ready; the always-on domain always is. -/
def Block.blockReady (b : Block) (k : Kind) (n : Nat) : Bool :=
  match domainOfPage k n with
  | some d => b.domainReady d
  | none => true

/-- BLK_STATUS.SVC (R613). -/
def Block.svcOf (b : Block) (k : Kind) (n : Nat) : Nat :=
  let ready := b2n (b.blockReady k n)
  let a := pageOf .array n
  let arrayPair := if b.fld a 0x044 0 2 = 3 then 3 else if b.fld a 0x00C 0 1 = 1 then 2 else ready
  match k with
  | .array => arrayPair
  | .vec => arrayPair
  | .nearmc =>
    match b.fld (pageOf .nearmc n) 0x044 0 3 with
    | 5 => 3
    | 1 => 2
    | 4 => 2
    | _ => ready
  | .deepmc =>
    match b.fld (pageOf .deepmc n) 0x044 0 3 with
    | 5 => 3
    | 1 => 2
    | 4 => 2
    | _ => ready
  | .port =>
    match b.fld (pageOf .port n) 0x044 0 3 with
    | 5 => 3
    | 1 => 2
    | 2 => 2
    | 4 => 2
    | _ => ready
  | _ => ready

/-- BLK_CAPS (R611). -/
def blkCaps (k : Kind) : Nat :=
  let progress := k == .coach || k == .recovery || k == .nearmc || k == .deepmc
  let stall := k == .array || k == .vec || k == .cart || k == .pruner
  b2n progress + b2n (k == .array) * 2 + b2n stall * 4 + b2n (k == .array) * 2 ^ 16 +
    b2n (k == .port) * (2 ^ 17 + 2 ^ 18)

/-- BLK_STATUS.PROG_ACTIVE: an operation that the page reports under R606 has started and has not ended (R613). -/
def Block.progActive (b : Block) (k : Kind) (n : Nat) : Bool :=
  match k with
  | .coach => b.fld (pageOf .coach 0) 0x040 6 1 == 1
  | .recovery => b.rebuilds.any fun r => r.2.active
  | .nearmc => b.fld (pageOf .nearmc n) 0x044 3 1 == 1
  | .deepmc => b.fld (pageOf .deepmc n) 0x044 3 1 == 1
  | _ => false

/-- What a register word of a device page reads as, before any view (R610 to R613 and the computed registers). -/
def Block.value (b : Block) (k : Kind) (n off : Nat) : Nat :=
  let page := pageOf k n
  let stored := b.regN page off
  match off with
  | 0x000 => kindCode k + n * 2 ^ 8
  | 0x004 => 0x100
  | 0x008 => blkCaps k
  | 0x010 => b.svcOf k n + fieldOf stored 2 1 * 4 + b2n (b.progActive k n) * 8 + b2n (b.regN page 0x014 != 0) * 16 + b.fld page 0x01C 0 1 * 32
  | _ =>
    match k with
    | .chan => if off = 0x054 && stored != 0 then 64 - (b.regN page 0x04C + 128 - b.regN page 0x050) % 128 else stored
    | .clock => if off = 0x040 then b.now % 2 ^ 32 else if off = 0x044 then b.now / 2 ^ 32 % 2 ^ 32 else stored
    | .mbx =>
      let m := b.mbx n
      if off = 0x044 then
        let q := b.fld page 0x040 0 1 == 1
        b2n (if q then !m.reqQ.isEmpty else m.reqFull) + 2 * b2n (if q then !m.rplQ.isEmpty else m.rplFull) +
          4 * m.reqQ.length + 128 * m.rplQ.length
      else stored
    | .ageing =>
      let d := (b.power.history.getD (b.regN page 0x060) 0).toNat
      if off = 0x068 then d % 2 ^ 32 else if off = 0x06C then d / 2 ^ 32 else stored
    | .part =>
      if off = 0x230 then b.phase n
      else if off = 0x234 then b.inflight n
      else if off = 0x300 && bitOf stored 5 then putField stored 0 4 12
      else if off = 0x30C then (b.regN page 0x304 + 2 ^ 32 - b.regN page 0x308) % 2 ^ 8
      else stored
    | .hostif => if off = 0x050 then b.snoop.length else stored
    | .nearmc => if off = 0x0A0 then (b.mc .near n).slots.length else stored
    | .deepmc => if off = 0x0A0 then (b.mc .deep n).slots.length else stored
    | .perf =>
      if off = 0x060 then b.perfCycles n % 2 ^ 32
      else if off = 0x064 then b.perfCycles n / 2 ^ 32 % 2 ^ 32
      else if 0x120 ≤ off && off < 0x130 then
        match (b.part n).hold.fields[(off - 0x120) / 4]? with
        | some f => b.regN (pageOf .clock 0) (0x050 + 4 * f)
        | none => 0
      else
        let c := (b.grant n).counters
        let gone := (0x080 ≤ off && off < 0x0C0 && c ≤ (off - 0x080) / 8) ||
          (0x0C0 ≤ off && off < 0x100 && c ≤ (off - 0x0C0) / 8) ||
          (0x100 ≤ off && off < 0x120 && c ≤ (off - 0x100) / 4)
        if gone then 0 else stored
    | _ => stored

/-- Whether a requester's writes reach a register word of a device page (R504, R557, R593, R597, R609, R612 and the
access columns of the chapters' tables). -/
def Block.mayWrite (b : Block) (who : Agent) (k : Kind) (n off : Nat) : Bool :=
  let locked := b.fld (pageOf k n) 0x01C 0 1 == 1
  let counters := (b.grant n).counters
  let heldCounter := !(k == .perf) ||
    !((0x080 ≤ off && off < 0x0C0 && counters ≤ (off - 0x080) / 8) ||
      (0x100 ≤ off && off < 0x120 && counters ≤ (off - 0x100) / 4))
  let device := k != .thorn && k != .hawthorn && k != .perfUser && heldCounter
  match who with
  | .pf => !locked && k != .perfUser &&
      (off == 0x014 || off == 0x018 || (k == .chan && off == 0x044) || (k == .mbx && n ≤ 2 && off == 0x040))
  | .vf _ => !locked && heldCounter &&
      match k with
      | .array => off == 0x014 || (0x080 ≤ off && off < 0x0D0) || (0x100 ≤ off && off < 0x170) ||
          (0x180 ≤ off && off < 0x194)
      | .vec => off == 0x014 || (0x080 ≤ off && off < 0x0D0)
      | .cart => off == 0x014 || (0x080 ≤ off && off < 0x0F0)
      | .chan => off == 0x014 || off == 0x044
      | .part => off == 0x014 || (0x200 ≤ off && off < 0x268)
      | .perf => off == 0x014 || 0x040 ≤ off
      | .mbx => off == 0x014 || off == 0x040
      | _ => false
  | .steward => device || (k != .perfUser && (off == 0x014 || off == 0x018 || off == 0x01C))
  | .debug => device && !locked
  | .hawthorn => k == .thorn || k == .hawthorn

/-- Keeps the old field where the new value is a reserved encoding (R16). -/
def keepField (old new lo len : Nat) (ok : Bool) : Nat :=
  if ok then new else putField new lo len (fieldOf old lo len)

/-- A grace register (R437, R438): GRACE_MS 1 to 60,000, log₂ GRACE_FRAMES 10 to 24. -/
def legalGrace (old new : Nat) : Nat :=
  let new := keepField old new 0 16 (1 ≤ fieldOf new 0 16 && fieldOf new 0 16 ≤ 60000)
  keepField old new 16 5 (10 ≤ fieldOf new 16 5 && fieldOf new 16 5 ≤ 24)

/-- The kinds of unit an event code of PERF_SEL is valid with (R594). -/
def perfKinds (code : Nat) : List Nat :=
  if code ≤ 0x0E then [0, 1, 2]
  else match code with
    | 0x10 => [0] | 0x11 => [1] | 0x12 => [1] | 0x13 => [2] | 0x14 => [2] | 0x15 => [3] | 0x16 => [3]
    | 0x17 => [5] | 0x18 => [5] | 0x19 => [5] | 0x1A => [5] | 0x1B => [5] | 0x1C => [5] | 0x1D => [5]
    | 0x1E => [4] | 0x1F => [4] | 0x20 => [4] | 0x21 => [5] | 0x22 => [5] | 0x23 => [5]
    | _ => []

/-- PORT_CTRL (R438): WIDTH 3 is reserved, and so is HOP_ENC = 1 with MODE = 1. -/
def legalPort (old new : Nat) : Nat :=
  let new := keepField old new 2 2 (fieldOf new 2 2 != 3)
  let new := keepField old new 4 1 (!(bitOf new 1 && bitOf new 4))
  keepField old new 1 1 (!(bitOf new 1 && bitOf new 4))

/-- A controller's registers (R230, R242). -/
def legalMc (off old new : Nat) : Nat :=
  if off = 0x040 then keepField old new 0 9 (8 ≤ fieldOf new 0 9 && fieldOf new 0 9 ≤ 256)
  else if off = 0x048 then keepField old new 0 8 (1 ≤ fieldOf new 0 8 && fieldOf new 0 8 ≤ 168)
  else new

/-- A value written to a register word, with each reserved encoding replaced by the field's old value (R16). -/
def legalize (k : Kind) (off old new : Nat) : Nat :=
  match k with
  | .nearmc => legalMc off old new
  | .deepmc => legalMc off old new
  | .pruner => if off = 0x048 then keepField old new 0 32 (fieldOf new 0 17 == 0) else new
  | .coach => if off = 0x060 then legalGrace old new else new
  | .port => if off = 0x040 then legalPort old new else if off = 0x0B4 then legalGrace old new else new
  | .thorn => if off = 0x060 then keepField old new 0 5 (10 ≤ fieldOf new 0 5 && fieldOf new 0 5 ≤ 24) else new
  | .array =>
    if off = 0x050 then keepField old new 0 32 (fieldOf new 0 12 == 0)
    else if 0x100 ≤ off && off < 0x170 && off % 16 = 4 then keepField old new 0 21 (new % 64 == 0)
    else new
  | .part =>
    if off = 0x100 || off = 0x110 || off = 0x128 then keepField old new 0 32 (fieldOf new 0 12 == 0)
    else if off = 0x108 then keepField old new 0 17 (fieldOf new 0 17 ≤ 122880)
    else if off = 0x10C then keepField old new 0 20 (fieldOf new 0 20 ≤ 983040)
    else if off = 0x130 then keepField old new 0 27 (fieldOf new 0 27 ≤ 66060288)
    else if 0x400 ≤ off && off < 0x600 && (off % 32 = 0 || off % 32 = 8) then keepField old new 0 32 (fieldOf new 0 12 == 0)
    else if off = 0x610 then keepField old new 0 32 (new % 64 == 0)
    else new
  | .perf =>
    if off = 0x044 then keepField old new 1 4 (fieldOf new 1 4 ≤ 10)
    else if off = 0x048 then keepField old new 0 32 (fieldOf new 0 12 == 0)
    else if 0x100 ≤ off && off < 0x120 then keepField old new 0 11 ((perfKinds (fieldOf new 0 8)).contains (fieldOf new 8 3))
    else new
  | _ => new

/-- A value written to a step register, with each reserved encoding replaced by the field's old value (R16, R333, R334). -/
def legalStep (sems off old new : Nat) : Nat :=
  match off with
  | 0x200 => keepField old new 2 4 (fieldOf new 2 4 ≤ 8)
  | 0x208 => keepField old (keepField old new 0 14 (fieldOf new 0 14 < sems)) 16 14 (fieldOf new 16 14 < sems)
  | 0x210 => keepField old new 0 32 (new % 16 == 0)
  | 0x218 => keepField old new 0 14 (fieldOf new 0 14 < sems)
  | 0x21C => keepField old new 0 32 (1 ≤ new && new ≤ 0x7F800000)
  | 0x220 => keepField old new 0 16 (1 ≤ fieldOf new 0 16 && fieldOf new 0 16 ≤ 60000)
  | 0x22C => keepField old new 0 16 (1 ≤ fieldOf new 0 16)
  | 0x264 => keepField old new 0 14 (fieldOf new 0 14 < sems)
  | _ => new

/-- Whether an 8-byte write of `v` to a 64-bit register is of a reserved encoding, which leaves the whole field as it was (R16). -/
def Block.wideReserved (b : Block) (k : Kind) (n off v : Nat) : Bool :=
  match regWordAt k n off with
  | some w =>
    let old := b.regN (pageOf k n) off
    let m := halfMask w w.row.rw
    let new := (old &&& (2 ^ 32 - 1 - m)) ||| (v % 2 ^ 32 &&& m)
    let kept := if k == .part && 0x200 ≤ off && off < 0x268 then legalStep (b.grant n).semCount off old new else legalize k off old new
    w.row.wide && !w.upper && kept != new
  | none => false

/-- The word a register holds after `v` is written to the bits of `m` (R12, R15, R16). -/
def Block.writeBits (b : Block) (k : Kind) (n off m v : Nat) : Block :=
  let old := b.regN (pageOf k n) off
  let new := (old &&& (2 ^ 32 - 1 - m % 2 ^ 32)) ||| (v &&& m % 2 ^ 32)
  b.setN (pageOf k n) off (legalize k off old new)

/-- Clears the W1C bits that `v` writes 1 to, but for those hardware sets in the same cycle (R12, R13). -/
def Block.clearBits (b : Block) (k : Kind) (n off m v hwSet : Nat) : Block :=
  let old := b.regN (pageOf k n) off
  b.setN (pageOf k n) off ((old &&& (2 ^ 32 - 1 - (v &&& m) % 2 ^ 32)) ||| (hwSet &&& m) % 2 ^ 32)

/-- Whether an access's offset and width are of a kind every page accepts (R616). -/
def goodWidth (off width : Nat) : Bool := (width == 4 || width == 8) && off % width == 0 && off + width ≤ 0x1000

end Sys2Proof.Machine
end

