-- ==== Sys2Proof/Machine/Units.lean ====
section
/-!
DEFINITION. Operations on arrays and their vector engines that several families share: retirement, the self-test, the
loss of a domain's contents (R116, R119, R120, R565).
-/

namespace Sys2Proof.Machine

/-- The page of DEV, and the offset of ARRAY_RETIRED_f (R617). -/
def devPage : Nat := pageOf .dev 0

/-- Whether an array is retired (R120, R617). -/
def Block.retired (b : Block) (a : Nat) : Bool := bitOf (b.regN devPage (0x050 + 4 * (a / 32))) (a % 32)

/-- ARRAY_STATE.STATE (R121). -/
def Block.arrayState (b : Block) (a : Nat) : Nat := b.fld (pageOf .array a) 0x044 0 2
def Block.setArrayState (b : Block) (a v : Nat) : Block := b.setFld (pageOf .array a) 0x044 0 2 v

/-- Starts the self-test of an array with its vector engine unless the array is busy (R612). -/
def Block.selftestStart (b : Block) (a : Nat) : Block :=
  if b.arrayState a = 0 || b.arrayState a = 3 then b.setFld (pageOf .array a) 0x00C 0 1 1 else b

/-- Clears what ZERO clears (R116, R155, R295): entries, slots, scales, inbox, registers and draw counts of the pair, the drain
compressor's window and FOLD_HELD; the skid buffer and the place inside a row go with the carriages. -/
def Block.zeroPair (b : Block) (a : Nat) : Block :=
  let x := b.arr a
  let b := b.setArr a { x with
    slot0 := Slot.none, slot1 := Slot.none, entries := [], inbox := [], draws := 0, pzBytes := [] }
  let b := (b.setVec a VecUnit.none).setFld (pageOf .array a) 0x180 0 1 0
  (b.setN (pageOf .array a) 0x044 (b.regN (pageOf .array a) 0x044 % 4)).setFld (pageOf .vec a) 0x040 2 1 0

/-- The arrays of domain `d` < 16 (R564). -/
def domainArrays (d : Nat) : List Nat := (List.range 8).map (8 * d + ·)

/-- The loss of an array's, its vector engine's and its bay's contents with its domain (R565); the record of its
retirement stays. -/
def Block.loseArray (b : Block) (a : Nat) : Block :=
  let b := b.setVec a VecUnit.none
  let b := b.setArr a { ArrayUnit.none with parityAt := (b.arr a).parityAt, lentTo := (b.arr a).lentTo }
  let b := b.zero (regionBase .bay + a * baySize) (regionBase .bay + a * baySize + baySize)
  let r := storeClear b.regs (regKey (pageOf .array a) 0) (regKey (pageOf .array a) 0x1000)
  let r := storeClear r (regKey (pageOf .vec a) 0) (regKey (pageOf .vec a) 0x1000)
  let b := { b with regs := r }
  b.ifSo (b.retired a) fun b => (b.setArrayState a 3).setFld (pageOf .vec a) 0x040 0 2 3

/-- The loss of a switched domain's contents (R565). -/
def Block.loseDomain (b : Block) (d : Nat) : Block :=
  let pages (k : Kind) (lo n : Nat) (b : Block) : Block :=
    { b with regs := storeClear b.regs (regKey (pageOf k lo) 0) (regKey (pageOf k lo + n) 0) }
  if d < 16 then b.each (domainArrays d) Block.loseArray
  else if d = 16 then pages .nearmc 0 32 (b.zero 0 (regionSize .near))
  else if d = 17 then
    pages .pruner 0 32 (pages .deepmc 0 32 (b.zero (regionBase .deep) (regionBase .deep + regionSize .deep)))
  else pages .port (24 * (d - 18)) 24 b

/-- Switches a domain off (R565). -/
def Block.domainOff (b : Block) (d : Nat) : Block :=
  let page := pageOf .power 0
  ((b.loseDomain d).setFld page 0x04C d 1 0).setFld page 0x050 d 1 0

/-- Sets what a Cart engine holds; CART_STATE.STAGED follows it (R276). -/
def Block.setCartU (b : Block) (e : Nat) (u : CartUnit) : Block :=
  (b.setCart e u).setFld (pageOf .cart e) 0x040 2 1 (b2n (!u.staged.isEmpty || !u.inUse.isEmpty))

/-- Discards the staged blocks, in use or not, whose virtual addresses `keep` does not keep (R261). -/
def Block.keepStaged (b : Block) (e : Nat) (keep : Nat → Bool) : Block :=
  let u := b.cart e
  b.setCartU e { u with staged := u.staged.filter fun q => keep q.1, inUse := u.inUse.filter fun q => keep q.1 }

/-- Whether a leaf is being reset: commands for it answer 0x04 (R503). -/
def Block.resetting (b : Block) (p : Nat) : Bool := b.fld (pageOf .part p) 0x0C0 0 3 == 4

/-- Every leaf that exists. -/
def Block.allLeaves (b : Block) : List Nat := (List.range 64).filter fun p => (b.part p).present && (b.part p).leaf

/-- Whether the controller of an address accepts requests (R238). -/
def Block.tierServes (b : Block) (addr : Nat) : Bool :=
  match tierOf addr with
  | none => true
  | some t => b.mcState t (channelOf t addr) == 2 && (b.mc t (channelOf t addr)).draining.isNone

/-- Spoils with CONFLICT the open drafts that hold a copy of a near-tier page the Steward writes to, a device address (R187). -/
def Block.conflictDev (b : Block) (a n : Nat) : Block :=
  b.each b.allLeaves fun b p => b.each (List.range 16) fun b d =>
    b.ifSo ((b.draft p d).pages.any fun q =>
      match b.xlTier p .near (q.1 * 2 ^ 16) false with
      | .dev src => decide (src < a + n) && decide (a < src + 2 ^ 16)
      | _ => false) fun b => b.spoil p d .conflict

/-- Stops a leaf's channels at their next carriage boundary (R524). -/
def Block.stopLeaf (b : Block) (p : Nat) : Block :=
  b.each (b.grant p).channels fun b c => b.setChan c { b.chan c with quiesced := true }

/-- The controllers stop accepting requests and drain toward self-refresh (R238). -/
def Block.drainAll (b : Block) : Block :=
  b.each [Tier.near, Tier.deep] fun b t => b.each (List.range 32) fun b k =>
    if b.mcState t k = 2 || b.mcState t k = 4 then b.setMc t k { b.mc t k with draining := some ((b.mc t k).draining.getD b.now) } else b

/-- A page's progress (R606): PROG_POS, PROG_TOTAL and PROG_PCT change together. -/
def Block.setProgress (b : Block) (page pos total : Nat) : Block :=
  ((b.set64 page 0x020 pos).set64 page 0x028 total).setN page 0x030 (10000 * pos / total)

/-- DEV_STATE enters READY (R617). -/
def Block.devReady (b : Block) : Block := (b.setFld devPage 0x040 0 3 4).raise devPage 0

/-- A warm reset ends: DEV_STATE enters READY, if it had left it, and the commands that asked for the reset reply. -/
def Block.warmEnd (b : Block) : Block :=
  match b.warm with
  | none => b
  | some w =>
    let st := b.fld devPage 0x040 0 3
    let served := [Tier.near, Tier.deep].all fun t => (List.range 32).all fun k => b.mcState t k == 2 || b.mcState t k == 4
    let b := b.ifSo ((st == 1 || st == 5) && served) Block.devReady
    b.each w.rqs (fun b rq => b.reply rq 0x37 0x00 [0]) |> fun b => { b with warm := none }

end Sys2Proof.Machine
end

