-- ==== Sys2Proof/Machine/Operands.lean ====
section
/-!
DEFINITION. Carriages as bits: the header (R160), the body of each type (R99, R104, R130, R173, R177, R182, R190, R248,
R339, R369), the reserved bits of each type and the bounding ranges a carriage is checked by (R163, R251).
-/

namespace Sys2Proof.Machine

/-- A carriage: 128 bytes, byte 0 lowest (R9, R160). -/
abbrev Carriage := BitVec 1024

/-- Field [lo + len − 1 : lo] counted from byte `off` of a carriage. -/
def cf (w : Carriage) (off lo len : Nat) : Nat := fieldOf w.toNat (8 * off + lo) len

/-- One bit of a carriage. -/
def cb (w : Carriage) (off lo : Nat) : Bool := bitOf w.toNat (8 * off + lo)

/-! The header (R160). -/

def cType (w : Carriage) : Nat := cf w 0 0 8
def cDraft (w : Carriage) : Bool := cb w 0 8
def cSerial (w : Carriage) : Bool := cb w 0 9
def cPreEn (w : Carriage) : Bool := cb w 0 10
def cPostEn (w : Carriage) : Bool := cb w 0 11
def cTag (w : Carriage) : Nat := cf w 0 16 16
def cPreSem (w : Carriage) : Nat := cf w 4 0 14
def cPostSem (w : Carriage) : Nat := cf w 4 16 14
def cPreValue (w : Carriage) : Word := BitVec.ofNat 32 (cf w 8 0 32)
def cDraftId (w : Carriage) : Nat := cf w 12 0 4
def cPostAdd (w : Carriage) : Nat := cf w 12 8 8

/-- The draft a carriage belongs to. -/
def cDraftOf (w : Carriage) : Option Nat := if cDraft w then some (cDraftId w) else none

/-! Bodies. -/

/-- STREAM (R99). -/
structure StreamC where
  array : Nat
  slot : Nat
  aFmt : Nat
  oFmt : Nat
  conv : Nat
  mode : Nat
  osel : Nat
  rows : Nat
  oExp : Int
  entry : Nat
  aAddr : Nat
  aRing : Nat
  aStride : Nat
  aScale : Nat
  aSStride : Nat
  oAddr : Nat
  oRing : Nat
  oStride : Nat
  oScale : Nat
  oSStride : Nat
  tAddr : Nat
  tRing : Nat
  tStride : Nat
  tScale : Nat
  load : Bool
  lTrans : Bool
  lSrc : Nat
  lBaxis : Nat
  lFmt : Nat
  lAddr : Nat
  lStride : Nat
  lScale : Nat
  deriving DecidableEq, Repr

def streamOf (w : Carriage) : StreamC :=
  { array := cf w 0x10 0 7, slot := cf w 0x10 7 1, aFmt := cf w 0x10 8 4, oFmt := cf w 0x10 12 4,
    conv := cf w 0x10 16 4, mode := cf w 0x10 20 3, osel := cf w 0x10 23 2, rows := cf w 0x14 0 24 + 1,
    oExp := signedOf 8 (cf w 0x14 24 8), entry := cf w 0x18 0 8, aAddr := cf w 0x1C 0 21, aRing := cf w 0x1C 21 3,
    aStride := cf w 0x20 0 21, aScale := cf w 0x24 0 21, aSStride := cf w 0x28 0 21, oAddr := cf w 0x2C 0 21,
    oRing := cf w 0x2C 21 3, oStride := cf w 0x30 0 21, oScale := cf w 0x34 0 21, oSStride := cf w 0x38 0 21,
    tAddr := cf w 0x3C 0 21, tRing := cf w 0x3C 21 3, tStride := cf w 0x40 0 21, tScale := cf w 0x44 0 21,
    load := cb w 0x48 0, lTrans := cb w 0x48 1, lSrc := cf w 0x48 2 2, lBaxis := cf w 0x48 4 1,
    lFmt := cf w 0x48 8 4, lAddr := cf w 0x4C 0 21, lStride := cf w 0x50 0 21, lScale := cf w 0x54 0 21 }

/-- FOLD (R104). -/
structure FoldC where
  field : Nat
  trans : Bool
  baxis : Nat
  aFmt : Nat
  wFmt : Nat
  oFmt : Nat
  conv : Nat
  kTiles : Nat
  nBlocks : Nat
  split : Nat
  arrays : Nat
  rows : Nat
  oExp : Int
  wAddr : Nat
  wStride : Nat
  wScale : Nat
  wSStride : Nat
  xAddr : Nat
  xStride : Nat
  xScale : Nat
  xSStride : Nat
  yAddr : Nat
  yStride : Nat
  yScale : Nat
  ySStride : Nat
  scratch : Nat
  deriving DecidableEq, Repr

def foldOf (w : Carriage) : FoldC :=
  { field := cf w 0x10 0 2, trans := cb w 0x10 2, baxis := cf w 0x10 3 1, aFmt := cf w 0x10 4 4, wFmt := cf w 0x10 8 4,
    oFmt := cf w 0x10 12 4, conv := cf w 0x10 16 4, kTiles := cf w 0x10 20 4 + 1, nBlocks := cf w 0x10 24 4 + 1,
    split := cf w 0x10 28 3, arrays := cf w 0x14 0 32, rows := cf w 0x18 0 24 + 1,
    oExp := signedOf 8 (cf w 0x18 24 8), wAddr := cf w 0x20 0 25, wStride := cf w 0x24 0 25, wScale := cf w 0x28 0 25,
    wSStride := cf w 0x2C 0 25, xAddr := cf w 0x30 0 25, xStride := cf w 0x34 0 25, xScale := cf w 0x38 0 25,
    xSStride := cf w 0x3C 0 25, yAddr := cf w 0x40 0 25, yStride := cf w 0x44 0 25, yScale := cf w 0x48 0 25,
    ySStride := cf w 0x4C 0 25, scratch := cf w 0x50 0 25 }

/-- An address field of a VCHAIN (R130): the bay offset and the ring. -/
structure VAddr where
  off  : Nat
  ring : Nat
  deriving DecidableEq, Repr

/-- A stage word (R131). -/
structure StageC where
  op : Nat
  dst : Nat
  s1 : Nat
  s2 : Nat
  s3 : Nat
  pass : Nat
  i2 : Bool
  i3 : Bool
  alt : Bool
  rsv : Nat
  deriving DecidableEq, Repr

/-- VCHAIN (R130). -/
structure ChainC where
  engine : Nat
  pair : Bool
  aFmt : Nat
  dFmt : Nat
  conv : Nat
  bFmt : Nat
  passes : Nat
  bEn : Bool
  maskEn : Bool
  rowEn : Bool
  dEn : Bool
  rows : Nat
  len : Nat
  a : VAddr
  b : VAddr
  d : VAddr
  mask : VAddr
  rowOut : VAddr
  stride : Nat
  dStride : Nat
  aScale : Nat
  dScale : Nat
  stages : List StageC
  imm : List Word
  deriving DecidableEq, Repr

def vaddrOf (w : Carriage) (off : Nat) : VAddr := ⟨cf w off 0 21, cf w off 21 3⟩

def stageOf (w : Carriage) (i : Nat) : StageC :=
  let o := 0x40 + 4 * i
  { op := cf w o 0 6, dst := cf w o 6 5, s1 := cf w o 11 5, s2 := cf w o 16 5, s3 := cf w o 21 5, pass := cf w o 26 1,
    i2 := cb w o 27, i3 := cb w o 28, alt := cb w o 29, rsv := cf w o 30 2 }

def chainOf (w : Carriage) : ChainC :=
  { engine := cf w 0x10 0 7, pair := cb w 0x10 7, aFmt := cf w 0x10 8 4, dFmt := cf w 0x10 12 4, conv := cf w 0x10 16 4,
    bFmt := cf w 0x10 24 4, passes := cf w 0x10 23 1 + 1, bEn := cb w 0x10 28, maskEn := cb w 0x10 29,
    rowEn := cb w 0x10 30, dEn := cb w 0x10 31, rows := cf w 0x14 0 24 + 1, len := cf w 0x18 0 16 + 1,
    a := vaddrOf w 0x1C, b := vaddrOf w 0x20, d := vaddrOf w 0x28, mask := vaddrOf w 0x38, rowOut := vaddrOf w 0x3C,
    stride := cf w 0x24 0 21, dStride := cf w 0x2C 0 21, aScale := cf w 0x30 0 21, dScale := cf w 0x34 0 21,
    stages := (List.range (cf w 0x10 20 3 + 1)).map (stageOf w),
    imm := (List.range 8).map fun i => BitVec.ofNat 32 (cf w (0x60 + 4 * i) 0 32) }

/-- Beats of a row (R126). -/
def ChainC.nb (c : ChainC) : Nat := ceilDiv c.len (if c.pair then 512 else 256)

/-- CART (R248, R296). -/
structure CartC where
  engine : Nat
  mode : Nat
  dstKind : Nat
  codec : Nat
  blk2k : Bool
  array : Nat
  port : Nat
  red : Nat
  rowBytes : Nat
  rows : Nat
  planes : Nat
  src : Nat
  dst : Nat
  srcStride : Nat
  dstStride : Nat
  srcPStride : Nat
  dstPStride : Nat
  idx : Nat
  fill : Nat
  destMod : Nat
  winBase : Nat
  winLen : Nat
  srcRing : Nat
  dstRing : Nat
  thresh : Nat
  sym16 : Bool
  kind : Nat
  append : Bool
  pass : Bool
  deriving DecidableEq, Repr

def cartOf (w : Carriage) : CartC :=
  { engine := cf w 0x10 0 6, mode := cf w 0x10 6 2, dstKind := cf w 0x10 8 2, codec := cf w 0x10 10 2,
    blk2k := cb w 0x10 12, array := cf w 0x10 14 7, port := cf w 0x10 21 6, red := cf w 0x10 27 3,
    rowBytes := cf w 0x14 0 24 + 1, rows := cf w 0x18 0 24 + 1, planes := cf w 0x1C 0 16 + 1, src := cf w 0x20 0 48,
    dst := cf w 0x28 0 48, srcStride := cf w 0x30 0 32, dstStride := cf w 0x34 0 32, srcPStride := cf w 0x38 0 32,
    dstPStride := cf w 0x3C 0 32, idx := cf w 0x40 0 48, fill := cf w 0x48 0 32, destMod := cf w 0x4C 0 24,
    winBase := cf w 0x50 0 48, winLen := cf w 0x58 0 32, srcRing := cf w 0x5C 0 3, dstRing := cf w 0x5C 3 3,
    thresh := cf w 0x5C 8 2, sym16 := cb w 0x5C 10, kind := cf w 0x5C 11 3, append := cb w 0x5C 14,
    pass := cb w 0x5C 15 }

/-- The codec's block size (R248, R280). -/
def CartC.block (c : CartC) : Nat := if c.blk2k then 2048 else 4096

/-- PRUNE (R339). -/
structure PruneC where
  op : Nat
  first : Bool
  ssq : Bool
  srcEn : Bool
  normClip : Bool
  shadowEn : Bool
  wcEn : Bool
  deepWc : Bool
  srcFmt : Nat
  noUpdate : Bool
  step : Nat
  g0 : Nat
  nblk : Nat
  srcStride : Nat
  rule : Nat
  master : Nat
  mom1 : Nat
  mom2 : Nat
  accum : Nat
  stamp : Nat
  wc : Nat
  wcScale : Nat
  src : Nat
  shadow : Nat
  deferSem : Nat
  deferEn : Bool
  deriving DecidableEq, Repr

def pruneOf (w : Carriage) : PruneC :=
  { op := cf w 0x10 0 3, first := cb w 0x10 3, ssq := cb w 0x10 4, srcEn := cb w 0x10 5, normClip := cb w 0x10 6,
    shadowEn := cb w 0x10 7, wcEn := cb w 0x10 8, deepWc := cb w 0x10 9, srcFmt := cf w 0x10 10 4,
    noUpdate := cb w 0x10 14, step := cf w 0x14 0 32, g0 := cf w 0x18 0 36, nblk := cf w 0x20 0 24 + 1,
    srcStride := cf w 0x24 0 32, rule := cf w 0x28 0 48, master := cf w 0x30 0 48, mom1 := cf w 0x38 0 48,
    mom2 := cf w 0x40 0 48, accum := cf w 0x48 0 48, stamp := cf w 0x50 0 48, wc := cf w 0x58 0 48,
    wcScale := cf w 0x60 0 48, src := cf w 0x68 0 48, shadow := cf w 0x70 0 48, deferSem := cf w 0x78 0 14,
    deferEn := cb w 0x78 14 }

/-- The rule record (R345). -/
structure RuleRec where
  rule : Nat
  wcFmt : Nat
  conv : Nat
  nesterov : Bool
  rsv : Bool
  gExp : Int
  coef : List Word
  deriving DecidableEq, Repr

/-- A rule record from its 64 bytes; `coef` holds LR, WD, BETA1, BETA2, G1, G2, EPS, BC1, BC2, CLIP. -/
def ruleOf (bs : List Byte) : RuleRec :=
  let v := ofBytes bs
  { rule := fieldOf v 0 4, wcFmt := fieldOf v 4 4, conv := fieldOf v 8 4, nesterov := bitOf v 12,
    rsv := fieldOf v 13 3 != 0 || fieldOf v 24 8 != 0 || fieldOf v 352 160 != 0,
    gExp := signedOf 8 (fieldOf v 16 8), coef := (List.range 10).map fun i => BitVec.ofNat 32 (fieldOf v (32 + 32 * i) 32) }

/-- A coefficient of a rule record by its place in `coef`. -/
def RuleRec.c (r : RuleRec) (i : Nat) : Word := r.coef.getD i 0

/-! Reserved bits (R160, R163 and the layouts of the bodies). -/

/-- Fields (byte, low bit, bits) of the header. -/
def headerFields : List (Nat × Nat × Nat) :=
  [(0, 0, 12), (0, 16, 16), (4, 0, 14), (4, 16, 14), (8, 0, 32), (12, 0, 4), (12, 8, 8)]

/-- `n` fields of the same bits, `step` bytes apart. -/
def many (off step n lo len : Nat) : List (Nat × Nat × Nat) := (List.range n).map fun i => (off + step * i, lo, len)

/-- Fields (byte, low bit, bits) of the body of each type. -/
def bodyFields (type : Nat) : List (Nat × Nat × Nat) :=
  match type with
  | 0x01 => [(0x10, 0, 25), (0x14, 0, 32), (0x18, 0, 8), (0x1C, 0, 24), (0x20, 0, 21), (0x24, 0, 21), (0x28, 0, 21),
      (0x2C, 0, 24), (0x30, 0, 21), (0x34, 0, 21), (0x38, 0, 21), (0x3C, 0, 24), (0x40, 0, 21), (0x44, 0, 21),
      (0x48, 0, 5), (0x48, 8, 4), (0x4C, 0, 21), (0x50, 0, 21), (0x54, 0, 21)]
  | 0x02 => [(0x10, 0, 31), (0x14, 0, 32), (0x18, 0, 32)] ++ many 0x20 4 13 0 25
  | 0x03 => [(0x10, 0, 32), (0x14, 0, 24), (0x18, 0, 16), (0x1C, 0, 24), (0x20, 0, 24), (0x24, 0, 21), (0x28, 0, 24),
      (0x2C, 0, 21), (0x30, 0, 21), (0x34, 0, 21), (0x38, 0, 24), (0x3C, 0, 24)] ++ many 0x40 4 16 0 32
  | 0x04 => [(0x10, 0, 13), (0x10, 14, 16), (0x14, 0, 24), (0x18, 0, 24), (0x1C, 0, 16), (0x20, 0, 48), (0x28, 0, 48),
      (0x30, 0, 32), (0x34, 0, 32), (0x38, 0, 32), (0x3C, 0, 32), (0x40, 0, 48), (0x48, 0, 32), (0x4C, 0, 24),
      (0x50, 0, 48), (0x58, 0, 32), (0x5C, 0, 6), (0x5C, 8, 8)]
  | 0x05 => [(0x10, 0, 15), (0x14, 0, 32), (0x18, 0, 36), (0x20, 0, 24), (0x24, 0, 32)] ++ many 0x28 8 10 0 48 ++
      [(0x78, 0, 15)]
  | 0x06 => [(0x10, 0, 3), (0x10, 8, 8), (0x18, 0, 48)]
  | 0x07 => [(0x10, 0, 3), (0x10, 8, 7), (0x10, 16, 2)]
  | 0x08 => [(0x10, 0, 4), (0x10, 8, 7), (0x10, 16, 2), (0x14, 0, 14), (0x18, 0, 32), (0x1C, 0, 11)]
  | 0x09 => [(0x10, 0, 14), (0x14, 0, 32)]
  | 0x0A => [(0x10, 0, 19), (0x14, 0, 14), (0x14, 16, 7), (0x18, 0, 48), (0x20, 0, 32), (0x28, 0, 48), (0x30, 0, 32)]
  | 0x0B => [(0x10, 0, 1), (0x18, 0, 48), (0x20, 0, 15), (0x20, 16, 15), (0x28, 0, 48)]
  | 0x0C => [(0x20, 0, 14), (0x20, 16, 15), (0x28, 0, 48)]
  | _ => []

/-- The bits of a carriage's type that hold a field. -/
def usedBits (type : Nat) : Nat :=
  ((headerFields ++ bodyFields type).map fun q => (2 ^ q.2.2 - 1) * 2 ^ (8 * q.1 + q.2.1)).sum

/-- Whether every reserved bit of a carriage is 0. -/
def rsvZero (w : Carriage) : Bool := (w &&& ~~~ (BitVec.ofNat 1024 (usedBits (cType w)))) == 0

/-! Bounding ranges (R163, R251). -/

/-- A bounding range of partition-virtual bytes [lo, hi), read or written. -/
structure Side where
  lo : Nat
  hi : Nat
  wr : Bool
  deriving DecidableEq, Repr

/-- `n` items of `len` bytes, `stride` bytes apart, from `a` on. -/
def spanOf (a n stride len : Nat) (wr : Bool) : Side := ⟨a, a + (n - 1) * stride + len, wr⟩

/-- The first partition-virtual address of bay `n` and of the yard of view field `f`. -/
def bayVa (n : Nat) : Nat := regionBase .bay + n * baySize
def yardVa (f : Nat) : Nat := regionBase .yard + f * yardSize

/-- The bytes of `n` elements of a format in memory (R49). -/
def elemBytes (fmt n : Nat) : Nat := ceilDiv (n * elemBits fmt) 8

/-- The reduction elements of a tile and of an activation row of a format (R80). -/
def tileK (fmt : Nat) : Nat :=
  match widthClass fmt with
  | some 4 => 256
  | some 16 => 64
  | _ => 128

/-- The registers of ring `k` of an array: BASE, SIZE, SDIV, EN and the scale base (R268). -/
structure RingCfg where
  base  : Nat
  size  : Nat
  sdiv  : Nat
  en    : Bool
  sbase : Nat
  deriving DecidableEq, Repr

/-- The data bytes one scale byte of a ring serves (R267). -/
def RingCfg.div (r : RingCfg) : Nat := if r.sdiv = 2 then 16 else 32

/-- The offset of a register of ring `k`. -/
def ringOff (k w : Nat) : Nat := 0x100 + 0x10 * (k - 1) + w

def Block.ring (b : Block) (a k : Nat) : RingCfg :=
  let v := b.regN (pageOf .array a) (ringOff k 0)
  { base := fieldOf v 0 9 * 4096, size := (fieldOf v 9 9 + 1) * 4096, sdiv := fieldOf v 18 2, en := bitOf v 20,
    sbase := b.regN (pageOf .array a) (ringOff k 4) }

/-- Whether a ring's rows carry their scales (R267). -/
def RingCfg.scaled (r : RingCfg) : Bool := r.sdiv == 1 || r.sdiv == 2

/-- The number of the array whose ring registers array number `i` of a view names, if any. -/
def Block.ringOfView (b : Block) (p i k : Nat) : Option RingCfg := (b.arrayUnit p i).map fun a => b.ring a k

/-- The bounding range of one side in a bay: the addressed span, or the ring's area. -/
def Block.baySide (b : Block) (p i ring : Nat) (s : Side) : Side :=
  if ring = 0 then ⟨bayVa i + s.lo, bayVa i + s.hi, s.wr⟩
  else match b.ringOfView p i ring with
    | some r => ⟨bayVa i + r.base, bayVa i + r.base + r.size, s.wr⟩
    | none => ⟨bayVa i, bayVa i, s.wr⟩

/-- The scale bytes of a side in a bay: where its scale address puts them, or the scale area of a ring that has one (R267). -/
def Block.scaleSides (b : Block) (p i ring fmt : Nat) (s : Side) : List Side :=
  if !isMx fmt then []
  else match (if ring = 0 then none else b.ringOfView p i ring) with
    | some r => if r.sdiv = 0 then [b.baySide p i 0 s] else [⟨bayVa i + r.sbase, bayVa i + r.sbase + r.size / r.div, s.wr⟩]
    | none => [b.baySide p i 0 s]

/-- The rows of a tile's source region and its columns (R80, R97). -/
def tileShape (fmt : Nat) (trans : Bool) : Nat × Nat := if trans then (128, tileK fmt) else (tileK fmt, 128)

/-- Whether a STREAM writes ordinary rows, and whether it writes the transposed block (R87, R99). -/
def StreamC.writesRows (c : StreamC) : Bool := c.mode == 0 || (c.mode == 3 && c.osel != 1)
def StreamC.writesTrans (c : StreamC) : Bool := c.mode == 3 && (c.osel == 1 || c.osel == 2)

/-- The bounding ranges of a STREAM. -/
def Block.streamSides (b : Block) (p : Nat) (c : StreamC) : List Side :=
  let i := c.array
  let rows := if c.writesRows then
      b.baySide p i c.oRing (spanOf c.oAddr c.rows c.oStride (elemBytes c.oFmt 128) true) ::
        b.scaleSides p i c.oRing c.oFmt (spanOf c.oScale c.rows c.oSStride 4 true)
    else []
  let trans := if c.writesTrans then
      b.baySide p i c.tRing (spanOf c.tAddr 128 c.tStride (elemBytes c.oFmt c.rows) true) ::
        b.scaleSides p i c.tRing c.oFmt (spanOf c.tScale 128 (c.rows / 32) (c.rows / 32) true)
    else []
  let acts := b.baySide p i c.aRing (spanOf c.aAddr c.rows c.aStride 128 false) ::
    b.scaleSides p i c.aRing c.aFmt (spanOf c.aScale c.rows c.aSStride (tileK c.aFmt / 32) false)
  let shape := tileShape c.lFmt c.lTrans
  let load := if c.load then
      (if c.lSrc = 0 then [b.baySide p i 0 (spanOf c.lAddr shape.1 c.lStride (elemBytes c.lFmt shape.2) false)]
       else if c.lSrc = 1 then [b.baySide p i 0 ⟨c.lAddr, c.lAddr + 32, false⟩] else []) ++
      (if isMx c.lFmt then [b.baySide p i 0 ⟨c.lScale, c.lScale + tileK c.lFmt * 4, false⟩] else [])
    else []
  acts ++ rows ++ trans ++ load

/-- The split s of a FOLD (R105). DESIGN CHOICE (log 189): where none of 2, 4 and 8 gives every array a part (one block and more than 8
arrays), s is 8, as far as the depth allows. -/
def FoldC.parts (c : FoldC) (a : Nat) : Nat :=
  if c.split = 0 then
    if a ≤ c.nBlocks then 1
    else
      let lim := if 8 ≤ c.kTiles then 8 else if 4 ≤ c.kTiles then 4 else if 2 ≤ c.kTiles then 2 else 1
      min lim (if a ≤ c.nBlocks * 2 then 2 else if a ≤ c.nBlocks * 4 then 4 else 8)
  else 2 ^ (c.split - 1)

/-- The set bits of a FOLD's mask, ascending. -/
def FoldC.members (c : FoldC) : List Nat := unitsIn c.arrays 0 32

/-- The bounding ranges of a FOLD in the yard of its field. -/
def foldSides (c : FoldC) : List Side :=
  let y (s : Side) : Side := ⟨yardVa c.field + s.lo, yardVa c.field + s.hi, s.wr⟩
  let k := c.kTiles * tileK c.wFmt
  let n := c.nBlocks * 128
  let (wr, wc) := if c.trans then (n, k) else (k, n)
  let ws := if c.baxis = 0 then (wr / 32, wc) else (wr, wc / 32)
  [y (spanOf c.wAddr wr c.wStride (elemBytes c.wFmt wc) false), y (spanOf c.xAddr c.rows c.xStride (128 * c.kTiles) false),
   y (spanOf c.yAddr c.rows c.yStride (elemBytes c.oFmt n) true)] ++
    (if isMx c.wFmt then [y (spanOf c.wScale ws.1 c.wSStride ws.2 false)] else []) ++
    (if isMx c.aFmt then [y (spanOf c.xScale c.rows c.xSStride (c.kTiles * tileK c.aFmt / 32) false)] else []) ++
    (if isMx c.oFmt then [y (spanOf c.yScale c.rows c.ySStride (n / 32) true)] else []) ++
    (if 1 < c.parts c.members.length then
      [y ⟨c.scratch, c.scratch + c.nBlocks * c.parts c.members.length * 131072, true⟩] else [])

/-- The bounding ranges of a VCHAIN. -/
def Block.chainSides (b : Block) (p : Nat) (c : ChainC) : List Side :=
  let i := c.engine
  let row (fmt stride : Nat) (v : VAddr) (wr : Bool) : Side :=
    b.baySide p i v.ring (spanOf v.off c.rows (elemBytes fmt stride) (elemBytes fmt c.len) wr)
  [row c.aFmt c.stride c.a false] ++
    b.scaleSides p i c.a.ring c.aFmt (spanOf c.aScale c.rows (c.len / 32) (c.len / 32) false) ++
    (if c.bEn then [row c.bFmt c.stride c.b false] else []) ++
    (if c.maskEn then [b.baySide p i c.mask.ring (spanOf c.mask.off c.rows (32 * c.nb) (32 * c.nb) false)] else []) ++
    (if c.dEn then [row c.dFmt c.dStride c.d true] else []) ++
    (if c.dEn then b.scaleSides p i c.d.ring c.dFmt (spanOf c.dScale c.rows (c.len / 32) (c.len / 32) true) else []) ++
    (if c.rowEn then [b.baySide p i c.rowOut.ring (spanOf c.rowOut.off c.rows 8 8 true)] else [])

/-- The array number a bay address names where it is the base of a bay (R252). -/
def bayNumber (va : Nat) : Option Nat :=
  if regionOf va = some .bay ∧ (va - regionBase .bay) % baySize = 0 then some ((va - regionBase .bay) / baySize) else none

/-- The area of the ring that a CART side names. -/
def Block.cartRing (b : Block) (p va k : Nat) : Option RingCfg :=
  match bayNumber va with
  | some i => b.ringOfView p i k
  | none => none

/-- Whether a CART moves ring scales: both sides are rings of one SDIV other than 0 (R267). -/
def Block.cartMovesScales (b : Block) (p : Nat) (c : CartC) : Bool :=
  match b.cartRing p c.src c.srcRing, b.cartRing p c.dst c.dstRing with
  | some s, some d => c.srcRing != 0 && c.dstRing != 0 && s.sdiv != 0 && s.sdiv == d.sdiv
  | _, _ => false

/-- A CART side on a ring: the span of its area, and of its scale area where the scales move too (R251, R267). -/
def Block.cartRingSide (b : Block) (p va k : Nat) (scales wr : Bool) : Side :=
  match b.cartRing p va k with
  | some r =>
    let top := if scales then r.sbase + r.size / r.div else r.base + r.size
    ⟨va + (if scales then min r.base r.sbase else r.base), va + max (r.base + r.size) top, wr⟩
  | none => ⟨va, va, wr⟩

/-- The bounding range of a CART's rows and planes on one side. -/
def CartC.planeSide (c : CartC) (a stride pstride : Nat) (wr : Bool) : Side :=
  ⟨a, a + (c.planes - 1) * pstride + (c.rows - 1) * stride + c.rowBytes, wr⟩

/-- The bounding range of a CART's source. -/
def Block.cartSrcSide (b : Block) (p : Nat) (c : CartC) : Side :=
  if c.srcRing ≠ 0 then b.cartRingSide p c.src c.srcRing (b.cartMovesScales p c) false
  else if c.mode = 1 then ⟨c.winBase, c.winBase + c.winLen, false⟩
  else c.planeSide c.src c.srcStride c.srcPStride false

/-- The bounding ranges of a CART (R251, R257, R298). -/
def Block.cartSides (b : Block) (p : Nat) (c : CartC) : List Side :=
  let window (wr : Bool) : Side := ⟨c.winBase, c.winBase + c.winLen, wr⟩
  let blocks := c.rowBytes / c.block
  let src := if c.mode = 3 then [] else [b.cartSrcSide p c]
  let dst :=
    if c.dstKind ≠ 0 then []
    else if c.dstRing ≠ 0 then [b.cartRingSide p c.dst c.dstRing (b.cartMovesScales p c) true]
    else if c.mode = 2 then [window true]
    else if c.mode = 1 then [spanOf c.dst c.rows c.dstStride c.rowBytes true]
    else [c.planeSide c.dst c.dstStride c.dstPStride true]
  let idx :=
    if c.mode = 1 || c.mode = 2 then [⟨c.idx, c.idx + 4 * c.rows, false⟩]
    else if c.codec = 1 || c.pass then [⟨c.idx, c.idx + 8 * blocks, false⟩]
    else if c.codec = 2 then [⟨c.idx, c.idx + 8 * blocks, true⟩]
    else []
  src ++ dst ++ idx

/-- The address of the piece of block `g` in a striped array (R337). -/
def pieceAddr (base p g : Nat) : Nat :=
  let n := 4096 / p
  base + g / (32 * n) * 131072 + g % 32 * 4096 + g / 32 % n * p

/-- The 128 KiB stripes that hold blocks [g0, g0 + n) of a striped array. -/
def stripeSide (base p g0 n : Nat) (wr : Bool) : Side :=
  let k := 32 * (4096 / p)
  ⟨base + g0 / k * 131072, base + ((g0 + n - 1) / k + 1) * 131072, wr⟩

/-- The moments a rule uses (R337). -/
def RuleRec.moments (r : RuleRec) : Nat :=
  if r.rule = 2 then 2 else if r.rule = 1 ∨ r.rule = 3 ∨ r.rule = 4 then 1 else 0

/-- The bounding ranges of a PRUNE with its rule record (R337, R338). -/
def pruneSides (c : PruneC) (r : RuleRec) (draft : Bool) : List Side :=
  let wr := !draft
  let n := c.nblk
  if c.op = 0 then
    [stripeSide c.accum 4096 c.g0 n c.srcEn] ++
      (if c.srcEn then [spanOf c.src n c.srcStride (if c.srcFmt = 0 then 4096 else 2048) false] else [])
  else if c.op = 1 then
    let copy := c.wcEn && r.rule != 4 && !(draft && c.deepWc)
    [⟨c.rule, c.rule + 64, false⟩, stripeSide c.master (if r.rule = 4 then 2048 else 4096) c.g0 n (wr && r.rule != 0)] ++
      (if r.rule = 0 then [] else [stripeSide c.stamp 4 c.g0 n wr]) ++
      (if 1 ≤ r.moments then [stripeSide c.mom1 2048 c.g0 n wr] else []) ++
      (if r.moments = 2 then [stripeSide c.mom2 2048 c.g0 n wr] else []) ++
      (if r.rule = 4 then [spanOf c.src n c.srcStride 4096 false]
       else if r.rule = 0 then [] else [stripeSide c.accum 4096 c.g0 n false]) ++
      (if copy then [⟨c.wc, c.wc + n * elemBytes r.wcFmt 1024, true⟩] else []) ++
      (if copy && isMx r.wcFmt then [⟨c.wcScale, c.wcScale + n * 32, true⟩] else []) ++
      (if c.shadowEn && !draft && r.rule != 4 then [⟨c.shadow, c.shadow + n * 1056, true⟩] else [])
  else []

/-- Whether [lo, hi) lies inside a leaf's grant (R163, R270, R273). The host window is left to its translation (R510). -/
def Block.inGrant (b : Block) (p lo hi : Nat) : Bool :=
  let g := b.grant p
  lo == hi ||
    match regionOf lo with
    | some .near => decide (hi ≤ g.nearBytes)
    | some .deep => decide (hi - regionBase .deep ≤ g.deepBytes)
    | some .host => decide (hi ≤ regionBase .host + regionSize .host)
    | some .bay =>
      let n := (lo - regionBase .bay) / baySize
      decide (hi ≤ bayVa n + baySize) &&
        match b.arrayAt p n with
        | some (.unit a) => bitOf g.arrays.toNat a && decide (hi - bayVa n ≤ g.bayBytes)
        | some (.fill _) => decide (hi - bayVa n ≤ fieldOf (b.part p).record.toNat (8 * 0x34) 22)
        | none => false
    | some .yard =>
      let n := (lo - regionBase .yard) / yardSize
      decide (hi ≤ yardVa n + yardSize) &&
        match (b.part p).hold.fields[n]? with
        | some f => decide (hi - yardVa n ≤ g.yardBytes.getD f 0)
        | none => false
    | none => false

/-- 64 bytes of a leaf's memory, or zeros where they do not translate. -/
def Block.peekV (b : Block) (p va n : Nat) : List Byte :=
  match (b.readV ⟨p, none⟩ va n).2 with
  | .ok bs => raw bs
  | .fault _ => List.replicate n 0

/-- The bounding ranges of a carriage of leaf `p`. -/
def Block.sides (b : Block) (p : Nat) (w : Carriage) : List Side :=
  match cType w with
  | 0x01 => b.streamSides p (streamOf w)
  | 0x02 => foldSides (foldOf w)
  | 0x03 => b.chainSides p (chainOf w)
  | 0x04 => b.cartSides p (cartOf w)
  | 0x05 => pruneSides (pruneOf w) (ruleOf (b.peekV p (pruneOf w).rule 64)) (cDraft w)
  | 0x06 => if cf w 0x10 0 3 ≤ 2 then [⟨cf w 0x18 0 48, cf w 0x18 0 48 + 256, false⟩] else []
  | 0x0A =>
    (if cf w 0x20 0 32 = 0 then [] else [⟨cf w 0x18 0 48, cf w 0x18 0 48 + cf w 0x20 0 32, true⟩]) ++
    (if cf w 0x30 0 32 = 0 then [] else [⟨cf w 0x28 0 48, cf w 0x28 0 48 + cf w 0x30 0 32, true⟩])
  | 0x0B =>
    (if cb w 0x10 0 then [⟨cf w 0x18 0 48, cf w 0x18 0 48 + 4, false⟩] else []) ++
    (if cf w 0x28 0 48 = 0 then [] else [⟨cf w 0x28 0 48, cf w 0x28 0 48 + 8, true⟩])
  | 0x0C => if cf w 0x28 0 48 = 0 then [] else [⟨cf w 0x28 0 48, cf w 0x28 0 48 + 8, true⟩]
  | _ => []

end Sys2Proof.Machine
end

