-- ==== Sys2Proof/Machine/Checks.lean ====
section
/-!
DEFINITION. The checks a carriage meets at the read pointer and again at dispatch, in the order of their codes (R163),
with the rules of each type (R88, R100, R107, R140, R147, R153, R174, R184, R252, R296, R340, R369).
-/

namespace Sys2Proof.Machine

/-- The reserved encodings of a type's fields (code 0x01), beside the reserved bits. -/
def reservedEnc (w : Carriage) : Bool :=
  let h := cPostEn w && cPostAdd w == 0
  h || match cType w with
    | 0x00 => false
    | 0x01 =>
      let c := streamOf w
      4 ≤ c.conv || 4 ≤ c.mode || c.osel == 3 || c.lSrc == 3
    | 0x02 =>
      let c := foldOf w
      4 ≤ c.conv || 5 ≤ c.split || c.members.length == 0 || 16 < c.members.length
    | 0x03 =>
      let c := chainOf w
      let opOk (o : Nat) : Bool := o ≤ 0x0E || (0x10 ≤ o && o ≤ 0x16) || (0x18 ≤ o && o ≤ 0x1B) ||
        (0x20 ≤ o && o ≤ 0x2B) || (0x30 ≤ o && o ≤ 0x35) || o == 0x38 || o == 0x39
      let altOk (o : Nat) : Bool := [0x19, 0x30, 0x34, 0x35, 0x38, 0x39].contains o
      4 ≤ c.conv || ((List.range 8).map (stageOf w)).any fun t => t.rsv != 0 || !opOk t.op || (t.alt && !altOk t.op)
    | 0x04 =>
      let c := cartOf w
      c.dstKind == 3 || c.codec == 3 || 4 ≤ c.red || 5 ≤ c.kind
    | 0x05 => 4 ≤ (pruneOf w).op
    | 0x06 => 5 ≤ cf w 0x10 0 3
    | 0x07 => 5 ≤ cf w 0x10 0 3
    | 0x08 => 5 ≤ cf w 0x10 0 3 || cf w 0x18 0 32 == 0 || 2 ^ 31 < cf w 0x18 0 32
    | 0x09 => false
    | 0x0A => cf w 0x10 0 19 == 0 || 262144 < cf w 0x10 0 19 || 64 < cf w 0x14 16 7
    | 0x0B => false
    | 0x0C => false
    | _ => true

/-- Whether array number `i` of leaf `p` is there and not retired (code 0x02). -/
def Block.arrayUsable (b : Block) (p i : Nat) : Bool :=
  match b.arrayAt p i with
  | some (.unit a) => bitOf (b.grant p).arrays.toNat a && !b.retired a
  | some (.fill _) => true
  | none => false

/-- Whether the engines a carriage names are there (code 0x02). -/
def Block.engineMissing (b : Block) (p : Nat) (w : Carriage) : Bool :=
  match cType w with
  | 0x01 => !b.arrayUsable p (streamOf w).array
  | 0x02 => (foldOf w).members.any fun i => !b.arrayUsable p (32 * (foldOf w).field + i)
  | 0x03 => !b.arrayUsable p (chainOf w).engine
  | 0x04 =>
    let c := cartOf w
    (b.cartAt p c.engine).isNone || (c.dstKind == 1 && !b.arrayUsable p c.array) ||
      (c.dstKind == 2 &&
        match b.portAt p c.port with
        | some n => !bitOf (b.grant p).ports.toNat n
        | none => true)
  | _ => false

/-- The sequencer bound to a channel of leaf `p` (R103). -/
def Block.seqOf (b : Block) (p c : Nat) : Option Nat := ((b.grant p).folds.find? fun q => q.2 == c).map Prod.fst

/-- Whether a carriage on channel `c` lacks an entitlement (code 0x03). -/
def Block.unentitled (b : Block) (p c : Nat) (w : Carriage) : Bool :=
  let e := (b.grant p).entitle.toNat
  match cType w with
  | 0x02 => (b.seqOf p c).isNone
  | 0x04 => !bitOf e 3 && (b.sides p w).any fun s => s.wr && regionOf s.lo == some .host
  | 0x05 => !bitOf e 2 ||
      ((pruneOf w).op == 1 && (ruleOf (b.peekV p (pruneOf w).rule 64)).rule == 4 && !bitOf e 1)
  | 0x06 => !bitOf e 1
  | _ => false

/-- Whether a pairing of formats accumulates in integer mode (R81). -/
def intPair (aFmt wFmt : Nat) : Bool := aFmt == wFmt && (aFmt == 0xB || aFmt == 0xC)

/-- What an array will hold: the format of each slot that will hold a tile, and whether each entry half will be in integer mode. -/
structure ArrayAfter where
  slot0 : Option Nat
  slot1 : Option Nat
  half0 : Bool
  half1 : Bool
  deriving DecidableEq, Repr

def ArrayAfter.slot (x : ArrayAfter) (s : Nat) : Option Nat := if s = 0 then x.slot0 else x.slot1
def ArrayAfter.half (x : ArrayAfter) (h : Nat) : Bool := if h = 0 then x.half0 else x.half1

/-- Whether a carriage that opens entries touches half `h`. -/
def StreamC.opens (c : StreamC) (h : Nat) : Bool := c.mode == 1 && c.entry / 128 ≤ h && h ≤ (c.entry + c.rows - 1) / 128

/-- What a STREAM of an array leaves of what it finds: its FIRST opens halves in the mode of the slot as it finds it, its load fills the
other slot (R88, R94). -/
def ArrayAfter.stream (x : ArrayAfter) (f : Flight) : ArrayAfter :=
  let c := streamOf f.word
  let open_ (h : Nat) (old : Bool) : Bool :=
    match x.slot c.slot with
    | some w => if !f.rows && c.opens h then intPair c.aFmt w else old
    | none => old
  let x := { x with half0 := open_ 0 x.half0, half1 := open_ 1 x.half1 }
  if !c.load || f.loads then x
  else if c.slot = 0 then { x with slot1 := some c.lFmt } else { x with slot0 := some c.lFmt }

/-- What the loads and FIRSTs issued to array `a` and not yet carried out will leave, in the order they were issued (R88, R100). -/
def Block.arrayAfter (b : Block) (a : Nat) : ArrayAfter :=
  let st := b.regN (pageOf .array a) 0x044
  let now (s : Nat) : Option Nat := if bitOf st (4 + s) then some (fieldOf st (8 + 4 * s) 4) else none
  (b.flights.filter fun f => f.engine == a && cType f.word == 0x01 && !(f.rows && f.loads) && !f.faulted && !f.empty).foldl
    ArrayAfter.stream ⟨now 0, now 1, bitOf st 16, bitOf st 17⟩

def Block.slotAfter (b : Block) (a s : Nat) : Option Nat := (b.arrayAfter a).slot s
def Block.halfAfter (b : Block) (a h : Nat) : Bool := (b.arrayAfter a).half h

/-- Whether rings named on the sides of one direction are enabled and differ (R267, R269). -/
def ringsOk (rs : List Nat) (en : Nat → Bool) : Bool :=
  let named := rs.filter (· ≠ 0)
  named.all en && named.Nodup

/-- Whether ring `k` of array number `i` is enabled. -/
def Block.ringOn (b : Block) (p i k : Nat) : Bool :=
  match b.ringOfView p i k with
  | some r => r.en
  | none => true

/-- The rules of a STREAM (R81, R88, R99, R100): true where one is broken. -/
def Block.streamBreaks (b : Block) (p : Nat) (c : StreamC) : Bool :=
  let align := c.aAddr % 128 != 0 || c.aStride % 128 != 0 || (isMx c.aFmt && c.aScale % 4 != 0) || c.oAddr % 64 != 0 ||
    c.oStride % 64 != 0 || c.oScale % 4 != 0 || c.tAddr % 64 != 0
  let slot := match b.arrayUnit p c.array with
    | none => none
    | some a => b.slotAfter a c.slot
  let pairing := match b.arrayUnit p c.array, slot with
    | none, _ => false
    | some _, none => true
    | some _, some f => (isIntFmt c.aFmt != isIntFmt f) || widthClass c.aFmt == none || widthClass c.aFmt != widthClass f
  let halves := c.mode != 0 && (256 < c.entry + c.rows ||
    (c.mode != 1 &&
      match b.arrayUnit p c.array, slot with
      | some a, some f => [0, 1].any fun h =>
          c.entry / 128 ≤ h && h ≤ (c.entry + c.rows - 1) / 128 && b.halfAfter a h != intPair c.aFmt f
      | _, _ => false))
  align || pairing || halves || (c.osel != 0 && c.mode != 3) || (c.writesTrans && isMx c.oFmt && c.rows % 32 != 0) ||
    0xE ≤ c.oFmt || (c.load && (widthClass c.lFmt == none || (c.lSrc == 1 && c.lStride % 32 != 0))) ||
    !ringsOk [c.aRing] (b.ringOn p c.array) ||
    !ringsOk ((if c.writesRows then [c.oRing] else []) ++ (if c.writesTrans then [c.tRing] else [])) (b.ringOn p c.array)

/-- The rules of a FOLD (R81, R103, R104, R107, R488): true where one is broken. -/
def Block.foldBreaks (b : Block) (p ch : Nat) (c : FoldC) : Bool :=
  let field := match b.seqOf p ch with
    | some q => (b.part p).hold.fields[c.field]? != some (q / 2)
    | none => false
  let fill := c.members.any fun i =>
    match b.arrayAt p (32 * c.field + i) with
    | some (.unit a) => (b.arr a).compat
    | some (.fill _) => true
    | none => false
  field || fill || widthClass c.aFmt == none || widthClass c.aFmt != widthClass c.wFmt ||
    isIntFmt c.aFmt != isIntFmt c.wFmt || 0xE ≤ c.oFmt || (c.split != 0 && c.kTiles < 2 ^ (c.split - 1))

/-- The operations that pair mode has (R135). -/
def pairOp (o : Nat) : Bool := o ≤ 0x0E || (0x20 ≤ o && o ≤ 0x2B)

/-- The rules of a VCHAIN (R138, R140, R144, R145, R147, R153): true where one is broken. -/
def Block.chainBreaks (b : Block) (p : Nat) (c : ChainC) : Bool :=
  let stats := c.stages.filter fun t => t.op == 0x38
  let norms := c.stages.filter fun t => t.op == 0x39
  let softmax := !(stats.isEmpty && norms.isEmpty) &&
    !(c.passes == 2 && stats.length == 1 && norms.length ≤ 1 && stats.all (fun t => t.pass == 0) &&
      norms.all fun t => t.pass == 1 && !t.i2 && stats.all fun u => u.alt == t.alt && u.dst == t.s2)
  let column := c.stages.any fun t => (t.op == 0x34 || t.op == 0x35) && (2048 < c.len || 31 < t.dst + c.nb - 1)
  let order := (c.stages.zip (c.stages.drop 1)).any (fun q => q.2.pass < q.1.pass) ||
    (c.passes == 1 && c.stages.any fun t => t.pass == 1)
  let formats :=
    if c.pair then c.aFmt != 1 || (c.bEn && c.bFmt != 1) || (c.dEn && c.dFmt != 1)
    else !([0, 1, 2, 3, 4, 5, 6, 0xA, 0xB, 0xD].contains c.aFmt) ||
      (c.bEn && !([0, 1, 2, 3, 4, 0xB, 0xD].contains c.bFmt)) || (c.dEn && 0xE ≤ c.dFmt)
  let geometry := (isMx c.aFmt && c.len % 32 != 0) ||
    (c.dEn && ((isMx c.dFmt && c.len % 32 != 0) || (elemBits c.dFmt == 4 && c.len % 2 != 0)))
  let align := [c.a.off, c.b.off, c.d.off, c.aScale, c.dScale, c.mask.off, c.stride, c.dStride].any (· % 64 != 0) ||
    c.rowOut.off % 8 != 0
  let rings := !ringsOk ([c.a.ring] ++ (if c.bEn then [c.b.ring] else []) ++ (if c.maskEn then [c.mask.ring] else []))
      (b.ringOn p c.engine) ||
    !ringsOk ((if c.dEn then [c.d.ring] else []) ++ (if c.rowEn then [c.rowOut.ring] else [])) (b.ringOn p c.engine)
  softmax || column || order || formats || geometry || align || rings || (c.pair && c.stages.any fun t => !pairOp t.op)

/-- Whether a CART side's ring is named where R252 forbids it or is not enabled (R269). -/
def Block.cartRingBreaks (b : Block) (p va k : Nat) (codec : Bool) : Bool :=
  k != 0 && (codec ||
    match b.cartRing p va k with
    | some r => !r.en
    | none => (match bayNumber va with
      | some i => (b.arrayAt p i).isNone
      | none => true))

/-- The rules of a CART (R249, R252, R257, R296, R298): true where one is broken. -/
def Block.cartBreaks (b : Block) (p : Nat) (c : CartC) : Bool :=
  let total := c.rowBytes * c.rows * c.planes
  let coded := c.codec != 0 || c.pass
  let src := b.cartSrcSide p c
  let window := c.mode == 0 && c.winLen != 0 && !(c.winBase ≤ src.lo && src.hi ≤ c.winBase + c.winLen)
  let areas := ((c.codec == 1 || c.pass) && c.src % 32 != 0) || ((c.codec == 2 || c.pass) && c.dst % 32 != 0)
  let indexed := (c.mode == 1 || c.mode == 2) && (c.winLen == 0 || c.planes != 1)
  let fill := c.mode == 3 && (c.winLen != 0 || c.rowBytes % 4 != 0 || c.srcRing != 0)
  let inbox := c.dstKind == 1 && (c.dst != 0 || total % 16384 != 0 || c.mode == 2)
  let rings := (c.mode == 1 && c.srcRing != 0) || (c.mode == 2 && c.dstRing != 0) || (c.dstKind != 0 && c.dstRing != 0) ||
    b.cartRingBreaks p c.src c.srcRing (c.codec == 1) || b.cartRingBreaks p c.dst c.dstRing (c.codec == 2)
  let settings :=
    if c.codec = 2 then false
    else if c.codec = 1 then c.thresh != 0 || c.sym16 || c.append || c.pass
    else if c.pass then c.thresh != 0 || c.sym16 || c.append
    else c.thresh != 0 || c.sym16 || c.append || c.kind != 0
  let codec := settings || (c.codec == 2 && c.pass) || (coded && ((c.kind == 4) != c.blk2k)) || (!coded && c.blk2k) ||
    (coded && (c.rows != 1 || c.planes != 1 || c.rowBytes % c.block != 0 || c.mode != 0))
  let frames := c.dstKind == 2 && decide (2 ^ 32 < c.rows * c.planes * ceilDiv c.rowBytes 8192)
  frames || decide (2 ^ 36 < total) || window || areas || indexed || fill || inbox || rings || codec || (c.red != 0 && c.dstKind != 2) ||
    c.winBase % 4096 != 0 || c.winLen % 4096 != 0

/-- Whether fields that a PRUNE's OP does not use are 0 (R339). -/
def pruneUnused (w : Carriage) (c : PruneC) : Bool :=
  let acc := c.first || c.ssq || c.srcEn || c.srcFmt != 0 || c.accum != 0
  let upd := c.normClip || c.shadowEn || c.wcEn || c.deepWc || c.rule != 0 || c.master != 0 || c.mom1 != 0 ||
    c.mom2 != 0 || c.stamp != 0 || c.wc != 0 || c.wcScale != 0 || c.shadow != 0
  let blocks := c.g0 != 0 || cf w 0x20 0 24 != 0 || c.srcStride != 0 || c.src != 0
  let sem := c.deferSem != 0 && !c.deferEn
  match c.op with
  | 0 => upd || c.noUpdate || sem
  | 1 => c.first || c.ssq || c.srcEn || c.noUpdate || sem
  | 2 => acc || upd || blocks || c.noUpdate || sem
  | _ => acc || upd || blocks || sem

/-- The rules of a PRUNE (R337, R339, R340): true where one is broken. -/
def pruneBreaks (w : Carriage) (c : PruneC) (r : RuleRec) : Bool :=
  let striped (a : Nat) : Bool := a % 131072 == 0 && regionOf a == some .deep
  let bases := if c.op = 0 then [c.accum]
    else if c.op = 1 then [c.master] ++ (if r.rule = 0 then [] else [c.stamp]) ++
      (if 1 ≤ r.moments then [c.mom1] else []) ++ (if r.moments = 2 then [c.mom2] else []) ++
      (if r.rule = 0 ∨ r.rule = 4 then [] else [c.accum])
    else []
  2 ≤ c.srcFmt || !bases.all striped || (c.deepWc && regionOf c.wc != some .deep) ||
    (c.deferEn && !(cDraft w && c.op == 1)) || c.step == 0 || (c.op == 1 && c.rule % 64 != 0) || pruneUnused w c

/-- The state of a leaf's shard, EXCH_STATE (R399): 0 is UNBOUND. -/
def Block.exchState (b : Block) (p : Nat) : Nat := b.fld (pageOf .part p) 0x300 0 4

/-- The rules of a carriage's type (code 0x04): true where one is broken. -/
def Block.typeBreaks (b : Block) (p c : Nat) (w : Carriage) : Bool :=
  match cType w with
  | 0x01 => b.streamBreaks p (streamOf w)
  | 0x02 => b.foldBreaks p c (foldOf w)
  | 0x03 => b.chainBreaks p (chainOf w)
  | 0x04 => b.cartBreaks p (cartOf w)
  | 0x05 => pruneBreaks w (pruneOf w) (ruleOf (b.peekV p (pruneOf w).rule 64))
  | 0x06 =>
    let op := cf w 0x10 0 3
    if op ≤ 2 then b.exchState p != 0 || cf w 0x18 0 48 % 256 != 0 else b.exchState p == 0
  | 0x08 => cb w 0x10 3 && cf w 0x10 0 3 != 4
  | 0x0A =>
    [cf w 0x18 0 48, cf w 0x20 0 32, cf w 0x28 0 48, cf w 0x30 0 32].any (· % 4096 != 0) ||
      (b.sides p w).any fun s => regionOf s.lo != some .bay && regionOf s.lo != some .yard
  | 0x0B =>
    (cb w 0x10 0 && (cf w 0x18 0 48 % 4 != 0 ||
      !([some Region.bay, some .yard, some .near].contains (regionOf (cf w 0x18 0 48))))) || cf w 0x28 0 48 % 8 != 0
  | 0x0C => cf w 0x28 0 48 % 8 != 0
  | _ => false

/-- The semaphores a carriage names (code 0x05), by partition index. -/
def semsOf (w : Carriage) : List Nat :=
  (if cPreEn w then [cPreSem w] else []) ++ (if cPostEn w then [cPostSem w] else []) ++
    match cType w with
    | 0x05 => if (pruneOf w).deferEn then [(pruneOf w).deferSem] else []
    | 0x08 => [cf w 0x14 0 14]
    | 0x09 => [cf w 0x10 0 14]
    | 0x0A => if cf w 0x14 16 7 = 0 then [] else [cf w 0x14 0 14 + cf w 0x14 16 7 - 1]
    | 0x0B => (if cb w 0x20 14 then [cf w 0x20 0 14] else []) ++ (if cb w 0x20 30 then [cf w 0x20 16 14] else [])
    | 0x0C => if cb w 0x20 30 then [cf w 0x20 16 14] else []
    | _ => []

/-- The draft pages a leaf's drafts have reserved (R182). -/
def Block.draftReserved (b : Block) (p : Nat) : Nat :=
  ((List.range 16).map fun d => let x := b.draft p d; if x.state = .free then 0 else x.pageLimit).sum

/-- Whether a draft may signal a semaphore (R183). -/
def Draft.maySignal (d : Draft) (i : Nat) : Bool := d.semBase ≤ i && i < d.semBase + d.semCount

/-- The draft rules (code 0x06; R182, R184, R191, R196, R340, R356): true where one is broken. -/
def Block.draftBreaks (b : Block) (p : Nat) (w : Carriage) : Bool :=
  let x := b.draft p (cDraftId w)
  let t := cType w
  if cDraft w then
    let alive := (x.state == .open_ || x.state == .spoiled) && x.closing.isNone
    let type := t == 0x06 || (t == 0x07 && cf w 0x10 0 3 == 4) || t == 0x0A || t == 0x0B || t == 0x0C
    let effect := (b.sides p w).any fun s => s.wr &&
      match regionOf s.lo with
      | some .near => false
      | some .bay => !x.inScratch s.lo (s.hi - s.lo)
      | some .yard => !x.inScratch s.lo (s.hi - s.lo)
      | _ => s.lo != s.hi
    let port := t == 0x04 && (cartOf w).dstKind == 2
    let sems := (cPostEn w && !x.maySignal (cPostSem w)) ||
      (t == 0x08 && (!x.maySignal (cf w 0x14 0 14) || cb w 0x10 3 || cf w 0x10 0 3 == 4))
    let prune := t == 0x05 && ((pruneOf w).op != 1 || (ruleOf (b.peekV p (pruneOf w).rule 64)).rule == 4)
    !alive || type || effect || port || sems || prune
  else if t == 0x0A then x.state != .free || (b.grant p).draftBytes / 65536 < b.draftReserved p + cf w 0x10 0 19
  else if t == 0x0B || t == 0x0C then !((x.state == .open_ || x.state == .spoiled) && x.closing.isNone)
  else false

/-- The code a carriage of leaf `p` on channel `c` is refused with, if any: the first that holds (R163). -/
def Block.refusal (b : Block) (p c : Nat) (w : Carriage) : Option Nat :=
  if 0x0C < cType w || !rsvZero w || reservedEnc w then some 0x01
  else if b.engineMissing p w then some 0x02
  else if b.unentitled p c w then some 0x03
  else if b.typeBreaks p c w then some 0x04
  else if (semsOf w).any fun i => (b.grant p).semCount ≤ i then some 0x05
  else if b.draftBreaks p w then some 0x06
  else if (b.sides p w).any fun s => !b.inGrant p s.lo s.hi then some 0x07
  else none

end Sys2Proof.Machine
end

