-- ==== Sys2Proof/Machine/Faults.lean ====
section
/-!
DEFINITION. Recoveries (R440 to R447, R473, R474) and SHORTFALL (R485, R498): opening, escalating and ending a recovery in a
containment domain.
-/

namespace Sys2Proof.Machine

def recPage : Nat := pageOf .recovery 0

/-- The bound of a domain's recovery in nanoseconds (R440). -/
def domainBound : Domain → Option Nat
  | .array _ => some 2000000000
  | .field _ => some 3000000000
  | .port _ => some 1000000000
  | .nearmc _ => some 5000000000
  | .deepmc _ => some 15000000000
  | .deviceKept => some 3000000000
  | .deviceLost => some 15000000000
  | .replicaGroup => none

/-- The domain that encloses a domain (R440). -/
def enclosing : Domain → Domain
  | .array n => .field ⟨n.val / 32, by omega⟩
  | .deviceKept => .replicaGroup
  | .deviceLost => .replicaGroup
  | .replicaGroup => .replicaGroup
  | _ => .deviceKept

/-- Whether a domain strictly encloses another (R440). -/
def encloses : Domain → Domain → Bool
  | .field f, .array n => n.val / 32 == f.val
  | .deviceKept, d => d != .deviceKept && d != .deviceLost && d != .replicaGroup
  | .deviceLost, d => d != .deviceKept && d != .deviceLost && d != .replicaGroup
  | .replicaGroup, d => d != .replicaGroup
  | _, _ => false

/-- A domain as the argument of an event record: its kind in [15:8] and its number. -/
def domainCode : Domain → Nat
  | .array n => n.val
  | .field f => 0x100 + f.val
  | .port n => 0x200 + n.val
  | .nearmc k => 0x300 + k.val
  | .deepmc k => 0x400 + k.val
  | .deviceKept => 0x500
  | .deviceLost => 0x501
  | .replicaGroup => 0x600

/-- The module whose shadow a leaf sends and receives, and the port by which the tables reach a module (R411): the entry of module m in
the table of the first trained port that has one. -/
def Block.keeperPorts (b : Block) : List Nat :=
  (b.allLeaves.filter fun p => bitOf (b.regN (pageOf .part p) 0x600) 0).flatMap fun p =>
    let m := b.fld (pageOf .part p) 0x604 0 24
    (List.range 48).filter fun n => (b.grant p).ports.toNat / 2 ^ n % 2 == 1 && m != 0

/-- Whether a fault's domain lies in the recovery path of an open recovery (R440, R446). -/
def Block.inPath (b : Block) (open_ fault : Domain) : Bool :=
  match open_, fault with
  | .nearmc _, .deepmc _ => true
  | .deepmc _, .port n => b.keeperPorts.contains n.val
  | .deviceLost, .port n => b.keeperPorts.contains n.val
  | _, _ => false

/-- The leaves a recovery affects. -/
def Block.affected (b : Block) (d : Domain) : List Nat :=
  b.allLeaves.filter fun p =>
    match d with
    | .array n => b.holdsPage p (pageOf .array n.val)
    | .field f => !((b.part p).hold.arraysIn f.val).isEmpty || (b.part p).hold.yard.getD f.val 0 != 0
    | .port n => b.holdsPage p (pageOf .port n.val)
    | _ => true

/-- REC_STATE and REC_DEADLINE follow the open recoveries (R473). -/
def Block.showRecs (b : Block) : Block :=
  let rebuilding := b.recs.any fun (r : Recovery) => r.domain == .deviceLost
  let st := if b.recs.isEmpty then 0 else if rebuilding then 2 else 1
  let dl := (b.recs.filterMap fun (r : Recovery) => r.deadline).foldl (fun (m : Option Nat) d =>
    some (match m with
      | some x => min x d
      | none => d)) none
  (b.setN recPage 0x040 (st + 4 * b.recs.length)).set64 recPage 0x048 (dl.getD 0)

/-- Opens a recovery beside those that are open: with several, all end by the latest start and bound, plus 2 s (R445). -/
def Block.addRec (b : Block) (d : Domain) (bound : Option Nat := domainBound d) : Block :=
  let r : Recovery := ⟨d, b.now, bound, bound.map (b.now + ·), false⟩
  let recs := b.recs ++ [r]
  let recs := if recs.length = 1 then recs
    else
      let last := (recs.filterMap fun (r : Recovery) => r.bound.map (r.start + · + if r.moved then 2000000000 else 0)).foldl max 0 + 2000000000
      recs.map fun (r : Recovery) => { r with deadline := r.deadline.map fun _ => last }
  let b := { b with recs := recs }
  ((b.set64 recPage 0x058 b.now).add64 recPage 0x068 1).showRecs

/-- Abandons the open recoveries that domain `d` is or encloses and opens a recovery in `d` (R446). -/
def Block.escalateTo (b : Block) (d : Domain) : Block :=
  let b := { b with recs := b.recs.filter fun (r : Recovery) => !(r.domain == d || encloses d r.domain) }
  let b := (b.add64 recPage 0x070 1).raise recPage 1 none (domainCode d) 0 (b.affected d)
  b.addRec d

/-- A fault in a domain (R441, R445 to R447): concurrent, absorbed, or an escalation. -/
def Block.openRec (b : Block) (d : Domain) : Block :=
  match b.recs.find? fun (r : Recovery) => r.domain == d || b.inPath r.domain d with
  | some r => b.escalateTo (enclosing r.domain)
  | none =>
    if b.recs.any fun (r : Recovery) => encloses d r.domain then b.escalateTo d
    else if b.recs.any fun (r : Recovery) => encloses r.domain d then
      { b with recs := b.recs.map fun (r : Recovery) =>
          if encloses r.domain d && !r.moved then
            { r with deadline := r.deadline.map (· + 2000000000), moved := true } else r }.showRecs
    else b.addRec d

/-- Whether a recovery is open in a domain. -/
def Block.recOpen (b : Block) (d : Domain) : Bool := b.recs.any fun (r : Recovery) => r.domain == d

/-- Ends the recovery of a domain: RECOVERED (R441). -/
def Block.closeRec (b : Block) (d : Domain) : Block :=
  if b.recOpen d then
    let b := { b with recs := b.recs.filter fun (r : Recovery) => r.domain != d }
    let b := (b.set64 recPage 0x060 b.now).showRecs
    b.raise recPage 0 none (domainCode d) 0 (b.affected d)
  else b

/-! SHORTFALL (R485, R486, R498). -/

/-- Raises SHORTFALL to a leaf: the bit of SHORT_STATE, the broken rank, the resource, the rank kept, the factor. -/
def Block.shortfall (b : Block) (p bit broken resource kept factor : Nat) : Block :=
  let page := pageOf .part p
  ((b.setFld page 0x0C4 bit 1 1).add32 page 0x0EC 1).raisePart p 0 (broken + kept * 2 ^ 8 + factor * 2 ^ 16) resource

/-- The number by which the caller that made partition `q` names array `a` (R479). -/
def Block.callerArray (b : Block) (q a : Nat) : Option Nat :=
  match (b.part q).view with
  | none => some a
  | some v => (List.range 128).find? fun i => b.arrayAt v i == some (.unit a)

/-- Sets the reservation record of a partition, and a leaf's RES_RECORD with it (R497). -/
def Block.setRecord (b : Block) (q : Nat) (r : BitVec 1024) : Block :=
  let b := b.setPart q { b.part q with record := r }
  if q < 64 then b.setBytes (pageOf .part q) 0x040 (toBytes 128 r.toNat) 32 else b

/-- The ARRAYS of every partition that holds a retired array shrinks (R120, R486). The view keeps its numbers. -/
def Block.shrinkHold (b : Block) (a : Nat) : Block :=
  b.each ((List.range 112).filter fun q => (b.part q).present && bitOf (b.part q).hold.arrays.toNat a) fun b q =>
    match b.callerArray q a with
    | some i => b.setRecord q ((b.part q).record &&& ~~~ (BitVec.ofNat 1024 (2 ^ (64 + i))))
    | none => b

end Sys2Proof.Machine
end

