-- ==== Sys2Proof/Machine/Flights.lean ====
section
/-!
DEFINITION. Carriages in flight: the engine each runs on, taking the next one of an engine, ending one with a fault status,
and the wait for lines of the HDM window that the host may hold (R169, R188, R189, R220, R512).
-/

namespace Sys2Proof.Machine

/-! Engines: an array, a vector engine, a Cart engine, a FOLD sequencer, a leaf's Pruners, a leaf's Coach, the
dispatcher. -/

def engVec (e : Nat) : Nat := 128 + e
def engCart (e : Nat) : Nat := 256 + e
def engFold (q : Nat) : Nat := 320 + q
def engPrune (p : Nat) : Nat := 400 + p
def engCoach (p : Nat) : Nat := 500 + p
def engDispatch : Nat := 999

/-- The engine a carriage of leaf `p` on channel `c` runs on. -/
def Block.engineOf (b : Block) (p c : Nat) (w : Carriage) : Nat :=
  match cType w with
  | 0x01 => (b.arrayUnit p (streamOf w).array).getD engDispatch
  | 0x02 => match b.seqOf p c with
    | some q => engFold q
    | none => engDispatch
  | 0x03 => match b.arrayUnit p (chainOf w).engine with
    | some a => engVec a
    | none => engDispatch
  | 0x04 => match b.cartAt p (cartOf w).engine with
    | some e => engCart e
    | none => engDispatch
  | 0x05 => engPrune p
  | 0x06 => engCoach p
  | _ => engDispatch

/-- Whether a flight's carriage has completed but for its post-signal. -/
def Flight.done (f : Flight) : Bool := f.rows && f.loads

/-- A new flight. -/
def flightNew (c p : Nat) (w : Carriage) (engine now : Nat) (done empty : Bool) : Flight :=
  { chan := c, part := p, word := w, engine := engine, plane := 0, row := 0, started := false, rows := done,
    loads := done || !(cType w == 0x01 && (streamOf w).load), faulted := false, empty := empty, ringPos := [],
    startAt := now, buf := [], warned := false, chained := false, msg := none, next := [], rule := 0, clip := 0, skid := [],
    inRow := none, unit := none, rowLen := 0, scales := [] }

/-- STATE of an engine's page: IDLE or RUN, as it holds a carriage, or a FOLD holds it, or not (R121, R157, R276). A pair in
CONTEXT or RETIRED keeps its state. -/
def Block.touchEngine (b : Block) (e : Nat) : Block :=
  let held := e < 128 && b.fld (pageOf .array e) 0x044 2 1 == 1
  let busy := b2n (held || b.flights.any fun f => f.engine == e && !f.done)
  let page := if e < 128 then some (pageOf .array e, 0x044)
    else if e < 256 then some (pageOf .vec (e - 128), 0x040)
    else if e < 320 then some (pageOf .cart (e - 256), 0x040) else none
  match page with
  | some (y, o) => if 256 ≤ e || b.fld y o 0 2 ≤ 1 then b.setFld y o 0 2 busy else b
  | none => b

/-- Replaces flight `i`. -/
def Block.setFlight (b : Block) (i : Nat) (f : Flight) : Block :=
  { b with flights := b.flights.set i f }.touchEngine f.engine

/-- The access context of a flight. -/
def Flight.ctx (f : Flight) : Ctx := ⟨f.part, cDraftOf f.word⟩

/-- A flight whose rows and loads are done. -/
def Flight.finish (f : Flight) : Flight := { f with rows := true, loads := true }

/-- A fill carriage has ended with a fault on a lent array: ARRAY recovery, and SHORTFALL of rank 6 to the lender (R494). -/
def Block.fillFault (b : Block) (e : Nat) : Block :=
  let a := e % 128
  if h : e < 256 then
    match (b.arr a).lentTo with
    | none => b
    | some l =>
      if b.fld (pageOf .array a) 0x00C 0 1 == 1 then b
      else
        let b := b.setFld (pageOf .array a) 0x00C 0 1 1
        (b.shortfall l.lender 6 6 a 2 0).openRec (.array ⟨a, by omega⟩)
  else b

/-- Ends flight `i` with a fault status; a draft it belongs to is spoiled (R188). -/
def Block.endFault (b : Block) (i : Nat) (f : Flight) : Block :=
  ((b.setFlight i { f.finish with faulted := true }).spoilCtx f.ctx .fault).fillFault f.engine

/-- Ends flight `i` with a fault status for an access its translation forbids (R220). -/
def Block.xlateFault (b : Block) (i : Nat) (f : Flight) (va : Nat) : Block :=
  (b.raisePart f.part 3 va (cTag f.word)).endFault i f

/-- Whether a leaf is the one the HDM window is bound to, and the window's partition-virtual base (R511). -/
def Block.hdmBase (b : Block) (p : Nat) : Option Nat :=
  let page := pageOf .hostif 0
  if b.fld page 0x044 6 1 = 1 ∧ b.fld page 0x044 0 6 = p then some (b.reg64 page 0x048) else none

/-- Sends the back-invalidations that `need` asks for on lines none waits for yet (true: BISnpInv). -/
def Block.backInv (b : Block) (need : SfLine → Option Bool) : Block :=
  let fresh := b.snoop.filter fun l => l.waiting.isNone && (need l).isSome
  let b := { b with snoop := b.snoop.map fun (l : SfLine) =>
    if l.waiting.isNone && (need l).isSome then { l with waiting := need l, sent := b.now } else l }
  let b := b.each fresh fun b l => b.emit (.biSnoop ((need l).getD true) l.off)
  b.add64 (pageOf .hostif 0) 0x058 fresh.length

/-- Sends the back-invalidations that accesses to `ss` need; true where none is outstanding (R512). -/
def Block.snoopFor (b : Block) (p : Nat) (ss : List Side) : Block × Bool :=
  match b.hdmBase p with
  | none => (b, true)
  | some base =>
    let need (l : SfLine) : Option Bool :=
      let hit (s : Side) : Bool := decide (s.lo < base + l.off + 64) && decide (base + l.off < s.hi)
      if ss.any fun s => s.wr && hit s then some true
      else if !l.clean && ss.any hit then some false else none
    (b.backInv need, !(b.snoop.any fun l => (need l).isSome))

/-- Whether any back-invalidation waits for its BIRsp. -/
def Block.snoopWaits (b : Block) : Bool := b.snoop.any fun l => l.waiting.isSome

/-- Whether a channel of a tier serves nothing for a time: it drains, lies in self-refresh or is being retrained and filled (R237, R238). -/
def Block.tierHeld (b : Block) (t : Tier) : Bool :=
  (List.range 32).any fun k => b.mcState t k == 3 || b.mcState t k == 4 || (b.mc t k).draining.isSome

/-- Whether accesses to `ss` wait for a channel of a tier they lie in: every frame lies on all of its tier's channels (R204). -/
def Block.sidesHeld (b : Block) (ss : List Side) : Bool :=
  ss.any fun s => match regionOf s.lo with
    | some .near => b.tierHeld .near
    | some .deep => b.tierHeld .deep
    | _ => false

/-- The translation cache that serves an engine: its field's, or the shared one (R217). -/
def cacheOf (e : Nat) : Nat :=
  if e < 128 then e / 32 else if e < 256 then (e - 128) / 32 else if e < 320 then (e - 256) / 16 else if e < 328 then (e - 320) / 2 else 4

/-- Lets `f` run with the translation cache of an engine. -/
def Block.withCache (b : Block) (c : Nat) (f : Block → Block) : Block := { f { b with cacheSel := c } with cacheSel := b.cacheSel }

/-- Runs the oldest flight that `sel` picks. One whose draft is SPOILED before it has started completes empty (R189); one that
touches lines the host may hold waits for them (R512), and so does one that touches a tier a channel of which serves nothing (R237). -/
def Block.runFlight (b : Block) (sel : Flight → Bool) (k : Block → Nat → Flight → Block) : Block :=
  match b.flights.findIdx? sel with
  | none => b
  | some i =>
    match b.flights[i]? with
    | none => b
    | some f =>
      let spoiled : Bool := match f.ctx.draft with
        | some d => (b.draft f.part d).state == .spoiled
        | none => false
      if spoiled && !f.started then b.setFlight i { f.finish with empty := true }
      else
        match b.snoopFor f.part (b.sides f.part f.word) with
        | (b, false) => b
        | (b, true) =>
          if b.sidesHeld (b.sides f.part f.word) then b
          else b.withCache (cacheOf f.engine) fun b => k b i { f with started := true }

/-- The physical index of a leaf's semaphore (R171). -/
def Block.semIndex (b : Block) (p i : Nat) : Nat := (b.grant p).semBase + i

/-- Fills [a, a + n) with values the spec leaves open. -/
def Block.scramble (b : Block) (a n : Nat) : Block :=
  let bs := (List.range n).map fun i => (Config.freeValue (b.free + i)).truncate 8
  { b.put a bs false with free := b.free + n }

/-- Fills a partition-virtual range, as far as it translates, with values the spec leaves open. -/
def Block.scrambleV (b : Block) (x : Ctx) (va n : Nat) : Block :=
  b.each (chunks va n) fun b q =>
    match b.xl x q.1 true with
    | .dev a => b.scramble a q.2
    | _ => b

/-- Whether the module accepts work: not after FATAL (R615), and not once QUIESCED (R524). -/
def Block.accepting (b : Block) : Bool :=
  b.fld devPage 0x040 0 3 != 5 && b.fld (pageOf .hostif 0) 0x040 10 1 == 0

end Sys2Proof.Machine
end

