-- ==== Sys2Proof/Machine/ArrayMath.lean ====
section
/-!
DEFINITION. What an array computes (chapters 02 and 03): tiles in slots, the column trees, the entries, the drain's
conversion; and the bay rings that rows come from and go to (R265 to R267).
-/

namespace Sys2Proof.Machine

/-! Elements in memory (R49, R80). -/

/-- Element `j` of a packed list of bytes. -/
def elemAt (fmt : Nat) (bs : List Byte) (j : Nat) : Nat := fieldOf (ofBytes bs) (elemBits fmt * j) (elemBits fmt)

/-- Element `j` of bytes in slot form: six-bit elements in bits [5:0] of their byte (R82, R255). -/
def slotElemAt (fmt : Nat) (bs : List Byte) (j : Nat) : Nat :=
  match widthClass fmt with
  | some 4 => fieldOf (ofBytes (bs.drop (j / 2))) (4 * (j % 2)) 4
  | some 16 => ofBytes ((bs.drop (2 * j)).take 2)
  | _ => (bs.getD j 0).toNat % 2 ^ elemBits fmt

/-- Packs element codes into bytes (R49). -/
def packElems (fmt : Nat) (codes : List Nat) : List Byte :=
  toBytes (elemBytes fmt codes.length) (codes.foldr (fun v acc => v % 2 ^ elemBits fmt + acc * 2 ^ elemBits fmt) 0)

/-! Tiles (R94 to R98). -/

/-- A slot from the elements of its source region (R80, R97). -/
def buildSlot (fmt baxis : Nat) (trans : Bool) (src : Nat → Nat → Nat) (scales : List Byte) : Slot :=
  let el (k j : Nat) : Nat := if trans then src j k else src k j
  let cell (i j : Nat) : Nat :=
    match widthClass fmt with
    | some 4 => el (2 * i) j + 16 * el (2 * i + 1) j
    | some 16 => if i % 2 = 0 then el (i / 2) j % 256 else el (i / 2) j / 256
    | _ => el i j
  { bytes := storeOf 0 ((List.range 16384).map fun n => BitVec.ofNat 8 (cell (n / 128) (n % 128))),
    scales := storeOf 0 scales, baxis := baxis }

/-- The code of weight (k, j) of a slot. -/
def Slot.weight (s : Slot) (fmt k j : Nat) : Nat :=
  let at_ (i : Nat) : Nat := (storeGet (fun _ => (0 : Byte)) s.bytes (128 * i + j)).toNat
  match widthClass fmt with
  | some 4 => fieldOf (at_ (k / 2)) (4 * (k % 2)) 4
  | some 16 => at_ (2 * k) + 256 * at_ (2 * k + 1)
  | _ => at_ k

/-- The scale byte of the block of weight (k, j) (R98). -/
def Slot.scale (s : Slot) (fmt : Nat) (trans : Bool) (k j : Nat) : Nat :=
  let (i, c) := if trans then (j, k) else (k, j)
  let cols := (tileShape fmt trans).2
  (storeGet (fun _ => (0 : Byte)) s.scales (if s.baxis = 0 then i / 32 * cols + c else i * (cols / 32) + c / 32)).toNat

/-- Whether a slot's blocks run along its output axis, so that its scales are applied in the cells (R98). -/
def Slot.inCells (s : Slot) (fmt : Nat) (trans : Bool) : Bool := isMx fmt && ((s.baxis == 1) != trans)

/-! The column trees (R66, R84, R89). -/

/-- What a scale of 0xFF leaves of a sum: NAN is set and nothing is added to the finite part (R48, R66). -/
def accScaleNan (a : Acc) : Acc := { a with nan := true, fin := .fin false 0 0 }

/-- A sum times a block scale (R48, R66). -/
def accScaleByte (s : Nat) (a : Acc) : Acc :=
  match scaleExp s with
  | some k => accScale k a
  | none => accScaleNan a

/-- A tile as the array streams against it. -/
structure Tile where
  slot  : Slot
  fmt   : Nat
  trans : Bool
  deriving DecidableEq, Repr

/-- The product of activation and weight (k, j), with a cell-applied scale (R98). -/
def product (t : Tile) (aFmt k j a : Nat) : Acc :=
  let p := accOf (mulV (decodeElem aFmt a) (decodeElem t.fmt (t.slot.weight t.fmt k j)))
  if t.slot.inCells t.fmt t.trans then accScaleByte (t.slot.scale t.fmt t.trans k j) p else p

/-- Two products joined without rounding. -/
def accJoin (a b : Acc) : Acc := ⟨a.nan || b.nan, a.pinf || b.pinf, a.ninf || b.ninf, addV a.fin b.fin⟩

/-- A column's floating sum over one activation row and its scale bytes (R84, R89). -/
def columnSum (t : Tile) (aFmt : Nat) (row : List Nat) (scales : List Nat) (j : Nat) : Acc :=
  let ps := row.zipIdx.map fun q => product t aFmt q.2 j q.1
  let four := widthClass aFmt == some 4
  let leaves := if four then pairUp accJoin ps else ps
  if isMx aFmt || isMx t.fmt then
    let per := tileK aFmt / 32
    let sums := treeLevels accAdd (if four then 4 else 5) leaves
    let scaled := sums.zipIdx.map fun q =>
      let sa := if isMx aFmt then scales.getD q.2 0 else 127
      let sw := if isMx t.fmt && !t.slot.inCells t.fmt t.trans then t.slot.scale t.fmt t.trans (32 * q.2) j else 127
      if sa = 0xFF ∨ sw = 0xFF then accScaleNan q.1 else accScale ((sa : Int) + sw - 254) q.1
    (treeLevels accAdd (Nat.log2 per) scaled).headD accZero
  else (treeLevels accAdd 7 leaves).headD accZero

/-- A column's integer sum (R84). -/
def columnInt (t : Tile) (aFmt : Nat) (row : List Nat) (j : Nat) : Int :=
  (row.zipIdx.map fun q =>
    signedOf (elemBits aFmt) q.1 * signedOf (elemBits t.fmt) (t.slot.weight t.fmt q.2 j)).sum

/-- What one row contributes to the 128 columns: an addend for the entry. -/
inductive RowSum where
  | flt (xs : List Acc)
  | int (xs : List Int)
  deriving DecidableEq, Repr

/-- The sums of one activation row in slot form. -/
def rowSums (t : Tile) (aFmt : Nat) (bs : List Byte) (scales : List Nat) : RowSum :=
  let row := (List.range (tileK aFmt)).map (slotElemAt aFmt bs)
  if intPair aFmt t.fmt then .int ((List.range 128).map (columnInt t aFmt row))
  else .flt ((List.range 128).map (columnSum t aFmt row scales))

/-- The 40-bit slots that row sums leave in their entries: replaced, or added to `old` (R68, R87). -/
def intoEntries (add : Bool) (old : List (BitVec 40)) : RowSum → List (BitVec 40)
  | .flt xs => (xs.zip old).map fun q => accBits (if add then accAdd (accRead q.2) q.1 else q.1)
  | .int xs => (xs.zip old).map fun q => intAcc (if add then q.2 else 0) q.1

/-! The drain's conversion (R90, R91). -/

/-- FP32's largest finite value with a sign. -/
def f32Max (neg : Bool) : FVal := .fin neg (2 ^ 24 - 1) 104

/-- The value a 40-bit slot is converted from, and whether its SAT flag is set. DESIGN CHOICE (log 176): an entry whose value has moved
off the limit since SAT was set is written as the limit of its present sign; the spec writes it as the limit it holds (R69, R90). -/
def drainValue (int : Bool) (oExp : Int) (w : BitVec 40) : FVal × Bool :=
  if int then
    let x := signedOf 32 (w.toNat % 2 ^ 32)
    if bitOf w.toNat 32 then (f32Max (decide (x < 0)), true) else (scaleV oExp (intV x), false)
  else (scaleV oExp (accValue (accRead w)), false)

/-- The element an entry with SAT set is written as: the largest finite magnitude of its format, or the range limit (R90). -/
def satElem (fmt : Nat) (neg : Bool) : Conv :=
  match floatOf fmt with
  | some f => ⟨withSign f neg f.maxCode, true, false, false⟩
  | none =>
    let r : Int × Int := if isMx fmt then (-127, 127) else intRange fmt
    ⟨codeOf (elemBits fmt) (if neg then r.1 else r.2), true, false, false⟩

/-- Writes the entries with SAT set as their limits. -/
def markSat (fmt : Nat) (cs : List Conv) (vs : List (FVal × Bool)) : List Conv :=
  (cs.zip vs).map fun q => if q.2.2 then satElem fmt (negOf q.2.1) else q.1

/-- Converts values, each with whether it is saturated, into a format: its scale bytes and its elements (R50, R90, R91). `draw` gives the
16 random bits of element i. An element of a block marked 0xFF stays 0 (R51). -/
def convRow (fmt conv : Nat) (draw : Nat → Nat) (vs : List (FVal × Bool)) : List Nat × List Conv :=
  if isMx fmt then
    let out := (List.range (vs.length / 32)).map fun i =>
      let block := (vs.drop (32 * i)).take 32
      let r := convMx fmt conv (fun j => draw (32 * i + j)) (block.map Prod.fst)
      (r.1, if r.1 = 0xFF then r.2 else markSat fmt r.2 block)
    (out.map Prod.fst, out.flatMap Prod.snd)
  else ([], markSat fmt (vs.zipIdx.map fun q => convScalar fmt conv (draw q.2) q.1.1) vs)

/-- Converts a list of slots into a format. -/
def drainConv (fmt conv : Nat) (int : Bool) (oExp : Int) (draw : Nat → Nat) (ws : List (BitVec 40)) : List Nat × List Conv :=
  convRow fmt conv draw (ws.map (drainValue int oExp))

/-! Rings (R265 to R267). -/

/-- A ring side of a carriage: the view's array number, the array, the ring, whether the side consumes. -/
structure RingSide where
  num  : Nat
  arr  : Nat
  ring : Nat
  cons : Bool
  deriving DecidableEq, Repr

def RingSide.key (s : RingSide) : Nat := 16 * s.arr + 2 * s.ring + b2n s.cons

/-- The position of one side of a ring, counted without wrap (R265). -/
def Block.ringPos (b : Block) (a k : Nat) (cons : Bool) : Nat :=
  if cons then (b.arr a).ringRd.getD (k - 1) 0 else (b.arr a).ringWr.getD (k - 1) 0

/-- Moves one side of a ring, and its register (R266). -/
def Block.setRingPos (b : Block) (a k : Nat) (cons : Bool) (v : Nat) : Block :=
  let x := b.arr a
  let b := b.setArr a (if cons then { x with ringRd := x.ringRd.set (k - 1) v } else { x with ringWr := x.ringWr.set (k - 1) v })
  b.setN (pageOf .array a) (ringOff k (if cons then 0xC else 0x8)) v

/-- Where a flight's side of a ring started; none where it has not. -/
def Flight.ringStart (f : Flight) (s : RingSide) : Option Nat := (f.ringPos.find? fun q => q.1 == s.key).map Prod.snd

/-- Whether a ring side serves another carriage (R267). -/
def Block.ringTaken (b : Block) (i : Nat) (s : RingSide) : Bool :=
  b.flights.zipIdx.any fun q => q.2 != i && !q.1.rows && (q.1.ringStart s).isSome

/-- Starts a flight's ring sides; none where one is taken. -/
def Block.ringsStart (b : Block) (i : Nat) (f : Flight) (ss : List RingSide) : Option Flight :=
  if !f.ringPos.isEmpty then some f
  else if ss.any (b.ringTaken i) then none
  else some { f with ringPos := ss.map fun s => (s.key, b.ringPos s.arr s.ring s.cons) }

/-- The difference of two ring positions as R266 takes it: modulo 2³², as a signed 32-bit value. -/
def ringDiff (x y : Nat) : Int := (BitVec.ofNat 32 x - BitVec.ofNat 32 y).toInt

/-- Whether row `r` may be read or written on a ring side (R266). -/
def Block.ringReady (b : Block) (f : Flight) (s : RingSide) (stride r : Nat) : Bool :=
  let next := (f.ringStart s).getD 0 + (r + 1) * stride
  if s.cons then decide (0 ≤ ringDiff (b.ringPos s.arr s.ring false) next)
  else decide (ringDiff next (b.ringPos s.arr s.ring true) ≤ ((b.ring s.arr s.ring).size : Nat))

/-- The bay offsets of `n` ring bytes from position `x` on, cut where the ring wraps, in at most `k` pieces. -/
def ringCut (base size : Nat) : Nat → Nat → Nat → List (Nat × Nat)
  | 0, _, _ => []
  | k + 1, x, n =>
    let m := min n (size - x % size)
    if n = 0 then [] else (base + x % size, m) :: ringCut base size k (x + m) (n - m)

/-- The bay offsets of `n` ring bytes from position `x` on (R265). -/
def ringPieces (base size x n : Nat) : List (Nat × Nat) := ringCut base size (n / size + 2) x n

/-- Reads a list of bay pieces of array number `num`. -/
def Block.readBay (b : Block) (x : Ctx) (num : Nat) : List (Nat × Nat) → Block × Got
  | [] => (b, .ok [])
  | (o, n) :: r =>
    match b.readV x (bayVa num + o) n with
    | (b, .fault va) => (b, .fault va)
    | (b, .ok bs) =>
      match Block.readBay b x num r with
      | (b, .fault va) => (b, .fault va)
      | (b, .ok cs) => (b, .ok (bs ++ cs))

/-- Bytes of a ring from position `pos` on. -/
def Block.readRing (b : Block) (x : Ctx) (s : RingSide) (pos n : Nat) : Block × Got :=
  let r := b.ring s.arr s.ring
  b.readBay x s.num (ringPieces r.base r.size pos n)

/-- The scale bytes of `n` data bytes from position `pos` on. -/
def Block.readRingScales (b : Block) (x : Ctx) (s : RingSide) (pos n : Nat) : Block × Got :=
  let r := b.ring s.arr s.ring
  b.readBay x s.num (ringPieces r.sbase (r.size / r.div) (pos / r.div) (n / r.div))

/-- Writes bytes to bay pieces of array `a`, numbered `num`; false where the carriage ends with a fault status. -/
def Block.writeBay (b : Block) (x : Ctx) (num : Nat) : List (Nat × Nat) → List (Byte × Bool) → Block × Option Nat
  | [], _ => (b, none)
  | (o, n) :: r, bs =>
    match b.writeV x (bayVa num + o) (bs.take n) with
    | (b, some va) => (b, some va)
    | (b, none) => Block.writeBay b x num r (bs.drop n)

/-- Writes bytes to a ring from position `pos` on. -/
def Block.writeRing (b : Block) (x : Ctx) (s : RingSide) (pos : Nat) (bs : List (Byte × Bool)) : Block × Option Nat :=
  let r := b.ring s.arr s.ring
  b.writeBay x s.num (ringPieces r.base r.size pos bs.length) bs

/-- Writes the scale bytes of `n` data bytes from position `pos` on. -/
def Block.writeRingScales (b : Block) (x : Ctx) (s : RingSide) (pos n : Nat) (bs : List (Byte × Bool)) :
    Block × Option Nat :=
  let r := b.ring s.arr s.ring
  b.writeBay x s.num (ringPieces r.sbase (r.size / r.div) (pos / r.div) (n / r.div)) bs

end Sys2Proof.Machine
end

