-- ==== Sys2Proof/Machine/Codec.lean ====
section
/-!
DEFINITION. The Privet codec (chapter 08): blocks and index entries, expansion with its check, compression, and the drain
compressors of the bays.
-/

namespace Sys2Proof.Machine

/-! CRC-32C (R288). -/

/-- `n` bit steps of the reflected polynomial. -/
def crcBits : Nat → BitVec 32 → BitVec 32
  | 0, c => c
  | n + 1, c => crcBits n (if c.getLsbD 0 then (c >>> 1) ^^^ 0x82F63B78#32 else c >>> 1)

/-- CRC-32C of a list of bytes (R288). -/
def crc32c (bs : List Byte) : Word :=
  ~~~ (bs.foldl (fun c v => crcBits 8 (c ^^^ v.zeroExtend 32)) 0xFFFFFFFF#32)

/-! Index entries (R281). -/

structure IdxEntry where
  check  : Nat
  off    : Nat
  sect   : Nat
  isRaw  : Bool
  deriving DecidableEq, Repr

def idxOf (v : Nat) : IdxEntry := ⟨fieldOf v 0 32, fieldOf v 32 24, fieldOf v 56 7 + 1, bitOf v 63⟩
def IdxEntry.bits (e : IdxEntry) : Nat :=
  e.check % 2 ^ 32 + e.off % 2 ^ 24 * 2 ^ 32 + (e.sect - 1) % 2 ^ 7 * 2 ^ 56 + b2n e.isRaw * 2 ^ 63

/-! Lines (R284, R285). -/

/-- The symbols of a 64-byte line: 64 bytes or 32 words. -/
def symbolsOf (w16 : Bool) (line : List Byte) : List Nat :=
  if w16 then (List.range 32).map fun i => ofBytes ((line.drop (2 * i)).take 2) else line.map (·.toNat)

/-- The bytes of symbols. -/
def bytesOfSymbols (w16 : Bool) (ss : List Nat) : List Byte := ss.flatMap fun s => toBytes (if w16 then 2 else 1) s

/-- Rotations by one bit within S bits. -/
def rotl (s v : Nat) : Nat := v * 2 % 2 ^ s + v / 2 ^ (s - 1)
def rotr (s v : Nat) : Nat := v / 2 + v % 2 * 2 ^ (s - 1)

/-- Packs values of `n` bits from bit 0 of the first byte upward. -/
def packBits (n : Nat) (vs : List Nat) : Nat := vs.foldr (fun v acc => v % 2 ^ n + acc * 2 ^ n) 0

/-- Unpacks `k` values of `n` bits. -/
def unpackBits (n k v : Nat) : List Nat := (List.range k).map fun i => fieldOf v (n * i) n

/-- The payload bytes of a FIELD line of width W. -/
def fieldLen (w16 : Bool) (w : Nat) : Nat := 33 + (if w16 then 4 else 8) * w

/-- The FIELD payload of a line and its W; none where no W fits (R285, R287). -/
def fieldLine (w16 : Bool) (line : List Byte) : Option (Nat × List Byte) :=
  let s := if w16 then 16 else 8
  let t := s / 2
  let rs := (symbolsOf w16 line).map (rotl s)
  let hs := rs.map (· / 2 ^ t)
  let b := hs.foldl min (hs.headD 0)
  let spread := hs.foldl (fun m h => max m (h - b)) 0
  let w := if spread = 0 then 0 else Nat.log2 spread + 1
  if w ≤ (if w16 then 7 else 3) then
    some (w, toBytes 1 b ++ toBytes (fieldLen w16 w - 33) (packBits w (hs.map (· - b))) ++
      toBytes 32 (packBits t (rs.map (· % 2 ^ t))))
  else none

/-- A line's descriptor and payload: the mode with the fewest bytes, the lowest on a tie (R287). -/
def encodeLine (w16 first : Bool) (prev line : List Byte) : Nat × List Byte :=
  let nz := line.filter (· ≠ 0)
  let z := nz.length
  if z = 0 then (0, [])
  else if !first && line == prev then (1, [])
  else
    let m := line.zipIdx.foldl (fun m q => if q.1 = 0 then m else m + 2 ^ q.2) 0
    let sparse := if z ≤ 55 then some (2, toBytes 8 m ++ nz) else none
    let field := (fieldLine w16 line).map fun q => (3 + q.1 * 8, q.2)
    let best : Nat × List Byte := match sparse, field with
      | some a, some c => if c.2.length < a.2.length then c else a
      | some a, none => a
      | none, some c => c
      | none, none => (4, line)
    if 64 < best.2.length then (4, line) else best

/-- The lines of a block, with what precedes each. -/
def encodeLines (w16 : Bool) : Nat → Bool → List Byte → List Byte → List (Nat × List Byte)
  | 0, _, _, _ => []
  | n + 1, first, prev, bs => encodeLine w16 first prev (bs.take 64) :: encodeLines w16 n false (bs.take 64) (bs.drop 64)

/-- Decodes one line from its descriptor; none where it is damaged (R284 to R286). -/
def decodeLine (w16 first : Bool) (prev : List Byte) (d : Nat) (bs : List Byte) : Option (List Byte × List Byte) :=
  let mode := fieldOf d 0 3
  let w := fieldOf d 3 3
  if d / 64 ≠ 0 || (mode ≠ 3 && w ≠ 0) then none
  else match mode with
    | 0 => some (List.replicate 64 0, bs)
    | 1 => if first then none else some (prev, bs)
    | 2 =>
      let m := ofBytes (bs.take 8)
      let z := (unitsIn m 0 64).length
      if bs.length < 8 + z || 55 < z then none
      else
        let rec place (n : Nat) (k : Nat) (src : List Byte) : List Byte :=
          match n with
          | 0 => []
          | n + 1 => if bitOf m k then src.headD 0 :: place n (k + 1) src.tail else 0 :: place n (k + 1) src
        some (place 64 0 (bs.drop 8), bs.drop (8 + z))
    | 3 =>
      let len := fieldLen w16 w
      if (!w16 && 3 < w) || bs.length < len then none
      else
        let s := if w16 then 16 else 8
        let t := s / 2
        let n := if w16 then 32 else 64
        let b := (bs.headD 0).toNat % 2 ^ t
        let hs := unpackBits w n (ofBytes ((bs.drop 1).take (len - 33)))
        let ls := unpackBits t n (ofBytes ((bs.drop (len - 32)).take 32))
        let ss := (hs.zip ls).map fun q => rotr s ((b + q.1) % 2 ^ t * 2 ^ t + q.2)
        some (bytesOfSymbols w16 ss, bs.drop len)
    | 4 => if bs.length < 64 then none else some (bs.take 64, bs.drop 64)
    | _ => none

/-- Decodes lines by their descriptors. -/
def decodeLines (w16 : Bool) : List Byte → Bool → List Byte → List Byte → Option (List Byte)
  | [], _, _, _ => some []
  | d :: ds, first, prev, bs =>
    match decodeLine w16 first prev d.toNat bs with
    | none => none
    | some (l, rest) => (decodeLines w16 ds false l rest).map (l ++ ·)

/-- Decodes a compressed block of `size` raw bytes from its sectors (R283, R286); its descriptors must lie within them. -/
def decodeBlock (size : Nat) (bs : List Byte) : Option (List Byte) :=
  let h := ofBytes (bs.take 4)
  if h / 2 ≠ 0 || bs.length < 4 + size / 64 then none else decodeLines (h % 2 == 1) ((bs.drop 4).take (size / 64)) true [] (bs.drop (4 + size / 64))

/-- The largest number of sectors a compressed block may take (R287). -/
def threshSectors (thresh size : Nat) : Nat := (7 - min thresh 3) * size / 8 / 32

/-- A block as it is stored: its sectors with marks, and whether raw; the bytes that code a marked line are marked (R287,
R302). -/
def encodeBlock (thresh : Nat) (w16 : Bool) (raws : List (Byte × Bool)) : List (Byte × Bool) × Bool :=
  let size := raws.length
  let ls := encodeLines w16 (size / 64) true [] (raw raws)
  let marks := (List.range (size / 64)).map fun i => anyMark ((raws.drop (64 * i)).take 64)
  let descs := (ls.zip marks).map fun q => (BitVec.ofNat 8 q.1.1, q.2)
  let body := (ls.zip marks).flatMap fun q => q.1.2.map fun v => (v, q.2)
  let all := clean (toBytes 4 (b2n w16)) ++ descs ++ body
  let sect := ceilDiv all.length 32
  if sect ≤ threshSectors thresh size then
    (all ++ clean (List.replicate (32 * sect - all.length) 0), false)
  else (raws, true)

/-- Whether an index entry is consistent for blocks of `size` raw bytes (R300). -/
def IdxEntry.consistent (e : IdxEntry) (size : Nat) : Bool := if e.isRaw then size ≤ e.sect * 32 else e.sect * 32 < size

/-- What is wrong with a block, if anything: 1 POISON, 2 INDEX, 3 FORMAT, 4 CRC (R300, R303); else its raw bytes. -/
def expandBlock (size : Nat) (entry : List (Byte × Bool)) (sect : List (Byte × Bool)) : Nat ⊕ List Byte :=
  let e := idxOf (ofBytes (raw entry))
  if anyMark entry || anyMark sect then .inl 1
  else if !e.consistent size then .inl 2
  else
    match if e.isRaw then some ((raw sect).take size) else decodeBlock size (raw sect) with
    | none => .inl 3
    | some bs => if (crc32c bs).toNat = e.check then .inr bs else .inl 4

/-! Units and their page (R277, R301, R303). -/

def privetPage (f : Nat) : Nat := pageOf .privet f

/-- Which unit expands a block, and for whom. -/
structure ExpandJob where
  part  : Nat
  field : Nat
  size  : Nat
  kind  : Nat
  unit  : Nat
  index : Nat
  deriving DecidableEq, Repr

/-- Delivers a block through an expander: its bytes with their marks, counted; a damaged block is recorded and delivered
poisoned, with bytes the spec leaves open (R301). `at_` is the device address of its index entry. -/
def Block.expand (b : Block) (j : ExpandJob) (at_ : Nat) (entry sect : List (Byte × Bool)) :
    Block × List (Byte × Bool) :=
  let page := privetPage j.field
  let b := ((b.add64 page 0x060 1).add64 page 0x068 sect.length).add64 page 0x070 j.size
  let b := b.countEv j.part 5 0 0x21 1
  match expandBlock j.size entry sect with
  | .inr bs => (b, clean bs)
  | .inl cause =>
    let info := j.kind + cause * 2 ^ 3 + j.unit * 2 ^ 6 + j.index * 2 ^ 7
    let b := ((b.add64 page 0x078 1).set64 page 0x080 at_).setN page 0x088 info
    let b := (b.raise page 0 (some j.part) at_ info).raisePart j.part 9 at_ info
    let b := b.countEv j.part 5 0 0x22 1
    let bs := (List.range j.size).map fun i => ((Config.freeValue (b.free + i)).truncate 8, true)
    ({ b with free := b.free + j.size }, bs)

/-- Reads the block whose index entry lies at `idx` from the sector area at `area`, its sectors by `read`, and delivers it through an expander;
with it the sector bytes read. The entry is judged first: one that is poisoned, or inconsistent with sectors that cannot be read, makes a
damaged block (R300), and a damaged block spoils a draft (R188, R301). -/
def Block.expandAt (b : Block) (x : Ctx) (j : ExpandJob) (idx area : Nat) (read : Block → Nat → Nat → Block × Got) :
    Block × Got × Nat :=
  match b.readV x idx 8 with
  | (b, .fault va) => (b, .fault va, 0)
  | (b, .ok entry) =>
    let e := idxOf (ofBytes (raw entry))
    let at_ := match b.xl x idx false with
      | .dev d => d
      | _ => 0
    let deliver (b : Block) (sect : List (Byte × Bool)) : Block × Got × Nat :=
      let (b, bs) := b.expand j at_ entry sect
      (if anyMark bs then b.spoilCtx x .fault else b, .ok bs, sect.length)
    if anyMark entry then deliver b []
    else match read b (area + 32 * e.off) (32 * e.sect) with
      | (b, .ok sect) => deliver b sect
      | (b, .fault va) => if e.consistent j.size then (b, .fault va, 0) else deliver b []

/-- Counts a block a compressor has written (R303). -/
def Block.countCmp (b : Block) (f rawLen outLen : Nat) (isRaw : Bool) : Block :=
  let page := privetPage f
  (((b.add64 page 0x040 1).add64 page 0x048 (b2n isRaw)).add64 page 0x050 rawLen).add64 page 0x058 outLen

/-! Drain compressors (R293 to R295). -/

/-- The leaf whose manifest holds an array, or whose fill slot is bound to it. -/
def Block.holderOf (b : Block) (a : Nat) : Option Nat :=
  match (b.arr a).lentTo with
  | some l => some l.fill
  | none => b.allLeaves.find? fun p => bitOf (b.grant p).arrays.toNat a

/-- The bay bytes the holder of an array may address (R270, R488). -/
def Block.bayBytesOf (b : Block) (a : Nat) : Nat :=
  match (b.arr a).lentTo with
  | some l => fieldOf (b.part l.fill).record.toNat (8 * 0x34) 22
  | none => match b.holderOf a with
    | some p => (b.grant p).bayBytes
    | none => 0

/-- The device address of bay offset 0 for the holder of an array (R270, R488). -/
def Block.bayBase (b : Block) (a : Nat) : Nat :=
  regionBase .bay + a * baySize + (if (b.arr a).lentTo.isSome then baySize - b.bayBytesOf a else 0)

/-- Whether the three areas of a drain compressor lie in the bay and apart (R293). -/
def pzAreasOk (bay rawBase len sec idx : Nat) : Bool :=
  let apart (a n c m : Nat) : Bool := n == 0 || m == 0 || a + n ≤ c || c + m ≤ a
  len ≤ baySize && rawBase + len ≤ bay && sec + len ≤ bay && idx + len / 512 ≤ bay && apart rawBase len sec len &&
    apart rawBase len idx (len / 512) && apart sec len idx (len / 512)

/-- Compresses the first block of the partial bytes of array `a` into its areas. -/
def Block.pzBlock (b : Block) (a : Nat) : Block :=
  let page := pageOf .array a
  let x := b.arr a
  let blk := x.pzBytes.take 4096
  let (sect, isRaw) := encodeBlock (b.fld page 0x180 2 2) (b.fld page 0x180 4 1 == 1) blk
  let sectors := b.fld page 0x194 0 17
  let blocks := b.fld page 0x194 17 10
  let e : IdxEntry := ⟨(crc32c (raw blk)).toNat, sectors, sect.length / 32, isRaw⟩
  let base := b.bayBase a
  let b := b.putM (base + b.regN page 0x18C + 32 * sectors) sect
  let b := b.putNum (base + b.regN page 0x190 + 8 * blocks) 8 e.bits
  let b := b.setArr a { x with pzBytes := x.pzBytes.drop 4096 }
  let b := (b.setFld page 0x194 0 17 (sectors + sect.length / 32)).setFld page 0x194 17 10 (blocks + 1)
  b.countCmp (a / 32) 4096 sect.length isRaw

/-- Compresses every full block. -/
def Block.pzDrain (b : Block) (a : Nat) : Nat → Block
  | 0 => b
  | n + 1 => if 4096 ≤ (b.arr a).pzBytes.length then Block.pzDrain (b.pzBlock a) a n else b

/-- The raw bay offset that the window of a drain compressor takes next. -/
def Block.pzNext (b : Block) (a : Nat) : Nat :=
  let page := pageOf .array a
  b.regN page 0x184 + 4096 * b.fld page 0x194 17 10 + (b.arr a).pzBytes.length

/-- Whether a drain write at bay offset `o` goes to the window: it lies in it, or goes on at the end of a full one (R294). -/
def Block.pzTakes (b : Block) (a o n : Nat) : Bool :=
  let page := pageOf .array a
  let base := b.regN page 0x184
  let top := base + b.regN page 0x188
  bitOf (b.regN page 0x180) 0 && base < top && ((o < top && base < o + n) || (b.pzNext a == top && o == top))

/-- A drain write into the window: taken in order, else ORDER is set and the write ends its carriage (R294). -/
def Block.pzWrite (b : Block) (a o : Nat) (bs : List (Byte × Bool)) : Block × Bool :=
  let page := pageOf .array a
  if o = b.pzNext a && o + bs.length ≤ b.regN page 0x184 + b.regN page 0x188 then
    let x := b.arr a
    ((b.setArr a { x with pzBytes := x.pzBytes ++ bs }).pzDrain a (bs.length / 4096 + 1), true)
  else (((b.setFld page 0x194 28 1 1).raise (privetPage (a / 32)) 1 (b.holderOf a)), false)

/-- A drain write at a bay offset of the holder's numbering; false where its carriage ends with a fault status. -/
def Block.drainWrite (b : Block) (x : Ctx) (a va o : Nat) (bs : List (Byte × Bool)) : Block × Bool :=
  if b.pzTakes a o bs.length then b.pzWrite a o bs
  else match b.writeV x va bs with
    | (b, none) => (b, true)
    | (b, some _) => (b, false)

/-- Starts a new tensor (R293). -/
def Block.pzStart (b : Block) (a : Nat) : Block :=
  (b.setN (pageOf .array a) 0x194 0).setArr a { b.arr a with pzBytes := [] }

/-- A write of PZ_CTRL's RW fields (R16, R293). -/
def Block.pzCtrl (b : Block) (a v : Nat) : Block :=
  let page := pageOf .array a
  let old := b.regN page 0x180
  let new := keepField old (v &&& 0xFD) 5 3 (fieldOf v 5 3 < 4)
  let b := b.ifSo (!bitOf old 0 && bitOf new 0) fun b => b.pzStart a
  b.setN page 0x180 new

/-- Pads the partial block with zeros and compresses it (R293). -/
def Block.pzFlush (b : Block) (a : Nat) : Block :=
  let x := b.arr a
  let n := x.pzBytes.length
  if n = 0 then b else (b.setArr a { x with pzBytes := x.pzBytes ++ clean (List.replicate (4096 - n) 0) }).pzBlock a

/-- The array whose page a requester's array number names, where the requester may write its register at `off`. -/
def Block.arrayPageOf (b : Block) (who : Agent) (n off : Nat) : Option Nat :=
  match b.pageRef who (pageOf .array n) with
  | .page y => match pageKind y with
    | some (.array, a) => if b.mayWrite who .array a off then some a else none
    | _ => none
  | _ => none

/-- PZ_ENABLE: a write of PZ_CTRL (R293). -/
def execPzEnable (who : Agent) (a : Nat) (value : Word) (s : State) : Host.Outcome State Fault Refusal :=
  onBlock (fun b => match b.arrayPageOf who a 0x180 with
    | some u => b.pzCtrl u value.toNat
    | none => b) s

/-- PZ_FLUSH (R293). -/
def execPzFlush (who : Agent) (a : Nat) (s : State) : Host.Outcome State Fault Refusal :=
  onBlock (fun b => match b.arrayPageOf who a 0x180 with
    | some u => b.pzFlush u
    | none => b) s

end Sys2Proof.Machine
end

