-- ==== Sys2Proof/Machine/Ports.lean ====
section
/-!
DEFINITION. What several families need of the ports: frames as bytes, the queue a frame leaves by, credits and the replay
buffer, hop encryption of what is sent, the keys of a link or session and their limits (R406 to R414, R421, R422, R433).
-/

namespace Sys2Proof.Machine

def portPage (n : Nat) : Nat := pageOf .port n
def Block.port (b : Block) (n : Nat) : PortUnit := storeGet (fun _ => PortUnit.none) b.ports n
def Block.setPort (b : Block) (n : Nat) (x : PortUnit) : Block :=
  { b with ports := storePut (fun _ => PortUnit.none) b.ports n x }

/-- PORT_STATE.STATE: 0 DOWN, 1 TRAINING, 2 KEYING, 3 UP, 4 RETRAIN, 5 FAILED (R438). -/
def Block.portState (b : Block) (n : Nat) : Nat := b.fld (portPage n) 0x044 0 3
def Block.setPortState (b : Block) (n v : Nat) : Block := b.setFld (portPage n) 0x044 0 3 v

/-- MODE (true: Ethernet) and WIDTH in effect: as the latest training took them, or, before a first training, as PORT_CTRL has them
(R402, R438). -/
def Block.portMode (b : Block) (n : Nat) : Bool × Nat :=
  (b.port n).trained.getD (b.fld (portPage n) 0x040 1 1 == 1, b.fld (portPage n) 0x040 2 2)

/-- Whether a port is in Ethernet mode; encrypts hop by hop; is enabled (R438). -/
def Block.portEth (b : Block) (n : Nat) : Bool := (b.portMode n).1
def Block.portEnc (b : Block) (n : Nat) : Bool := b.fld (portPage n) 0x040 4 1 == 1
def Block.portOn (b : Block) (n : Nat) : Bool := b.fld (portPage n) 0x040 0 1 == 1
def Block.portUp (b : Block) (n : Nat) : Bool := b.portState n == 3

/-- The module's identifier as port `n` holds it. -/
def Block.moduleId (b : Block) (n : Nat) : Nat := b.fld (portPage n) 0x04C 0 24

/-! Frames as bytes (R412). -/

/-- The 40-byte header of a frame with `len` payload bytes. -/
def hdrBytes (h : FrameHdr) (len : Nat) : List Byte :=
  toBytes 4 (h.destMod % 2 ^ 24 + h.destPart % 64 * 2 ^ 24 + h.vc % 4 * 2 ^ 30) ++
  toBytes 4 (h.srcMod % 2 ^ 24 + h.srcPart % 64 * 2 ^ 24) ++
  toBytes 4 (h.life % 2 ^ 24 + h.kind % 4 * 2 ^ 24 + h.red % 8 * 2 ^ 26 + b2n h.last * 2 ^ 29 + b2n h.poison * 2 ^ 30 +
    b2n h.enc * 2 ^ 31) ++
  toBytes 4 ((len - 1) % 2 ^ 13 + h.epoch % 256 * 2 ^ 16) ++ toBytes 8 (h.dstAddr % 2 ^ 48) ++ toBytes 4 h.msgSeq ++
  toBytes 4 h.frameIdx ++ toBytes 8 h.frameCtr

/-- A frame as it stands on a link. -/
def frameBytes (f : Frame) : List Byte := hdrBytes f.hdr f.payload.length ++ f.payload ++ f.tag

/-- The flits a frame takes: 244 payload bytes each (R406). -/
def frameFlits (len : Nat) (enc : Bool) : Nat := ceilDiv (40 + len + (if enc then 16 else 0)) 244

/-- A list cut into parts of `k`, at most `n` of them. -/
def cutList {α : Type} (k : Nat) : Nat → List α → List (List α)
  | 0, _ => []
  | n + 1, l => if l.isEmpty then [] else l.take k :: cutList k n (l.drop k)

/-- Puts an item before the first whose key is not less. -/
def insertBy {α : Type} (key : α → Nat) (x : α) : List α → List α
  | [] => [x]
  | y :: r => if key x ≤ key y then x :: y :: r else y :: insertBy key x r

/-- A list in ascending order of a key; items of one key keep their order. -/
def sortBy {α : Type} (key : α → Nat) (xs : List α) : List α := xs.foldr (insertBy key) []

/-! Keys (R422, R433). -/

/-- A nonce: the salt and a 64-bit counter (R422, R432). -/
def nonceOf (k : KeyDir) (ctr : Nat) : List Byte := k.salt ++ toBytes 8 ctr

/-- Whether a key is at its limit: 2³² uses or one hour from its first (R433). -/
def KeyDir.spent (k : KeyDir) (now : Nat) : Bool :=
  decide (2 ^ 32 ≤ k.counter) ||
    match k.since with
    | some t => decide (t + 3600000000000 ≤ now)
    | none => false

/-- Whether a key has reached the threshold at which its successor is made: 2³² − 2²⁸ uses or 56 min 15 s (R433). -/
def KeyDir.ageing (k : KeyDir) (now : Nat) : Bool :=
  decide (2 ^ 32 - 2 ^ 28 ≤ k.counter) ||
    match k.since with
    | some t => decide (t + 3375000000000 ≤ now)
    | none => false

/-- One use of a key. -/
def KeyDir.use (k : KeyDir) (now : Nat) : KeyDir :=
  { k with counter := k.counter + 1, since := some (k.since.getD now) }

/-- Counts a send in the sender's own view of the grace window, which begins with the first send of the new epoch (R435). -/
def Keys.ownUse (k : Keys) (now graceMs graceLog : Nat) : Keys :=
  match k.prevSend, k.ownEnd with
  | some _, .none => { k with ownEnd := some (now + graceMs * 1000000), ownLeft := 2 ^ graceLog - 1 }
  | some _, some _ => { k with ownLeft := k.ownLeft - 1 }
  | .none, _ => k

/-! Sending. -/

/-- Credits of a VC that no waiting frame will take. -/
def Block.freeCredit (b : Block) (n vc : Nat) : Nat :=
  (b.port n).credit.getD vc 0 -
    (((b.port n).sendQ.filter fun s => s.frame.hdr.vc == vc).map fun s => frameFlits s.frame.payload.length (b.portEnc n)).sum

/-- Whether a frame of `len` payload bytes may enter the send queue (R411). -/
def Block.admits (b : Block) (n vc len : Nat) : Bool :=
  (b.portState n == 3 || b.portState n == 4) && !b.portEth n && frameFlits len (b.portEnc n) ≤ b.freeCredit n vc

/-- The frame as it leaves, encrypted where the port encrypts (R422, R423); none where no key may be used. -/
def Block.sealFrame (b : Block) (n : Nat) (f : Frame) : Option (Block × Frame) :=
  if !b.portEnc n then some (b, { f with hdr := { f.hdr with enc := false, epoch := 0, frameCtr := 0 }, tag := [] })
  else
    match (b.port n).keys.send with
    | none => none
    | some k =>
      if k.spent b.now then none
      else
        let h := { f.hdr with enc := true, epoch := k.epoch, frameCtr := k.counter }
        let (ct, tag) := Config.gcmSeal k.key (nonceOf k k.counter) (hdrBytes h f.payload.length) f.payload
        let x := b.port n
        let keys := x.keys.ownUse b.now (b.fld (portPage n) 0x0B4 0 16) (b.fld (portPage n) 0x0B4 16 5)
        some (b.setPort n { x with keys := { keys with send := some (k.use b.now) } }, ⟨h, ct, tag⟩)

/-- Answers the partner of a port: ACK of the last flit in order, NAK, credits by virtual channel (R406, R408, R410). -/
def Block.sendCtl (b : Block) (n : Nat) (nak : Bool) (credits : List Nat) : Block :=
  b.emit (.flit n 2 ([(b.port n).rxSeq, b2n nak] ++ credits) [])

/-- Returns the credits of a frame that has left the receive buffer of port `n`. -/
def Block.giveCredit (b : Block) (n : Nat) (f : Frame) : Block :=
  b.sendCtl n false ((List.range 4).map fun v => if v = f.hdr.vc then frameFlits f.payload.length (b.portEnc n) else 0)

/-- The credits of a frame in transit, to the port it came by. -/
def Block.leaveIngress (b : Block) (s : SendItem) : Block :=
  match s.ingress with
  | some m => b.giveCredit m s.frame
  | none => b

/-- The lifetime units a frame uses up in a module: residence and link delay in nanoseconds (R414). -/
def lifeUsed (ns : Nat) : Nat := max 1 (ceilDiv ns 8)

/-- A frame as it leaves the module: one in transit has used up lifetime (R414). -/
def SendItem.leaving (s : SendItem) (now : Nat) : Frame :=
  match s.ingress with
  | none => s.frame
  | some _ => { s.frame with hdr := { s.frame.hdr with life := s.frame.hdr.life - lifeUsed (now - s.since + s.spent) } }

/-- Puts a frame on the link: its flits take credits and enter the replay buffer (R407, R410). -/
def Block.sendNow (b : Block) (n : Nat) (s : SendItem) : Option Block :=
  let vc := s.frame.hdr.vc
  let flits := frameFlits s.frame.payload.length (b.portEnc n)
  if (b.port n).credit.getD vc 0 < flits || 512 < (b.port n).replay.length + flits then none
  else
    match b.sealFrame n (s.leaving b.now) with
    | none => none
    | some (b, f) =>
      let x := b.port n
      let parts := (cutList 244 flits (frameBytes f)).zipIdx.map fun q => ((x.txSeq + q.2) % 4096, vc, q.1)
      let b := b.setPort n { x with
        credit := x.credit.set vc (x.credit.getD vc 0 - flits), replay := x.replay ++ parts,
        txSeq := (x.txSeq + flits) % 4096 }
      let b := (b.add64 (portPage n) 0x050 1).add64 (portPage n) 0x060 f.payload.length
      let b := match s.owner with
        | some p => b.countEv p 4 n 0x1E f.payload.length
        | none => b
      some ((b.emit (.frame n (frameBytes f))).leaveIngress s)

/-- PORT_SHARE of a leaf (R479). -/
def Block.portShare (b : Block) (p : Nat) : Nat := fieldOf (b.part p).record.toNat (8 * 0x60 + 11) 11

/-- The frame that leaves next by one VC: frames in transit and the module's own go first, then the leaves by their shares, `done` being the
payload bytes each has sent so far; the frames of one leaf go in order (R483). -/
def Block.nextItem (b : Block) (n vc : Nat) (done : List (Nat × Nat)) : Option (Nat × SendItem) :=
  let mine := ((b.port n).sendQ.zipIdx.map fun q => (q.2, q.1)).filter fun q => q.2.frame.hdr.vc == vc
  let served (p : Nat) : Nat := ((done.filter fun q => q.1 == p).map Prod.snd).sum
  match turnBy b.portShare served (mine.map fun q => q.2.owner) with
  | none => none
  | some who => mine.find? fun q => q.2.owner == who

/-- Sends what may leave by one VC; no VC holds another back (R410). -/
def Block.pumpVc (b : Block) (n vc : Nat) (done : List (Nat × Nat)) : Nat → Block
  | 0 => b
  | k + 1 =>
    match b.nextItem n vc done with
    | none => b
    | some (i, s) =>
      match b.sendNow n s with
      | none => b
      | some b =>
        let done := match s.owner with
          | some p => (p, s.frame.payload.length) :: done
          | none => done
        Block.pumpVc (b.setPort n { b.port n with sendQ := (b.port n).sendQ.eraseIdx i }) n vc done k

/-- Sends what may leave a port. -/
def Block.pump (b : Block) (n : Nat) : Block :=
  if b.portUp n && !b.portEth n then
    b.each [0, 1, 2, 3] fun b vc => b.pumpVc n vc [] (b.port n).sendQ.length
  else b

/-- Queues a frame to leave by a port (R253, R411). -/
def Block.sendVia (b : Block) (n : Nat) (f : Frame) (owner ingress : Option Nat) (spent : Nat) : Block :=
  (b.setPort n { b.port n with sendQ := (b.port n).sendQ ++ [⟨f, b.now, owner, ingress, spent⟩] }).pump n

/-- Queues a frame of the module's own. -/
def Block.sendFrame (b : Block) (n : Nat) (f : Frame) (owner : Option Nat) : Block := b.sendVia n f owner none 0

/-- The next message number of a source stream (R413), used up. -/
def Block.nextMsg (b : Block) (p destMod : Nat) : Block × Nat :=
  let key := p * 2 ^ 24 + destMod
  let m := storeGet (fun _ => 0) b.msgSeq key
  ({ b with msgSeq := storePut (fun _ => 0) b.msgSeq key ((m + 1) % 2 ^ 32) }, m)

/-! The module's receive queues (R421). -/

/-- The frames that wait in receive queue `q`. -/
def Block.queue (b : Block) (q : Nat) : List Frame := storeGet (fun _ => []) b.queues q

/-- Whether receive queue `q` can take another frame. -/
def Block.queueOpen (b : Block) (q : Nat) : Bool := (b.queue q).length < Config.queueCredits q

/-- Puts a frame into a receive queue. -/
def Block.enqueue (b : Block) (q : Nat) (f : Frame) : Block := { b with queues := storePut (fun _ => []) b.queues q (b.queue q ++ [f]) }

/-- Takes the frame that waits in VC3 of port `n` first, if its queue has room. -/
def Block.fromVc3 (b : Block) (n : Nat) : Block :=
  match (b.port n).vc3 with
  | [] => b
  | s :: r =>
    if b.queueOpen s.frame.hdr.dstAddr then
      ((b.setPort n { b.port n with vc3 := r }).enqueue s.frame.hdr.dstAddr s.frame).giveCredit n s.frame
    else b

/-- A frame of queue `q` that its consumer takes; frames that waited for the room move up, lowest port first. -/
def Block.takeQueue (b : Block) (q : Nat) : Block :=
  { b with queues := storePut (fun _ => []) b.queues q ((b.queue q).drop 1) }.each (List.range 48) Block.fromVc3

end Sys2Proof.Machine
end

