-- ==== Sys2Proof/Machine/Exchange.lean ====
section
/-!
DEFINITION. What the Pruners and the Coach share: the exchange descriptor (R370), a leaf's shard, the layers in EXCHANGE (R330,
R331), draws of a stream (R62), vectors of elements and SD blocks as bytes (R54 to R57).
-/

namespace Sys2Proof.Machine

def partPage (p : Nat) : Nat := pageOf .part p
def prunerPage (k : Nat) : Nat := pageOf .pruner k
def coachPage : Nat := pageOf .coach 0

def Block.shard (b : Block) (p : Nat) : Shard := storeGet (fun _ => Shard.none) b.shards p
def Block.setShard (b : Block) (p : Nat) (x : Shard) : Block :=
  { b with shards := storePut (fun _ => Shard.none) b.shards p x }

/-- The rebuild of a leaf. -/
def Block.rebuildOf (b : Block) (p : Nat) : Rebuild := storeGet (fun _ => Rebuild.none) b.rebuilds p
def Block.setRebuild (b : Block) (p : Nat) (x : Rebuild) : Block :=
  { b with rebuilds := storePut (fun _ => Rebuild.none) b.rebuilds p x }

/-- COMMITTED_STEP of a leaf (R363). -/
def Block.committed (b : Block) (p : Nat) : Nat := b.regN (partPage p) 0x280

/-! The exchange descriptor (R370). -/

/-- Field [lo + len − 1 : lo] counted from byte `off` of a descriptor. -/
def df (d : BitVec 2048) (off lo len : Nat) : Nat := fieldOf d.toNat (8 * off + lo) len

structure Desc where
  site       : Nat
  conv       : Nat
  goOn       : Bool
  shard      : Nat
  g0         : Nat
  nblk       : Nat
  steps      : Nat
  slots      : Nat
  deadlineMs : Nat
  quorum     : Nat
  minContrib : Nat
  driftMax   : Nat
  leaderSec  : Nat
  resendMs   : Nat
  master     : Nat
  anchor     : Nat
  outerMom   : Nat
  astamp     : Nat
  stamp      : Nat
  residual   : Nat
  prev       : Nat
  rds        : Nat
  inbound    : Nat
  inboundLen : Nat
  digest     : Nat
  partners   : Nat
  rule       : Nat
  wc         : Nat
  wcScale    : Nat
  stale      : List Word
  deriving DecidableEq, Repr

/-- A field whose value 0 selects its default (R370; for D, DEDUCED from R29: D defaults to 2). -/
def orDefault (v d : Nat) : Nat := if v = 0 then d else v

def descOf (d : BitVec 2048) : Desc :=
  { site := df d 0 0 16, conv := df d 0 16 4, goOn := df d 0 20 1 == 1, shard := df d 4 0 32, g0 := df d 8 0 36,
    nblk := df d 0x10 0 27, steps := df d 0x14 0 16, slots := orDefault (df d 0x14 16 3) 2, deadlineMs := df d 0x18 0 32,
    quorum := df d 0x1C 0 9, minContrib := df d 0x1C 9 9, driftMax := orDefault (df d 0x20 0 8) 8,
    leaderSec := orDefault (df d 0x20 8 8) 20, resendMs := orDefault (df d 0x20 16 16) 200, master := df d 0x28 0 48,
    anchor := df d 0x30 0 48, outerMom := df d 0x38 0 48, astamp := df d 0x40 0 48, stamp := df d 0x48 0 48,
    residual := df d 0x50 0 48, prev := df d 0x58 0 48, rds := df d 0x60 0 48, inbound := df d 0x68 0 48,
    inboundLen := df d 0x70 0 64, digest := df d 0x78 0 48, partners := df d 0x80 0 48, rule := df d 0x88 0 48,
    wc := df d 0x90 0 48, wcScale := df d 0x98 0 48,
    stale := (List.range 16).map fun i => BitVec.ofNat 32 (df d (0xA0 + 4 * i) 0 32) }

/-- The descriptor of a leaf's shard. -/
def Block.desc (b : Block) (p : Nat) : Desc := descOf (b.shard p).desc

/-- Whether a leaf's shard is bound (R371, R389). -/
def Block.bound (b : Block) (p : Nat) : Bool := b.exchState p != 0

/-! Layers (R330, R331). The Steward's map of layers to blocks is not the module's to know: the offsets at which layers end are a
value the spec leaves open. -/

/-- The layer's blocks, as offsets in the shard, that hold offset `o`: from `lo` to before `hi`. -/
def layerAt (p nblk o : Nat) : Nat × Nat :=
  let ends := (Config.layerEnds p).filter fun e => 0 < e && e < nblk
  ((ends.filter (· ≤ o)).foldl max 0, (ends.filter (o < ·)).foldl min nblk)

/-- The layers of a shard. -/
def layerCount (p nblk : Nat) : Nat := ((Config.layerEnds p).filter fun e => 0 < e && e < nblk).eraseDups.length + 1

/-- The blocks of the layer in EXCHANGE during a rebase, as offsets: the layer some of whose blocks are rebased (R331). -/
def Block.exchangeLayer (b : Block) (p : Nat) : Option (Nat × Nat) :=
  let x := b.shard p
  let st := b.exchState p
  if st = 9 || st = 13 then
    let r := layerAt p (b.desc p).nblk x.pos
    if r.1 < x.pos && x.pos < r.2 then some r else none
  else none

/-- Whether any of the blocks [g, g + n) belongs to a layer in EXCHANGE (R332). -/
def Block.inExchange (b : Block) (p g n : Nat) : Bool :=
  match b.exchangeLayer p with
  | some (lo, hi) => let g0 := (b.desc p).g0; g < g0 + hi && g0 + lo < g + n
  | none => false

/-! Draws (R62): PRUNER[k] has stream 256 + k, the Coach 288. -/

/-- Takes `n` draws of a stream. -/
def Block.takeDraws (b : Block) (p stream n : Nat) : Block × (Nat → Nat) :=
  let at_ := storeGet (fun _ => 0) b.pdraws stream
  ({ b with pdraws := storePut (fun _ => 0) b.pdraws stream ((at_ + n) % 2 ^ 64) },
   fun i => (Config.srDraw (b.grant p).seed stream ((at_ + i) % 2 ^ 64)).toNat)

/-- The draws `n` conversions take under a CONV (R61). -/
def drawsOf (conv n : Nat) : Nat := if bitOf conv 0 then n else 0

/-! Elements and SD blocks as bytes. -/

/-- Little-endian words of `k` bytes each. -/
def unpackWords (k : Nat) (bs : List Byte) : List Nat := (cutList k (bs.length / k) bs).map ofBytes

/-- Words as little-endian bytes of `k` each. -/
def packWords (k : Nat) (ws : List Nat) : List Byte := ws.flatMap (toBytes k)

/-- Converts a vector into a format: the scale bytes of an MX format, and the elements. -/
def convVec (code conv : Nat) (draw : Nat → Nat) (vs : List FVal) : List Nat × List Conv :=
  if isMx code then
    let blocks := (cutList 32 (vs.length / 32) vs).zipIdx.map fun q => convMx code conv (fun e => draw (32 * q.2 + e)) q.1
    (blocks.map Prod.fst, blocks.flatMap Prod.snd)
  else ([], vs.zipIdx.map fun q => convScalar code conv (draw q.2) q.1)

/-- The bytes of an SD block: scale, then elements, an SD4 element in each nibble, the lower first (R54). -/
def sdBytes (bits scale : Nat) (codes : List Nat) : List Byte :=
  BitVec.ofNat 8 scale :: toBytes (4 * bits) (packBits bits codes)

/-- An SD block read from its bytes (R57). -/
def sdRead (bits : Nat) (bs : List Byte) : SdBlock :=
  decodeSd bits (ofBytes (bs.take 1)) (unpackBits bits 32 (ofBytes (bs.drop 1)))

/-- The bytes of an SD block. -/
def sdLen (bits : Nat) : Nat := 1 + 4 * bits

/-- Encodes a vector, 32 elements to an SD block: the blocks' bytes, the conversions, whether any block is marked 0xFF (R55, R56). -/
def sdEncode (bits conv : Nat) (draw : Nat → Nat) (vs : List FVal) : List Byte × List Conv × Bool :=
  let blocks := (cutList 32 (vs.length / 32) vs).zipIdx.map fun q => convSd bits conv (fun e => draw (32 * q.2 + e)) q.1
  (blocks.flatMap fun q => sdBytes bits q.1 (q.2.map (·.bits)), blocks.flatMap Prod.snd, blocks.any fun q => q.1 == 0xFF)

/-- Reads `n` SD blocks. -/
def sdDecode (bits n : Nat) (bs : List Byte) : List SdBlock := (cutList (sdLen bits) n bs).map (sdRead bits)

/-- The FP32 word of an FP32 sum, difference of values already FP32. -/
def bfWord (code : Nat) : Word := BitVec.ofNat 32 (code * 65536)

/-! Reads of several ranges. -/

/-- What a set of reads brings. -/
inductive Reads where
  | ok (bss : List (List Byte))
  | poison
  | bad (va : Nat)
  deriving DecidableEq, Repr

/-- Reads ranges in order, up to the first that does not translate; poison in any stops the reader (R234). -/
def Block.readAll (b : Block) (x : Ctx) : List (Nat × Nat) → Block × Reads
  | [] => (b, .ok [])
  | (va, n) :: r =>
    match b.readV x va n with
    | (b, .fault a) => (b, .bad a)
    | (b, .ok bs) =>
      if anyMark bs then (b, .poison)
      else match Block.readAll b x r with
        | (b, .ok bss) => (b, .ok (raw bs :: bss))
        | (b, e) => (b, e)

/-- The first address of a range that does not translate. -/
def Block.firstBad (b : Block) (x : Ctx) (wr : Bool) (va n : Nat) : Option Nat :=
  ((chunks va n).find? fun q => match b.xl x q.1 wr with
    | .dev _ => false
    | .host _ _ => false
    | _ => true).map Prod.fst

/-- The device address of a byte of a leaf's memory; 0 where it names none. -/
def Block.devAddr (b : Block) (p va : Nat) : Nat :=
  match b.xl ⟨p, none⟩ va true with
  | .dev a => a
  | _ => 0

end Sys2Proof.Machine
end

