-- ==== Sys2Proof/Machine/Pruner.lean ====
section
/-!
DEFINITION. The Pruners (R335 to R358): accumulation, the update rules, the ledger with its journal ring, deferred passes and
ledger recovery.
-/

namespace Sys2Proof.Machine

/-! The journal ring (R350, R351). -/

/-- The device address of byte `o` of the 8 MiB of the ring that PRUNER[k] owns. -/
def ringAddr (base k o : Nat) : Nat := base + o / 4096 * 131072 + k * 4096 + o % 4096

/-- The slots of a Pruner's ring, and where the header and the body of a slot and RETIRED_SEQ lie in its 8 MiB. RETIRED_SEQ's
granule follows the last header (DESIGN CHOICE). -/
def ringSlots : Nat := 1016
def headOff (seq : Nat) : Nat := seq % ringSlots * 64
def bodyOff (seq : Nat) : Nat := 65536 + seq % ringSlots * 8192
def retiredOff : Nat := 65024

/-- A journal entry (R351): the header's fields, the device addresses of the pieces (0 where unused), the old pieces and the old
stamp. -/
structure Entry where
  part  : Nat
  rule  : Nat
  step  : Nat
  g     : Nat
  addrs : List Nat
  olds  : List (List Byte)
  stamp : Nat
  deriving DecidableEq, Repr

/-- Bytes cut or filled with zeros to `n`. -/
def padTo (n : Nat) (bs : List Byte) : List Byte := (bs ++ List.replicate n 0).take n

/-- The body of an entry: old master, old MOM1, old MOM2; unused parts are zero. -/
def Entry.body (e : Entry) : List Byte :=
  padTo 4096 (e.olds.getD 0 []) ++ padTo 2048 (e.olds.getD 1 []) ++ padTo 2048 (e.olds.getD 2 [])

/-- The header of an entry but for its CRC. -/
def Entry.head (e : Entry) (seq : Nat) : List Byte :=
  toBytes 8 seq ++ toBytes 4 e.step ++ toBytes 4 (e.part % 64 + e.rule % 16 * 64) ++ toBytes 8 e.g ++
    (List.range 4).flatMap (fun i => toBytes 8 (e.addrs.getD i 0)) ++ toBytes 4 e.stamp

/-- The 64 bytes of a sealed header. -/
def Entry.sealed (e : Entry) (seq : Nat) : List Byte :=
  e.head seq ++ toBytes 4 (crc32c (e.head seq ++ e.body)).toNat

/-- Writes bytes at a device address of the deep tier for a leaf; of its invalidations only one of every entry waits for it. -/
def Block.putDeep (b : Block) (p a : Nat) (bs : List Byte) : Block :=
  ((b.put a bs false).mcWrite (some p) (2 ^ 64) a bs.length fun _ => false).countXl p (.dev a) bs.length true

/-- The journal region of a Pruner. -/
def Block.ringBase (b : Block) (k : Nat) : Nat := b.reg64 (prunerPage k) 0x048

/-- Writes an entry's body, then its header. -/
def Block.writeEntry (b : Block) (k seq : Nat) (e : Entry) : Block :=
  let at_ (o : Nat) : Nat := ringAddr (b.ringBase k) k o
  ((b.putDeep e.part (at_ (bodyOff seq)) (e.body.take 4096)).putDeep e.part (at_ (bodyOff seq + 4096)) (e.body.drop 4096)).putDeep
    e.part (at_ (headOff seq)) (e.sealed seq)

/-- The SEQ of a Pruner's next entry. NEXT_SEQ resets to 0 and the first entry's SEQ is 1 (DEDUCED from R351 and R354: RETIRED_SEQ of
0 must lie below it). -/
def Block.nextSeq (b : Block) (k : Nat) : Nat := max 1 (b.reg64 (prunerPage k) 0x058)

/-- Journals an entry as the Pruner's next (R352, step 3). -/
def Block.journal (b : Block) (k : Nat) (e : Entry) : Block :=
  let q := b.nextSeq k
  (b.writeEntry k q e).set64 (prunerPage k) 0x058 (q + 1)

/-- Writes RETIRED_SEQ (R352, step 6). -/
def Block.setRetired (b : Block) (p k seq : Nat) : Block :=
  (b.putDeep p (ringAddr (b.ringBase k) k retiredOff) (toBytes 8 seq ++ List.replicate 56 0)).set64 (prunerPage k) 0x050 seq

/-- RETIRED_SEQ, and the entries of a Pruner that are not retired. -/
def Block.retiredSeq (b : Block) (k : Nat) : Nat := b.reg64 (prunerPage k) 0x050
def Block.unretired (b : Block) (k : Nat) : Nat := b.nextSeq k - 1 - b.retiredSeq k

/-- Whether a Pruner may make another entry: it keeps at most 16 unretired (R350). -/
def Block.room (b : Block) (k : Nat) : Bool := b.unretired k < 16

/-- Whether no Pruner has an unretired entry. A pass of the Coach over many blocks starts only then, so that none of its entries waits
(DESIGN CHOICE, log 184). -/
def Block.ringsClear (b : Block) : Bool := (List.range 32).all fun k => b.unretired k == 0

/-- The SEQs of a Pruner's complete entries that an earlier, open one keeps from retiring (R352). -/
def Block.doneSeqs (b : Block) (k : Nat) : List Nat := storeGet (fun _ => []) b.prDone k
def Block.setDone (b : Block) (k : Nat) (l : List Nat) : Block := { b with prDone := storePut (fun _ => []) b.prDone k l }

/-- The last of the complete SEQs that follow `q` without a gap. -/
def lastDone (done : List Nat) : Nat → Nat → Nat
  | 0, q => q
  | n + 1, q => if done.contains (q + 1) then lastDone done n (q + 1) else q

/-- Entry `seq` of a Pruner is complete: RETIRED_SEQ advances in SEQ order (R352). -/
def Block.retireSeq (b : Block) (p k seq : Nat) : Block :=
  let done := seq :: b.doneSeqs k
  let q := lastDone done done.length (b.retiredSeq k)
  let b := b.setDone k (done.filter (q < ·))
  if q = b.retiredSeq k then b else b.setRetired p k q

/-- Retires the Pruner's latest entry. -/
def Block.retire (b : Block) (p k : Nat) : Block := b.retireSeq p k (b.nextSeq k - 1)

/-! Blocks of a carriage. -/

/-- The offset in [g0, g0 + n) of the first block of PRUNER[k], and how many of the blocks are its own (R336). -/
def firstOf (k g0 : Nat) : Nat := (k + 32 - g0 % 32) % 32
def countOf (k g0 n : Nat) : Nat := if n ≤ firstOf k g0 then 0 else (n - firstOf k g0 + 31) / 32

/-- How a block ends. -/
inductive BlockEnd where
  | done
  | poison
  | bad (va : Nat)
  deriving DecidableEq, Repr

/-- Counts a block of a Pruner (R364). -/
def Block.countBlock (b : Block) (k : Nat) : Block := b.add64 (prunerPage k) 0x060 1

/-- POISON_IN (R349). -/
def Block.poisonIn (b : Block) (p g : Nat) : Block := b.raise (prunerPage (g % 32)) 1 (some p) g

/-! ACCUM (R342, R343). -/

/-- The FP32 words of a contribution (R342). -/
def srcWords (fmt : Nat) (bs : List Byte) : List Word :=
  if fmt = 0 then (unpackWords 4 bs).map (BitVec.ofNat 32) else (unpackWords 2 bs).map bfWord

/-- Adds the squares of a block to a sum, in block order (R343). -/
def addSquares (sum : DWord) (ws : List Word) : DWord :=
  ws.foldl (fun acc w => f64Add acc (encF64 (mulV (decF32 w) (decF32 w)))) sum

/-- One block of an ACCUM. With FIRST the contribution replaces the accumulator, a NaN in it by the canonical one (R45). -/
def Block.accumBlock (b : Block) (x : Ctx) (c : PruneC) (g : Nat) : Block × BlockEnd :=
  let k := g % 32
  let acc := (pieceAddr c.accum 4096 g, 4096)
  let src := (c.src + (g - c.g0) * c.srcStride, if c.srcFmt = 0 then 4096 else 2048)
  let reads := (if c.srcEn then [src] else []) ++ (if c.srcEn && c.first then [] else [acc])
  match b.readAll x reads with
  | (b, .poison) => (b, .poison)
  | (b, .bad a) => (b, .bad a)
  | (b, .ok bss) =>
    let old := (unpackWords 4 (bss.getLastD [])).map (BitVec.ofNat 32)
    let new : List Word := if c.srcEn then
        let s := srcWords c.srcFmt (bss.getD 0 [])
        if c.first then s.map fun w => encF32 (decF32 w) else List.zipWith f32Add old s
      else old
    let (b, bad) := if c.srcEn then b.writeV x acc.1 (clean (packWords 4 (new.map (·.toNat)))) else (b, none)
    match bad with
    | some a => (b, .bad a)
    | none =>
      let r := b.run x.part
      let sum := storeGet (fun _ => 0) r.sums k
      let b := b.ifSo c.ssq fun b =>
        b.setRun x.part { r with sums := storePut (fun _ => 0) r.sums k (addSquares sum new) }
      (b.countBlock k, .done)

/-- The blocks of an ACCUM in turn, up to one that fails. -/
def Block.accumBlocks (b : Block) (x : Ctx) (c : PruneC) : Nat → Nat → Block × Nat × BlockEnd
  | 0, g => (b, g, .done)
  | n + 1, g =>
    match b.accumBlock x c g with
    | (b, .done) => Block.accumBlocks b x c n (g + 1)
    | (b, e) => (b, g, e)

/-- Ends a flight at a block that failed. -/
def Block.blockFault (b : Block) (i : Nat) (f : Flight) (g : Nat) : BlockEnd → Block
  | .done => b
  | .poison => (b.poisonIn f.part g).endFault i f
  | .bad a => b.xlateFault i f a

/-- Picks the flights of a leaf's PRUNE carriages with an OP. -/
def pruneSel (p op : Nat) (f : Flight) : Bool := f.engine == engPrune p && !f.done && (pruneOf f.word).op == op

/-- The blocks of PRUNER[k] that an ACCUM or UPDATE has left. -/
def Flight.leftOf (f : Flight) (k : Nat) : Nat :=
  let c := pruneOf f.word
  countOf k c.g0 c.nblk - f.next.getD k 0

/-- Whether a flight engages PRUNER[k] (R341): an ACCUM or UPDATE that has blocks left for it. -/
def Flight.engages (f : Flight) (k : Nat) : Bool :=
  cType f.word == 5 && (pruneOf f.word).op ≤ 1 && f.engine != engDispatch && !f.done && f.leftOf k != 0

/-- Whether flight `i` has its turn at PRUNER[k]: each engine takes the carriages that reach it in the order they came (R169, R175). -/
def Block.prunerTurn (b : Block) (i k : Nat) : Bool := !((b.flights.take i).any fun f => f.engages k)

/-- The base of the accumulator as a carriage names it. -/
def Block.noteAccum (b : Block) (p : Nat) (c : PruneC) : Block := b.setRun p { b.run p with accum := some c.accum }

/-- PRUNE_ACCUM (R342): one that replaces waits for the commit of the step before. -/
def execPruneAccum (p : Fin 64) (s : State) : Host.Outcome State Fault Refusal :=
  onBlock (fun b => b.runFlight (pruneSel p 0) fun b i f =>
    let c := pruneOf f.word
    if (c.first && b.committed p < c.step - 1) || !((List.range 32).all fun k => f.leftOf k == 0 || b.prunerTurn i k) then b
    else match (b.noteAccum p c).accumBlocks f.ctx c c.nblk c.g0 with
      | (b, _, .done) => b.setFlight i f.finish
      | (b, g, e) => b.blockFault i f g e) s

/-! The update rules (R347). -/

/-- A parameter's new values before they are stored: master (or anchor) and moments. -/
structure NewParam where
  w  : Word
  m1 : Word
  m2 : Word
  deriving DecidableEq, Repr

/-- The sign of a value, as FP32; of ±0 it is 0. -/
def signWord (v : Word) : Word :=
  match decF32 v with
  | .nan => f32Nan
  | .inf neg => if neg then 0xBF800000#32 else f32One
  | .fin neg man _ => if man = 0 then 0 else if neg then 0xBF800000#32 else f32One

/-- The gradient of R347: ACCUM × 2^G_EXP × c. -/
def RuleRec.grad (r : RuleRec) (clip a : Word) : Word := f32Mul (encF32 (scaleV r.gExp (decF32 a))) clip

/-- One parameter: `w` is its master (or anchor), `m` and `v` its moments, `a` its accumulator (or D of OUTER). -/
def RuleRec.apply (r : RuleRec) (clip w m v a : Word) : NewParam :=
  let lr := r.c 0
  let wd := r.c 1
  let b1 := r.c 2
  let b2 := r.c 3
  let g := r.grad clip a
  match r.rule with
  | 1 =>
    let m' := f32Fma b1 m (f32Mul (r.c 4) g)
    let u := if r.nesterov then f32Fma b1 m' g else m'
    ⟨f32Sub w (f32Mul lr (f32Add u (f32Mul wd w))), m', 0⟩
  | 2 =>
    let m' := f32Fma b1 m (f32Mul (r.c 4) g)
    let v' := f32Fma b2 v (f32Mul (f32Mul (r.c 5) g) g)
    let q := f32Div (f32Mul (r.c 7) m') (f32Add (f32Sqrt (f32Mul (r.c 8) v')) (r.c 6))
    ⟨f32Sub w (f32Mul lr (f32Add q (f32Mul wd w))), m', v'⟩
  | 3 =>
    let sg := signWord (f32Fma b1 m (f32Mul (r.c 4) g))
    let m' := f32Fma b2 m (f32Mul (r.c 5) g)
    ⟨f32Sub w (f32Mul lr (f32Add sg (f32Mul wd w))), m', 0⟩
  | 4 =>
    let u' := f32Fma b1 m a
    ⟨f32Add w (f32Mul lr (if r.nesterov then f32Fma b1 u' a else u')), u', 0⟩
  | _ => ⟨w, 0, 0⟩

/-- Whether a rule record is well formed (R346). -/
def RuleRec.good (r : RuleRec) : Bool :=
  r.rule ≤ 4 && [1, 3, 5].contains r.wcFmt && r.conv < 2 && !r.rsv && r.coef.all fun w => isFinV (decF32 w)

/-- The bytes of a master piece: 4 KiB of FP32, or 2 KiB of BF16 for OUTER (R337). -/
def RuleRec.masterLen (r : RuleRec) : Nat := if r.rule = 4 then 2048 else 4096

/-- The ranges a block's update reads, in order: master, moments, then ACCUM, or SRC for OUTER. -/
def pruneReads (c : PruneC) (r : RuleRec) (g : Nat) : List (Nat × Nat) :=
  [(pieceAddr c.master r.masterLen g, r.masterLen)] ++
    (if 1 ≤ r.moments then [(pieceAddr c.mom1 2048 g, 2048)] else []) ++
    (if r.moments = 2 then [(pieceAddr c.mom2 2048 g, 2048)] else []) ++
    (if r.rule = 0 then []
     else if r.rule = 4 then [(c.src + (g - c.g0) * c.srcStride, 4096)]
     else [(pieceAddr c.accum 4096 g, 4096)])

/-- The new values of a block from what was read. -/
def newBlock (r : RuleRec) (clip : Word) (bss : List (List Byte)) : List NewParam :=
  let ms := if r.rule = 4 then (unpackWords 2 (bss.getD 0 [])).map bfWord
    else (unpackWords 4 (bss.getD 0 [])).map (BitVec.ofNat 32)
  let m1 := if 1 ≤ r.moments then (unpackWords 2 (bss.getD 1 [])).map bfWord else []
  let m2 := if r.moments = 2 then (unpackWords 2 (bss.getD 2 [])).map bfWord else []
  let a := if r.rule = 0 then [] else (unpackWords 4 (bss.getLastD [])).map (BitVec.ofNat 32)
  (List.range 1024).map fun i => r.apply clip (ms.getD i 0) (m1.getD i 0) (m2.getD i 0) (a.getD i 0)

/-- A vector converted to BF16 under CONV. -/
def toBf16 (conv : Nat) (draw : Nat → Nat) (ws : List Word) : List Conv := (convVec 1 conv draw (ws.map decF32)).2

/-- The bytes of converted BF16 elements. -/
def bfBytes (cs : List Conv) : List Byte := packWords 2 (cs.map (·.bits))

/-- Whether a converted BF16 element is finite. -/
def bfFinite (c : Conv) : Bool := isFinV (decBf16 c.bits)

/-- The conversions of masters to FP32 as they are written, for the NUM counters (R74). -/
def masterConvs (ws : List Word) : List Conv := ws.map fun w => convScalar 0 0 0 (decF32 w)

/-- What an update stores of a block: bytes of master and moments, the conversions of each by format code, whether all of it is
finite; the new masters. -/
structure Stored where
  pieces : List (List Byte)
  convs  : List (Nat × List Conv)
  finite : Bool
  master : List Word
  deriving DecidableEq, Repr

/-- The stored form of new values (R347): draws go to the first moment, the second, then the anchor (DEDUCED). -/
def stored (r : RuleRec) (draw : Nat → Nat) (ps : List NewParam) : Stored :=
  let n := drawsOf r.conv 1024
  let k := r.moments
  let c1 := if 1 ≤ k then toBf16 r.conv draw (ps.map (·.m1)) else []
  let c2 := if k = 2 then toBf16 r.conv (fun i => draw (n + i)) (ps.map (·.m2)) else []
  let ws := ps.map (·.w)
  let ca := if r.rule = 4 then toBf16 r.conv (fun i => draw (n + i)) ws else []
  let cm := masterConvs ws
  { pieces := [if r.rule = 4 then bfBytes ca else packWords 4 (ws.map (·.toNat)), bfBytes c1, bfBytes c2],
    convs := (if r.rule = 4 then [(1, ca)] else [(0, cm)]) ++ (if 1 ≤ k then [(1, c1)] else []) ++ (if k = 2 then [(1, c2)] else []),
    finite := ws.all (fun w => isFinV (decF32 w)) && c1.all bfFinite && c2.all bfFinite && ca.all bfFinite,
    master := ws }

/-- The draws a block's moments and anchor take. -/
def storedDraws (r : RuleRec) : Nat := drawsOf r.conv 1024 * (r.moments + if r.rule = 4 then 1 else 0)

/-! The working copy and the shadow difference (R308, R338, R347). -/

/-- Where a block's working copy goes and in what format. -/
structure CopyTo where
  fmt   : Nat
  conv  : Nat
  wc    : Nat
  scale : Nat
  deriving DecidableEq, Repr

/-- Writes the working copy of the block at offset `j` from new masters. -/
def Block.writeCopy (b : Block) (x : Ctx) (k : Nat) (t : CopyTo) (j : Nat) (ws : List Word) : Block × Option Nat :=
  let (b, draw) := b.takeDraws x.part (256 + k) (drawsOf t.conv 1024)
  let (ss, cs) := convVec t.fmt t.conv draw (ws.map decF32)
  let b := b.countConv x.part t.fmt cs
  match b.writeV x (t.wc + j * elemBytes t.fmt 1024) (clean (packElems t.fmt (cs.map (·.bits)))) with
  | (b, some a) => (b, some a)
  | (b, none) => if isMx t.fmt then b.writeV x (t.scale + j * 32) (clean (ss.map (BitVec.ofNat 8))) else (b, none)

/-- NONFINITE_DELTA, for an SD conversion that met a value that is not finite (R56). -/
def Block.nonfiniteDelta (b : Block) (bad : Bool) (p : Nat) (g : Nat := 0) : Block :=
  b.ifSo bad fun b => b.raise coachPage 10 (some p) g

/-- Writes the shadow difference W − A of a block, 32 SD8 blocks (R338, R459); a block marked 0xFF raises NONFINITE_DELTA (R56). -/
def Block.writeShadow (b : Block) (p k conv va : Nat) (ws anchor : List Word) : Block × Option Nat :=
  let (b, draw) := b.takeDraws p (256 + k) (drawsOf conv 1024)
  let (bs, _, bad) := sdEncode 8 conv draw (List.zipWith (fun w a => decF32 (f32Sub w a)) ws anchor)
  (b.nonfiniteDelta bad p).writeV ⟨p, none⟩ va (clean bs)

/-- The shadow difference of a leaf that is bound to no shard, which has no anchor: values the spec leaves open. -/
def Block.openShadow (b : Block) (p va : Nat) : Block × Option Nat :=
  let bs := (List.range 1056).map fun i => (Config.freeValue (b.free + i)).truncate 8
  { b with free := b.free + 1056 }.writeV ⟨p, none⟩ va (clean bs)

/-- The anchor's words of block g of the leaf's shard; none where the leaf has none. -/
def Block.anchorReads (b : Block) (p g : Nat) : List (Nat × Nat) :=
  if b.bound p then [(pieceAddr (b.desc p).anchor 2048 g, 2048)] else []

/-! One block of an UPDATE (R348, R349, R352, R353). -/

/-- The writes a block makes beside its stamp, for a check of their translation before the first is made. -/
def pruneWrites (c : PruneC) (r : RuleRec) (g : Nat) : List (Nat × Nat) :=
  let j := g - c.g0
  (if r.rule = 0 then [] else [(pieceAddr c.master r.masterLen g, r.masterLen), (pieceAddr c.stamp 4 g, 4)]) ++
    (if 1 ≤ r.moments then [(pieceAddr c.mom1 2048 g, 2048)] else []) ++
    (if r.moments = 2 then [(pieceAddr c.mom2 2048 g, 2048)] else []) ++
    (if c.wcEn && r.rule != 4 then [(c.wc + j * elemBytes r.wcFmt 1024, elemBytes r.wcFmt 1024)] ++
      (if isMx r.wcFmt then [(c.wcScale + j * 32, 32)] else []) else []) ++
    (if c.shadowEn && r.rule != 4 then [(c.shadow + j * 1056, 1056)] else [])

/-- The journal entry of a block from what was read. -/
def Block.entryOf (b : Block) (p : Nat) (c : PruneC) (r : RuleRec) (g stamp : Nat) (bss : List (List Byte)) : Entry :=
  let k := r.moments
  { part := p, rule := r.rule, step := c.step, g := g,
    addrs := [b.devAddr p (pieceAddr c.master r.masterLen g), if 1 ≤ k then b.devAddr p (pieceAddr c.mom1 2048 g) else 0,
      if k = 2 then b.devAddr p (pieceAddr c.mom2 2048 g) else 0, b.devAddr p (pieceAddr c.stamp 4 g)],
    olds := [bss.getD 0 [], if 1 ≤ k then bss.getD 1 [] else [], if k = 2 then bss.getD 2 [] else []], stamp := stamp }

/-- Writes the new pieces of a block in place. -/
def Block.putPieces (b : Block) (p : Nat) (addrs : List Nat) (pieces : List (List Byte)) : Block :=
  b.each ((addrs.zip pieces).filter fun q => q.1 != 0 && !q.2.isEmpty) fun b q => b.putDeep p q.1 q.2

/-- Steps 3 to 6 of R352 for a block whose values have been computed. `st` is none for a block that stays unchanged (R348). -/
def Block.ledgerWrite (b : Block) (p k : Nat) (c : PruneC) (r : RuleRec) (e : Entry) (st : Option Stored) (anchor : Option (List Word)) :
    Block :=
  let j := e.g - c.g0
  let b := b.journal k e
  let b := match st with
    | none => b
    | some st =>
      let b := b.each st.convs fun b q => b.countConv p q.1 q.2
      let b := b.putPieces p (e.addrs.take 3) st.pieces
      let b := if c.wcEn && r.rule != 4 then (b.writeCopy ⟨p, none⟩ k ⟨r.wcFmt, r.conv, c.wc, c.wcScale⟩ j st.master).1 else b
      if c.shadowEn && r.rule != 4 then
        match anchor with
        | some a => (b.writeShadow p k r.conv (c.shadow + j * 1056) st.master a).1
        | none => (b.openShadow p (c.shadow + j * 1056)).1
      else b
  let b := (b.putDeep p (e.addrs.getD 3 0) (toBytes 4 c.step)).retire p k
  (b.add64 (partPage p) 0x290 1).countBlock k

/-- One block of rule NONE (R309, R352): only the working copy is written. -/
def Block.copyBlock (b : Block) (x : Ctx) (c : PruneC) (r : RuleRec) (g : Nat) (bss : List (List Byte)) : Block × BlockEnd :=
  let ws := (unpackWords 4 (bss.getD 0 [])).map (BitVec.ofNat 32)
  let write := c.wcEn && !(x.draft.isSome && c.deepWc)
  match (if write then b.writeCopy x (g % 32) ⟨r.wcFmt, r.conv, c.wc, c.wcScale⟩ (g - c.g0) ws else (b, none)) with
  | (b, some a) => (b, .bad a)
  | (b, none) => (b.countBlock (g % 32), .done)

/-- One block of an UPDATE of leaf `x.part`, for a draft or not. DESIGN CHOICE (log 185): a block that a non-finite value leaves unchanged
takes no draw from its Pruner's counter, for nothing of it is converted to be written (R61, R348). -/
def Block.updateBlock (b : Block) (x : Ctx) (c : PruneC) (r : RuleRec) (clip : Word) (g : Nat) : Block × BlockEnd :=
  let p := x.part
  let k := g % 32
  let anchors := if c.shadowEn && r.rule != 4 && r.rule != 0 then b.anchorReads p g else []
  match b.readAll x (if r.rule = 0 then [] else [(pieceAddr c.stamp 4 g, 4)]) with
  | (b, .poison) => (b, .poison)
  | (b, .bad a) => (b, .bad a)
  | (b, .ok sb) =>
    let stamp := ofBytes (sb.getD 0 [])
    if r.rule != 0 && stamp == c.step then ((b.add64 (partPage p) 0x298 1).countBlock k, .done)
    else match b.readAll x (anchors ++ pruneReads c r g) with
      | (b, .poison) => (b, .poison)
      | (b, .bad a) => (b, .bad a)
      | (b, .ok all) =>
        let bss := all.drop anchors.length
        if r.rule = 0 then b.copyBlock x c r g bss
        else
          let ps := newBlock r clip bss
          if x.draft.isSome then
            let fin := (stored { r with conv := 0 } (fun _ => 0) ps).finite
            if fin && c.wcEn && !c.deepWc then
              match b.writeCopy x k ⟨r.wcFmt, r.conv, c.wc, c.wcScale⟩ (g - c.g0) (ps.map (·.w)) with
              | (b, some a) => (b, .bad a)
              | (b, none) => (b.countBlock k, .done)
            else (b.countBlock k, .done)
          else match (pruneWrites c r g).findSome? fun q => b.firstBad x true q.1 q.2 with
            | some a => (b, .bad a)
            | none =>
              let anchor := if anchors.isEmpty then none else some ((unpackWords 2 (all.getD 0 [])).map bfWord)
              let (b', draw) := b.takeDraws p (256 + k) (storedDraws r)
              let st := stored r draw ps
              let e := b.entryOf p c r g stamp bss
              if st.finite then (b'.ledgerWrite p k c r e (some st) anchor, .done)
              else ((b.ledgerWrite p k c r e none anchor).raise (prunerPage k) 0 (some p) g, .done)

/-! UPDATE carriages. -/

/-- An UPDATE under way: its carriage's fields, its rule record and clip factor. -/
structure Update where
  c    : PruneC
  r    : RuleRec
  clip : Word
  deriving DecidableEq, Repr

/-- How an UPDATE starts. -/
inductive UpdateStart where
  | wait
  | fault
  | bad (va : Nat)
  | go (rule : BitVec 512) (clip : Word)
  deriving DecidableEq, Repr

/-- The start of an UPDATE: its wait (R353), its rule record (R346) and its clip factor (R347). -/
def Block.updateStart (b : Block) (x : Ctx) (c : PruneC) : Block × UpdateStart :=
  let p := x.part
  if b.committed p < c.step - 1 then (b, .wait)
  else match b.readAll x [(c.rule, 64)] with
    | (b, .bad a) => (b, .bad a)
    | (b, .poison) => (b, .fault)
    | (b, .ok bss) =>
      let bs := bss.getD 0 []
      let r := ruleOf bs
      if !r.good then (b, .fault)
      else if c.normClip && 1 ≤ r.rule && r.rule ≤ 3 then
        match b.readAll x [(b.reg64 (partPage p) 0x210 + 8, 4)] with
        | (b, .bad a) => (b, .bad a)
        | (b, .poison) => (b, .fault)
        | (b, .ok cs) =>
          let clip : Word := BitVec.ofNat 32 (ofBytes (cs.getD 0 []))
          if isNanV (decF32 clip) then (b.raisePart p 8, .fault)
          else (b, .go (BitVec.ofNat 512 (ofBytes bs)) clip)
      else (b, .go (BitVec.ofNat 512 (ofBytes bs)) (r.c 9))

/-- The rule record a flight has read. -/
def Flight.ruleRec (f : Flight) : RuleRec := ruleOf (toBytes 64 f.rule.toNat)

/-- The bases of the moments as an UPDATE names them. -/
def Block.noteMoments (b : Block) (p : Nat) (c : PruneC) (r : RuleRec) : Block :=
  if 1 ≤ r.moments && r.rule != 4 then b.setRun p { b.run p with moms := some (c.mom1, if r.moments = 2 then c.mom2 else 0) } else b

/-- Records a draft UPDATE in its draft's list (R357). -/
def Block.recordDeferred (b : Block) (f : Flight) : Block :=
  match f.ctx.draft with
  | none => b
  | some d =>
    let x := b.draft f.part d
    if 4096 ≤ x.deferred.length then b.spoil f.part d .fault
    else b.setDraft f.part d { x with deferred := x.deferred ++ [⟨f.word, none, false⟩] }

/-- Starts flight `i` if it has not started: none where it waits or has ended. -/
def Block.beginUpdate (b : Block) (i : Nat) (f : Flight) : Block × Option Flight :=
  if !f.next.isEmpty then (b, some f)
  else match b.updateStart f.ctx (pruneOf f.word) with
    | (b, .wait) => (b, none)
    | (b, .fault) => (b.endFault i f, none)
    | (b, .bad a) => (b.xlateFault i f a, none)
    | (b, .go rule clip) =>
      let f := { f with rule := rule, clip := clip, next := List.replicate 32 0 }
      (((b.noteMoments f.part (pruneOf f.word) f.ruleRec).recordDeferred f).setFlight i f, some f)

/-- PR_STATE of a Pruner (R364): RECOVER while ledger recovery of a leaf is outstanding, else RUN while it has blocks of a started UPDATE
left; and its unretired entries. -/
def Block.showPruner (b : Block) (k : Nat) : Block :=
  let busy := b.flights.any fun f => (cType f.word == 5) && !f.done && !f.next.isEmpty && f.leftOf k != 0
  let mode := if b.allLeaves.any fun p => b.fld (partPage p) 0x2A0 0 1 == 1 then 2 else b2n busy
  b.setN (prunerPage k) 0x040 (mode + 4 * min (b.unretired k) 31)

def Block.showPruners (b : Block) : Block := b.each (List.range 32) Block.showPruner

/-- The next block of PRUNER[k] of a started UPDATE. -/
def Flight.blockOf (f : Flight) (k : Nat) : Nat :=
  let c := pruneOf f.word
  c.g0 + firstOf k c.g0 + 32 * f.next.getD k 0

/-- Whether a leaf's outbox is held for the generation that closes at the end of its rebase: that generation carries committed state only
(R35), so a Pruner write of the next step into the outbox waits until the sender has read it (DEDUCED from R460 and R462, log 195). -/
def Block.outboxHeld (b : Block) (p : Nat) : Bool :=
  b.fld (partPage p) 0x600 0 1 == 1 && (b.exchState p == 9 || b.exchState p == 13)

/-- Whether a block of an UPDATE waits: its layer is in EXCHANGE (R332), it takes an entry and its ring has no room (R350), or it writes
an outbox entry that the sender has yet to read (R462). -/
def Block.passWaits (b : Block) (x : Ctx) (c : PruneC) (r : RuleRec) (g : Nat) : Bool :=
  b.inExchange x.part g 1 || (x.draft.isNone && r.rule != 0 && !b.room (g % 32)) ||
    (x.draft.isNone && c.shadowEn && 1 ≤ r.rule && r.rule ≤ 3 && b.outboxHeld x.part)

/-- Processes the next block of PRUNER[k] of a started UPDATE. -/
def Block.updateNext (b : Block) (i : Nat) (f : Flight) (k : Nat) : Block × Option Flight :=
  let g := f.blockOf k
  if b.passWaits f.ctx (pruneOf f.word) f.ruleRec g || !b.prunerTurn i k then (b, none)
  else match b.updateBlock f.ctx (pruneOf f.word) f.ruleRec f.clip g with
  | (b, .done) =>
    let f := { f with next := f.next.set k (f.next.getD k 0 + 1) }
    let f := if (List.range 32).all fun k => f.leftOf k == 0 then f.finish else f
    (b.setFlight i f, some f)
  | (b, e) => (b.blockFault i f g e, none)

/-- The blocks that are left of a started UPDATE, in ascending order of their place, but for those that wait. -/
def Block.updateRest (b : Block) (i : Nat) (f : Flight) : Nat → Block
  | 0 => b
  | n + 1 =>
    if f.done then b
    else
      let ks := (List.range 32).filter fun k => f.leftOf k != 0 && b.prunerTurn i k && !b.passWaits f.ctx (pruneOf f.word) f.ruleRec (f.blockOf k)
      match ks.find? fun k => ks.all fun j => f.blockOf k ≤ f.blockOf j with
      | none => b
      | some k =>
        match b.updateNext i f k with
        | (b, some f) => Block.updateRest b i f n
        | (b, none) => b

/-- PRUNE_UPDATE (R352): the oldest UPDATE of the leaf runs through the blocks that are left of it. -/
def execPruneUpdate (p : Fin 64) (s : State) : Host.Outcome State Fault Refusal :=
  onBlock (fun b => (b.runFlight (pruneSel p 1) fun b i f =>
    match b.beginUpdate i f with
    | (b, some f) => b.updateRest i f (pruneOf f.word).nblk
    | (b, none) => b).showPruners) s

/-- LEDGER_BLOCK (R352): PRUNER[k] takes the next block of the oldest UPDATE that has one for it, when that has its turn. -/
def execLedgerBlock (k : Fin 32) (s : State) : Host.Outcome State Fault Refusal :=
  onBlock (fun b =>
    let sel (f : Flight) : Bool := cType f.word == 5 && !f.done && (pruneOf f.word).op == 1 && f.engine != engDispatch &&
      f.leftOf k != 0
    (b.runFlight sel fun b i f =>
      match b.beginUpdate i f with
      | (b, some f) => (b.updateNext i f k).1
      | (b, none) => b).showPruners) s

/-! Deferred passes (R357). -/

/-- How a pass that belongs to no flight goes: all blocks done, stopped before a block that waits, or ended by one that failed. -/
inductive PassEnd where
  | done
  | wait (g : Nat)
  | failed
  deriving DecidableEq, Repr

/-- The blocks of a pass that belongs to no flight, from `g` on, up to one that waits or fails. -/
def Block.passBlocks (b : Block) (x : Ctx) (c : PruneC) (r : RuleRec) (clip : Word) : Nat → Nat → Block × PassEnd
  | 0, _ => (b, .done)
  | n + 1, g =>
    if b.passWaits x c r g then (b, .wait g)
    else match b.updateBlock x c r clip g with
    | (b, .done) => Block.passBlocks b x c r clip n (g + 1)
    | (b, .poison) => (b.poisonIn x.part g, .failed)
    | (b, .bad a) => (b.raisePart x.part 3 a, .failed)

/-- Takes the front of a draft's deferred list away, with its signal. -/
def Block.endDeferred (b : Block) (p d : Nat) (c : PruneC) : Block :=
  let x := b.draft p d
  let b := b.setDraft p d { x with deferred := x.deferred.drop 1 }
  b.ifSo c.deferEn fun b => b.addSem (b.semIndex p c.deferSem) 1

/-- The blocks from `g` on of the pass at the front of a draft's deferred list; one that waits keeps the pass's place. -/
def Block.runDeferred (b : Block) (p d : Nat) (q : Deferred) (rule : BitVec 512) (clip : Word) (g : Nat) : Block :=
  let c := pruneOf q.word
  match b.passBlocks ⟨p, none⟩ c (ruleOf (toBytes 64 rule.toNat)) clip (c.g0 + c.nblk - g) g with
  | (b, .wait g) =>
    let x := b.draft p d
    b.setDraft p d { x with deferred := { q with begun := some (rule, clip, g) } :: x.deferred.drop 1 }
  | (b, _) => b.endDeferred p d c

/-- DEFERRED_PASS: the next listed carriage of a committed draft runs as a non-draft UPDATE. -/
def execDeferredPass (p : Fin 64) (d : Fin 16) (s : State) : Host.Outcome State Fault Refusal :=
  onBlock (fun b =>
    match (b.draft p d).deferred with
    | [] => b
    | q :: _ =>
      let c := pruneOf q.word
      if !q.ready then b
      else match b.snoopFor p (pruneSides c (ruleOf (b.peekV p c.rule 64)) false) with
      | (b, false) => b
      | (b, true) => match q.begun with
        | some (rule, clip, g) => (b.runDeferred p d q rule clip g).showPruners
        | none =>
          match b.updateStart ⟨p, none⟩ c with
          | (b, .wait) => b
          | (b, .fault) => b.endDeferred p d c
          | (b, .bad a) => (b.raisePart p 3 a (cTag q.word)).endDeferred p d c
          | (b, .go rule clip) => (b.runDeferred p d q rule clip c.g0).showPruners) s

/-! Interruption by a reset, and ledger recovery (R354, R355). -/

/-- A header as it stands in the ring. -/
def Block.headAt (b : Block) (k seq : Nat) : List Byte := b.bytes (ringAddr (b.ringBase k) k (headOff seq)) 64

/-- The body as it stands in the ring. -/
def Block.bodyAt (b : Block) (k seq : Nat) : List Byte :=
  let at_ (o : Nat) : Nat := ringAddr (b.ringBase k) k o
  b.bytes (at_ (bodyOff seq)) 4096 ++ b.bytes (at_ (bodyOff seq + 4096)) 4096

/-- Whether a line of an entry is marked poisoned. -/
def Block.entryPoisoned (b : Block) (k seq : Nat) : Bool :=
  let at_ (o : Nat) : Nat := ringAddr (b.ringBase k) k o
  b.poisoned (at_ (headOff seq)) 64 || b.poisoned (at_ (bodyOff seq)) 4096 || b.poisoned (at_ (bodyOff seq + 4096)) 4096

/-- The entry of a SEQ, if it is sealed (R351). -/
def Block.sealedEntry (b : Block) (k seq : Nat) : Option Entry :=
  let h := b.headAt k seq
  let body := b.bodyAt k seq
  let v := ofBytes h
  let rule := fieldOf v (8 * 0x0C + 6) 4
  let len := if rule = 4 || rule = 0xE then 2048 else 4096
  if fieldOf v 0 64 = seq && fieldOf v (8 * 0x3C) 32 = (crc32c (h.take 0x3C ++ body)).toNat then
    let addrs := (List.range 4).map fun i => fieldOf v (8 * (0x18 + 8 * i)) 64
    some { part := fieldOf v (8 * 0x0C) 6, rule := rule, step := fieldOf v (8 * 8) 32, g := fieldOf v (8 * 0x10) 64,
           addrs := addrs,
           olds := [body.take len, if addrs.getD 1 0 = 0 then [] else (body.drop 4096).take 2048,
             if addrs.getD 2 0 = 0 then [] else (body.drop 6144).take 2048],
           stamp := fieldOf v (8 * 0x38) 32 }
  else none

/-- The SEQs of a Pruner that are not retired. -/
def Block.openSeqs (b : Block) (k : Nat) : List Nat := (List.range (b.unretired k)).map (b.retiredSeq k + 1 + ·)

/-- Whether a Pruner's ring lies in a failed channel (R355). -/
def Block.ringFailed (b : Block) (k : Nat) : Bool := b.fld (pageOf .deepmc k) 0x044 0 3 == 5

/-- Reads RETIRED_SEQ and the unretired entries of a ring at its controller. -/
def Block.readJournal (b : Block) (k : Nat) : Block :=
  let at_ (o : Nat) : Nat := ringAddr (b.ringBase k) k o
  (b.mcRead (at_ retiredOff) 64).each (b.openSeqs k) fun b q =>
    ((b.mcRead (at_ (headOff q)) 64).mcRead (at_ (bodyOff q)) 4096).mcRead (at_ (bodyOff q + 4096)) 4096

/-- Restores an entry (R354): the old pieces and the old stamp, then RETIRED_SEQ past it. -/
def Block.restoreEntry (b : Block) (k seq : Nat) (e : Entry) : Block :=
  let b := b.putPieces e.part (e.addrs.take 3) e.olds
  let b := b.ifSo (e.addrs.getD 3 0 != 0) fun b => b.putDeep e.part (e.addrs.getD 3 0) (toBytes 4 e.stamp)
  (b.retireSeq e.part k seq).add64 (prunerPage k) 0x068 1

/-- The leaf and the block that the header of an entry names; none where the header cannot be read. -/
def Block.headerOf (b : Block) (k seq : Nat) : Option (Nat × Nat) :=
  let h := ofBytes (b.headAt k seq)
  if b.ringFailed k || b.poisoned (ringAddr (b.ringBase k) k (headOff seq)) 64 then none
  else some (fieldOf h (8 * 0x0C) 6, fieldOf h (8 * 0x10) 64)

/-- An unretired entry that cannot be restored (R355): its block, where its header can be read, is marked lost; LEDGER_LOST, for leaf `who`;
the entry is past. -/
def Block.loseEntry (b : Block) (who : Option Nat) (k seq : Nat) : Block :=
  let h := b.headerOf k seq
  let b := { b with lost := b.lost ++ h.toList.filter fun q => !b.lost.contains q }
  (b.retireSeq (who.getD 0) k seq).raise (prunerPage k) 2 who ((h.map Prod.snd).getD 0) 0 (if who.isNone then b.allLeaves else [])

/-- Whether an unretired entry is lost to leaf `p`: it cannot be read, and no header says that it is another leaf's. -/
def Block.entryLost (b : Block) (p k seq : Nat) : Bool :=
  (b.ringFailed k || b.entryPoisoned k seq) && (b.headerOf k seq).all fun q => q.1 == p

/-- Ledger recovery of one Pruner (R354, R355, R387): the entries `want` picks are restored; those `past` picks and unsealed ones need nothing
more. -/
def Block.recoverPruner (b : Block) (p k : Nat) (want past : Entry → Bool) : Block :=
  let seqs := b.openSeqs k
  let b := if seqs.isEmpty || b.ringFailed k then b else b.readJournal k
  let lost := seqs.filter (b.entryLost p k)
  let ours (f : Entry → Bool) : List (Nat × Entry) := seqs.filterMap fun q =>
    if b.ringFailed k || b.entryPoisoned k q then none
    else (b.sealedEntry k q).bind fun e => if f e then some (q, e) else none
  let mine := ours want
  let unsealed := seqs.filter fun q => !b.ringFailed k && !b.entryPoisoned k q && (b.sealedEntry k q).isNone
  let spent := (ours past).map Prod.fst ++ unsealed
  let b := b.each lost fun b q => (b.loseEntry (some p) k q).openRec .deviceLost
  let b := b.each mine fun b q => b.restoreEntry k q.1 q.2
  let b := b.each spent fun b q => b.retireSeq p k q
  b.ifSo (!mine.isEmpty) fun b => b.raise (prunerPage k) 3 (some p) mine.length

/-- The DEVICE recovery with the memory kept ends once ledger and Coach recovery are done for every leaf (R470). -/
def Block.endDevice (b : Block) : Block :=
  if b.allLeaves.all fun p => b.fld (partPage p) 0x2A0 0 1 == 0 && !(b.shard p).recovering then b.closeRec .deviceKept else b

/-- LEDGER_RECOVERY of a leaf (R354, R363, R503). An entry of a step that has committed needs nothing more; the Coach's own are left to
COACH_RECOVERY while the leaf is bound. -/
def execLedgerRecovery (p : Fin 64) (s : State) : Host.Outcome State Fault Refusal :=
  onBlock (fun b =>
    if b.fld (partPage p) 0x2A0 0 1 = 0 then b
    else
      let ahead (e : Entry) : Bool := decide (b.committed p < e.step)
      let want (e : Entry) : Bool := e.part == p.val && ahead e
      let past (e : Entry) : Bool := e.part == p.val && !ahead e && (e.rule ≤ 3 || !b.bound p)
      let b := (b.each (List.range 32) fun b k => b.recoverPruner p k want past).setN (partPage p) 0x2A0 2
      (b.ifSo (b.resetting p) fun b => b.setFld (partPage p) 0x0C0 0 3 2).endDevice.showPruners) s

/-- Mixes new bytes into a range granule by granule, each by a value the spec leaves open. -/
def Block.mixInto (b : Block) (a : Nat) (new : List Byte) : Block :=
  let v := Config.freeValue b.free
  let b := b.tick
  b.each ((cutList 64 (new.length / 64) new).zipIdx) fun b q => if v.getLsbD q.2 then b.put (a + 64 * q.2) q.1 false else b

/-- A reset that finds PRUNER[k] at its next block of an UPDATE (R354): how far the entry, the writes in place and the stamp had come
is left open. -/
def Block.interrupt (b : Block) (f : Flight) (k : Nat) : Block :=
  let c := pruneOf f.word
  let r := f.ruleRec
  let x : Ctx := ⟨f.part, none⟩
  let g := c.g0 + firstOf k c.g0 + 32 * f.next.getD k 0
  if f.ctx.draft.isSome || f.next.isEmpty || f.leftOf k = 0 || r.rule = 0 || b.passWaits x c r g then b
  else match (b.readAll x (pruneReads c r g)).2, (b.readAll x [(pieceAddr c.stamp 4 g, 4)]).2 with
    | .ok bss, .ok sb =>
      let stamp := ofBytes (sb.getD 0 [])
      if stamp = c.step then b
      else
        let far := (Config.freeValue b.free).toNat
        let b := b.tick
        let e := b.entryOf f.part c r g stamp bss
        let q := b.nextSeq k
        let at_ (o : Nat) : Nat := ringAddr (b.ringBase k) k o
        if far % 4 = 0 then b
        else if far % 4 = 1 then b.put (at_ (bodyOff q)) (e.body.take (far / 4 % 64 * 64)) false
        else
          let (b, draw) := b.takeDraws f.part (256 + k) (storedDraws r)
          let st := stored r draw (newBlock r f.clip bss)
          let b := b.journal k e
          let news := if st.finite then (e.addrs.take 3).zip st.pieces else []
          let b := b.each (news.filter fun q => q.1 != 0) fun b q =>
            if far % 4 = 2 then b.mixInto q.1 q.2 else b.put q.1 q.2 false
          b.ifSo (far % 4 == 3 && bitOf far 10) fun b => b.put (e.addrs.getD 3 0) (toBytes 4 c.step) false
    | _, _ => b

/-- The interruption of all Pruners at the flights `sel` picks. -/
def Block.interruptAll (b : Block) (sel : Flight → Bool) : Block :=
  b.each (List.range 32) fun b k =>
    match b.flights.find? fun f => sel f && cType f.word == 5 && (pruneOf f.word).op == 1 && f.leftOf k != 0 with
    | some f => b.interrupt f k
    | none => b

end Sys2Proof.Machine
end

