-- ==== Sys2Proof/Machine/Steps.lean ====
section
/-!
DEFINITION. The step of a leaf (R313 to R334): the step registers, the health snapshot, the norm tree (R321 to R324, R344, R453)
and the commit barrier up to the write of the commit record (R359 to R362).
-/

namespace Sys2Proof.Machine

/-! The step registers (R333, R334). -/

/-- Sets a leaf's semaphore bases to what the named semaphores hold (R334). -/
def Block.setBases (b : Block) (p : Nat) : Block :=
  let v := b.govern p 0x208
  let r := b.run p
  b.setRun p { r with fwdBase := b.sem (b.semIndex p (fieldOf v 0 14)), bwdBase := b.sem (b.semIndex p (fieldOf v 16 14)) }

/-- Whether a write to a step register waits for the commit (R334). -/
def Block.stepDeferred (b : Block) (p off : Nat) : Bool :=
  if off = 0x204 || off = 0x208 then b.phase p != 0
  else (off = 0x200 || off = 0x20C || off = 0x21C || off = 0x224) && b.phase p == 4

/-- The step registers' offsets that a write reaches (R333). -/
def stepOffsets : List Nat :=
  [0x200, 0x204, 0x208, 0x20C, 0x210, 0x214, 0x218, 0x21C, 0x220, 0x224, 0x22C, 0x264]

/-- A word written to a step register. -/
def Block.stepWord (b : Block) (p off v : Nat) : Block :=
  if !stepOffsets.contains off then b
  else
    let page := partPage p
    let m := match regWordAt .part p off with
      | some w => halfMask w w.row.rw
      | none => 0
    let old := b.regN page off
    let new := legalStep (b.grant p).semCount off old ((old &&& (2 ^ 32 - 1 - m % 2 ^ 32)) ||| (v &&& m % 2 ^ 32))
    if b.stepDeferred p off then
      let r := b.run p
      let b := if r.gov.any fun q => q.1 == off then b else b.setRun p { r with gov := r.gov ++ [(off, old)] }
      b.setN page off new
    else
      let b := b.setN page off new
      b.ifSo ((off == 0x204 && old == 0 && new != 0) || (off == 0x208 && old != new)) fun b => b.setBases p

/-- The words of a register write from `off` on. -/
def Block.stepWords (b : Block) (p off : Nat) : Nat → Nat → Block
  | 0, _ => b
  | n + 1, v => Block.stepWords (b.stepWord p off (v % 2 ^ 32)) p (off + 4) n (v / 2 ^ 32)

/-- STEP_REG_WRITE (R334). -/
def execStepRegWrite (who : Agent) (p : Fin 64) (off width : Nat) (value : DWord) (s : State) : Host.Outcome State Fault Refusal :=
  onBlock (fun b =>
    match b.pageRef who (partPage p) with
    | .page _ =>
      if !goodWidth off width || !b.mayWrite who .part p off || (width == 8 && b.wideReserved .part p off value.toNat) then b
      else b.stepWords p off (width / 4) value.toNat
    | _ => b) s

/-- NUM_SNAP (R78). -/
def execNumSnap (who : Agent) (p : Fin 64) (s : State) : Host.Outcome State Fault Refusal :=
  onBlock (fun b =>
    match b.pageRef who (pageOf .perf p) with
    | .page _ => b.ifSo (b.mayWrite who .perf p 0x3F0) fun b => b.numSnap p
    | _ => b) s

/-! The norm tree (R321): a module's membership, its place as the root, the number of its children and its parent are those of its own
STEP_CTRL and NORM_PARENT. -/

/-- The step a leaf works on (DEDUCED from R359: a BARRIER commits COMMITTED_STEP + 1). -/
def Block.stepNow (b : Block) (p : Nat) : Nat := b.committed p + 1

def Block.normEn (b : Block) (p : Nat) : Bool := bitOf (b.govern p 0x200) 0
def Block.isRoot (b : Block) (p : Nat) : Bool := bitOf (b.govern p 0x200) 1
def Block.childCount (b : Block) (p : Nat) : Nat := fieldOf (b.govern p 0x200) 2 4
def Block.normParent (b : Block) (p : Nat) : Nat := fieldOf (b.govern p 0x20C) 0 24

/-- NORM_TIMEOUT in nanoseconds. -/
def Block.normLimit (b : Block) (p : Nat) : Nat := b.fld (partPage p) 0x220 0 16 * 1000000

def Block.setNorm (b : Block) (p : Nat) (u : NormUnit) : Block := b.setRun p { b.run p with norm := u }
def Block.setBarrier (b : Block) (p : Nat) (u : Barrier) : Block := b.setRun p { b.run p with barrier := u }

/-- The messages of the norm and commit unit (R322, R323, R359, R391): value, record, READY, COMMIT, HOLD. -/
def msgNormValue : Nat := 1
def msgNormRecord : Nat := 2
def msgReady : Nat := 3
def msgCommit : Nat := 4
def msgHold : Nat := 5

/-- The children a norm unit has heard from, in the order they came. -/
def NormUnit.children (u : NormUnit) : List Nat := u.terms.filterMap Prod.fst

/-- The sum of a norm unit's values in the order they came (R322). -/
def NormUnit.sum (u : NormUnit) : DWord :=
  match u.terms with
  | [] => 0
  | t :: r => r.foldl (fun acc q => f64Add acc q.2) t.2

/-- Whether a norm unit has its own value and every child's. -/
def Block.normWhole (b : Block) (p : Nat) : Bool :=
  let u := (b.run p).norm
  (u.terms.any fun q => q.1.isNone) && u.children.length == b.childCount p

/-- The norm record of a sum (R323): N, c and PRED, and whether NORM_NONFINITE is raised. -/
def normRecord (sum : DWord) (gradExp : Int) (clipMax : Word) : (DWord × Word × Word) × Bool :=
  let n := encF64 (sqrtV (scaleV (-2 * gradExp) (decF64 sum)))
  let v := decF64 n
  if isNanV v || isInfV v then ((n, f32Nan, 0), true)
  else if ltV (decF32 clipMax) v then ((n, encF32 (divV (decF32 clipMax) v), 0), false)
  else ((n, f32One, f32One), false)

/-- The 16 bytes of a norm record. -/
def recordBytes (r : DWord × Word × Word) : List Byte :=
  toBytes 8 r.1.toNat ++ toBytes 4 r.2.1.toNat ++ toBytes 4 r.2.2.toNat

/-- Sends the record of a step to children. -/
def Block.sendRecord (b : Block) (dests : List Nat) (step : Nat) (r : DWord × Word × Word) : Block :=
  b.each dests fun b d => b.emit (.queueMsg msgNormRecord d [step, r.1.toNat, r.2.1.toNat, r.2.2.toNat])

/-- A module takes the record of the current step (R323): NORM_ADDR, then NORM_SEM; LAST_NORM; the record to its children. -/
def Block.takeRecord (b : Block) (p : Nat) (r : DWord × Word × Word) : Block :=
  let page := partPage p
  let va := b.reg64 page 0x210
  let b := match b.firstBad ⟨p, none⟩ true va 16 with
    | some a => b.raisePart p 3 a
    | none => (b.writeV ⟨p, none⟩ va (clean (recordBytes r))).1.addSem (b.semIndex p (b.fld page 0x218 0 14)) 1
  let b := b.set64 page 0x258 r.1.toNat
  let u := (b.run p).norm
  (b.setNorm p { u with record := some r }).sendRecord u.children (b.stepNow p) r

/-- The root forms the record once it has every value (R323). -/
def Block.formRecord (b : Block) (p : Nat) : Block :=
  let u := (b.run p).norm
  if b.normEn p && b.isRoot p && b.normWhole p && u.record.isNone then
    let r := normRecord u.sum (signedOf 8 (fieldOf (b.govern p 0x224) 0 8)) (BitVec.ofNat 32 (b.govern p 0x21C))
    (b.ifSo r.2 fun b => b.raisePart p 6).takeRecord p r.1
  else b

/-- NORM_CLOSE (R344, R637). -/
def execNormClose (p : Fin 64) (s : State) : Host.Outcome State Fault Refusal :=
  onBlock (fun b => b.runFlight (pruneSel p 2) fun b i f =>
    if (b.flights.take i).any fun q => pruneSel p 0 q then b
    else
      let r := b.run p
      let total := (List.range 32).foldl (fun acc k => f64Add acc (storeGet (fun _ => 0) r.sums k)) 0
      let takes := b.normEn p && (pruneOf f.word).step == b.stepNow p && !(r.norm.terms.any fun q => q.1.isNone)
      let u := if takes then { r.norm with terms := r.norm.terms ++ [(none, total)], closedAt := some b.now } else r.norm
      let b := b.set64 (partPage p) 0x288 total.toNat
      (b.setRun p { r with sums := [], norm := u }).setFlight i f.finish) s

/-- NORM_SEND (R322, R453): the sum goes up once it is whole, and again after a NORM_TIMEOUT; the root forms its record, or sends it
again. -/
def execNormSend (p : Fin 64) (s : State) : Host.Outcome State Fault Refusal :=
  onBlock (fun b =>
    let u := (b.run p).norm
    if !b.normEn p || !b.normWhole p then b
    else if b.isRoot p then
      match u.record with
      | some r => b.sendRecord u.children (b.stepNow p) r
      | none => b.formRecord p
    else if u.record.isSome || (u.sentAt.isSome && !(b.run p).toldNorm && !(b.run p).toldRec) then b
    else (b.setNorm p { u with sentAt := some (u.sentAt.getD b.now) }).emit
      (.queueMsg msgNormValue (b.normParent p) [b.stepNow p, u.sum.toNat])) s

/-- NORM_VALUE_RECEIVED (R322, R453): a child's value is taken once; a repeat is answered. -/
def execNormValueReceived (p : Fin 64) (src : Nat) (step : Word) (value : DWord) (s : State) : Host.Outcome State Fault Refusal :=
  onBlock (fun b =>
    let b := b.takeQueue 1
    let u := (b.run p).norm
    if !b.normEn p || step.toNat != b.stepNow p then b
    else if u.children.contains src then
      match u.record with
      | some r => b.sendRecord [src] (b.stepNow p) r
      | none =>
        if u.sentAt.isSome then b.emit (.queueMsg msgNormValue (b.normParent p) [b.stepNow p, u.sum.toNat]) else b
    else if b.childCount p ≤ u.children.length then b
    else (b.setNorm p { u with terms := u.terms ++ [(some src, value)] }).formRecord p) s

/-- NORM_RECORD_RECEIVED (R323, R453). -/
def execNormRecordReceived (p : Fin 64) (step : Word) (n : DWord) (c pred : Word) (s : State) : Host.Outcome State Fault Refusal :=
  onBlock (fun b =>
    let b := b.takeQueue 1
    if !b.normEn p || b.isRoot p || step.toNat != b.stepNow p || (b.run p).norm.record.isSome then b
    else b.takeRecord p (n, c, pred)) s

/-- Whether a time-out has run from an instant. -/
def Block.overdue (b : Block) (p : Nat) (since : Option Nat) : Bool :=
  match since with
  | some t => decide (t + b.normLimit p ≤ b.now)
  | none => false

/-- NORM_TIMEOUT (R324), once in a step for each of its two cases: argument 0 where children's values are missing, 1 where the record is. -/
def execNormTimeout (p : Fin 64) (s : State) : Host.Outcome State Fault Refusal :=
  onBlock (fun b =>
    let r := b.run p
    let values := b.overdue p r.norm.closedAt && r.norm.children.length < b.childCount p
    let record := b.overdue p r.norm.sentAt && r.norm.record.isNone
    if values && !r.toldNorm then (b.setRun p { r with toldNorm := true }).raisePart p 5 (b.stepNow p) 0
    else if record && !r.toldRec then (b.setRun p { r with toldRec := true }).raisePart p 5 (b.stepNow p) 1
    else b) s

/-! The commit barrier. -/

/-- BARRIER_STATE (R363). -/
def Block.setBarrierState (b : Block) (p v : Nat) : Block := b.setFld (partPage p) 0x284 0 2 v

/-- BARRIER (R359): opens at the leaf's oldest BARRIER carriage. -/
def execBarrier (p : Fin 64) (s : State) : Host.Outcome State Fault Refusal :=
  onBlock (fun b => b.runFlight (pruneSel p 3) fun b i f =>
    let u := (b.run p).barrier
    if u.word.isSome then b
    else ((b.setFlight i f).setBarrier p { u with word := some f.word, chan := f.chan }).setBarrierState p 1) s

/-- Whether a Pruner's ring holds an entry of a step of the leaf that is not retired. -/
def Block.entryOpen (b : Block) (p k step : Nat) : Bool :=
  b.unretired k != 0 && (b.openSeqs k).any fun q => match b.sealedEntry k q with
    | some e => e.part == p && e.step == step
    | none => false

/-- The four conditions of R359; with NOUPDATE only the last (R362). A deferred pass of an undecided draft counts (DEDUCED from
R39: a step whose update is a draft has not committed). -/
def Block.barrierMet (b : Block) (p : Nat) (w : Carriage) : Bool :=
  let c := pruneOf w
  let before := match b.flights.findIdx? fun f => pruneSel p 3 f && f.word == w with
    | some i => b.flights.take i
    | none => b.flights
  b.stepNow p == c.step &&
    (c.noUpdate ||
      (!(before.any (pruneSel p 1)) &&
        !((List.range 16).any fun d => (b.draft p d).deferred.any fun q => (pruneOf q.word).step == c.step) &&
        !((List.range 32).any fun k => b.entryOpen p k c.step)))

/-- Begins the commit: the commit record is written in the deep tier (R359, step 1). -/
def Block.startCommit (b : Block) (p : Nat) : Block :=
  let step := b.stepNow p
  let b := b.putDeep p (b.grant p).commitRec (toBytes 4 step)
  (b.setBarrier p { (b.run p).barrier with record := some step }).setBarrierState p 2

/-- Sends COMMIT of a step to modules. -/
def Block.sendCommit (b : Block) (dests : List Nat) (step : Nat) : Block :=
  b.each dests fun b d => b.emit (.queueMsg msgCommit d [step])

/-- READY goes up, or the root's COMMIT down, once every child is ready (R359). -/
def Block.tryReady (b : Block) (p : Nat) : Block :=
  let u := (b.run p).barrier
  if !u.own || u.record.isSome then b
  else if !b.normEn p then b.startCommit p
  else if u.ready.length < b.childCount p then b
  else if b.isRoot p then (b.sendCommit u.ready (b.stepNow p)).startCommit p
  else if u.sentAt.isSome && !(b.run p).toldStep then b
  else ((b.setBarrier p { u with sentAt := some (u.sentAt.getD b.now) }).setBarrierState p 2).emit
    (.queueMsg msgReady (b.normParent p) [b.stepNow p])

/-- BARRIER_READY (R359, R361, R637). At the root the wait for the children runs from here (R360). -/
def execBarrierReady (p : Fin 64) (s : State) : Host.Outcome State Fault Refusal :=
  onBlock (fun b =>
    let u := (b.run p).barrier
    match u.word with
    | none => b
    | some w =>
      if !u.own && !b.barrierMet p w then b
      else
        let b := b.setBarrier p { u with own := true, sentAt := if b.isRoot p then some (u.sentAt.getD b.now) else u.sentAt }
        (b.setBarrierState p 2).tryReady p) s

/-- READY_RECEIVED (R359, R453). -/
def execReadyReceived (p : Fin 64) (src : Nat) (step : Word) (s : State) : Host.Outcome State Fault Refusal :=
  onBlock (fun b =>
    let b := b.takeQueue 1
    let u := (b.run p).barrier
    if !b.normEn p then b
    else if step.toNat ≤ b.committed p then (b.ifSo (step != 0) fun b => b.sendCommit [src] step.toNat)
    else if step.toNat != b.stepNow p then b
    else if u.ready.contains src then
      if u.sentAt.isSome && !b.isRoot p then b.emit (.queueMsg msgReady (b.normParent p) [b.stepNow p]) else b
    else if b.childCount p ≤ u.ready.length then b
    else (b.setBarrier p { u with ready := u.ready ++ [src] }).tryReady p) s

/-- STEP_COMMIT_RECEIVED (R359, R453): COMMIT is passed down, and the commit record is written. -/
def execStepCommitReceived (p : Fin 64) (step : Word) (s : State) : Host.Outcome State Fault Refusal :=
  onBlock (fun b =>
    let b := b.takeQueue 1
    let u := (b.run p).barrier
    if !b.normEn p || b.isRoot p || step.toNat != b.stepNow p || u.sentAt.isNone || u.record.isSome then b
    else (b.sendCommit u.ready (b.stepNow p)).startCommit p) s

/-- COMMIT_TIMEOUT (R360): argument 0 at the root, which awaits READY of children, 1 where COMMIT is awaited (R598). -/
def execCommitTimeout (p : Fin 64) (s : State) : Host.Outcome State Fault Refusal :=
  onBlock (fun b =>
    let r := b.run p
    let missing := r.barrier.record.isNone && (!b.isRoot p || r.barrier.ready.length < b.childCount p)
    if r.toldStep || !b.normEn p || !missing || !b.overdue p r.barrier.sentAt then b
    else (b.setRun p { r with toldStep := true }).raisePart p 13 (b.stepNow p) (b2n (!b.isRoot p))) s

end Sys2Proof.Machine
end

