-- ==== Sys2Proof/Machine/Coach.lean ====
section
/-!
DEFINITION. The Coach (R365 to R378, R389 to R391): binding, the mark with its delta pass, chunks and their acknowledgement, the
opening and the close of a round, leaders and their time-outs. Siori messages go out with the session, epoch and counter they are
sent under (R432).
-/

namespace Sys2Proof.Machine

/-! Partners, sessions and flows (R367, R428). -/

structure Partner where
  site    : Nat
  valid   : Bool
  udp     : Nat
  session : Nat
  addr    : List Byte
  keyHash : List Byte
  deriving DecidableEq, Repr

/-- A partner table entry (R367). -/
def partnerOf (w : BitVec 512) : Partner :=
  let bs := toBytes 64 w.toNat
  { site := fieldOf w.toNat 0 16, valid := bitOf w.toNat 16, udp := fieldOf w.toNat 32 16, session := fieldOf w.toNat 48 8,
    addr := (bs.drop 8).take 16, keyHash := (bs.drop 32).take 32 }

/-- The counterparts of a leaf's shard. -/
def Block.partnersOf (b : Block) (p : Nat) : List Partner := ((b.shard p).partners.map partnerOf).filter (·.valid)

/-- The counterpart of a site. -/
def Block.partnerAt (b : Block) (p site : Nat) : Option Partner := (b.partnersOf p).find? fun q => q.site == site

def Block.session (b : Block) (i : Nat) : Keys := storeGet (fun _ => Keys.none) b.sessions i
def Block.setSession (b : Block) (i : Nat) (k : Keys) : Block :=
  { b with sessions := storePut (fun _ => Keys.none) b.sessions i k }

def Block.flow (b : Block) (i : Nat) : Flow := storeGet (fun _ => Flow.none) b.flows i
def Block.setFlow (b : Block) (i : Nat) (f : Flow) : Block := { b with flows := storePut (fun _ => Flow.none) b.flows i f }

/-- Whether a flow can send: in use, on an Ethernet-mode port that is up (R425, R428). -/
def Block.flowUp (b : Block) (f : Flow) : Bool := f.used && b.portEth f.fields.port && b.portUp f.fields.port

/-- Whether a session has a flow that can send. -/
def Block.sessionUp (b : Block) (i : Nat) : Bool := b.flows.any fun q => q.2.fields.session == i && b.flowUp q.2

/-- GRACE_MS and log₂ GRACE_FRAMES of end-to-end sessions (R437). -/
def Block.graceMs (b : Block) : Nat := b.fld coachPage 0x060 0 16
def Block.graceLog (b : Block) : Nat := b.fld coachPage 0x060 16 5

/-! Sending (R397, R432, R433). -/

/-- The codes of the Siori messages (R398). -/
def mOpen : Nat := 1
def mHello : Nat := 2
def mChunk : Nat := 3
def mAck : Nat := 4
def mClose : Nat := 5
def mManifest : Nat := 6
def mBody : Nat := 7
def mDigestReq : Nat := 8
def mDigestResp : Nat := 9
def mBlockReq : Nat := 10
def mBlockData : Nat := 11

/-! The exchange state (R389, R399). -/

def Block.setExch (b : Block) (p v : Nat) : Block := b.setFld (partPage p) 0x300 0 4 v
def Block.round (b : Block) (p : Nat) : Nat := b.regN (partPage p) 0x304
def Block.anchorRound (b : Block) (p : Nat) : Nat := b.regN (partPage p) 0x308
def Block.coachEvent (b : Block) (p bit : Nat) (arg0 arg1 : Nat := 0) : Block := b.raise coachPage bit (some p) arg0 arg1
def Block.lag (b : Block) (p : Nat) : Nat := b.round p - b.anchorRound p

/-- The segments of a shard, and the blocks of segment `s` (R366). -/
def Desc.nseg (d : Desc) : Nat := ceilDiv d.nblk 1024
def Desc.segLen (d : Desc) (s : Nat) : Nat := min 1024 (d.nblk - 1024 * s)

/-- The leader of round `r` (R368, R390); 0 where no order is known. -/
def Block.leaderOf (b : Block) (p r : Nat) : Nat :=
  let x := b.shard p
  if x.order.isEmpty then 0 else x.order.getD (((b.desc p).shard + r + x.turn) % x.order.length) 0

/-! Messages as bytes, lowest byte first (R9, R397, R398). -/

/-- The fields at the start of a message's body. -/
def bodyHead (type_ : Nat) (fs : List Nat) : List Byte :=
  let f (i : Nat) : Nat := fs.getD i 0
  match type_ with
  | 1 => toBytes 8 (f 0) ++ toBytes 4 (f 1 % 512 + f 2 % 2 * 512) ++ toBytes 4 (f 3)
  | 2 => toBytes 4 (f 0) ++ toBytes 4 (f 1) ++ toBytes 4 (f 2) ++ toBytes 4 (f 3)
  | 3 => toBytes 4 (f 0) ++ toBytes 4 (f 1) ++ toBytes 4 (f 2 % 256 + f 3 % 256 * 256 + f 4 % 2 * 65536) ++ toBytes 4 (f 5) ++
      toBytes 4 (f 6) ++ toBytes 4 0
  | 4 => fs.flatMap (toBytes 4)
  | 5 => toBytes 4 (f 0) ++ toBytes 4 (f 1)
  | 6 => toBytes 4 (f 1 % 256 + f 2 % 256 * 256) ++ toBytes 4 (f 3)
  | 7 => toBytes 4 (f 0) ++ toBytes 4 (f 1 % 256 + f 2 % 256 * 256) ++ toBytes 4 (f 3)
  | 8 => toBytes 4 (f 0) ++ toBytes 4 (f 1)
  | 9 => toBytes 4 (f 0) ++ toBytes 4 (f 1) ++ toBytes 4 (f 2)
  | 10 => toBytes 8 (f 0) ++ toBytes 4 (f 1)
  | _ => toBytes 8 (f 0) ++ toBytes 8 (f 1)

/-- The 24 bytes of a message's header (R397). -/
def SHdr.bytes (h : SHdr) : List Byte :=
  toBytes 4 (h.type_ % 256 + h.version % 16 * 2 ^ 8 + h.rsv % 16 * 2 ^ 12 + h.srcSite % 65536 * 2 ^ 16) ++ toBytes 4 h.dstSite ++
    toBytes 4 h.shard ++ toBytes 4 h.round ++ toBytes 4 h.length ++ toBytes 4 0

/-- The header that 24 bytes spell; `rsv` gathers the reserved fields. -/
def shdrOf (bs : List Byte) : SHdr :=
  let v := ofBytes bs
  { type_ := fieldOf v 0 8, version := fieldOf v 8 4, rsv := fieldOf v 12 4 + fieldOf v 48 16 + fieldOf v 160 32,
    srcSite := fieldOf v 16 16, dstSite := fieldOf v 32 16, shard := fieldOf v 64 32, round := fieldOf v 96 32,
    length := fieldOf v 128 32 }

/-- A message as its bytes. Type 0 is the notice of a STALE_EPOCH envelope, the refused epoch and counter, each of 8 bytes (DESIGN CHOICE,
log 196: R436 gives its content and no layout). -/
def Block.mailBytes (b : Block) (m : Mail) : List Byte :=
  let d := b.desc m.part
  if m.type_ = 0 then bodyHead 0 m.fields
  else
    (SHdr.bytes ⟨m.type_, 1, 0, d.site, m.site, d.shard, m.round, m.len⟩) ++ bodyHead m.type_ m.fields ++
      if m.type_ = mOpen || m.type_ = mHello then padTo 32 m.bytes else m.bytes

/-- The header of an envelope (R432). -/
def envHead (etype epoch id ctr : Nat) : List Byte :=
  toBytes 4 (etype % 256 + epoch % 256 * 2 ^ 8) ++ toBytes 4 id ++ toBytes 8 ctr

/-- The key of an epoch that a session still sends under. -/
def Keys.sentUnder (k : Keys) (epoch : Nat) : Option KeyDir := [k.send, k.prevSend].findSome? fun d => d.filter fun d => d.epoch == epoch

/-- A message in its envelope: header, ciphertext, tag. -/
def Block.seal (b : Block) (m : Mail) (epoch ctr : Nat) : Packet :=
  let k := b.session m.session
  let head := envHead (if m.type_ = 0 then 2 else 1) epoch k.idOut ctr
  let body := match k.sentUnder epoch with
    | some d =>
      let r := Config.gcmSeal d.key (nonceOf d ctr) head (b.mailBytes m)
      r.1 ++ r.2
    | none => []
  ⟨m, epoch, ctr, head ++ body⟩

/-! Packets (R9, R428, R429). The headers of UDP and IP are in network byte order; what of them the spec gives no value for is left
open. -/

/-- A number in network byte order. -/
def netBytes (n v : Nat) : List Byte := (toBytes n v).reverse

/-- The UDP port and the address of a message's destination (R367). -/
def Block.destOf (b : Block) (m : Mail) : Nat × List Byte :=
  match b.partnerAt m.part m.site with
  | some q => (q.udp, q.addr)
  | none => (0, List.replicate 16 0)

/-- Whether an address is an IPv4-mapped one. -/
def isMapped (addr : List Byte) : Bool := addr.take 12 == List.replicate 10 0 ++ [0xFF, 0xFF]

/-- The IP packet of a UDP payload for a flow. -/
def ipPacket (f : FlowFields) (udp : Nat) (addr pay : List Byte) : List Byte :=
  let n := 8 + pay.length
  let hop := orDefault f.hopLimit 64
  let udpHead (src : Nat) : List Byte := netBytes 2 src ++ netBytes 2 udp ++ netBytes 2 n ++ netBytes 2 (Config.inetSum 17 pay)
  if isMapped addr then
    let lead := netBytes 1 0x45 ++ netBytes 1 (4 * f.dscp) ++ netBytes 2 (20 + n) ++ netBytes 2 (Config.ipv4Ident pay) ++ netBytes 2 0x4000 ++
      netBytes 1 hop ++ netBytes 1 17
    let ends := Config.ownAddress.drop 12 ++ addr.drop 12
    lead ++ netBytes 2 (Config.inetSum 4 (lead ++ ends)) ++ ends ++ udpHead (f.label % 2 ^ 16) ++ pay
  else
    netBytes 4 (6 * 2 ^ 28 + 4 * f.dscp * 2 ^ 20 + f.label % 2 ^ 20) ++ netBytes 2 n ++ netBytes 1 17 ++ netBytes 1 hop ++
      Config.ownAddress ++ addr ++ udpHead Config.udpSource ++ pay

/-- The bytes of a packet for the bucket of its flow. -/
def Block.packetLen (b : Block) (q : Packet) : Nat :=
  (if isMapped (b.destOf q.mail).2 then 20 else 40) + 8 + 32 + (b.mailBytes q.mail).length

/-- A flow's bucket at time `now`. -/
def Flow.refill (f : Flow) (now : Nat) : Flow :=
  { f with tokens := min (8000 * f.fields.burst) (f.tokens + (now - f.filled) * f.fields.rate), filled := now }

/-- The leader a shard sends chunks to and its session; none where sending has stopped (R375). -/
def Block.chunkLeader (b : Block) (p : Nat) : Option (Nat × Nat) :=
  let x := b.shard p
  let late := match x.deadline with
    | some t => decide (t ≤ b.now)
    | none => false
  if b.exchState p != 3 || x.stopped || late then none
  else (b.partnerAt p (b.leaderOf p (b.round p))).map fun q => (q.site, q.session)

/-- Whether a waiting packet may still leave: a chunk only to the leader of the present round, while chunks are sent (R375, R390). -/
def Block.packetLive (b : Block) (q : Packet) : Bool :=
  q.mail.type_ != mChunk || (q.mail.round == b.round q.mail.part && b.chunkLeader q.mail.part == some (q.mail.site, q.mail.session))

/-- Whether a packet holds a fragment of a chunk, and whether it holds its last one. -/
def Packet.ofChunk (q : Packet) (p seg : Nat) : Bool := q.mail.type_ == mChunk && q.mail.part == p && q.mail.fields.getD 0 0 == seg
def Packet.isLast (q : Packet) : Bool := q.mail.fields.getD 2 0 + 1 == q.mail.fields.getD 3 0

/-- A packet leaves by a flow. With a chunk's last fragment the time to its re-send begins (R375). -/
def Block.leave (b : Block) (f : FlowFields) (q : Packet) : Block :=
  let m := q.mail
  let (udp, addr) := b.destOf m
  let bs := b.mailBytes m
  let b := b.ifSo (m.type_ == mChunk && q.isLast) fun b =>
    let x := b.shard m.part
    b.setShard m.part { x with sent := x.sent.map fun c => if c.seg = m.fields.getD 0 0 then { c with sentAt := b.now } else c }
  (b.ifSo (m.type_ != 0) fun b => b.add64 coachPage 0x050 bs.length).emit
    (.message m.type_ [m.site, udp, ofBytes addr.reverse, m.session, q.epoch, q.ctr] bs (ipPacket f udp addr q.sealed))

/-- Sends what waits for a flow, as far as its bucket holds (R429). -/
def Block.drainFlow (b : Block) (i : Nat) : Nat → Block
  | 0 => b
  | n + 1 =>
    let f := (b.flow i).refill b.now
    match f.queue with
    | [] => b.setFlow i f
    | q :: rest =>
      if !b.packetLive q then Block.drainFlow (b.setFlow i { f with queue := rest }) i n
      else
        let need := 8000 * b.packetLen q
        if f.tokens < need || !b.flowUp f then b.setFlow i f
        else Block.drainFlow ((b.setFlow i { f with queue := rest, tokens := f.tokens - need }).leave f.fields q) i n

/-- Sends what waits for every flow. -/
def Block.drainFlows (b : Block) : Block :=
  b.each (b.flows.filter fun q => !q.2.queue.isEmpty) fun b q => b.drainFlow q.1 (q.2.queue.length + 1)

/-- Gives packets to a flow. -/
def Block.toFlow (b : Block) (i : Nat) (qs : List Packet) : Block :=
  let f := b.flow i
  (b.setFlow i { f with queue := f.queue ++ qs }).drainFlow i (f.queue.length + qs.length + 1)

/-- The first flow of a session that can send. -/
def Block.flowOf (b : Block) (session : Nat) : Option Nat :=
  (b.flows.find? fun q => q.2.fields.session == session && b.flowUp q.2).map Prod.fst

/-- Sends a message under an epoch and counter, by its session's first flow that can send (DESIGN CHOICE, log 196: R375 spreads only chunks
over the flows). -/
def Block.envelope (b : Block) (m : Mail) (epoch ctr : Nat) : Block :=
  match b.flowOf m.session with
  | none => b
  | some i => b.toFlow i [b.seal m epoch ctr]

/-- Sends a message under its session's key, or lets it wait for one; a session with no flow sends nothing (R429, R433). -/
def Block.post (b : Block) (m : Mail) : Block :=
  if !b.sessionUp m.session then b
  else
    let ks := b.session m.session
    match ks.send with
    | none => { b with mail := b.mail ++ [m] }
    | some k =>
      if k.spent b.now then { b with mail := b.mail ++ [m] }
      else
        let ks' := ks.ownUse b.now b.graceMs b.graceLog
        (b.setSession m.session { ks' with send := some (k.use b.now) }).envelope m k.epoch k.counter

/-- Sends what has waited for a session's key. -/
def Block.flushMail (b : Block) (i : Nat) : Block :=
  let mine := b.mail.filter fun m => m.session == i
  { b with mail := b.mail.filter fun m => m.session != i }.each mine Block.post

/-- Sends a message of leaf `p`'s shard to a counterpart. -/
def Block.siori (b : Block) (p site type_ round : Nat) (fields : List Nat) (bytes : List Byte) (len : Nat) : Block :=
  match b.partnerAt p site with
  | none => b
  | some q => b.post ⟨p, site, q.session, type_, round, fields, bytes, len⟩

/-- Sends a message to every counterpart. -/
def Block.sioriAll (b : Block) (p type_ round : Nat) (fields : List Nat) (bytes : List Byte) (len : Nat) : Block :=
  b.each (b.partnersOf p) fun b q => b.siori p q.site type_ round fields bytes len

/-! The exchange state (R389, R399). -/

/-- Whether the site leads round `r`: it is the leader of the order and its own record is the base record (DEDUCED from R368 and
R390). -/
def Block.leads (b : Block) (p r : Nat) : Bool :=
  b.leaderOf p r == (b.desc p).site && (b.shard p).orderRound ≤ b.anchorRound p

/-- The round a shard would mark next, or works on. -/
def Block.roundNow (b : Block) (p : Nat) : Nat :=
  if b.exchState p = 1 && (b.shard p).marked then b.round p + 1 else b.round p

/-- EXCH_STATE's leader and LEADER bit. -/
def Block.showLeader (b : Block) (p : Nat) : Block :=
  let r := b.roundNow p
  (b.setFld (partPage p) 0x300 16 16 (b.leaderOf p r)).setFld (partPage p) 0x300 4 1 (b2n (b.leads p r))

/-- LAYOUT_STATE (R333). -/
def Block.showLayout (b : Block) (p : Nat) : Block :=
  b.setN (partPage p) 0x260
    (if b.bound p then b2n (b.exchangeLayer p).isSome + layerCount p (b.desc p).nblk % 2 ^ 16 * 2 ^ 16 else 0)

/-! Memory of the shard. -/

/-- Reads [va, va + n) with marks; what does not translate reads as poison. -/
def Block.peekM (b : Block) (p va n : Nat) : Block × List (Byte × Bool) :=
  match b.readV ⟨p, none⟩ va n with
  | (b, .ok bs) => (b, bs)
  | (b, .fault _) => (b, List.replicate n (0, true))

/-- Writes bytes with marks. -/
def Block.pokeM (b : Block) (p va : Nat) (bs : List (Byte × Bool)) : Block := (b.writeV ⟨p, none⟩ va bs).1
def Block.poke (b : Block) (p va : Nat) (bs : List Byte) : Block := b.pokeM p va (clean bs)
def Block.peek (b : Block) (p va n : Nat) : Block × List Byte := let r := b.peekM p va n; (r.1, raw r.2)

/-! The digest tree (R383). -/

/-- The number of digests of each level, level 0 first. -/
def levelSizes : Nat → Nat → List Nat
  | 0, n => [n]
  | f + 1, n => if n ≤ 256 then [n] else n :: levelSizes f (ceilDiv n 256)

/-- The levels of a shard's tree. -/
def Desc.levels (d : Desc) : List Nat := levelSizes 5 d.nblk

/-- The address of digest `i` of a level. -/
def Desc.digestAt (d : Desc) (level i : Nat) : Nat := d.digest + 8 * (((d.levels).take level).sum + i)

/-- The bytes of a whole tree. -/
def Desc.treeBytes (d : Desc) : Nat := 8 * d.levels.sum

/-- A leaf of the tree: the first 64 bits of SHAKE256 over anchor and outer momentum. -/
def leafOf (bs : List Byte) : List Byte := Config.shake256 bs 8

/-- The 4 KiB that a leaf covers. -/
def Block.leafBytes (b : Block) (p o : Nat) : Block × List Byte :=
  let d := b.desc p
  let (b, a) := b.peek p (pieceAddr d.anchor 2048 (d.g0 + o)) 2048
  let (b, m) := b.peek p (pieceAddr d.outerMom 2048 (d.g0 + o)) 2048
  (b, a ++ m)

/-- Hashes bytes, counted. -/
def Block.hashed (b : Block) (n : Nat) : Block := b.add64 coachPage 0x048 n

/-- Writes the leaf of the block at offset `o`. -/
def Block.setLeaf (b : Block) (p o : Nat) : Block :=
  let (b, bs) := b.leafBytes p o
  (b.hashed bs.length).poke p ((b.desc p).digestAt 0 o) (leafOf bs)

/-- Writes the nodes of one level from the level below. -/
def Block.setLevel (b : Block) (p level : Nat) : Block :=
  let d := b.desc p
  let below := d.levels.getD (level - 1) 0
  b.each (List.range (d.levels.getD level 0)) fun b i =>
    let n := min 256 (below - 256 * i)
    let (b, bs) := b.peek p (d.digestAt (level - 1) (256 * i)) (8 * n)
    (b.hashed bs.length).poke p (d.digestAt level i) (Config.shake256 bs 8)

/-- Writes the levels above the leaves. -/
def Block.setLevels (b : Block) (p : Nat) : Block :=
  b.each (List.range ((b.desc p).levels.length - 1)) fun b i => b.setLevel p (i + 1)

/-- The root: SHAKE256, 256 bits, of the top level. -/
def Block.rootOf (b : Block) (p : Nat) : Block × List Byte :=
  let d := b.desc p
  let top := d.levels.length - 1
  let (b, bs) := b.peek p (d.digestAt top 0) (8 * d.levels.getD top 0)
  (b.hashed bs.length, Config.shake256 bs 32)

/-! Binding (R370, R371). -/

/-- Bits of a descriptor that hold a field. -/
def descFields : List (Nat × Nat × Nat) :=
  [(0, 0, 21), (4, 0, 32), (8, 0, 36), (0x10, 0, 27), (0x14, 0, 19), (0x18, 0, 32), (0x1C, 0, 18), (0x20, 0, 32), (0x70, 0, 64)] ++
    many 0x28 8 9 0 48 ++ many 0x78 8 5 0 48 ++ many 0xA0 4 16 0 32

/-- Whether a descriptor has no reserved encoding. -/
def descClean (w : BitVec 2048) : Bool :=
  let used := (descFields.map fun q => (2 ^ q.2.2 - 1) * 2 ^ (8 * q.1 + q.2.1)).sum
  let d := descOf w
  (w &&& ~~~ (BitVec.ofNat 2048 used)) == 0 && 1 ≤ d.site && d.site ≤ 65534 && d.conv < 4 && 1 ≤ d.nblk && 1 ≤ d.steps &&
    d.slots ≤ 4 && 100 ≤ d.deadlineMs && d.deadlineMs ≤ 3600000 && 1 ≤ d.minContrib && d.stale.all fun v => isFinV (decF32 v)

/-- The working copy of a descriptor and its scales, in the format of its rule record (R370). -/
def Block.copySpans (b : Block) (p : Nat) (d : Desc) : List (Nat × Nat) :=
  let fmt := (ruleOf (b.peekV p d.rule 64)).wcFmt
  (d.wc, d.wc + d.nblk * elemBytes fmt 1024) :: if isMx fmt then [(d.wcScale, d.wcScale + d.nblk * 32)] else []

/-- The areas of a descriptor that lie in the deep tier (R370). -/
def Desc.spans (d : Desc) : List Side :=
  let n := d.nblk
  [stripeSide d.master 4096 d.g0 n true, stripeSide d.anchor 2048 d.g0 n true,
    stripeSide d.outerMom 2048 d.g0 n true, stripeSide d.astamp 4 d.g0 n true, stripeSide d.stamp 4 d.g0 n true,
    ⟨d.residual, d.residual + n * 1056, true⟩, ⟨d.prev, d.prev + n * 1056, true⟩, ⟨d.rds, d.rds + d.slots * n * 544, true⟩,
    ⟨d.inbound, d.inbound + d.inboundLen, true⟩, ⟨d.digest, d.digest + d.treeBytes, true⟩,
    ⟨d.partners, d.partners + 16384, false⟩, ⟨d.rule, d.rule + 64, false⟩]

/-- A pass of the Coach over a shard, once the host holds no line of the areas the pass writes (R512). -/
def Block.coachPass (b : Block) (p : Nat) (k : Block → Block) : Block :=
  match b.snoopFor p ((b.desc p).spans.filter Side.wr) with
  | (b, false) => b
  | (b, true) => k b

/-- Whether the areas of a descriptor lie in the leaf's grant, in the deep tier where they must (R370). R29 has the Steward reserve the
recent-delta store and grant it to no manifest, R370 has it lie in the leaf's grant: DESIGN CHOICE (log 190), R370 is followed, so that the
store is reserved to its own leaf, as every grant is. -/
def Block.descInGrant (b : Block) (p : Nat) (d : Desc) : Bool :=
  let striped := [d.master, d.anchor, d.outerMom, d.astamp, d.stamp]
  striped.all (fun a => a % 131072 == 0) &&
    d.spans.all (fun s => regionOf s.lo == some .deep && b.inGrant p s.lo s.hi) &&
    (b.copySpans p d).all (fun s => b.inGrant p s.1 s.2)

/-- Picks the flights of a leaf's COACH carriages with an OP (R369). -/
def coachSel (p op : Nat) (f : Flight) : Bool := f.engine == engCoach p && !f.done && cf f.word 0x10 0 3 == op

/-- Runs the oldest COACH carriage of a leaf with an OP, when it has its turn: the module has one Coach, which takes the carriages of all
leaves in the order they reached it, one at a time (R169, R175). -/
def Block.runCoach (b : Block) (p op : Nat) (k : Block → Nat → Flight → Block) : Block :=
  b.runFlight (coachSel p op) fun b i f =>
    if (b.flights.take i).any fun q => cType q.word == 6 && q.engine != engDispatch && !q.done then b else k b i f

/-- The partner table as it stands in memory; none where it is poisoned or does not translate. -/
def Block.readPartners (b : Block) (p addr : Nat) : Block × Option (List (BitVec 512)) :=
  match b.readV ⟨p, none⟩ addr 16384 with
  | (b, .ok bs) =>
    (b, if anyMark bs then none else some ((cutList 64 256 (raw bs)).map fun e => BitVec.ofNat 512 (ofBytes e)))
  | (b, .fault _) => (b, none)

/-- The first handshake of each session (R549): the lower SITE_ID initiates it, by REKEYING, HANDSHAKE_INIT and so on. -/
def Block.askSessions (b : Block) (p : Nat) : Block :=
  b.each (b.partnersOf p) fun b q =>
    let k := b.session q.session
    if k.send.isNone && (b.desc p).site < q.site then b.setSession q.session { k with fresh := true } else b

/-- Binds a leaf to the descriptor its carriage names; `k` goes on once it is bound (R370, R371). -/
def Block.coachBind (b : Block) (p : Nat) (i : Nat) (f : Flight) (k : Block → Block) : Block :=
  let addr := cf f.word 0x18 0 48
  match b.readV ⟨p, none⟩ addr 256 with
  | (b, .fault a) => b.xlateFault i f a
  | (b, .ok bs) =>
    let w : BitVec 2048 := BitVec.ofNat 2048 (ofBytes (raw bs))
    if anyMark bs || !descClean w || !b.descInGrant p (descOf w) then b.endFault i f
    else match b.readPartners p (descOf w).partners with
      | (b, none) => b.endFault i f
      | (b, some ps) =>
        let old := b.shard p
        let x := { Shard.none with
          desc := w, partners := ps, marked := old.marked, order := old.order, orderRound := old.orderRound, retained := old.retained,
          record := old.record, sig := old.sig, prevRoot := old.prevRoot, prevRound := old.prevRound }
        let b := (b.setShard p x).setExch p 1
        ((k (b.askSessions p)).setFlight i f.finish).showLeader p |>.showLayout p

/-- COACH_BIND: the round and the anchor are those of the stored state. -/
def execCoachBind (p : Fin 64) (s : State) : Host.Outcome State Fault Refusal :=
  onBlock (fun b => b.runCoach p 0 fun b i f => b.coachBind p i f id) s

/-- FOUND of one block: the anchor as the BF16 of each master; outer momentum, residual and stamps zero; its leaf. -/
def Block.foundBlock (b : Block) (p o : Nat) : Block :=
  let d := b.desc p
  let g := d.g0 + o
  let (b, ms) := b.peekM p (pieceAddr d.master 4096 g) 4096
  let (b, draw) := b.takeDraws p 288 (drawsOf d.conv 1024)
  let cs := toBf16 d.conv draw ((unpackWords 4 (raw ms)).map (BitVec.ofNat 32))
  let bad := anyMark ms
  let b := b.pokeM p (pieceAddr d.anchor 2048 g) ((bfBytes cs).map fun v => (v, bad))
  let b := b.poke p (pieceAddr d.outerMom 2048 g) (List.replicate 2048 0)
  let b := b.poke p (d.residual + o * 1056) (List.replicate 1056 0)
  let b := (b.poke p (pieceAddr d.stamp 4 g) (toBytes 4 0)).poke p (pieceAddr d.astamp 4 g) (toBytes 4 0)
  let b := b.each (List.range d.slots) fun b r => b.poke p (d.rds + r * d.nblk * 544 + o * 544) (List.replicate 544 0)
  b.setLeaf p o

/-- The record of round 0, with this site alone (R371). -/
def foundRecord (d : Desc) (root : List Byte) : Manifest :=
  { magic := 0x52454331, shard := d.shard, round := 0, leader := d.site, nseg := d.nseg, bodyBytes := 0, prevRoot := root,
    newRoot := root, bodyHash := [], contrib := [⟨d.site, 0, 0, f32One⟩], bitmaps := [] }

/-- COACH_FOUND. -/
def execCoachFound (p : Fin 64) (s : State) : Host.Outcome State Fault Refusal :=
  onBlock (fun b => b.runCoach p 1 fun b i f => b.coachBind p i f fun b =>
    let d := b.desc p
    let b := (b.each (List.range d.nblk) fun b o => b.foundBlock p o).setLevels p
    let (b, root) := b.rootOf p
    let b := (b.setN (partPage p) 0x304 0).setN (partPage p) 0x308 0
    b.setShard p { b.shard p with
      marked := true, order := [d.site], orderRound := 0, record := some (foundRecord d root), retained := [], prevRoot := root, prevRound := 0 }) s

/-- Asks the partner a shard joins from for its digests: every group of leaves (R396). -/
def Block.askDigests (b : Block) (p site : Nat) : Block :=
  b.each (b.shard p).wantNodes fun b n => b.siori p site mDigestReq (b.round p) [0, n] [] 8

/-- COACH_JOIN (R396): the manifest of the named partner, then its digests and blocks, come by MANIFEST, DIGEST_RESP and BLOCK_DATA.
HELLO tells the partner that the manifest is wanted (DEDUCED: R398 has no message that asks for one). -/
def execCoachJoin (p : Fin 64) (s : State) : Host.Outcome State Fault Refusal :=
  onBlock (fun b => b.runCoach p 2 fun b i f => b.coachBind p i f fun b =>
    let entry := cf f.word 0x10 8 8
    match ((b.shard p).partners.map partnerOf)[entry]? with
    | none => b
    | some q =>
      let b := b.setShard p { b.shard p with joining := some q.site, pos := 0, rejoin := false }
      (b.setExch p 11).siori p q.site mHello (b.round p) [0, 0, 0, 0] [] 0x30) s

/-- COACH_UNBIND: the carriage waits for UNBIND_RELEASE. -/
def execCoachUnbind (p : Fin 64) (s : State) : Host.Outcome State Fault Refusal :=
  onBlock (fun b => b.runCoach p 3 fun b i f =>
    (b.setShard p { b.shard p with unbind := true }).setFlight i f) s

/-- Completes the leaf's waiting COACH carriage with an OP. -/
def Block.endCoach (b : Block) (p op : Nat) : Block :=
  match b.flights.findIdx? (coachSel p op) with
  | none => b
  | some i => match b.flights[i]? with
    | some f => b.setFlight i f.finish
    | none => b

/-- UNBIND_RELEASE. The stored state, its latest record with it, stays for the next BIND. -/
def execUnbindRelease (p : Fin 64) (s : State) : Host.Outcome State Fault Refusal :=
  onBlock (fun b =>
    if (b.shard p).unbind && b.exchState p = 1 then
      let x := b.shard p
      let b := b.setShard p { Shard.none with marked := x.marked, order := x.order, orderRound := x.orderRound, retained := x.retained,
                                              record := x.record, sig := x.sig, prevRoot := x.prevRoot, prevRound := x.prevRound }
      (((b.setN (partPage p) 0x300 0).showLayout p)).endCoach p 3
    else b) s

/-- COACH_PARTNERS: the carriage waits for PARTNERS_REREAD. -/
def execCoachPartners (p : Fin 64) (s : State) : Host.Outcome State Fault Refusal :=
  onBlock (fun b => b.runCoach p 4 fun b i f =>
    (b.setShard p { b.shard p with reread := true }).setFlight i f) s

/-- PARTNERS_REREAD. -/
def execPartnersReread (p : Fin 64) (s : State) : Host.Outcome State Fault Refusal :=
  onBlock (fun b =>
    if (b.shard p).reread && b.exchState p = 1 then
      match b.readPartners p (b.desc p).partners with
      | (b, some ps) => ((b.setShard p { b.shard p with partners := ps, reread := false }).askSessions p).endCoach p 4
      | (b, none) => (b.setShard p { b.shard p with reread := false }).endCoach p 4
    else b) s

/-! The mark and the delta pass (R39, R372, R373). -/

/-- The address of the store's block at offset `o` for round `r`. -/
def Desc.storeAt (d : Desc) (r o : Nat) : Nat := d.rds + r % d.slots * d.nblk * 544 + o * 544

/-- Converts 32 values to an SD8 block of RESIDUAL, counted; NONFINITE_DELTA where one of them is not finite (R56). -/
def Block.residSub (b : Block) (p g : Nat) (draw : Nat → Nat) (vs : List FVal) : Block × List Byte :=
  let (s8, c8) := convSd 8 (b.desc p).conv draw vs
  ((b.countConv p 0xF c8).nonfiniteDelta (s8 == 0xFF) p g, sdBytes 8 s8 (c8.map (·.bits)))

/-- One 32-parameter block of the delta pass: what goes to the store and to RESIDUAL. DESIGN CHOICE (log 186): a residual block that R57
calls damaged counts as one without a value, an input that is not finite. -/
def Block.deltaSub (b : Block) (p g : Nat) (w a e : List (Byte × Bool)) : Block × List (Byte × Bool) × List (Byte × Bool) :=
  let conv := (b.desc p).conv
  let none_ (b : Block) (bit : Nat) : Block × List (Byte × Bool) × List (Byte × Bool) :=
    let b := (b.takeDraws p 288 (drawsOf conv 32)).1
    let b := b.countConv p 0xE (List.replicate 32 ⟨0, false, false, true⟩)
    (b.coachEvent p bit g, clean (sdBytes 4 0xFF (List.replicate 32 0)), e)
  if anyMark (w ++ a ++ e) then none_ b 12
  else
    let ws := (unpackWords 4 (raw w)).map (BitVec.ofNat 32)
    let as_ := (unpackWords 2 (raw a)).map bfWord
    match sdRead 8 (raw e) with
    | .values es =>
      let xs := List.zipWith f32Add (List.zipWith f32Sub ws as_) (es.map encF32)
      if xs.all fun x => isFinV (decF32 x) then
        let (b, draw) := b.takeDraws p 288 (2 * drawsOf conv 32)
        let (s4, c4) := convSd 4 conv draw (xs.map decF32)
        let dHat := c4.map fun c => scaleV ((s4 : Int) - 127) (intV (signedOf 4 c.bits))
        let qs := List.zipWith (fun x v => decF32 (f32Sub x (encF32 v))) xs dHat
        let (b, rs) := (b.countConv p 0xE c4).residSub p g (fun i => draw (drawsOf conv 32 + i)) qs
        (b, clean (sdBytes 4 s4 (c4.map (·.bits))), clean rs)
      else none_ b 10
    | _ => none_ b 10

/-- The 32 blocks of an update block in turn. -/
def Block.deltaSubs (b : Block) (p g : Nat) (w a e : List (Byte × Bool)) : Nat → Nat →
    Block × List (Byte × Bool) × List (Byte × Bool)
  | 0, _ => (b, [], [])
  | n + 1, i =>
    let (b, st, q) := b.deltaSub p g ((w.drop (128 * i)).take 128) ((a.drop (64 * i)).take 64) ((e.drop (33 * i)).take 33)
    let (b, sts, qs) := Block.deltaSubs b p g w a e n (i + 1)
    (b, st ++ sts, q ++ qs)

/-- The delta pass of the update block at offset `o` for round `r`. -/
def Block.deltaBlock (b : Block) (p r o : Nat) : Block :=
  let d := b.desc p
  let g := d.g0 + o
  let (b, w) := b.peekM p (pieceAddr d.master 4096 g) 4096
  let (b, a) := b.peekM p (pieceAddr d.anchor 2048 g) 2048
  let (b, e) := b.peekM p (d.residual + o * 1056) 1056
  let b := b.pokeM p (d.prev + o * 1056) e
  let (b, st, q) := b.deltaSubs p g w a e 32 0
  (b.pokeM p (d.storeAt r o) st).pokeM p (d.residual + o * 1056) q

/-- Sends OPEN of round `r` to every counterpart (R376, R398). -/
def Block.sendOpen (b : Block) (p r : Nat) (decline : Bool) : Block :=
  let x := b.shard p
  let (b, root) := b.rootOf p
  b.sioriAll p mOpen r [x.deadline.getD 0, (b.desc p).quorum, b2n decline, x.orderRound] root 0x30

/-- The leader opens round `r` (R376). -/
def Block.openRound (b : Block) (p r : Nat) : Block :=
  let x := b.shard p
  if x.deadline.isSome then b
  else (b.setShard p { x with deadline := some (b.now + (b.desc p).deadlineMs * 1000000), heardAt := b.now }).sendOpen p r false

/-- The sites that have every chunk acknowledged, and those with at least one; the leader's own count once it has marked (R377). -/
def Block.fullSites (b : Block) (p : Nat) : Nat :=
  let x := b.shard p
  ((b.partnersOf p).filter fun q => (x.inbound.filter fun c => c.site == q.site).length == (b.desc p).nseg).length + 1
def Block.someSites (b : Block) (p : Nat) : Nat :=
  let x := b.shard p
  ((b.partnersOf p).filter fun q => x.inbound.any fun c => c.site == q.site).length + 1

/-- The close of a round at its leader (R377, R389). -/
def Block.closeRound (b : Block) (p : Nat) (void : Bool) : Block :=
  let r := b.round p
  let x := b.shard p
  let (b, root) := b.rootOf p
  let b := b.setShard p { x with deadline := none, frags := [], void := void, stopped := true, pos := 0, prevRoot := root,
                                 inbound := if void then [] else x.inbound }
  let b := b.each (b.partnersOf p) fun b q =>
    let n := if void then 0 else (x.inbound.filter fun c => c.site == q.site).length
    b.siori p q.site mClose r [b2n void, n] [] 8
  ((b.set64 (partPage p) 0x358 b.now).setExch p (if void then 8 else 5)).coachEvent p (b2n void) r

/-- The round closes once QUORUM sites, the leader included, have had every chunk acknowledged (R377). -/
def Block.quorumClose (b : Block) (p : Nat) : Block :=
  let d := b.desc p
  if b.exchState p = 4 && d.quorum != 0 && d.quorum ≤ b.fullSites p then b.closeRound p false else b

/-- The mark of a round (R39, R372, R389): the delta pass, then COLLECT at the leader, SEND at a follower. The pass ends within the
command, so that DELTA is never seen (DESIGN CHOICE). -/
def Block.markRound (b : Block) (p : Nat) : Block :=
  let x := b.shard p
  let r := b.roundNow p
  let early := x.deadline.isSome
  let b := b.setN (partPage p) 0x304 r
  let b := b.setShard p { x with marked := true, steps := 0, turn := 0, stopped := false, void := false, sent := [], pos := 0,
                                 heardAt := if early then x.heardAt else b.now }
  let b := b.each (List.range (b.desc p).nblk) fun b o => b.deltaBlock p r o
  let b := if b.leads p r then ((b.setExch p 4).openRound p r).quorumClose p else b.setExch p 3
  b.showLeader p

/-! Chunks (R374, R375). -/

/-- Parts of a list, `k` each; a list with nothing in it has one empty part. -/
def fragments (k : Nat) (bs : List Byte) : List (List Byte) := if bs.isEmpty then [[]] else cutList k (bs.length / k + 1) bs

/-- The wire form of segment `seg` of round `r`, raw: scales, then elements (R374). -/
def Block.chunkWire (b : Block) (p r seg : Nat) : Block × List Byte :=
  let d := b.desc p
  let n := d.segLen seg
  let (b, bs) := b.peek p (d.storeAt r (1024 * seg)) (544 * n)
  let subs := cutList 17 (32 * n) bs
  (b, subs.flatMap (fun q => q.take 1) ++ subs.flatMap fun q => q.drop 1)

/-- Sends the fragments of a chunk under consecutive counters of an epoch. -/
def Block.sendFragments (b : Block) (p site session r seg flow epoch ctr : Nat) (wire : List Byte) : Block :=
  let fs := fragments 8192 wire
  b.toFlow flow (fs.zipIdx.map fun q => b.seal ⟨p, site, session, mChunk, r,
    [seg, b.anchorRound p, q.2, fs.length, 0, wire.length, (crc32c wire).toNat], q.1, 24 + q.1.length⟩ epoch (ctr + q.2))

/-- Uses a session's key `n` times; none where it has no key or the key would pass its limit. -/
def Block.useKey (b : Block) (i n : Nat) : Option (Block × Nat × Nat) :=
  let ks := b.session i
  match ks.send with
  | none => none
  | some k =>
    if k.spent b.now || 2 ^ 32 < k.counter + n then none
    else
      let ks' := (List.range n).foldl (fun (acc : Keys) _ => acc.ownUse b.now b.graceMs b.graceLog) ks
      some (b.setSession i { ks' with send := some { k with counter := k.counter + n, since := some (k.since.getD b.now) } },
        k.epoch, k.counter)

/-- The flow, session and leader a shard may send chunks by now (R375, R428): none where sending has stopped. -/
def Block.chunkFlow (b : Block) (p flow : Nat) : Option (Nat × Nat) :=
  (b.chunkLeader p).filter fun q => b.flowUp (b.flow flow) && (b.flow flow).fields.session == q.2

/-- Whether a fragment of a chunk still waits for a flow. -/
def Block.chunkWaits (b : Block) (p seg : Nat) : Bool := b.flows.any fun q => q.2.queue.any fun k => k.ofChunk p seg

/-- Stops what is left of a chunk's transmission. -/
def Block.stopChunk (b : Block) (p seg : Nat) : Block :=
  b.each (b.flows.filter fun q => q.2.queue.any fun k => k.ofChunk p seg) fun b q =>
    b.setFlow q.1 { b.flow q.1 with queue := (b.flow q.1).queue.filter fun k => !k.ofChunk p seg }

/-- CHUNK_SEND. -/
def execChunkSend (p : Fin 64) (seg : Nat) (flow : Nat) (s : State) : Host.Outcome State Fault Refusal :=
  onBlock (fun b =>
    let x := b.shard p
    match b.chunkFlow p flow with
    | none => b
    | some (site, session) =>
      if (b.desc p).nseg ≤ seg || x.sent.any fun c => c.seg == seg then b
      else
        let r := b.round p
        let (b, wire) := b.chunkWire p r seg
        match b.useKey session (fragments 8192 wire).length with
        | none => b
        | some (b, epoch, ctr) =>
          let b := b.setShard p { b.shard p with
            sent := (b.shard p).sent ++ [⟨seg, epoch, ctr, flow, b.now, false, false⟩] }
          (b.sendFragments p site session r seg flow epoch ctr wire).add64 (partPage p) 0x310 1) s

/-- Whether the sender may still use the epoch of an earlier transmission (R435). -/
def Keys.mayRepeat (k : Keys) (now epoch : Nat) : Bool :=
  match k.send with
  | .none => false
  | some d =>
    d.epoch == epoch ||
      match k.prevSend, k.ownEnd with
      | some q, .none => q.epoch == epoch
      | some q, some t => q.epoch == epoch && decide (now < t) && k.ownLeft != 0
      | .none, _ => false

/-- CHUNK_RESEND: the same bytes under the original epoch where it may still be used, else encrypted afresh (R375, R435). -/
def execChunkResend (p : Fin 64) (seg : Nat) (flow : Nat) (s : State) : Host.Outcome State Fault Refusal :=
  onBlock (fun b =>
    match b.chunkFlow p flow, (b.shard p).sent.find? fun c => c.seg == seg with
    | some (site, session), some c =>
      if c.acked || !(c.queued || (!b.chunkWaits p seg && c.sentAt + (b.desc p).resendMs * 1000000 ≤ b.now)) then b
      else
        let r := b.round p
        let (b, wire) := b.chunkWire p r seg
        let again := if (b.session session).mayRepeat b.now c.epoch then some (b, c.epoch, c.counter)
          else b.useKey session (fragments 8192 wire).length
        match again with
        | none => b
        | some (b, epoch, ctr) =>
          let new : SentChunk := ⟨seg, epoch, ctr, flow, b.now, false, false⟩
          let b := b.setShard p { b.shard p with
            sent := (b.shard p).sent.map fun c => if c.seg = seg then new else c }
          (b.sendFragments p site session r seg flow epoch ctr wire).add64 (partPage p) 0x318 1
    | _, _ => b) s

/-! Receiving. -/

/-- Takes a Siori message for a bound shard: counted, dropped with BAD_MSG where its header is bad (R397). -/
def Block.received (b : Block) (p : Nat) (h : SHdr) (type_ : Nat) (bodyOk : Bool) (k : Block → Block) : Block :=
  if !b.bound p then b
  else
    let b := b.add64 coachPage 0x058 (24 + h.length)
    if h.type_ != type_ || h.version != 1 || h.rsv != 0 || (b.partnerAt p h.srcSite).isNone || !bodyOk then
      b.add64 (partPage p) 0x350 1
    else if h.shard != (b.desc p).shard || h.dstSite != (b.desc p).site then b
    else k b

/-- Adds a part to a set of fragments; a part of another transmission starts the set afresh. -/
def addFragment (sets : List FragSet) (s : FragSet) (i : Nat) (bytes : List Byte) : List FragSet × FragSet :=
  let key (q : FragSet) : Bool := q.site == s.site && q.index == s.index
  let cur := match sets.find? key with
    | some q => if q.nfrag = s.nfrag && q.total = s.total && q.crc = s.crc && q.privet = s.privet && q.base = s.base then q else s
    | none => s
  let new := { cur with parts := cur.parts.filter (fun q => q.1 != i) ++ [(i, bytes)], bad := cur.bad || s.bad }
  (sets.filter (fun q => !key q) ++ [new], new)

/-- The bytes of a whole set of fragments. -/
def FragSet.whole (s : FragSet) : Option (List Byte) :=
  if s.parts.length = s.nfrag && (List.range s.nfrag).all fun i => s.parts.any fun q => q.1 == i then
    some ((List.range s.nfrag).flatMap fun i => ((s.parts.find? fun q => q.1 == i).map Prod.snd).getD [])
  else none

/-- The elements of a chunk in Privet form: an index entry for each 4 KiB, then the sectors; none where a block is damaged
(R300, R374). -/
def unpackPrivet (len : Nat) (bs : List Byte) : Option (List Byte) :=
  let n := ceilDiv len 4096
  let sect := bs.drop (8 * n)
  let blocks := (List.range n).map fun i =>
    let entry := (bs.drop (8 * i)).take 8
    let e := idxOf (ofBytes entry)
    match expandBlock 4096 (clean entry) (clean ((sect.drop (32 * e.off)).take (32 * e.sect))) with
    | .inr raws => some raws
    | .inl _ => none
  if blocks.all (·.isSome) then some ((blocks.flatMap fun q => q.getD []).take len) else none

/-- The raw wire form of a whole chunk of a segment with `n` update blocks; none where it is damaged (R57, R302). -/
def chunkPlain (n : Nat) (privet : Bool) (wire : List Byte) : Option (List Byte) :=
  let k := 32 * n
  let scales := wire.take k
  let elems := if privet then unpackPrivet (16 * k) (wire.drop k) else some (wire.drop k)
  match elems with
  | none => none
  | some es =>
    let ok := (scales.zip (cutList 16 k es)).all fun q => sdRead 4 (q.1 :: q.2) != .damaged
    if scales.length = k && es.length = 16 * k && ok then some (scales ++ es) else none

/-- The bytes of INBOUND in use: chunks, the body under way and the retained one. The first 16 MiB are staging (R31, R370). -/
def Shard.inboundUsed (x : Shard) : Nat :=
  (x.inbound.map fun c => c.bytes.length).sum + (x.bodies.map fun q => q.2.length).sum + (x.retained.map fun q => q.2.length).sum

/-- Whether INBOUND has space for `n` bytes more. -/
def Block.inboundFits (b : Block) (p n : Nat) : Bool :=
  (b.shard p).inboundUsed + n + 2 ^ 24 ≤ (b.desc p).inboundLen

/-- The staleness weight of a base round in round `r` (R378). -/
def Desc.weight (d : Desc) (r base : Nat) : Word := d.stale.getD (min 15 (r - 1 - base)) 0

/-- Acknowledges a chunk (R376). -/
def Block.ackChunk (b : Block) (p site r index : Nat) : Block := b.siori p site mAck r [1, index] [] 8

/-- A whole chunk at the leader: stored and acknowledged, or left unacknowledged (R376); the round closes at its quorum (R377). -/
def Block.takeChunk (b : Block) (p r : Nat) (fs : FragSet) (wire : List Byte) : Block :=
  let d := b.desc p
  let x := b.shard p
  let drop := b.setShard p { x with frags := x.frags.filter fun q => !(q.site == fs.site && q.index == fs.index) }
  if fs.bad || wire.length != fs.total || (crc32c wire).toNat != fs.crc then drop
  else match chunkPlain (d.segLen fs.index) fs.privet wire with
    | none => drop
    | some plain =>
      if !b.inboundFits p wire.length then drop.add64 (partPage p) 0x348 1
      else
        let x := drop.shard p
        let b := drop.setShard p { x with inbound := x.inbound ++ [⟨fs.site, fs.index, fs.base, plain⟩] }
        (b.ackChunk p fs.site r fs.index).quorumClose p

/-- CHUNK (R376). -/
def execChunk (p : Fin 64) (h : SHdr) (m : ChunkMsg) (s : State) : Host.Outcome State Fault Refusal :=
  onBlock (fun b =>
    let ok := m.nfrag != 0 && m.frag < m.nfrag && m.nfrag ≤ 255 && m.bytes.length ≤ 8192
    b.received p h mChunk ok fun b =>
      let d := b.desc p
      let r := b.roundNow p
      if h.round != r || !b.leads p r || (b.exchState p != 1 && b.exchState p != 4) || (b.shard p).stuck then b
      else
        let b := b.openRound p r
        let x := b.shard p
        if d.nseg ≤ m.index then b
        else if x.inbound.any fun c => c.site == h.srcSite && c.index == m.index then
          if m.frag + 1 = m.nfrag then b.ackChunk p h.srcSite r m.index else b
        else if isZeroV (decF32 (d.weight r m.baseRound)) then b
        else
          let (sets, cur) := addFragment x.frags
            ⟨h.srcSite, m.index, m.nfrag, m.wireBytes, m.crc, m.baseRound, m.privet, m.poisoned, []⟩ m.frag m.bytes
          let b := b.setShard p { x with frags := sets }
          match cur.whole with
          | some wire => b.takeChunk p r cur wire
          | none => b) s

/-- ACK (R398): the listed chunks are not sent again. -/
def execAck (p : Fin 64) (h : SHdr) (chunks : List Nat) (s : State) : Host.Outcome State Fault Refusal :=
  onBlock (fun b => b.received p h mAck (1 ≤ chunks.length && chunks.length ≤ 1024) fun b =>
    let x := b.shard p
    if h.round != b.round p || h.srcSite != b.leaderOf p (b.round p) || b.exchState p != 3 then b
    else
      let new := x.sent.filter fun c => !c.acked && chunks.contains c.seg
      (b.setShard p { x with
        heardAt := b.now,
        sent := x.sent.map fun c => if chunks.contains c.seg then { c with acked := true } else c }).add64 (partPage p) 0x320
          new.length) s

/-- ROUND_DEADLINE (R375, R377): the leader closes; a follower stops sending. A leader that has not marked waits for its mark
(DEDUCED). -/
def execRoundDeadline (p : Fin 64) (s : State) : Host.Outcome State Fault Refusal :=
  onBlock (fun b =>
    match (b.shard p).deadline with
    | none => b
    | some t =>
      if b.now < t then b
      else if b.exchState p = 4 then b.closeRound p (decide (b.someSites p < (b.desc p).minContrib))
      else if b.exchState p = 3 then b.setShard p { b.shard p with stopped := true }
      else b) s

/-- CLOSE at a follower (R375, R389). -/
def execClose (p : Fin 64) (h : SHdr) (void : Bool) (merged : Nat) (s : State) : Host.Outcome State Fault Refusal :=
  onBlock (fun b => b.received p h mClose (merged ≤ (b.desc p).nseg) fun b =>
    if b.exchState p != 3 || h.round != b.round p || h.srcSite != b.leaderOf p (b.round p) then b
    else
      let b := b.setShard p { b.shard p with stopped := true, void := void, heardAt := b.now, pos := 0 }
      let b := (b.set64 (partPage p) 0x358 b.now).coachEvent p (b2n void) (b.round p)
      if void then b.setExch p 8 else b) s

/-- Moves a follower to another leader of the round: chunks are sent to it afresh (R390). -/
def Block.moveLeader (b : Block) (p turn : Nat) : Block :=
  let x := b.shard p
  if turn = x.turn then b
  else (b.setShard p { x with turn := turn, sent := [], stopped := false, deadline := none, bodyFrags := [], bodies := [],
                              manFrags := [] }).showLeader p

/-- A shard that finds itself leader opens its round, or declines it (R390). -/
def Block.takeLead (b : Block) (p : Nat) : Block :=
  let r := b.round p
  if b.leads p r then ((b.setExch p 4).openRound p r).showLeader p
  else if b.leaderOf p r = (b.desc p).site then
    (b.sendOpen p r true).moveLeader p ((b.shard p).turn + 1)
  else b

/-- The least turn from `t` on at which a site leads round `r`. -/
def Block.turnOf (b : Block) (p r site : Nat) : Option Nat :=
  let x := b.shard p
  let n := x.order.length
  ((List.range n).map (x.turn + ·)).find? fun t => x.order.getD (((b.desc p).shard + r + t) % n) 0 == site

/-- A newer base record announced by a counterpart: its manifest is fetched, and until it has come the shard knows no leader and
sends no chunk (R368). -/
def Block.newerRecord (b : Block) (p site round : Nat) : Block :=
  let x := b.shard p
  if x.orderRound < round || (x.orderRound = round && x.order.isEmpty) then
    (b.setShard p { x with orderRound := round, order := [] }).siori p site mHello (b.round p) [b.anchorRound p, 0, 0, 0] [] 0x30
  else b

/-- Asks the leader for the digests of the top level (R394). -/
def Block.bisect (b : Block) (p site : Nat) : Block :=
  let top := (b.desc p).levels.length - 1
  (b.coachEvent p 8 (b.anchorRound p)).siori p site mDigestReq (b.round p) [top, 0] [] 8

/-- OPEN (R368, R390, R394). -/
def execOpen (p : Fin 64) (h : SHdr) (m : OpenMsg) (s : State) : Host.Outcome State Fault Refusal :=
  onBlock (fun b => b.received p h mOpen (m.quorum < 512) fun b =>
    let x := b.shard p
    let r := b.round p
    let b := if m.orderRound < b.roundNow p then b.newerRecord p h.srcSite m.orderRound else b
    if m.orderRound < x.orderRound || h.round != r || b.exchState p != 3 then b
    else match b.turnOf p r h.srcSite with
      | none => b
      | some t =>
        if m.decline then
          if t = x.turn then
            let b := b.moveLeader p (x.turn + 1)
            (b.setShard p { b.shard p with heardAt := b.now }).takeLead p
          else b
        else
          let b := b.moveLeader p t
          let b := b.setShard p { b.shard p with deadline := some m.deadline, heardAt := b.now }
          let (b, root) := b.rootOf p
          if m.orderRound = b.anchorRound p && root != m.root then b.bisect p h.srcSite else b) s

/-- OPEN_REPEAT (R390): once a second until the close. -/
def execOpenRepeat (p : Fin 64) (s : State) : Host.Outcome State Fault Refusal :=
  onBlock (fun b =>
    let x := b.shard p
    if x.deadline.isSome && (b.exchState p = 4 || b.exchState p = 1) && b.leads p (b.roundNow p) && x.heardAt + 1000000000 ≤ b.now then
      (b.setShard p { x with heardAt := b.now }).sendOpen p (b.roundNow p) false
    else b) s

/-- HELLO_SEND (R390, R398). -/
def execHelloSend (p : Fin 64) (s : State) : Host.Outcome State Fault Refusal :=
  onBlock (fun b =>
    let x := b.shard p
    if !b.bound p || b.now < x.helloAt + 1000000000 then b
    else
      let b := b.setShard p { x with helloAt := b.now }
      let (lead, n, root) := match x.record with
        | some m => (m.leader, m.contrib.length, m.newRoot)
        | none => (0, 0, List.replicate 32 0)
      b.sioriAll p mHello (b.round p) [b.anchorRound p, lead + n * 2 ^ 16, b.anchorRound p, b.fld (partPage p) 0x300 5 1] root 0x30) s

/-- Whether record (n, leader) wins over another of the same round (R392). -/
def winsOver (n leader n' leader' : Nat) : Bool := n' < n || (n' == n && leader < leader')

/-- LEADER_TIMEOUT (R390). -/
def execLeaderTimeout (p : Fin 64) (s : State) : Host.Outcome State Fault Refusal :=
  onBlock (fun b =>
    let x := b.shard p
    if b.exchState p != 3 || b.now < x.heardAt + (b.desc p).leaderSec * 1000000000 then b
    else
      let b := (b.coachEvent p 2 (b.round p)).moveLeader p (x.turn + 1)
      (b.setShard p { b.shard p with heardAt := b.now }).takeLead p) s

/-! HOLD (R391). -/

/-- HOLD ends: EXCH_STATE shows the state it covered. -/
def Block.endHold (b : Block) (p : Nat) : Block :=
  (b.setShard p { b.shard p with held := false }).setFld (partPage p) 0x300 5 1 0

/-- The modules below in the norm tree, as far as they have been heard from in the step. -/
def Block.below (b : Block) (p : Nat) : List Nat :=
  ((b.run p).norm.children ++ (b.run p).barrier.ready).eraseDups

/-- Once the lag is back within DRIFT_MAX: the release goes down from the root, or is asked of it. -/
def Block.lagBack (b : Block) (p : Nat) : Block :=
  if (b.shard p).told && b.lag p ≤ (b.desc p).driftMax then
    let b := b.setShard p { b.shard p with told := false }
    if (b.desc p).goOn then b
    else if b.normEn p && !b.isRoot p then b.emit (.queueMsg msgHold (b.normParent p) [1])
    else (b.each (b.below p) fun b d => b.emit (.queueMsg msgHold d [1])).endHold p
  else b

/-- HOLD_RECEIVED (R391): passed down the tree; dispatch stops at the next step commit, and resumes at the release. -/
def execHoldReceived (p : Fin 64) (release : Bool) (s : State) : Host.Outcome State Fault Refusal :=
  onBlock (fun b =>
    let b := (b.takeQueue 1).each (b.below p) fun b d => b.emit (.queueMsg msgHold d [b2n release])
    if release then b.endHold p else b.setShard p { b.shard p with held := true }) s

end Sys2Proof.Machine
end

