-- ==== Sys2Proof/Machine/Power.lean ====
section
/-!
DEFINITION. Power, clocks, monitors and ageing (chapter 17), the 54 V input, the coolant and the sideband's sensors
(chapter 20).
-/

namespace Sys2Proof.Machine

def powerPage : Nat := pageOf .power 0
def healthPage : Nat := pageOf .health 0
def ageingPage : Nat := pageOf .ageing 0
def clockPage : Nat := pageOf .clock 0

/-! The governor (R568 to R572). -/

/-- GOV_DUTY after a sample (R570). -/
def dutyAfter (d cap avg100us avg1ms : Nat) : Nat :=
  if 2900 < avg100us then max d 32
  else if cap < avg1ms then min 64 (d + 1)
  else if avg1ms * 100 < cap * 98 then d - 1
  else d

/-- The governor's alarm after a sample (R572): POWER_CAP once more than 1 % of the last second had D above 0, POWER_CLEAR
after 10 s at 0. -/
def Block.govAlarm (b : Block) : Block :=
  let w := b.power
  if !w.alarm && 1000 < w.govHigh.length then
    let b := b.raise powerPage 0 none 0 0 b.allLeaves
    { b with power := { b.power with alarm := true } }.platformEvent powerPage 0
  else if w.alarm && w.govHigh.isEmpty && w.zeroSince + 10000000000 ≤ b.now then
    let b := b.raise powerPage 1
    { b with power := { b.power with alarm := false } }
  else b

/-- A sample of the governor (R570, R571, R585). The cap set since the last sample applies from this one. The spec names no reading that
INPUT_MA follows: it comes with the sample, as a free value (DESIGN CHOICE, log 201). -/
def execGovernorSample (avg100us avg1ms avg1s : Nat) (s : State) : Host.Outcome State Fault Refusal :=
  onBlock (fun b =>
    let b := match b.power.capNext with
      | some w => { b.setN powerPage 0x040 w with power := { b.power with capNext := none } }
      | none => b
    let b := b.tick.setN powerPage 0x06C ((Config.freeValue b.free).toNat % 2 ^ 16)
    let d := dutyAfter (b.regN powerPage 0x054) (b.regN powerPage 0x040) avg100us avg1ms
    let b := ((b.setN powerPage 0x044 (avg1ms % 4096)).setN powerPage 0x048 (avg1s % 4096)).setN powerPage 0x054 d
    let energy := b.power.energyRem + avg100us
    let b := b.add64 powerPage 0x058 (energy / 100)
    let high := b.power.govHigh.filter (b.now < · + 1000000000)
    let b := { b with power := { b.power with
      energyRem := energy % 100,
      govHigh := if 0 < d then high ++ [b.now] else high,
      zeroSince := if 0 < d then b.now else b.power.zeroSince } }
    b.govAlarm) s

/-- A new cap: it applies from the next sample; none where it lies outside 1,200 to 2,600 W (R571). -/
def Block.setCap (b : Block) (watts : Nat) : Option Block :=
  if 1200 ≤ watts ∧ watts ≤ 2600 then some { b with power := { b.power with capNext := some watts } } else none

/-- POWER_CAP_SET (R571, R584). -/
def execPowerCapSet (rq : Req) (watts : Nat) (s : State) : Host.Outcome State Fault Refusal :=
  onBlock (fun b =>
    if rq.by_ ≠ .pf then b.reply rq 0x60 0x02 [0]
    else match b.setCap watts with
      | some b => b.reply rq 0x60 0x00 [0]
      | none => b.reply rq 0x60 0x01 [0]) s

/-! Domains (R564 to R567). -/

/-- Whether the condition of R564 lets a domain be switched off. For PD0 to PD15 the operator's command is itself the
condition's third case. -/
def Block.mayBeOff (b : Block) (d : Nat) : Bool :=
  if d < 16 then true
  else if d < 18 then b.fld devPage 0x040 0 3 < 3
  else (List.range 24).all fun i => b.fld (pageOf .port (24 * (d - 18) + i)) 0x040 0 1 == 0

/-- Asks for a domain to be switched on, once. -/
def Block.askWake (b : Block) (d : Nat) : Block :=
  if bitOf (b.regN powerPage 0x04C) d || b.power.wakeQueue.contains d then b
  else { b with power := { b.power with wakeQueue := b.power.wakeQueue ++ [d] } }

/-- DOMAIN_POWER (R584). -/
def execDomainPower (rq : Req) (domain : Nat) (on_ : Bool) (s : State) : Host.Outcome State Fault Refusal :=
  onBlock (fun b =>
    if rq.by_ ≠ .pf then b.reply rq 0x61 0x02 [0]
    else if 20 ≤ domain then b.reply rq 0x61 0x01 [0]
    else if on_ then
      let b := { b with power := { b.power with
        operatorOff := BitVec.ofNat 20 (putField b.power.operatorOff.toNat domain 1 0) } }
      (b.askWake domain).reply rq 0x61 0x00 [0]
    else if b.mayBeOff domain then
      let b := b.domainOff domain
      let b := { b with power := { b.power with
        operatorOff := BitVec.ofNat 20 (putField b.power.operatorOff.toNat domain 1 1),
        wakeQueue := b.power.wakeQueue.filter (· ≠ domain) } }
      b.reply rq 0x61 0x00 [0]
    else b.reply rq 0x61 0x04 [0]) s

/-- The first domain that waits is switched on, at least 25 µs after the last one (R566, R567). -/
def execDomainWake (domain : Fin 20) (s : State) : Host.Outcome State Fault Refusal :=
  onBlock (fun b =>
    let spaced := match b.power.lastOn with
      | some t => t + 25000 ≤ b.now
      | none => true
    if b.power.wakeQueue.head? = some domain.val ∧ spaced = true then
      let b := b.setFld powerPage 0x04C domain 1 1
      let b := { b with power := { b.power with
        onAt := storePut (fun _ => 0) b.power.onAt domain b.now, lastOn := some b.now,
        wakeQueue := b.power.wakeQueue.tail } }
      b.ifSo (b.fld devPage 0x040 0 3 = 0) fun b => b.setFld devPage 0x040 0 3 1
    else b) s

/-- At 520 µs after its switch-on a domain is ready, its arrays, which come out of reset, are tested (R119), and the commands that waited
for it reply (R565, R566); with the last of them a warm
reset that wakes domains ends (R617). -/
def execDomainReady (domain : Fin 20) (s : State) : Host.Outcome State Fault Refusal :=
  onBlock (fun b =>
    if bitOf (b.regN powerPage 0x04C) domain && storeGet (fun _ => 0) b.power.onAt domain + 520000 ≤ b.now then
      let b := b.setFld powerPage 0x050 domain 1 1
      let b := b.ifSo (domain < 16) fun b => b.each (domainArrays domain) fun b a => b.ifSo (!b.retired a) fun b => b.selftestStart a
      let done := b.power.waits.filter fun w => w.domains.all b.domainReady
      let b := { b with power := { b.power with waits := b.power.waits.filter fun w => !w.domains.all b.domainReady } }
      let b := b.each done fun b w => b.reply w.rq w.code 0x00 w.words
      let mine (q : Nat × Nat) : Bool := 18 + q.1 / 24 == domain.val
      let b := b.each (b.power.enWaits.filter mine) fun b q => b.setN (pageOf .port q.1) 0x040 q.2
      let power := { b.power with enWaits := b.power.enWaits.filter fun q => !mine q }
      let b := { b with power := power }
      let waking : Bool := match b.warm with
        | some w => w.waking
        | none => false
      b.ifSo (waking && b.power.wakeQueue.isEmpty && (List.range 20).all fun d => !bitOf (b.regN powerPage 0x04C) d || b.domainReady d)
        Block.warmEnd
    else b) s

/-! Monitors (R576, R577). -/

/-- A temperature as its 16-bit code in 1/16 °C. -/
def tempCode (t : Int) : Nat := codeOf 16 t

/-- The hotter sensor of ARRAY[a] by its TEMP register. -/
def Block.arrayTemp (b : Block) (a : Nat) : Int :=
  let w := b.regN healthPage (0x400 + 4 * a)
  max (signedOf 16 (w % 2 ^ 16)) (signedOf 16 (w / 2 ^ 16))

/-- The hottest sensor and its array (R587). -/
def Block.hottest (b : Block) : Int × Nat :=
  (List.range 128).foldl (fun m a => if m.1 < b.arrayTemp a then (b.arrayTemp a, a) else m) (b.arrayTemp 0, 0)

def Block.therm (b : Block) (a : Nat) : Therm := storeGet (fun _ => Therm.none) b.power.therm a

/-- An island's thermal duty after a sample at junction temperature `t` in 1/16 °C (R576). -/
def thermAfter (x : Therm) (now : Nat) (t : Int) : Therm :=
  let hot := if 1680 ≤ t then some (x.hotSince.getD now) else none
  if 1680 ≤ t then { x with duty := 16, roseAt := now, hotSince := hot }
  else if 1600 ≤ t then
    if x.duty = 0 ∨ x.roseAt + 100000 ≤ now then
      { x with duty := min 16 (x.duty + 1), roseAt := now, fellAt := now, hotSince := hot }
    else { x with hotSince := hot }
  else if t < 1568 then
    if 0 < x.duty ∧ x.fellAt + 1000000 ≤ now ∧ x.roseAt + 1000000 ≤ now then
      { x with duty := x.duty - 1, fellAt := now, hotSince := hot }
    else { x with hotSince := hot }
  else { x with hotSince := hot }

/-- THERMAL_TRIP (R576): FATAL, the controllers drain toward self-refresh, PD0 to PD15, PD18 and PD19 go off. -/
def Block.thermalTrip (b : Block) (a : Nat) : Block :=
  let b := b.raise healthPage 1 none a
  let b := b.drainAll
  let off := ((List.range 16) ++ [18, 19]).filter fun d => bitOf (b.regN powerPage 0x04C) d
  let b := { b with power := { b.power with
    tripped := BitVec.ofNat 20 (off.foldl (fun m d => m ||| 2 ^ d) b.power.tripped.toNat) } }
  b.each off Block.domainOff

/-- A reading of an island's two sensors, in 1/16 °C (R576, R587). -/
def execThermalSample (a : Fin 128) (t0 t1 : Int) (s : State) : Host.Outcome State Fault Refusal :=
  onBlock (fun b =>
    let b := b.setN healthPage (0x400 + 4 * a.val) (tempCode t0 + 2 ^ 16 * tempCode t1)
    let t := max t0 t1
    let old := b.therm a
    let new := thermAfter old b.now t
    let b := { b with power := { b.power with therm := storePut (fun _ => Therm.none) b.power.therm a new } }
    let h := b.hottest
    let b := b.setN healthPage 0x040 (tempCode h.1 + 2 ^ 16 * h.2)
    let b := b.setN healthPage 0x044 (((List.range 128).filter fun n => 0 < (b.therm n).duty).length)
    let b := b.ifSo (new.hotSince.isSome && old.hotSince.isNone) fun b =>
      (b.raise healthPage 0 none a 0 b.allLeaves).platformEvent healthPage 0
    let long : Bool := match new.hotSince with
      | some t => t + 100000000 ≤ b.now
      | none => false
    b.ifSo ((decide (1760 ≤ t) || long) && b.power.tripped == 0) fun b => b.thermalTrip a) s

/-- A rail more than 30 mV below its set point (R577). -/
def execVoltageDroop (monitor : Fin 64) (tenthMv : BitVec 16) (s : State) : Host.Outcome State Fault Refusal :=
  onBlock (fun b =>
    let b := b.setN healthPage (0x600 + 4 * monitor.val) tenthMv.toNat
    { b with power := { b.power with
      droop := BitVec.ofNat 64 (putField b.power.droop.toNat monitor 1 1) } }) s

/-- The rail is back within 30 mV of its set point (R577). -/
def execRailRecovers (monitor : Fin 64) (tenthMv : BitVec 16) (s : State) : Host.Outcome State Fault Refusal :=
  onBlock (fun b =>
    let b := b.setN healthPage (0x600 + 4 * monitor.val) tenthMv.toNat
    { b with power := { b.power with
      droop := BitVec.ofNat 64 (putField b.power.droop.toNat monitor 1 0) } }) s

/-- The domain a voltage monitor watches (R577). -/
def monitorDomain (i : Nat) : Nat := if i < 32 then i / 2 else 16 + (i - 32) / 8

/-- The domains whose clocks are stretched. -/
def Block.stretched (b : Block) : Nat :=
  ((List.range 20).filter fun d =>
    (List.range 64).any fun i => monitorDomain i == d && bitOf b.power.droop.toNat i).length

/-! Ageing (R579 to R583). -/

/-- The least slack of group `g`'s 32 monitors in a reading (R579). -/
def marginOf (slacks : List Int) (g : Nat) : Int :=
  let xs := (slacks.drop (32 * g)).take 32
  xs.foldl min (xs.headD 0)

def Block.offsetSteps (b : Block) (g : Nat) : Nat := b.fld ageingPage (0x100 + 4 * g) 0 5
def Block.fieldClk (b : Block) (f : Nat) : Nat := b.regN clockPage (0x050 + 4 * f)

/-- The days since first power-on, as the Steward's record counts them. -/
def Block.days (b : Block) : Nat := (b.power.ageNs + b.now) / 86400000000000

/-- A history entry (R588). -/
def Block.historyEntry (b : Block) (g clk : Nat) (margin : Int) : DWord :=
  BitVec.ofNat 64 (b.days % 2 ^ 32 + g * 2 ^ 32 + (g / 4) * 2 ^ 36 + b.offsetSteps g * 2 ^ 38 +
    clk / 25 % 256 * 2 ^ 43 + (max 0 (min 255 margin)).toNat * 2 ^ 51)

/-- Records a re-plan step, newest first, in 1,024 entries (R583). -/
def Block.recordStep (b : Block) (g clk : Nat) (margin : Int) : Block :=
  { b with power := { b.power with history := (b.historyEntry g clk margin :: b.power.history).take 1024 } }

/-- Whether a clock step of the field is decided and has not taken effect (R581). -/
def Block.stepDecided (b : Block) (f : Nat) : Bool := storeGet (fun _ => false) b.power.decided f

/-- Whether the field may decide a clock step today (R580). -/
def Block.clockStepToday (b : Block) (f : Nat) : Bool :=
  match storeGet (fun _ => none) b.power.lastClock f with
  | some d => d == b.days
  | none => false

/-- One re-plan step of group `g` at a margin below the guard (R580, R582): a voltage step, else a clock step at the
field's next quiesce point. -/
def Block.replanGroup (b : Block) (slacks : List Int) (g : Nat) : Block :=
  let f := g / 4
  let m := marginOf slacks g
  if m < b.regN ageingPage 0x044 then
    if b.offsetSteps g < 16 then
      let b := b.setFld ageingPage (0x100 + 4 * g) 0 5 (b.offsetSteps g + 1)
      (b.recordStep g (b.fieldClk f) m).raise ageingPage 0 none g 0 b.allLeaves
    else if b.regN ageingPage 0x048 < b.fieldClk f then
      if b.clockStepToday f || b.stepDecided f then b
      else
        let b := b.recordStep g (b.fieldClk f - 25) m
        let b := { b with power := { b.power with
          decided := storePut (fun _ => false) b.power.decided f true, lastClock := storePut (fun _ => none) b.power.lastClock f (some b.days) } }
        let b := b.raise ageingPage 0 none g 0 b.allLeaves
        b.each (List.range 32) fun b i => b.setFld (pageOf .array (32 * f + i)) 0x01C 0 1 1
    else if bitOf b.power.exhausted.toNat g then b
    else
      let b := b.raise ageingPage 1 none g
      { b with power := { b.power with exhausted := BitVec.ofNat 16 (b.power.exhausted.toNat ||| 2 ^ g) } }
  else b

/-- PROJ_YEARS (R583): the least ⌊100 H / U⌋ of the fields that took a step in the last 365 days. -/
def Block.projYears (b : Block) : Nat :=
  if b.power.exhausted ≠ 0 then 0
  else
    let h (f : Nat) : Nat := (((List.range 4).map fun i => 16 - b.offsetSteps (4 * f + i)).sum) +
      (b.fieldClk f - b.regN ageingPage 0x048) / 25
    let u (f : Nat) : Nat := (b.power.history.filter fun e =>
      fieldOf e.toNat 36 2 == f && b.days ≤ fieldOf e.toNat 0 32 + 365).length
    let ys := ((List.range 4).filter fun f => u f != 0).map fun f => 100 * h f / u f
    match ys with
    | [] => 0xFFFF
    | y :: r => min 0xFFFF (r.foldl min y)

/-- One reading of all 512 monitors: margins, re-plan steps, self-tests of groups without slack (R579 to R583). -/
def Block.ageingRead (b : Block) (slacks : List Int) : Block :=
  let b := b.set64 ageingPage 0x050 b.now
  let b := b.each (List.range 16) fun b g =>
    let b := b.setFld ageingPage (0x100 + 4 * g) 8 8 (max 0 (min 255 (marginOf slacks g))).toNat
    let b := b.replanGroup slacks g
    b.ifSo (marginOf slacks g < 0) fun b => b.each (domainArrays g) Block.selftestStart
  b.setN ageingPage 0x058 b.projYears

/-- A series of readings, 512 slacks each: each step's reading is taken at its new operating point (R580). -/
def Block.ageingSeries (b : Block) : Nat → List Int → Block
  | 0, _ => b
  | n + 1, xs => if xs.length < 512 then b else Block.ageingSeries (b.ageingRead (xs.take 512)) n (xs.drop 512)

/-- AGEING_READING: the Steward's reading every AG_PERIOD hours, with those taken after each step (R579, R580). -/
def execAgeingReading (slacks : List Int) (s : State) : Host.Outcome State Fault Refusal :=
  onBlock (fun b => b.ageingSeries (slacks.length / 512) slacks) s

/-- AGEING_MEASURE (R584). -/
def execAgeingMeasure (rq : Req) (slacks : List Int) (s : State) : Host.Outcome State Fault Refusal :=
  onBlock (fun b =>
    if rq.by_ ≠ .pf then b.reply rq 0x62 0x02 [0]
    else (b.ageingSeries (slacks.length / 512) slacks).reply rq 0x62 0x00 [0]) s

/-- AGEING_CONFIG (R584, R588). -/
def execAgeingConfig (rq : Req) (period guard_ floor : Nat) (s : State) : Host.Outcome State Fault Refusal :=
  onBlock (fun b =>
    if rq.by_ ≠ .pf then b.reply rq 0x63 0x02 [0]
    else if 1 ≤ period ∧ period ≤ 168 ∧ 5 ≤ guard_ ∧ guard_ ≤ 100 ∧ 1500 ≤ floor ∧ floor ≤ 2500 ∧ floor % 25 = 0 then
      (((b.setN ageingPage 0x040 period).setN ageingPage 0x044 guard_).setN ageingPage 0x048 floor).reply rq 0x63 0x00 [0]
    else b.reply rq 0x63 0x01 [0]) s

/-- Whether the field has a context operation, a lend or a reclaim in progress, or a lent array whose FILL_BAY breaks R487 at
the clock `clk` in MHz (R581). -/
def Block.fieldBusy (b : Block) (f clk : Nat) : Bool :=
  (List.range 32).any fun i =>
    let a := 32 * f + i
    b.fld (pageOf .array a) 0x05C 0 2 == 2 || ((b.arr a).lentTo.isSome && b.fld (pageOf .array a) 0x044 0 2 == 2) ||
      match (b.arr a).lentTo with
      | some l => clk * 6 < 7472 + fieldOf (b.part l.fill).record.toNat (8 * 0x34) 22 / 64
      | none => false

/-- A decided clock step takes effect at the field's quiesce point (R581). -/
def execClockStep (f : Fin 4) (s : State) : Host.Outcome State Fault Refusal :=
  onBlock (fun b =>
    let clk := b.fieldClk f - 25
    if b.stepDecided f && !b.fieldBusy f clk then
      let b := b.setN clockPage (0x050 + 4 * f.val) clk
      let b := { b with power := { b.power with decided := storePut (fun _ => false) b.power.decided f false } }
      b.each (List.range 32) fun b i => b.setFld (pageOf .array (32 * f.val + i)) 0x01C 0 1 0
    else b) s

/-! The input and the coolant (R625 to R629). -/

/-- Whether an input in 10 mV units lies in the tolerated range (R625). -/
def tolerated (mv : Nat) : Bool := (4800 ≤ mv && mv < 5000) || (5800 < mv && mv ≤ 6000)

/-- A reading of the 54 V input in the tolerated range raises INPUT_RANGE (R626, R633). -/
def execInputRange (tenMv : BitVec 16) (s : State) : Host.Outcome State Fault Refusal :=
  onBlock (fun b =>
    let b := b.setN powerPage 0x068 tenMv.toNat
    if tolerated tenMv.toNat then
      let first := b.power.rangeSince.isNone
      let b := { b with power := { b.power with rangeSince := some (b.power.rangeSince.getD b.now) } }
      b.ifSo first fun b => (b.raise powerPage 3 none tenMv.toNat).platformEvent powerPage 3
    else { b with power := { b.power with rangeSince := none } }) s

/-- Since when a condition has held, after a sample. -/
def heldSince (old : Option Nat) (now : Nat) (holds : Bool) : Option Nat :=
  if holds then some (old.getD now) else none

/-- Whether a condition has held for 10 s. -/
def heldLong (since : Option Nat) (now : Nat) : Bool :=
  match since with
  | some t => t + 10000000000 ≤ now
  | none => false

/-- A reading of the plate's thermistors, in 1/16 °C (R629, R634). -/
def execCoolantSample (inlet outlet : Int) (s : State) : Host.Outcome State Fault Refusal :=
  onBlock (fun b =>
    let b := (b.setN healthPage 0x048 (tempCode inlet)).setN healthPage 0x04C (tempCode outlet)
    let d := heldSince b.power.deltaSince b.now (decide (400 < outlet - inlet))
    let i := heldSince b.power.inletSince b.now (decide (640 < inlet))
    let dl := heldLong d b.now
    let il := heldLong i b.now
    let fresh := (dl && !b.power.deltaDone) || (il && !b.power.inletDone)
    let b := { b with power := { b.power with deltaSince := d, inletSince := i, deltaDone := dl, inletDone := il } }
    b.ifSo fresh fun b =>
      (b.raise healthPage 2 none (tempCode inlet) (tempCode outlet)).platformEvent healthPage 2) s

end Sys2Proof.Machine
end

