-- ==== Sys2Proof/Machine/Clock.lean ====
section
/-!
DEFINITION. The tick of the time base: what comes about in one nanosecond in which no command waits (R21, R575).
-/

namespace Sys2Proof.Machine

/-- The arrays a leaf has lent out now. -/
def Block.lentCount (b : Block) (p : Nat) : Nat := b.fld (pageOf .part p) 0x0D0 0 8

/-- The time base after one nanosecond, with what its slewing has carried (R430): parts per billion add up until they are a nanosecond
more or less. -/
def slewStep (now : Nat) (acc slew : Int) : Nat × Int :=
  let a := acc + slew
  if 1000000000 ≤ a then (now + 2, a - 1000000000)
  else if a ≤ -1000000000 then (now, a + 1000000000)
  else (now + 1, a)

/-- One nanosecond of the 1 GHz time base, with the counts of nanoseconds that run beside it: array-nanoseconds lent out
(R498, R594), time with D above 0 (R585) and stretched time over all domains (R577). -/
def Block.tickNs (b : Block) : Block :=
  let b := b.each (b.allLeaves.filter fun p => b.lentCount p != 0) fun b p =>
    (b.add64 (pageOf .part p) 0x0D8 (b.lentCount p)).countEv p 5 0 0x23 (b.lentCount p)
  let b := b.ifSo (b.regN powerPage 0x054 != 0) fun b => b.add64 powerPage 0x060 1
  let b := b.ifSo (b.power.droop != 0) fun b => b.add64 clockPage 0x060 b.stretched
  { b with now := (slewStep b.now b.slewAcc b.slew).1, slewAcc := (slewStep b.now b.slewAcc b.slew).2 }.drainFlows

/-- The step on an empty queue. -/
def idle (s : State) : State := { s with block := s.block.tickNs }

end Sys2Proof.Machine
end

