-- ==== Sys2Proof/Machine/Arrays.lean ====
section
/-!
DEFINITION. The matrix arrays (chapter 03): STREAM and its load, FOLD, context save and restore, parity, self-test and
retirement.
-/

namespace Sys2Proof.Machine

def arrayPage (a : Nat) : Nat := pageOf .array a
def vecPage (e : Nat) : Nat := pageOf .vec e

/-- Whether an array's pair may issue work: not in CONTEXT, RETIRED or test, not held by a FOLD, not stopped (R107, R113, R118). -/
def Block.arrayRuns (b : Block) (a : Nat) : Bool :=
  b.arrayState a ≤ 1 && b.fld (arrayPage a) 0x044 2 1 == 0 && b.fld (arrayPage a) 0x00C 0 1 == 0 && !(b.arr a).stopped

/-- The tile in slot `s` of an array; none where it holds none. -/
def Block.tile (b : Block) (a s : Nat) : Option Tile :=
  let st := b.regN (arrayPage a) 0x044
  if bitOf st (4 + s) then
    some ⟨if s = 0 then (b.arr a).slot0 else (b.arr a).slot1, fieldOf st (8 + 4 * s) 4, bitOf st (6 + s)⟩
  else none

/-- The entries [lo, lo + n) of column `c`. -/
def ArrayUnit.entry (x : ArrayUnit) (c e : Nat) : BitVec 40 := storeGet (fun _ => 0) x.entries (256 * c + e)

/-- Entry `e` of every column. -/
def ArrayUnit.entryRow (x : ArrayUnit) (e : Nat) : List (BitVec 40) := (List.range 128).map fun c => x.entry c e

/-- Writes entry `e` of every column. -/
def ArrayUnit.setEntryRow (x : ArrayUnit) (e : Nat) (ws : List (BitVec 40)) : ArrayUnit :=
  { x with entries := ws.zipIdx.foldl (fun m q => storePut (fun _ => 0) m (256 * q.2 + e) q.1) x.entries }

/-- How far a carriage came: it waits for a ring, it is done, or it ends with a fault. -/
inductive RowEnd where
  | wait
  | done
  | fault
  deriving DecidableEq, Repr

/-- The ring sides of a STREAM (R265). -/
def streamRings (a : Nat) (c : StreamC) : List RingSide :=
  (if c.aRing = 0 then [] else [⟨c.array, a, c.aRing, true⟩]) ++
  (if c.oRing = 0 || !c.writesRows then [] else [⟨c.array, a, c.oRing, false⟩]) ++
  (if c.tRing = 0 || !c.writesTrans then [] else [⟨c.array, a, c.tRing, false⟩])

/-- A row of activations with its scale bytes (R80, R99, R267). -/
def Block.streamInput (b : Block) (f : Flight) (a : Nat) (c : StreamC) (r : Nat) : Block × Got :=
  let side : RingSide := ⟨c.array, a, c.aRing, true⟩
  let pos := (f.ringStart side).getD 0 + r * c.aStride
  if c.aRing = 0 then b.readV f.ctx (bayVa c.array + c.aAddr + r * c.aStride) 128 else b.readRing f.ctx side pos 128

/-- The scale bytes of a row. -/
def Block.streamScales (b : Block) (f : Flight) (a : Nat) (c : StreamC) (r : Nat) : Block × Got :=
  let side : RingSide := ⟨c.array, a, c.aRing, true⟩
  let pos := (f.ringStart side).getD 0 + r * c.aStride
  if !isMx c.aFmt then (b, .ok [])
  else if c.aRing ≠ 0 && (b.ring a c.aRing).scaled then b.readRingScales f.ctx side pos 128
  else b.readV f.ctx (bayVa c.array + c.aScale + r * c.aSStride) (tileK c.aFmt / 32)

/-- Converts values through the drain of an array, each with whether it is saturated, counting the elements and using up the draws (R60 to
R62, R74). -/
def Block.drainVals (b : Block) (p a fmt conv : Nat) (vs : List (FVal × Bool)) : Block × List Byte × List Byte :=
  let x := b.arr a
  let draw (i : Nat) : Nat := (Config.srDraw (b.grant p).seed (2 * a) ((x.draws + i) % 2 ^ 64)).toNat
  let (scales, cs) := convRow fmt conv draw vs
  let b := b.ifSo (bitOf conv 0) fun b => b.setArr a { x with draws := (x.draws + vs.length) % 2 ^ 64 }
  (b.countConv p fmt cs, packElems fmt (cs.map (·.bits)), scales.map (BitVec.ofNat 8))

/-- Converts slots through the drain (R90, R91). -/
def Block.drain (b : Block) (p a fmt conv : Nat) (int : Bool) (oExp : Int) (ws : List (BitVec 40)) :
    Block × List Byte × List Byte :=
  b.drainVals p a fmt conv (ws.map (drainValue int oExp))

/-- One side of a drain: the ring, or the address and the scale address of its row. -/
structure DrainSide where
  ring   : Nat
  addr   : Nat
  stride : Nat
  scale  : Nat
  deriving DecidableEq, Repr

/-- Writes bytes of the drain to bay pieces, each through the drain compressor where it lies in its window (R294). -/
def Block.drainPieces (b : Block) (x : Ctx) (a num : Nat) : List (Nat × Nat) → List (Byte × Bool) → Block × Bool
  | [], _ => (b, true)
  | (o, n) :: r, bs =>
    match b.drainWrite x a (bayVa num + o) o (bs.take n) with
    | (b, true) => Block.drainPieces b x a num r (bs.drop n)
    | q => q

/-- Writes output row `r` with its scale bytes; false where its carriage ends with a fault status. -/
def Block.drainRow (b : Block) (f : Flight) (num a : Nat) (s : DrainSide) (r : Nat) (bs scales : List Byte) :
    Block × Bool :=
  let side : RingSide := ⟨num, a, s.ring, false⟩
  let scalesAt (b : Block) : Block × Bool :=
    if scales.isEmpty then (b, true) else b.drainWrite f.ctx a (bayVa num + s.scale) s.scale (clean scales)
  if s.ring = 0 then
    match b.drainWrite f.ctx a (bayVa num + s.addr + r * s.stride) (s.addr + r * s.stride) (clean bs) with
    | (b, false) => (b, false)
    | (b, true) => scalesAt b
  else
    let g := b.ring a s.ring
    let pos := (f.ringStart side).getD 0 + r * s.stride
    match b.drainPieces f.ctx a num (ringPieces g.base g.size pos bs.length) (clean bs) with
    | (b, false) => (b, false)
    | (b, true) =>
      match (if scales.isEmpty || !g.scaled then scalesAt b
        else
          let at_ := ringPieces g.sbase (g.size / g.div) (pos / g.div) scales.length
          b.drainPieces f.ctx a num at_ (clean scales)) with
      | (b, false) => (b, false)
      | (b, true) => (b.setRingPos a s.ring false ((f.ringStart side).getD 0 + (r + 1) * s.stride), true)

/-- The entry half an entry lies in is in integer mode. -/
def Block.halfInt (b : Block) (a e : Nat) : Bool := bitOf (b.regN (arrayPage a) 0x044) (16 + e / 128)

/-- Broadcasts row `r` of a STREAM against tile `t` and takes it through the tree into its entries; answers the output row, if the
carriage writes rows (R83 to R91). -/
def Block.streamRow (b : Block) (f : Flight) (a : Nat) (c : StreamC) (t : Tile) (r : Nat) :
    Block × List SkidRow × RowEnd :=
  let side : RingSide := ⟨c.array, a, c.aRing, true⟩
  if c.aRing ≠ 0 && !b.ringReady f side c.aStride r then (b, [], .wait)
  else
    match b.streamInput f a c r with
    | (b, .fault _) => (b, [], .fault)
    | (b, .ok row) =>
      match b.streamScales f a c r with
      | (b, .fault _) => (b, [], .fault)
      | (b, .ok sc) =>
        if anyMark row || anyMark sc then (b, [], .fault)
        else
          let b := b.ifSo (c.aRing ≠ 0) fun b => b.setRingPos a c.aRing true ((f.ringStart side).getD 0 + (r + 1) * c.aStride)
          let sums := rowSums t c.aFmt (raw row) ((raw sc).map (·.toNat))
          let e := c.entry + r
          let int := intPair c.aFmt t.fmt
          let adds := c.mode == 2 || c.mode == 3
          let ws := intoEntries adds (if adds then (b.arr a).entryRow e else List.replicate 128 0) sums
          let b := b.ifSo (c.mode ≠ 0) fun b => b.setArr a ((b.arr a).setEntryRow e ws)
          let b := b.ifSo (c.mode = 1) fun b => b.setFld (arrayPage a) 0x044 (16 + e / 128) 1 (b2n int)
          let b := (b.add64 (arrayPage a) 0x060 1).countEv f.part 0 a 0x10 1
          if c.writesRows then
            match b.drain f.part a c.oFmt c.conv int c.oExp ws with
            | (b, bs, scales) => (b, [⟨r, bs, scales⟩], .done)
          else (b, [], .done)

/-- Writes the rows of the skid buffer to the bay in order, as far as their ring takes them (R93, R266). -/
def Block.skidOut (b : Block) (f : Flight) (a : Nat) (c : StreamC) : List SkidRow → Block × List SkidRow × RowEnd
  | [] => (b, [], .done)
  | q :: qs =>
    if c.oRing ≠ 0 && !b.ringReady f ⟨c.array, a, c.oRing, false⟩ c.oStride q.row then (b, q :: qs, .wait)
    else
      match b.drainRow f c.array a ⟨c.oRing, c.oAddr, c.oStride, c.oScale + q.row * c.oSStride⟩ q.row q.bytes q.scales with
      | (b, true) => Block.skidOut b f a c qs
      | (b, false) => (b, q :: qs, .fault)

/-- How far a STREAM has come: its next row, its rows in the skid buffer, how it stands. -/
structure StreamAt where
  row  : Nat
  skid : List SkidRow
  fate : RowEnd
  deriving DecidableEq, Repr

/-- The rows of a STREAM from `at_` on, at most `n` of them. A row is broadcast only where the skid buffer, of which `room` rows are
left to this carriage, can take it; `out`: the rows of earlier carriages are all out of it (R93). -/
def Block.streamRows (b : Block) (f : Flight) (a : Nat) (c : StreamC) (t : Tile) (room : Nat) (out : Bool) :
    Nat → StreamAt → Block × StreamAt
  | 0, q => (b, q)
  | n + 1, q =>
    if room ≤ q.skid.length then (b, { q with fate := .wait })
    else
      match b.streamRow f a c t q.row with
      | (b, _, .fault) => (b, { q with fate := .fault })
      | (b, _, .wait) => (b, { q with fate := .wait })
      | (b, ks, .done) =>
        match (if out then b.skidOut f a c (q.skid ++ ks) else (b, q.skid ++ ks, .wait)) with
        | (b, ks, .fault) => (b, ⟨q.row + 1, ks, .fault⟩)
        | (b, ks, _) => Block.streamRows b f a c t room out n ⟨q.row + 1, ks, .done⟩

/-- The transposed block from column `k` on (R92). -/
def Block.transRows (b : Block) (f : Flight) (a : Nat) (c : StreamC) : Nat → Nat → Block × Nat × RowEnd
  | 0, k => (b, k, .done)
  | n + 1, k =>
    let side : RingSide := ⟨c.array, a, c.tRing, false⟩
    if c.tRing ≠ 0 && !b.ringReady f side c.tStride k then (b, k, .wait)
    else
      let ws := (List.range c.rows).map fun r => (b.arr a).entry k (c.entry + r)
      match b.drain f.part a c.oFmt c.conv (b.halfInt a c.entry) c.oExp ws with
      | (b, bs, scales) =>
        match b.drainRow f c.array a ⟨c.tRing, c.tAddr, c.tStride, c.tScale + k * (c.rows / 32)⟩ k bs scales with
        | (b, true) => Block.transRows b f a c n (k + 1)
        | (b, false) => (b, k, .fault)

/-- Whether an earlier STREAM of the array than flight `i` satisfies `p`. -/
def Block.earlierStream (b : Block) (a i : Nat) (p : Flight → StreamC → Bool) : Bool :=
  (b.flights.take i).any fun f => f.engine == a && cType f.word == 0x01 && p f (streamOf f.word)

/-- Whether an earlier carriage of the array still loads the slot that flight `i` streams from (R94). -/
def Block.slotPending (b : Block) (a i slot : Nat) : Bool :=
  b.earlierStream a i fun f c => !f.loads && c.load && c.slot != slot

/-- Whether an earlier carriage still has rows to broadcast, or a transposed burst to read from an entry half that this one touches (R92,
R102). -/
def Block.rowsWait (b : Block) (a i : Nat) (c : StreamC) : Bool :=
  b.earlierStream a i fun f e => !f.rows && (f.row < e.rows || (c.mode != 0 && e.writesTrans && [0, 1].any fun h =>
    decide (e.entry / 128 ≤ h) && decide (h ≤ (e.entry + e.rows - 1) / 128) &&
    decide (c.entry / 128 ≤ h) && decide (h ≤ (c.entry + c.rows - 1) / 128)))

/-- The rows of the skid buffer that the carriages other than flight `i` take up. -/
def Block.skidOthers (b : Block) (a i : Nat) : Nat :=
  ((b.flights.zipIdx.filter fun q => q.2 != i && q.1.engine == a).map fun q => q.1.skid.length).sum

/-- Whether the rows of earlier carriages are out of the skid buffer. -/
def Block.skidFirst (b : Block) (a i : Nat) : Bool := !b.earlierStream a i fun f _ => !f.skid.isEmpty

/-- Writes what a STREAM whose rows are all broadcast has still to write: its rows in the skid buffer, then its transposed block (R92,
R101). -/
def Block.streamOut (b : Block) (a i : Nat) (f : Flight) : Block :=
  let c := streamOf f.word
  match (if b.skidFirst a i then b.skidOut f a c f.skid else (b, f.skid, if f.skid.isEmpty then .done else .wait)) with
  | (b, _, .fault) => b.endFault i f
  | (b, ks, e) =>
    if !c.writesTrans then b.setFlight i { f with skid := ks, rows := e == .done }
    else
      match b.transRows f a c (128 - f.plane) f.plane with
      | (b, _, .fault) => b.endFault i f
      | (b, k, e') => b.setFlight i { f with skid := ks, plane := k, rows := e == .done && e' == .done }

/-- Broadcasts at most `n` rows of a STREAM as far as its rings let it, and writes its output. -/
def Block.streamRun (b : Block) (a i n : Nat) (f : Flight) : Block :=
  let c := streamOf f.word
  if !b.arrayRuns a || b.slotPending a i c.slot || b.rowsWait a i c then b
  else
    match b.tile a c.slot, b.ringsStart i f (streamRings a c) with
    | none, _ => b.endFault i f
    | some _, none => b
    | some t, some f =>
      if widthClass t.fmt != widthClass c.aFmt then b.endFault i f
      else
        match b.streamRows f a c t (16 - b.skidOthers a i) (b.skidFirst a i) (min n (c.rows - f.row)) ⟨f.row, f.skid, .done⟩ with
        | (b, ⟨_, _, .fault⟩) => b.endFault i f
        | (b, q) =>
          let f := { f with row := q.row, skid := q.skid }
          if q.row < c.rows then
            match (if b.skidFirst a i then b.skidOut f a c f.skid else (b, f.skid, .wait)) with
            | (b, _, .fault) => b.endFault i f
            | (b, ks, _) => b.setFlight i { f with skid := ks }
          else b.streamOut a i f

/-- Picks the STREAMs of an array whose output is not all in the bay. -/
def streamSel (a : Nat) (f : Flight) : Bool := f.engine == a && cType f.word == 0x01 && !f.rows

/-- The oldest STREAM of an array that has only output left writes it as far as it can, and the oldest that has rows to broadcast
broadcasts at most `n` of them (R92, R102). -/
def Block.streamStep (b : Block) (a n : Nat) : Block :=
  let b := b.runFlight (fun f => streamSel a f && (streamOf f.word).rows ≤ f.row) fun b i f =>
    if b.arrayRuns a then b.streamOut a i f else b
  b.runFlight (fun f => streamSel a f && f.row < (streamOf f.word).rows) fun b i f => b.streamRun a i n f

/-- STREAM (R99). -/
def execStream (w : Work 128) (s : State) : Host.Outcome State Fault Refusal := onBlock (fun b => b.streamStep w.unit w.most) s

/-! Loading a slot (R94 to R98). -/

/-- Whether an earlier or the same carriage still has rows to broadcast from slot `s` (R95). -/
def Block.slotBusy (b : Block) (a i s : Nat) : Bool :=
  b.earlierStream a (i + 1) fun f c => !f.rows && f.row < c.rows && c.slot == s

/-- The elements of a tile's source region from raw bytes in the bay: rows of `cols` packed elements. -/
def Block.rawTile (b : Block) (f : Flight) (c : StreamC) : Block × (List (List (Byte × Bool)) ⊕ Nat) :=
  let shape := tileShape c.lFmt c.lTrans
  (List.range shape.1).foldl (fun acc r =>
    match acc with
    | (b, .inr va) => (b, .inr va)
    | (b, .inl rows) =>
      match b.readV f.ctx (bayVa c.array + c.lAddr + r * c.lStride) (elemBytes c.lFmt shape.2) with
      | (b, .fault va) => (b, .inr va)
      | (b, .ok bs) => (b, .inl (rows ++ [bs]))) (b, .inl [])

/-- The packed bytes of a tile that lies in Privet form: four 4 KiB blocks by their index entries (R96, R291). -/
def Block.privetTile (b : Block) (f : Flight) (a : Nat) (c : StreamC) : Block × (List (Byte × Bool) ⊕ Nat) :=
  (List.range 4).foldl (fun acc i =>
    match acc with
    | (b, .inr va) => (b, .inr va)
    | (b, .inl out) =>
      match b.expandAt f.ctx ⟨f.part, a / 32, 4096, 0, 0, a⟩ (bayVa c.array + c.lAddr + 8 * i) (bayVa c.array + c.lStride)
          fun b va n => b.readV f.ctx va n with
      | (b, .fault va, _) => (b, .inr va)
      | (b, .ok bs, _) => (b, .inl (out ++ bs))) (b, .inl [])

/-- Places a loaded slot and records it in ARRAY_STATE. -/
def Block.placeSlot (b : Block) (a s : Nat) (slot : Slot) (valid trans : Bool) (fmt : Nat) : Block :=
  let x := b.arr a
  let b := b.setArr a (if s = 0 then { x with slot0 := slot } else { x with slot1 := slot })
  let page := arrayPage a
  ((b.setFld page 0x044 (4 + s) 1 (b2n valid)).setFld page 0x044 (6 + s) 1 (b2n trans)).setFld page 0x044 (8 + 4 * s) 4 fmt

/-- The scale bytes of a tile (R98). -/
def Block.tileScales (b : Block) (f : Flight) (c : StreamC) : Block × Got :=
  if isMx c.lFmt then b.readV f.ctx (bayVa c.array + c.lScale) (tileK c.lFmt * 4) else (b, .ok [])

/-- Ends a load: the slot holds the tile; poisoned input ends the carriage with a fault status and leaves the slot empty
(R234). -/
def Block.loadEnd (b : Block) (a i : Nat) (f : Flight) (c : StreamC) (src : Nat → Nat → Nat) (marked : Bool) : Block :=
  let s := 1 - c.slot
  match b.tileScales f c with
  | (b, .fault _) => (b.placeSlot a s Slot.none false false 0).endFault i f
  | (b, .ok sc) =>
    if marked || anyMark sc then (b.placeSlot a s Slot.none false false 0).endFault i f
    else (b.placeSlot a s (buildSlot c.lFmt c.lBaxis c.lTrans src (raw sc)) true c.lTrans c.lFmt).setFlight i
      { f with loads := true }

/-- The load of an array that takes bytes from its inbox now: the oldest that is not done, if its source is the inbox and its slot is free
(R95, R96). -/
def Block.inboxLoad (b : Block) (a : Nat) : Option Nat :=
  match b.flights.findIdx? fun f => f.engine == a && cType f.word == 0x01 && !f.loads with
  | none => none
  | some i => match b.flights[i]? with
    | none => none
    | some f =>
      let c := streamOf f.word
      if c.lSrc = 2 ∧ b.arrayRuns a ∧ !b.slotBusy a i (1 - c.slot) then some i else none

/-- The loader takes what its inbox holds, in whole credit units, up to a tile (R96, R255). -/
def Block.inboxPump (b : Block) (a : Nat) : Block :=
  match b.inboxLoad a with
  | none => b
  | some i => match b.flights[i]? with
    | none => b
    | some f =>
      let x := b.arr a
      let n := min (16384 - f.buf.length) (x.inbox.length / 64 * 64)
      (b.setArr a { x with inbox := x.inbox.drop n }).setFlight i { f with buf := f.buf ++ x.inbox.take n }

/-- The load of flight `i` (R94 to R98). -/
def Block.loadRun (b : Block) (a i : Nat) (f : Flight) : Block :=
  let c := streamOf f.word
  let cols := (tileShape c.lFmt c.lTrans).2
  if !b.arrayRuns a || b.slotBusy a i (1 - c.slot) then b
  else if c.lSrc = 0 then
    match b.rawTile f c with
    | (b, .inr _) => (b.placeSlot a (1 - c.slot) Slot.none false false 0).endFault i f
    | (b, .inl rows) =>
      b.loadEnd a i f c (fun r k => elemAt c.lFmt (raw (rows.getD r [])) k) (rows.any anyMark)
  else if c.lSrc = 1 then
    match b.privetTile f a c with
    | (b, .inr _) => (b.placeSlot a (1 - c.slot) Slot.none false false 0).endFault i f
    | (b, .inl bs) => b.loadEnd a i f c (fun r k => slotElemAt c.lFmt (raw bs) (r * cols + k)) (anyMark bs)
  else
    let b := b.inboxPump a
    match b.flights[i]? with
    | none => b
    | some f =>
      if f.buf.length < 16384 then b
      else b.loadEnd a i { f with buf := [] } c (fun r k => slotElemAt c.lFmt (raw f.buf) (r * cols + k)) (anyMark f.buf)

/-- SLOT_LOAD_DONE (R94): the oldest load of the array. -/
def execSlotLoadDone (a : Fin 128) (s : State) : Host.Outcome State Fault Refusal :=
  onBlock (fun b => b.runFlight (fun f => f.engine == a.val && cType f.word == 0x01 && !f.loads) fun b i f =>
    b.loadRun a i f) s

end Sys2Proof.Machine
end

