-- ==== Sys2Proof/Machine/Fold.lean ====
section
/-!
DEFINITION. FOLD and its sequencers (R103 to R107): the work of a carriage tile by tile, and the hold on its arrays.
-/

namespace Sys2Proof.Machine

/-- What a FOLD needs to know of itself: its carriage, its context, the physical arrays of its mask. -/
structure FoldJob where
  c     : FoldC
  ctx   : Ctx
  units : List Nat
  deriving DecidableEq, Repr

/-- The arrays of a FOLD of leaf `p`, in the order of its mask. -/
def Block.foldUnits (b : Block) (p : Nat) (c : FoldC) : List Nat :=
  c.members.filterMap fun k => b.arrayUnit p (32 * c.field + k)

/-- The job of a FOLD in flight. -/
def Block.foldJob (b : Block) (f : Flight) : FoldJob := ⟨foldOf f.word, f.ctx, b.foldUnits f.part (foldOf f.word)⟩

/-- The FOLD in flight that sequencer `q` runs. -/
def Block.foldFlight (b : Block) (q : Nat) : Option (Nat × Flight) :=
  match b.fold q with
  | none => none
  | some r =>
    match b.flights.findIdx? fun f => f.engine == engFold q && f.word == r.word && !f.done with
    | none => none
    | some i => (b.flights[i]?).map fun f => (i, f)

/-- ARRAY_STATE.FOLD_HELD (R121). -/
def Block.foldHeld (b : Block) (a : Nat) : Bool := b.fld (arrayPage a) 0x044 2 1 == 1
def Block.setFoldHeld (b : Block) (a v : Nat) : Block := (b.setFld (arrayPage a) 0x044 2 1 v).touchEngine a

/-- The sequencer whose FOLD, begun, has array `a` in its mask. -/
def Block.foldOn (b : Block) (a : Nat) : Option Nat :=
  (List.range 8).find? fun q => ((b.fold q).map (·.begun)).getD false &&
    match b.foldFlight q with
    | some (_, f) => (b.foldJob f).units.contains a
    | none => false

/-- Sequencer `q` lets go of its FOLD and its arrays (R107). -/
def Block.foldRelease (b : Block) (q : Nat) : Block :=
  match b.foldFlight q with
  | none => b.setFold q none
  | some (_, f) =>
    (b.each ((b.foldJob f).units.filter b.foldHeld) fun b a => b.setFoldHeld a 0).setFold q none

/-- Ends with a fault status every carriage that runs on an engine `sel` picks. -/
def Block.faultFlights (b : Block) (sel : Flight → Bool) : Block :=
  b.each b.flights.zipIdx fun b q => if sel q.1 && !q.1.done then b.endFault q.2 q.1 else b

/-- Ends with a fault status what runs on a pair, the FOLD that holds it among it. -/
def Block.faultPair (b : Block) (a : Nat) : Block :=
  let b := match b.foldOn a with
    | none => b
    | some q => match b.foldFlight q with
      | some (i, f) => (b.foldRelease q).endFault i f
      | none => b
  b.faultFlights fun f => f.engine == a || f.engine == engVec a

/-- FOLD: the sequencer takes its next carriage. -/
def execFold (q : Fin 8) (s : State) : Host.Outcome State Fault Refusal :=
  onBlock (fun b =>
    if (b.fold q).isSome then b
    else match b.flights.find? fun f => f.engine == engFold q && !f.done with
      | some f => b.setFold q (some ⟨f.word, false, 0, 0, 0, []⟩)
      | none => b) s

/-- A FOLD's read of its field's yard, its bytes and whether they may be used. -/
def Block.foldRead (b : Block) (x : Ctx) (field off n : Nat) : Block × Option (List Byte) :=
  match b.readV x (yardVa field + off) n with
  | (b, .fault _) => (b, none)
  | (b, .ok bs) => (b, if anyMark bs then none else some (raw bs))

/-- Element rows [r0, r0 + rows) and columns [c0, c0 + cols) of the logical weight, as bytes per row. -/
def Block.foldWeight (b : Block) (j : FoldJob) (r0 rows c0 cols : Nat) : Block × Option (List (List Byte)) :=
  (List.range rows).foldl (fun acc r =>
    match acc with
    | (b, none) => (b, none)
    | (b, some out) =>
      match b.foldRead j.ctx j.c.field (j.c.wAddr + (r0 + r) * j.c.wStride + elemBytes j.c.wFmt c0)
          (elemBytes j.c.wFmt cols) with
      | (b, none) => (b, none)
      | (b, some bs) => (b, some (out ++ [bs]))) (b, some [])

/-- The scale bytes of the source region at (r0, c0), in source order (R98). -/
def Block.foldScales (b : Block) (j : FoldJob) (r0 rows c0 cols : Nat) : Block × Option (List Byte) :=
  if !isMx j.c.wFmt then (b, some [])
  else
    let lines := if j.c.baxis = 0 then rows / 32 else rows
    let first := if j.c.baxis = 0 then r0 / 32 else r0
    let off := if j.c.baxis = 0 then c0 else c0 / 32
    let n := if j.c.baxis = 0 then cols else cols / 32
    (List.range lines).foldl (fun acc r =>
      match acc with
      | (b, none) => (b, none)
      | (b, some out) =>
        match b.foldRead j.ctx j.c.field (j.c.wScale + (first + r) * j.c.wSStride + off) n with
        | (b, none) => (b, none)
        | (b, some bs) => (b, some (out ++ bs))) (b, some [])

/-- Loads tile (k, n) of the logical weight into slot `s` of array `a` (R97, R106). -/
def Block.foldLoad (b : Block) (j : FoldJob) (a s k n : Nat) : Block × Bool :=
  let c := j.c
  let kk := tileK c.wFmt
  let shape := tileShape c.wFmt c.trans
  let r0 := if c.trans then n * 128 else k * kk
  let c0 := if c.trans then k * kk else n * 128
  match b.foldWeight j r0 shape.1 c0 shape.2 with
  | (b, none) => (b, false)
  | (b, some rows) =>
    match b.foldScales j r0 shape.1 c0 shape.2 with
    | (b, none) => (b, false)
    | (b, some sc) =>
      let slot := buildSlot c.wFmt c.baxis c.trans (fun r q => elemAt c.wFmt (rows.getD r []) q) sc
      (b.placeSlot a s slot true c.trans c.wFmt, true)

/-- Streams rows [g, g + n) of X against the tile in slot `s` for reduction tile `k`, into entries 0 to n − 1 (R106). -/
def Block.foldStream (b : Block) (j : FoldJob) (a s k g n : Nat) (first : Bool) : Block × Bool :=
  let c := j.c
  match b.tile a s with
  | none => (b, false)
  | some t =>
    (List.range n).foldl (fun acc r =>
      match acc with
      | (b, false) => (b, false)
      | (b, true) =>
        match b.foldRead j.ctx c.field (c.xAddr + (g + r) * c.xStride + 128 * k) 128 with
        | (b, none) => (b, false)
        | (b, some row) =>
          let per := tileK c.aFmt / 32
          match (if isMx c.aFmt then b.foldRead j.ctx c.field (c.xScale + (g + r) * c.xSStride + per * k) per
              else (b, some [])) with
          | (b, none) => (b, false)
          | (b, some sc) =>
            let ws := intoEntries (!first) ((b.arr a).entryRow r) (rowSums t c.aFmt row (sc.map (·.toNat)))
            let b := b.setArr a ((b.arr a).setEntryRow r ws)
            let b := b.ifSo first fun b => b.setFld (arrayPage a) 0x044 (16 + r / 128) 1 (b2n (intPair c.aFmt c.wFmt))
            ((b.add64 (arrayPage a) 0x060 1).countEv j.ctx.part 0 a 0x10 1, true)) (b, true)

/-- Writes bytes into a FOLD's yard; false where the write is forbidden. -/
def Block.foldWrite (b : Block) (j : FoldJob) (off : Nat) (bs : List Byte) : Block × Bool :=
  match b.writeV j.ctx (yardVa j.c.field + off) (clean bs) with
  | (b, none) => (b, true)
  | (b, some _) => (b, false)

/-- The results of unit `u` of column block `n`: rows of Y, or partials in SCRATCH (R106). DEDUCED (log 177): the partials of an integer
FOLD are INT32, not FP32, so that every split equals the unsplit result (R69, R72). -/
def Block.foldOut (b : Block) (j : FoldJob) (a u n g rows : Nat) (split : Bool) : Block × Bool :=
  let c := j.c
  let int := intPair c.aFmt c.wFmt
  (List.range rows).foldl (fun acc r =>
    match acc with
    | (b, false) => (b, false)
    | (b, true) =>
      let ws := (b.arr a).entryRow r
      if split then
        match b.drain j.ctx.part a (if int then 0xD else 0) 0 int 0 ws with
        | (b, bs, _) => b.foldWrite j (c.scratch + u * 131072 + r * 512) bs
      else
        match b.drain j.ctx.part a c.oFmt c.conv int c.oExp ws with
        | (b, bs, sc) =>
          match b.foldWrite j (c.yAddr + (g + r) * c.yStride + elemBytes c.oFmt (128 * n)) bs with
          | (b, false) => (b, false)
          | (b, true) => if sc.isEmpty then (b, true) else b.foldWrite j (c.yScale + (g + r) * c.ySStride + 4 * n) sc)
    (b, true)

/-- Adds neighbours of a list of partials until one is left: FP32, or INT32 saturating (R69, R106). -/
def combine (int : Bool) (ps : List (List Word)) : List Word :=
  let add (x y : Word) : Word := if int then ofI32 (int32Sum [i32 x, i32 y]) else f32Add x y
  (treeLevels (fun a c => List.zipWith add a c) 3 ps).headD []

/-- The value a combined word is converted from; an INT32 limit is a saturated value (R69, R90). -/
def combinedValue (int : Bool) (oExp : Int) (w : Word) : FVal × Bool :=
  if !int then (scaleV oExp (decF32 w), false)
  else if i32 w = 2147483647 ∨ i32 w = -2147483648 then (f32Max (decide (i32 w < 0)), true)
  else (scaleV oExp (intV (i32 w)), false)

/-- The combine of the s partials of every column block of a group (R106). The spec names no stream of draws for it: each draw is a free
value (log 46). -/
def Block.foldCombine (b : Block) (j : FoldJob) (s g rows : Nat) : Block × Bool :=
  let c := j.c
  let int := intPair c.aFmt c.wFmt
  (List.range (c.nBlocks * rows)).foldl (fun acc i =>
    match acc with
    | (b, false) => (b, false)
    | (b, true) =>
      let n := i / rows
      let r := i % rows
      let (b, parts) := (List.range s).foldl (fun (acc : Block × List (Option (List Byte))) p =>
        let (b, got) := acc.1.foldRead j.ctx c.field (c.scratch + (n * s + p) * 131072 + r * 512) 512
        (b, acc.2 ++ [got])) (b, [])
      if parts.any Option.isNone then (b, false)
      else
        let sum := combine int (parts.map fun o => wordsOf 128 (o.getD []))
        let draw (k : Nat) : Nat := (Config.freeValue (b.free + k)).toNat % 65536
        let (scales, cs) := convRow c.oFmt c.conv draw (sum.map (combinedValue int c.oExp))
        let b := (b.ifSo (bitOf c.conv 0) fun b => { b with free := b.free + 128 }).countConv j.ctx.part c.oFmt cs
        match b.foldWrite j (c.yAddr + (g + r) * c.yStride + elemBytes c.oFmt (128 * n))
            (packElems c.oFmt (cs.map (·.bits))) with
        | (b, false) => (b, false)
        | (b, true) =>
          if scales.isEmpty then (b, true)
          else b.foldWrite j (c.yScale + (g + r) * c.ySStride + 4 * n) (scales.map (BitVec.ofNat 8))) (b, true)

/-- The tile a FOLD comes to next: it is loaded into the idle slot of its array and the rows of the group are streamed against it; the last
tile of a unit ends with the unit's output, the last unit of a group with the combine (R105, R106). The answer holds where the FOLD
then stands, and whether it goes on without a fault. DESIGN CHOICE (log 178): the first tile of an array goes into slot 0. -/
def Block.foldTile (b : Block) (j : FoldJob) (x : FoldRun) : Block × FoldRun × Bool :=
  let s := j.c.parts j.units.length
  let k := x.unit % j.units.length
  let a := j.units.getD k 0
  let n := x.unit / s
  let lo := x.unit % s * j.c.kTiles / s
  let hi := (x.unit % s + 1) * j.c.kTiles / s
  let g := 256 * x.group
  let rows := min 256 (j.c.rows - g)
  let slot := x.turn.getD k 0
  let x := { x with turn := x.turn.set k (1 - slot) }
  match b.foldLoad j a slot (lo + x.tile) n with
  | (b, false) => (b, x, false)
  | (b, true) =>
    match b.foldStream j a slot (lo + x.tile) g rows (x.tile == 0) with
    | (b, false) => (b, x, false)
    | (b, true) =>
      if lo + x.tile + 1 < hi then (b, { x with tile := x.tile + 1 }, true)
      else
        match b.foldOut j a x.unit n g rows (1 < s) with
        | (b, false) => (b, x, false)
        | (b, true) =>
          if x.unit + 1 < j.c.nBlocks * s then (b, { x with unit := x.unit + 1, tile := 0 }, true)
          else
            match (if 1 < s then b.foldCombine j s g rows else (b, true)) with
            | (b, ok) => (b, { x with group := x.group + 1, unit := 0, tile := 0 }, ok)

/-- The tiles of a FOLD, at most `n` of them. -/
def Block.foldTiles (b : Block) (j : FoldJob) : Nat → FoldRun → Block × FoldRun × Bool
  | 0, x => (b, x, true)
  | n + 1, x =>
    if ceilDiv j.c.rows 256 ≤ x.group then (b, x, true)
    else match b.foldTile j x with
      | (b, x, true) => Block.foldTiles b j n x
      | q => q

/-- Whether an array has no carriage and may be held by a FOLD (R107). -/
def Block.arrayIdle (b : Block) (a : Nat) : Bool :=
  b.arrayRuns a && !(b.flights.any fun f => f.engine == a && !f.done)

/-- Whether an array that a FOLD holds works for it now: not in CONTEXT, RETIRED or test, not stopped. -/
def Block.foldReady (b : Block) (a : Nat) : Bool :=
  b.foldHeld a && b.arrayState a ≤ 1 && b.fld (arrayPage a) 0x00C 0 1 == 0 && !(b.arr a).stopped

/-- Holds the arrays of a FOLD once every one of them is idle (R107). -/
def Block.foldBegin (b : Block) (q : Nat) (x : FoldRun) (units : List Nat) : Block × FoldRun :=
  if x.begun || units.isEmpty || !units.all b.arrayIdle then (b, x)
  else
    let x := { x with begun := true, turn := units.map fun _ => 0 }
    ((b.each units fun b a => b.setFoldHeld a 1).setFold q (some x), x)

/-- FOLD_START (R106, R107): once every array of the mask is idle the FOLD holds them; it runs at most the tiles that the command names, and
lets the arrays go when it has completed. -/
def execFoldStart (w : Work 8) (s : State) : Host.Outcome State Fault Refusal :=
  onBlock (fun b =>
    let q := w.unit.val
    match b.fold q with
    | none => b
    | some x => b.runFlight (fun f => f.engine == engFold q && f.word == x.word && !f.done) fun b i f =>
        let j := b.foldJob f
        match b.foldBegin q x j.units with
        | (b, x) =>
          if !x.begun || !j.units.all b.foldReady then b
          else
            match b.foldTiles j w.most x with
            | (b, _, false) => (b.foldRelease q).endFault i f
            | (b, x, true) =>
              if ceilDiv j.c.rows 256 ≤ x.group then (b.foldRelease q).setFlight i f.finish
              else b.setFold q (some x)) s

end Sys2Proof.Machine
end

