-- ==== Sys2Proof/Machine/Contexts.lean ====
section
/-!
DEFINITION. The contexts of array pairs (R112 to R117, R154, R155): saving, restoring, ZERO; parity, the self-test and retirement (R118 to
R120, R156).
-/

namespace Sys2Proof.Machine

/-! Contexts (R112 to R117, R154, R155). -/

/-- Where a parked carriage of an image stands: images are known by the page of their yard address; those that the Steward keeps
for lenders and fill slots by numbers of their own. -/
def parkEngine (key : Nat) (vec : Bool) : Nat := 2 ^ 20 + 2 * key + b2n vec

/-- The image of a lender's array, and of a fill slot. -/
def lenderKey (a : Nat) : Nat := 2 ^ 40 + a
def slotImageKey (k : Nat) : Nat := 2 ^ 41 + k

/-- The carriage that runs on a pair goes into its image with its position, or comes back (R113, R115). -/
def Block.parkFlights (b : Block) (a key : Nat) : Block :=
  { b with flights := b.flights.map fun f =>
      if f.done then f
      else if f.engine = a then { f with engine := parkEngine key false }
      else if f.engine = engVec a then { f with engine := parkEngine key true } else f }

def Block.unparkFlights (b : Block) (a key : Nat) : Block :=
  { b with flights := b.flights.map fun f =>
      if f.engine = parkEngine key false then { f with engine := a }
      else if f.engine = parkEngine key true then { f with engine := engVec a } else f }

/-- STATE of both pages of a pair. -/
def Block.setPairState (b : Block) (a v : Nat) : Block :=
  (b.setArrayState a v).setFld (vecPage a) 0x040 0 2 v

/-- Holds an image's contents under a key. The state of a sequencer goes into the image of the lowest array of its FOLD (R113). -/
def Block.keepImage (b : Block) (a key : Nat) : Block :=
  let run := match b.foldOn a with
    | none => none
    | some q => match b.foldFlight q with
      | some (_, f) => if (b.foldJob f).units.all (a ≤ ·) then (b.fold q).map fun x => (q, x) else none
      | none => none
  (b.setImage key ⟨b.arr a, b.vec a, b.reg (arrayPage a) 0x044, run, true⟩).parkFlights a key

/-- The sequencer state that an image holds comes back, if its FOLD still waits for it (R115). -/
def Block.takeFold (b : Block) (m : CtxImage) : Block :=
  match m.fold with
  | some (q, x) => if (b.fold q).map (·.word) = some x.word then b.setFold q (some x) else b
  | none => b

/-- VEC_STATE.PASS follows the carriage that runs on the engine (R157). -/
def Block.showPass (b : Block) (a : Nat) : Block :=
  let pass := match b.flights.find? fun f => f.engine == engVec a && !f.done with
    | some f => (f.inRow.map (·.pass)).getD 0
    | none => 0
  b.setFld (vecPage a) 0x040 2 1 pass

/-- Gives a pair the contents of an image; an image that holds none gives zeros. Ring positions, PARITY history, the lend and the
drain compressor are no part of a context. -/
def Block.takeImage (b : Block) (a key : Nat) (m : CtxImage) : Block :=
  let x := b.arr a
  let b := b.setArr a { x with
    slot0 := m.array.slot0, slot1 := m.array.slot1, entries := m.array.entries, inbox := m.array.inbox,
    compat := m.array.compat, draws := m.array.draws, stopped := false }
  let b := (b.setVec a m.vec).takeFold m
  let held := m.valid && bitOf m.state.toNat 2 && (b.foldOn a).isSome
  let st := b.regN (arrayPage a) 0x044 % 4 + 4 * b2n held + (if m.valid then m.state.toNat / 16 * 16 else 0)
  ((b.setN (arrayPage a) 0x044 st).unparkFlights a key).showPass a

/-- The rows that stand in the skid buffer of a pair, the oldest carriage's first (R93, R112). -/
def Block.skidRows (b : Block) (a : Nat) : List SkidRow :=
  (b.flights.filter fun f => f.engine == a && !f.done).flatMap (·.skid)

/-- Writes the defined bytes of an image at a device address (R112, R154). The spec gives no layout inside the control areas: their bytes
are free values, and what they hold is kept beside the image (log 49). -/
def Block.putImage (b : Block) (a at_ : Nat) : Block :=
  let x := b.arr a
  let b := b.zero at_ (at_ + 0x3D000)
  let put8 (base : Nat) (m : Store Byte) (b : Block) : Block :=
    { b with mem := m.foldl (fun mem e => storePut memDefault mem (at_ + base + e.1) e.2) b.mem }
  let b := b.each x.entries fun b e => b.putNum (at_ + 5 * e.1) 5 e.2.toNat
  let b := put8 0x28000 x.slot0.bytes b
  let b := put8 0x2C000 x.slot1.bytes b
  let b := put8 0x30000 x.slot0.scales b
  let b := put8 0x30400 x.slot1.scales b
  let b := b.each (b.skidRows a).zipIdx fun b q => b.put (at_ + 0x30800 + 512 * q.2) q.1.bytes false
  let b := b.putM (at_ + 0x32800) (x.inbox.take 4096)
  let b := b.each (b.vec a).regs fun b e => b.putNum (at_ + 0x34000 + 4 * e.1) 4 e.2.toNat
  (b.scramble (at_ + 0x33800) 0x800).scramble (at_ + 0x3C000) 0x1000

/-- The rows of the skid buffer as an image's bytes give them. -/
def Block.skidBack (b : Block) (at_ : Nat) : List Flight → Nat → List Flight
  | [], _ => []
  | f :: r, n =>
    { f with skid := f.skid.zipIdx.map fun q => { q.1 with bytes := b.bytes (at_ + 0x30800 + 512 * (n + q.2)) q.1.bytes.length } } ::
      Block.skidBack b at_ r (n + f.skid.length)

/-- Reads an image's defined bytes back, with the control state kept beside them. -/
def Block.getImage (b : Block) (at_ key : Nat) : CtxImage :=
  let m := b.image key
  let bytes (base n : Nat) : Store Byte := storeOf 0 (b.bytes (at_ + base) n)
  { m with
    array := { m.array with
      entries := storeOf 0 ((List.range 32768).map fun k => BitVec.ofNat 40 (b.num (at_ + 5 * k) 5)),
      inbox := b.getM (at_ + 0x32800) m.array.inbox.length,
      slot0 := { m.array.slot0 with bytes := bytes 0x28000 16384, scales := bytes 0x30000 1024 },
      slot1 := { m.array.slot1 with bytes := bytes 0x2C000 16384, scales := bytes 0x30400 1024 } },
    vec := { m.vec with
      regs := storeOf 0 ((List.range 8192).map fun k => BitVec.ofNat 32 (b.num (at_ + 0x34000 + 4 * k) 4)) } }

/-- The carriages parked with an image take their rows of the skid buffer from its bytes. -/
def Block.getSkid (b : Block) (at_ key : Nat) : Block :=
  let parked := b.skidBack at_ (b.flights.filter fun f => f.engine == parkEngine key false) 0
  { b with flights := (b.flights.foldl (fun (acc : List Flight × List Flight) f =>
      if f.engine = parkEngine key false then (acc.1 ++ acc.2.take 1, acc.2.drop 1) else (acc.1 ++ [f], acc.2)) ([], parked)).1 }

/-- Whether an image carries poison outside the inbox, whose marks come back with it (R234). DEDUCED (log 179): a restore that reads such
poison fails as one that meets a parity error (R117). -/
def Block.imageMarked (b : Block) (at_ : Nat) : Bool :=
  (List.range 0xF40).any fun i => !(decide (0xCA0 ≤ i) && decide (i < 0xCE0)) && b.marked (at_ / 64 + i)

def Block.ctxAddr (b : Block) (a : Nat) : Nat := b.reg64 (arrayPage a) 0x050

/-- CTX_STATUS.RESULT (R121). -/
def Block.setCtxResult (b : Block) (a v : Nat) : Block := b.setN (arrayPage a) 0x05C v

/-- Whether a context operation may start on a pair. -/
def Block.ctxFree (b : Block) (a : Nat) : Bool := b.arrayState a ≤ 1 && b.fld (arrayPage a) 0x00C 0 1 == 0

/-- A save or a restore that meets a parity error (R117). -/
def Block.ctxFail (b : Block) (a : Nat) : Block :=
  (b.setCtxResult a 3).raise (arrayPage a) 2 (b.holderOf a)

/-- The arrays that a save of array `a` saves: every array of the FOLD that holds it (R113). -/
def Block.saveSet (b : Block) (a : Nat) : List Nat :=
  if !b.foldHeld a then [a]
  else match b.foldOn a with
    | none => [a]
    | some q => match b.foldFlight q with
      | some (_, f) => (b.foldJob f).units.filter b.foldHeld
      | none => [a]

/-- Writes the image of a pair and holds its contents (R112). -/
def Block.saveOne (b : Block) (a : Nat) : Block :=
  (((b.putImage a (b.ctxAddr a)).keepImage a (b.ctxAddr a / 4096)).setCtxResult a 2).setPairState a 2

/-- Saves a pair's context (R113, R117): between two commands a carriage stands at a row, tile or beat boundary. -/
def Block.ctxSave (b : Block) (a : Nat) (parity : Bool) : Block :=
  if !b.ctxFree a then b
  else if parity then (b.setArr a { b.arr a with stopped := true }).ctxFail a
  else
    let set := b.saveSet a
    b.each set Block.saveOne |> fun b => b.each (set.filter b.foldHeld) fun b a => b.setFld (arrayPage a) 0x044 2 1 0

/-- Restores a pair's context (R114, R115, R117). -/
def Block.ctxRestore (b : Block) (a : Nat) (parity : Bool) : Block :=
  let at_ := b.ctxAddr a
  if !b.ctxFree a then b
  else if parity || b.imageMarked at_ then (b.zeroPair a).ctxFail a
  else
    let key := at_ / 4096
    (((b.getSkid at_ key).takeImage a key (b.getImage at_ key)).setCtxResult a 2).setPairState a 2

/-- Zeroes a pair's context (R116, R155, R295). -/
def Block.ctxZero (b : Block) (a : Nat) : Block :=
  if !b.ctxFree a then b
  else
    let b := (b.faultPair a).zeroPair a
    let b := b.setArr a { b.arr a with stopped := false }
    (b.setCtxResult a 2).setPairState a 2

/-- CTX_SAVE. -/
def execCtxSave (a : Fin 128) (parity : Bool) (s : State) : Host.Outcome State Fault Refusal := onBlock (fun b => b.ctxSave a parity) s

/-- CTX_RESTORE. -/
def execCtxRestore (a : Fin 128) (parity : Bool) (s : State) : Host.Outcome State Fault Refusal :=
  onBlock (fun b => b.ctxRestore a parity) s

/-- CTX_ZERO. -/
def execCtxZero (a : Fin 128) (s : State) : Host.Outcome State Fault Refusal := onBlock (fun b => b.ctxZero a) s

/-- CTX_DONE (R114). -/
def execCtxDone (a : Fin 128) (s : State) : Host.Outcome State Fault Refusal :=
  onBlock (fun b =>
    if b.arrayState a = 2 && b.regN (arrayPage a) 0x05C = 2 then
      let b := (b.setCtxResult a 1).setPairState a 0
      ((b.touchEngine a).touchEngine (engVec a)).raise (arrayPage a) 1 (b.holderOf a)
    else b) s

/-- COMPAT_APPLY (R111). -/
def execCompatApply (a : Fin 128) (s : State) : Host.Outcome State Fault Refusal :=
  onBlock (fun b =>
    if b.arrayState a = 0 then b.setArr a { b.arr a with compat := b.fld (arrayPage a) 0x040 0 1 == 1 } else b) s

/-! Parity and retirement (R118 to R120, R156, R449, R494). -/

/-- Ends the lend of an array: its slot is unbound and the counts of both leaves fall. -/
def Block.endLend (b : Block) (a : Nat) : Block :=
  match (b.arr a).lentTo with
  | none => b
  | some l =>
    let k := slotKey l.fill (a / 32) l.slot
    let fp := pageOf .part l.fill
    let lp := pageOf .part l.lender
    let b := if (b.slot k).bound = some a then
        (b.setFld fp 0x0D0 8 8 (b.fld fp 0x0D0 8 8 - 1)).setSlot k { b.slot k with bound := none }
      else b
    (b.setArr a { b.arr a with lentTo := none }).setFld lp 0x0D0 0 8 (b.fld lp 0x0D0 0 8 - 1)

/-- Gives a lent array back to its lender: the slot is unbound, the pair zeroed, the lender's context restored (R449, R491). -/
def Block.giveBack (b : Block) (a : Nat) : Block :=
  match (b.arr a).lentTo with
  | none => b
  | some l =>
    let b := (b.endLend a).zeroPair a
    let b := b.setArr a { b.arr a with stopped := false }
    let b := (b.takeImage a (lenderKey a) (b.image (lenderKey a))).setImage (lenderKey a) CtxImage.none
    (b.setPairState a 0).setFld (pageOf .part l.lender) 0x0C4 6 1 0

/-- A PARITY fault of a pair on the page of its array or its vector engine. -/
def Block.pairParity (b : Block) (a : Nat) (vec : Bool) : Block :=
  if b.arrayState a = 3 then b
  else
    let engine := if vec then engVec a else a
    let b := b.setFld (arrayPage a) 0x00C 0 1 1
    let b := match b.foldOn a with
      | some q => if vec then b else match b.foldFlight q with
        | some (i, f) => (b.foldRelease q).endFault i f
        | none => b
      | none => b
    let b := match b.flights.findIdx? fun f => f.engine == engine && !f.done with
      | some i => match b.flights[i]? with
        | some f => b.endFault i f
        | none => b
      | none => b
    let x := b.arr a
    let b := b.setArr a { x with parityAt := b.now :: x.parityAt.filter fun t => b.now ≤ t + 3600000000000 }
    let b := b.raise (if vec then vecPage a else arrayPage a) 0 (b.holderOf a)
    let b := match x.lentTo with
      | some l => b.shortfall l.lender 6 6 a 2 0
      | none => b
    if h : a < 128 then b.openRec (.array ⟨a, h⟩) else b

def execArrayParity (a : Fin 128) (s : State) : Host.Outcome State Fault Refusal := onBlock (fun b => b.pairParity a false) s

def execVecParity (a : Fin 128) (s : State) : Host.Outcome State Fault Refusal := onBlock (fun b => b.pairParity a true) s

/-- SELFTEST (R612). -/
def execSelftest (a : Fin 128) (s : State) : Host.Outcome State Fault Refusal := onBlock (fun b => b.selftestStart a) s

/-- Retires an array with its vector engine (R120, R156): carriages on them end with a fault status, the record and the page say so,
RETIRED is raised once, the holder's ARRAYS shrinks with a SHORTFALL of rank 4 (R486). -/
def Block.retireArray (b : Block) (a : Nat) : Block :=
  if b.arrayState a = 3 then b
  else
    let holder := b.holderOf a
    let b := b.endLend a
    let b := (b.faultPair a).setPairState a 3
    let b := if b.retired a then b
      else (b.setFld devPage (0x050 + 4 * (a / 32)) (a % 32) 1 1).raise (arrayPage a) 3 holder
    let b := b.raise (vecPage a) 1 holder
    let owner := b.allLeaves.find? fun p => bitOf (b.part p).hold.arrays.toNat a
    let b := match owner with
      | some p =>
        let n := (unitsIn (b.part p).hold.arrays.toNat 0 128).length
        b.shortfall p 2 4 a 2 (1024 * (n - 1) / n)
      | none => b
    b.shrinkHold a

/-- BLK_STATUS.TEST_FAIL of both pages of a pair (R612). -/
def Block.setTestFail (b : Block) (a v : Nat) : Block :=
  (b.setFld (arrayPage a) 0x010 2 1 v).setFld (vecPage a) 0x010 2 1 v

/-- SELFTEST_DONE (R119, R120, R449). -/
def execSelftestDone (a : Fin 128) (pass : Bool) (s : State) : Host.Outcome State Fault Refusal :=
  onBoth (fun nv b =>
    if b.fld (arrayPage a) 0x00C 0 1 = 0 then (nv, b)
    else
      let b := (b.setFld (arrayPage a) 0x00C 0 1 0).setTestFail a (b2n !pass)
      if !pass || 2 ≤ (b.arr a).parityAt.length then
        ({ nv with retired := nv.retired ||| BitVec.ofNat 128 (2 ^ a.val) }, b.retireArray a)
      else
        let b := b.setArr a { b.arr a with stopped := false }
        (nv, b.giveBack a)) s

end Sys2Proof.Machine
end

