-- ==== Sys2Proof/Machine/Transcend.lean ====
section
/-!
DEFINITION. The transcendental functions of the vector engine (R143): each exact value to more than 300 bits in fixed point, and the
result, which is free within the bound the spec states.
-/

namespace Sys2Proof.Machine

/-! Fixed point: an integer counts units of 2^-384. -/

def fxBits : Nat := 384
def fxOne : Int := 2 ^ fxBits

/-- A fixed-point number as a value. -/
def fxVal (x : Int) : FVal := .fin (decide (x < 0)) x.natAbs (-(fxBits : Int))

/-- A finite value in fixed point; digits below the unit are cut off. -/
def fxOf : FVal → Int
  | .fin neg man exp =>
    let k := (fxBits : Int) + exp
    signedMan neg (if 0 ≤ k then man * 2 ^ k.toNat else man / 2 ^ (-k).toNat)
  | _ => 0

def fxMul (x y : Int) : Int := x * y / fxOne
def fxDiv (x y : Int) : Int := x * fxOne / y

/-- Σ t_k / (2k+1) with t_k = t₀ q^k, from k on. -/
def oddSeries : Nat → Nat → Int → Int → Int
  | 0, _, _, _ => 0
  | n + 1, k, t, q => t / (2 * k + 1) + oddSeries n (k + 1) (fxMul t q) q

/-- atanh z for |z| ≤ 1/3, and atan z. -/
def fxAtanh (z : Int) : Int := oddSeries 130 0 z (fxMul z z)
def fxAtan (z : Int) : Int := oddSeries 130 0 z (-(fxMul z z))

def fxLn2 : Int := 2 * fxAtanh (fxOne / 3)
def fxPi : Int := 16 * fxAtan (fxOne / 5) - 4 * fxAtan (fxOne / 239)

/-- Σ t_k with t_{k+1} = t_k x / (k+1), from k on. -/
def expSeries : Nat → Nat → Int → Int → Int
  | 0, _, _, _ => 0
  | n + 1, k, t, x => t + expSeries n (k + 1) (fxMul t x / (k + 1)) x

/-- Σ t_k with t_{k+1} = -t_k q / ((2k+2)(2k+3)), from k on. -/
def sinSeries : Nat → Nat → Int → Int → Int
  | 0, _, _, _ => 0
  | n + 1, k, t, q => t + sinSeries n (k + 1) (-(fxMul t q) / ((2 * k + 2) * (2 * k + 3))) q

/-- Σ t_k / (2k+1) with t_{k+1} = -t_k q / (k+1), from k on. -/
def erfSeries : Nat → Nat → Int → Int → Int
  | 0, _, _, _ => 0
  | n + 1, k, t, q => t / (2 * k + 1) + erfSeries n (k + 1) (-(fxMul t q) / (k + 1)) q

/-- e^x for a fixed-point x: beyond ±300 a value that is certainly out of FP32's range on that side. -/
def expFx (x : Int) : FVal :=
  if 300 * fxOne < x then .fin false 1 400
  else if x < -300 * fxOne then .fin false 1 (-400)
  else
    let k := x / fxLn2
    .fin false (expSeries 120 0 fxOne (x - k * fxLn2)).natAbs (k - fxBits)

/-- e^v for a finite value; a large magnitude is out of range whatever its digits. -/
def expV (v : FVal) : FVal :=
  if ltV (intV 1000) v then .fin false 1 400 else if ltV v (intV (-1000)) then .fin false 1 (-400) else expFx (fxOf v)

/-- 2^v for a finite value. -/
def exp2V (v : FVal) : FVal :=
  if ltV (intV 1000) v then .fin false 1 400
  else if ltV v (intV (-1000)) then .fin false 1 (-400) else expFx (fxMul (fxOf v) fxLn2)

/-- ln (man × 2^exp) in fixed point. -/
def lnFx (man : Nat) (exp : Int) : Int :=
  let l := Nat.log2 man
  let z : Int := ((man : Int) - 2 ^ l) * fxOne / (man + 2 ^ l)
  2 * fxAtanh z + ((l : Int) + exp) * fxLn2

/-- sin x in fixed point, for |x| ≤ 2²⁰ in fixed point. -/
def sinFx (x : Int) : Int :=
  let turn := 2 * fxPi
  let r := x - (x + fxPi) / turn * turn
  sinSeries 120 0 r (fxMul r r)

/-- tanh, the sigmoid and erf of a value. -/
def tanhV (v : FVal) : FVal :=
  if ltV (intV 64) (absV v) then intV (if negOf v then -1 else 1)
  else
    let e := expV (scaleV 1 v)
    divV (subV e (intV 1)) (addV e (intV 1))

def sigmoidV (v : FVal) : FVal := divV (intV 1) (addV (intV 1) (expV (negV v)))

def erfV (v : FVal) : FVal :=
  if ltV (intV 8) (absV v) then intV (if negOf v then -1 else 1)
  else
    let x := fxOf v
    let rootPi : Int := isqrt ((fxPi * fxOne).toNat)
    fxVal (fxDiv (2 * erfSeries 420 0 x (fxMul x x)) rootPi)

/-! Results within a bound. -/

/-- The unit of the last place of a format at a finite value. -/
def ulpIn (f : FloatFmt) (v : FVal) : FVal :=
  match v with
  | .fin _ man exp => .fin false 1 (ulpExp f man exp)
  | v => v

/-- Whether a ≤ c. -/
def leV (a c : FVal) : Bool := ltV a c || eqV a c

/-- Whether a finite `r` lies within `bound` of `exact`. -/
def nearV (bound exact r : FVal) : Bool := isFinV r && leV (absV (subV r exact)) bound

/-- The largest finite value of a format. -/
def maxV_ (f : FloatFmt) : FVal := decodeFloat f f.maxCode

/-- The free candidate `code` where it lies within `bound` of `exact`; where it does not, the nearest value of the format. A result that
overflows is an infinity; one whose bound reaches past the largest finite value may be. -/
def pick (f : FloatFmt) (bound exact : FVal) (code : Nat) : Nat :=
  let nearest := encodeArith f .nearest exact
  let r := decodeFloat f code
  if isInfV (decodeFloat f nearest) then nearest
  else if nearV bound exact r || (isInfV r && negOf r == negOf exact && ltV (maxV_ f) (addV (absV exact) bound)) then code
  else nearest

/-- What R143 says of a result: a value it states; an exact value the result is near; any value of magnitude at most 1. -/
inductive TransRes where
  | sure (v : FVal)
  | near (exact : FVal)
  | unit
  deriving DecidableEq, Repr

/-- The special values and the exact values of the transcendental operations (R143). -/
def transRes (op : Nat) (v : FVal) : TransRes :=
  let zero : FVal := .fin false 0 0
  let one := intV 1
  let neg := ltV v zero
  let sign : FVal := intV (if negOf v then -1 else 1)
  let log (base2 : Bool) : TransRes :=
    if isZeroV v then .sure (.inf true)
    else if neg then .sure .nan
    else match v with
      | .fin _ man exp => .near (fxVal (if base2 then fxDiv (lnFx man exp) fxLn2 else lnFx man exp))
      | v => .sure v
  let wave (shift : Int) : TransRes :=
    if isInfV v then .sure .nan else if leV (absV v) (intV 1048576) then .near (fxVal (sinFx (fxOf v + shift))) else .unit
  if isNanV v then .sure .nan
  else match op with
    | 0x20 => if isInfV v then .sure (if negOf v then zero else v) else .near (exp2V v)
    | 0x21 => if isInfV v then .sure (if negOf v then zero else v) else .near (expV v)
    | 0x22 => log true
    | 0x23 => log false
    | 0x24 =>
      if isZeroV v then .sure (.inf (negOf v)) else if isInfV v then .sure (.fin (negOf v) 0 0) else .near (divV one v)
    | 0x25 =>
      if isZeroV v then .sure (.inf (negOf v)) else if neg then .sure .nan else if isInfV v then .sure zero
      else .near (divV one (sqrtV v))
    | 0x26 => if isZeroV v then .sure v else if neg then .sure .nan else if isInfV v then .sure v else .near (sqrtV v)
    | 0x27 => if isInfV v then .sure sign else .near (tanhV v)
    | 0x28 => if isInfV v then .sure (if negOf v then zero else one) else .near (sigmoidV v)
    | 0x29 => wave 0
    | 0x2A => wave (fxPi / 2)
    | _ => if isInfV v then .sure sign else .near (erfV v)

/-- The error bound of an FP32 result (R143). -/
def transBound (op : Nat) (v exact : FVal) : FVal :=
  let ulps (n : Nat) : FVal := mulV (intV n) (ulpIn fp32 exact)
  let abs_ (k : Int) : FVal := .fin false 1 (-k)
  match op with
  | 0x20 => ulps 1
  | 0x21 => ulps 2
  | 0x22 => if leV (.fin false 1 (-1)) v && leV v (intV 2) then maxV (ulps 2) (abs_ 22) else ulps 2
  | 0x23 => if leV (.fin false 1 (-1)) v && leV v (intV 2) then maxV (ulps 2) (abs_ 22) else ulps 2
  | 0x24 => ulps 1
  | 0x25 => ulps 1
  | 0x26 => ulps 1
  | 0x29 => abs_ 21
  | 0x2A => abs_ 21
  | _ => abs_ 22

/-- A transcendental result in a format, with `bound` around its exact value; `code` is the free candidate. -/
def transIn (f : FloatFmt) (bound : FVal → FVal) (op : Nat) (v : FVal) (code : Nat) : Nat :=
  match transRes op v with
  | .sure r => encodeArith f .nearest r
  | .near exact => pick f (bound exact) exact code
  | .unit => if nearV (intV 1) (.fin false 0 0) (decodeFloat f code) then code else 0

/-- A transcendental stage's result on one FP32 lane (R143). -/
def transLane (op : Nat) (x : Word) : Word :=
  let v := decF32 x
  BitVec.ofNat 32 (transIn fp32 (transBound op v) op v (Config.transcendental op x).toNat)

/-- A transcendental result on a BF16 half: within 1 BF16 ulp of the exact result (R143). -/
def transHalf (op h : Nat) : Nat :=
  transIn bf16 (ulpIn bf16) op (decBf16 h) ((Config.transcendental (64 + op) (BitVec.ofNat 32 h)).toNat % 65536)

end Sys2Proof.Machine
end

