-- ==== Sys2Proof/Machine/Vector.lean ====
section
/-!
DEFINITION. The vector engine (chapter 04): lane operations, reduce stages, softmax, and the VCHAIN carriage.
-/

namespace Sys2Proof.Machine

/-! Lane operations (R135 to R138). -/

def fOne : Word := 0x3F800000#32
def boolLane (c : Bool) : Word := if c then fOne else 0

/-- Whether an FP32 lane is a NaN. -/
def laneNan (w : Word) : Bool := isNanV (decF32 w)

/-- A lane unchanged but for a NaN, which becomes canonical. -/
def canonLane (x w : Word) : Word := if laneNan w then f32Nan else x

/-- An operation without reduction on one 32-bit lane; `ix` is the element index, `row` the row index (R135). -/
def laneOp (op : Nat) (alt : Bool) (ix row : Nat) (a b c : Word) : Word :=
  let x := decF32 a
  let y := decF32 b
  let sh := b.toNat % 32
  match op with
  | 0x00 => a
  | 0x01 => f32Add a b
  | 0x02 => f32Sub a b
  | 0x03 => f32Mul a b
  | 0x04 => f32Fma a b c
  | 0x05 => encF32 (minV x y)
  | 0x06 => encF32 (maxV x y)
  | 0x07 => canonLane (a &&& 0x7FFFFFFF#32) a
  | 0x08 => canonLane (a ^^^ 0x80000000#32) a
  | 0x09 => if isZeroV (decF32 c) then b else a
  | 0x0A => boolLane (ltV x y)
  | 0x0B => boolLane (leV x y)
  | 0x0C => boolLane (eqV x y)
  | 0x0D => boolLane (isNanV x)
  | 0x0E => boolLane (isInfV x)
  | 0x10 => ofI32 (int32Sum [i32 a, i32 b])
  | 0x11 => a &&& b
  | 0x12 => a ||| b
  | 0x13 => a ^^^ b
  | 0x14 => a <<< sh
  | 0x15 => a >>> sh
  | 0x16 => a.sshiftRight sh
  | 0x18 => encF32 (intV (i32 a))
  | 0x19 => BitVec.ofNat 32 (convInt 32 (-2147483648) 2147483647 (if alt then .truncate else .nearest) x).bits
  | 0x1A => encF32 (intV ix)
  | 0x1B => encF32 (intV row)
  | _ => transLane op a

/-- A BF16 half as an FP32 lane, and an FP32 value as a BF16 half. -/
def halfUp (h : Nat) : Word := BitVec.ofNat 32 (h * 65536)
def halfOf (w : Word) (hi : Bool) : Nat := if hi then w.toNat / 65536 else w.toNat % 65536

/-- A pair-mode operation on one BF16 half (R138): arithmetic rounded once to BF16. -/
def halfOp (op : Nat) (a b c : Nat) : Nat :=
  let x := decBf16 a
  let y := decBf16 b
  let enc (v : FVal) : Nat := encodeArith bf16 .nearest v
  match op with
  | 0x00 => a
  | 0x01 => enc (addV x y)
  | 0x02 => enc (subV x y)
  | 0x03 => enc (mulV x y)
  | 0x04 => enc (fmaV x y (decBf16 c))
  | 0x09 => if isZeroV (decBf16 c) then b else a
  | 0x07 => if isNanV x then 0x7FC0 else a % 32768
  | 0x08 => if isNanV x then 0x7FC0 else a ^^^ 32768
  | op => if 0x20 ≤ op then transHalf op a else (laneOp op false 0 0 (halfUp a) (halfUp b) (halfUp c)).toNat / 65536

/-- An operation on a lane in pair mode. -/
def pairLane (op : Nat) (a b c : Word) : Word :=
  BitVec.ofNat 32 (halfOp op (halfOf a false) (halfOf b false) (halfOf c false) +
    65536 * halfOp op (halfOf a true) (halfOf b true) (halfOf c true))

/-! Softmax (R147 to R150). -/

/-- No statistics. -/
def SmxRow.none : SmxRow := ⟨[], 0, 0, 0, false, false, false, 0⟩

/-- Σ exp(x − m) over a list of FP32 words, an element −∞ adding nothing. -/
def softmaxSumV (m : Word) (xs : List Word) : FVal :=
  xs.foldl (fun a w => match subV (decF32 w) (decF32 m) with
    | .fin n x e => addV a (expV (.fin n x e))
    | _ => a) (.fin false 0 0)

/-- The relative error that R150 allows over a row of `nb` beats. -/
def softmaxRel (nb : Nat) (exact : FVal) : FVal := mulV (.fin false (16 + 5 * nb) (-24)) exact

/-- The statistics of a row's elements with their mask (R147 to R149); `strict` is ALT. In SAFE mode s is free within the relative bound
of R150 (DEDUCED, log 180); in STRICT mode it is the FP32 sum in element order, of which the spec names no order (DESIGN CHOICE, log 180). -/
def smxStats (strict : Bool) (nb : Nat) (xs : List (Word × Bool)) : SmxRow :=
  let ninf := encF32 (.inf true)
  let own := (xs.filter fun q => !q.2).map Prod.fst
  let anyNan := xs.any fun q => laneNan q.1
  let k := (own.filter fun w => isInfV (decF32 w) && !negOf (decF32 w)).length
  let empty := own.all fun w => isInfV (decF32 w) && negOf (decF32 w)
  let used := if strict then xs.map fun q => if q.2 then ninf else q.1 else own
  let m := used.foldl (fun a w => encF32 (maxV (decF32 a) (decF32 w))) ninf
  let exact := softmaxSumV m own
  let s : Word :=
    if strict then used.foldl (fun a w => f32Add a (transLane 0x21 (f32Sub w m))) 0
    else BitVec.ofNat 32 (pick fp32 (softmaxRel nb exact) exact (Config.softmaxSum own).toNat)
  let lse :=
    if strict then f32Add m (transLane 0x23 s)
    else if anyNan then f32Nan
    else if empty then ninf
    else if 0 < k then encF32 (.inf false)
    else f32Add m (transLane 0x23 s)
  { xs := own, m := m, s := s, k := k, nan := anyNan, empty := !anyNan && empty, inf := !anyNan && !empty && 0 < k,
    lse := lse }

/-- exp(x − m) / Σ for an element of a row without NaN and +∞, free within the bound of R150; below the normal range one unit of the
subnormals is allowed beside it (DESIGN CHOICE, log 180). -/
def softmaxOut (nb : Nat) (r : SmxRow) (x : Word) : Word :=
  match subV (decF32 x) (decF32 r.m) with
  | .fin n d e =>
    let exact := divV (expV (.fin n d e)) (softmaxSumV r.m r.xs)
    let bound := softmaxRel nb exact
    let bound := if ltV exact (.fin false 1 (-126)) then addV bound (.fin false 1 (-149)) else bound
    BitVec.ofNat 32 (pick fp32 bound exact (Config.softmaxOut x r.m r.s).toNat)
  | .inf true => 0
  | v => encF32 v

/-- SMXN's output for an element (R148 to R150). -/
def smxNorm (strict : Bool) (nb : Nat) (r : SmxRow) (x : Word) (masked : Bool) : Word :=
  if strict then
    f32Mul (transLane 0x21 (f32Sub (if masked then encF32 (.inf true) else x) r.m)) (f32Div f32One r.s)
  else if r.nan then f32Nan
  else if r.empty then 0
  else if r.inf then
    if !masked && isInfV (decF32 x) && !negOf (decF32 x) then encF32 (divV (intV 1) (intV r.k)) else 0
  else if masked then 0
  else softmaxOut nb r x

/-! Registers and beats (R127 to R134). -/

/-- A register file as lists of lanes. -/
abbrev VRegs := List (List Word)

def VecUnit.file (x : VecUnit) : VRegs :=
  (List.range 32).map fun v => (List.range 256).map fun l => storeGet (fun _ => 0) x.regs (256 * v + l)

def fileRegs (r : VRegs) : Store Word := storeOf 0 r.flatten

/-- What a beat works on: the registers and the place of its row. -/
structure BeatState where
  regs : VRegs
  row  : VecRow
  deriving DecidableEq, Repr

/-- A row reduction's operation on two values (R139). -/
def reduceOp (op : Nat) (alt : Bool) (a b : Word) : Word :=
  match op with
  | 0x31 => encF32 (maxV (decF32 a) (decF32 b))
  | 0x32 => encF32 (minV (decF32 a) (decF32 b))
  | 0x30 => if alt then ofI32 (int32Sum [i32 a, i32 b]) else f32Add a b
  | _ => f32Add a b

/-- The operand lanes of a stage. -/
def stageArg (c : ChainC) (r : VRegs) (s : Nat) (imm : Bool) : List Word :=
  if imm then List.replicate 256 (c.imm.getD (s % 8) 0) else r.getD s []

/-- Replaces the active lanes of a register. -/
def setLanes (r : VRegs) (dst active : Nat) (ws : List Word) : VRegs :=
  r.set dst (ws.take active ++ (r.getD dst []).drop active)

/-- Stage number `n` on beat `bt` of row `row`, with `active` lanes. DESIGN CHOICE (log 181): a lane of V2 that a stage has left at neither
0.0 nor 1.0 counts as masked. -/
def stageBeat (c : ChainC) (n : Nat) (t : StageC) (row bt active : Nat) (x : BeatState) : BeatState :=
  let a := stageArg c x.regs t.s1 false
  let b := stageArg c x.regs t.s2 t.i2
  let d := stageArg c x.regs t.s3 t.i3
  let masks := (x.regs.getD 2 []).map fun w => !isZeroV (decF32 w)
  if 0x30 ≤ t.op && t.op ≤ 0x33 then
    let xs := (a.take active).map fun w => if t.op = 0x33 then f32Mul w w else w
    match treeLevels (reduceOp t.op t.alt) 8 xs with
    | v :: _ =>
      let new := match x.row.run.getD n none with
        | some u => reduceOp t.op t.alt u v
        | none => v
      { x with row := { x.row with run := x.row.run.set n (some new) } }
    | [] => x
  else if t.op = 0x34 || t.op = 0x35 then
    let dst := t.dst + bt
    let old := x.regs.getD dst []
    let new := (a.zip old).map fun q =>
      if t.alt && row = 0 then q.1
      else if t.op = 0x34 then f32Add q.2 q.1 else encF32 (maxV (decF32 q.2) (decF32 q.1))
    { x with regs := setLanes x.regs dst active new }
  else if t.op = 0x38 then { x with row := { x.row with smx := x.row.smx ++ (a.zip masks).take active } }
  else if t.op = 0x39 then
    match x.row.stat with
    | some st => { x with regs := setLanes x.regs t.dst active ((a.zip masks).map fun q => smxNorm t.alt c.nb st q.1 q.2) }
    | none => x
  else if c.pair then
    { x with regs := setLanes x.regs t.dst active (((a.zip b).zip d).map fun q => pairLane t.op q.1.1 q.1.2 q.2) }
  else
    let ws := (((a.zip b).zip d).zipIdx).map fun q => laneOp t.op t.alt (256 * bt + q.2) row q.1.1.1 q.1.1.2 q.1.2
    { x with regs := setLanes x.regs t.dst active ws }

/-- The elements of a beat, from which of the row on and how many (R127). -/
def ChainC.first (c : ChainC) (bt : Nat) : Nat := if c.pair then 512 * bt else 256 * bt
def ChainC.count (c : ChainC) (bt : Nat) : Nat := min (if c.pair then 512 else 256) (c.len - c.first bt)

/-- The lanes of a beat that are active (R127). -/
def ChainC.active (c : ChainC) (bt : Nat) : Nat :=
  if c.pair then min 256 (ceilDiv (c.len - 512 * bt) 2) else min 256 (c.len - 256 * bt)

/-- A beat's lanes, the inactive ones +0. -/
def beatLanes (ws : List Word) : List Word := ws ++ List.replicate (256 - ws.length) 0

/-- A beat as it comes from the bay: the lanes of A and of B and the mask bits by lane. -/
structure ChainBeat where
  a    : List Word
  b    : List Word
  mask : List Bool
  deriving DecidableEq, Repr

/-- Loads V0 to V2 for a beat (R128). -/
def loadBeat (c : ChainC) (q : ChainBeat) (bt : Nat) (r : VRegs) : VRegs :=
  let active := c.active bt
  let one : Word := if c.pair then 0x3F803F80#32 else fOne
  let m := (List.range 256).map fun l => if active ≤ l || (c.maskEn && q.mask.getD l false) then one else 0
  let r := r.set 0 (beatLanes q.a)
  let r := if c.bEn then r.set 1 (beatLanes q.b) else r
  r.set 2 m

/-- The stages of a pass with their numbers, in order (R132). -/
def ChainC.ofPass (c : ChainC) (pass : Nat) : List (StageC × Nat) := c.stages.zipIdx.filter fun t => t.1.pass == pass

/-- A beat through the stages of its pass (R132). -/
def runBeat (c : ChainC) (q : ChainBeat) (row : Nat) (x : BeatState) : BeatState :=
  let bt := x.row.beat
  (c.ofPass x.row.pass).foldl (fun x t => stageBeat c t.2 t.1 row bt (c.active bt) x) { x with regs := loadBeat c q bt x.regs }

/-- What the end of a pass over a row writes: the row results of its reductions and of SMXS (R139, R147). -/
def endPass (c : ChainC) (x : BeatState) : BeatState :=
  (c.ofPass x.row.pass).foldl (fun (x : BeatState) t =>
    if t.1.op = 0x38 then
      let st := smxStats t.1.alt c.nb x.row.smx
      { regs := x.regs.set t.1.dst (List.replicate 256 st.lse), row := { x.row with stat := some st } }
    else match x.row.run.getD t.2 none with
      | some v => { x with regs := x.regs.set t.1.dst (List.replicate 256 v) }
      | none => x) x

/-- Where a row begins. -/
def VecRow.start (c : ChainC) : VecRow := ⟨0, 0, List.replicate c.stages.length none, [], none⟩

/-! The carriage (R130, R144 to R146, R152). -/

/-- The lanes of `n` source elements (R144). DESIGN CHOICE (log 182): in pair mode the high half of a last lane whose second element lies
beyond an odd L is loaded as +0. -/
def sourceLanes (c : ChainC) (fmt n : Nat) (bs : List Byte) (scales : List Nat) : List Word :=
  if c.pair then
    (List.range (ceilDiv n 2)).map fun l =>
      BitVec.ofNat 32 (elemAt 1 bs (2 * l) + (if 2 * l + 1 < n then 65536 * elemAt 1 bs (2 * l + 1) else 0))
  else
    (List.range n).map fun j =>
      let e := elemAt fmt bs j
      if isIntFmt fmt then ofI32 (signedOf (elemBits fmt) e)
      else if isMx fmt then encF32 (scaledElem fmt e (scales.getD (j / 32) 0))
      else if fmt = 0 then BitVec.ofNat 32 e
      else encF32 (decodeElem fmt e)

/-- The `n` elements of an output beat with their scales (R145). DESIGN CHOICE (log 183): V3 keeps no SAT flag, so a store of an INT32 value
that equals a limit counts no overflow. -/
def outputBeat (c : ChainC) (n : Nat) (draw : Nat → Nat) (v3 : List Word) : List Nat × List Conv :=
  if c.pair then
    let halves := (v3.flatMap fun w => [halfOf w false, halfOf w true]).take n
    ([], halves.zipIdx.map fun q => convScalar 1 c.conv (draw q.2) (decBf16 q.1))
  else if isIntFmt c.dFmt then
    ([], v3.map fun w =>
      let r := intRange c.dFmt
      let x := i32 w
      let y := max r.1 (min r.2 x)
      (⟨codeOf (elemBits c.dFmt) y, y != x, false, false⟩ : Conv))
  else convRow c.dFmt c.conv draw (v3.map fun w => (decF32 w, false))

/-- One side of a VCHAIN: its address, its ring, its row stride in bytes, the bytes of a row, its direction. -/
structure ChainSide where
  v      : VAddr
  stride : Nat
  len    : Nat
  cons   : Bool
  deriving DecidableEq, Repr

def chainA (c : ChainC) : ChainSide := ⟨c.a, elemBytes c.aFmt c.stride, elemBytes c.aFmt c.len, true⟩
def chainB (c : ChainC) : ChainSide := ⟨c.b, elemBytes c.bFmt c.stride, elemBytes c.bFmt c.len, true⟩
def chainMask (c : ChainC) : ChainSide := ⟨c.mask, 32 * c.nb, 32 * c.nb, true⟩
def chainD (c : ChainC) : ChainSide := ⟨c.d, elemBytes c.dFmt c.dStride, elemBytes c.dFmt c.len, false⟩
def chainRec (c : ChainC) : ChainSide := ⟨c.rowOut, 8, 8, false⟩

/-- The sides a VCHAIN uses. -/
def chainUsed (c : ChainC) : List ChainSide :=
  [chainA c] ++ (if c.bEn then [chainB c] else []) ++ (if c.maskEn then [chainMask c] else []) ++
    (if c.dEn then [chainD c] else []) ++ (if c.rowEn then [chainRec c] else [])

def ChainSide.ringSide (s : ChainSide) (num a : Nat) : RingSide := ⟨num, a, s.v.ring, s.cons⟩

/-- The ring sides of a VCHAIN. -/
def chainRings (a : Nat) (c : ChainC) : List RingSide :=
  ((chainUsed c).filter fun s => s.v.ring != 0).map fun s => s.ringSide c.engine a

/-- The ring position at which row `r` of a side begins. -/
def ChainSide.at (s : ChainSide) (f : Flight) (num a r : Nat) : Nat := (f.ringStart (s.ringSide num a)).getD 0 + r * s.stride

/-- Reads `n` bytes from offset `o` of row `r` of a side on. -/
def Block.chainRead (b : Block) (f : Flight) (num a : Nat) (s : ChainSide) (r o n : Nat) : Block × Got :=
  if s.v.ring = 0 then b.readV f.ctx (bayVa num + s.v.off + r * s.stride + o) n
  else b.readRing f.ctx (s.ringSide num a) (s.at f num a r + o) n

/-- Writes bytes from offset `o` of row `r` of a side on; false where its carriage ends with a fault status. -/
def Block.chainWrite (b : Block) (f : Flight) (num a : Nat) (s : ChainSide) (r o : Nat) (bs : List Byte) : Block × Bool :=
  match (if s.v.ring = 0 then b.writeV f.ctx (bayVa num + s.v.off + r * s.stride + o) (clean bs)
    else b.writeRing f.ctx (s.ringSide num a) (s.at f num a r + o) (clean bs)) with
  | (b, none) => (b, true)
  | (b, some _) => (b, false)

/-- The scale bytes of `n` elements from element `e` of row `r` of A on (R130, R267). -/
def Block.chainScales (b : Block) (f : Flight) (a : Nat) (c : ChainC) (r e n : Nat) : Block × Got :=
  let s := chainA c
  if !isMx c.aFmt then (b, .ok [])
  else if s.v.ring ≠ 0 && (b.ring a s.v.ring).scaled then
    b.readRingScales f.ctx (s.ringSide c.engine a) (s.at f c.engine a r + elemBytes c.aFmt e) (elemBytes c.aFmt n)
  else b.readV f.ctx (bayVa c.engine + c.aScale + r * (c.len / 32) + e / 32) (n / 32)

/-- Writes the scale bytes of `n` elements from element `e` of row `r` of D on. -/
def Block.chainPutScales (b : Block) (f : Flight) (a : Nat) (c : ChainC) (r e n : Nat) (bs : List Byte) : Block × Bool :=
  let s := chainD c
  if bs.isEmpty then (b, true)
  else
    match (if s.v.ring ≠ 0 && (b.ring a s.v.ring).scaled then
        b.writeRingScales f.ctx (s.ringSide c.engine a) (s.at f c.engine a r + elemBytes c.dFmt e) (elemBytes c.dFmt n) (clean bs)
      else b.writeV f.ctx (bayVa c.engine + c.dScale + r * (c.len / 32) + e / 32) (clean bs)) with
    | (b, none) => (b, true)
    | (b, some _) => (b, false)

/-- Reads several things in order; none where one faults or is poisoned. -/
def gather (b : Block) : List (Block → Block × Got) → Block × Option (List (List Byte))
  | [] => (b, some [])
  | r :: rs =>
    match r b with
    | (b, .fault _) => (b, none)
    | (b, .ok bs) =>
      if anyMark bs then (b, none)
      else match gather b rs with
        | (b, none) => (b, none)
        | (b, some out) => (b, some (raw bs :: out))

/-- Moves the ring positions of a row's sides of one direction (R266). -/
def Block.chainAdvance (b : Block) (f : Flight) (num a : Nat) (cons : Bool) (c : ChainC) (r : Nat) : Block :=
  b.each ((chainUsed c).filter fun s => s.cons == cons && s.v.ring != 0) fun b s =>
    b.setRingPos a s.v.ring s.cons (s.at f num a r + s.stride)

/-- Whether the rings let a beat start: its inputs hold the row; where D is written there is room for the row, and at the last beat of a row
room for its record (R158, R266). -/
def Block.chainReady (b : Block) (f : Flight) (a : Nat) (c : ChainC) (v : VecRow) : Bool :=
  let final := v.pass + 1 == c.passes
  (chainUsed c).all fun s => s.v.ring == 0 || b.ringReady f (s.ringSide c.engine a) s.stride f.row ||
    (!s.cons && !(final && (s == chainD c || v.beat + 1 == c.nb)))

/-- Counts a beat and its transcendental results (R157). -/
def Block.chainCount (b : Block) (p a : Nat) (c : ChainC) (v : VecRow) : Block :=
  let page := vecPage a
  let trans := ((c.ofPass v.pass).filter fun t => (0x20 ≤ t.1.op && t.1.op ≤ 0x2B) || t.1.op == 0x38 || t.1.op == 0x39).length
  let results := trans * (if c.pair then 2 * c.active v.beat else c.active v.beat)
  (((b.add64 page 0x048 1).add64 page 0x050 results).countEv p 1 a 0x11 1).countEv p 1 a 0x12 results

/-- Converts V3 into D at the end of a beat of the last pass and writes it (R128, R145). -/
def Block.chainOut (b : Block) (f : Flight) (a : Nat) (c : ChainC) (bt : Nat) (v3 : List Word) : Block × Bool :=
  let e := c.first bt
  let n := c.count bt
  let x := b.vec a
  let draw (i : Nat) : Nat := (Config.srDraw (b.grant f.part).seed (2 * a + 1) ((x.draws + i) % 2 ^ 64)).toNat
  let (scales, cs) := outputBeat c n draw (v3.take (c.active bt))
  let b := b.ifSo (bitOf c.conv 0) fun b => b.setVec a { x with draws := (x.draws + n) % 2 ^ 64 }
  let b := b.countConv f.part c.dFmt cs
  match b.chainWrite f c.engine a (chainD c) f.row (elemBytes c.dFmt e) (packElems c.dFmt (cs.map (·.bits))) with
  | (b, true) => b.chainPutScales f a c f.row e n (scales.map (BitVec.ofNat 8))
  | q => q

/-- The end of a row's last pass: the row record, the counts of its flags (R146, R157). -/
def Block.chainEnd (b : Block) (f : Flight) (a : Nat) (c : ChainC) (x : BeatState) : Block × Bool :=
  let st := x.row.stat.getD SmxRow.none
  let b := (b.ifSo st.empty fun b => b.add64 (vecPage a) 0x058 1).ifSo st.nan fun b => b.add64 (vecPage a) 0x060 1
  let record := ((x.regs.getD 4 []).getD 0 0).toNat + b2n st.empty * 2 ^ 32 + b2n st.nan * 2 ^ 33 + b2n st.inf * 2 ^ 34
  match (if c.rowEn then b.chainWrite f c.engine a (chainRec c) f.row 0 (toBytes 8 record) else (b, true)) with
  | (b, true) => ((b.chainAdvance f c.engine a true c f.row).chainAdvance f c.engine a false c f.row, true)
  | q => q

/-- The beat at which a VCHAIN stands (R127 to R134). -/
def Block.chainBeat (b : Block) (f : Flight) (a : Nat) (c : ChainC) : Block × Flight × RowEnd :=
  let v := f.inRow.getD (VecRow.start c)
  let e := c.first v.beat
  let n := c.count v.beat
  let read (s : ChainSide) (fmt : Nat) (b : Block) : Block × Got :=
    b.chainRead f c.engine a s f.row (elemBytes fmt e) (elemBytes fmt n)
  if !b.chainReady f a c v then (b, f, .wait)
  else
    match gather b [read (chainA c) c.aFmt, fun b => b.chainScales f a c f.row e n,
        fun b => if c.bEn then read (chainB c) c.bFmt b else (b, .ok []),
        fun b => if c.maskEn then b.chainRead f c.engine a (chainMask c) f.row (32 * v.beat) 32 else (b, .ok [])] with
    | (b, some [av, sc, bv, mv]) =>
      let q : ChainBeat := ⟨sourceLanes c c.aFmt n av (sc.map (·.toNat)),
        if c.bEn then sourceLanes c c.bFmt n bv [] else [], mv.flatMap fun v => (List.range 8).map fun i => v.getLsbD i⟩
      let x := runBeat c q f.row ⟨(b.vec a).file, v⟩
      let v3 := x.regs.getD 3 []
      let lastBeat := v.beat + 1 == c.nb
      let lastPass := v.pass + 1 == c.passes
      let x := if lastBeat then endPass c x else x
      let b := (b.setVec a { b.vec a with regs := fileRegs x.regs }).chainCount f.part a c v
      match (if lastPass && c.dEn then b.chainOut f a c v.beat v3 else (b, true)) with
      | (b, false) => (b, f, .fault)
      | (b, true) =>
        if !lastBeat then (b, { f with inRow := some { x.row with beat := v.beat + 1 } }, .done)
        else if !lastPass then (b, { f with inRow := some { VecRow.start c with pass := v.pass + 1, stat := x.row.stat } }, .done)
        else
          match b.chainEnd f a c x with
          | (b, false) => (b, f, .fault)
          | (b, true) => (b, { f with row := f.row + 1, inRow := none }, .done)
    | (b, _) => (b, f, .fault)

/-- The beats of a VCHAIN, at most `n` of them. -/
def Block.chainBeats (b : Block) (a : Nat) (c : ChainC) : Nat → Flight → Block × Flight × RowEnd
  | 0, f => (b, f, .done)
  | n + 1, f =>
    if c.rows ≤ f.row then (b, f, .done)
    else match b.chainBeat f a c with
      | (b, f, .done) => Block.chainBeats b a c n f
      | q => q

/-- Runs at most `n` beats of a VCHAIN as far as its rings let it. -/
def Block.chainRun (b : Block) (a i n : Nat) (f : Flight) : Block :=
  let c := chainOf f.word
  if !b.arrayRuns a then b
  else match b.ringsStart i f (chainRings a c) with
    | none => b
    | some f =>
      match b.chainBeats a c n f with
      | (b, _, .fault) => (b.endFault i f).showPass a
      | (b, f, _) => (b.setFlight i (if c.rows ≤ f.row then f.finish else f)).showPass a

/-- At most `n` beats of the oldest VCHAIN of an engine. -/
def Block.chainStep (b : Block) (e n : Nat) : Block :=
  b.runFlight (fun f => f.engine == engVec e && cType f.word == 0x03 && !f.done) fun b i f => b.chainRun e i n f

/-- VCHAIN (R130). -/
def execVchain (w : Work 128) (s : State) : Host.Outcome State Fault Refusal := onBlock (fun b => b.chainStep w.unit w.most) s

end Sys2Proof.Machine
end

