-- ==== Sys2Proof/Machine/Carts.lean ====
section
/-!
DEFINITION. The Cart engines (chapter 07, R296 to R302): COPY, GATHER, SCATTER and FILL with their destinations, rings and codec,
run-ahead, and the rings' registers.
-/

namespace Sys2Proof.Machine

def cartPage (e : Nat) : Nat := pageOf .cart e

/-- A CART being run: its engine, its place among the flights, its carriage. -/
structure CartJob where
  e : Nat
  i : Nat
  c : CartC
  deriving DecidableEq, Repr

/-! Sides. -/

/-- The ring sides of a CART (R252, R265): the source's and the destination's. -/
def Block.cartSide (b : Block) (p va k : Nat) (cons : Bool) : Option RingSide :=
  if k = 0 then none
  else match bayNumber va with
    | some n => (b.arrayUnit p n).map fun a => ⟨n, a, k, cons⟩
    | none => none

/-- The scale bytes of the data bytes [pos, pos + n) of a ring side: their index and number (R267). -/
def scaleSpan (div pos n : Nat) : Nat × Nat := (pos / div, (pos + n - 1) / div + 1 - pos / div)

/-- The scale bytes that go with `n` data bytes from one ring position to another: each takes the one of the first data byte it covers
(DEDUCED, log 193: one scale byte per D data bytes, also for rows that are no multiple of D). -/
def moveScales (div src at_ n : Nat) (bs : List (Byte × Bool)) : List (Byte × Bool) :=
  let t := scaleSpan div at_ n
  (List.range t.2).map fun i => bs.getD ((src + ((t.1 + i) * div - at_)) / div - src / div) (0, false)

/-- How a row's move ends. -/
inductive CartEnd where
  | done
  | wait
  | fault (va : Nat)
  | ended
  deriving DecidableEq, Repr

/-- Reads one piece of a COPY source, from the staged block that holds it, if any (R261). -/
def Block.cartPiece (b : Block) (j : CartJob) (f : Flight) (va n : Nat) : Block × Got :=
  match (b.cart j.e).inUse.find? fun q => q.1 == va / 4096 * 4096 with
  | some q => ((b.add64 (cartPage j.e) 0x058 n).countEv f.part 2 j.e 0x14 n, .ok ((q.2.drop (va % 4096)).take n))
  | none => b.readPiece f.ctx va n

/-- Reads a list of pieces for a CART. -/
def Block.cartPieces (b : Block) (j : CartJob) (f : Flight) : List (Nat × Nat) → Block × Got
  | [] => (b, .ok [])
  | (va, n) :: r =>
    match b.cartPiece j f va n with
    | (b, .fault a) => (b, .fault a)
    | (b, .ok bs) =>
      match Block.cartPieces b j f r with
      | (b, .fault a) => (b, .fault a)
      | (b, .ok cs) => (b, .ok (bs ++ cs))

/-- Reads [va, va + n) for a CART; a draft that reads poison is spoiled (R188). -/
def Block.cartRead (b : Block) (j : CartJob) (f : Flight) (va n : Nat) : Block × Got :=
  match b.cartPieces j f (chunks va n) with
  | (b, .ok bs) => (if anyMark bs then b.spoilCtx f.ctx .fault else b, .ok bs)
  | (b, .fault a) => (b, .fault a)

/-- An index of GATHER or SCATTER: the address it names with `stride` from `base`, or how the carriage ends (R249, R251). -/
def Block.cartIndex (b : Block) (j : CartJob) (f : Flight) (base stride r : Nat) : Block × (Nat ⊕ CartEnd) :=
  match b.readV f.ctx (j.c.idx + 4 * r) 4 with
  | (b, .fault va) => (b, .inr (.fault va))
  | (b, .ok bs) =>
    if anyMark bs then (b.raise (cartPage j.e) 2 (some f.part) r, .inr .ended)
    else
      let a := base + ofBytes (raw bs) * stride
      if j.c.winBase ≤ a && a + j.c.rowBytes ≤ j.c.winBase + j.c.winLen then (b, .inl a)
      else (b.raise (cartPage j.e) 0 (some f.part) r, .inr .ended)

/-! Sources. -/

/-- Sector bytes move between the near tier and elsewhere: STASH_NOW and STASH_HWM (R317). -/
def Block.stash (b : Block) (p : Nat) (add : Bool) (n : Nat) : Block :=
  let page := pageOf .part p
  let now := if add then b.reg64 page 0x240 + n else b.reg64 page 0x240 - n
  (b.set64 page 0x240 now).set64 page 0x248 (max (b.reg64 page 0x248) now)

/-- Whether sectors at an address of a CART count as a stash (R317). -/
def CartC.stashes (c : CartC) (va : Nat) : Bool := c.kind == 1 && regionOf va == some .near

/-- Expands blocks `k` to `k + n − 1` of a tensor in the unit the CART holds (R257, R258, R300, R301). -/
def Block.cartExpand (b : Block) (j : CartJob) (f : Flight) : Nat → Nat → Block × Got
  | 0, _ => (b, .ok [])
  | n + 1, k =>
    let c := j.c
    match b.expandAt f.ctx ⟨f.part, j.e / 16, c.block, c.kind, 1, f.unit.getD 0⟩ (c.idx + 8 * k) c.src
        (fun b va n => b.cartRead j f va n) with
    | (b, .fault va, _) => (b, .fault va)
    | (b, .ok bs, len) =>
      let b := b.ifSo (c.stashes c.src) fun b => b.stash f.part false len
      match Block.cartExpand b j f n (k + 1) with
      | (b, .fault va) => (b, .fault va)
      | (b, .ok cs) => (b, .ok (bs ++ cs))

/-- The sectors of a Privet tensor that PASS copies, from sector 0 to the end of the last covered block (R298). -/
def Block.cartPass (b : Block) (j : CartJob) (f : Flight) : Block × Got :=
  let c := j.c
  match b.readV f.ctx (c.idx + 8 * (c.rowBytes / c.block - 1)) 8 with
  | (b, .fault va) => (b, .fault va)
  | (b, .ok entry) =>
    let e := idxOf (ofBytes (raw entry))
    match b.cartRead j f c.src (32 * (e.off + e.sect)) with
    | (b, .fault va) => (b, .fault va)
    | (b, .ok bs) => (b.ifSo (c.stashes c.src) fun b => b.stash f.part false bs.length, .ok bs)

/-- The bytes of row `r` of plane `k` with the ring scales that move with them, or how the carriage stands. -/
def Block.cartSource (b : Block) (j : CartJob) (f : Flight) (side : Option RingSide) (k r : Nat) :
    Block × ((List (Byte × Bool) × List (Byte × Bool)) ⊕ CartEnd) :=
  let c := j.c
  let done (q : Block × Got) : Block × ((List (Byte × Bool) × List (Byte × Bool)) ⊕ CartEnd) :=
    match q with
    | (b, .ok bs) => (b, .inl (bs, []))
    | (b, .fault va) => (b, .inr (.fault va))
  if c.mode = 3 then
    done (b, .ok (clean ((List.range (c.rowBytes / 4)).flatMap fun _ => toBytes 4 c.fill)))
  else if c.codec = 1 then done (b.cartExpand j f (c.rowBytes / c.block) 0)
  else if c.pass then done (b.cartPass j f)
  else match side with
    | some s =>
      let n := k * c.rows + r
      if !b.ringReady f s c.srcStride n then (b, .inr .wait)
      else
        let pos := (f.ringStart s).getD 0 + n * c.srcStride
        let cfg := b.ring s.arr s.ring
        let span := scaleSpan cfg.div pos c.rowBytes
        match b.readRing f.ctx s pos c.rowBytes with
        | (b, .fault va) => (b, .inr (.fault va))
        | (b, .ok bs) =>
          match (if b.cartMovesScales f.part c then b.readBay f.ctx s.num (ringPieces cfg.sbase (cfg.size / cfg.div) span.1 span.2)
              else (b, .ok [])) with
          | (b, .fault va) => (b, .inr (.fault va))
          | (b, .ok sc) => (b.setRingPos s.arr s.ring true ((f.ringStart s).getD 0 + (n + 1) * c.srcStride), .inl (bs, sc))
    | none =>
      if c.mode = 1 then
        match b.cartIndex j f c.src c.srcStride r with
        | (b, .inr e) => (b, .inr e)
        | (b, .inl a) => done (b.readV f.ctx a c.rowBytes)
      else if c.mode = 0 then done (b.cartRead j f (c.src + k * c.srcPStride + r * c.srcStride) c.rowBytes)
      else done (b.readV f.ctx (c.src + r * c.srcStride) c.rowBytes)

/-! Destinations. -/

/-- Marks every 64-byte unit of the inbox that a marked byte touches (R255). -/
def markUnits (bs : List (Byte × Bool)) : List (Byte × Bool) :=
  (cutList 64 (bs.length / 64 + 1) bs).flatMap fun u => u.map fun q => (q.1, anyMark u)

/-- Gives bytes to the inbox as far as it takes them: it holds 4 KiB, and the loader takes from it as it fills (R96, R255). -/
def Block.toInbox (b : Block) (a : Nat) : Nat → List (Byte × Bool) → Block × List (Byte × Bool)
  | 0, bs => (b, bs)
  | k + 1, bs =>
    let b := b.inboxPump a
    let n := 4096 - (b.arr a).inbox.length
    if bs.isEmpty || n = 0 then (b, bs)
    else Block.toInbox (b.setArr a { b.arr a with inbox := markUnits ((b.arr a).inbox ++ bs.take n) }) a k (bs.drop n)

/-- Whether another CART feeds an inbox (R255). -/
def Block.inboxTaken (b : Block) (i a : Nat) : Bool :=
  b.flights.zipIdx.any fun q => q.2 != i && q.1.started && !q.1.done && cType q.1.word == 0x04 &&
    (cartOf q.1.word).dstKind == 1 && b.arrayUnit q.1.part (cartOf q.1.word).array == some a

/-- Frame `x` of the row at linear index `n` of a CART to a port (R412, R413). -/
def Block.cartFrame (b : Block) (f : Flight) (c : CartC) (port n x addr : Nat) (bs : List (Byte × Bool)) : Frame :=
  let per := ceilDiv f.rowLen 8192
  { hdr :=
      { destMod := c.destMod, destPart := b.fld (pageOf .part f.part) 0x3F0 0 6, vc := if c.red = 0 then 0 else 1,
        srcMod := b.moduleId port, srcPart := f.part, rsv := 0, life := b.fld (portPage port) 0x048 0 24,
        kind := if c.red = 0 then 0 else 1, red := c.red, last := decide (n * per + x + 1 = c.rows * c.planes * per),
        poison := anyMark bs, enc := false, epoch := 0, dstAddr := addr + 8192 * x, msgSeq := f.msg.getD 0,
        frameIdx := n * per + x, frameCtr := 0 },
    payload := raw bs, tag := [] }

/-- Hands what is left of a row to the send queue, frame by frame, as far as the VC's credits reach (R256, R411). -/
def Block.toPort (b : Block) (f : Flight) (c : CartC) (port n addr : Nat) : Nat → List (Byte × Bool) →
    Block × List (Byte × Bool)
  | 0, bs => (b, bs)
  | k + 1, bs =>
    let vc := if c.red = 0 then 0 else 1
    let len := min 8192 bs.length
    if bs.isEmpty || !b.admits port vc len then (b, bs)
    else
      let x := (f.rowLen - bs.length) / 8192
      Block.toPort (b.sendFrame port (b.cartFrame f c port n x addr (bs.take len)) (some f.part)) f c port n addr k
        (bs.drop len)

/-- The bytes of a write of `n` bytes at `va` that were written: up to the address at which translation failed, if any, but for what a draft
without a page suppressed (R186). -/
def Block.written (b : Block) (x : Ctx) (va n : Nat) (bad : Option Nat) : Nat :=
  let pieces := (chunks va n).filter fun q => q.1 < bad.getD (va + n) && match x.draft with
    | none => true
    | some d => ((b.draft x.part d).page q.1).isSome
  (pieces.map Prod.snd).sum

/-- Writes sectors; those that reach the near tier as a stash are counted (R317). -/
def Block.putSectors (b : Block) (f : Flight) (c : CartC) (va : Nat) (bs : List (Byte × Bool)) : Block × Option Nat :=
  let (b, bad) := b.writeV f.ctx va bs
  (b.ifSo (c.stashes c.dst) fun b => b.stash f.part true (b.written f.ctx va bs.length bad), bad)

/-- Compresses raw bytes block by block into the sector area from sector `s` on, entry `k` on (R257, R287, R297). -/
def Block.cartCompress (b : Block) (j : CartJob) (f : Flight) : Nat → Nat → Nat → List (Byte × Bool) → Block × Option Nat
  | 0, _, _, _ => (b, none)
  | n + 1, k, s, bs =>
    let c := j.c
    let blk := bs.take c.block
    let (sect, isRaw) := encodeBlock c.thresh c.sym16 blk
    let e : IdxEntry := ⟨(crc32c (raw blk)).toNat, s, sect.length / 32, isRaw⟩
    match b.putSectors f c (c.dst + 32 * s) sect with
    | (b, some va) => (b, some va)
    | (b, none) =>
      match b.writeV f.ctx (c.idx + 8 * k) (clean (toBytes 8 e.bits)) with
      | (b, some va) => (b, some va)
      | (b, none) =>
        let b := b.countCmp (j.e / 16) blk.length sect.length isRaw
        Block.cartCompress b j f n (k + 1) (s + sect.length / 32) (bs.drop c.block)

/-- The sector at which a COMPRESS starts (R297). A poisoned entry under APPEND ends the carriage with a fault status (DEDUCED from R234: no
unit turns poisoned input into an unmarked value). -/
def Block.cartFirstSector (b : Block) (j : CartJob) (f : Flight) : Block × (Nat ⊕ CartEnd) :=
  if !j.c.append then (b, .inl 0)
  else match b.readV f.ctx (j.c.idx - 8) 8 with
    | (b, .fault va) => (b, .inr (.fault va))
    | (b, .ok bs) =>
      let e := idxOf (ofBytes (raw bs))
      (b, if anyMark bs then .inr .ended else .inl (e.off + e.sect))

/-- Writes the scale bytes that go with row `n` of a CART between rings. -/
def Block.putScales (b : Block) (f : Flight) (c : CartC) (s d : RingSide) (n : Nat) : Block × Option Nat :=
  let cfg := b.ring d.arr d.ring
  let sp := (f.ringStart s).getD 0 + n * c.srcStride
  let dp := (f.ringStart d).getD 0 + n * c.dstStride
  let span := scaleSpan cfg.div dp c.rowBytes
  b.writeBay f.ctx d.num (ringPieces cfg.sbase (cfg.size / cfg.div) span.1 span.2) (moveScales cfg.div sp dp c.rowBytes f.scales)

/-- Delivers what is left of the row in the flight's buffer; answers what stays and how the row stands. -/
def Block.cartSink (b : Block) (j : CartJob) (f : Flight) (src side : Option RingSide) (k r : Nat) :
    Block × List (Byte × Bool) × CartEnd :=
  let c := j.c
  let n := k * c.rows + r
  let at_ := c.dst + k * c.dstPStride + r * c.dstStride
  let put (b : Block) (va : Nat) : Block × List (Byte × Bool) × CartEnd :=
    match b.writeV f.ctx va f.buf with
    | (b, none) => (b, [], .done)
    | (b, some va) => (b, [], .fault va)
  if c.dstKind = 1 then
    match b.arrayUnit f.part c.array with
    | none => (b, [], .ended)
    | some a =>
      if b.inboxTaken j.i a then (b, f.buf, .wait)
      else match b.toInbox a (f.buf.length / 64 + 2) f.buf with
        | (b, rest) => (b, rest, if rest.isEmpty then .done else .wait)
  else if c.dstKind = 2 then
    match b.portAt f.part c.port with
    | none => (b, [], .ended)
    | some port =>
      match b.toPort f c port n at_ (ceilDiv f.rowLen 8192) f.buf with
      | (b, rest) => (b, rest, if rest.isEmpty then .done else .wait)
  else if c.codec = 2 then
    match b.cartFirstSector j f with
    | (b, .inr e) => (b, [], e)
    | (b, .inl s) =>
      match b.cartCompress j f (c.rowBytes / c.block) 0 s f.buf with
      | (b, none) => (b, [], .done)
      | (b, some va) => (b, [], .fault va)
  else match side with
    | some d =>
      if !b.ringReady f d c.dstStride n then (b, f.buf, .wait)
      else
        let pos := (f.ringStart d).getD 0 + n * c.dstStride
        match b.writeRing f.ctx d pos f.buf with
        | (b, some va) => (b, [], .fault va)
        | (b, none) =>
          match (match src with
            | some s => if f.scales.isEmpty then (b, none) else b.putScales f c s d n
            | none => (b, none)) with
          | (b, some va) => (b, [], .fault va)
          | (b, none) => (b.setRingPos d.arr d.ring false ((f.ringStart d).getD 0 + (n + 1) * c.dstStride), [], .done)
    | none =>
      if c.mode = 2 then
        match b.cartIndex j f c.dst c.dstStride r with
        | (b, .inr e) => (b, [], e)
        | (b, .inl a) => put b a
      else
        match (if c.pass then b.putSectors f c at_ f.buf else b.writeV f.ctx at_ f.buf) with
        | (b, none) => (b, [], .done)
        | (b, some va) => (b, [], .fault va)

/-! Running a carriage. -/

/-- Raises POISON_COPIED once per carriage, when marked bytes have been delivered (R254). -/
def Block.cartPoison (b : Block) (j : CartJob) (f : Flight) (moved : List (Byte × Bool)) : Block × Flight :=
  if anyMark moved && !f.warned then (b.raise (cartPage j.e) 1 (some f.part), { f with warned := true }) else (b, f)

/-- Counts bytes delivered (R276, R594). -/
def Block.cartMoved (b : Block) (j : CartJob) (p n : Nat) : Block :=
  (b.add64 (cartPage j.e) 0x048 n).countEv p 2 j.e 0x13 n

/-- Moves the row at which a CART stands: reads it unless its bytes wait already, and delivers them. -/
def Block.cartRow (b : Block) (j : CartJob) (f : Flight) (src dst : Option RingSide) : Block × Flight × CartEnd :=
  let got : Block × (Flight ⊕ CartEnd) :=
    if !f.buf.isEmpty then (b, .inl f)
    else match b.cartSource j f src f.plane f.row with
      | (b, .inr e) => (b, .inr e)
      | (b, .inl (bs, sc)) => (b, .inl { f with buf := bs, scales := sc, rowLen := bs.length })
  match got with
  | (b, .inr e) => (b, f, e)
  | (b, .inl f) =>
    let after (b : Block) (rest : List (Byte × Bool)) (sc : List (Byte × Bool)) : Block × Flight :=
      let n := f.buf.length - rest.length
      (b.cartMoved j f.part n).cartPoison j f (f.buf.take n ++ sc)
    match b.cartSink j f src dst f.plane f.row with
    | (b, rest, .done) =>
      let (b, f) := after b rest f.scales
      let f := { f with buf := [], scales := [] }
      (b, if f.row + 1 = j.c.rows then { f with row := 0, plane := f.plane + 1 } else { f with row := f.row + 1 }, .done)
    | (b, rest, .wait) =>
      let (b, f) := after b rest []
      (b, { f with buf := rest }, .wait)
    | (b, _, e) => (b, { f with buf := [] }, e)

/-- The rows of a CART, at most `n` of them. -/
def Block.cartRows (b : Block) (j : CartJob) (src dst : Option RingSide) : Nat → Flight → Block × Flight × CartEnd
  | 0, f => (b, f, .done)
  | n + 1, f =>
    match b.cartRow j f src dst with
    | (b, f, .done) => Block.cartRows b j src dst n f
    | q => q

/-- What a CART writes, as ranges: its rows, or the whole of a side under a codec, PASS or a ring. -/
def Block.cartWrites (b : Block) (f : Flight) (c : CartC) : List (Nat × Nat) :=
  if c.codec ≠ 0 || c.pass || c.dstRing ≠ 0 then ((b.cartSides f.part c).filter (·.wr)).map fun s => (s.lo, s.hi)
  else (List.range (c.planes * c.rows)).map fun n =>
    let d := c.dst + n / c.rows * c.dstPStride + n % c.rows * c.dstStride
    (d, d + c.rowBytes)

/-- A COPY whose source and destination overlap leaves the overlap's contents open, however it ends (R250). -/
def Block.cartOverlap (b : Block) (f : Flight) (c : CartC) : Block :=
  if c.mode ≠ 0 || c.dstKind ≠ 0 then b
  else
    b.each ((b.cartSides f.part c).filter fun s => !s.wr) fun b s =>
      b.each (b.cartWrites f c) fun b q =>
        let lo := max q.1 s.lo
        let hi := min q.2 s.hi
        if lo < hi then b.scrambleV f.ctx lo (hi - lo) else b

/-- The start of a carriage on its engine (R260, R261): staged data serves it or is discarded. -/
def Block.cartStart (b : Block) (j : CartJob) (f : Flight) : Block :=
  let u := b.cart j.e
  let serves := f.chained && u.chan == f.chan && u.part == f.part && u.draft == cDraftOf f.word && !cPreEn f.word
  b.setCartU j.e { u with
    staged := [], inUse := if serves then u.staged else [], part := f.part, chan := f.chan, draft := cDraftOf f.word,
    raStop := false, last := some f.word }

/-- A carriage ends: staged blocks it did not use are dropped. -/
def Block.cartStop (b : Block) (j : CartJob) : Block := b.setCartU j.e { b.cart j.e with inUse := [] }

/-- The codec units of a field that CARTs other than flight `i` hold in a direction: four expanders, four compressors (R258). -/
def Block.unitsHeld (b : Block) (field codec i : Nat) : List Nat :=
  b.flights.zipIdx.filterMap fun q =>
    if q.2 != i && !q.1.done && cType q.1.word == 0x04 && (cartOf q.1.word).codec == codec && engCart (16 * field) ≤ q.1.engine &&
        q.1.engine < engCart (16 * (field + 1)) then q.1.unit else none

/-- The codec unit of a CART, which it holds from its first block to its last; none where all are held. Which free one it takes is left
open. -/
def Block.takeUnit (b : Block) (e i : Nat) (f : Flight) (c : CartC) : Option (Block × Flight) :=
  if c.codec = 0 || f.unit.isSome then some (b, f)
  else
    let free := (List.range 4).filter fun u => !(b.unitsHeld (e / 16) c.codec i).contains u
    if free.isEmpty then none
    else some (b.tick, { f with unit := free[(Config.freeValue b.free).toNat % free.length]? })

/-- The engine waits: CART_STATE.STATE reads WAIT (R276). -/
def Block.cartWait (b : Block) (e : Nat) : Block := b.setFld (cartPage e) 0x040 0 2 2

/-- Runs a CART as far as its sides let it. -/
def Block.cartRun (b : Block) (e i : Nat) (f : Flight) : Block :=
  let c := cartOf f.word
  let j : CartJob := ⟨e, i, c⟩
  let began : Bool := (b.flights[i]?.map (·.started)).getD false
  let src := b.cartSide f.part c.src c.srcRing true
  let dst := b.cartSide f.part c.dst c.dstRing false
  let taken : Bool := c.dstKind == 1 && match b.arrayUnit f.part c.array with
    | some a => b.inboxTaken i a
    | none => false
  if taken then b.cartWait e
  else
    match (b.ringsStart i f (src.toList ++ dst.toList)).bind fun f => b.takeUnit e i f c with
    | none => b.cartWait e
    | some (b, f) =>
      let b := b.ifSo (!began) fun b => b.cartStart j f
      let (b, f) : Block × Flight := if c.dstKind = 2 && f.msg.isNone then
          match b.nextMsg f.part c.destMod with
          | (b, m) => (b, { f with msg := some m })
        else (b, f)
      match b.cartRows j src dst (c.rows * c.planes - f.plane * c.rows - f.row) f with
      | (b, f, .done) => ((b.cartOverlap f c).setFlight i f.finish).cartStop j
      | (b, f, .wait) => (b.setFlight i f).cartWait e
      | (b, f, .fault va) => ((b.cartOverlap f c).xlateFault i f va).cartStop j
      | (b, f, .ended) => ((b.cartOverlap f c).endFault i f).cartStop j

/-- Runs the oldest CART of an engine if it is of a mode. An engine takes its carriages in order. -/
def Block.cartMode (b : Block) (e mode : Nat) : Block :=
  b.runFlight (fun f => f.engine == engCart e && !f.done) fun b i f =>
    if (cartOf f.word).mode = mode then b.cartRun e i f else b

/-- CART_COPY (R249). -/
def execCartCopy (e : Fin 64) (s : State) : Host.Outcome State Fault Refusal := onBlock (fun b => b.cartMode e 0) s

/-- CART_GATHER (R249, R251). -/
def execCartGather (e : Fin 64) (s : State) : Host.Outcome State Fault Refusal := onBlock (fun b => b.cartMode e 1) s

/-- CART_SCATTER (R249, R251). -/
def execCartScatter (e : Fin 64) (s : State) : Host.Outcome State Fault Refusal := onBlock (fun b => b.cartMode e 2) s

/-- CART_FILL (R249). -/
def execCartFill (e : Fin 64) (s : State) : Host.Outcome State Fault Refusal := onBlock (fun b => b.cartMode e 3) s

/-! Run-ahead (R259, R260). -/

/-- Whether run-ahead may fetch the block at `va`: its entry is within the table, valid, readable and not SE. -/
def Block.mayFetch (b : Block) (p va : Nat) : Bool :=
  let page := pageOf .part p
  let e := match regionOf va with
    | some .near => b.entry (b.reg64 page 0x100) (b.regN page 0x108) (va / 2 ^ 21)
    | some .deep => b.entry (b.reg64 page 0x110) (b.regN page 0x10C) ((va - regionBase .deep) / 2 ^ 21)
    | _ => none
  match e with
  | some e => bitOf e 0 && bitOf e 1 && !bitOf e 3
  | none => false

/-- Fetches at most `n` blocks from `va` on into the window that ends at `hi`. -/
def Block.fetchAhead (b : Block) (e hi : Nat) : Nat → Nat → Block
  | 0, _ => b
  | n + 1, va =>
    let u := b.cart e
    if hi < va + 4096 || u.raStop then b
    else if u.staged.any fun q => q.1 == va then Block.fetchAhead b e hi n (va + 4096)
    else if 64 ≤ u.staged.length + u.inUse.length then b
    else
      let drop (b : Block) : Block := (b.add64 (cartPage e) 0x060 1).setCart e { b.cart e with raStop := true }
      if !b.mayFetch u.part va then drop b
      else match b.readPiece ⟨u.part, u.draft⟩ va 4096 with
        | (b, .fault _) => drop b
        | (b, .ok bs) =>
          Block.fetchAhead ((b.add64 (cartPage e) 0x050 4096).setCartU e { u with staged := u.staged ++ [(va, bs)] }) e hi n
            (va + 4096)

/-- RUN_AHEAD (R259, R260): beyond the COPY that started last on the engine, whatever it does with the bytes. -/
def execRunAhead (e : Fin 64) (s : State) : Host.Outcome State Fault Refusal :=
  onBlock (fun b =>
    match (b.cart e).last with
    | none => b
    | some w =>
      let c := cartOf w
      let tier := regionOf c.src == some .near || regionOf c.src == some .deep
      if c.mode = 0 && c.winLen ≠ 0 && tier then
        let top := (b.cartSrcSide (b.cart e).part c).hi
        b.withCache (cacheOf (engCart e)) fun b => b.fetchAhead e (c.winBase + c.winLen) 65 (ceilDiv top 4096 * 4096)
      else b) s

/-! Ring registers (R268, R269). -/

/-- Whether a carriage uses ring `k` of an array. -/
def Block.ringInUse (b : Block) (a k : Nat) : Bool :=
  b.flights.any fun f => !f.rows && f.ringPos.any fun q => q.1 / 2 == 8 * a + k

/-- A write of RING_CFG_k (R268, R269). -/
def Block.ringCfg (b : Block) (a k v : Nat) : Block :=
  let page := arrayPage a
  let old := b.regN page (ringOff k 0)
  let v := v &&& mask 21
  let top := fieldOf v 0 9 * 4096 + (fieldOf v 9 9 + 1) * 4096
  let fits := top ≤ baySize && top ≤ b.bayBytesOf a
  let new := keepField old v 0 18 fits
  let new := keepField old new 18 2 (fieldOf new 18 2 != 3)
  if b.ringInUse a k then b
  else
    let b := b.ifSo (!bitOf old 20 && bitOf new 20) fun b => (b.setRingPos a k false 0).setRingPos a k true 0
    b.setN page (ringOff k 0) new

/-- RING_ENABLE: a write of RING_CFG_k; ring `k + 1` (R268). -/
def execRingEnable (who : Agent) (a : Nat) (k : Fin 7) (value : Word) (s : State) : Host.Outcome State Fault Refusal :=
  onBlock (fun b => match b.arrayPageOf who a (ringOff (k + 1) 0) with
    | some u => b.ringCfg u (k + 1) value.toNat
    | none => b) s

/-- Whether a flight names ring `k` of array `a` on a side. -/
def Block.namesRing (b : Block) (a k : Nat) (f : Flight) : Bool :=
  let c := cartOf f.word
  let side (va r : Nat) (cons : Bool) : Bool := match b.cartSide f.part va r cons with
    | some s => s.arr == a && s.ring == k
    | none => false
  !f.rows && match cType f.word with
    | 0x01 => f.engine == a && (streamRings a (streamOf f.word)).any fun s => s.ring == k
    | 0x03 => f.engine == engVec a && [(chainOf f.word).a, (chainOf f.word).b, (chainOf f.word).d, (chainOf f.word).mask,
        (chainOf f.word).rowOut].any fun v => v.ring == k
    | 0x04 => side c.src c.srcRing true || side c.dst c.dstRing false
    | _ => false

/-- RING_ROW_RELEASE (R266): the carriages that have started on ring `k + 1` of a bay go on as far as its positions let them. -/
def execRingRowRelease (a : Fin 128) (k : Fin 7) (s : State) : Host.Outcome State Fault Refusal :=
  onBlock (fun b =>
    b.each (b.flights.filter fun f => f.started && b.namesRing a (k + 1) f) fun b f =>
      match cType f.word with
      | 0x01 => b.streamStep f.engine (2 ^ 24)
      | 0x03 => b.chainStep (f.engine - 128) (2 ^ 33)
      | _ => b.cartMode (f.engine - 256) (cartOf f.word).mode) s

end Sys2Proof.Machine
end

