-- ==== Sys2Proof/Machine/Channels.lean ====
section
/-!
DEFINITION. Command channels, semaphores, fences and drafts (chapter 05), with the host's writes to rings and doorbells
(R507).
-/

namespace Sys2Proof.Machine

/-- The device channel that channel number `n` of a requester names (R505). -/
def Block.chanOf (b : Block) (who : Agent) (n : Nat) : Option Nat :=
  match who with
  | .vf v =>
    match b.partOfVf v with
    | some q => (b.chansOf q)[n]?
    | none => none
  | _ => if n < 256 then some n else none

def chanPage (c : Nat) : Nat := pageOf .chan c
def Block.rdPtr (b : Block) (c : Nat) : Nat := b.fld (chanPage c) 0x050 0 7
def Block.wrPtr (b : Block) (c : Nat) : Nat := b.fld (chanPage c) 0x04C 0 7
/-- CHAN_STATE.STATE: 0 DISABLED, 1 RUNNING, 2 WAITING, 3 HALTED (R170). -/
def Block.chanState (b : Block) (c : Nat) : Nat := b.fld (chanPage c) 0x048 0 2
def Block.setChanState (b : Block) (c v : Nat) : Block := b.setFld (chanPage c) 0x048 0 2 v

/-- The carriage in slot `s` of a channel's ring (R164). -/
def Block.ringSlot (b : Block) (c s : Nat) : Carriage :=
  BitVec.ofNat 1024 (ofBytes (storeGetList memDefault b.rings (8192 * c + 128 * s) 128))

/-- DOORBELL (R166, R507). -/
def Block.doorbell (b : Block) (c v : Nat) : Block :=
  if b.chanState c = 0 || !b.accepting then b
  else if 64 < (v % 128 + 128 - b.rdPtr c) % 128 then
    (b.setChanState c 3).raise (chanPage c) 1 (b.chan c).owner
  else b.setN (chanPage c) 0x04C (v % 128)

def execDoorbell (who : Agent) (chan : Nat) (value : Word) (s : State) : Host.Outcome State Fault Refusal :=
  onBlock (fun b => match b.chanOf who chan with
    | some c => b.doorbell c value.toNat
    | none => b) s

/-- Whether slot `s` of a channel has been published and not yet dispatched. -/
def Block.published (b : Block) (c s : Nat) : Bool :=
  (s + 64 - b.rdPtr c % 64) % 64 < (b.wrPtr c + 128 - b.rdPtr c) % 128

/-- A host write into a ring slot; a write to a published slot leaves the slot unspecified (R507). -/
def Block.ringWrite (b : Block) (who : Agent) (chan slot off : Nat) (bytes : List Byte) : Block :=
  match b.chanOf who chan with
  | none => b
  | some c =>
    if 64 ≤ slot || 128 < off + bytes.length then b
    else
      let at_ := 8192 * c + 128 * slot
      if b.chanState c ≠ 0 && b.published c slot then
        let bs := (List.range 128).map fun i => (Config.freeValue (b.free + i)).truncate 8
        { b with rings := storePutList memDefault b.rings at_ bs, free := b.free + 128 }
      else { b with rings := storePutList memDefault b.rings (at_ + off) bytes }

/-- RING_SLOT_WRITE. -/
def execRingSlotWrite (who : Agent) (chan slot off : Nat) (bytes : List Byte) (s : State) :
    Host.Outcome State Fault Refusal :=
  onBlock (fun b => b.ringWrite who chan slot off bytes) s

/-! Dispatch. -/

/-- The leaf and the carriage at a channel's read pointer, where the channel dispatches: RUNNING or WAITING, not empty, not
stopped, its leaf LOADED and not in recovery (R167, R170, R195, R524). -/
def Block.atHead (b : Block) (c : Nat) : Option (Nat × Carriage) :=
  match (b.chan c).owner with
  | none => none
  | some p =>
    if (b.chanState c = 1 || b.chanState c = 2) && b.rdPtr c != b.wrPtr c && !(b.chan c).closing &&
        !(b.chan c).quiesced && (b.grant p).loaded && b.fld (pageOf .part p) 0x300 5 1 == 0 && b.fld (pageOf .part p) 0x2A0 0 1 == 0 &&
        b.warm.isNone && b.fld devPage 0x040 0 3 != 5 then
      some (p, b.ringSlot c (b.rdPtr c % 64))
    else none

/-- A refusal (R162): the channel HALTED, the code and TAG on its page, REFUSED raised. -/
def Block.refuse (b : Block) (c p code : Nat) (w : Carriage) : Block :=
  let b := b.setN (chanPage c) 0x048 (3 + code * 2 ^ 8 + cTag w * 2 ^ 16)
  let b := b.setChan c { b.chan c with headOk := false }
  (b.countEv p 3 c 0x16 1).raise (chanPage c) 0 (some p) (b.regN (chanPage c) 0x048)

/-- Whether a threshold wait is met (R171). -/
def semMet (v t : Word) : Bool := decide (0 ≤ (v - t).toInt)

/-- Whether a channel has a flight that is not complete. -/
def Block.chanBusy (b : Block) (c : Nat) : Bool := b.flights.any fun f => f.chan == c

/-- Whether a bay or yard range overlaps the scratch of an open draft that is not the carriage's own (R185). A carriage of another draft
waits as a non-draft one does (DEDUCED, log 192: only the draft's own carriages read or write its scratch while it is open). -/
def Block.scratchHold (b : Block) (p : Nat) (w : Carriage) : Bool :=
  (List.range 16).any fun d =>
    let x := b.draft p d
    x.state != .free && !((cDraft w || cType w == 0x0B || cType w == 0x0C) && cDraftId w == d) &&
      (b.sides p w).any fun s => (regionOf s.lo == some .bay || regionOf s.lo == some .yard) &&
        [x.scr0, x.scr1].any fun r => s.lo < r.1 + r.2 && r.1 < s.hi

/-- Whether a carriage names an array that is lent out, or a fill slot that is not bound (R490, R492). -/
def Block.arrayHold (b : Block) (p : Nat) (w : Carriage) : Bool :=
  let hold (i : Nat) : Bool :=
    match b.arrayAt p i with
    | some (.unit a) => (b.arr a).lentTo.isSome
    | some (.fill k) => (b.slot k).bound.isNone
    | none => false
  match cType w with
  | 0x01 => hold (streamOf w).array
  | 0x02 => (foldOf w).members.any fun i => hold (32 * (foldOf w).field + i)
  | 0x03 => hold (chainOf w).engine
  | 0x04 => (cartOf w).dstKind == 1 && hold (cartOf w).array
  | _ => false

/-- Whether a carriage is held at the dispatcher (R160, R169, R185, R490, R492). -/
def Block.held (b : Block) (c p : Nat) (w : Carriage) : Bool :=
  (cPreEn w && !semMet (b.sem (b.semIndex p (cPreSem w))) (cPreValue w)) || (cSerial w && b.chanBusy c) ||
    b.scratchHold p w || b.arrayHold p w

/-- CARRIAGE_HEAD: the first check (R163). -/
def execCarriageHead (c : Fin 256) (s : State) : Host.Outcome State Fault Refusal :=
  onBlock (fun b =>
    match b.atHead c with
    | none => b
    | some (p, w) =>
      if (b.chan c).headOk then b
      else match b.refusal p c w with
        | some code => b.refuse c p code w
        | none =>
          let b := b.setChan c { b.chan c with headOk := true }
          b.setChanState c (if b.held c p w then 2 else 1)) s

/-- The dispatch of a WAIT, a FENCE or a SERIAL carriage from channel `c`: the next CART of an engine whose last came from there
finds no staged data, but for a SERIAL one's own engine (R261). -/
def Block.breakStaging (b : Block) (c : Nat) (w : Carriage) (engine : Nat) : Block :=
  if cType w = 7 || cType w = 9 || cSerial w then
    b.each ((List.range 64).filter fun e => (b.cart e).dchan == some c && engCart e != engine) fun b e =>
      b.setCart e { b.cart e with broken := true }
  else b

/-- Advances the read pointer past the carriage at it, counts it in CARRIAGES unless it is IDLE, and puts it in flight (R165,
R167, R170). -/
def Block.advance (b : Block) (c p : Nat) (w : Carriage) (engine : Nat) (done empty : Bool) : Block :=
  let b := b.setN (chanPage c) 0x050 ((b.rdPtr c + 1) % 128)
  let b := b.ifSo (cType w != 0) fun b => (b.add64 (chanPage c) 0x058 1).countEv p 3 c 0x15 1
  let b := (b.setChan c { b.chan c with headOk := false }).breakStaging c w engine
  let cart : Bool := cType w == 4 && engine != engDispatch
  let u := b.cart (engine - 256)
  let f := { flightNew c p w engine b.now done empty with chained := cart && u.dchan == some c && !u.broken }
  let b := b.ifSo cart fun b => b.setCart (engine - 256) { u with dchan := some c, broken := false }
  { b.setChanState c 1 with flights := b.flights ++ [f] }.touchEngine engine

/-- What a row that takes the carriage at the read pointer does: one of a SPOILED draft that passes the second check completes at once,
empty (R189), whatever would hold it; for any other the holds, the second check (R163), `k`. -/
def Block.atDispatch (b : Block) (c : Nat) (types : List Nat) (hold : Block → Nat → Carriage → Bool)
    (k : Block → Nat → Carriage → Block) : Block :=
  match b.atHead c with
  | none => b
  | some (p, w) =>
    let spoiled := cDraft w && (b.draft p (cDraftId w)).state == .spoiled
    if !(b.chan c).headOk || !types.contains (cType w) then b
    else if !spoiled && (b.held c p w || hold b p w) then b.setChanState c 2
    else match b.refusal p c w with
      | some code => b.refuse c p code w
      | none => if spoiled then b.advance c p w engDispatch true true else k b p w

/-- No hold beside those of every carriage. -/
def noHold : Block → Nat → Carriage → Bool := fun _ _ _ => false

/-- CARRIAGE_DISPATCH: the second check and the hand-over to the engine (R163, R169). -/
def execCarriageDispatch (c : Fin 256) (s : State) : Host.Outcome State Fault Refusal :=
  onBlock (fun b => b.atDispatch c [1, 2, 3, 4, 5, 6] noHold fun b p w =>
    b.advance c p w (b.engineOf p c w) false false) s

/-- IDLE (R167). -/
def execIdleCarriage (c : Fin 256) (s : State) : Host.Outcome State Fault Refusal :=
  onBlock (fun b => b.atDispatch c [0] noHold fun b p w => b.advance c p w engDispatch true false) s

/-- Whether a fence of a scope must still wait (R177 to R179): an earlier carriage of the channel is not complete, its effects
are not acknowledged, or, at SYSTEM scope, a back-invalidation is outstanding. -/
def Block.fenceWaits (b : Block) (c scope : Nat) (acked : Bool) : Bool :=
  b.chanBusy c || !acked || (scope == 4 && b.snoopWaits)

/-- SIGNAL (R174): waits as a fence of its scope, adds, sends the interrupt. -/
def execSignal (c : Fin 256) (acked : Bool) (s : State) : Host.Outcome State Fault Refusal :=
  onBlock (fun b => b.atDispatch c [8] (fun b _ w => b.fenceWaits c (cf w 0x10 0 3) acked) fun b p w =>
    let b := b.addSem (b.semIndex p (cf w 0x14 0 14)) (cf w 0x18 0 32)
    let b := b.ifSo (cb w 0x10 3) fun b => b.msix (b.fnOf p) (cf w 0x1C 0 11)
    b.advance c p w engDispatch true false) s

/-- WAIT (R174). -/
def execWait (c : Fin 256) (s : State) : Host.Outcome State Fault Refusal :=
  onBlock (fun b => b.atDispatch c [9]
    (fun b p w => !semMet (b.sem (b.semIndex p (cf w 0x10 0 14))) (BitVec.ofNat 32 (cf w 0x14 0 32)))
    fun b p w => b.advance c p w engDispatch true false) s

/-- FENCE (R177): the channel waits until the fence completes. -/
def execFence (c : Fin 256) (s : State) : Host.Outcome State Fault Refusal :=
  onBlock (fun b => match b.atHead c with
    | some (_, w) => b.ifSo ((b.chan c).headOk && cType w == 7) fun b => b.setChanState c 2
    | none => b) s

/-- FENCE_COMPLETE (R177 to R179). -/
def execFenceComplete (c : Fin 256) (acked : Bool) (s : State) : Host.Outcome State Fault Refusal :=
  onBlock (fun b => b.atDispatch c [7] (fun b _ w => b.fenceWaits c (cf w 0x10 0 3) acked) fun b p w =>
    b.advance c p w engDispatch true false) s

/-- CARRIAGE_COMPLETE (R172): the oldest completed carriage of the channel leaves with its post-signal. -/
def execCarriageComplete (c : Fin 256) (s : State) : Host.Outcome State Fault Refusal :=
  onBlock (fun b =>
    match b.flights.findIdx? (fun f => f.chan == c.val && f.done) with
    | none => b
    | some i =>
      match b.flights[i]? with
      | none => b
      | some f =>
        let b := { b with flights := b.flights.eraseIdx i }
        b.ifSo (cPostEn f.word) fun b => b.addSem (b.semIndex f.part (cPostSem f.word)) (cPostAdd f.word)) s

/-! Channel commands (R168, R170). -/

/-- Drops `n` carriages at the read pointer. -/
def Block.dropCarriages (b : Block) (c n : Nat) : Block :=
  let b := b.setN (chanPage c) 0x050 ((b.rdPtr c + n) % 128)
  (b.add64 (chanPage c) 0x060 n).setChan c { b.chan c with headOk := false }

def Block.resume (b : Block) (c : Nat) : Block :=
  if b.chanState c = 3 then (b.setChanState c 1).setChan c { b.chan c with headOk := false } else b

def Block.dropPkt (b : Block) (c : Nat) : Block :=
  if b.chanState c = 3 && b.rdPtr c != b.wrPtr c then b.dropCarriages c 1 else b

/-- FLUSH: every carriage between the pointers is dropped, and the channel is RUNNING; one that is DISABLED stays so (DEDUCED, log 191:
R168 has FLUSH drop carriages there, and only ENABLE lets it run). -/
def Block.flush (b : Block) (c : Nat) : Block :=
  let st := b.chanState c
  (b.dropCarriages c ((b.wrPtr c + 128 - b.rdPtr c) % 128)).setChanState c (if st = 0 then 0 else 1)

/-- The device channel whose page a requester's page index names. -/
def Block.chanPageOf (b : Block) (who : Agent) (n : Nat) : Option Nat :=
  match b.pageRef who (pageOf .chan n) with
  | .page y => match pageKind y with
    | some (.chan, c) => some c
    | _ => none
  | _ => none

/-- Carries out CHAN_CMD `cmd` for a requester that may write it (R504, R609). -/
def Block.chanCmd (b : Block) (who : Agent) (n cmd : Nat) : Block :=
  match b.chanPageOf who n with
  | none => b
  | some c =>
    if b.mayWrite who .chan c 0x044 then
      match cmd with
      | 1 => b.resume c
      | 2 => b.dropPkt c
      | 3 => b.flush c
      | _ => b
    else b

def execResume (who : Agent) (chan : Nat) (s : State) : Host.Outcome State Fault Refusal :=
  onBlock (fun b => b.chanCmd who chan 1) s

def execDropPkt (who : Agent) (chan : Nat) (s : State) : Host.Outcome State Fault Refusal :=
  onBlock (fun b => b.chanCmd who chan 2) s

def execFlush (who : Agent) (chan : Nat) (s : State) : Host.Outcome State Fault Refusal :=
  onBlock (fun b => b.chanCmd who chan 3) s

/-- Setting CHAN_CTRL.ENABLE: both pointers 0, 64 credits, RUNNING (R170). CREDITS counts from here on; before it reads its reset value. -/
def Block.chanEnable (b : Block) (c : Nat) : Block :=
  let b := ((b.setFld (chanPage c) 0x040 0 1 1).setN (chanPage c) 0x04C 0).setN (chanPage c) 0x054 64
  let b := (b.setN (chanPage c) 0x050 0).setN (chanPage c) 0x048 1
  b.setChan c { b.chan c with headOk := false, closing := false, quiesced := false }

/-- Clearing CHAN_CTRL.ENABLE stops dispatch at the next carriage boundary (R170). -/
def Block.chanDisable (b : Block) (c : Nat) : Block :=
  let b := (b.setFld (chanPage c) 0x040 0 1 0).setN (chanPage c) 0x048 0
  b.setChan c { b.chan c with headOk := false, closing := true }

def execChanEnable (c : Fin 256) (s : State) : Host.Outcome State Fault Refusal := onBlock (fun b => b.chanEnable c) s

def execChanDisable (c : Fin 256) (s : State) : Host.Outcome State Fault Refusal := onBlock (fun b => b.chanDisable c) s

/-! Drafts. -/

/-- Opens a draft (R182). -/
def Block.draftOpen (b : Block) (p : Nat) (w : Carriage) : Block :=
  let d := cDraftId w
  let limit := cf w 0x10 0 19
  let base := cf w 0x14 0 14
  let n := cf w 0x14 16 7
  let g := b.grant p
  let old := b.draft p d
  let b := b.setDraft p d
    { Draft.none with
      state := .open_, pageLimit := limit, free := g.draftFree.take limit, semBase := base, semCount := n,
      semValues := (List.range n).map fun i => b.sem (b.semIndex p (base + i)),
      scr0 := (cf w 0x18 0 48, cf w 0x20 0 32), scr1 := (cf w 0x28 0 48, cf w 0x30 0 32),
      deferred := old.deferred.filter (·.ready) }
  b.setGrant p { g with draftFree := g.draftFree.drop limit }

def execDraftBegin (c : Fin 256) (s : State) : Host.Outcome State Fault Refusal :=
  onBlock (fun b => b.atDispatch c [0x0A] noHold fun b p w =>
    (b.draftOpen p w).advance c p w engDispatch true false) s

/-- The dispatch of a COMMIT or a DISCARD: no further carriage of the draft is taken (R191). -/
def Block.draftClose (b : Block) (c p : Nat) (w : Carriage) : Block :=
  let x := b.draft p (cDraftId w)
  (b.setDraft p (cDraftId w) { x with closing := some w, closeChan := c }).advance c p w engDispatch false false

def execCommit (c : Fin 256) (s : State) : Host.Outcome State Fault Refusal :=
  onBlock (fun b => b.atDispatch c [0x0B] noHold fun b p w => b.draftClose c p w) s

def execDiscard (c : Fin 256) (s : State) : Host.Outcome State Fault Refusal :=
  onBlock (fun b => b.atDispatch c [0x0C] noHold fun b p w => b.draftClose c p w) s

/-- What the predicate of a COMMIT says (R191): none holds, else the reason for which it discards. -/
def Block.predicate (b : Block) (p : Nat) (w : Carriage) : Block × Option DraftReason :=
  if cType w ≠ 0x0B then (b, some .requested)
  else if !cb w 0x10 0 then (b, none)
  else
    match b.readV ⟨p, none⟩ (cf w 0x18 0 48) 4 with
    | (b, .fault va) => (b.raisePart p 3 va (cTag w), some .fault)
    | (b, .ok bs) =>
      if anyMark bs then (b, some .fault)
      else
        let v := decodeFloat fp32 (ofBytes (raw bs))
        (b, if isFinV v && !isZeroV v then none else some .predicate)

/-- Writes a draft's commit word to both of its near-tier places (R195, R456). -/
def Block.putCommitWord (b : Block) (p d v : Nat) : Block :=
  let at_ (i : Nat) : Nat := (b.grant p).commitWord.getD i 0
  (b.putTierNum (at_ d) 8 v).putTierNum (at_ (16 + d)) 8 v

/-- The wait of a COMMIT or DISCARD ends and the decision is made (R191, R195, R196). -/
def Block.draftDecide (b : Block) (p d : Nat) : Block :=
  let x := b.draft p d
  match x.closing with
  | none => b
  | some w =>
    if (x.state ≠ .open_ && x.state ≠ .spoiled) ||
        b.flights.any fun f => f.part == p && cDraftOf f.word == some d then b
    else if x.state = .spoiled then b.setDraft p d { x with state := .discarding }
    else
      match b.predicate p w with
      | (b, none) =>
        let b := b.setDraft p d { x with state := .committing }
        b.putCommitWord p d 1
      | (b, some r) => b.setDraft p d { x with state := .discarding, reason := r }

def execDraftDecision (p : Fin 64) (d : Fin 16) (s : State) : Host.Outcome State Fault Refusal :=
  onBlock (fun b => b.draftDecide p d) s

/-- Turns the entry of the virtual page of near-tier offset `off` into a SPLIT entry over 32 pieces of its frame (R215). -/
def Block.splitEntry (b : Block) (p off : Nat) : Block :=
  let at_ := b.reg64 (pageOf .part p) 0x100 + 8 * (off / 2 ^ 21)
  let e := b.num at_ 8
  if bitOf e 4 then b
  else
    let table := (b.grant p).pieceTable + off / 2 ^ 21 * 2 ^ 21
    let frame := fieldOf e 21 27 * 2 ^ 21
    let b := b.each (List.range 32) fun b i => b.putTierNum (table + 8 * i) 8 (frame + i * 2 ^ 16 + 1)
    b.putTierNum at_ 8 (putField (putField e 21 27 (table / 2 ^ 21)) 4 1 1)

/-- Replaces the committed piece of one near-tier page by a draft page; the replaced piece returns to the allowance (R187, R192,
R215). -/
def Block.remapPage (b : Block) (p d off page : Nat) : Block :=
  match b.xlTier p .near off true with
  | .dev old =>
    let b := (b.splitEntry p off).conflict p off (some d)
    let e := b.num (b.reg64 (pageOf .part p) 0x100 + 8 * (off / 2 ^ 21)) 8
    let b := b.putTierNum (fieldOf e 21 27 * 2 ^ 21 + 8 * (off / 2 ^ 16 % 32)) 8 (page / 2 ^ 16 * 2 ^ 16 + 1)
    let b := b.dropTags p (off / 2 ^ 21 * 2 ^ 12)
    b.setGrant p { b.grant p with draftFree := (b.grant p).draftFree ++ [old / 2 ^ 16 * 2 ^ 16] }
  | _ => b

/-- The code of a reason in the result record (R194). -/
def reasonCode : DraftReason → Nat
  | .requested => 0
  | .predicate => 1
  | .fault => 2
  | .conflict => 3
  | .pages => 4
  | .reset => 5

/-- Writes the result record (R194) of a COMMIT or DISCARD and performs its semaphore increment (R190). -/
def Block.draftResult (b : Block) (p : Nat) (w : Carriage) (committed : Bool) (reason used : Nat) : Block :=
  let addr := cf w 0x28 0 48
  let rec_ := (if committed then 1 else 2) + reason * 4 + used * 2 ^ 32
  let b := if addr = 0 then b
    else match b.writeV ⟨p, none⟩ addr (clean (toBytes 8 rec_)) with
      | (b, none) => b
      | (b, some va) => b.raisePart p 3 va (cTag w)
  if committed then b.ifSo (cb w 0x20 14) fun b => b.addSem (b.semIndex p (cf w 0x20 0 14)) 1
  else b.ifSo (cb w 0x20 30) fun b => b.addSem (b.semIndex p (cf w 0x20 16 14)) 1

/-- The COMMIT or DISCARD of a draft completes. -/
def Block.finishClose (b : Block) (p : Nat) (w : Carriage) : Block :=
  match b.flights.findIdx? (fun f => f.part == p && f.word == w && f.engine == engDispatch && !f.done) with
  | none => b
  | some i => match b.flights[i]? with
    | some f => b.setFlight i f.finish
    | none => b

/-- Ends a commit: the remap, the result record, the increment, FREE (R192). -/
def Block.draftCommitted (b : Block) (p d : Nat) (w : Carriage) : Block :=
  let x := b.draft p d
  let b := b.each x.pages fun b q => b.remapPage p d (q.1 * 2 ^ 16) q.2
  let b := b.draftResult p w true 0 x.used
  let b := b.setGrant p { b.grant p with draftFree := (b.grant p).draftFree ++ x.free }
  let b := b.setDraft p d { Draft.none with deferred := x.deferred.map fun q => { q with ready := true } }
  let b := b.putCommitWord p d 0
  (b.countEv p 5 0 0x1C 1).finishClose p w

/-- Ends a discard: pages and deferred writes dropped, semaphores set back, scratch unspecified, the result record, the increment,
FREE (R193). -/
def Block.draftDiscarded (b : Block) (p d : Nat) (w : Option Carriage) (reason : Nat) : Block :=
  let x := b.draft p d
  let b := b.each x.semValues.zipIdx fun b q => b.setSem (b.semIndex p (x.semBase + q.2)) q.1
  let b := (b.scrambleV ⟨p, none⟩ x.scr0.1 x.scr0.2).scrambleV ⟨p, none⟩ x.scr1.1 x.scr1.2
  let b := match w with
    | some w => b.draftResult p w false reason x.used
    | none => b
  let b := b.setGrant p { b.grant p with
    draftFree := (b.grant p).draftFree ++ x.pages.map Prod.snd ++ x.free }
  let b := b.setDraft p d { Draft.none with deferred := x.deferred.filter (·.ready) }
  let b := b.countEv p 5 0 0x1D 1
  match w with
  | some w => b.finishClose p w
  | none => b

def execDraftRemapDone (p : Fin 64) (d : Fin 16) (s : State) : Host.Outcome State Fault Refusal :=
  onBlock (fun b =>
    let x := b.draft p d
    match x.state, x.closing with
    | .committing, some w => b.draftCommitted p d w
    | _, _ => b) s

def execDraftPagesDropped (p : Fin 64) (d : Fin 16) (s : State) : Host.Outcome State Fault Refusal :=
  onBlock (fun b =>
    let x := b.draft p d
    match x.state, x.closing with
    | .discarding, some w => b.draftDiscarded p d (some w) (reasonCode x.reason)
    | _, _ => b) s

end Sys2Proof.Machine
end

