-- ==== Sys2Proof/Machine/Records.lean ====
section
/-!
DEFINITION. Anchor records (R379 to R388, R392 to R396): the merge with OUTER, record bodies and manifests, adoption, the rebase with
its resumption and rollback, reconciliation, digest checks and repair, late joiners.
-/

namespace Sys2Proof.Machine

/-! Segment bodies (R381). -/

/-- Whether every difference of a group fits `w` bits of two's complement. -/
def fitsWidth (w : Nat) (ds : List Nat) : Bool := ds.all fun d => decide (codeOf 16 (signedOf w (d % 2 ^ w)) = d)

/-- The smallest width that holds all of a group. -/
def groupWidth (ds : List Nat) : Nat :=
  if ds.all (· == 0) then 0 else (((List.range 16).map (· + 1)).find? fun w => fitsWidth w ds).getD 16

/-- A group of 32 differences. -/
def groupBytes (ds : List Nat) : List Byte :=
  let w := groupWidth ds
  BitVec.ofNat 8 w :: toBytes (4 * w) (packBits w ds)

/-- The differences new − old of 16-bit patterns, modulo 2¹⁶. -/
def diffs16 (new old : List Nat) : List Nat := List.zipWith (fun n o => (n + 65536 - o % 65536) % 65536) new old

/-- The body of differences, a multiple of 32 of them. -/
def packBody (ds : List Nat) : List Byte := (cutList 32 (ds.length / 32) ds).flatMap groupBytes

/-- The differences of `n` groups of a body. -/
def unpackBody : Nat → List Byte → List Nat
  | 0, _ => []
  | n + 1, bs =>
    let w := min 16 (bs.headD 0).toNat
    let vs := unpackBits w 32 (ofBytes ((bs.drop 1).take (4 * w)))
    vs.map (fun v => if w = 0 then 0 else codeOf 16 (signedOf w v)) ++ unpackBody n (bs.drop (1 + 4 * w))

/-- The patterns of an array's blocks [o, o + n), as they stand. -/
def Block.patterns (b : Block) (p base o n : Nat) : Block × List Nat :=
  let g0 := (b.desc p).g0
  (List.range n).foldl (fun (acc : Block × List Nat) i =>
    let r := acc.1.peek p (pieceAddr base 2048 (g0 + o + i)) 2048
    (r.1, acc.2 ++ unpackWords 2 r.2)) (b, [])

/-- The patterns of anchor and outer momentum of a segment. -/
def Block.segPatterns (b : Block) (p seg : Nat) : Block × List Nat :=
  let d := b.desc p
  let (b, a) := b.patterns p d.anchor (1024 * seg) (d.segLen seg)
  let (b, m) := b.patterns p d.outerMom (1024 * seg) (d.segLen seg)
  (b, a ++ m)

/-- The differences a segment body holds for one block: of its anchor and of its outer momentum. -/
def Block.blockDiffs (b : Block) (p : Nat) (bodies : Store (List Byte)) (o : Nat) : List Nat × List Nat :=
  let d := b.desc p
  let s := o / 1024
  let n := d.segLen s
  let ds := unpackBody (64 * n) (storeGet (fun _ => []) bodies s)
  let j := 1024 * (o % 1024)
  ((ds.drop j).take 1024, (ds.drop (1024 * n + j)).take 1024)

/-- Patterns before differences were added. -/
def undo16 (new ds : List Nat) : List Nat := new.zipIdx.map fun q => (q.1 + 65536 - ds.getD q.2 0 % 65536) % 65536

/-- Patterns with differences added. -/
def redo16 (old ds : List Nat) : List Nat := old.zipIdx.map fun q => (q.1 + ds.getD q.2 0) % 65536

/-! The merge (R379, R380). -/

/-- The SD4 blocks of a chunk in INBOUND that covers `n` update blocks. -/
def chunkSubs (n : Nat) (bs : List Byte) : List SdBlock :=
  let k := 32 * n
  ((bs.take k).zip (cutList 16 k (bs.drop k))).map fun q => sdRead 4 (q.1 :: q.2)

/-- The SD4 blocks of the store; a poisoned one counts as damaged. -/
def storeSubs (bs : List (Byte × Bool)) : List SdBlock :=
  (cutList 17 (bs.length / 17) bs).map fun q => if anyMark q then .damaged else sdRead 4 (raw q)

/-- The FP32 values of an SD block; a block with no value gives zeros. -/
def subWords (q : SdBlock) : List Word :=
  match q with
  | .values vs => vs.map encF32
  | _ => List.replicate 32 0

/-- Adds a weighted contribution to the sum of a segment. -/
def addContribution (sum : List Word) (c : Nat × Word × List SdBlock) : List Word :=
  List.zipWith (fun s v => f32Add s (f32Mul c.2.1 v)) sum (c.2.2.flatMap subWords)

/-- Contributions in ascending SITE_ID. -/
def bySite (cs : List (Nat × Word × List SdBlock)) : List (Nat × Word × List SdBlock) := sortBy Prod.fst cs

/-- The merged delta of a segment of `n` update blocks. -/
def mergedDelta (n : Nat) (cs : List (Nat × Word × List SdBlock)) : List Word :=
  ((bySite cs).foldl addContribution (List.replicate (1024 * n) 0)).map fun s => f32Div s (encF32 (intV cs.length))

/-- The OUTER of a segment's blocks, as a PRUNE's fields: SRC is the staging area, STEP the round, ASTAMP stands for STAMP. -/
def outerPrune (d : Desc) (r seg : Nat) : PruneC :=
  { op := 1, first := false, ssq := false, srcEn := true, normClip := false, shadowEn := false, wcEn := false, deepWc := false,
    srcFmt := 0, noUpdate := false, step := r, g0 := d.g0 + 1024 * seg, nblk := d.segLen seg, srcStride := 4096, rule := d.rule,
    master := d.anchor, mom1 := d.outerMom, mom2 := 0, accum := 0, stamp := d.astamp, wc := 0, wcScale := 0, src := d.inbound,
    shadow := 0, deferSem := 0, deferEn := false }

/-- The rule record OUTER_RULE names; none where it cannot be read. -/
def Block.outerRule (b : Block) (p : Nat) : Block × Option RuleRec :=
  match b.readAll ⟨p, none⟩ [((b.desc p).rule, 64)] with
  | (b, .ok bss) => (b, some (ruleOf (bss.getD 0 [])))
  | (b, _) => (b, none)

/-- Sends a segment body or a manifest in fragments. -/
def Block.sendParts (b : Block) (p site type_ r seg : Nat) (bs : List Byte) : Block :=
  let fs := fragments 8192 bs
  b.each fs.zipIdx fun b q => b.siori p site type_ r [seg, q.2, fs.length, bs.length] q.1
    ((if type_ = mManifest then 8 else 12) + q.1.length)

/-- A segment of the merge: D to the staging area at the start of INBOUND, OUTER, the segment's body. A pass that poison stops
leaves the segment to be done again (DEDUCED). -/
def Block.segmentOuter (b : Block) (p seg : Nat) : Block :=
  let d := b.desc p
  let x := b.shard p
  let r := b.round p
  let n := d.segLen seg
  let (b, own) := b.peekM p (d.storeAt r (1024 * seg)) (544 * n)
  let cs := (d.site, d.weight r (b.anchorRound p), storeSubs own) ::
    (x.inbound.filter fun c => c.index == seg).map fun c => (c.site, d.weight r c.base, chunkSubs n c.bytes)
  let b := b.poke p d.inbound (packWords 4 ((mergedDelta n cs).map (·.toNat)))
  match b.outerRule p with
  | (b, none) => b
  | (b, some rule) =>
    if !rule.good || rule.rule != 4 then b
    else
      let (b, old) := b.segPatterns p seg
      match b.passBlocks ⟨p, none⟩ (outerPrune d r seg) rule (rule.c 9) n (d.g0 + 1024 * seg) with
      | (b, .failed) => b
      | (b, .wait _) => b
      | (b, .done) =>
        let (b, new) := b.segPatterns p seg
        let body := packBody (diffs16 new old)
        let b := b.each (List.range n) fun b o => b.setLeaf p (1024 * seg + o)
        let x := b.shard p
        let b := b.setShard p { x with bodies := storePut (fun _ => []) x.bodies seg body, pos := seg + 1 }
        b.each (b.partnersOf p) fun b q => b.sendParts p q.site mBody r seg body

/-- SEGMENT_OUTER: the segments in turn. -/
def execSegmentOuter (p : Fin 64) (seg : Nat) (s : State) : Host.Outcome State Fault Refusal :=
  onBlock (fun b =>
    if b.exchState p = 5 && seg = (b.shard p).pos && seg < (b.desc p).nseg && !(b.shard p).stuck && b.ringsClear then
      b.coachPass p fun b => (b.segmentOuter p seg).showPruners
    else b) s

/-! Manifests (R382, R384, R543). -/

/-- The bytes of a manifest but for its signature. -/
def manifestBytes (m : Manifest) : List Byte :=
  toBytes 4 m.magic ++ toBytes 4 m.shard ++ toBytes 4 m.round ++ toBytes 4 (m.leader % 65536 + m.contrib.length % 512 * 65536) ++
    toBytes 4 m.nseg ++ toBytes 4 0 ++ toBytes 8 m.bodyBytes ++ padTo 32 m.prevRoot ++ padTo 32 m.newRoot ++ padTo 32 m.bodyHash ++
    m.contrib.flatMap (fun c => toBytes 4 c.site ++ toBytes 4 c.baseRound ++ toBytes 4 c.merged ++ toBytes 4 c.weight.toNat) ++
    m.bitmaps.flatMap fun l => toBytes (8 * ceilDiv m.nseg 64) (l.map (2 ^ ·)).sum

/-- Whether a manifest's fields are of its form: ascending sites, a bitmap each, segments within the shard. -/
def manifestFormed (m : Manifest) : Bool :=
  m.magic == 0x52454331 && 1 ≤ m.contrib.length && m.contrib.length ≤ 256 && m.bitmaps.length == m.contrib.length &&
    (m.contrib.zip (m.contrib.drop 1)).all (fun q => q.1.site < q.2.site) &&
    m.bitmaps.all fun l => l.all (· < m.nseg)

/-- The segments of a site that a record merged. -/
def mergedOf (m : Manifest) (site : Nat) : List Nat :=
  match m.contrib.findIdx? fun c => c.site == site with
  | some i => m.bitmaps.getD i []
  | none => []

/-- The bodies of a record in segment order. -/
def Block.bodyBytes (b : Block) (p : Nat) (bodies : Store (List Byte)) : List Byte :=
  (List.range (b.desc p).nseg).flatMap fun s => storeGet (fun _ => []) bodies s

/-- Whether every body of a record is there. -/
def Block.bodiesWhole (b : Block) (p : Nat) : Bool :=
  (List.range (b.desc p).nseg).all fun s => !(storeGet (fun _ => []) (b.shard p).bodies s).isEmpty

/-- The manifest the leader builds. -/
def Block.buildManifest (b : Block) (p : Nat) (root : List Byte) : Manifest :=
  let d := b.desc p
  let x := b.shard p
  let r := b.round p
  let own : Contributor × List Nat :=
    (⟨d.site, b.anchorRound p, d.nseg, d.weight r (b.anchorRound p)⟩, List.range d.nseg)
  let others := (b.partnersOf p).filterMap fun q =>
    match x.inbound.filter fun c => c.site == q.site with
    | [] => none
    | c :: cs => some ((⟨q.site, c.base, cs.length + 1, d.weight r c.base⟩ : Contributor), (c :: cs).map (·.index))
  let all := sortBy (fun q => q.1.site) (own :: others)
  let body := b.bodyBytes p x.bodies
  { magic := 0x52454331, shard := d.shard, round := r, leader := d.site, nseg := d.nseg, bodyBytes := body.length,
    prevRoot := x.prevRoot, newRoot := root, bodyHash := Config.shake256 body 32, contrib := all.map Prod.fst,
    bitmaps := all.map Prod.snd }

/-- A shard takes a record as its latest: anchor round, leader order, the retained body (R368, R385); the rebase waits for the next
step boundary. -/
def Block.recordAdopted (b : Block) (p : Nat) (m : Manifest) (sig : List Byte) : Block :=
  let x := b.shard p
  let newer := x.orderRound ≤ m.round
  let b := b.setShard p { x with
    record := some m, sig := sig, retained := x.bodies, bodies := [], bodyFrags := [], manFrags := [], incoming := none, pos := 0,
    again := false, prevRoot := m.prevRoot, prevRound := b.anchorRound p,
    order := if newer then m.contrib.map (·.site) else x.order, orderRound := if newer then m.round else x.orderRound }
  ((((b.setN (partPage p) 0x308 m.round).add64 (partPage p) 0x330 1).setExch p 8).showLeader p).lagBack p

/-- The seed of the DevID key (R542). -/
def devIdSeed (nv : NonVolatile) : List Byte := Config.shake256 (nv.fuses.uds ++ [0x44#8, 0x45#8, 0x56#8, 0x49#8, 0x44#8]) 32

/-- Whether the debug port is unlocked (R558). -/
def Block.debugOpen (b : Block) : Bool := bitOf (b.regN (pageOf .hawthorn 0) 0x040) 3

/-- Hawthorn signs the manifest of a shard in PUBLISH, and the Coach publishes it; its own OUTER is the leader's adoption. -/
def Block.publish (b : Block) (nv : NonVolatile) (p : Nat) : Block :=
  if b.debugOpen then b
  else
    let b := b.setLevels p
    let (b, root) := b.rootOf p
    let m := b.buildManifest p root
    let bs := manifestBytes m
    let sig := Config.falconSign (devIdSeed nv) bs
    let b := b.add64 (pageOf .hawthorn 0) 0x060 1
    let b := b.each (b.partnersOf p) fun b q => b.sendParts p q.site mManifest (b.round p) 0 (bs ++ sig)
    (b.setShard p { b.shard p with inbound := [], void := false }).recordAdopted p m sig

/-- MANIFEST_SIGN. While the debug port is unlocked the shard stays in PUBLISH (R544). -/
def execManifestSign (p : Fin 64) (s : State) : Host.Outcome State Fault Refusal :=
  onBoth (fun nv b =>
    (nv,
      if b.exchState p = 6 then b.publish nv p
      else if b.exchState p = 5 && (b.shard p).pos = (b.desc p).nseg then (b.setExch p 6).publish nv p
      else b)) s

/-! Joining (R384, R396). -/

/-- A shard begins to fetch the state behind a manifest: the digests of every group of leaves. -/
def Block.fetchTree (b : Block) (p site : Nat) (m : Manifest) (sig : List Byte) : Block :=
  let b := b.setShard p { b.shard p with
    incoming := some m, sig := sig, joining := some site, manFrags := [], wantBlocks := [],
    wantNodes := List.range (ceilDiv (b.desc p).nblk 256) }
  b.askDigests p site

/-- A shard that refused a record goes on as a late joiner that keeps its progress (R384, R396). -/
def Block.joinAgain (b : Block) (p site : Nat) (m : Option (Manifest × List Byte)) : Block :=
  let b := (b.setShard p { b.shard p with joining := some site, rejoin := true, pos := 0, bodies := [], bodyFrags := [],
                                          incoming := none }).setExch p 11
  match m with
  | some (m, sig) => b.fetchTree p site m sig
  | none => b.siori p site mHello (b.round p) [b.anchorRound p, 0, 0, 0] [] 0x30

def Block.refuseRecord (b : Block) (p r : Nat) : Block := b.coachEvent p 3 r

/-- Whether a whole manifest's signature holds, against the key whose hash stands for its leader. -/
def Block.manifestSigned (b : Block) (p : Nat) (m : Manifest) (key sig : List Byte) : Bool :=
  match b.partnerAt p m.leader with
  | none => false
  | some q => decide (Config.shake256 key 32 = q.keyHash) && Config.falconVerify key (manifestBytes m) sig

/-- A whole manifest whose signature has been checked. -/
def Block.takeManifest (b : Block) (p site : Nat) (m : Manifest) (sig : List Byte) : Block :=
  let x := b.shard p
  let st := b.exchState p
  let b := if m.round = x.orderRound && x.order.isEmpty then
      (b.setShard p { x with order := m.contrib.map (·.site) }).showLeader p
    else b
  if st = 11 && x.incoming.isNone && x.joining = some site then b.fetchTree p site m sig
  else if st = 3 && m.round = b.round p && site = b.leaderOf p (b.round p) then
    let (b, root) := b.rootOf p
    if root = m.prevRoot then
      (b.setShard p { b.shard p with incoming := some m, sig := sig, manFrags := [], pos := 0 }).setExch p 7
    else (b.refuseRecord p m.round).joinAgain p site (some (m, sig))
  else b

/-- MANIFEST. The command carries what the assembled fragments spell: the fields, the bytes under the signature, the leader's public
key and the signature. -/
def execManifest (p : Fin 64) (h : SHdr) (m : FragMsg) (whole : Manifest) (signed key signature : List Byte) (s : State) :
    Host.Outcome State Fault Refusal :=
  onBlock (fun b =>
    let ok := m.nfrag != 0 && m.frag < m.nfrag && m.nfrag ≤ 255 && m.bytes.length ≤ 8192
    b.received p h mManifest ok fun b =>
      let x := b.shard p
      let (sets, cur) := addFragment x.manFrags ⟨h.srcSite, 0, m.nfrag, m.total, 0, 0, false, false, []⟩ m.frag m.bytes
      let heard := h.srcSite == b.leaderOf p (b.round p) && b.exchState p == 3
      let b := b.setShard p { x with manFrags := sets, heardAt := if heard then b.now else x.heardAt }
      match cur.whole with
      | none => b
      | some bs =>
        let b := b.setShard p { b.shard p with manFrags := (b.shard p).manFrags.filter fun q => q.site != h.srcSite }
        if bs.length = m.total && bs = signed ++ signature && signed = manifestBytes whole && manifestFormed whole &&
            whole.shard = (b.desc p).shard && whole.nseg = (b.desc p).nseg && b.manifestSigned p whole key signature then
          b.takeManifest p h.srcSite whole signature
        else b.refuseRecord p h.round) s

/-- BODY: from the round's leader, stored in INBOUND. -/
def execBody (p : Fin 64) (h : SHdr) (m : FragMsg) (s : State) : Host.Outcome State Fault Refusal :=
  onBlock (fun b =>
    let ok := m.nfrag != 0 && m.frag < m.nfrag && m.nfrag ≤ 255 && m.bytes.length ≤ 8192
    b.received p h mBody ok fun b =>
      let x := b.shard p
      let st := b.exchState p
      if (st != 3 && st != 7) || h.round != b.round p || h.srcSite != b.leaderOf p (b.round p) ||
          (b.desc p).nseg ≤ m.segment || !(storeGet (fun _ => []) x.bodies m.segment).isEmpty then b
      else
        let (sets, cur) := addFragment x.bodyFrags ⟨h.srcSite, m.segment, m.nfrag, m.total, 0, 0, false, false, []⟩ m.frag m.bytes
        let b := b.setShard p { x with bodyFrags := sets, heardAt := b.now }
        match cur.whole with
        | none => b
        | some bs =>
          let left := sets.filter fun q => q.index != m.segment
          if bs.length != m.total then b.setShard p { b.shard p with bodyFrags := left }
          else if !b.inboundFits p bs.length then
            (b.refuseRecord p (b.round p)).joinAgain p h.srcSite ((x.incoming).map fun m => (m, x.sig))
          else b.setShard p { b.shard p with bodyFrags := left, bodies := storePut (fun _ => []) x.bodies m.segment bs }) s

/-! Writes through the ledger under RULE 0xE and 0xF (R385, R387). -/

/-- Writes anchor and outer momentum of the block at offset `o` through the ledger, and its leaf. -/
def Block.ledgerAnchor (b : Block) (p o : Nat) (new : List (List Byte)) : Block :=
  let d := b.desc p
  let g := d.g0 + o
  let addrs := [b.devAddr p (pieceAddr d.anchor 2048 g), b.devAddr p (pieceAddr d.outerMom 2048 g), 0, 0]
  let (b, olds) := (addrs.take 2).foldl (fun (acc : Block × List (List Byte)) a => (acc.1.mcRead a 2048, acc.2 ++ [acc.1.bytes a 2048])) (b, [])
  let e : Entry := { part := p, rule := 0xE, step := b.committed p, g := g, addrs := addrs, olds := olds, stamp := 0 }
  let k := g % 32
  ((((b.journal k e).putPieces p (addrs.take 2) new).retire p k).countBlock k).setLeaf p o

/-- Writes the masters of block g through the ledger; their conversions are counted (R74). -/
def Block.ledgerMaster (b : Block) (p g : Nat) (old : List Byte) (ws : List Word) : Block :=
  let b := b.countConv p 0 (masterConvs ws)
  let a := b.devAddr p (pieceAddr (b.desc p).master 4096 g)
  let e : Entry := { part := p, rule := 0xF, step := b.committed p, g := g, addrs := [a, 0, 0, 0], olds := [old], stamp := 0 }
  let k := g % 32
  (((b.journal k e).putPieces p [a] [packWords 4 (ws.map (·.toNat))]).retire p k).countBlock k

/-! Progress (R387, R606). -/

/-- Whether the Coach is busy with another leaf. -/
def Block.coachBusy (b : Block) (p : Nat) : Bool := b.fld coachPage 0x040 6 1 == 1 && b.fld coachPage 0x040 0 6 != p

/-- Starts a reported operation of a leaf of `n` blocks. -/
def Block.coachStart (b : Block) (p n : Nat) : Block := (b.setProgress coachPage 0 n).setN coachPage 0x040 (p + 64)

/-- Ends it. -/
def Block.coachEnd (b : Block) : Block := b.setFld coachPage 0x040 6 1 0

/-! Adoption (R385). -/

/-- Applies the differences of one block; a poisoned block is left for repair. -/
def Block.adoptBlock (b : Block) (p : Nat) (bodies : Store (List Byte)) (o : Nat) : Block :=
  let d := b.desc p
  let g := d.g0 + o
  let (b, a) := b.peekM p (pieceAddr d.anchor 2048 g) 2048
  let (b, m) := b.peekM p (pieceAddr d.outerMom 2048 g) 2048
  if anyMark (a ++ m) then b.poisonIn p g
  else
    let ds := b.blockDiffs p bodies o
    b.ledgerAnchor p o
      [packWords 2 (redo16 (unpackWords 2 (raw a)) ds.1), packWords 2 (redo16 (unpackWords 2 (raw m)) ds.2)]

/-- Applies a whole record and recomputes the tree. -/
def Block.adopt (b : Block) (p : Nat) (bodies : Store (List Byte)) : Block :=
  let n := (b.desc p).nblk
  let b := (b.coachStart p n).each (List.range n) fun b o => b.adoptBlock p bodies o
  ((b.setLevels p).setProgress coachPage n n).coachEnd

/-- ADOPTION_DONE: once the last body byte has come. A root that is not NEW_ROOT is bisected against the leader's (R394); a bad
BODY_HASH leaves the shard waiting for the record again (DEDUCED). -/
def execAdoptionDone (p : Fin 64) (s : State) : Host.Outcome State Fault Refusal :=
  onBlock (fun b =>
    let x := b.shard p
    match x.incoming with
    | none => b
    | some m =>
      if b.exchState p != 7 || !b.bodiesWhole p || b.coachBusy p || !b.ringsClear then b
      else b.coachPass p fun b =>
        let fresh := x.pos < (b.desc p).nseg
        let bytes := b.bodyBytes p x.bodies
        if fresh && (Config.shake256 bytes 32 != m.bodyHash || bytes.length != m.bodyBytes) then
          (((b.hashed bytes.length).setShard p { x with incoming := none, bodies := [], pos := 0 }).setExch p 3).refuseRecord p m.round
        else
          let b := if fresh then
              let b := (b.hashed bytes.length).adopt p x.bodies
              b.setShard p { b.shard p with pos := (b.desc p).nseg }
            else b
          let (b, root) := b.rootOf p
          if root = m.newRoot then (b.setShard p { b.shard p with void := false }).recordAdopted p m x.sig
          else b.bisect p (b.leaderOf p (b.round p))) s

/-! The rebase (R386). -/

/-- What the rebase needs of one 32-parameter block: its SD4 delta, its residual and its previous residual as FP32; none where one of
them has no value. -/
def rebaseTerms (st q e : SdBlock) : Option (List Word × List Word × List Word) :=
  match st, q, e with
  | .values ds, .values qs, .values es => some (ds.map encF32, qs.map encF32, es.map encF32)
  | _, _, _ => none

/-- The SD8 blocks of a residual. -/
def residSubs (bs : List (Byte × Bool)) : List SdBlock :=
  (cutList 33 (bs.length / 33) bs).map fun q => if anyMark q then .damaged else sdRead 8 (raw q)

/-- What was lost of a local delta: (Δ̂ + q) − e. -/
def deltaTaken (t : List Word × List Word × List Word) : List Word :=
  List.zipWith f32Sub (List.zipWith f32Add t.1 t.2.1) t.2.2

/-- One 32-parameter block of a rebase: the masters moved by the anchor's step `t1`, the residual's bytes. -/
def Block.rebaseSub (b : Block) (p g : Nat) (merged : Bool) (w t1 : List Word) (st q e : SdBlock) (qBytes eBytes : List Byte) :
    Block × List Word × List Byte :=
  let moved := List.zipWith f32Add w t1
  let b := match st with
    | .damaged => b.coachEvent p 11 g
    | _ => b
  match rebaseTerms st q e with
  | none => (b, moved, eBytes)
  | some t =>
    let new := List.zipWith f32Sub moved (deltaTaken t)
    if merged then (b, new, qBytes)
    else
      let conv := (b.desc p).conv
      let (b, draw) := b.takeDraws p 288 (drawsOf conv 32)
      let (b, rs) := b.residSub p g draw ((List.zipWith f32Add t.2.1 t.1).map decF32)
      (b, new, rs)

/-- The 32 blocks of an update block in turn. -/
def Block.rebaseSubs (b : Block) (p g : Nat) (merged : Bool) (w t1 : List Word) (st q e : List SdBlock) (qBytes eBytes : List Byte) :
    Nat → Nat → Block × List Word × List Byte
  | 0, _ => (b, [], [])
  | n + 1, i =>
    let (b, ws, rs) := b.rebaseSub p g merged ((w.drop (32 * i)).take 32) ((t1.drop (32 * i)).take 32) (st.getD i .damaged)
      (q.getD i .damaged) (e.getD i .damaged) ((qBytes.drop (33 * i)).take 33) ((eBytes.drop (33 * i)).take 33)
    let (b, ws', rs') := Block.rebaseSubs b p g merged w t1 st q e qBytes eBytes n (i + 1)
    (b, ws ++ ws', rs ++ rs')

/-- The working copy and the shadow difference of a rebased block, from its new masters. -/
def Block.rebaseCopies (b : Block) (p o : Nat) (ws anchor : List Word) : Block :=
  let d := b.desc p
  let g := d.g0 + o
  match b.outerRule p with
  | (b, none) => b
  | (b, some r) =>
    let b := (b.writeCopy ⟨p, none⟩ (g % 32) ⟨r.wcFmt, r.conv, d.wc, d.wcScale⟩ o ws).1
    if b.fld (partPage p) 0x600 0 1 = 1 then
      (b.writeShadow p (g % 32) r.conv (b.reg64 (partPage p) 0x610 + (g - b.reg64 (partPage p) 0x628) * 1056) ws anchor).1
    else b

/-- Whether the segment's chunk of the round was merged: in the round's record, for this site. -/
def Block.chunkMerged (b : Block) (p seg : Nat) : Bool :=
  let x := b.shard p
  !x.void && match x.record with
    | some m => m.round == b.round p && (mergedOf m (b.desc p).site).contains seg
    | none => false

/-- The rebase of the block at offset `o`. A block whose master or anchor holds poison is left as it is (DEDUCED from R349). -/
def Block.rebaseOne (b : Block) (p o : Nat) : Block :=
  let d := b.desc p
  let x := b.shard p
  let g := d.g0 + o
  let merged := b.chunkMerged p (o / 1024)
  let b := if o % 1024 = 0 && !merged then b.add64 (partPage p) 0x328 1 else b
  let (b, w) := b.peekM p (pieceAddr d.master 4096 g) 4096
  let (b, a) := b.peekM p (pieceAddr d.anchor 2048 g) 2048
  if anyMark (w ++ a) then b.poisonIn p g
  else
    let (b, st) := b.peekM p (d.storeAt (b.round p) o) 544
    let (b, q) := b.peekM p (d.residual + o * 1056) 1056
    let (b, e) := b.peekM p (d.prev + o * 1056) 1056
    let new := unpackWords 2 (raw a)
    let old := if x.void then new else undo16 new (b.blockDiffs p x.retained o).1
    let t1 := List.zipWith f32Sub (new.map bfWord) (old.map bfWord)
    let ws := (unpackWords 4 (raw w)).map (BitVec.ofNat 32)
    let (b, ws', rs) := b.rebaseSubs p g merged ws t1 (storeSubs st) (residSubs q) (residSubs e) (raw q) (raw e) 32 0
    let b := b.ledgerMaster p g (raw w) ws'
    (b.poke p (d.residual + o * 1056) rs).rebaseCopies p o ws' (new.map bfWord)

/-- LAYOUT_SEM when a layer returns to STAGE (R331). -/
def Block.layerBack (b : Block) (p o : Nat) : Block :=
  let v := b.regN (partPage p) 0x264
  if (layerAt p (b.desc p).nblk o).2 = o + 1 && bitOf v 14 then b.addSem (b.semIndex p (fieldOf v 0 14)) 1 else b

/-- REBASE_BLOCK: the next block. DESIGN CHOICE (log 187): layers follow one another in the shard in the order of the forward pass, so that
the order of R42 is that of ascending block index. -/
def execRebaseBlock (p : Fin 64) (s : State) : Host.Outcome State Fault Refusal :=
  onBlock (fun b =>
    let o := (b.shard p).pos
    let n := (b.desc p).nblk
    if b.exchState p != 9 || n ≤ o || !b.room (((b.desc p).g0 + o) % 32) then b
    else
      b.coachPass p fun b =>
        let b := b.rebaseOne p o
        let b := b.setShard p { b.shard p with pos := o + 1 }
        ((b.layerBack p o).setProgress coachPage (o + 1) n).showLayout p) s

/-! Recovery after a reset (R387, R388). -/

/-- A reset stops a join or a rebuild: nothing of it goes on, and it will start again from its beginning (R33, R396, R465). -/
def Block.dropJoin (b : Block) (p : Nat) : Block :=
  let x := b.shard p
  let d := b.desc p
  let w := b.rebuildOf p
  let all := match w.channel with
    | none => List.range d.nblk
    | some k => (List.range d.nblk).filter fun o => (d.g0 + o) % 32 == k
  let b := if w.active then b.setRebuild p { w with left := all, tags := [] } else b
  if b.exchState p = 11 then
    b.setShard p { x with incoming := none, wantNodes := [], wantBlocks := [], manFrags := [], bodyFrags := [], bodies := [], pos := 0 }
  else b

/-- The first message of a join or a rebuild to the partner it joins from (R396). HELLO tells the partner that the manifest is wanted
(DEDUCED: R398 has no message that asks for one). -/
def Block.askRecord (b : Block) (p : Nat) : Block :=
  match (b.shard p).joining with
  | some site => b.siori p site mHello (b.round p) [0, 0, 0, 0] [] 0x30
  | none => b

/-- REBASE_RESUME. -/
def execRebaseResume (rq : Req) (p : Fin 64) (s : State) : Host.Outcome State Fault Refusal :=
  onBlock (fun b =>
    if rq.by_ != .pf then b.reply rq 0x40 0x02 [0]
    else if b.exchState p != 13 || b.resetting p then b.reply rq 0x40 0x04 [0]
    else (b.setExch p 9).reply rq 0x40 0 [0]) s

/-- A 32-parameter block taken back: masters by the inverse of R386, the residual as it stood. -/
def Block.rollSub (b : Block) (p g : Nat) (merged : Bool) (w t1 : List Word) (st q e : SdBlock) (qBytes : List Byte) :
    Block × List Word × List Byte :=
  match rebaseTerms st q e with
  | none => (b, List.zipWith f32Sub w t1, qBytes)
  | some t =>
    let conv := (b.desc p).conv
    let (b, qs, qb) : Block × List Word × List Byte :=
      if merged then (b, t.2.1, qBytes)
      else
        let (b, draw) := b.takeDraws p 288 (drawsOf conv 32)
        let qs := List.zipWith f32Sub t.2.1 t.1
        let (b, rs) := b.residSub p g draw (qs.map decF32)
        (b, qs, rs)
    (b, List.zipWith f32Sub (List.zipWith f32Add w (deltaTaken (t.1, qs, t.2.2))) t1, qb)

def Block.rollSubs (b : Block) (p g : Nat) (merged : Bool) (w t1 : List Word) (st q e : List SdBlock) (qBytes : List Byte) :
    Nat → Nat → Block × List Word × List Byte
  | 0, _ => (b, [], [])
  | n + 1, i =>
    let (b, ws, rs) := b.rollSub p g merged ((w.drop (32 * i)).take 32) ((t1.drop (32 * i)).take 32) (st.getD i .damaged)
      (q.getD i .damaged) (e.getD i .damaged) ((qBytes.drop (33 * i)).take 33)
    let (b, ws', rs') := Block.rollSubs b p g merged w t1 st q e qBytes n (i + 1)
    (b, ws ++ ws', rs ++ rs')

/-- Takes the rebase of the block at offset `o` back. -/
def Block.rollOne (b : Block) (p o : Nat) : Block :=
  let d := b.desc p
  let x := b.shard p
  let g := d.g0 + o
  let merged := b.chunkMerged p (o / 1024)
  let (b, w) := b.peekM p (pieceAddr d.master 4096 g) 4096
  let (b, a) := b.peekM p (pieceAddr d.anchor 2048 g) 2048
  if anyMark (w ++ a) then b.poisonIn p g
  else
    let (b, st) := b.peekM p (d.storeAt (b.round p) o) 544
    let (b, q) := b.peekM p (d.residual + o * 1056) 1056
    let (b, e) := b.peekM p (d.prev + o * 1056) 1056
    let new := unpackWords 2 (raw a)
    let old := if x.void then new else undo16 new (b.blockDiffs p x.retained o).1
    let t1 := List.zipWith f32Sub (new.map bfWord) (old.map bfWord)
    let ws := (unpackWords 4 (raw w)).map (BitVec.ofNat 32)
    let (b, ws', rs) := b.rollSubs p g merged ws t1 (storeSubs st) (residSubs q) (residSubs e) (raw q) 32 0
    (b.ledgerMaster p g (raw w) ws').poke p (d.residual + o * 1056) rs

/-- Restores anchor and outer momentum of the block at offset `o` from the retained body. -/
def Block.unadoptBlock (b : Block) (p o : Nat) : Block :=
  let d := b.desc p
  let g := d.g0 + o
  let ds := b.blockDiffs p (b.shard p).retained o
  let (b, a) := b.peek p (pieceAddr d.anchor 2048 g) 2048
  let (b, m) := b.peek p (pieceAddr d.outerMom 2048 g) 2048
  b.ledgerAnchor p o [packWords 2 (undo16 (unpackWords 2 a) ds.1), packWords 2 (undo16 (unpackWords 2 m) ds.2)]

/-- REBASE_ROLLBACK: adoption and rebase run again from the start at the next step boundary. -/
def execRebaseRollback (rq : Req) (p : Fin 64) (s : State) : Host.Outcome State Fault Refusal :=
  onBlock (fun b =>
    if rq.by_ != .pf then b.reply rq 0x41 0x02 [0]
    else if b.exchState p != 13 || b.resetting p || !b.ringsClear then b.reply rq 0x41 0x04 [0]
    else
      let x := b.shard p
      let b := b.each (List.range x.pos) fun b o => b.rollOne p o
      let b := if x.void then b
        else
          let b := (b.each (List.range (b.desc p).nblk) fun b o => b.unadoptBlock p o).setLevels p
          b.setN (partPage p) 0x308 x.prevRound
      let b := b.setShard p { b.shard p with pos := 0, again := !x.void }
      ((((b.setExch p 8).coachEnd).showLayout p).showLeader p).reply rq 0x41 0 [0]) s

/-! Reconciliation (R393). -/

/-- The levels of a tree over leaves, up to one of 256 nodes or fewer. -/
def topLevel : Nat → List (List Byte) → List (List Byte)
  | 0, l => l
  | f + 1, l => if l.length ≤ 256 then l else topLevel f ((cutList 256 (l.length / 256 + 1) l).map fun q => Config.shake256 q.flatten 8)

/-- The root of a state of 4 KiB a block. -/
def rootOfState (bs : List Byte) : List Byte :=
  Config.shake256 (topLevel 5 ((cutList 4096 (bs.length / 4096) bs).map leafOf)).flatten 32

/-- Whether manifests form a chain of records, each of whose PREV_ROOT is the NEW_ROOT of the one before it (R392). -/
def isLineage (ms : List Manifest) : Bool := (ms.zip (ms.drop 1)).all fun q => q.1.newRoot == q.2.prevRoot && q.1.round < q.2.round

/-- RECONCILE: the winning lineage's manifests have been fetched, those of the diverged rounds before its latest among them; `aWin` is the
anchor and outer momentum it leads to, 4 KiB a block. The masters follow at the next step boundary. -/
def execReconcile (p : Fin 64) (aWin : List Byte) (records : Lineage) (s : State) :
    Host.Outcome State Fault Refusal :=
  onBlock (fun b =>
    let x := b.shard p
    let whole := records.whole
    match x.rival with
    | none => b
    | some w =>
      if b.exchState p = 1 && manifestFormed whole && whole.round = w.round && whole.newRoot = w.root && whole.nseg = (b.desc p).nseg &&
          aWin.length = 4096 * (b.desc p).nblk && rootOfState aWin = w.root && records.earlier.all manifestFormed && isLineage (records.earlier ++ [whole]) then
        let parts := (cutList 4096 (b.desc p).nblk aWin).zipIdx
        let store := parts.foldl (fun (m : Store (List Byte)) q => storePut (fun _ => []) m q.2 q.1) []
        (b.setShard p { x with bodies := store, incoming := some whole, earlier := records.earlier }).setExch p 10
      else b) s

/-- Returns the delta of one 32-parameter block to its residual; none where the store or the residual has no value. -/
def Block.returnSub (b : Block) (p g : Nat) (st q : SdBlock) : Option (Block × List Byte) :=
  match st, q with
  | .values ds, .values qs =>
    let conv := (b.desc p).conv
    let (b, draw) := b.takeDraws p 288 (drawsOf conv 32)
    some (b.residSub p g draw ((List.zipWith f32Add (qs.map encF32) (ds.map encF32)).map decF32))
  | _, _ => none

def Block.returnSubs (b : Block) (p g : Nat) (st q : List SdBlock) (qBytes : List Byte) : Nat → Nat → Block × List Byte
  | 0, _ => (b, [])
  | n + 1, i =>
    let old := (qBytes.drop (33 * i)).take 33
    let (b, r) : Block × List Byte :=
      match st.getD i .damaged with
      | .damaged => ((b.coachEvent p 11 g).coachEvent p 7 g, old)
      | s => (b.returnSub p g s (q.getD i .damaged)).getD (b, old)
    let (b, rs) := Block.returnSubs b p g st q qBytes n (i + 1)
    (b, r ++ rs)

/-- Returns the deltas of round `r` of the segments `merged` leaves out to the residual (R393, step 4). -/
def Block.returnDeltas (b : Block) (p r : Nat) (merged : List Nat) : Block :=
  let d := b.desc p
  if b.round p < r + d.slots && r ≤ b.round p then
    b.each ((List.range d.nblk).filter fun o => !merged.contains (o / 1024)) fun b o =>
      let b := if o % 1024 = 0 then b.add64 (partPage p) 0x328 1 else b
      let (b, st) := b.peekM p (d.storeAt r o) 544
      let (b, q) := b.peekM p (d.residual + o * 1056) 1056
      let (b, rs) := b.returnSubs p (d.g0 + o) (storeSubs st) (residSubs q) (raw q) 32 0
      b.poke p (d.residual + o * 1056) rs
  else b.coachEvent p 7 r

/-- Moves a block's master by the step from its own anchor to a new one, and takes the new anchor and outer momentum. -/
def Block.moveBlock (b : Block) (p o : Nat) (new : List Byte) : Block :=
  let d := b.desc p
  let g := d.g0 + o
  let (b, w) := b.peekM p (pieceAddr d.master 4096 g) 4096
  let (b, a) := b.peekM p (pieceAddr d.anchor 2048 g) 2048
  if anyMark (w ++ a) then b.poisonIn p g
  else
    let t1 := List.zipWith (fun n o => f32Sub (bfWord n) (bfWord o)) (unpackWords 2 (new.take 2048)) (unpackWords 2 (raw a))
    let ws := List.zipWith f32Add ((unpackWords 4 (raw w)).map (BitVec.ofNat 32)) t1
    let b := (b.ledgerMaster p g (raw w) ws).ledgerAnchor p o [new.take 2048, new.drop 2048]
    b.rebaseCopies p o ws ((unpackWords 2 (new.take 2048)).map bfWord)

/-- The reconciliation at a step boundary. -/
def Block.reconcileNow (b : Block) (p : Nat) : Block :=
  let x := b.shard p
  match x.incoming with
  | none => b
  | some m =>
    if !b.ringsClear then b else b.coachPass p fun b =>
    let d := b.desc p
    let common := match x.record with
      | some own => own.prevRoot == m.prevRoot
      | none => false
    let own := (List.range d.nseg).map fun s => (b.segPatterns p s).2
    let olds := own.zipIdx.map fun q => undo16 q.1 (unpackBody (64 * d.segLen q.2) (storeGet (fun _ => []) x.retained q.2))
    let b := (b.each (List.range d.nblk) fun b o => b.moveBlock p o (storeGet (fun _ => []) x.bodies o)).setLevels p
    let b := b.each (x.earlier ++ [m]) fun b q => b.returnDeltas p q.round (mergedOf q d.site)
    let b := if common || !x.earlier.isEmpty then b else b.coachEvent p 7 m.round
    let news := (List.range d.nseg).map fun s => (b.segPatterns p s).2
    let body (s : Nat) : List Byte := packBody (diffs16 (news.getD s []) (olds.getD s []))
    let kept := if common then (List.range d.nseg).foldl (fun (t : Store (List Byte)) s => storePut (fun _ => []) t s (body s)) [] else []
    let y := b.shard p
    let b := b.setShard p { y with record := some m, retained := kept, bodies := [], incoming := none, earlier := [], rival := none,
                                   order := m.contrib.map (·.site), orderRound := m.round, prevRoot := m.prevRoot }
    ((((b.setN (partPage p) 0x308 m.round).add64 (partPage p) 0x338 1).setExch p 1).showLeader p).lagBack p

/-! Digests and repair (R394 to R396, R398). -/

/-- Eight-byte digests as numbers, and back. -/
def digestNum (bs : List Byte) : Nat := ofBytes bs
def digestBytes (v : Nat) : List Byte := toBytes 8 v

/-- The digests under node `node` of the level above. -/
def Block.digestsOf (b : Block) (p level node : Nat) : Block × List Byte :=
  let d := b.desc p
  let n := min 256 (d.levels.getD level 0 - 256 * node)
  b.peek p (d.digestAt level (256 * node)) (8 * n)

/-- DIGEST_REQ: answered with the digests of the group. -/
def execDigestReq (p : Fin 64) (h : SHdr) (level node : Nat) (s : State) : Host.Outcome State Fault Refusal :=
  onBlock (fun b => b.received p h mDigestReq (level < 256) fun b =>
    if (b.desc p).levels.length ≤ level || (b.desc p).levels.getD level 0 ≤ 256 * node then b
    else
      let (b, bs) := b.digestsOf p level node
      b.siori p h.srcSite mDigestResp h.round [level, node, bs.length / 8] bs (12 + bs.length)) s

/-- Asks for a block and remembers it. -/
def Block.askBlock (b : Block) (p site o : Nat) : Block :=
  let x := b.shard p
  let b := if x.wantBlocks.contains o then b else b.setShard p { x with wantBlocks := x.wantBlocks ++ [o] }
  b.siori p site mBlockReq (b.round p) [(b.desc p).g0 + o, 0] [] 12

/-- The counterpart after `site` in the partner table. -/
def Block.nextPartner (b : Block) (p site : Nat) : Nat :=
  let qs := b.partnersOf p
  match qs.findIdx? fun q => q.site == site with
  | none => site
  | some i => match qs[(i + 1) % qs.length]? with
    | some q => q.site
    | none => site

/-- A joiner that has every leaf checks the tree up to NEW_ROOT and asks for the blocks; a tree that fails is taken again from another
partner. -/
def Block.treeFetched (b : Block) (p site : Nat) (m : Manifest) : Block :=
  let b := b.setLevels p
  let (b, root) := b.rootOf p
  if root = m.newRoot then
    let b := b.setShard p { b.shard p with pos := 1 }
    if (b.rebuildOf p).active then
      b.each (List.range (b.desc p).nblk) fun b o => b.askBlock p (((b.partnersOf p)[o % (b.partnersOf p).length]?).map (·.site) |>.getD site) o
    else b.each (List.range (b.desc p).nblk) fun b o => b.askBlock p site o
  else b.fetchTree p (b.nextPartner p site) m (b.shard p).sig

/-- DIGEST_RESP: a joiner fills its tree; a replica that differs descends. -/
def execDigestResp (p : Fin 64) (h : SHdr) (level node : Nat) (digests : List Nat) (s : State) : Host.Outcome State Fault Refusal :=
  onBlock (fun b => b.received p h mDigestResp (level < 256 && digests.length ≤ 256) fun b =>
    let x := b.shard p
    let d := b.desc p
    if d.levels.length ≤ level || digests.length != min 256 (d.levels.getD level 0 - 256 * node) then b
    else if b.exchState p = 11 then
      match x.incoming with
      | none => b
      | some m =>
        if level != 0 || x.joining != some h.srcSite || !x.wantNodes.contains node then b
        else
          let left := x.wantNodes.filter (· != node)
          let b := (b.setShard p { x with wantNodes := left }).poke p (d.digestAt 0 (256 * node)) (digests.flatMap digestBytes)
          if left.isEmpty then b.treeFetched p h.srcSite m else b
    else if h.srcSite != b.leaderOf p (b.round p) then b
    else
      let (b, bs) := b.digestsOf p level node
      let own := (cutList 8 (bs.length / 8) bs).map digestNum
      let differ := (List.range digests.length).filter fun i => own.getD i 0 != digests.getD i 0
      b.each differ fun b i =>
        if level = 0 then b.askBlock p h.srcSite (256 * node + i)
        else b.siori p h.srcSite mDigestReq (b.round p) [level - 1, 256 * node + i] [] 8) s

/-- Answers a BLOCK_REQ. -/
def Block.sendBlock (b : Block) (p site r o : Nat) (leafOnly : Bool) : Block :=
  let d := b.desc p
  let (b, leaf) := b.peek p (d.digestAt 0 o) 8
  let (b, bs) := if leafOnly then (b, []) else b.leafBytes p o
  b.siori p site mBlockData r [d.g0 + o, digestNum leaf] bs (16 + bs.length)

/-- The leaf that more than half of the replicas hold. -/
def majorityLeaf (n : Nat) (leaves : List (List Byte)) : Option (List Byte) :=
  leaves.find? fun l => n < 2 * (leaves.filter (· == l)).length

/-- Repairs the leader's own block from what its counterparts answered (R395); false where no value has a majority. -/
def Block.repairOwn (b : Block) (p o : Nat) (replicas : List (Nat × Nat × List Byte)) : Block × Bool :=
  let d := b.desc p
  let ps := b.partnersOf p
  let answers := replicas.filter fun q => ps.any fun t => t.site == q.1
  let (b, stored) := b.peek p (d.digestAt 0 o) 8
  let (b, own) := b.leafBytes p o
  match majorityLeaf (ps.length + 1) (stored :: answers.map fun q => digestBytes q.2.1) with
  | none => (b, false)
  | some v =>
    if leafOf own = v then (b.setLeaf p o, true)
    else match answers.find? fun q => digestBytes q.2.1 == v && q.2.2.length == 4096 && leafOf q.2.2 == v with
      | none => (b, false)
      | some q => (((b.ledgerAnchor p o [q.2.2.take 2048, q.2.2.drop 2048]).setLevels p).add64 (partPage p) 0x340 1, true)

/-- BLOCK_REQ. `replicas` are the answers of the counterparts, should the leader have to ask them: site, leaf and block. -/
def execBlockReq (p : Fin 64) (h : SHdr) (g : Nat) (leafOnly : Bool) (replicas : List (Nat × Nat × List Byte)) (s : State) :
    Host.Outcome State Fault Refusal :=
  onBlock (fun b => b.received p h mBlockReq true fun b =>
    let d := b.desc p
    if g < d.g0 || d.g0 + d.nblk ≤ g then b
    else
      let o := g - d.g0
      let (b, bs) := b.leafBytes p o
      let (b, stored) := b.peek p (d.digestAt 0 o) 8
      let b := b.hashed bs.length
      if !b.leads p (b.roundNow p) || leafOf bs = stored || !b.room (g % 32) then b.sendBlock p h.srcSite h.round o leafOnly
      else
        let b := b.sioriAll p mBlockReq (b.round p) [g, 1] [] 12
        match b.repairOwn p o replicas with
        | (b, true) => b.sendBlock p h.srcSite h.round o leafOnly
        | (b, false) => (b.setShard p { b.shard p with stuck := true }).coachEvent p 9 g) s

/-- The bases of the moments. -/
def Block.momBases (b : Block) (p : Nat) : Nat × Nat := ((b.run p).moms).getD (Config.momentBases p)

/-- A joiner's block (R396): anchor and outer momentum, and, for a site that is new, its master, moments, residual and store; without
the ledger. -/
def Block.joinBlock (b : Block) (p o : Nat) (bs : List Byte) : Block :=
  let d := b.desc p
  let g := d.g0 + o
  let x := b.shard p
  let (b, w) := b.peek p (pieceAddr d.master 4096 g) 4096
  let (b, a) := b.peek p (pieceAddr d.anchor 2048 g) 2048
  let new := (unpackWords 2 (bs.take 2048)).map bfWord
  let ws := if x.rejoin then
      List.zipWith f32Add ((unpackWords 4 w).map (BitVec.ofNat 32)) (List.zipWith f32Sub new ((unpackWords 2 a).map bfWord))
    else new
  let b := (b.poke p (pieceAddr d.anchor 2048 g) (bs.take 2048)).poke p (pieceAddr d.outerMom 2048 g) (bs.drop 2048)
  let b := (b.countConv p 0 (masterConvs ws)).poke p (pieceAddr d.master 4096 g) (packWords 4 (ws.map (·.toNat)))
  let zeros (b : Block) (va n : Nat) : Block := b.poke p va (List.replicate n 0)
  let b := if x.rejoin then b
    else
      let m := b.momBases p
      let b := (zeros b (pieceAddr m.1 2048 g) 2048)
      let b := if m.2 = 0 then b else zeros b (pieceAddr m.2 2048 g) 2048
      let b := zeros (zeros b (d.residual + o * 1056) 1056) (d.prev + o * 1056) 1056
      b.each (List.range d.slots) fun b r => zeros b (d.rds + r * d.nblk * 544 + o * 544) 544
  b.rebaseCopies p o ws new

/-- A join that has every block: IDLE at round r + 1. -/
def Block.endJoin (b : Block) (p : Nat) (m : Manifest) : Block :=
  let x := b.shard p
  let r := b.round p
  let b := if x.rejoin then b.returnDeltas p r (if m.round = r then mergedOf m (b.desc p).site else []) else b
  let x := b.shard p
  let b := b.setShard p { x with
    record := some m, retained := [], incoming := none, joining := none, rejoin := false, pos := 0, marked := false, steps := 0,
    order := m.contrib.map (·.site), orderRound := m.round, prevRoot := m.newRoot, prevRound := m.round, deadline := none, sent := [] }
  (((b.setN (partPage p) 0x304 (m.round + 1)).setN (partPage p) 0x308 m.round).setExch p 1).showLeader p |>.showLayout p |>.lagBack p

/-- BLOCK_DATA: a block asked for, checked against its leaf. One that a rebuild waits for goes on by REBUILD_BLOCK (R465). -/
def execBlockData (p : Fin 64) (h : SHdr) (g leaf : Nat) (bytes : List Byte) (s : State) : Host.Outcome State Fault Refusal :=
  onBlock (fun b => b.received p h mBlockData (bytes.length == 4096 || bytes.isEmpty) fun b =>
    let d := b.desc p
    let o := g - d.g0
    let x := b.shard p
    if bytes.isEmpty || g < d.g0 || !x.wantBlocks.contains o then b
    else
      let b := b.hashed 4096
      let left := x.wantBlocks.filter (· != o)
      if (b.rebuildOf p).left.contains o then
        let (b, stored) := b.peek p (d.digestAt 0 o) 8
        if leafOf bytes = stored then b else b.askBlock p (b.nextPartner p h.srcSite) o
      else if b.exchState p = 11 then
        let (b, stored) := b.peek p (d.digestAt 0 o) 8
        if leafOf bytes != stored then b.askBlock p (b.nextPartner p h.srcSite) o
        else
          let b := (b.setShard p { x with wantBlocks := left }).joinBlock p o bytes
          match x.incoming with
          | some m => if left.isEmpty then b.endJoin p m else b
          | none => b
      else if leafOf bytes != digestBytes leaf || !b.room (g % 32) then b.askBlock p h.srcSite o
      else
        let b := (b.setShard p { x with wantBlocks := left }).ledgerAnchor p o [bytes.take 2048, bytes.drop 2048]
        (b.setLevels p).add64 (partPage p) 0x340 1) s

/-- A counterpart whose base round is older is sent the manifest of the latest record (DESIGN CHOICE: R368 and R396 have it fetched,
and R398 has no message that asks for it). -/
def Block.serveManifest (b : Block) (p site base : Nat) : Block :=
  let x := b.shard p
  match x.record with
  | none => b
  | some m =>
    if m.round ≤ base || x.sig.isEmpty || x.incoming.isSome || b.anchorRound p != m.round then b
    else b.sendParts p site mManifest m.round 0 (manifestBytes m ++ x.sig)

/-- HELLO (R368, R392). -/
def execHello (p : Fin 64) (h : SHdr) (m : HelloMsg) (s : State) : Host.Outcome State Fault Refusal :=
  onBlock (fun b => b.received p h mHello (m.nContrib ≤ 256) fun b =>
    let x := b.shard p
    let peer : Peer := ⟨h.srcSite, m.round, m.leader, m.nContrib, m.baseRound, m.newRoot⟩
    let b := b.setShard p { x with
      peers := x.peers.filter (fun q => q.site != h.srcSite) ++ [peer],
      heardAt := if h.srcSite = b.leaderOf p (b.round p) && b.exchState p = 3 then b.now else x.heardAt }
    let b := if m.round < b.roundNow p then b.newerRecord p h.srcSite m.round else b
    let b := b.serveManifest p h.srcSite m.baseRound
    match x.record with
    | none => b
    | some own =>
      if own.round = m.round && own.newRoot != m.newRoot && x.rival.isNone &&
          winsOver m.nContrib m.leader own.contrib.length own.leader then
        (b.setShard p { b.shard p with rival := some peer }).coachEvent p 6 m.round
      else b) s

end Sys2Proof.Machine
end

