-- ==== Sys2Proof/Machine/Commit.lean ====
section
/-!
DEFINITION. The step commit (R78, R325, R334, R359), what it starts at a step boundary (R39, R42, R391, R393, R458), shadow
generations (R459 to R461), and the end of a rebase.
-/

namespace Sys2Proof.Machine

/-! Steering (R325). -/

/-- A latched health counter's count. -/
def Block.latchedHealth (b : Block) (p f i : Nat) : Nat :=
  b.reg64 (pageOf .perf p) (0x400 + 32 * f + 8 * i) % 2 ^ 48

/-- STEER_EXP and GROW_COUNT after a commit. -/
def steerAfter (total ovf vanish nan : Nat) (gradExp steerExp : Int) (grow limit : Nat) : Int × Nat :=
  let sat (x : Int) : Int := max (-128) (min 127 x)
  if total = 0 then (steerExp, grow)
  else if 0 < nan || total < ovf * 65536 then (sat (gradExp - 1), 0)
  else if limit ≤ grow + 1 && total < vanish * 1024 then (sat (gradExp + 1), 0)
  else (gradExp, min 65535 (grow + 1))

/-- The steering of a commit, with the values that governed the step. -/
def Block.steer (b : Block) (p : Nat) : Block :=
  let page := partPage p
  let ctrl := b.govern p 0x200
  let old := signedOf 8 (b.fld page 0x228 0 8)
  let grow := b.fld page 0x228 8 16
  let f := fieldOf ctrl 8 4
  let (new, n) :=
    if bitOf ctrl 6 && bitOf (b.regN (pageOf .perf p) 0x3F0) 1 then
      steerAfter (b.latchedHealth p f 0) (b.latchedHealth p f 1) (b.latchedHealth p f 2) (b.latchedHealth p f 3)
        (signedOf 8 (fieldOf (b.govern p 0x224) 0 8)) old grow (b.fld page 0x22C 0 16)
    else (old, grow)
  let b := b.setN page 0x228
    (codeOf 8 new + n * 2 ^ 8 + b2n (decide (new < old)) * 2 ^ 24 + b2n (decide (old < new)) * 2 ^ 25)
  b.ifSo (new != old) fun b => b.raisePart p 7 (codeOf 8 new)

/-! Shadow generations (R457 to R461). -/

/-- A delta record: its tag, then what the outbox holds. -/
def Block.deltaRecord (b : Block) (p i step round : Nat) : Block × List (Byte × Bool) :=
  let (b, bs) := b.peekM p (b.reg64 (partPage p) 0x610 + i * 1056) 1056
  (b, clean (toBytes 4 step ++ toBytes 4 round) ++ bs)

/-- The SD8 form of a moment array's piece under round to nearest even. -/
def Block.momentPart (b : Block) (p base g : Nat) : Block × List (Byte × Bool) :=
  if base = 0 then (b, clean (List.replicate 1056 0))
  else
    let (b, bs) := b.peekM p (pieceAddr base 2048 g) 2048
    let vs := (unpackWords 2 (raw bs)).map fun w => decF32 (bfWord w)
    let e := sdEncode 8 0 (fun _ => 0) vs
    (b.nonfiniteDelta e.2.2 p g, e.1.map fun v => (v, anyMark bs))

/-- A moment record of block g. -/
def Block.momentRecord (b : Block) (p g step : Nat) : Block × List (Byte × Bool) :=
  let m := b.momBases p
  let (b, m1) := b.momentPart p m.1 g
  let (b, m2) := b.momentPart p m.2 g
  (b, clean (toBytes 4 step ++ toBytes 4 0) ++ m1 ++ m2)

/-- Sends records, `k` a frame, from the first one's place in the keeper area on (R461). -/
def Block.sendRecords (b : Block) (dest base len k : Nat) (rs : List (Nat × List (Byte × Bool))) :
    Block :=
  b.each (cutList k (rs.length / k + 1) rs) fun b q =>
    let bs := q.flatMap Prod.snd
    b.emit (.shadow dest (base + ((q.headD (0, [])).1) * len) false (anyMark bs) (raw bs))

/-- Records built one after another. -/
def Block.records (b : Block) (is : List Nat) (f : Block → Nat → Block × List (Byte × Bool)) :
    Block × List (Nat × List (Byte × Bool)) :=
  is.foldl (fun (acc : Block × List (Nat × List (Byte × Bool))) i =>
    let r := f acc.1 i
    (r.1, acc.2 ++ [(i, r.2)])) (b, [])

/-- A generation closes: delta records of every block, at a step commit the moment records that are due, then the header. -/
def Block.shadowGeneration (b : Block) (p : Nat) (commit : Bool) : Block :=
  let page := partPage p
  if b.fld page 0x600 0 1 = 0 || (b.run p).keep.keeperGone then b
  else
    let gen := (b.regN page 0x634 + 1) % 2 ^ 32
    let step := b.committed p
    let round := b.anchorRound p
    let g0 := b.reg64 page 0x628
    let n := b.fld page 0x630 0 27
    let dest := b.fld page 0x604 0 30
    let area := b.reg64 page 0x618
    let (b, ds) := b.records (List.range n) fun b i => b.deltaRecord p i step round
    let due := if commit then (List.range n).filter fun i => (g0 + i + step) % (b.fld page 0x600 8 6 + 1) == 0 else []
    let (b, ms) := b.records due fun b i => b.momentRecord p (g0 + i) step
    let b := b.sendRecords dest (area + 64) 1064 7 ds
    let b := b.sendRecords dest (area + 64 + n * 1064) 2120 3 ms
    let head := toBytes 4 gen ++ toBytes 4 step ++ toBytes 4 round ++ toBytes 4 (n % 2 ^ 27) ++ List.replicate 48 0
    let b := b.emit (.shadow dest area true false head)
    (b.setN page 0x634 gen).add64 page 0x640 (1064 * n + 2120 * due.length)

/-! The commit (R359). -/

/-- The bases advance by m, and the deferred writes take effect (R313, R334). -/
def Block.advanceBases (b : Block) (p : Nat) : Block :=
  let m : Word := BitVec.ofNat 32 (fieldOf (b.govern p 0x204) 0 16)
  let sems := b.govern p 0x208
  let r := b.run p
  let b := b.setRun p { r with fwdBase := r.fwdBase + m, bwdBase := r.bwdBase + m, gov := [] }
  b.ifSo (b.regN (partPage p) 0x208 != sems) fun b => b.setBases p

/-- NO_KEEPER at the first commit after a manifest came (R458). -/
def Block.noteKeeper (b : Block) (p : Nat) : Block :=
  let r := b.run p
  if r.noKeeper then b
  else
    let b := b.setRun p { r with noKeeper := true }
    b.ifSo (b.fld (partPage p) 0x600 0 1 == 0) fun b => b.raise recPage 9 (some p)

/-- HOLD asked for takes hold: dispatch stops (R391). -/
def Block.takeHold (b : Block) (p : Nat) : Block :=
  b.ifSo (b.shard p).held fun b => b.setFld (partPage p) 0x300 5 1 1

/-- The lag at a commit (R391). -/
def Block.checkDrift (b : Block) (p : Nat) : Block :=
  let x := b.shard p
  let d := b.desc p
  if b.lag p ≤ d.driftMax then b.lagBack p
  else if x.told then b
  else
    let b := b.setShard p { x with told := true }
    if d.goOn then b.coachEvent p 5 (b.lag p)
    else
      let b := b.coachEvent p 4 (b.lag p)
      if b.normEn p && !b.isRoot p then b.emit (.queueMsg msgHold (b.normParent p) [0])
      else (b.each (b.below p) fun b d => b.emit (.queueMsg msgHold d [0])).setShard p { b.shard p with held := true }

/-- The rebase starts, unless the Coach is busy with another leaf; after a rollback the adoption runs again first (R42, R387, R388). -/
def Block.startRebase (b : Block) (p : Nat) : Block :=
  if b.coachBusy p then b
  else
    let x := b.shard p
    let b := if x.again then
        let b := b.adopt p x.retained
        let r := match x.record with
          | some m => m.round
          | none => b.anchorRound p
        (b.setN (partPage p) 0x308 r).setShard p { b.shard p with again := false }
      else b
    let b := b.setShard p { b.shard p with pos := 0 }
    (b.coachStart p (b.desc p).nblk).setExch p 9

/-- What the Coach does at a step boundary. -/
def Block.coachBoundary (b : Block) (p : Nat) : Block :=
  if !b.bound p then b
  else
    let b := b.setShard p { b.shard p with steps := (b.shard p).steps + 1 }
    let b := b.checkDrift p
    let st := b.exchState p
    if st = 10 then b.reconcileNow p
    else if st = 8 then b.startRebase p
    else if st = 1 && !(b.shard p).stuck && (b.desc p).steps ≤ (b.shard p).steps then b.markRound p
    else b

/-- The BARRIER that has committed completes. -/
def Block.endBarrier (b : Block) (p : Nat) : Block :=
  let u := (b.run p).barrier
  let b := match b.flights.findIdx? fun f => pruneSel p 3 f && some f.word == u.word with
    | none => b
    | some i => match b.flights[i]? with
      | some f => b.setFlight i f.finish
      | none => b
  let b := b.setRun p { b.run p with barrier := Barrier.none, norm := NormUnit.none, toldNorm := false, toldRec := false, toldStep := false }
  b.setBarrierState p 0

/-- STEP_SKIPPED (R469): a leaf that was rebuilt commits a step by a BARRIER with NOUPDATE. -/
def Block.noteSkipped (b : Block) (p : Nat) : Block :=
  let r := b.run p
  let skipped := r.rebuilt && r.barrier.word.any fun w => (pruneOf w).noUpdate
  (b.setRun p { r with rebuilt := false }).ifSo skipped fun b => b.raise recPage 6 (some p)

/-- COMMIT_RECORD_ACK. A leaf stops here where a QUIESCE waits for its commit (R524). -/
def execCommitRecordAck (p : Fin 64) (s : State) : Host.Outcome State Fault Refusal :=
  onBlock (fun b =>
    match (b.run p).barrier.record with
    | none => b
    | some step =>
      let hold := (b.shard p).held
      let b := (b.setN (partPage p) 0x280 step).add64 (partPage p) 0x250 1
      let b := b.ifSo (bitOf (b.regN (pageOf .perf p) 0x3F0) 1) fun b => b.numSnap p
      let b := ((((b.steer p).advanceBases p).noteSkipped p).endBarrier p).noteKeeper p
      let b := (b.shadowGeneration p true).coachBoundary p
      let b := b.ifSo hold fun b => b.takeHold p
      b.ifSo b.quiescing.isSome fun b => b.stopLeaf p) s

/-- REBASE_DONE. -/
def execRebaseDone (p : Fin 64) (s : State) : Host.Outcome State Fault Refusal :=
  onBlock (fun b =>
    if b.exchState p != 9 || (b.shard p).pos < (b.desc p).nblk then b
    else
      let b := b.setShard p { b.shard p with pos := 0, sent := [], inbound := [], frags := [], deadline := none, void := false }
      ((((b.coachEnd).setExch p 1).showLeader p).showLayout p).shadowGeneration p false) s

end Sys2Proof.Machine
end

