-- ==== Sys2Proof/Machine/Memory.lean ====
section
/-!
DEFINITION. The memory controllers (chapter 06): accesses, error correction and poison, scrub, training, channel faults, and
the invalidation of translations.
-/

namespace Sys2Proof.Machine

/-- The groups and the data granules of a channel (R205). -/
def chanGroups (t : Tier) : Nat := if t = .near then 8388608 else 67108864
def chanGranules (t : Tier) : Nat := 15 * chanGroups t

/-- Records a corrected error (R231, R232). -/
def Block.corrected (b : Block) (t : Tier) (k addr symbol : Nat) (scrub : Bool) : Block :=
  let page := pageMc t k
  let b := (b.add64 page 0x060 1).set64 page 0x070 addr
  let b := b.setN page 0x078 (b2n scrub * 2 + symbol * 2 ^ 8)
  let x := b.mc t k
  let times := b.now :: x.ceTimes.filter fun v => b.now < v + 86400000000000
  if b.regN page 0x04C ≤ times.length then
    (b.setMc t k { x with ceTimes := [] }).raise page 0 none addr
  else b.setMc t k { x with ceTimes := times }

/-- Records an uncorrectable error and poisons its granule; its data are no longer known (R206, R233). -/
def Block.uncorrectable (b : Block) (t : Tier) (k addr : Nat) (scrub : Bool) : Block :=
  let page := pageMc t k
  let g := addr / 64
  let b := (b.scramble (64 * g) 64).mark g true
  let b := (b.add64 page 0x068 1).set64 page 0x070 (64 * g)
  (b.setN page 0x078 (1 + b2n scrub * 2)).raise page 1 none (64 * g)

/-- What the decoder finds in the granule of a tier address. -/
def Block.decodeErr (b : Block) (addr : Nat) (e : MemErr) (scrub : Bool) : Block :=
  match tierOf addr with
  | none => b
  | some t =>
    let k := channelOf t addr
    match e with
    | .none => b
    | .corrected s => b.corrected t k (addr / 64 * 64) s.val scrub
    | .uncorrectable => b.uncorrectable t k addr scrub

/-! Accesses (R201 to R203, R221 to R229). -/

/-- The bytes of an access, and whether it writes. -/
def opLen : MemOp → Nat
  | .read n => n
  | .write bs _ => bs.length
def opWrites : MemOp → Bool
  | .read _ => false
  | .write _ _ => true

/-- The leaf an access is made for, and its context. -/
def accessLeaf : MemIssuer → Option Nat
  | .steward => none
  | .part p _ => some p
def accessCtx (p : Fin 64) (draft : Option (Fin 16)) : Ctx := ⟨p, draft.map (·.val)⟩

/-- The pieces of an access, each with what its address names. -/
def Block.accessPieces (b : Block) (who : MemIssuer) (va : Nat) (op : MemOp) : List (Nat × Nat × Xl) :=
  (chunks va (opLen op)).map fun q =>
    (q.1, q.2, match who with
      | .steward => Xl.dev q.1
      | .part p d => b.xl (accessCtx p d) q.1 (opWrites op))

/-- The lines of an access that lie in a tier, each with its tier and channel. -/
def Block.accessLines (b : Block) (who : MemIssuer) (va : Nat) (op : MemOp) : List (Tier × Nat × Nat) :=
  (b.accessPieces who va op).flatMap fun (q : Nat × Nat × Xl) =>
    match q.2.2 with
    | .dev a => match tierOf a with
      | some t => (linesOf a q.2.1).map fun line => (t, channelOf t a, line)
      | none => []
    | _ => []

/-- The first offset of a tier that an access needs and the shared cache does not map (R217); `known` is a page whose entry has just been
read. -/
def Block.accessMiss (b : Block) (who : MemIssuer) (va : Nat) (op : MemOp) (known : Option (Nat × Tier × Nat)) : Option (Tier × Nat) :=
  match who with
  | .steward => none
  | .part p d => (chunks va (opLen op)).findSome? fun q =>
    match b.xlKey (accessCtx p d) q.1 with
    | some (t, off) => if b.xlHit 4 p t off || known == some (p.val, t, off / 2 ^ 21) then none else some (t, off)
    | none => none

/-- Why a write's lines cannot all take slots (R223). -/
def Block.writeWait (b : Block) (part : Option Nat) (mark : Bool) : List (Tier × Nat × Nat) → Option WaitCause
  | [] => none
  | (t, k, line) :: r =>
    match b.slotWait t k part line (some mark) with
    | some c => some c
    | none => Block.writeWait (b.holdSlot t k part 0 line mark) part mark r

/-- The back-invalidation that an access needs of a line of the snoop filter (R512; true: BISnpInv). -/
def Block.accessNeed (b : Block) (who : MemIssuer) (va : Nat) (op : MemOp) (l : SfLine) : Option Bool :=
  let meets (at_ : Nat) : Bool := va < at_ + 64 && at_ < va + opLen op
  let hit : Bool := match who with
    | .steward => meets l.dev
    | .part p _ => match b.hdmBase p with
      | some base => meets (base + l.off)
      | none => false
  if !hit then none else if opWrites op then some true else if l.clean then none else some false

/-- Why an access waits at its issuer, if it does (R223, R224, R237, R512). -/
def Block.accessWait (b : Block) (who : MemIssuer) (va : Nat) (op : MemOp) (known : Option (Nat × Tier × Nat)) : Option WaitCause :=
  let lines := b.accessLines who va op
  if lines.any fun q => !b.tierServes (64 * q.2.2) then some .service
  else if (b.accessMiss who va op known).isSome then some .translation
  else if b.snoop.any fun l => (b.accessNeed who va op l).isSome then some .snoop
  else match op with
    | .read _ => lines.findSome? fun q => b.slotWait q.1 q.2.1 (accessLeaf who) q.2.2 none
    | .write _ m => b.writeWait (accessLeaf who) m lines

/-- The device address at which a write first has to read: that of the granule it writes in part (R201). -/
def Block.partialAt (b : Block) (who : MemIssuer) (va : Nat) (op : MemOp) : Option Nat :=
  (b.accessPieces who va op).findSome? fun (q : Nat × Nat × Xl) =>
    match q.2.2 with
    | .dev a => if a % 64 ≠ 0 then some a else if (a + q.2.1) % 64 ≠ 0 then some (a + q.2.1 - 1) else none
    | _ => none

/-- An access that takes its slots (R201, R220, R227, R231, R233): where translation fails nothing reaches memory; else errors are found in the
first granule it reads, then its bytes are read or written. -/
def Block.accessRun (b : Block) (who : MemIssuer) (va : Nat) (op : MemOp) (err : MemErr) : Block :=
  let bad := (b.accessPieces who va op).find? fun (q : Nat × Nat × Xl) =>
    match q.2.2 with
    | .bad => true
    | .outside => true
    | _ => false
  match accessLeaf who, bad with
  | some p, some q => b.raisePart p 3 q.1 0
  | _, _ =>
    match op with
    | .read n =>
      match who with
      | .part p d =>
        let b := match b.xl (accessCtx p d) va false with
          | .dev a => b.decodeErr a err false
          | _ => b
        match b.readV (accessCtx p d) va n with
        | (b, .ok bs) => b.emit (.memData (raw bs) (anyMark bs))
        | (b, .fault v) => b.raisePart p 3 v 0
      | .steward =>
        let b := b.decodeErr va err false
        let bs := b.getM va n
        (b.mcRead va n).emit (.memData (raw bs) (anyMark bs))
    | .write bs marked =>
      let b := match b.partialAt who va op with
        | some a => b.decodeErr a err false
        | none => b
      let ms := bs.map fun v => (v, marked)
      match who with
      | .part p d =>
        match b.writeV (accessCtx p d) va ms with
        | (b, none) => b
        | (b, some v) => b.raisePart p 3 v 0
      | .steward => ((b.putM va ms).mcWrite none va va bs.length fun _ => marked).ifSo (tierOf va == some .near)
          fun b => b.conflictDev va bs.length

/-- The requests that stand first in their issuers' queues (R222). -/
def memHeads : List MemReq → List MemReq
  | [] => []
  | r :: rest => r :: (memHeads rest).filter fun q => q.who != r.who

/-- The waiting requests that can now take slots are served, by their leaves' turns (R222, R482). -/
def Block.memRetryN (b : Block) (known : Option (Nat × Tier × Nat)) : Nat → List (Option Nat) → Block
  | 0, _ => b
  | n + 1, done =>
    let ready := (memHeads b.memQ).filter fun r => (b.accessWait r.who r.va r.op known).isNone
    match b.memTurn done (ready.map fun r => accessLeaf r.who) with
    | none => b
    | some turn =>
      match ready.find? fun r => accessLeaf r.who == turn with
      | none => b
      | some r => Block.memRetryN (({ b with memQ := b.memQ.erase r }).accessRun r.who r.va r.op r.err) known n (turn :: done)

/-- Serves what can be served of the waiting requests; each of the others charges its wait to its cause (R224). -/
def Block.memRetry (b : Block) (known : Option (Nat × Tier × Nat)) : Block :=
  let b := b.memRetryN known b.memQ.length []
  let b := { b with memQ := b.memQ.map fun (r : MemReq) => { r with cause := (b.accessWait r.who r.va r.op none).getD r.cause } }
  b.each ((memHeads b.memQ).filter fun (r : MemReq) => r.cause == .snoop) fun b r => b.backInv (b.accessNeed r.who r.va r.op)

/-- A request enters its controller, or waits at its issuer behind the issuer's earlier ones or for a slot (R222, R223). -/
def Block.memIssue (b : Block) (who : MemIssuer) (va : Nat) (op : MemOp) (err : MemErr) : Block :=
  let wait (c : WaitCause) : Block := { b with memQ := b.memQ ++ [⟨who, va, op, err, b.now, c⟩] }
  match b.memQ.find? fun r => r.who == who with
  | some r => wait r.cause
  | none =>
    match b.accessWait who va op none with
    | some .snoop => (wait .snoop).backInv (b.accessNeed who va op)
    | some c => wait c
    | none => b.accessRun who va op err

/-- Whether [a, a + n) lies in one region of the address map (R202). -/
def inRegion (a n : Nat) : Bool :=
  match regionOf a with
  | some r => a + n ≤ regionBase r + regionSize r
  | none => false

/-- MEM_ACCESS (R201, R203, R212, R216, R220 to R223, R227, R233). -/
def execMemAccess (who : MemIssuer) (addr : Nat) (op : MemOp) (err : MemErr) (s : State) :
    Host.Outcome State Fault Refusal :=
  match who with
  | .steward =>
    if !inRegion addr (opLen op) then .fault .busError
    else if regionOf addr = some .host then
      onBlock (fun b =>
        let h := addr - regionBase .host
        match op with
        | .read n => b.emit (.memData (raw (b.getHost h n)) (anyMark (b.getHost h n)))
        | .write bs m => b.putHost h (bs.map fun v => (v, m))) s
    else onBlock (fun b => b.memIssue .steward addr op err) s
  | .part p draft => onBlock (fun b => b.memIssue (.part p draft) addr op err) s

/-- The offset that a fill of page `v` reads the entry for: that of the first waiting request that misses there (R215). -/
def Block.fillOffset (b : Block) (p : Nat) (t : Tier) (v : Nat) : Nat :=
  ((memHeads b.memQ).findSome? fun r =>
    match accessLeaf r.who == some p, b.accessMiss r.who r.va r.op none with
    | true, some (t', off) => if t' = t && off / 2 ^ 21 == v then some off else none
    | _, _ => none).getD (v * 2 ^ 21)

/-- TRANSLATION_FILL (R217, R219): a miss reads the entry from the deep tier, and the accesses that wait for it proceed. -/
def execTranslationFill (cache : Fin 5) (p : Fin 64) (t : Tier) (v : Nat) (s : State) : Host.Outcome State Fault Refusal :=
  onBlock (fun b =>
    let off := b.fillOffset p t v
    if b.xlHit cache p t off then b else (b.xlMiss cache p t off).memRetry (some (p.val, t, v))) s

/-- WRITE_BATCH (R226): 64 writes are pending, or the oldest has waited 1 µs. -/
def execWriteBatch (t : Tier) (k : Fin 32) (s : State) : Host.Outcome State Fault Refusal :=
  onBlock (fun b =>
    let ss := (b.mc t k).slots
    if b.mcState t k = 2 && (64 ≤ ss.length || ss.any fun x => x.since + 1000 ≤ b.now) then
      (b.issueBatch t k fun _ => true).memRetry none
    else b) s

/-- REFRESH (R211): contents and requests to other banks are not affected. -/
def execRefresh (_t : Tier) (_k : Fin 32) (_bank : Nat) (s : State) : Host.Outcome State Fault Refusal := onBlock (fun b => b) s

/-- MC_HOT (R211): a device temperature in 1/16 °C. -/
def execMcHot (t : Tier) (k : Fin 32) (temp : Int) (s : State) : Host.Outcome State Fault Refusal :=
  onBlock (fun b => b.setFld (pageMc t k) 0x044 4 1 (b2n (decide (85 * 16 < temp)))) s

/-! Channel faults (R229, R236, R237, R455, R468). -/

/-- A channel fault: the requests in flight fail with poisoned data; the event, retraining, the recovery of its domain. -/
def Block.chanFaulted (b : Block) (t : Tier) (k : Fin 32) (cause : Nat) : Block :=
  let b := b.each (b.mc t k).slots fun b q => b.mark q.line true
  let b := (b.setMcState t k 4).setMc t k
    { b.mc t k with filling := true, faultNext := false, slowSince := [], slots := [], chk := [], rows := [] }
  let b := b.each (List.range 4) fun b w => b.setN (pageMc t k) (0x050 + 4 * w) 0
  let b := b.raise (pageMc t k) 3 none cause 0 b.allLeaves
  b.openRec (if t = .near then .nearmc k else .deepmc k)

/-- BANK_SLOW (R229): the bank holds a request that has waited more than 20 µs. -/
def execBankSlow (t : Tier) (k : Fin 32) (bank : Fin 128) (s : State) : Host.Outcome State Fault Refusal :=
  onBlock (fun b =>
    let page := pageMc t k
    let old := (b.mc t k).slots.any fun q => bankOfLine t q.line == bank.val && decide (q.since + 20000 < b.now)
    if bitOf (b.regN page (0x050 + 4 * (bank / 32))) (bank % 32) || !old || b.mcState t k ≠ 2 then b
    else
      let x := b.mc t k
      let b := b.setMc t k { x with slowSince := x.slowSince ++ [(bank.val, b.now)] }
      (b.setFld page (0x050 + 4 * (bank / 32)) (bank % 32) 1 1).raise page 2 none bank) s

/-- BANK_SLOW_LIMIT (R229): 100 ms without a break. -/
def execBankSlowLimit (t : Tier) (k : Fin 32) (bank : Fin 128) (s : State) : Host.Outcome State Fault Refusal :=
  onBlock (fun b =>
    if (b.mc t k).slowSince.any fun q => q.1 == bank.val && decide (q.2 + 100000000 ≤ b.now) then b.chanFaulted t k 2
    else b) s

/-- CHAN_FAULT (R237, R239): CRC replays are the near tier's, link ECC the deep tier's; a drain timeout counts after the restart. -/
def execChanFault (t : Tier) (k : Fin 32) (cause : ChanCause) (s : State) : Host.Outcome State Fault Refusal :=
  onBlock (fun b =>
    let due := match cause with
      | .crcReplays => t == .near
      | .linkEcc => t == .deep
      | .bankSlow => (b.mc t k).slowSince.any fun q => decide (q.2 + 100000000 ≤ b.now)
      | .drainTimeout => (b.mc t k).faultNext
    let code := match cause with
      | .crcReplays => 0
      | .linkEcc => 1
      | .bankSlow => 2
      | .drainTimeout => 3
    if due && b.mcState t k = 2 then b.chanFaulted t k code else b) s

/-! Scrub (R230, R231, R242, R243). -/

/-- Starts a pass. -/
def Block.scrubStart (b : Block) (t : Tier) (k : Nat) : Block :=
  let page := pageMc t k
  let b := (b.setFld page 0x044 3 1 1).setProgress page 0 (chanGroups t)
  b.setMc t k { b.mc t k with passStart := b.now }

/-- SCRUB_PASS (R230): a pass starts each SCRUB_PERIOD hours; what it finds is corrected or poisoned, and PROG_POS counts the groups up to the
latest find (log entry 202). -/
def execScrubPass (t : Tier) (k : Fin 32) (hits : List ScrubHit) (s : State) : Host.Outcome State Fault Refusal :=
  onBlock (fun b =>
    let page := pageMc t k
    let busy := b.fld page 0x044 3 1 == 1
    let due := b.fld page 0x040 11 1 == 1 && decide ((b.mc t k).passStart + b.fld page 0x048 0 8 * 3600000000000 ≤ b.now)
    if b.mcState t k ≠ 2 || !(busy || due) then b
    else
      let b := if busy then b else b.scrubStart t k
      b.each hits fun b (h : ScrubHit) =>
        if h.granule < chanGranules t then
          (b.decodeErr (chanAddr t k (64 * h.granule)) h.err true).setProgress page
            (max (b.reg64 page 0x020) (groupOf h.granule + 1)) (chanGroups t)
        else b) s

/-- SCRUB_NOW (R242). -/
def execScrubNow (t : Tier) (k : Fin 32) (s : State) : Host.Outcome State Fault Refusal :=
  onBlock (fun b => b.ifSo (b.mcState t k = 2) fun b => b.scrubStart t k) s

/-- SCRUB_DONE (R243). -/
def execScrubDone (t : Tier) (k : Fin 32) (s : State) : Host.Outcome State Fault Refusal :=
  onBlock (fun b =>
    let page := pageMc t k
    if b.fld page 0x044 3 1 = 0 then b
    else ((b.setFld page 0x044 3 1 0).setProgress page (chanGroups t) (chanGroups t)).raise page 6) s

/-! Training and zeroing (R235, R236, R617). -/

/-- TIER_TRAINING (R235, R236): every channel of the tier trains; `fails` gives the failed attempts of those that failed. -/
def execTierTraining (t : Tier) (fails : List (Fin 32 × Nat)) (s : State) : Host.Outcome State Fault Refusal :=
  onBlock (fun b =>
    let dev := b.fld devPage 0x040 0 3
    if !(b.domainReady 16 && b.domainReady 17) || !(dev = 1 || dev = 2) || b.mcState t 0 ≠ 0 then b
    else
      let b := b.setFld devPage 0x040 0 3 2
      let bad (k : Nat) : Bool := fails.any fun q => q.1.val == k && decide (3 ≤ q.2)
      let b := b.each (List.range 32) fun b k => b.setMcState t k (if bad k then 5 else 2)
      let b := b.each ((List.range 32).filter bad) fun b k => b.raise (pageMc t k) 5 none k
      let other := if t = .near then Tier.deep else Tier.near
      b.ifSo (b.fld devPage 0x040 0 3 = 2 && (List.range 32).all fun k => b.mcState other k == 2) fun b =>
        b.setFld devPage 0x040 0 3 3) s

/-- TIER_ZEROING_DONE (R235). -/
def execTierZeroingDone (s : State) : Host.Outcome State Fault Refusal :=
  onBlock (fun b =>
    if b.fld devPage 0x040 0 3 = 3 then
      ((b.zero 0 (regionSize .near)).zero (regionBase .deep) (regionBase .deep + regionSize .deep)).devReady
    else b) s

/-! Invalidation (R218, R219, R261). -/

/-- Whether an invalidation of leaf `p` covers a staged block. -/
def invCovers (value : Nat) (va : Nat) : Bool :=
  bitOf value 0 ||
    match regionOf va with
    | some .near => !bitOf value 1 && va / 2 ^ 21 == fieldOf value 12 20
    | some .deep => bitOf value 1 && (va - regionBase .deep) / 2 ^ 21 == fieldOf value 12 20
    | _ => false

/-- Whether an invalidation of leaf `p` covers a line of the snoop filter. -/
def Block.invLine (b : Block) (p value : Nat) (l : SfLine) : Bool := match b.hdmBase p with
  | some base => invCovers value (base + l.off)
  | none => false

/-- Starts an invalidation: BUSY; the caches drop the entries, and the Cart engines what they staged through them; lines of the HDM window
whose mapping changes are back-invalidated (R512). -/
def Block.xlatInvStart (b : Block) (p value : Nat) : Block :=
  let b := b.backInv fun l => if b.invLine p value l then some true else none
  let b := { b.setN (pageOf .part p) 0x11C 1 with xlInvs := b.xlInvs ++ [(p, value)] }
  (b.dropTags p value).each (List.range 64) fun b e =>
    let x := b.cart e
    if x.part = p then b.keepStaged e fun q => !invCovers value q else b

def execXlatInv (p : Fin 64) (value : Word) (s : State) : Host.Outcome State Fault Refusal :=
  onBlock (fun b => b.xlatInvStart p value.toNat) s

/-- Whether a write that was translated through an entry being invalidated has yet to complete at its controller (R218), or the host to give up
a line that it maps (R512). -/
def Block.invPending (b : Block) (p : Nat) : Bool :=
  b.xlInvs.any fun v => v.1 == p && ((b.snoop.any fun l => l.waiting.isSome && b.invLine p v.2 l) ||
    [Tier.near, Tier.deep].any fun t => (List.range 32).any fun k => (b.mc t k).slots.any fun q => q.part == some p && invCovers v.2 q.va)

/-- XLAT_INV_DONE (R218): commands that waited for it reply (R523). -/
def execXlatInvDone (p : Fin 64) (s : State) : Host.Outcome State Fault Refusal :=
  onBlock (fun b =>
    if b.invPending p then b
    else
      let mine := b.invWaits.filter fun (q : Nat × Req × Nat) => q.1 == p.val
      let b := { b with invWaits := b.invWaits.filter fun (q : Nat × Req × Nat) => q.1 != p.val,
                        xlInvs := b.xlInvs.filter fun q => q.1 != p.val }
      (b.setN (pageOf .part p) 0x11C 0).each mine fun b q => b.reply q.2.1 q.2.2 0 [0]) s

end Sys2Proof.Machine
end

