-- ==== Sys2Proof/Machine/Hdm.lean ====
section
/-!
DEFINITION. The HDM window (R511 to R514): its binding, the snoop filter, the host's accesses.
-/

namespace Sys2Proof.Machine

def hostPage : Nat := pageOf .hostif 0

/-- The bytes of the window, and the lines the filter holds. -/
def hdmSize : Nat := 2 ^ 36
def filterLines : Nat := 65536

/-- HOST_ERR to a leaf (R510, R511, R526, R598): the address and the host's completion status. -/
def Block.hostErr (b : Block) (p va status : Nat) : Block := (b.add64 hostPage 0x080 1).raisePart p 12 va status

/-- HOST_ERR where the window itself refuses an access: the spec gives no completion status. -/
def Block.windowErr (b : Block) (p va : Nat) : Block := b.tick.hostErr p va ((Config.freeValue b.free).toNat)

/-- The leaf and the base of the binding. -/
def Block.hdmBound (b : Block) : Option (Nat × Nat) :=
  if b.fld hostPage 0x044 6 1 = 1 then some (b.fld hostPage 0x044 0 6, b.reg64 hostPage 0x048) else none

/-- Whether the window is bound to a leaf. -/
def Block.hdmOf (b : Block) (p : Nat) : Bool := match b.hdmBound with
  | some q => q.1 == p
  | none => false

/-- Sets the binding. -/
def Block.setHdm (b : Block) (t : Option (Nat × Nat)) : Block :=
  match t with
  | some q => (b.setN hostPage 0x044 (q.1 + 2 ^ 6)).set64 hostPage 0x048 q.2
  | none => (b.setN hostPage 0x044 0).set64 hostPage 0x048 0

/-- Puts a line into the filter; the host's copy is not known clean. -/
def Block.track (b : Block) (off dev : Nat) : Block :=
  { b with snoop := b.snoop.filter (fun l => l.off != off || l.waiting.isSome) ++
      (if b.snoop.any fun l => l.off == off && l.waiting.isSome then [] else [⟨off, dev, false, none, 0⟩]) }

/-- Serves a host access, `data` none for a read of a line; false where it must be held: the binding changes, the controller does not
serve, or a read finds the filter full, whose oldest line is then back-invalidated. -/
def Block.hdmServe (b : Block) (off : Nat) (data : Option (List Byte)) : Block × Bool :=
  if b.hdm.move.isSome then (b, false)
  else match b.hdmBound with
    | none => (if data.isNone then b.emit (.memData [] true) else b, true)
    | some (p, base) =>
      match b.xlTier p .deep (base + off - regionBase .deep) data.isSome with
      | .dev a =>
        if !b.tierServes a then (b, false)
        else match data with
          | some bs => (((b.put a bs false).countTier a bs.length true).add64 hostPage 0x078 bs.length, true)
          | none =>
            let known := b.snoop.any fun l => l.off == off
            if !known && filterLines ≤ b.snoop.length then
              let oldest : Option Nat := (b.snoop.head?).map SfLine.off
              (b.backInv fun l => if some l.off == oldest then some true else none, false)
            else
              let ms := b.getM a 64
              let b := ((b.countTier a 64 false).add64 hostPage 0x070 64).emit (.memData (ms.map Prod.fst) (ms.any Prod.snd))
              (b.track off a, true)
      | _ => ((b.windowErr p (base + off)).ifSo data.isNone fun b => b.emit (.memData [] true), true)

/-- Serves the held accesses in the order they came, up to one that must still wait. -/
def Block.hdmPump (b : Block) : List (Nat × Option (List Byte)) → Block
  | [] => { b with hdm := { b.hdm with held := [] } }
  | q :: r =>
    match b.hdmServe q.1 q.2 with
    | (b, true) => Block.hdmPump b r
    | (b, false) => { b with hdm := { b.hdm with held := q :: r } }

/-- An access from the host: served at once, or held behind those that are. -/
def Block.hdmAccess (b : Block) (off : Nat) (data : Option (List Byte)) : Block :=
  if hdmSize ≤ off then b
  else if b.hdm.held.isEmpty then b.hdmPump [(off, data)]
  else { b with hdm := { b.hdm with held := b.hdm.held ++ [(off, data)] } }

/-- Ends a change of the binding: the new one holds unless the host did not answer or the leaf has gone, and the command replies. -/
def Block.hdmFinish (b : Block) (answered : Bool) : Block :=
  match b.hdm.move with
  | none => b
  | some m =>
    let gone : Bool := match m.target with
      | some q => !((b.grant q.1).loaded && b.fld (pageOf .part q.1) 0x0C0 0 3 == 2)
      | none => false
    let b := b.setHdm (if answered && !gone then m.target else none)
    let b := { b with hdm := { b.hdm with move := none } }
    let b := match m.reply with
      | some (rq, code) => b.reply rq code (if !answered then 0x06 else if gone then 0x04 else 0x00) [0]
      | none => b
    b.hdmPump b.hdm.held

/-- Starts a change of the binding: every tracked line is back-invalidated first. -/
def Block.hdmChange (b : Block) (reply : Option (Req × Nat)) (target : Option (Nat × Nat)) : Block :=
  if b.hdm.move.isSome then b
  else
    let b := ({ b with hdm := { b.hdm with move := some ⟨reply, target⟩ } }.setFld hostPage 0x044 7 1 1).backInv fun _ => some true
    if b.snoop.isEmpty then b.hdmFinish true else b

/-- The Steward unbinds the window (R514). -/
def Block.hdmUnbind (b : Block) : Block := b.hdmChange none none

/-- What follows once a line has left the filter: a change of the binding goes on, held accesses are served. -/
def Block.lineGone (b : Block) : Block :=
  (if b.hdm.move.isSome then (if b.snoop.isEmpty then b.hdmFinish true else b) else b.hdmPump b.hdm.held).memRetry none

/-- The host is gone: the filter is cleared and the window unbound (R513, R525). -/
def Block.hdmLost (b : Block) : Block :=
  let b := { b with snoop := [] }
  (if b.hdm.move.isSome then b.hdmFinish false else (b.setHdm none).hdmPump b.hdm.held).memRetry none

/-- HDM_BIND (R511, R514). -/
def execHdmBind (rq : Req) (p : Fin 64) (base : Nat) (s : State) : Host.Outcome State Fault Refusal :=
  onBlock (fun b =>
    if rq.by_ != .pf then b.reply rq 0x30 0x02 [0]
    else if base % 0x200000 != 0 || regionOf base != some .deep || !(b.part p).present || !(b.part p).leaf then b.reply rq 0x30 0x01 [0]
    else if !(b.grant p).loaded || b.fld (pageOf .part p) 0x0C0 0 3 != 2 || b.hdm.move.isSome then b.reply rq 0x30 0x04 [0]
    else b.hdmChange (some (rq, 0x30)) (some (p.val, base))) s

/-- HDM_UNBIND (R514). -/
def execHdmUnbind (rq : Req) (s : State) : Host.Outcome State Fault Refusal :=
  onBlock (fun b =>
    if rq.by_ != .pf then b.reply rq 0x31 0x02 [0]
    else if b.hdm.move.isSome then b.reply rq 0x31 0x04 [0]
    else b.hdmChange (some (rq, 0x31)) none) s

/-- HDM_HOST_READ: a CXL.mem read of a line of the window. -/
def execHdmHostRead (off : Nat) (s : State) : Host.Outcome State Fault Refusal :=
  onBlock (fun b => b.hdmAccess (off / 64 * 64) none) s

/-- HDM_HOST_WRITE. -/
def execHdmHostWrite (off : Nat) (bytes : List Byte) (s : State) : Host.Outcome State Fault Refusal :=
  onBlock (fun b => b.hdmAccess off (some bytes)) s

/-- HOST_EVICTION: the host no longer holds a line. -/
def execHostEviction (off : Nat) (s : State) : Host.Outcome State Fault Refusal :=
  onBlock (fun b =>
    if b.snoop.any fun l => l.off == off / 64 * 64 then
      { b with snoop := b.snoop.filter fun l => l.off != off / 64 * 64 }.lineGone
    else b) s

/-- BIRSP: the host's answer to a back-invalidation, with the data of a dirty line. After BISnpInv the line leaves the filter; after
BISnpData the host's copy is clean. -/
def execBirsp (off : Nat) (dirty : Option (List Byte)) (s : State) : Host.Outcome State Fault Refusal :=
  onBlock (fun b =>
    match b.snoop.find? fun l => l.off == off / 64 * 64 && l.waiting.isSome with
    | none => b
    | some l =>
      let b := match dirty with
        | some bs => ((b.put l.dev (bs.take 64) false).countTier l.dev (min bs.length 64) true).add64 hostPage 0x078 (min bs.length 64)
        | none => b
      if l.waiting = some true then { b with snoop := b.snoop.filter fun q => q.off != l.off }.lineGone
      else
        { b with snoop := b.snoop.map fun (q : SfLine) =>
          if q.off == l.off then { q with waiting := none, clean := true } else q }.memRetry none) s

/-- HDM_BI_TIMEOUT (R513): a BIRsp has not come within 10 ms. -/
def execHdmBiTimeout (s : State) : Host.Outcome State Fault Refusal :=
  onBlock (fun b =>
    if b.snoop.any fun l => l.waiting.isSome && decide (l.sent + 10000000 ≤ b.now) then
      (b.raise hostPage 4).hdmLost
    else b) s

/-- H2D_SNOOP (R509): the module holds no host line. -/
def execH2dSnoop (addr : Nat) (s : State) : Host.Outcome State Fault Refusal := onBlock (fun b => b.emit (.snoopReply addr)) s

end Sys2Proof.Machine
end

