-- ==== Sys2Proof/Machine/Links.lean ====
section
/-!
DEFINITION. Ropaurn and Ethernet links (R402 to R421, R424 to R426, R430, R431): training, flits with their retry, frames with
forwarding and delivery, the receive queues.
-/

namespace Sys2Proof.Machine

/-! Training (R404, R405). -/

/-- The lanes PORT_CTRL.WIDTH selects (R438). -/
def Block.portLanes (b : Block) (n : Nat) : BitVec 2 :=
  match (b.portMode n).2 with
  | 1 => 1
  | 2 => 2
  | _ => 3

/-- Whether a port may train (R403). -/
def Block.mayTrain (b : Block) (n : Nat) : Bool := b.portOn n && b.blockReady .port n

/-- Shows the lanes that are up, and whether the port is degraded. -/
def Block.showLanes (b : Block) (n : Nat) (lanes : BitVec 2) : Block :=
  (b.setFld (portPage n) 0x044 3 2 lanes.toNat).setFld (portPage n) 0x044 5 1 (b2n (lanes != 0 && lanes != b.portLanes n))

/-- A training attempt starts from its first phase; the first of a training resets the count of attempts. -/
def Block.beginAttempt (b : Block) (n attempt : Nat) : Block :=
  let b := b.setPort n { b.port n with attempt := attempt, phase := 0, phaseAt := b.now, lanes := b.portLanes n }
  (b.setPortState n 1).showLanes n 0

/-- A full training starts and takes MODE and WIDTH (R402 to R404); in Ethernet mode, auto-negotiation (R424). -/
def Block.startTraining (b : Block) (n : Nat) : Block :=
  let mode := (b.fld (portPage n) 0x040 1 1 == 1, b.fld (portPage n) 0x040 2 2)
  let b := (b.setPort n { b.port n with trained := some mode }).beginAttempt n 1
  if b.portEth n then b.setPort n { b.port n with ethSince := some b.now } else b

/-- PORT_TRAIN: the Steward brings a port up that is DOWN. -/
def execPortTrain (n : Fin 48) (s : State) : Host.Outcome State Fault Refusal :=
  onBlock (fun b => if b.mayTrain n && b.portState n == 0 then b.startTraining n else b) s

/-- RETRAIN (R405, R438). -/
def execRetrain (n : Fin 48) (s : State) : Host.Outcome State Fault Refusal :=
  onBlock (fun b => if b.mayTrain n then (b.raise (portPage n) 2).startTraining n else b) s

/-- Whether the tables still lead through a port (R415, R452). -/
def Block.routedVia (b : Block) (n : Nat) : Bool :=
  (List.range 48).any fun m => (List.range 256).any fun i =>
    let e := b.reg64 (portPage m) (0x800 + 8 * i)
    bitOf e 55 && fieldOf e 48 6 == n

/-- The recovery of a failed port ends once no table leads through it (R452, DEDUCED). -/
def Block.rerouted (b : Block) (n : Fin 48) : Block :=
  if b.recOpen (.port n) && !b.routedVia n then b.closeRec (.port n) else b

/-- A port enters FAILED (R405, R409): frames that wait are dropped and counted. -/
def Block.failPort (b : Block) (n : Fin 48) : Block :=
  let q := (b.port n).sendQ
  let b := (b.add64 (portPage n) 0x088 q.length).each q Block.leaveIngress
  let b := b.setPort n { b.port n with sendQ := [], replay := [], attempt := 0, phase := 0, fastFails := 0 }
  ((((b.setPortState n 5).showLanes n 0).raise (portPage n) 0).openRec (.port n)).rerouted n

/-- An attempt that failed: another, up to three. -/
def Block.attemptFails (b : Block) (n : Fin 48) : Block :=
  let a := (b.port n).attempt
  if a < 3 then b.beginAttempt n (a + 1) else b.failPort n

/-- A port enters UP. -/
def Block.portComesUp (b : Block) (n : Fin 48) : Block :=
  let lanes := (b.port n).lanes
  let b := ((b.setPort n { b.port n with attempt := 0, phase := 0, fastFails := 0, replays := 0 }).setPortState n 3).showLanes n lanes
  let b := b.ifSo (lanes != b.portLanes n) fun b => b.raise (portPage n) 1
  (b.ifSo (b.recOpen (.port n)) fun b => b.closeRec (.port n)).pump n

/-- The flit exchange (R404, R410). -/
def Block.flitExchange (b : Block) (n : Nat) : Block :=
  b.setPort n { b.port n with txSeq := 0, rxSeq := 4095, dropping := false, replay := [], replays := 0, credit := [384, 384, 192, 64] }

/-- TRAIN_PHASE_DONE. `lanes` are the lanes that came through the phase, `partnerEnc` is the partner's HOP_ENC. -/
def execTrainPhaseDone (n : Fin 48) (lanes : BitVec 2) (partnerEnc : Bool) (s : State) : Host.Outcome State Fault Refusal :=
  onBlock (fun b =>
    let x := b.port n
    let st := b.portState n
    if b.portEth n || !b.mayTrain n || (st != 1 && st != 2) then b
    else if st = 2 then
      if x.keys.send.isSome then b.portComesUp n else b
    else
      let up := x.lanes &&& lanes
      if up = 0 then b.attemptFails n
      else
        let b := b.setPort n { x with lanes := up, phase := x.phase + 1, phaseAt := b.now }
        if x.phase < 3 then b
        else
          let b := b.flitExchange n
          if b.portEnc n != partnerEnc then b.attemptFails n
          else if b.portEnc n then (b.setPort n { b.port n with keys := Keys.none, fabric := b.haw.fabric }).setPortState n 2
          else b.portComesUp n) s

/-- The bound of a phase of training in nanoseconds (R404). -/
def phaseBound (keying : Bool) (phase : Nat) : Nat :=
  if keying then 50000000 else [2000000, 60000000, 1000000, 1000000].getD phase 1000000

/-- TRAIN_PHASE_TIMEOUT (R404, R405, R423): a phase that exceeds its bound fails the attempt. -/
def execTrainPhaseTimeout (n : Fin 48) (s : State) : Host.Outcome State Fault Refusal :=
  onBlock (fun b =>
    let x := b.port n
    let st := b.portState n
    if !b.portEth n && (st == 1 || st == 2) && decide (x.phaseAt + phaseBound (st == 2) x.phase ≤ b.now) then b.attemptFails n
    else b) s

/-! Flits (R406 to R410). -/

/-- The bytes of a flit that its CRC covers. -/
def flitBytes (f : Flit) : List Byte :=
  toBytes 8 (f.seq % 4096 + f.vc.val * 2 ^ 12 + f.ftype % 4 * 2 ^ 14 + f.ack % 4096 * 2 ^ 16 + b2n f.nak * 2 ^ 28 +
    f.rsv % 8 * 2 ^ 29 + ((List.range 4).map fun i => f.credit.getD i 0 % 256 * 2 ^ (32 + 8 * i)).sum) ++ padTo 244 f.payload

/-- Takes an ACK: the flits up to it leave the replay buffer. -/
def Block.takeAck (b : Block) (n ack : Nat) : Block :=
  let x := b.port n
  match x.replay.findIdx? fun q => q.1 == ack % 4096 with
  | some i => b.setPort n { x with replay := x.replay.drop (i + 1), replays := 0 }
  | none => b

/-- Takes returned credits. -/
def Block.takeCredit (b : Block) (n : Nat) (credit : List Nat) : Block :=
  let x := b.port n
  b.setPort n { x with credit := x.credit.zipIdx.map fun q => q.1 + credit.getD q.2 0 % 256 }

/-- Discards a flit and asks for a replay (R408). -/
def Block.askReplay (b : Block) (n : Nat) : Block :=
  let x := b.port n
  if x.dropping then b
  else ((b.setPort n { x with dropping := true }).add64 (portPage n) 0x080 1).sendCtl n true [0, 0, 0, 0]

/-- Sends every flit of the replay buffer again. -/
def Block.replayAll (b : Block) (n : Nat) : Block :=
  b.each (b.port n).replay fun b q => b.emit (.flit n 0 [q.1, q.2.1] q.2.2)

/-- A replay is asked for (R408, R409): the eighth without an ACK ends in a fast retrain. -/
def Block.onNak (b : Block) (n : Nat) : Block :=
  let x := b.port n
  if 8 ≤ x.replays then (b.setPortState n 4).raise (portPage n) 2
  else (b.setPort n { x with replays := x.replays + 1 }).replayAll n

/-- FLIT. The frames it carries come as FRAME. -/
def execFlit (n : Fin 48) (f : Flit) (fecFailed : Bool) (s : State) : Host.Outcome State Fault Refusal :=
  onBlock (fun b =>
    if !b.portUp n || b.portEth n then b
    else if fecFailed then (b.add64 (portPage n) 0x078 1).askReplay n
    else if (crc32c (flitBytes f)).toNat != f.crc then b.askReplay n
    else if f.ftype = 3 || f.rsv != 0 || f.credit.length != 4 then b
    else
      let b := (b.takeAck n f.ack).takeCredit n f.credit
      let b := (b.ifSo f.nak fun b => b.onNak n).pump n
      if f.ftype != 0 then b
      else
        let x := b.port n
        if f.seq = (x.rxSeq + 1) % 4096 then b.setPort n { x with rxSeq := f.seq, dropping := false }
        else if (x.rxSeq + 4096 - f.seq) % 4096 < 512 then b
        else b.askReplay n) s

/-- NAK (R408, R409). -/
def execNak (n : Fin 48) (ack : Nat) (s : State) : Host.Outcome State Fault Refusal :=
  onBlock (fun b => if !b.portUp n || b.portEth n then b else (b.takeAck n ack).onNak n) s

/-- FAST_RETRAIN ends (R404, R409). -/
def execFastRetrain (n : Fin 48) (ok : Bool) (s : State) : Host.Outcome State Fault Refusal :=
  onBlock (fun b =>
    if b.portState n != 4 then b
    else
      let x := b.port n
      if ok then ((((b.setPort n { x with replays := 0, fastFails := 0 }).setPortState n 3).replayAll n).pump n)
      else if 3 ≤ x.fastFails + 1 then b.failPort n
      else b.setPort n { x with fastFails := x.fastFails + 1 }) s

/-- The Steward slews the time base by at most 100 ppm (R430, R431). -/
def Block.setSlew (b : Block) (ppb : Int) : Block := { b with slew := max (-100000) (min 100000 ppb) }

/-- CONTROL_FLIT: the measured one-way delay in nanoseconds, and the slewing that the Steward derives from the sample, in parts per
billion. Hop handshakes come as HANDSHAKE commands. -/
def execControlFlit (n : Fin 48) (sample : Int) (delay : Nat) (s : State) : Host.Outcome State Fault Refusal :=
  onBlock (fun b =>
    if b.portUp n && !b.portEth n then (b.setPort n { b.port n with delay := delay }).setSlew sample else b) s

/-! Frames (R412 to R421). -/

/-- Whether a frame's header has no reserved encoding. -/
def frameFormed (f : Frame) : Bool :=
  let h := f.hdr
  h.rsv == 0 && h.kind < 3 && (if h.kind = 1 then 1 ≤ h.red && h.red ≤ 3 else h.red == 0) && h.vc < 4 && h.dstAddr < 2 ^ 48 &&
    1 ≤ f.payload.length && f.payload.length ≤ 8192 && (h.enc || h.frameCtr == 0) && (h.kind != 2 || h.dstAddr < 3)

/-- The key an epoch may be received under now: the current one, or the previous one while its grace window is open (R434). -/
def Keys.forEpoch (k : Keys) (now epoch : Nat) : Option KeyDir :=
  let prev : Option KeyDir :=
    match k.prevRecv, k.graceEnd with
    | some q, .none => if q.epoch = epoch then some q else .none
    | some q, some t => if q.epoch = epoch && now < t && k.graceLeft != 0 then some q else .none
    | .none, _ => .none
  match k.recv with
  | some c => if c.epoch = epoch then some c else prev
  | .none => prev

/-- A frame or envelope received under an epoch: the first under a new one opens the grace window (R434). -/
def Keys.tookUse (k : Keys) (now epoch graceMs graceLog : Nat) : Keys :=
  let current := match k.recv with
    | some c => c.epoch == epoch
    | .none => false
  if !current || k.prevRecv.isNone then k
  else match k.graceEnd with
    | .none => { k with graceEnd := some (now + graceMs * 1000000), graceLeft := 2 ^ graceLog - 1 }
    | some _ => { k with graceLeft := k.graceLeft - 1 }

/-- HOP_EPOCH (R438). -/
def Block.showHop (b : Block) (n : Nat) : Block :=
  let k := (b.port n).keys
  let e (d : Option KeyDir) : Nat := match d with
    | some q => q.epoch % 256
    | none => 0
  let grace := k.prevRecv.isSome && k.graceEnd.isSome
  b.setN (portPage n) 0x0B0 (e k.send + e k.recv * 2 ^ 8 + b2n grace * 2 ^ 16)

/-- Decrypts a frame where the port encrypts (R422, R423); none where it is dropped. -/
def Block.openFrame (b : Block) (n : Nat) (f : Frame) : Block × Option Frame :=
  let fails (b : Block) : Block × Option Frame := ((b.add64 (portPage n) 0x0A0 1).raise (portPage n) 3, none)
  if !b.portEnc n then (if f.hdr.enc then fails b else (b, some f))
  else if !f.hdr.enc then fails b
  else
    let x := b.port n
    match x.keys.forEpoch b.now f.hdr.epoch with
    | none => fails b
    | some k =>
      match Config.gcmOpen k.key (nonceOf k f.hdr.frameCtr) (hdrBytes f.hdr f.payload.length) f.payload f.tag with
      | none => fails b
      | some plain =>
        let keys := x.keys.tookUse b.now f.hdr.epoch (b.fld (portPage n) 0x0B4 0 16) (b.fld (portPage n) 0x0B4 16 5)
        ((b.setPort n { x with keys := keys }).showHop n, some { f with payload := plain, tag := [] })

/-- The egress port of a destination in the table of port `n` (R415). -/
def Block.egressOf (b : Block) (n dest : Nat) : Option Nat :=
  ((List.range 256).find? fun i =>
    let e := b.reg64 (portPage n) (0x800 + 8 * i)
    bitOf e 55 && (dest &&& fieldOf e 24 24) == (fieldOf e 0 24 &&& fieldOf e 24 24)).map fun i =>
      fieldOf (b.reg64 (portPage n) (0x800 + 8 * i)) 48 6

/-- Drops a frame, counted at an offset of the port's page. -/
def Block.dropFrame (b : Block) (n off : Nat) (f : Frame) : Block := (b.add64 (portPage n) off 1).giveCredit n f

/-- A frame for another module (R414, R415). -/
def Block.forward (b : Block) (n : Nat) (f : Frame) (residence : Nat) : Block :=
  match b.egressOf n f.hdr.destMod with
  | none => b.dropFrame n 0x090 f
  | some e =>
    if e = n || 48 ≤ e || !b.portUp e || b.portEth e then b.dropFrame n 0x090 f
    else
      let spent := residence + (b.port n).delay
      if f.hdr.life ≤ lifeUsed spent then b.dropFrame n 0x088 f
      else b.sendVia e f none (some n) spent

/-- The inbound window that admits a frame (R416, R420): the lowest that does. -/
def Block.windowFor (b : Block) (p : Nat) (f : Frame) : Option Nat :=
  let h := f.hdr
  (List.range 16).find? fun w =>
    let off := 0x400 + 0x20 * w
    let base := b.reg64 (partPage p) off
    let len := b.reg64 (partPage p) (off + 8)
    let ctrl := b.regN (partPage p) (off + 0x10)
    let mask := b.fld (partPage p) (off + 0x18) 0 24
    base ≤ h.dstAddr && h.dstAddr + f.payload.length ≤ base + len && bitOf ctrl (if h.kind = 0 then 15 else 16) &&
      (h.srcMod &&& mask) == (b.fld (partPage p) (off + 0x14) 0 24 &&& mask)

/-- What a port expects of a stream: at first, frame 0 of message 0 (R413, R417). -/
def Block.streamOf (b : Block) (n : Nat) (h : FrameHdr) : StreamIn :=
  ((b.port n).streams.find? fun q => q.srcMod == h.srcMod && q.srcPart == h.srcPart).getD ⟨h.srcMod, h.srcPart, 0, 0, false⟩

/-- The stream once a frame has come, and whether the frame's message has had a gap (R417). -/
def streamAfter (q : StreamIn) (h : FrameHdr) : StreamIn × Bool :=
  let inTurn := q.msg == h.msgSeq && q.idx == h.frameIdx
  let gap := !inTurn || (h.frameIdx != 0 && q.gap)
  (if h.last then ⟨q.srcMod, q.srcPart, (h.msgSeq + 1) % 2 ^ 32, 0, false⟩
   else ⟨q.srcMod, q.srcPart, h.msgSeq, (h.frameIdx + 1) % 2 ^ 32, gap⟩, gap)

def Block.setStream (b : Block) (n : Nat) (q : StreamIn) : Block :=
  let x := b.port n
  b.setPort n { x with streams := x.streams.filter (fun r => !(r.srcMod == q.srcMod && r.srcPart == q.srcPart)) ++ [q] }

/-- One element of a reduction (R418): FP32, BF16 or INT32. -/
def reduceElem (red old new : Nat) : Nat :=
  if red = 1 then (f32Add (BitVec.ofNat 32 old) (BitVec.ofNat 32 new)).toNat
  else if red = 2 then encodeArith bf16 .nearest (addV (decBf16 old) (decBf16 new))
  else (ofI32 (int32Sum [i32 (BitVec.ofNat 32 old), i32 (BitVec.ofNat 32 new)])).toNat

/-- A reduced payload; bytes beyond the last whole element stay. -/
def reduceBytes (red : Nat) (old new : List Byte) : List Byte :=
  let k := if red = 2 then 2 else 4
  let n := new.length / k
  packWords k (List.zipWith (reduceElem red) (unpackWords k (old.take (k * n))) (unpackWords k (new.take (k * n)))) ++ old.drop (k * n)

/-- Writes or reduces an accepted frame; false where its range does not translate (R418, R419, R220). -/
def Block.landFrame (b : Block) (p : Nat) (f : Frame) : Block × Bool :=
  let h := f.hdr
  let n := f.payload.length
  match b.firstBad ⟨p, none⟩ true h.dstAddr n with
  | some a => (b.raisePart p 3 a, false)
  | none =>
    if h.kind = 0 then (b.pokeM p h.dstAddr (f.payload.map fun v => (v, h.poison)), true)
    else
      let (b, old) := b.peekM p h.dstAddr n
      let new := reduceBytes h.red (raw old) f.payload
      let b := b.pokeM p h.dstAddr (new.zipIdx.map fun q => (q.1, h.poison || (old.getD q.2 (0, false)).2))
      (b.countEv p 5 0 0x20 n, true)

/-- FRAME_DELIVER (R416, R417). -/
def Block.deliver (b : Block) (n : Nat) (f : Frame) : Block :=
  let h := f.hdr
  let p := h.destPart
  let (q, gap) := streamAfter (b.streamOf n h) h
  let told := !(b.streamOf n h).gap || h.frameIdx == 0
  let here := (b.grant p).loaded
  let b := b.ifSo (gap && here && told) fun b => b.raisePart p 11 (h.srcMod + h.srcPart * 2 ^ 24) h.msgSeq
  let b := b.setStream n q
  let refused (b : Block) : Block :=
    let b := (b.setStream n { q with gap := !h.last }).add64 (portPage n) 0x098 1
    b.ifSo here fun b => b.raisePart p 10 h.srcMod h.dstAddr
  match (if here then b.windowFor p f else none) with
  | none => refused b
  | some w =>
    let ctrl := b.regN (partPage p) (0x410 + 0x20 * w)
    match b.landFrame p f with
    | (b, false) => b.setStream n { q with gap := !h.last }
    | (b, true) =>
      let b := b.countEv p 4 n 0x1F f.payload.length
      if h.last && !gap then
        let x := b.port n
        let sem := if bitOf ctrl 14 then some (b.semIndex p (fieldOf ctrl 0 14)) else none
        b.setPort n { x with arrivals := x.arrivals ++ [⟨h.srcMod, h.srcPart, p, sem⟩] }
      else b

/-- QUEUE_FRAME (R421). -/
def Block.queueFrame (b : Block) (n : Nat) (f : Frame) : Block :=
  let x := b.port n
  if x.vc3.isEmpty && b.queueOpen f.hdr.dstAddr then (b.enqueue f.hdr.dstAddr f).giveCredit n f
  else b.setPort n { x with vc3 := x.vc3 ++ [⟨f, b.now, none, some n, 0⟩] }

/-- FRAME: `residence` is its residence time in this module in nanoseconds. -/
def execFrame (n : Fin 48) (f : Frame) (residence : Nat) (s : State) : Host.Outcome State Fault Refusal :=
  onBlock (fun b =>
    if !b.portUp n || b.portEth n then b
    else
      let b := (b.add64 (portPage n) 0x058 1).add64 (portPage n) 0x068 f.payload.length
      if !frameFormed f then b.dropFrame n 0x090 f
      else match b.openFrame n f with
        | (b, none) => b.giveCredit n f
        | (b, some f) =>
          if f.hdr.destMod != b.moduleId n then b.forward n f residence
          else if f.hdr.kind = 2 then b.queueFrame n f
          else (b.deliver n f).giveCredit n f) s

/-- ARRIVAL_SIGNAL (R417). -/
def execArrivalSignal (n : Fin 48) (srcMod srcPart : Nat) (s : State) : Host.Outcome State Fault Refusal :=
  onBlock (fun b =>
    let x := b.port n
    match x.arrivals.findIdx? fun a => a.srcMod == srcMod && a.srcPart == srcPart with
    | none => b
    | some i =>
      let b := b.setPort n { x with arrivals := x.arrivals.eraseIdx i }
      match x.arrivals[i]? with
      | some a => match a.sem with
        | some k => b.addSem k 1
        | none => b
      | none => b) s

/-- QUEUE_DROP_PKT (R421). -/
def execQueueDropPkt (q : Fin 3) (s : State) : Host.Outcome State Fault Refusal := onBlock (fun b => b.takeQueue q) s

/-- Whether a waiting frame's residence has reached its remaining lifetime. -/
def SendItem.expired (s : SendItem) (now : Nat) : Bool := decide (8 * s.frame.hdr.life ≤ now - s.since + s.spent)

/-- FRAME_EXPIRED (R414). -/
def execFrameExpired (n : Fin 48) (s : State) : Host.Outcome State Fault Refusal :=
  onBlock (fun b =>
    let x := b.port n
    let gone := (x.sendQ ++ x.vc3).filter fun s => s.expired b.now
    let b := b.setPort n { x with sendQ := x.sendQ.filter (fun s => !s.expired b.now), vc3 := x.vc3.filter fun s => !s.expired b.now }
    (((b.add64 (portPage n) 0x088 gone.length).each gone Block.leaveIngress).pump n).fromVc3 n) s

/-! Ethernet mode (R424 to R426, R430). -/

/-- Empties flows that can no longer send: each chunk they were sending is queued, whole, on the session's other flows (R425, R429);
other messages go by the session's first flow that can send, if there is one (DEDUCED, log 196). -/
def Block.moveChunks (b : Block) (flows : List Nat) : Block :=
  b.each flows fun b i =>
    let qs := (b.flow i).queue
    let b := b.setFlow i { b.flow i with queue := [] }
    let chunks := qs.filter fun q => q.mail.type_ == mChunk && b.packetLive q
    let b := b.each ((chunks.map fun q => q.mail.part).eraseDups) fun b p =>
      let x := b.shard p
      b.setShard p { x with sent := x.sent.map fun c => if chunks.any fun q => q.ofChunk p c.seg then { c with queued := true } else c }
    b.each (qs.filter fun q => q.mail.type_ != mChunk) fun b q =>
      match b.flowOf q.mail.session with
      | some k => b.toFlow k [q]
      | none => b

/-- ETH_AUTONEG_RESTART. -/
def execEthAutonegRestart (n : Fin 48) (s : State) : Host.Outcome State Fault Refusal :=
  onBlock (fun b =>
    let x := b.port n
    match x.ethSince with
    | none => b
    | some t =>
      if !b.portEth n || !b.portOn n || b.portState n != 1 || b.now < t + 1000000000 then b
      else
        let b := b.setPort n { x with ethSince := some b.now, ethTold := true }
        b.ifSo (!x.ethTold) fun b => b.raise (portPage n) 6) s

/-- ETH_UP. -/
def execEthUp (n : Fin 48) (s : State) : Host.Outcome State Fault Refusal :=
  onBlock (fun b =>
    if !b.portEth n || !b.mayTrain n || b.portState n != 1 then b
    else
      let b := b.setPort n { b.port n with ethSince := none, ethTold := false, lanes := b.portLanes n }
      ((b.setPortState n 3).showLanes n (b.portLanes n)).raise (portPage n) 7) s

/-- ETH_DOWN. -/
def execEthDown (n : Fin 48) (s : State) : Host.Outcome State Fault Refusal :=
  onBlock (fun b =>
    if !b.portEth n || b.portState n != 3 then b
    else
      let b := b.setPort n { b.port n with ethSince := some b.now, ethTold := true }
      let b := ((b.setPortState n 1).showLanes n 0).raise (portPage n) 6
      b.moveChunks ((b.flows.filter fun q => q.2.fields.port == n.val).map Prod.fst)) s

/-- The kinds of frame the Steward answers, by the code of their answer. -/
def ethAnswer : EthKind → Option Nat
  | .arp => some 1
  | .neighborDiscovery => some 2
  | .icmpEcho => some 3
  | .ptp => none
  | .ipFragment => none
  | .badChecksum => none
  | .pause => none
  | .other => none

/-- ETH_FRAME (R424, R426); a frame beyond 9,216 bytes, the FCS included, is dropped as any other. -/
def execEthFrame (n : Fin 48) (kind : EthKind) (bytes : List Byte) (s : State) : Host.Outcome State Fault Refusal :=
  onBlock (fun b =>
    if !b.portEth n || !b.portUp n then b
    else match (if bytes.length ≤ 9216 then ethAnswer kind else none) with
      | some k => b.emit (.ethernet n k bytes)
      | none => if 9216 < bytes.length || kind == .other || kind == .ipFragment then b.add64 (portPage n) 0x090 1 else b) s

/-- PTP_MESSAGE (R430): `offsetPpb` is the slewing by which the Steward's clock follows the grandmaster. -/
def execPtpMessage (n : Fin 48) (offsetPpb : Int) (s : State) : Host.Outcome State Fault Refusal :=
  onBlock (fun b => if b.portEth n && b.portUp n then b.setSlew offsetPpb else b) s

end Sys2Proof.Machine
end

