-- ==== Sys2Proof/Machine/Sessions.lean ====
section
/-!
DEFINITION. Keys of hop links and end-to-end sessions (R422, R433 to R436, R547 to R550): handshakes, limits, grace windows,
envelopes; the flow table and the inbound windows as the mailbox sets them (R420, R428, R429).
-/

namespace Sys2Proof.Machine

def hawPage : Nat := pageOf .hawthorn 0

/-- Hawthorn in RUN; its entropy source sound (R552, R563). -/
def Block.hawRuns (b : Block) : Bool := b.fld hawPage 0x040 0 2 == 1
def Block.entropyOk (b : Block) : Bool := bitOf (b.regN hawPage 0x040) 4

/-- `n` words of the random generator (R552). -/
def Block.drawRandom (b : Block) (n : Nat) : Block × List DWord :=
  let h := b.haw
  ({ b with haw := { h with drbg := h.drbg + n, sinceSeed := h.sinceSeed + 1 } },
   (List.range n).map fun i => Config.drbg (h.drbg + i))

/-- Random bytes, eight to a word. -/
def Block.drawBytes (b : Block) (n : Nat) : Block × List Byte :=
  let r := b.drawRandom n
  (r.1, r.2.flatMap fun w => toBytes 8 w.toNat)

/-! The keys of a link or session. -/

def Block.keysOf (b : Block) (o : KeyOwner) : Keys :=
  match o with
  | .hop n => (b.port n).keys
  | .e2e i => b.session i

def Block.setKeys (b : Block) (o : KeyOwner) (k : Keys) : Block :=
  match o with
  | .hop n => (b.setPort n { b.port n with keys := k }).showHop n
  | .e2e i => b.setSession i k

/-- GRACE_MS and log₂ GRACE_FRAMES (R437, R438). -/
def Block.graceOf (b : Block) (o : KeyOwner) : Nat × Nat :=
  match o with
  | .hop n => (b.fld (portPage n) 0x0B4 0 16, b.fld (portPage n) 0x0B4 16 5)
  | .e2e _ => (b.graceMs, b.graceLog)

/-- The code by which a handshake names its link or session to the outside. -/
def ownerCode : KeyOwner → Nat
  | .hop n => n
  | .e2e i => 256 + i

/-- The label of R548: "ROPAURN-HOP" or "SIORI-E2E". -/
def ownerLabel : KeyOwner → List Byte
  | .hop _ => [0x52#8, 0x4F#8, 0x50#8, 0x41#8, 0x55#8, 0x52#8, 0x4E#8, 0x2D#8, 0x48#8, 0x4F#8, 0x50#8]
  | .e2e _ => [0x53#8, 0x49#8, 0x4F#8, 0x52#8, 0x49#8, 0x2D#8, 0x45#8, 0x32#8, 0x45#8]

/-- The leaf and counterpart of an end-to-end session. -/
def Block.sessionPartner (b : Block) (i : Nat) : Option (Nat × Partner) :=
  (List.range 64).findSome? fun p =>
    if b.bound p then ((b.partnersOf p).find? fun q => q.session == i).map fun q => (p, q) else none

/-- Whether a link or session can carry a handshake: keying or up, or a counterpart and a flow that can send. -/
def Block.ownerLive (b : Block) (o : KeyOwner) : Bool :=
  match o with
  | .hop n => b.portEnc n && !b.portEth n && (b.portState n == 2 || b.portState n == 3)
  | .e2e i => (b.sessionPartner i).isSome && b.sessionUp i

/-- Whether Hawthorn may start or answer a handshake (R544, R552). -/
def Block.mayShake (b : Block) (o : KeyOwner) : Bool := b.hawRuns && b.entropyOk && !b.debugOpen && b.ownerLive o

/-! Handshakes (R547, R548). -/

/-- The bytes of INIT and RESP that their signature covers. -/
def keyMsgBody (ktype epoch : Nat) (fresh : Bool) (id : Nat) (random kem pub : List Byte) : List Byte :=
  toBytes 4 (ktype % 256 + epoch % 256 * 2 ^ 8 + b2n fresh * 2 ^ 16) ++ toBytes 4 id ++ padTo 32 random ++ padTo 1568 kem ++ padTo 1800 pub

/-- A whole INIT or RESP. -/
def keyMsgBytes (m : KeyMsg) : List Byte :=
  keyMsgBody m.ktype m.newEpoch m.fresh m.sessionId m.random m.kem m.pubKey ++ padTo 1280 m.signature

/-- The datagram of an end-to-end handshake message: a KEY envelope, its COUNTER and tag zero, its body not encrypted (R432, R549). The
spec names no KEY_EPOCH for it and no flow: DESIGN CHOICE (log 200), NEW_EPOCH and the session's first flow that can send. -/
def Block.keyDatagram (b : Block) (i epoch : Nat) (bytes : List Byte) : List Byte :=
  match b.sessionPartner i, b.flowOf i with
  | some (_, q), some k => ipPacket (b.flow k).fields q.udp q.addr (envHead 3 epoch (b.session i).idOut 0 ++ bytes ++ List.replicate 16 0)
  | _, _ => []

/-- Sends a handshake message: to a hop link's partner in CONTROL flits (R550), to a counterpart as a datagram. -/
def Block.shake (b : Block) (o : KeyOwner) (ktype epoch : Nat) (bytes : List Byte) : Block :=
  b.emit (.handshake ktype [ownerCode o, epoch] (match o with
    | .hop _ => bytes
    | .e2e i => b.keyDatagram i epoch bytes))

/-- HANDSHAKE_FAIL. -/
def Block.shakeFails (b : Block) (o : KeyOwner) : Block := (b.add64 hawPage 0x070 1).raise hawPage 3 none (ownerCode o)

/-- Starts a handshake as the initiator. -/
def Block.initiate (b : Block) (nv : NonVolatile) (o : KeyOwner) (epoch : Nat) (fresh : Bool) : Block :=
  let id := (Config.freeValue b.free).toNat % 2 ^ 32
  let b := b.tick
  let (b, random) := b.drawBytes 4
  let (b, seed) := b.drawBytes 8
  let body := keyMsgBody 1 epoch fresh id random (Config.kemKey seed) (Config.falconKey (devIdSeed nv))
  let init := body ++ padTo 1280 (Config.falconSign (devIdSeed nv) body)
  let k := { b.keysOf o with busy := true, mine := true, fresh := fresh, newEpoch := epoch, init := init, resp := [], seed := seed,
                             expect := [], sentAt := b.now, idIn := id, ready := none }
  (b.setKeys o k).shake o 1 epoch init

/-- The keys of a handshake (R548, step 4): from initiator to responder, back, and the transcript hash. -/
def shakeKeys (o : KeyOwner) (init resp ss : List Byte) : List Byte × List Byte :=
  let th := Config.shake256 (init ++ resp) 32
  (Config.shake256 (ss ++ th ++ ownerLabel o) 72, th)

def confirmOf (k th : List Byte) (r : Byte) : List Byte := Config.shake256 (k ++ th ++ [r]) 32

/-- Installs the keys of a handshake and sends CONFIRM (R548, step 5). A fresh handshake discards the earlier keys. -/
def Block.install (b : Block) (o : KeyOwner) (kv th : List Byte) (initiator : Bool) : Block :=
  let k := b.keysOf o
  let i2r : KeyDir := ⟨k.newEpoch, kv.take 32, (kv.drop 64).take 4, 0, none⟩
  let r2i : KeyDir := ⟨k.newEpoch, (kv.drop 32).take 32, (kv.drop 68).take 4, 0, none⟩
  let (mineDir, theirs) := if initiator then (i2r, r2i) else (r2i, i2r)
  let k := if k.fresh then { k with send := none, prevSend := none, recv := none, prevRecv := none, ownEnd := none } else k
  let k := { k with ready := some mineDir, prevRecv := k.recv, recv := some theirs, graceEnd := none,
                    expect := confirmOf kv th (if initiator then 2 else 1) }
  (b.setKeys o k).shake o 3 k.newEpoch (confirmOf kv th (if initiator then 1 else 2))

/-- Whether the sender of a handshake message is a peer to accept (R549, R550). -/
def Block.peerKnown (b : Block) (o : KeyOwner) (pub : List Byte) : Bool :=
  let hash := Config.shake256 (padTo 1793 pub) 32
  match o with
  | .hop n => (b.port n).fabric.contains hash
  | .e2e i => match b.sessionPartner i with
    | some q => q.2.keyHash == hash
    | none => false

/-- Whether an INIT that meets our own for the same epoch stands: from the lower SITE_ID; of a hop link, whose partner's identifier the
module does not hold, a value the spec leaves open. -/
def Block.theirInitStands (b : Block) (o : KeyOwner) : Bool :=
  match o with
  | .hop _ => (Config.freeValue b.free).getLsbD 0
  | .e2e i => match b.sessionPartner i with
    | some q => q.2.site < (b.desc q.1).site
    | none => false

/-- The responder's part (R548, step 2). -/
def Block.respond (b : Block) (nv : NonVolatile) (o : KeyOwner) (m : KeyMsg) : Block :=
  let init := keyMsgBytes m
  let id := (Config.freeValue b.free).toNat % 2 ^ 32
  let b := b.tick
  let (b, random) := b.drawBytes 4
  let (b, seed) := b.drawBytes 4
  let (ct, ss) := Config.kemEncaps m.kem seed
  let body := keyMsgBody 2 m.newEpoch m.fresh id random ct (Config.falconKey (devIdSeed nv))
  let resp := body ++ padTo 1280 (Config.falconSign (devIdSeed nv) (body ++ init))
  let (kv, th) := shakeKeys o init resp ss
  let k := { b.keysOf o with busy := true, mine := false, fresh := m.fresh, newEpoch := m.newEpoch, init := init, resp := resp,
                             sentAt := b.now, idIn := id, idOut := m.sessionId }
  ((b.setKeys o k).shake o 2 m.newEpoch resp).install o kv th false

/-- HANDSHAKE_INIT. -/
def execHandshakeInit (o : KeyOwner) (m : KeyMsg) (s : State) : Host.Outcome State Fault Refusal :=
  onBoth (fun nv b => (nv,
    let k := b.keysOf o
    if m.ktype != 1 || !b.mayShake o then b
    else if k.init == keyMsgBytes m && !k.mine && !k.resp.isEmpty then b.shake o 2 k.newEpoch k.resp
    else if !Config.falconVerify m.pubKey (keyMsgBody 1 m.newEpoch m.fresh m.sessionId m.random m.kem m.pubKey) m.signature ||
        !b.peerKnown o m.pubKey then b.shakeFails o
    else
      let next := match k.recv with
        | some d => m.newEpoch == (d.epoch + 1) % 256
        | none => false
      if !(m.fresh || next) then b
      else if k.busy && k.mine && k.newEpoch == m.newEpoch && !b.theirInitStands o then b
      else b.respond nv o m)) s

/-- HANDSHAKE_RESP (R548, step 3). -/
def execHandshakeResp (o : KeyOwner) (m : KeyMsg) (s : State) : Host.Outcome State Fault Refusal :=
  onBlock (fun b =>
    let k := b.keysOf o
    if m.ktype != 2 || !k.busy || !k.mine || !k.resp.isEmpty || m.newEpoch != k.newEpoch || !b.mayShake o then b
    else
      let body := keyMsgBody 2 m.newEpoch m.fresh m.sessionId m.random m.kem m.pubKey
      if !Config.falconVerify m.pubKey (body ++ k.init) m.signature || !b.peerKnown o m.pubKey then b.shakeFails o
      else
        let resp := keyMsgBytes m
        let (kv, th) := shakeKeys o k.init resp (Config.kemDecaps k.seed m.kem)
        (b.setKeys o { k with resp := resp, idOut := m.sessionId }).install o kv th true) s

/-- The wait at a key limit ends (R433). -/
def Block.endKeyWait (b : Block) (o : KeyOwner) : Block :=
  let k := b.keysOf o
  match k.waitSince, o with
  | some t, .e2e _ => (b.add64 coachPage 0x088 ((b.now - t) / 1000000)).setKeys o { k with waitSince := none }
  | some _, .hop _ => b.setKeys o { k with waitSince := none }
  | none, _ => b

/-- What waited for a key goes out. -/
def Block.flushOwner (b : Block) (o : KeyOwner) : Block :=
  match o with
  | .hop n => (b.raise (portPage n) 4).pump n
  | .e2e i => b.flushMail i

/-- HANDSHAKE_CONFIRM (R548, step 6): `random` holds the confirmation value. While the debug port is unlocked no new epoch starts (R544). -/
def execHandshakeConfirm (o : KeyOwner) (m : KeyMsg) (s : State) : Host.Outcome State Fault Refusal :=
  onBlock (fun b =>
    let k := b.keysOf o
    match k.ready with
    | none => b
    | some d =>
      if m.ktype != 3 || m.newEpoch != k.newEpoch || b.debugOpen then b
      else if m.random != k.expect then b.shakeFails o
      else
        let k := { k with send := some d, ready := none, prevSend := k.send, ownEnd := none, ownLeft := 0, busy := false, fresh := false,
                          expect := [], seed := [] }
        (((b.setKeys o k).add64 hawPage 0x068 1).endKeyWait o).flushOwner o) s

/-- HANDSHAKE_RETRY. -/
def execHandshakeRetry (o : KeyOwner) (s : State) : Host.Outcome State Fault Refusal :=
  onBlock (fun b =>
    let k := b.keysOf o
    if !k.busy || !k.mine || !k.resp.isEmpty || b.now < k.sentAt + 250000000 || !b.ownerLive o then b
    else (b.setKeys o { k with sentAt := b.now }).shake o 1 k.newEpoch k.init) s

/-- A rekeying at its threshold (R433), or a first handshake. -/
def Block.rekey (b : Block) (nv : NonVolatile) (o : KeyOwner) (first : Bool) : Block :=
  let k := b.keysOf o
  if k.busy || k.ready.isSome || !b.mayShake o then b
  else match k.send with
    | none => if first then b.initiate nv o 0 true else b
    | some d => if d.ageing b.now then b.initiate nv o ((d.epoch + 1) % 256) false else b

/-- HOP_REKEY: at the threshold; during KEYING the handshake that the side with the lower MODULE_ID initiates (R550). -/
def execHopRekey (n : Fin 48) (s : State) : Host.Outcome State Fault Refusal :=
  onBoth (fun nv b => (nv, b.rekey nv (.hop n) (b.portState n == 2))) s

/-- REKEYING: at the threshold; the first handshake of a session, or one after its keys were discarded (R549). -/
def execRekeying (session : Nat) (s : State) : Host.Outcome State Fault Refusal :=
  onBoth (fun nv b => (nv, b.rekey nv (.e2e session) (b.session session).fresh)) s

/-- KEY_WAIT (R433): the wait is counted in milliseconds, and the event raised as it begins. -/
def execKeyWait (o : KeyOwner) (s : State) : Host.Outcome State Fault Refusal :=
  onBlock (fun b =>
    let k := b.keysOf o
    let spent := match k.send with
      | some d => d.spent b.now
      | none => false
    if !spent then b
    else match k.waitSince, o with
      | none, .hop n => (b.setKeys o { k with waitSince := some b.now }).raise (portPage n) 5
      | none, .e2e _ => b.setKeys o { k with waitSince := some b.now }
      | some t, .e2e _ =>
        let ms := (b.now - t) / 1000000
        (b.add64 coachPage 0x088 ms).setKeys o { k with waitSince := some (t + ms * 1000000) }
      | some _, .hop _ => b) s

/-- GRACE_CLOSE (R434). -/
def execGraceClose (o : KeyOwner) (s : State) : Host.Outcome State Fault Refusal :=
  onBlock (fun b =>
    let k := b.keysOf o
    match k.graceEnd with
    | none => b
    | some t =>
      if t ≤ b.now || k.graceLeft = 0 then b.setKeys o { k with prevRecv := none, graceEnd := none, graceLeft := 0 } else b) s

/-! Envelopes (R432, R434, R436). -/

/-- Sends STALE_EPOCH for a refused envelope. -/
def Block.sendStale (b : Block) (i : Nat) (epoch ctr : Nat) : Block :=
  match b.useKey i 1 with
  | none => b
  | some (b, e, c) =>
    let far := (b.sessionPartner i).map fun q => (q.1, q.2.site)
    (b.add64 coachPage 0x070 1).envelope ⟨(far.getD (0, 0)).1, (far.getD (0, 0)).2, i, 0, 0, [epoch, ctr], [], 16⟩ e c

/-- ENVELOPE: the message it carries comes as a command of its own. -/
def execEnvelope (n : Fin 48) (e : Envelope) (s : State) : Host.Outcome State Fault Refusal :=
  onBlock (fun b =>
    if !b.portEth n || !b.portUp n || e.rsv != 0 || (e.etype != 1 && e.etype != 2) then b
    else match b.sessions.find? fun q => q.2.idIn == e.sessionId && q.2.recv.isSome with
      | none => b.add64 coachPage 0x068 1
      | some (i, k) =>
        match k.forEpoch b.now e.epoch with
        | some d =>
          match Config.gcmOpen d.key (nonceOf d e.counter) (envHead e.etype e.epoch e.sessionId e.counter) e.body e.tag with
          | none => b.add64 coachPage 0x068 1
          | some _ => b.setSession i (k.tookUse b.now e.epoch b.graceMs b.graceLog)
        | none =>
          let current := match k.recv with
            | some d => d.epoch
            | none => 0
          let ahead := (e.epoch + 256 - current % 256) % 256
          if 1 ≤ ahead && ahead < 128 then b.add64 coachPage 0x080 1 else b.sendStale i e.epoch e.counter) s

/-- A chunk of a shard encrypted afresh and sent again (R436). -/
def Block.freshChunk (b : Block) (p session : Nat) (c : SentChunk) : Block :=
  let r := b.round p
  let (b, wire) := b.chunkWire p r c.seg
  match b.partnerAt p (b.leaderOf p r), b.useKey session (fragments 8192 wire).length with
  | some q, some (b, epoch, ctr) =>
    let new : SentChunk := ⟨c.seg, epoch, ctr, c.flow, b.now, false, false⟩
    let b := (b.stopChunk p c.seg).setShard p { b.shard p with sent := (b.shard p).sent.map fun d => if d.seg = c.seg then new else d }
    let b := b.sendFragments p q.site session r c.seg c.flow epoch ctr wire
    (b.add64 coachPage 0x078 1).add64 (partPage p) 0x318 1
  | _, _ => b

/-- STALE_EPOCH. -/
def execStaleEpoch (session : Nat) (epoch counter : Nat) (s : State) : Host.Outcome State Fault Refusal :=
  onBlock (fun b =>
    match b.sessionPartner session with
    | none => b
    | some (p, q) =>
      let d := b.desc p
      let count (c : SentChunk) : Nat := ceilDiv (544 * d.segLen c.seg) 8192
      if b.exchState p != 3 || (b.shard p).stopped || q.site != b.leaderOf p (b.round p) then b
      else match (b.shard p).sent.find? fun c =>
          !c.acked && c.epoch == epoch && c.counter ≤ counter && counter < c.counter + count c with
        | none => b
        | some c => b.freshChunk p session c) s

/-! Flows and windows by mailbox (R420, R428, R429, R523). -/

/-- Whether a flow's fields have no reserved encoding. -/
def flowFormed (f : FlowFields) : Bool :=
  f.session < 256 && f.port < 48 && f.dscp < 64 && f.label < 2 ^ 20 && 1 ≤ f.rate && f.rate ≤ 400000 && 9216 ≤ f.burst &&
    f.burst < 2 ^ 20 && f.hopLimit < 256

/-- The flows in use of a session. -/
def Block.flowsOf (b : Block) (session : Nat) : Nat := (b.flows.filter fun q => q.2.used && q.2.fields.session == session).length

/-- FLOW_ADD. -/
def execFlowAdd (rq : Req) (i : Nat) (f : FlowFields) (s : State) : Host.Outcome State Fault Refusal :=
  onBlock (fun b =>
    if rq.by_ != .pf then b.reply rq 0x50 0x02 [0]
    else if 4096 ≤ i || !flowFormed f then b.reply rq 0x50 0x01 [0]
    else if (b.flow i).used || 64 ≤ b.flowsOf f.session || !b.portEth f.port then b.reply rq 0x50 0x04 [0]
    else (b.setFlow i ⟨f, true, 8000 * f.burst, b.now, []⟩).reply rq 0x50 0 [0]) s

/-- FLOW_RATE. -/
def execFlowRate (rq : Req) (i : Nat) (rate : Nat) (s : State) : Host.Outcome State Fault Refusal :=
  onBlock (fun b =>
    let f := b.flow i
    if rq.by_ != .pf then b.reply rq 0x51 0x02 [0]
    else if 4096 ≤ i || rate = 0 || 400000 < rate then b.reply rq 0x51 0x01 [0]
    else if !f.used then b.reply rq 0x51 0x04 [0]
    else (b.setFlow i { f.refill b.now with fields := { f.fields with rate := rate } }).reply rq 0x51 0 [0]) s

/-- FLOW_WITHDRAW. -/
def execFlowWithdraw (rq : Req) (i : Nat) (s : State) : Host.Outcome State Fault Refusal :=
  onBlock (fun b =>
    if rq.by_ != .pf then b.reply rq 0x52 0x02 [0]
    else if 4096 ≤ i then b.reply rq 0x52 0x01 [0]
    else if !(b.flow i).used then b.reply rq 0x52 0x04 [0]
    else ((b.setFlow i { b.flow i with used := false }).moveChunks [i]).reply rq 0x52 0 [0]) s

/-- Whether a command comes from the function of a leaf (R502, R522). -/
def Block.fnOfLeaf (b : Block) (by_ : Agent) (p : Nat) : Bool :=
  match by_ with
  | .vf v => (b.part (b.part p).top).vf == some v.val
  | .pf => true
  | _ => false

/-- Whether a window's fields have no reserved encoding. -/
def windowFormed (f : WindowFields) : Bool :=
  f.base < 2 ^ 48 && f.base % 4096 == 0 && f.len < 2 ^ 64 && f.len % 4096 == 0 && f.ctrl < 2 ^ 17 && f.src < 2 ^ 24 && f.mask < 2 ^ 24

/-- WINDOW_SET. -/
def execWindowSet (rq : Req) (p : Fin 64) (w : Nat) (f : WindowFields) (s : State) : Host.Outcome State Fault Refusal :=
  onBlock (fun b =>
    if !(b.part p).present || !(b.part p).leaf || 16 ≤ w || !windowFormed f then b.reply rq 0x53 0x01 [0]
    else if !b.fnOfLeaf rq.by_ p then b.reply rq 0x53 0x02 [0]
    else if b.resetting p then b.reply rq 0x53 0x04 [0]
    else
      let off := 0x400 + 0x20 * w
      let page := partPage p
      let b := (b.set64 page off f.base).set64 page (off + 8) f.len
      (((b.setN page (off + 0x10) f.ctrl).setN page (off + 0x14) f.src).setN page (off + 0x18) f.mask).reply rq 0x53 0 [0]) s

end Sys2Proof.Machine
end

