-- ==== Sys2Proof/Machine/Recovery.lean ====
section
/-!
DEFINITION. Recoveries of chapter 13: missed bounds, re-laid work, field faults, the keeper's duty, rebuilds of a leaf and of one
deep channel.
-/

namespace Sys2Proof.Machine

/-! Bounds and re-laid work (R442, R444, R446, R471). -/

/-- BOUND_MISSED. -/
def execBoundMissed (d : Domain) (s : State) : Host.Outcome State Fault Refusal :=
  onBlock (fun b =>
    let missed := b.recs.any fun (r : Recovery) => r.domain == d && match r.deadline with
      | some t => decide (t ≤ b.now)
      | none => false
    if missed then
      ((b.raise recPage 2 none (domainCode d) 0 (b.affected d)).add64 recPage 0x078 1).escalateTo (enclosing d)
    else b) s

/-- Whether the runtime's report ends a domain's recovery. -/
def relaidDomain : Domain → Bool
  | .array _ => true
  | .field _ => true
  | .nearmc _ => true
  | _ => false

/-- REC_RELAID. The leaves whose work was re-laid no longer stand in SHORTFALL for it (R485); a
lender's context saved for an array that was retired while lent goes (R494). -/
def execRecRelaid (rq : Req) (d : Domain) (s : State) : Host.Outcome State Fault Refusal :=
  onBlock (fun b =>
    if rq.by_ != .pf then b.reply rq 0x44 0x02 [0]
    else if !relaidDomain d || !b.recOpen d then b.reply rq 0x44 0x04 [0]
    else
      let b := b.each (b.affected d) fun b p => b.setFld (partPage p) 0x0C4 2 1 0
      let b := match d with
        | .array a => b.ifSo (b.retired a) fun b => b.setImage (lenderKey a) CtxImage.none
        | _ => b
      (b.closeRec d).reply rq 0x44 0 [0]) s

/-! A field fault (R450, R451). -/

/-- Whether an image key names an image in the yard of field `f`. -/
def keyInYard (f key : Nat) : Bool :=
  let lo := (regionBase .yard + f * yardSize) / 4096
  if 2 ^ 41 ≤ key then (key - 2 ^ 41) / 32 % 4 == f
  else if 2 ^ 40 ≤ key then (key - 2 ^ 40) / 32 == f
  else decide (lo ≤ key) && decide (key < lo + yardSize / 4096)

/-- Whether an engine belongs to field `f`, a parked carriage's image among them. -/
def engineInField (f e : Nat) : Bool :=
  if e < 128 then e / 32 == f
  else if e < 256 then (e - 128) / 32 == f
  else if e < 320 then (e - 256) / 16 == f
  else if e < 328 then (e - 320) / 2 == f
  else if 2 ^ 20 ≤ e then keyInYard f ((e - 2 ^ 20) / 2)
  else false

/-- FIELD_FAULT: `pass` tells whether yard and network pass the field's test, `failing` the arrays that fail it. -/
def execFieldFault (f : Fin 4) (pass : Bool) (failing : List (Fin 32)) (s : State) : Host.Outcome State Fault Refusal :=
  onBoth (fun nv b =>
    let arrays := (List.range 32).map (32 * f.val + ·)
    let testing (v : Nat) (b : Block) : Block := b.each arrays fun b a => b.setFld (arrayPage a) 0x00C 0 1 v
    let b := testing 1 (b.openRec (.field f))
    let b := b.faultFlights fun q => engineInField f q.engine
    let b := b.zero (regionBase .yard + f.val * yardSize) (regionBase .yard + (f.val + 1) * yardSize)
    let b := b.zero (regionBase .bay + 32 * f.val * baySize) (regionBase .bay + 32 * (f.val + 1) * baySize)
    let b := { b with
      images := b.images.filter fun q => !keyInYard f q.1 }
    let b := testing 0 b
    let bad := arrays.filter fun a => !pass || failing.any fun i => 32 * f.val + i.val == a
    let good := arrays.filter fun a => !bad.contains a && !b.retired a
    let b := b.each bad Block.retireArray
    let b := b.each good fun b a => (b.setArr a { b.arr a with stopped := false }).giveBack a
    ({ nv with retired := nv.retired ||| BitVec.ofNat 128 (bad.map (2 ^ ·)).sum }, b)) s

/-! Keeper duty (R457, R463). -/

def Block.setKeep (b : Block) (p : Nat) (k : KeepRun) : Block := b.setRun p { b.run p with keep := k }
def Block.exports (b : Block) (p : Nat) : Bool := b.fld (partPage p) 0x600 0 1 == 1
def Block.keeps (b : Block) (p : Nat) : Bool := b.fld (partPage p) 0x600 1 1 == 1

/-- The messages of recovery (R463, R465): SHADOW_ACK, the heartbeat, REBUILD_REQ. -/
def msgShadowAck : Nat := 6
def msgBeat : Nat := 7
def msgRebuildReq : Nat := 8

/-- SHADOW_ARRIVAL: the keeper's port reports a generation, whole or with a gap. -/
def execShadowArrival (p : Fin 64) (generation : Word) (gap : Bool) (s : State) : Host.Outcome State Fault Refusal :=
  onBlock (fun b =>
    if !b.keeps p then b
    else
      let k := (b.run p).keep
      let b := b.setKeep p { k with keptHeard := b.now, keptGone := false }
      if gap then b.raise recPage 8 (some p.val) generation.toNat
      else
        let b := b.setReg (partPage p) 0x63C generation
        b.emit (.queueMsg msgShadowAck (b.fld (partPage p) 0x608 0 30) [generation.toNat])) s

/-- SHADOW_ACK. -/
def execShadowAck (p : Fin 64) (generation : Word) (s : State) : Host.Outcome State Fault Refusal :=
  onBlock (fun b =>
    let b := b.takeQueue 2
    if !b.exports p then b
    else (b.setReg (partPage p) 0x638 generation).setKeep p { (b.run p).keep with keeperHeard := b.now }) s

/-- SHADOW_HEARTBEAT: a beat of the keeper or of the kept neighbour comes, and the leaf's own goes to that side (DESIGN CHOICE: R463
gives both sides a beat each 100 ms, and the table has one command for it). -/
def execShadowHeartbeat (p : Fin 64) (fromKeeper : Bool) (s : State) : Host.Outcome State Fault Refusal :=
  onBlock (fun b =>
    let b := b.takeQueue 2
    let k := (b.run p).keep
    if fromKeeper then
      if !b.exports p then b
      else (b.setKeep p { k with keeperHeard := b.now }).emit (.queueMsg msgBeat (b.fld (partPage p) 0x604 0 30) [])
    else if !b.keeps p then b
    else (b.setKeep p { k with keptHeard := b.now, keptGone := false }).emit
      (.queueMsg msgBeat (b.fld (partPage p) 0x608 0 30) [])) s

/-- MODULE_LOST: nothing from the kept neighbour for 1 s. -/
def execModuleLost (p : Fin 64) (s : State) : Host.Outcome State Fault Refusal :=
  onBlock (fun b =>
    let k := (b.run p).keep
    if b.keeps p && !k.keptGone && decide (k.keptHeard + 1000000000 ≤ b.now) then
      (b.setKeep p { k with keptGone := true }).raise recPage 3 (some p.val) (b.fld (partPage p) 0x608 0 30)
    else b) s

/-- KEEPER_LOST: nothing from the keeper for 1 s; the sender stops until a keeper is named again. -/
def execKeeperLost (p : Fin 64) (s : State) : Host.Outcome State Fault Refusal :=
  onBlock (fun b =>
    let k := (b.run p).keep
    if b.exports p && !k.keeperGone && decide (k.keeperHeard + 1000000000 ≤ b.now) then
      (b.setKeep p { k with keeperGone := true }).raise recPage 4 (some p.val) (b.fld (partPage p) 0x604 0 30)
    else b) s

/-- Whether the arguments of KEEPER_SET have no reserved encoding. -/
def keeperFormed (k : KeeperArgs) : Bool :=
  k.keeperMod < 2 ^ 30 && k.keptMod < 2 ^ 30 && k.keeperArea < 2 ^ 48 && k.keptArea < 2 ^ 48 && k.shadowBase < 2 ^ 48 &&
    k.shadowBase % 64 == 0 && k.g0 < 2 ^ 36 && k.nblk < 2 ^ 27 && 1 ≤ k.momPeriod && k.momPeriod ≤ 64 &&
    (!k.keepEn || k.keptArea % 4096 == 0)

/-- The bytes of a keeper area of `n` blocks (R459). -/
def keeperBytes (n : Nat) : Nat := 64 + n * 3184

/-- The keeper's inbound window, which admits WRITE frames of the kept neighbour only: the leaf's last window (DESIGN CHOICE). -/
def Block.keeperWindow (b : Block) (p : Nat) (k : KeeperArgs) : Block :=
  let off := 0x400 + 0x20 * 15
  let page := partPage p
  let b := (b.set64 page off k.keptArea).set64 page (off + 8) (ceilDiv (keeperBytes k.nblk) 4096 * 4096)
  ((b.setN page (off + 0x10) (2 ^ 15)).setN page (off + 0x14) (k.keptMod % 2 ^ 24)).setN page (off + 0x18) (2 ^ 24 - 1)

/-- KEEPER_SET. -/
def execKeeperSet (rq : Req) (p : Fin 64) (k : KeeperArgs) (s : State) : Host.Outcome State Fault Refusal :=
  onBlock (fun b =>
    let page := partPage p
    if rq.by_ != .pf then b.reply rq 0x43 0x02 [0]
    else if !(b.part p).present || !(b.part p).leaf || !keeperFormed k then b.reply rq 0x43 0x01 [0]
    else if b.resetting p then b.reply rq 0x43 0x04 [0]
    else
      let b := if k.keepEn then b.keeperWindow p k
        else if b.keeps p then b.set64 page (0x408 + 0x20 * 15) 0 else b
      let b := b.setN page 0x600 (b2n k.shadowEn + 2 * b2n k.keepEn + (k.momPeriod - 1) * 2 ^ 8)
      let b := (b.setN page 0x604 k.keeperMod).setN page 0x608 k.keptMod
      let b := ((b.set64 page 0x610 k.shadowBase).set64 page 0x618 k.keeperArea).set64 page 0x620 k.keptArea
      let b := (b.set64 page 0x628 k.g0).setN page 0x630 k.nblk
      (b.setKeep p ⟨b.now, b.now, false, false⟩).reply rq 0x43 0 [0]) s

/-! Rebuilds (R443, R465 to R468). -/

/-- The bound of a rebuild of `n` blocks in nanoseconds, from the rates in bytes per second (R443). -/
def rebuildBound (n keeperRate partnerRate : Nat) : Nat :=
  if n * 1024 ≤ 96000000000 ∧ 100080000000 ≤ keeperRate ∧ 40000000000 ≤ partnerRate then 15000000000
  else 5380000000 + max (ceilDiv (keeperBytes n * 1000000000) (max 1 keeperRate))
    (ceilDiv (n * 4096 * 1000000000) (max 1 partnerRate))

/-- Binds a leaf for a rebuild; false where the descriptor is not good (R370). -/
def Block.bindRebuild (b : Block) (p addr : Nat) : Block × Bool :=
  match b.readV ⟨p, none⟩ addr 256 with
  | (b, .fault _) => (b, false)
  | (b, .ok bs) =>
    let w : BitVec 2048 := BitVec.ofNat 2048 (ofBytes (raw bs))
    if anyMark bs || !descClean w || !b.descInGrant p (descOf w) then (b, false)
    else match b.readPartners p (descOf w).partners with
      | (b, none) => (b, false)
      | (b, some ps) => ((b.setShard p { Shard.none with desc := w, partners := ps }).askSessions p, true)

/-- The first partner of a leaf's shard that a session reaches. -/
def Block.reachable (b : Block) (p : Nat) : Option Partner := (b.partnersOf p).find? fun q => b.sessionUp q.session

/-- REBUILD: the keeper is asked for its area, the partners for the latest manifest. -/
def execRebuild (rq : Req) (p : Fin 64) (desc staging keeper keeperRate partnerRate : Nat) (s : State) :
    Host.Outcome State Fault Refusal :=
  onBlock (fun b0 =>
    if rq.by_ != .pf then b0.reply rq 0x42 0x02 [0]
    else if !(b0.grant p).loaded || b0.exchState p != 0 || b0.resetting p then b0.reply rq 0x42 0x04 [0]
    else if 2 ^ 30 ≤ keeper then b0.reply rq 0x42 0x01 [0]
    else match b0.bindRebuild p desc with
      | (b, false) => b.reply rq 0x42 0x01 [0]
      | (b, true) =>
        let n := (b.desc p).nblk
        let bound := rebuildBound n keeperRate partnerRate
        let b := b.setRebuild p ⟨true, staging, keeper, none, List.range n, []⟩
        let b := (b.setFld recPage 0x050 0 24 (min (ceilDiv bound 1000000) (2 ^ 24 - 1))).add64 recPage 0x080 1
        let b := b.setProgress recPage 0 n
        let b := (b.ifSo (!b.recOpen Domain.deviceLost) fun b => b.addRec .deviceLost (some bound)).setExch p 11
        let b := b.emit (.queueMsg msgRebuildReq keeper [p])
        let b := match (b.reachable p).or ((b.partnersOf p)[0]?) with
          | none => b
          | some q => (b.setShard p { b.shard p with joining := some q.site }).askRecord p
        b.reply rq 0x42 0 [0]) s

/-- REBUILD_REQ: the keeper streams the area it holds, header first, to the neighbour; the frames name offsets in the area, since the
staging area is the replacement's. -/
def execRebuildReq (p : Fin 64) (s : State) : Host.Outcome State Fault Refusal :=
  onBlock (fun b =>
    let b := b.takeQueue 2
    if !b.keeps p then b
    else
      let page := partPage p
      let k := (b.run p).keep
      let b := b.setKeep p { k with keptHeard := b.now, keptGone := false }
      let base := b.reg64 page 0x620
      let dest := b.fld page 0x608 0 30
      let (b, head) := b.peekM p base 64
      let n := fieldOf (ofBytes (raw head)) 96 27
      let b := b.emit (.shadow dest 0 (n == 0) (anyMark head) (raw head))
      let len := keeperBytes n - 64
      b.each (List.range (ceilDiv len 8192)) fun b i =>
        let off := 64 + 8192 * i
        let m := min 8192 (64 + len - off)
        let (b, bs) := b.peekM p (base + off) m
        b.emit (.shadow dest off (off + m == 64 + len) (anyMark bs) (raw bs))) s

/-- The words of a part of a keeper record, 32 SD8 blocks; a block without a value gives zeros. -/
def shadowWords (bs : List Byte) : List Word :=
  (sdDecode 8 32 bs).flatMap fun q => match q with
    | .values vs => vs.map encF32
    | _ => List.replicate 32 0

/-- The record at an address of the staging area; none where it has not come: poisoned, or a tag of step 0. -/
def Block.stagedRecord (b : Block) (p addr len : Nat) : Block × Option (List Byte) :=
  let (b, bs) := b.peekM p addr len
  (b, if anyMark bs || ofBytes ((raw bs).take 4) = 0 then none else some (raw bs))

/-- A moment array's block from a moment record. -/
def Block.rebuildMoment (b : Block) (p base g conv : Nat) (bs : Option (List Byte)) : Block :=
  if base = 0 then b
  else
    let ws := match bs with
      | some bs => shadowWords bs
      | none => List.replicate 1024 0
    let (b, draw) := b.takeDraws p (256 + g % 32) (drawsOf conv 1024)
    let cs := toBf16 conv draw ws
    (b.countConv p 1 cs).poke p (pieceAddr base 2048 g) (bfBytes cs)

/-- What a rebuild writes of the block at offset `o` (R466). -/
def Block.rebuildOne (b : Block) (p o : Nat) (anchor : List Byte) : Block :=
  let d := b.desc p
  let g := d.g0 + o
  let x := b.rebuildOf p
  let conv := match (b.outerRule p).2 with
    | some r => r.conv
    | none => d.conv
  let (b, delta) := b.stagedRecord p (x.staging + 64 + o * 1064) 1064
  let (b, moment) := b.stagedRecord p (x.staging + 64 + d.nblk * 1064 + o * 2120) 2120
  let b := b.setRebuild p { x with
    left := x.left.filter (· != o),
    tags := storePut (fun _ => 0) x.tags o (match delta with
      | some bs => 1 + ofBytes (bs.take 4)
      | none => 0) }
  let aw := (unpackWords 2 (anchor.take 2048)).map bfWord
  let ws := match delta with
    | some bs => List.zipWith f32Add aw (shadowWords (bs.drop 8))
    | none => aw
  let b := (b.poke p (pieceAddr d.anchor 2048 g) (anchor.take 2048)).poke p (pieceAddr d.outerMom 2048 g) (anchor.drop 2048)
  let b := (b.countConv p 0 (masterConvs ws)).poke p (pieceAddr d.master 4096 g) (packWords 4 (ws.map (·.toNat)))
  let m := b.momBases p
  let b := b.rebuildMoment p m.1 g conv (moment.map fun bs => (bs.drop 8).take 1056)
  let b := b.rebuildMoment p m.2 g conv (moment.map fun bs => bs.drop 1064)
  let zeros (b : Block) (va n : Nat) : Block := b.poke p va (List.replicate n 0)
  let b := match (b.run p).accum with
    | some a => zeros b (pieceAddr a 4096 g) 4096
    | none => b
  let b := zeros (zeros b (d.residual + o * 1056) 1056) (d.prev + o * 1056) 1056
  let b := b.each (List.range d.slots) fun b r => zeros b (d.rds + r * d.nblk * 544 + o * 544) 544
  let b := { b with lost := b.lost.filter fun q => q != (p, g) }
  (b.rebaseCopies p o ws aw).countBlock (g % 32)

/-- Whether the leaf of a block admits the bytes that came: it is theirs, or it is itself lost with the channel. -/
def Block.leafAdmits (b : Block) (p o : Nat) (bs : List Byte) : Bool :=
  match (b.peekM p ((b.desc p).digestAt 0 o) 8).2 with
  | leaf => anyMark leaf || raw leaf == leafOf bs

/-- REBUILD_BLOCK: block g, whose anchor and outer momentum are `anchor` and whose records have come. -/
def execRebuildBlock (p : Fin 64) (g : Nat) (anchor : List Byte) (s : State) : Host.Outcome State Fault Refusal :=
  onBlock (fun b =>
    let x := b.rebuildOf p
    let d := b.desc p
    let o := g - d.g0
    let treed := x.channel.isSome || ((b.shard p).incoming.isSome && (b.shard p).wantNodes.isEmpty)
    if !x.active || !treed || g < d.g0 || !x.left.contains o || anchor.length != 4096 || !b.leafAdmits p o anchor then b
    else
      let b := b.rebuildOne p o anchor
      let b := b.setShard p { b.shard p with wantBlocks := (b.shard p).wantBlocks.filter (· != o) }
      let total := if x.channel.isSome then (List.range d.nblk).filter (fun i => (d.g0 + i) % 32 == g % 32) |>.length else d.nblk
      b.setProgress recPage (total - (b.rebuildOf p).left.length) total) s

/-- BLOCKS_BEHIND and what a rebuild loses (R466, R467). -/
def Block.countBehind (b : Block) (p step : Nat) (blocks : List Nat) : Block :=
  let x := b.rebuildOf p
  let behind := (blocks.filter fun o => storeGet (fun _ => 0) x.tags o < step + 1).length
  let b := (b.set64 (partPage p) 0x648 behind).ifSo (behind != 0) fun b => b.raise recPage 7 (some p) behind
  b.coachEvent p 7 (b.anchorRound p)

/-- Writes the stamps of blocks: the step and the anchor's round. -/
def Block.stampBlocks (b : Block) (p step round : Nat) (blocks : List Nat) : Block :=
  let d := b.desc p
  b.each blocks fun b o =>
    (b.poke p (pieceAddr d.stamp 4 (d.g0 + o)) (toBytes 4 step)).poke p (pieceAddr d.astamp 4 (d.g0 + o)) (toBytes 4 round)

/-- REBUILD_DONE. After the loss of one deep channel the whole digest tree is computed again (R468). -/
def execRebuildDone (p : Fin 64) (step round : Word) (s : State) : Host.Outcome State Fault Refusal :=
  onBlock (fun b =>
    let x := b.rebuildOf p
    let d := b.desc p
    if !x.active || !x.left.isEmpty then b
    else match x.channel, (b.shard p).incoming with
      | some k, _ =>
        let mine := (List.range d.nblk).filter fun o => (d.g0 + o) % 32 == k
        let b := (b.stampBlocks p (b.committed p) (b.anchorRound p) mine).countBehind p (b.committed p) mine
        let b := (b.each (List.range d.nblk) fun b o => b.setLeaf p o).setLevels p
        let b := (b.setRebuild p Rebuild.none).raise recPage 5 (some p.val)
        let others := b.rebuilds.any fun q => q.2.channel == some k
        if h : k < 32 then (if others then b else b.closeRec (.deepmc ⟨k, h⟩)) else b
      | none, some m =>
        if b.exchState p != 11 || m.round != round.toNat then b
        else
          let b := b.setReg (partPage p) 0x280 step
          let b := (b.stampBlocks p step.toNat m.round (List.range d.nblk)).countBehind p step.toNat (List.range d.nblk)
          let b := (b.setRebuild p Rebuild.none).endJoin p m
          let b := (b.setRun p { b.run p with rebuilt := true }).raise recPage 5 (some p.val)
          if b.rebuilds.any fun q => q.2.channel.isNone then b else b.closeRec .deviceLost
      | none, none => b) s

/-! A lost channel (R236, R237, R355, R455, R468). -/

/-- Spoils the drafts that hold a page with a block on a near-tier channel (R455). -/
def Block.spoilOnChannel (b : Block) (k : Nat) : Block :=
  b.each ((List.range 64).flatMap fun p => (List.range 16).map fun d => (p, d)) fun b q =>
    if (b.draft q.1 q.2).pages.any fun g => (List.range 16).any fun i => channelOf .near (g.2 + 4096 * i) == k
    then b.spoil q.1 q.2 .fault else b

/-- Asks the keeper, if the leaf has one, and the partners for what the rebuild of one deep channel needs. -/
def Block.askChannel (b : Block) (p : Nat) (mine : List Nat) : Block :=
  let b := b.setProgress recPage 0 mine.length
  let b := b.ifSo (b.exports p) fun b => b.emit (.queueMsg msgRebuildReq (b.fld (partPage p) 0x604 0 30) [p])
  let ps := (b.partnersOf p).filter fun q => b.sessionUp q.session
  b.each mine.zipIdx fun b q => match ps[q.2 % ps.length]? with
    | some t => b.askBlock p t.site q.1
    | none => b

/-- Starts the rebuild of a leaf's blocks on deep channel k. -/
def Block.rebuildChannel (b : Block) (p k : Nat) : Block :=
  let d := b.desc p
  let mine := (List.range d.nblk).filter fun o => (d.g0 + o) % 32 == k
  if mine.isEmpty then b
  else
    let b := b.setRebuild p ⟨true, Config.stagingOf p, b.fld (partPage p) 0x604 0 30, some k, mine, []⟩
    (b.add64 recPage 0x080 1).askChannel p mine

/-- A join or a rebuild that a reset has stopped starts again from its first step (R33, R396, R465). -/
def Block.restartJoin (b : Block) (p : Nat) : Block :=
  let w := b.rebuildOf p
  if !w.active then b.ifSo (b.exchState p == 11) fun b => b.askRecord p
  else match w.channel with
    | some _ => b.askChannel p w.left
    | none => ((b.setProgress recPage 0 w.left.length).emit (.queueMsg msgRebuildReq w.keeper [p])).askRecord p

/-- COACH_RECOVERY: entries of OUTER, adoption and rebase are restored (R354, R387); a rebase waits in CHOICE; a join or a rebuild starts
again. -/
def execCoachRecovery (p : Fin 64) (s : State) : Host.Outcome State Fault Refusal :=
  onBlock (fun b =>
    if !(b.shard p).recovering then b
    else
      let want (e : Entry) : Bool := e.part == p.val && (e.rule == 4 || e.rule == 0xE || e.rule == 0xF)
      let b := b.each (List.range 32) fun b k => b.recoverPruner p k want fun _ => false
      let b := b.setShard p { b.shard p with recovering := false }
      ((b.ifSo (b.exchState p == 9) fun b => b.setExch p 13).restartJoin p).endDevice.showPruners) s

/-- The recovery of deep channel k for every bound leaf; one that no partner reaches escalates to the replica group. -/
def Block.deepRecovery (b : Block) (k : Fin 32) : Block :=
  let bound := b.allLeaves.filter fun p => b.bound p
  if bound.any fun p => (b.reachable p).isNone then
    { b with recs := b.recs.filter fun (r : Recovery) => r.domain != Domain.deepmc k }.escalateTo .replicaGroup
  else
    let b := b.each bound fun b p => b.rebuildChannel p k
    if b.rebuilds.any fun q => q.2.channel == some k.val then b else b.closeRec (.deepmc k)

/-- POISON_FILL_DONE (R237): every granule of the channel is poisoned, the channel serves again; on a deep channel the unretired
journal entries are lost with it (R355, R468). -/
def execPoisonFillDone (t : Tier) (k : Fin 32) (s : State) : Host.Outcome State Fault Refusal :=
  onBlock (fun b =>
    if !(b.mc t k).filling then b
    else
      let b := b.each (List.range (chanGranules t)) fun b g => b.mark (chanAddr t k (64 * g) / 64) true
      let b := ((b.setMc t k { b.mc t k with filling := false }).setMcState t k 2).memRetry none
      if t = .near then b.spoilOnChannel k
      else
        let b := (b.each (b.openSeqs k) fun b q => b.loseEntry none k q).showPruner k
        b.deepRecovery k) s

end Sys2Proof.Machine
end

