-- ==== Sys2Proof/Machine/Partitions.lean ====
section
/-!
DEFINITION. The partition tree (R475 to R481), manifests (R197 to R199), hand-over and zeroing (R495, R496), the shortfalls of
bandwidth (R485, R486) and the registers of the PART page (R497, R498).
-/

namespace Sys2Proof.Machine

/-! Reservation records (R479). -/

structure Rec where
  id         : Nat
  leaf       : Bool
  parent     : Nat
  entitle    : Nat
  arrays     : Nat
  carts      : Nat
  ports      : Nat
  folds      : Nat
  channels   : Nat
  sems       : Nat
  counters   : Nat
  bay        : Nat
  fillBay    : Nat
  yard       : List Nat
  near       : Nat
  deep       : Nat
  draft      : Nat
  memShare   : Nat
  portShare  : Nat
  dispShare  : Nat
  lendOk     : Bool
  fillOk     : Bool
  fillFields : Nat
  fillSlots  : Nat
  deriving DecidableEq, Repr

def recOf (w : BitVec 1024) : Rec :=
  { id := cf w 0 0 7, leaf := cb w 0 7, parent := cf w 0 8 7, entitle := cf w 4 0 5, arrays := cf w 8 0 128, carts := cf w 0x18 0 64,
    ports := cf w 0x20 0 48, folds := cf w 0x28 0 8, channels := cf w 0x28 8 9, sems := cf w 0x2C 0 15, counters := cf w 0x2C 15 4,
    bay := cf w 0x30 0 22, fillBay := cf w 0x34 0 22, yard := (List.range 4).map fun i => cf w (0x38 + 4 * i) 0 32,
    near := cf w 0x48 0 64, deep := cf w 0x50 0 64, draft := cf w 0x58 0 64, memShare := cf w 0x60 0 11, portShare := cf w 0x60 11 11,
    dispShare := cf w 0x64 0 11, lendOk := cb w 0x68 0, fillOk := cb w 0x68 1, fillFields := cf w 0x68 2 4, fillSlots := cf w 0x68 6 6 }

/-- The bits of a record that hold a field. -/
def recFields : List (Nat × Nat × Nat) :=
  [(0, 0, 15), (4, 0, 5), (8, 0, 128), (0x18, 0, 64), (0x20, 0, 48), (0x28, 0, 17), (0x2C, 0, 19), (0x30, 0, 22), (0x34, 0, 22),
   (0x48, 0, 64), (0x50, 0, 64), (0x58, 0, 64), (0x60, 0, 22), (0x64, 0, 11), (0x68, 0, 12)] ++ many 0x38 4 4 0 32

def maskOf (fs : List (Nat × Nat × Nat)) : Nat := (fs.map fun q => (2 ^ q.2.2 - 1) * 2 ^ (8 * q.1 + q.2.1)).sum

def mib2 : Nat := 0x200000

/-- Whether the sizes common to a record and a manifest are of a kind their tables allow. -/
def sizesOk (bay near deep draft sems counters : Nat) (yard : List Nat) : Bool :=
  bay % 4096 == 0 && bay ≤ baySize && near % mib2 == 0 && deep % mib2 == 0 && draft % 65536 == 0 && draft ≤ 2 ^ 34 && sems ≤ 16384 &&
    counters ≤ 8 && yard.all fun y => y % 4096 == 0

/-- Whether a record has no reserved encoding (R475, R479). -/
def recClean (w : BitVec 1024) : Bool :=
  let r := recOf w
  (w &&& ~~~ (BitVec.ofNat 1024 (maskOf recFields))) == 0 && (if r.leaf then r.id < 64 else 64 ≤ r.id && r.id < 112) &&
    sizesOk r.bay r.near r.deep r.draft r.sems r.counters r.yard && r.channels ≤ 256 && r.fillBay % 65536 == 0 &&
    r.fillBay ≤ 393216 && r.fillSlots ≤ 32 && r.memShare ≤ 1024 && r.portShare ≤ 1024 && r.dispShare ≤ 1024

def Block.recOfPart (b : Block) (q : Nat) : Rec := recOf (b.part q).record

/-- The units of a mask in a numbering (none: the module's), as a mask in module numbering; none where a bit names no unit. -/
def unitMask (n mask : Nat) (unit : Nat → Option Nat) : Option Nat :=
  (unitsIn mask 0 n).foldl (fun acc i => match acc, unit i with
    | some m, some u => some (m ||| 2 ^ u)
    | _, _ => none) (some 0)

/-- What a record gives, in module numbering; none where it names what its caller's view does not show. -/
def Block.holdOf (b : Block) (view : Option Nat) (r : Rec) : Option Holding :=
  let num (f : Nat → Nat → Option Nat) (i : Nat) : Option Nat := match view with
    | none => some i
    | some q => f q i
  let physical (q i : Nat) : Option Nat := match b.arrayAt q i with
    | some (.unit a) => some a
    | _ => none
  let fields := match view with
    | none => [0, 1, 2, 3]
    | some q => (b.part q).hold.fields
  let named := (List.range 4).all fun i => r.yard.getD i 0 == 0 || i < fields.length
  let yard := (List.range 4).map fun f => match fields.findIdx? (· == f) with
    | some i => r.yard.getD i 0
    | none => 0
  let fill := (List.range 4).map fun f => if r.fillOk && bitOf r.fillFields f then r.fillSlots else 0
  match unitMask 128 r.arrays (num physical), unitMask 64 r.carts (num b.cartAt), unitMask 48 r.ports (num b.portAt),
      unitMask 8 r.folds (num b.foldAt) with
  | some a, some c, some p, some q =>
    if named then some ⟨BitVec.ofNat 128 a, BitVec.ofNat 64 c, BitVec.ofNat 48 p, BitVec.ofNat 8 q, yard, fill⟩ else none
  | _, _, _, _ => none

/-- The holding of the whole module. -/
def Holding.all : Holding := ⟨BitVec.allOnes 128, BitVec.allOnes 64, BitVec.allOnes 48, BitVec.allOnes 8, List.replicate 4 yardSize, []⟩

/-- Bits of `x` that `y` lacks. -/
def lacks {n : Nat} (x y : BitVec n) : Bool := x &&& ~~~ y != 0

/-- Whether two holdings have an exclusive unit in common (R477). -/
def Holding.meets (h k : Holding) : Bool := h.arrays &&& k.arrays != 0 || h.carts &&& k.carts != 0 || h.folds &&& k.folds != 0

/-- The 256 MiB of the journal ring, which no manifest may be granted (R29). -/
def journalBytes : Nat := 0x10000000

/-- Whether the parent (none: the module) holds unallotted what a record asks for; `self` is a partition that is being resized
(R477, R479, R480). A port's shares add up over the siblings that hold it. -/
def Block.fits (b : Block) (par self : Option Nat) (r : Rec) (h : Holding) : Bool :=
  let sibs := (b.children (par.getD 127)).filter fun q => some q != self
  let hold := match par with
    | some q => (b.part q).hold
    | none => Holding.all
  let limit (f : Rec → Nat) (all : Nat) : Nat := match par with
    | some q => f (b.recOfPart q)
    | none => all
  let sum (f : Rec → Nat) : Nat := (sibs.map fun q => f (b.recOfPart q)).sum
  let room (f : Rec → Nat) (all : Nat) : Bool := sum f + f r ≤ limit f all
  let units := !(lacks h.arrays hold.arrays || lacks h.carts hold.carts || lacks h.folds hold.folds || lacks h.ports hold.ports)
  let free := !(sibs.any fun q => h.meets (b.part q).hold) && !(b.zeroing.any fun j => h.meets j.held)
  let yards := (List.range 4).all fun f =>
    (sibs.map fun q => (b.part q).hold.yard.getD f 0).sum + h.yard.getD f 0 ≤ hold.yard.getD f 0
  let ports := h.portList.all fun n =>
    ((sibs.filter fun q => bitOf (b.part q).hold.ports.toNat n).map fun q => (b.recOfPart q).portShare).sum + r.portShare ≤
      limit (·.portShare) 1024
  let entitle := match par with
    | some q => (r.entitle ||| (b.recOfPart q).entitle) == (b.recOfPart q).entitle
    | none => true
  units && free && yards && ports && entitle && r.bay ≤ limit (·.bay) baySize && room (·.channels) 256 && room (·.sems) 16384 &&
    room (·.counters) 512 && room (·.near) (regionSize .near) && room (·.deep) (regionSize .deep - journalBytes) &&
    room (·.draft) (regionSize .near) && room (·.memShare) 1024 && room (·.dispShare) 1024

/-! The tree (R475, R476, R502, R617). -/

/-- DEV's lists of the partitions. -/
def Block.showTree (b : Block) : Block :=
  let here (q : Nat) : Nat := b2n (b.part q).present
  let b1 := b.set64 devPage 0x060 (((List.range 64).map fun p => here p * 2 ^ p).sum)
  let b2 := b1.set64 devPage 0x068 (((List.range 48).map fun i => here (64 + i) * 2 ^ i).sum)
  b2.set64 devPage 0x070 (((List.range 16).map fun v => if (b.partOfVf v).isSome then v * 2 ^ (4 * v) else 0).sum)

/-- The top-level index of a partition: the number of its virtual function. -/
def Block.topIndex (b : Block) (q : Nat) : Nat := ((b.part (b.part q).top).vf).getD 0

/-- PART_STATE of a partition as a register word. -/
def Block.stateWord (b : Block) (q st : Nat) : Nat := st + ((b.part q).depth - 1) * 8 + b.topIndex q * 32

def Block.partState (b : Block) (p : Nat) : Nat := b.fld (partPage p) 0x0C0 0 3
def Block.setPartState (b : Block) (p st : Nat) : Block := b.setN (partPage p) 0x0C0 (b.stateWord p st)

/-- Whether a request may concern a partition (R480, R518): function 0, or the virtual function of its top-level ancestor; a pool
mailbox speaks of its leaf alone. -/
def Block.mayManage (b : Block) (rq : Req) (q : Nat) : Bool :=
  (match rq.by_ with
    | .pf => true
    | .vf v => (b.part (b.part q).top).vf == some v.val
    | _ => false) &&
  (rq.mbx.val < 32 || (b.mbx rq.mbx).leaf == some q)

/-- The partition in whose view a caller numbers (R479); none for the module's numbering. -/
def Block.callerView (b : Block) (by_ : Agent) : Option Nat := match by_ with
  | .vf v => b.partOfVf v
  | _ => none

/-- The 128 bytes a record argument names. -/
def Block.recordArg (b : Block) (a : Src) : BitVec 1024 := BitVec.ofNat 1024 (ofBytes (b.argBytes none a 128))

/-- Gives a partition its record and what it holds. -/
def Block.givePart (b : Block) (q : Nat) (x : Part) : Block := (b.setPart q x).setRecord q x.record

/-- Replies once the domains of a partition's arrays are ready (R565): those that are off are switched on, but for the ones the operator
keeps off. -/
def Block.replyPowered (b : Block) (rq : Req) (code q : Nat) (words : List Word) : Block :=
  let arrays := (b.part q).hold.arrays.toNat
  let ds := (List.range 16).filter fun d => !b.domainReady d && fieldOf arrays (8 * d) 8 != 0
  if ds.isEmpty then b.reply rq code 0 words
  else
    let b := b.each (ds.filter fun d => !bitOf b.power.operatorOff.toNat d) Block.askWake
    let power := { b.power with waits := b.power.waits ++ [⟨rq, code, words, ds⟩] }
    { b with power := power }

/-- PART_CREATE (R475 to R480, R502). -/
def execPartCreate (rq : Req) (record : Src) (s : State) : Host.Outcome State Fault Refusal :=
  onBlock (fun b =>
    let w := b.recordArg record
    let r := recOf w
    let top := r.parent == 127
    let view := b.callerView rq.by_
    let vf := (List.range 16).find? fun v => (b.partOfVf v).isNone
    let depth := if top then 1 else (b.part r.parent).depth + 1
    if !recClean w then b.reply rq 0x20 0x01 [0]
    else if !(if top then rq.by_ == .pf && rq.mbx.val < 32 else b.mayManage rq r.parent) then b.reply rq 0x20 0x02 [0]
    else if (b.part r.id).present || (!top && !(b.part r.parent).present) || 4 < depth || (top && vf.isNone) then
      b.reply rq 0x20 0x03 [BitVec.ofNat 32 r.id]
    else if !top && (b.part r.parent).leaf then b.reply rq 0x20 0x04 [0]
    else match b.holdOf view r with
      | none => b.reply rq 0x20 0x05 [0]
      | some h =>
        if !b.fits (if top then none else some r.parent) none r h then b.reply rq 0x20 0x05 [0]
        else
          let x : Part := { present := true, leaf := r.leaf, parent := r.parent, depth := depth,
                            top := if top then r.id else (b.part r.parent).top, vf := if top then vf else none, view := view,
                            record := w, hold := h }
          let b := b.givePart r.id x
          let b := (b.ifSo r.leaf fun b => b.setPartState r.id 1).showTree
          b.replyPowered rq 0x20 r.id [BitVec.ofNat 32 (if top then vf.getD 0 else 0)]) s

/-! Hand-over (R495, R496, R614). -/

/-- Sets or clears LOCK on the pages of a leaf's units, channels and counters. -/
def Block.lockLeaf (b : Block) (p v : Nat) : Block :=
  let h := (b.part p).hold
  let arrays := unitsIn h.arrays.toNat 0 128
  let pages := arrays.map (pageOf .array) ++ arrays.map (pageOf .vec) ++ (unitsIn h.carts.toNat 0 64).map (pageOf .cart) ++
    (b.grant p).channels.map (pageOf .chan) ++ [pageOf .perf p]
  b.each pages fun b x => b.setFld x 0x01C 0 1 v

/-- The pair of a released array with its bay reads zero (R495). -/
def Block.clearArray (b : Block) (a : Nat) : Block :=
  let b := (b.zeroPair a).zero (regionBase .bay + a * baySize) (regionBase .bay + (a + 1) * baySize)
  let b := b.setArr a { b.arr a with compat := false, stopped := false, pzBytes := [], ringWr := ArrayUnit.none.ringWr,
                                     ringRd := ArrayUnit.none.ringRd }
  let keep (k : Nat × Word) : Bool := !(regKey (pageOf .array a) 0x050 ≤ k.1 && k.1 < regKey (pageOf .array a) 0x060) &&
    !(regKey (pageOf .array a) 0x100 ≤ k.1 && k.1 < regKey (pageOf .array a) 0x1A0)
  let regs := b.regs.filter keep
  ({ b with regs := regs }).setFld (arrayPage a) 0x040 0 1 0

def Block.clearCart (b : Block) (e : Nat) : Block := b.setCartU e CartUnit.none

/-- A released channel: disabled, its ring zero, of no leaf. -/
def Block.clearChan (b : Block) (c : Nat) : Block :=
  let b := (b.chanDisable c).setN (chanPage c) 0x054 0
  let rings := storeClear b.rings (8192 * c) (8192 * (c + 1))
  ({ b with rings := rings }).setChan c Chan.none

/-- A fill slot that its leaf gives up. -/
def Block.clearSlot (b : Block) (k : Nat) : Block := (b.setSlot k FillSlot.none).setImage (slotImageKey k) CtxImage.none

/-- The counters and the health counters of a leaf (R495, R595). -/
def Block.clearPerf (b : Block) (p : Nat) : Block :=
  let page := pageOf .perf p
  let b := b.each (List.range 8) fun b k => (b.set64 page (0x080 + 8 * k) 0).set64 page (0x0C0 + 8 * k) 0
  let health := storeClear b.health (64 * p) (64 * p + 64)
  let b := ({ b with health := health }).set64 page 0x058 0
  b.each (List.range 64) fun b i => b.set64 page (0x400 + 8 * i) 0

/-- The ranges of a grant that only its leaf may reach or that the Steward keeps for it. -/
def Grant.ranges (g : Grant) : List (Nat × Nat) :=
  (g.nearFrames ++ g.deepFrames).map (fun a => (a, a + mib2)) ++ g.draftPages.map fun a => (a, a + 65536)

/-- Whether the yard ranges of a grant hold an address. -/
def Grant.yardRanges (g : Grant) : List (Nat × Nat) :=
  (List.range 4).map fun f =>
    let lo := regionBase .yard + f * yardSize + g.yardBase.getD f 0
    (lo, lo + g.yardBytes.getD f 0)

/-- Drops a leaf's frames that wait in the send queues of ports. -/
def Block.dropOwned (b : Block) (p : Nat) (ports : List Nat) : Block :=
  b.each ports fun b n =>
    let x := b.port n
    b.setPort n { x with sendQ := x.sendQ.filter fun q => q.owner != some p }

/-- Whether anything of a leaf still runs: a carriage other than one parked in an image, a draft that is being closed, the HDM
window. -/
def Block.leafBusy (b : Block) (p : Nat) : Bool :=
  (b.flights.any fun f => f.part == p && f.engine < 2 ^ 20) ||
    ((List.range 16).any fun d => (b.draft p d).state == .committing || (b.draft p d).state == .discarding) ||
    b.hdmOf p

/-- Releases a leaf's grant, zeroed. -/
def Block.releaseGrant (b : Block) (p : Nat) : Block :=
  let g := b.grant p
  let h := (b.part p).hold
  let arrays := unitsIn h.arrays.toNat 0 128
  let b := b.each ((List.range 128).filter fun a => match (b.arr a).lentTo with
    | some l => l.lender == p || l.fill == p
    | none => false) Block.giveBack
  let b := b.each ((List.range 16).filter fun d => (b.draft p d).state != .free) fun b d => b.draftDiscarded p d (b.draft p d).closing 0
  let b := { b with flights := b.flights.filter fun f => f.part != p }
  let b := b.each (List.range 128) fun b i => b.clearSlot (128 * p + i)
  let b := b.each (g.ranges ++ g.yardRanges) fun b q => b.zero q.1 q.2
  let b := b.each arrays Block.clearArray
  let b := b.each (unitsIn h.carts.toNat 0 64) Block.clearCart
  let b := b.each g.channels Block.clearChan
  let b := ((b.dropOwned p (List.range 48)).clearPerf p).setGrant p Grant.none
  let b := (b.setRun p { LeafRun.none with keep := (b.run p).keep }).setShard p Shard.none
  let b := { b.setRebuild p Rebuild.none with mail := b.mail.filter fun m => m.part != p }
  let b := b.each [0x108, 0x10C, 0x130, 0x138, 0x11C, 0x280] fun b off => b.setN (partPage p) off 0
  let b := b.each (List.range 24) fun b i => b.setN (partPage p) (0x300 + 4 * i) 0
  b.each (List.range 16) fun b d => b.setDraft p d Draft.none

/-- The bytes a command has released that are still to be zeroed. -/
def Block.grantBytes (b : Block) (p : Nat) : Nat :=
  let g := b.grant p
  ((g.ranges ++ g.yardRanges).map fun q => q.2 - q.1).sum + (unitsIn g.arrays.toNat 0 128).length * g.bayBytes

/-- Whether a leaf waits for the zeroing of a command. -/
def Block.zeroingOf (b : Block) (p : Nat) : Option ZeroJob := b.zeroing.find? fun j => j.part == p

/-- MANIFEST_UNLOAD (R480). It replies at ZEROING_DONE. -/
def execManifestUnload (rq : Req) (p : Fin 64) (s : State) : Host.Outcome State Fault Refusal :=
  onBlock (fun b =>
    if !(b.part p).present || !(b.part p).leaf then b.reply rq 0x24 0x03 [BitVec.ofNat 32 p]
    else if !b.mayManage rq p then b.reply rq 0x24 0x02 [0]
    else if b.partState p != 2 || b.exchState p != 0 || b.fld (partPage p) 0x600 0 2 != 0 || (b.zeroingOf p).isSome then
      b.reply rq 0x24 0x04 [0]
    else
      let b := (b.setPartState p 3).lockLeaf p 1
      let b := b.each (b.grant p).channels Block.chanDisable
      let b := b.xlatInvStart p 1
      let b := b.ifSo (b.hdmOf p) Block.hdmUnbind
      let b := b.set64 (partPage p) 0x0F0 (b.grantBytes p)
      { b with zeroing := b.zeroing ++ [⟨rq, 0x24, p, Holding.none, true, false⟩] }) s

/-- A leaf's page and counters after it has gone. -/
def Block.clearLeaf (b : Block) (p : Nat) : Block :=
  let b := b.clearPerf p
  let r := storeClear b.regs (regKey (partPage p) 0) (regKey (partPage p) 0x1000)
  let r := storeClear r (regKey (pageOf .perf p) 0) (regKey (pageOf .perf p) 0x1000)
  let ms := b.mailboxes.map fun (q : Nat × Mailbox) => (q.1, if q.2.leaf == some p then { q.2 with leaf := none } else q.2)
  let b := { b with regs := r, mailboxes := ms.filter fun q => q.2 != Mailbox.none }
  (b.setRun p LeafRun.none).setEvq p EvQueue.none

/-- The message that tells a kept neighbour that its area has gone (R486). -/
def msgAreaGone : Nat := 9

/-- PART_DESTROY (R480, R486, R496). A leaf goes at ZEROING_DONE, an interior partition at once. -/
def execPartDestroy (rq : Req) (id : Nat) (s : State) : Host.Outcome State Fault Refusal :=
  onBlock (fun b =>
    if 112 ≤ id || !(b.part id).present then b.reply rq 0x22 0x03 [BitVec.ofNat 32 id]
    else if !b.mayManage rq id then b.reply rq 0x22 0x02 [0]
    else if !(b.children id).isEmpty || ((b.part id).leaf && (b.partState id != 1 || (b.zeroingOf id).isSome)) then
      b.reply rq 0x22 0x04 [0]
    else if (b.part id).leaf then
      let b := (b.setPartState id 3).lockLeaf id 1
      let b := b.ifSo (b.keeps id) fun b => b.emit (.queueMsg msgAreaGone (b.fld (partPage id) 0x608 0 30) [])
      { b with zeroing := b.zeroing ++ [⟨rq, 0x22, id, Holding.none, false, true⟩] }
    else ((b.setPart id Part.none).showTree).reply rq 0x22 0 [0]) s

/-- Whether a new record of a partition still covers what its manifest and its children hold and what is lent (R480). -/
def Block.covers (b : Block) (q : Nat) (r : Rec) (h : Holding) : Bool :=
  let g := b.grant q
  let leaf := !(b.part q).leaf || !g.loaded ||
    (!lacks g.arrays h.arrays && !lacks g.ports h.ports && g.folds.all (fun f => bitOf h.folds.toNat f.1) && g.bayBytes ≤ r.bay &&
      (List.range 4).all (fun f => g.yardBytes.getD f 0 ≤ h.yard.getD f 0) && g.nearBytes + g.draftBytes ≤ r.near &&
      g.draftBytes ≤ r.draft && g.deepBytes ≤ r.deep && g.channels.length ≤ r.channels && g.semCount ≤ r.sems && g.counters ≤ r.counters &&
      (g.entitle.toNat ||| r.entitle) == r.entitle)
  let bound := (List.range 128).all fun i => (b.slot (128 * q + i)).bound.isNone ||
    (i % 32 < h.fill.getD (i / 32) 0 && r.fillBay == (b.recOfPart q).fillBay)
  let kids := b.children q
  let sum (f : Rec → Nat) : Nat := (kids.map fun c => f (b.recOfPart c)).sum
  let below := kids.all (fun c =>
      let k := (b.part c).hold
      !lacks k.arrays h.arrays && !lacks k.carts h.carts && !lacks k.folds h.folds && !lacks k.ports h.ports &&
        (b.recOfPart c).bay ≤ r.bay && ((b.recOfPart c).entitle ||| r.entitle) == r.entitle) &&
    (List.range 4).all (fun f => (kids.map fun c => (b.part c).hold.yard.getD f 0).sum ≤ h.yard.getD f 0) &&
    sum (·.channels) ≤ r.channels && sum (·.sems) ≤ r.sems && sum (·.counters) ≤ r.counters && sum (·.near) ≤ r.near &&
    sum (·.deep) ≤ r.deep && sum (·.draft) ≤ r.draft && sum (·.memShare) ≤ r.memShare && sum (·.dispShare) ≤ r.dispShare &&
    h.portList.all fun n =>
      ((kids.filter fun c => bitOf (b.part c).hold.ports.toNat n).map fun c => (b.recOfPart c).portShare).sum ≤ r.portShare
  leaf && bound && below

/-- The units of `h` that `k` does not have. -/
def Holding.minus (h k : Holding) : Holding :=
  ⟨h.arrays &&& ~~~ k.arrays, h.carts &&& ~~~ k.carts, h.ports &&& ~~~ k.ports, h.folds &&& ~~~ k.folds,
   List.zipWith (· - ·) h.yard k.yard, List.zipWith (· - ·) h.fill k.fill⟩

/-- PART_RESIZE (R480, R481, R495). A leaf's command replies at ZEROING_DONE. -/
def execPartResize (rq : Req) (record : Src) (s : State) : Host.Outcome State Fault Refusal :=
  onBlock (fun b =>
    let w := b.recordArg record
    let r := recOf w
    let x := b.part r.id
    let view := b.callerView rq.by_
    if !recClean w then b.reply rq 0x21 0x01 [0]
    else if !x.present then b.reply rq 0x21 0x03 [BitVec.ofNat 32 r.id]
    else if !b.mayManage rq r.id then b.reply rq 0x21 0x02 [0]
    else if x.parent != r.parent || (b.zeroingOf r.id).isSome || (x.leaf && 2 < b.partState r.id) then b.reply rq 0x21 0x04 [0]
    else match b.holdOf view r with
      | none => b.reply rq 0x21 0x05 [0]
      | some h =>
        if !b.covers r.id r h then b.reply rq 0x21 0x04 [0]
        else if !b.fits (if x.parent = 127 then none else some x.parent) (some r.id) r h then b.reply rq 0x21 0x05 [0]
        else
          let gone := x.hold.minus h
          let b := b.givePart r.id { x with view := view, record := w, hold := h }
          if x.leaf then
            let b := b.dropOwned r.id gone.portList
            let b := b.set64 (partPage r.id) 0x0F0 ((unitsIn gone.arrays.toNat 0 128).length * (recOf x.record).bay + gone.yard.sum)
            { b with zeroing := b.zeroing ++ [⟨rq, 0x21, r.id, gone, false, false⟩] }
          else b.replyPowered rq 0x21 r.id [0]) s

/-- ZEROING_DONE (R495, R496): once nothing of the leaf runs and its translations have been invalidated (R218), everything released reads zero, and the command replies. -/
def execZeroingDone (p : Fin 64) (s : State) : Host.Outcome State Fault Refusal :=
  onBlock (fun b =>
    match b.zeroingOf p with
    | none => b
    | some j =>
      if j.unload && (b.leafBusy p || b.fld (partPage p) 0x11C 0 1 == 1) then b
      else
        let b := { b with zeroing := b.zeroing.filter fun k => k.part != p.val }
        let b := b.set64 (partPage p) 0x0F0 0
        if j.unload then
          (((b.lockLeaf p 0).releaseGrant p).setPartState p 1).reply j.rq j.code 0 [0]
        else if j.destroy then
          let h := (b.part p).hold
          let b := b.lockLeaf p 0
          let b := b.each (unitsIn h.arrays.toNat 0 128) Block.clearArray
          let b := b.each (unitsIn h.carts.toNat 0 64) Block.clearCart
          let b := (b.dropOwned p (List.range 48)).setPart p Part.none
          ((b.clearLeaf p).showTree).reply j.rq j.code 0 [0]
        else
          let b := b.each (unitsIn j.held.arrays.toNat 0 128) Block.clearArray
          let b := b.each (unitsIn j.held.carts.toNat 0 64) Block.clearCart
          let b := b.each ((List.range 128).filter fun i => (b.part p).hold.fill.getD (i / 32) 0 ≤ i % 32) fun b i =>
            b.clearSlot (128 * p + i)
          b.replyPowered j.rq j.code p [0]) s

/-- PART_QUERY (R480): the record and the status words go to the result address. -/
def execPartQuery (rq : Req) (id : Nat) (result : Nat) (s : State) : Host.Outcome State Fault Refusal :=
  onBlock (fun b =>
    if 112 ≤ id || !(b.part id).present then b.reply rq 0x25 0x03 [BitVec.ofNat 32 id]
    else if !b.mayManage rq id then b.reply rq 0x25 0x02 [0]
    else if (b.part id).leaf && b.resetting id then b.reply rq 0x25 0x04 [0]
    else
      let status := if (b.part id).leaf then b.regBytes (partPage id) 0x0C0 14
        else toBytes 4 (b.stateWord id 1) ++ toBytes 4 0 ++ toBytes 4 0x400 ++ toBytes 4 0x400 ++ List.replicate 40 0
      let bs := toBytes 128 (b.part id).record.toNat ++ status
      if result < 2 ^ 63 then
        let mem := storePutList memDefault b.hostMem result bs
        ({ b with hostMem := mem }).reply rq 0x25 0 [0]
      else if !(b.part id).leaf then b.reply rq 0x25 0x01 [0]
      else match b.writeV ⟨id, none⟩ (result % 2 ^ 63) (clean bs) with
        | (b, none) => b.reply rq 0x25 0 [0]
        | (_, some _) => b.reply rq 0x25 0x01 [0]) s

/-! Manifests (R197 to R199). -/

structure Man where
  magic    : Nat
  version  : Nat
  length   : Nat
  part     : Nat
  arrays   : Nat
  compat   : Nat
  bay      : Nat
  yard     : List Nat
  near     : Nat
  deep     : Nat
  draft    : Nat
  channels : Nat
  sems     : Nat
  ports    : Nat
  counters : Nat
  entitle  : Nat
  folds    : Nat
  foldChan : List Nat
  seed     : Nat
  deriving DecidableEq, Repr

def manOf (w : BitVec 2048) : Man :=
  { magic := df w 0 0 32, version := df w 4 0 16, length := df w 8 0 32, part := df w 0x0C 0 32, arrays := df w 0x10 0 128,
    compat := df w 0x20 0 128, bay := df w 0x30 0 32, yard := (List.range 4).map fun i => df w (0x34 + 4 * i) 0 32,
    near := df w 0x48 0 64, deep := df w 0x50 0 64, draft := df w 0x58 0 64, channels := df w 0x60 0 9, sems := df w 0x64 0 15,
    ports := df w 0x68 0 48, counters := df w 0x70 0 4, entitle := df w 0x74 0 5, folds := df w 0x78 0 8,
    foldChan := (List.range 8).map fun i => df w (0x7C + i) 0 8, seed := df w 0x88 0 64 }

/-- The bits of a manifest's header that hold a field. -/
def manFields : List (Nat × Nat × Nat) :=
  [(0, 0, 32), (4, 0, 16), (8, 0, 32), (0x0C, 0, 32), (0x10, 0, 128), (0x20, 0, 128), (0x30, 0, 32), (0x48, 0, 64), (0x50, 0, 64),
   (0x58, 0, 64), (0x60, 0, 9), (0x64, 0, 15), (0x68, 0, 48), (0x70, 0, 4), (0x74, 0, 5), (0x78, 0, 8), (0x88, 0, 64)] ++
    many 0x34 4 4 0 32 ++ many 0x7C 1 8 0 8

/-- The sequencers a manifest requests, by the leaf's numbering. -/
def Man.foldList (m : Man) : List Nat := unitsIn m.folds 0 8

/-- Code 0x01 of R198. -/
def manClean (w : BitVec 2048) : Bool :=
  let m := manOf w
  (w &&& ~~~ (BitVec.ofNat 2048 (maskOf manFields))) == 0 && m.magic == 0x4D464E31 && 256 ≤ m.length && m.length % 64 == 0 && m.part < 64 &&
    sizesOk m.bay m.near m.deep m.draft m.sems m.counters m.yard && 1 ≤ m.channels && m.channels ≤ 256 &&
    m.foldList.all fun i => m.foldChan.getD i 0 < m.channels

/-- The module field of view field `i` of a leaf, and the yard bytes a manifest asks for there. -/
def Block.yardAsk (b : Block) (p : Nat) (m : Man) (i : Nat) : Option (Nat × Nat) :=
  match (b.part p).hold.fields[i]? with
  | some f => some (f, m.yard.getD i 0)
  | none => none

/-- The array a manifest's bit names, if it may use it. -/
def Block.usable (b : Block) (p i : Nat) : Option Nat :=
  match b.arrayAt p i with
  | some (.unit a) => if b.retired a then none else some a
  | _ => none

/-- Whether ranges lie apart from each other. -/
def apart : List (Nat × Nat) → Bool
  | [] => true
  | q :: r => (r.all fun t => t.2 ≤ q.1 || q.2 ≤ t.1) && apart r

/-- Whether every range of `xs` lies apart from every range of `ys`. -/
def apartFrom (xs ys : List (Nat × Nat)) : Bool := xs.all fun q => ys.all fun t => t.2 ≤ q.1 || q.2 ≤ t.1

/-- The length of a leaf's host-window table (R508, R529). -/
def hostPages : Nat := 66060288

/-- The ranges that the tables of a leaf take: translation, host window, pieces (R213 to R215). -/
def tableRanges (near deep host pieces nNear nDeep : Nat) : List (Nat × Nat) :=
  [(near, near + 8 * nNear), (deep, deep + 8 * nDeep), (host, host + 8 * hostPages), (pieces, pieces + mib2 * nNear)]

/-- The ranges of the tiers that placed grants take, their frames, tables and commit words, and those of the journals (R29, R214, R456). -/
def Block.takenRanges (b : Block) : List (Nat × Nat) :=
  ((List.range 64).filter fun l => (b.grant l).loaded).flatMap (fun l =>
      let g := b.grant l
      g.ranges ++ tableRanges (b.reg64 (partPage l) 0x100) (b.reg64 (partPage l) 0x110) g.hostTable g.pieceTable g.nearFrames.length
          g.deepFrames.length ++
        (g.commitWord ++ [g.commitRec]).map fun a => (a, a + 8)) ++
    (List.range 32).map fun k => (b.ringBase k, b.ringBase k + journalBytes)

/-- Where the Steward's placement has a place for what a manifest asks for: the yard, the near tier with the draft pages, the deep tier,
channels, semaphores (R29, R197, R212 to R215, R273, R456). -/
structure Placed where
  yard  : Bool
  near  : Bool
  deep  : Bool
  chans : Bool
  sems  : Bool
  deriving DecidableEq, Repr

def Block.placed (b : Block) (p : Nat) (m : Man) (pl : Placement) : Placed :=
  let inTier (r : Region) (size : Nat) (a : Nat) : Bool := a % size == 0 && regionBase r ≤ a && a + size ≤ regionBase r + regionSize r
  let nears := pl.nearFrames.map (fun a => (a, a + mib2)) ++ pl.draftPages.map fun a => (a, a + 65536)
  let deeps := pl.deepFrames.map fun a => (a, a + mib2)
  let words := pl.commitWord.map fun a => (a, a + 8)
  let tables := tableRanges pl.nearTable pl.deepTable pl.hostTable pl.pieceTable pl.nearFrames.length pl.deepFrames.length
  { yard := (List.range 4).all fun i => match b.yardAsk p m i with
      | none => true
      | some (f, n) =>
        let lo := regionBase .yard + f * yardSize + pl.yardBase.getD f 0
        n == 0 || (pl.yardBase.getD f 0 % 4096 == 0 && pl.yardBase.getD f 0 + n ≤ yardSize &&
          apartFrom [(lo, lo + n)] ((List.range 64).flatMap fun l => (b.grant l).yardRanges)),
    near := pl.nearFrames.length * mib2 == m.near && pl.draftPages.length * 65536 == m.draft && pl.nearFrames.all (inTier .near mib2) &&
      pl.draftPages.all (inTier .near 65536) && apart nears && apartFrom nears words && apartFrom (nears ++ words) b.takenRanges && pl.commitWord.length == 32 &&
      (List.range 16).all fun d => channelOf .near (pl.commitWord.getD d 0) != channelOf .near (pl.commitWord.getD (16 + d) 0),
    deep := pl.deepFrames.length * mib2 == m.deep && pl.deepFrames.all (inTier .deep mib2) && apart (deeps ++ tables) &&
      apartFrom (deeps ++ tables) b.takenRanges && [pl.nearTable, pl.deepTable, pl.hostTable].all (fun a => a % 4096 == 0) &&
      pl.pieceTable % mib2 == 0 && tables.all fun q => regionBase .deep ≤ q.1 && q.2 ≤ regionBase .deep + regionSize .deep,
    chans := pl.channels.length == m.channels && pl.channels.Nodup && pl.channels.all fun c => (b.chan c.val).owner.isNone,
    sems := pl.semBase + m.sems ≤ 16384 && pl.semWin < 2 ^ 15 && (List.range 64).all fun l =>
      let g := b.grant l
      m.sems == 0 || g.semCount == 0 || pl.semBase + m.sems ≤ g.semBase || g.semBase + g.semCount ≤ pl.semBase }

/-- The checks of R198 from code 0x03 on, in order: whether each fails, its code, the detail word of R199. -/
def Block.manChecks (b : Block) (rq : Req) (p : Nat) (m : Man) (pl : Placement) : List (Bool × Nat × Nat) :=
  let r := b.recOfPart p
  let h := (b.part p).hold
  let at_ := b.placed p m pl
  let badArray := (unitsIn m.arrays 0 128).find? fun i => (b.usable p i).isNone
  let badCompat := (unitsIn m.compat 0 128).find? fun i => !bitOf m.arrays i
  let badYard := (List.range 4).find? fun i => m.yard.getD i 0 != 0 &&
    match b.yardAsk p m i with
    | some (f, n) => decide (h.yard.getD f 0 < n)
    | none => true
  let badPort := (unitsIn m.ports 0 48).find? fun i => (b.portAt p i).isNone
  let usedField (f : Nat) : Bool := (unitsIn m.arrays 0 128).any fun i => match b.usable p i with
    | some a => a / 32 == f
    | none => false
  let taken (q : Nat) : Bool := (List.range 64).any fun l => (b.grant l).folds.any fun t => t.1 == q
  let badFold := m.foldList.find? fun i => match b.foldAt p i with
    | some q => !usedField (q / 2) || taken q
    | none => true
  [(m.part != p || !(b.part p).present || !(b.part p).leaf || !b.mayManage rq p || (b.grant p).loaded || b.partState p != 1, 0x03, m.part),
   (badArray.isSome || badCompat.isSome, 0x04, (badArray.or badCompat).getD 0),
   (r.bay < m.bay, 0x05, m.bay),
   (badYard.isSome, 0x05, m.yard.getD (badYard.getD 0) 0),
   (!at_.yard, 0x05, m.yard.sum),
   (r.near < m.near + m.draft || r.draft < m.draft || !at_.near, 0x06, m.near + m.draft),
   (r.deep < m.deep || !at_.deep, 0x07, m.deep),
   (r.channels < m.channels || !at_.chans, 0x08, m.channels),
   (r.sems < m.sems || !at_.sems, 0x08, m.sems),
   (badPort.isSome, 0x09, badPort.getD 0),
   (r.counters < m.counters, 0x0A, m.counters),
   ((m.entitle ||| r.entitle) != r.entitle, 0x0B, m.entitle),
   (badFold.isSome, 0x0C, badFold.getD 0)]

/-- The first check of R198 from code 0x03 on that fails: its code and detail word. -/
def Block.manRefused (b : Block) (rq : Req) (p : Nat) (m : Man) (pl : Placement) : Option (Nat × Nat) :=
  ((b.manChecks rq p m pl).find? fun q => q.1).map fun q => q.2

/-- A translation table over frames: V, R and W (R213). -/
def Block.putTable (b : Block) (base : Nat) (frames : List Nat) : Block :=
  b.each frames.zipIdx fun b q => b.putTierNum (base + 8 * q.2) 8 (q.1 + 7)

/-- The grant of an accepted manifest (R199). -/
def Block.grantManifest (b : Block) (p : Nat) (m : Man) (pl : Placement) : Block :=
  let page := partPage p
  let used := (unitsIn m.arrays 0 128).filterMap fun i => (b.usable p i).map fun a => (i, a)
  let b := b.each used fun b q =>
    let v := bitOf m.compat q.1
    (b.setFld (arrayPage q.2) 0x040 0 1 (b2n v)).setArr q.2 { b.arr q.2 with compat := v }
  let chans := pl.channels.map (·.val)
  let sorted := sortBy id chans
  let folds := m.foldList.filterMap fun i => match b.foldAt p i, sorted[m.foldChan.getD i 0]? with
    | some q, some c => some (q, c)
    | _, _ => none
  let (b, drawn) : Block × List DWord := if m.seed = 0 then b.drawRandom 1 else (b, [])
  let yard (f : Nat) : Nat := match (b.part p).hold.fields.findIdx? (· == f) with
    | some i => m.yard.getD i 0
    | none => 0
  let g : Grant := {
    loaded := true, arrays := BitVec.ofNat 128 (used.map fun q => 2 ^ q.2).sum, bayBytes := m.bay, yardBytes := (List.range 4).map yard,
    yardBase := (List.range 4).map fun f => pl.yardBase.getD f 0, nearBytes := m.near, deepBytes := m.deep, draftBytes := m.draft,
    channels := chans, semBase := pl.semBase, semCount := m.sems,
    ports := BitVec.ofNat 48 (((unitsIn m.ports 0 48).filterMap (b.portAt p)).map fun n => 2 ^ n).sum, counters := m.counters,
    entitle := BitVec.ofNat 5 m.entitle, folds := folds, seed := if m.seed = 0 then drawn.headD 0 else BitVec.ofNat 64 m.seed,
    draftFree := pl.draftPages, pieceTable := pl.pieceTable, commitWord := pl.commitWord, commitRec := pl.commitRec, loadedAt := b.now,
    nearFrames := pl.nearFrames, deepFrames := pl.deepFrames, draftPages := pl.draftPages, hostTable := pl.hostTable }
  let b := b.setGrant p g
  let b := b.each (List.range m.sems) fun b i => b.setSem (pl.semBase + i) 0
  let b := b.zero pl.hostTable (pl.hostTable + 8 * hostPages)
  let b := (b.putTable pl.nearTable pl.nearFrames).putTable pl.deepTable pl.deepFrames
  let b := ((b.set64 page 0x100 pl.nearTable).setN page 0x108 pl.nearFrames.length).set64 page 0x110 pl.deepTable
  let b := ((b.setN page 0x10C pl.deepFrames.length).set64 page 0x128 pl.hostTable).setN page 0x130 hostPages
  let b := ((b.setN page 0x138 pl.semWin).set64 page 0x250 0).setN page 0x2A0 0
  let b := (b.clearPerf p).setRun p { LeafRun.none with keep := (b.run p).keep }
  let b := b.each chans fun b c => (b.setChan c { Chan.none with owner := some p }).chanEnable c
  b.setPartState p 2

/-- MANIFEST_LOAD. A seed the loader must draw waits until the entropy source passes (R552). -/
def execManifestLoad (rq : Req) (p : Fin 64) (m : Src) (place : Placement) (s : State) : Host.Outcome State Fault Refusal :=
  onBlock (fun b =>
    let w : BitVec 2048 := BitVec.ofNat 2048 (ofBytes (b.argBytes (some p.val) m 256))
    let no (code detail : Nat) : Block := b.reply rq 0x23 code [BitVec.ofNat 32 detail]
    if b.fld devPage 0x040 0 3 != 4 || b.partState p = 4 then no 0x04 0
    else if !manClean w then no 0x01 0
    else if (manOf w).version != 1 then no 0x02 (manOf w).version
    else match b.manRefused rq p (manOf w) place with
      | some (code, detail) => no code detail
      | none =>
        let hw := b.regN (pageOf .hawthorn 0) 0x040
        if (manOf w).seed = 0 && fieldOf hw 0 2 != 0 && !bitOf hw 4 then b
        else (b.grantManifest p (manOf w) place).reply rq 0x23 0 [0]) s

/-! Bandwidth shortfalls (R485, R486, R498). -/

/-- SHORTFALL: rank 5 broken for the Steward's own traffic; `factor` is what is left of the resource in 1/1,024. -/
def execShortfall (p : Fin 64) (port : Bool) (resource : Nat) (factor : Fin 1025) (s : State) : Host.Outcome State Fault Refusal :=
  onBlock (fun b =>
    if !(b.part p).present || !(b.part p).leaf || 1024 * 63 ≤ factor.val * 64 then b
    else
      let off := if port then 0x0CC else 0x0C8
      let kept := if b.recs.isEmpty && b.rebuilds.isEmpty then 1 else 2
      let b := b.setFld (partPage p) off 0 11 (min (b.fld (partPage p) off 0 11) factor.val)
      b.shortfall p (if port then 4 else 3) 5 resource kept factor.val) s

/-- SHORTFALL_CLEAR. -/
def execShortfallClear (p : Fin 64) (s : State) : Host.Outcome State Fault Refusal :=
  onBlock (fun b =>
    if b.fld (partPage p) 0x0C4 3 2 = 0 then b
    else
      let b := ((b.setFld (partPage p) 0x0C4 3 2 0).setN (partPage p) 0x0C8 0x400).setN (partPage p) 0x0CC 0x400
      b.raisePart p 1) s

end Sys2Proof.Machine
end

