-- ==== Sys2Proof/Machine/Mailboxes.lean ====
section
/-!
DEFINITION. The mailboxes (R518 to R522, R527, R528): sending, taking, replying, configuring.
-/

namespace Sys2Proof.Machine

def mbxPage (m : Nat) : Nat := pageOf .mbx m

/-- MBX_CFG: queue mode, the message registers, ACK, VECTOR. MBX[2] has 16 registers whatever it holds (R559). -/
def Block.mbxQueue (b : Block) (m : Nat) : Bool := m != 2 && b.fld (mbxPage m) 0x040 0 1 == 1
def Block.mbxRegs (b : Block) (m : Nat) : Nat := if m = 2 then 16 else [8, 12, 16].getD (b.fld (mbxPage m) 0x040 1 2) 8
def Block.mbxAck (b : Block) (m : Nat) : Bool := b.fld (mbxPage m) 0x040 3 1 == 1
def Block.mbxVector (b : Block) (m : Nat) : Nat := b.fld (mbxPage m) 0x040 4 11

/-- The function at the host's end of a mailbox; none for MBX[3] (R518). -/
def Block.mbxFn (b : Block) (m : Nat) : Option Nat :=
  if m < 3 then some 0
  else if m = 3 then none
  else if m < 32 then some (m - 15)
  else (b.mbx m).leaf.map b.fnOf

/-- Whether a requester is the one that sends requests by a mailbox and receives its replies (R518). -/
def Block.mbxOwner (b : Block) (who : Agent) (m : Nat) : Bool :=
  b.mbxExists m && m < 64 &&
    match who with
    | .pf => m < 3
    | .vf v => 16 ≤ m && b.mbxFn m == some (1 + v.val)
    | .steward => m == 3
    | _ => false

/-- Interrupts whoever learns of an event of the host's end: its function on VECTOR, or the Steward (R519). -/
def Block.mbxTell (b : Block) (m : Nat) : Block :=
  if b.mbxAck m then b
  else match b.mbxFn m with
    | some fn => b.msix fn (b.mbxVector m)
    | none => b.emit (.stewardIrq m)

/-- A rejected write (R520): REJECT counts it; a host write is logged as a Completer Abort, an on-chip sender receives a bus error. -/
def Block.mbxReject (b : Block) (who : Agent) (m addr : Nat) : Block :=
  let b := b.add64 (mbxPage m) 0x048 1
  match who with
  | .pf => b.emit (.aer 0 4 addr)
  | .vf v => b.emit (.aer (1 + v) 4 addr)
  | _ => b.emit (.busError addr)

/-- A write of REQ_GO (R519, R520). -/
def Block.reqGo (b : Block) (who : Agent) (m v : Nat) : Block :=
  if !b.mbxOwner who m || b.mbxQueue m then b
  else if (b.mbx m).reqFull then b.mbxReject who m (regKey (mbxRegion m) 0x040)
  else b.ifSo (bitOf v 0) fun b => b.setMbx m { b.mbx m with reqFull := true }

/-- REQ_GO. -/
def execReqGo (who : Agent) (m : Nat) (value : Word) (s : State) : Host.Outcome State Fault Refusal :=
  onBlock (fun b => b.reqGo who m value.toNat) s

/-- A write of REQ_Q (R519, R520). -/
def Block.reqPush (b : Block) (who : Agent) (m : Nat) (value : Word) : Block :=
  let x := b.mbx m
  if !b.mbxOwner who m || !b.mbxQueue m then b
  else if 16 ≤ x.reqQ.length then b.mbxReject who m (regKey (mbxRegion m) 0x100)
  else b.setMbx m { x with reqQ := x.reqQ ++ [value] }

/-- REQ_Q. -/
def execReqQ (who : Agent) (m : Nat) (value : Word) (s : State) : Host.Outcome State Fault Refusal :=
  onBlock (fun b => b.reqPush who m value) s

/-- The reply direction has become empty: the replying side learns of it (R519). -/
def Block.rplEmptied (b : Block) (m : Nat) : Block := b.ifSo (!b.mbxAck m) fun b => b.emit (.stewardIrq m)

/-- A write of RPL_DONE (R519, R520, R528). -/
def Block.rplDone (b : Block) (who : Agent) (m v : Nat) : Block :=
  if b.mbxOwner who m && !b.mbxQueue m && !b.mbxAck m && (b.mbx m).rplFull && bitOf v 0 then
    (b.setMbx m { b.mbx m with rplFull := false }).rplEmptied m
  else b

/-- RPL_DONE. -/
def execRplDone (who : Agent) (m : Nat) (value : Word) (s : State) : Host.Outcome State Fault Refusal :=
  onBlock (fun b => b.rplDone who m value.toNat) s

/-- What the owner reads in its mailbox region (R528); registers of the mode not in use and write-only ones read 0. -/
def Block.mbxWord (b : Block) (who : Agent) (m off : Nat) : Nat :=
  if !b.mbxOwner who m then 0
  else if b.mbxQueue m then
    if off = 0x104 then (b.mbx m).credits.toNat else if off = 0x180 then ((b.mbx m).rplQ.headD 0).toNat else 0
  else if (off < 0x040 && off / 4 < b.mbxRegs m) || (0x080 ≤ off && off < 0x0C0 && (off - 0x080) / 4 < b.mbxRegs m) then
    b.regN (mbxRegion m) off
  else 0

/-- What a read of RPL_MSG_i changes (R519): with ACK = 1 the read of the last message register empties the direction. -/
def Block.rplMsgTaken (b : Block) (who : Agent) (m i : Nat) : Block :=
  if b.mbxOwner who m && !b.mbxQueue m && b.mbxAck m && i + 1 == b.mbxRegs m && (b.mbx m).rplFull then
    (b.setMbx m { b.mbx m with rplFull := false }).rplEmptied m
  else b

/-- RPL_MSG_READ. -/
def execRplMsgRead (who : Agent) (m : Nat) (i : Nat) (s : State) : Host.Outcome State Fault Refusal :=
  onBlock (fun b =>
    let off := 0x080 + 4 * i
    let v := if i < 16 then b.mbxWord who m off else 0
    (b.emit (.readData who (mbxRegion m) off (BitVec.ofNat 64 v))).rplMsgTaken who m i) s

/-- LEN of a header (R521). -/
def headLen (w : Word) : Nat := fieldOf w.toNat 16 5

/-- Takes `n` words off the reply queue. -/
def Block.popReply (b : Block) (m n left : Nat) : Block :=
  let x := b.mbx m
  let b := b.setMbx m { x with rplQ := x.rplQ.drop n, rplLeft := left }
  b.ifSo (decide (x.rplQ.length ≤ n)) fun b => b.rplEmptied m

/-- What a read of RPL_Q changes: the word at the head goes (R528). -/
def Block.rplTaken (b : Block) (who : Agent) (m : Nat) : Block :=
  if !b.mbxOwner who m || !b.mbxQueue m then b
  else
    let x := b.mbx m
    match x.rplQ with
    | [] => b
    | w :: _ => b.popReply m 1 (if x.rplLeft = 0 then headLen w else x.rplLeft - 1)

/-- RPL_Q_READ. -/
def execRplQRead (who : Agent) (m : Nat) (s : State) : Host.Outcome State Fault Refusal :=
  onBlock (fun b => (b.rplTaken who m).emit (.readData who (mbxRegion m) 0x180 (BitVec.ofNat 64 (b.mbxWord who m 0x180)))) s

/-- DROP_PKT (R519, R528): the rest of the reply being read goes. -/
def Block.rplDrop (b : Block) (who : Agent) (m : Nat) : Block :=
  let x := b.mbx m
  if !b.mbxOwner who m || !b.mbxQueue m || x.rplLeft = 0 then b else b.popReply m x.rplLeft 0

/-- RPL_DROP_PKT. -/
def execRplDropPkt (who : Agent) (m : Nat) (s : State) : Host.Outcome State Fault Refusal := onBlock (fun b => b.rplDrop who m) s

/-- A write to MBX_CFG, which takes effect while both directions are empty (R519). -/
def Block.mbxCfg (b : Block) (m v : Nat) : Block :=
  let x := b.mbx m
  if x.reqFull || x.rplFull || !x.reqQ.isEmpty || !x.rplQ.isEmpty then b
  else
    let old := b.regN (mbxPage m) 0x040
    let new := keepField old (v % 2 ^ 15) 1 2 (fieldOf v 1 2 != 3)
    (b.setN (mbxPage m) 0x040 new).setMbx m { x with credits := 0, rplLeft := 0 }

/-- MBX_CFG_WRITE. -/
def execMbxCfgWrite (who : Agent) (m : Nat) (value : Word) (s : State) : Host.Outcome State Fault Refusal :=
  onBlock (fun b =>
    let there : Bool := match b.pageRef who (mbxPage m) with
      | .page _ => m < 64
      | _ => false
    if there && b.mayWrite who .mbx m 0x040 then b.mbxCfg m value.toNat else b) s

/-- The codes of the commands of a mailbox's far end (R523, R559, R562). -/
def mbxCodes (m : Nat) : List Nat :=
  if m = 1 || m = 3 then (List.range 17).map (· + 1)
  else if m = 2 then (List.range 10).map (· + 1)
  else (List.range 6).map (0x20 + ·) ++ (List.range 8).map (0x30 + ·) ++ (List.range 5).map (0x40 + ·) ++
    (List.range 4).map (0x50 + ·) ++ (List.range 4).map (0x60 + ·) ++ [0x70, 0x71]

/-- A message that has been taken: IDLE, one that gets STATUS 0x01 at once, or a request to be carried out (R521, R522). -/
def Block.mbxTaken (b : Block) (m : Nat) (msg : List Word) : Block :=
  let h := (msg.headD 0).toNat
  let x := b.mbx m
  let b := b.add64 (mbxPage m) 0x050 1
  let bad := fieldOf h 21 11 != 0 || 15 < fieldOf h 16 5 || (!b.mbxQueue m && b.mbxRegs m ≤ fieldOf h 16 5) ||
    !(mbxCodes m).contains (fieldOf h 0 8)
  if h = 0 then b
  else
    let no : List Reply := if bad then [⟨fieldOf h 0 8, BitVec.ofNat 8 (fieldOf h 8 8), 0x01, [0]⟩] else []
    b.setMbx m { x with taken := x.taken ++ [msg], replies := x.replies ++ no }

/-- MBX_REQUEST_TAKE: up to 8 requests are taken before the first is replied to; taking one empties the direction. -/
def execMbxRequestTake (m : Fin 64) (s : State) : Host.Outcome State Fault Refusal :=
  onBlock (fun b =>
    let x := b.mbx m
    if !b.mbxExists m || 8 ≤ x.taken.length then b
    else if b.mbxQueue m then
      let n := 1 + headLen (x.reqQ.headD 0)
      let n := if 16 < n then x.reqQ.length else n
      if x.reqQ.isEmpty || x.reqQ.length < n then b
      else
        let b := b.setMbx m { x with reqQ := x.reqQ.drop n, credits := x.credits + BitVec.ofNat 32 n }
        let b := b.mbxTaken m (x.reqQ.take n)
        b.ifSo (decide (x.reqQ.length ≤ n)) fun b => b.mbxTell m
    else if x.reqFull then
      let words := (List.range (b.mbxRegs m)).map fun i => b.reg (mbxRegion m) (4 * i)
      let b := b.setMbx m { x with reqFull := false }
      (b.mbxTaken m (words.take (1 + headLen (words.headD 0)))).mbxTell m
    else b) s

/-- The words of a reply (R521). -/
def Reply.words' (r : Reply) : List Word :=
  BitVec.ofNat 32 (r.code + r.seq.toNat * 2 ^ 8 + r.words.length % 32 * 2 ^ 16 + r.status * 2 ^ 24) :: r.words

/-- MBX_REPLY: the first reply that waits is written once its direction has room. -/
def execMbxReply (m : Fin 64) (s : State) : Host.Outcome State Fault Refusal :=
  onBlock (fun b =>
    let x := b.mbx m
    match x.replies with
    | [] => b
    | r :: rest =>
      let ws := r.words'
      let mine (w : List Word) : Bool := fieldOf (w.headD 0).toNat 0 16 == r.code + r.seq.toNat * 2 ^ 8
      let x := { x with replies := rest, taken := x.taken.eraseP mine }
      let sent (b : Block) : Block := (b.add64 (mbxPage m) 0x058 1).mbxTell m
      if b.mbxQueue m then
        if 16 < x.rplQ.length + ws.length then b else sent (b.setMbx m { x with rplQ := x.rplQ ++ ws })
      else if x.rplFull then b
      else
        let b := b.each (List.range (b.mbxRegs m)) fun b i => b.setReg (mbxRegion m) (0x080 + 4 * i) (ws.getD i 0)
        sent (b.setMbx m { x with rplFull := true })) s

/-- MBX_ASSIGN (R518): a pool mailbox changes hands empty. -/
def execMbxAssign (rq : Req) (m leaf : Nat) (s : State) : Host.Outcome State Fault Refusal :=
  onBlock (fun b =>
    if rq.by_ != .pf then b.reply rq 0x34 0x02 [0]
    else if m < 32 || 64 ≤ m || !(leaf = 127 || (leaf < 64 && (b.part leaf).present && (b.part leaf).leaf)) then b.reply rq 0x34 0x01 [0]
    else if leaf < 64 && b.resetting leaf then b.reply rq 0x34 0x04 [0]
    else
      let r := storeClear b.regs (regKey (mbxRegion m) 0) (regKey (mbxRegion m) 0x1000)
      let r := storeClear r (regKey (mbxPage m) 0x040) (regKey (mbxPage m) 0x060)
      (({ b with regs := r }).setMbx m { Mailbox.none with leaf := if leaf = 127 then none else some leaf }).reply rq 0x34 0 [0]) s

end Sys2Proof.Machine
end

