-- ==== Sys2Proof/Machine/Events.lean ====
section
/-!
DEFINITION. The PERF page's commands and the event queues (R592 to R605).
-/

namespace Sys2Proof.Machine

def perfPage (p : Nat) : Nat := pageOf .perf p

/-- Whether a requester's writes reach a register of leaf `p`'s PERF page. -/
def Block.mayPerf (b : Block) (who : Agent) (p off : Nat) : Bool :=
  match b.pageRef who (perfPage p) with
  | .page _ => b.mayWrite who .perf p off
  | _ => false

/-! The programmable counters (R592, R596). -/

/-- PERF_CTRL.CLEAR. -/
def Block.perfClear (b : Block) (p : Nat) : Block :=
  b.each (List.range 8) fun b k => (b.set64 (perfPage p) (0x080 + 8 * k) 0).set64 (perfPage p) (0x0C0 + 8 * k) 0

/-- A write of PERF_CTRL: CLEAR, then LATCH. -/
def Block.perfCtrl (b : Block) (p v : Nat) : Block :=
  let b := b.setFld (perfPage p) 0x040 1 1 (fieldOf v 1 1)
  (b.ifSo (bitOf v 2) fun b => b.perfClear p).ifSo (bitOf v 0) fun b => b.perfLatch p

/-- A write of PERF_SEL_k; one that changes it zeroes counter k with its OVF. -/
def Block.perfSel (b : Block) (p k v : Nat) : Block :=
  let off := 0x100 + 4 * k
  let old := b.regN (perfPage p) off
  let new := legalize .perf off old (v % 2 ^ 20)
  (b.setN (perfPage p) off new).ifSo (old != new) fun b => b.set64 (perfPage p) (0x080 + 8 * k) 0

/-- PERF_LATCH. -/
def execPerfLatch (who : Agent) (p : Fin 64) (s : State) : Host.Outcome State Fault Refusal :=
  onBlock (fun b => b.ifSo (b.mayPerf who p 0x040) fun b => b.perfLatch p) s

/-- PERF_CLEAR. -/
def execPerfClear (who : Agent) (p : Fin 64) (s : State) : Host.Outcome State Fault Refusal :=
  onBlock (fun b => b.ifSo (b.mayPerf who p 0x040) fun b => b.perfClear p) s

/-- PERF_SEL_WRITE. -/
def execPerfSelWrite (who : Agent) (p : Fin 64) (k : Fin 8) (value : Word) (s : State) : Host.Outcome State Fault Refusal :=
  onBlock (fun b => b.ifSo (b.mayPerf who p (0x100 + 4 * k)) fun b => b.perfSel p k value.toNat) s

/-! The queues (R601 to R604): a leaf's by its number, the module's as none. -/

/-- The page of a queue's registers, the offset of its EVQ_CTRL; its other registers. -/
def qPage (q : Option Nat) : Nat :=
  match q with
  | some p => perfPage p
  | none => devPage
def qCtrl (q : Option Nat) : Nat := if q.isSome then 0x044 else 0x200
def qBase (q : Option Nat) : Nat := if q.isSome then 0x048 else 0x208
def qWr (q : Option Nat) : Nat := if q.isSome then 0x050 else 0x210
def qRd (q : Option Nat) : Nat := if q.isSome then 0x054 else 0x214
def qLost (q : Option Nat) : Nat := if q.isSome then 0x058 else 0x218

/-- The number of a queue in the state. -/
def qIndex (q : Option Nat) : Nat := q.getD 64

/-- E, the records of a queue. -/
def Block.qSize (b : Block) (q : Option Nat) : Nat := 2 ^ (b.fld (qPage q) (qCtrl q) 1 4 + 6)
def Block.qEnabled (b : Block) (q : Option Nat) : Bool := b.fld (qPage q) (qCtrl q) 0 1 == 1

/-- The credits the module holds: E − (WR − RD) modulo 2¹⁷. -/
def Block.qCredits (b : Block) (q : Option Nat) : Nat :=
  b.qSize q - (b.regN (qPage q) (qWr q) + 2 ^ 17 - b.regN (qPage q) (qRd q)) % 2 ^ 17

/-- A write of EVQ_CTRL's RW fields; a change of EN from 0 to 1 starts the queue anew. -/
def Block.qControl (b : Block) (q : Option Nat) (v : Nat) : Block :=
  let old := b.regN (qPage q) (qCtrl q)
  let new := putField (legalize .perf 0x044 old (v % 2 ^ 27)) 27 1 (fieldOf old 27 1)
  if !bitOf old 0 && bitOf new 0 then
    let b := b.setN (qPage q) (qCtrl q) (putField new 27 1 0)
    ((b.setN (qPage q) (qWr q) 0).setN (qPage q) (qRd q) 0).setEvq (qIndex q) EvQueue.none
  else b.setN (qPage q) (qCtrl q) new

/-- Where an address of a queue lies: partition-virtual for a leaf; for the module a device address, or a host-window address that needs
no table (R604). -/
def Block.qWhere (b : Block) (q : Option Nat) (addr : Nat) : Xl :=
  match q with
  | some p => b.xl ⟨p, none⟩ addr true
  | none => match regionOf addr with
    | some .host => .host (addr - regionBase .host) false
    | some _ => .dev addr
    | none => .outside

/-- The module's write to memory for a queue; none where it meets no writable translation. It is a non-draft write (R187). -/
def Block.qPut (b : Block) (q : Option Nat) (addr : Nat) (bs : List Byte) : Option Block :=
  match b.qWhere q addr with
  | .dev a =>
    match q with
    | some p => some ((b.storeDev p addr a (clean bs)).ifSo (tierOf a == some .near) fun b => b.conflict p addr none)
    | none => some ((b.putTier a bs).ifSo (tierOf a == some .near) fun b => b.conflictDev a bs.length)
  | .host h _ => some ((b.putHost h (clean bs)).add64 (pageOf .hostif 0) 0x068 bs.length)
  | _ => none

/-- Its read of `n` bytes. -/
def Block.qGet (b : Block) (q : Option Nat) (addr n : Nat) : Option (Block × List Byte) :=
  match b.qWhere q addr with
  | .dev a =>
    match q with
    | some p => some ((b.loadDev p a n).1, raw (b.loadDev p a n).2)
    | none => some (b.mcRead a n, b.bytes a n)
  | .host h _ => some (b.add64 (pageOf .hostif 0) 0x060 n, raw (b.getHost h n))
  | _ => none

/-- SRC_PAGE in a queue's view (R599). -/
def Block.srcPage (b : Block) (q : Option Nat) (page : Nat) : Nat :=
  match q with
  | none => page
  | some p => (b.viewIndex p page).getD (page + 2 ^ 15)

/-- The 32 bytes of a record (R599). -/
def Block.evBytes (b : Block) (q : Option Nat) (e : EvRec) : List Byte :=
  let part := match e.part with
    | some p => p * 2 ^ 24
    | none => 2 ^ 30
  toBytes 8 e.time ++ toBytes 4 (b.srcPage q e.page % 2 ^ 16 + e.bit % 32 * 2 ^ 16 + e.sev * 2 ^ 21 + part) ++
    toBytes 4 (e.rep % 2 ^ 16) ++ toBytes 8 e.arg0.toNat ++ toBytes 8 e.arg1.toNat

/-- The function a queue interrupts. -/
def Block.qFn (b : Block) (q : Option Nat) : Nat :=
  match q with
  | some p => b.fnOf p
  | none => 0

/-- Raises a queue's vector; the holdoff begins anew. -/
def Block.qFire (b : Block) (q : Option Nat) : Block :=
  let hold := b.fld (qPage q) (qCtrl q) 19 8 * 1000
  let b := b.setEvq (qIndex q) { b.evq (qIndex q) with holdEnd := b.now + hold, covered := false }
  b.msix (b.qFn q) (b.fld (qPage q) (qCtrl q) 8 11)

/-- The interrupt of a record that has been written (R602). -/
def Block.qInterrupt (b : Block) (q : Option Nat) (sev : Nat) : Block :=
  let x := b.evq (qIndex q)
  if b.fld (qPage q) (qCtrl q) 7 1 = 0 then b
  else if 2 ≤ sev || x.holdEnd ≤ b.now then b.qFire q
  else b.setEvq (qIndex q) { x with covered := true }

/-- An event raised to the module queue alone (R601, R603). -/
def Block.raiseModule (b : Block) (page bit : Nat) (part : Option Nat) (arg0 : Nat) : Block :=
  let sev := severity page bit
  let b := b.setFld page 0x014 bit 1 1
  let dests := (b.eventDests page bit sev none []).filter Option.isNone
  let rec_ : EvRec := ⟨b.now, page, bit, sev, part, 0, BitVec.ofNat 64 arg0, 0, dests⟩
  if dests.isEmpty then b
  else { b with events := (if sev ≤ 1 then foldEvent b.now page bit b.events else none).getD (b.events ++ [rec_]) }

/-- A failed write stops a queue (R603). -/
def Block.qFail (b : Block) (q : Option Nat) (addr : Nat) : Block :=
  let b := (b.setFld (qPage q) (qCtrl q) 27 1 1).setFld (qPage q) (qCtrl q) 0 1 0
  match q with
  | some p => b.raiseModule (pageOf .part p) 3 q addr
  | none => b.setFld (pageOf .hostif 0) 0x014 5 1 1

/-- Writes a record to a queue that holds credit. -/
def Block.qWrite (b : Block) (q : Option Nat) (e : EvRec) : Block :=
  let wr := b.regN (qPage q) (qWr q)
  let addr := b.reg64 (qPage q) (qBase q) + 32 * (wr % b.qSize q)
  match b.qPut q addr (b.evBytes q e) with
  | some b => (b.setN (qPage q) (qWr q) ((wr + 1) % 2 ^ 17)).qInterrupt q e.sev
  | none => b.qFail q addr

/-- A record that finds no credit: the module queue's loss is raised on the DEV page, a leaf's on its PERF page (R601, R604). -/
def Block.qLose (b : Block) (q : Option Nat) : Block :=
  let x := b.evq (qIndex q)
  let b := (b.setEvq (qIndex q) { x with lost := x.lost + 1 }).add64 (qPage q) (qLost q) 1
  match q with
  | some p => b.raiseModule (perfPage p) 1 q (x.lost + 1)
  | none => b.setFld devPage 0x014 1 1 1

/-- The record that tells of losses. -/
def Block.lostRecord (b : Block) (q : Option Nat) : EvRec :=
  ⟨b.now, if q.isSome then qPage q else devPage, 1, 1, q, 0, BitVec.ofNat 64 (b.evq (qIndex q)).lost, 0, []⟩

/-- Brings a record to a queue: an EVQ_LOST record comes first once credit has returned. -/
def Block.qOffer (b : Block) (e : EvRec) (q : Option Nat) : Block :=
  if !b.qEnabled q then b
  else if b.qCredits q = 0 then b.qLose q
  else if (b.evq (qIndex q)).lost = 0 then b.qWrite q e
  else
    let told := b.lostRecord q
    let b := (b.setEvq (qIndex q) { b.evq (qIndex q) with lost := 0 }).qWrite q told
    if !b.qEnabled q then b
    else if b.qCredits q = 0 then b.qLose q
    else b.qWrite q e

/-- Takes the first element that `f` picks out of a list. -/
def takeFirst {α : Type} (f : α → Bool) : List α → Option (α × List α)
  | [] => none
  | x :: r => if f x then some (x, r) else (takeFirst f r).map fun q => (q.1, x :: q.2)

/-- EVENT_RECORD_WRITE: a record is due at once if it is FAULT or FATAL, else when its 10 µs have passed. -/
def execEventRecordWrite (s : State) : Host.Outcome State Fault Refusal :=
  onBlock (fun b =>
    match takeFirst (fun e => 2 ≤ e.sev || e.time + 10000 < b.now) b.events with
    | none => b
    | some (e, rest) => ({ b with events := rest }).each e.dests fun b q => b.qOffer e q) s

/-- EVQ_CONSUMER_READ: without credit, at most every 10 µs. -/
def execEvqConsumerRead (q : Option (Fin 64)) (s : State) : Host.Outcome State Fault Refusal :=
  onBlock (fun b =>
    let q := q.map Fin.val
    let x := b.evq (qIndex q)
    if !b.qEnabled q || b.qCredits q != 0 || !(x.lastRead = 0 || x.lastRead + 10000 ≤ b.now) then b
    else
      let b := b.setEvq (qIndex q) { x with lastRead := b.now }
      match b.qGet q (b.reg64 (qPage q) (qBase q) + 32 * b.qSize q) 8 with
      | some (b, bs) => b.setN (qPage q) (qRd q) (ofBytes bs % 2 ^ 17)
      | none => b) s

/-- EVQ_HOLDOFF_END. -/
def execEvqHoldoffEnd (q : Option (Fin 64)) (s : State) : Host.Outcome State Fault Refusal :=
  onBlock (fun b =>
    let q := q.map Fin.val
    let x := b.evq (qIndex q)
    if x.covered && x.holdEnd ≤ b.now && b.fld (qPage q) (qCtrl q) 7 1 == 1 then b.qFire q else b) s

/-- EVQ_ENABLE: a write of EVQ_CTRL. -/
def execEvqEnable (who : Agent) (p : Fin 64) (value : Word) (s : State) : Host.Outcome State Fault Refusal :=
  onBlock (fun b => b.ifSo (b.mayPerf who p 0x044) fun b => b.qControl (some p.val) value.toNat) s

/-- EVQ_MODULE_SET (R604). -/
def execEvqModuleSet (rq : Req) (base : Nat) (ctrl : Word) (s : State) : Host.Outcome State Fault Refusal :=
  onBlock (fun b =>
    let c := ctrl.toNat
    if rq.by_ != .pf then b.reply rq 0x70 0x02 [0]
    else if base % 4096 != 0 || (regionOf base).isNone || 2 ^ 27 ≤ c || 10 < fieldOf c 1 4 then b.reply rq 0x70 0x01 [0]
    else ((b.set64 devPage 0x208 base).qControl none c).reply rq 0x70 0 [0]) s

/-- EVENT_TEST (R605): BIT 31, ARG0 the request's SEQ; to the named queue alone. -/
def execEventTest (rq : Req) (leaf : Nat) (s : State) : Host.Outcome State Fault Refusal :=
  onBlock (fun b =>
    let no (c : Nat) : Block := b.reply rq 0x71 c [0]
    let rec_ (page : Nat) (part : Option Nat) : EvRec := ⟨b.now, page, 31, 0, part, 0, BitVec.ofNat 64 rq.seq.toNat, 0, []⟩
    if leaf = 127 then
      if rq.by_ != .pf then no 0x02 else (b.qOffer (rec_ devPage none) none).reply rq 0x71 0 [0]
    else if !(leaf < 64 && (b.part leaf).present && (b.part leaf).leaf) then no 0x01
    else if !b.fnOfLeaf rq.by_ leaf then no 0x02
    else if b.resetting leaf then no 0x04
    else (b.qOffer (rec_ (perfPage leaf) (some leaf)) (some leaf)).reply rq 0x71 0 [0]) s

end Sys2Proof.Machine
end

