-- ==== Sys2Proof/Machine/HostLink.lean ====
section
/-!
DEFINITION. The host attachment beside its mailboxes and the HDM window: the host window (R508 to R510), semaphores (R506),
MSI-X (R516), managed removal (R524), the link and its loss (R499 to R503, R515, R525).
-/

namespace Sys2Proof.Machine

/-! The host window (R508, R509). -/

/-- Where the entry of a page of a leaf's host-window table lies. -/
def Block.winEntry (b : Block) (p v : Nat) : Nat := b.reg64 (partPage p) 0x128 + 8 * v

/-- The checks that HOSTWIN_MAP and HOSTWIN_UNMAP share. -/
def Block.winRefused (b : Block) (rq : Req) (p first count : Nat) : Option Nat :=
  if !(b.part p).present || !(b.part p).leaf then some 0x01
  else if !b.fnOfLeaf rq.by_ p then some 0x02
  else if b.resetting p || !(b.grant p).loaded then some 0x04
  else if b.regN (partPage p) 0x130 < first + count then some 0x01
  else none

/-- HOSTWIN_MAP: entries with a reserved bit set are refused, and those with COH = 1 but from function 0. -/
def execHostwinMap (rq : Req) (p : Fin 64) (first count : Nat) (entries : Src) (s : State) : Host.Outcome State Fault Refusal :=
  onBlock (fun b =>
    match b.winRefused rq p first count with
    | some code => b.reply rq 0x32 code [0]
    | none =>
      let bs := b.argBytes (some p.val) entries (8 * count)
      let es := (List.range count).map fun i => ofBytes ((bs.drop (8 * i)).take 8)
      if es.any fun e => fieldOf e 5 16 != 0 then b.reply rq 0x32 0x01 [0]
      else if rq.by_ != .pf && es.any fun e => bitOf e 4 then b.reply rq 0x32 0x02 [0]
      else
        let stale := (List.range count).any fun i => bitOf (b.num (b.winEntry p (first + i)) 8) 0
        let b := b.each es.zipIdx fun b q => b.putTierNum (b.winEntry p (first + q.2)) 8 q.1
        (b.ifSo stale fun b => b.xlatInvStart p 1).reply rq 0x32 0 [0]) s

/-- HOSTWIN_UNMAP: it replies when the invalidation completes (R218). -/
def execHostwinUnmap (rq : Req) (p : Fin 64) (first count : Nat) (s : State) : Host.Outcome State Fault Refusal :=
  onBlock (fun b =>
    match b.winRefused rq p first count with
    | some code => b.reply rq 0x33 code [0]
    | none =>
      let b := b.each (List.range count) fun b i => b.putTierNum (b.winEntry p (first + i)) 8 0
      { b with invWaits := b.invWaits ++ [(p.val, rq, 0x33)] }.xlatInvStart p 1) s

/-- The Cart flights that an access to the host window may end: those that have started on engine `sel` picks. -/
def Block.hostFlights (b : Block) (sel : Nat → Bool) : List (Nat × Flight) :=
  (b.flights.zipIdx.filter fun q => 256 ≤ q.1.engine && q.1.engine < 320 && sel (q.1.engine - 256) && q.1.started && !q.1.done &&
    (b.sides q.1.part q.1.word).any fun s => regionOf s.lo == some .host).map fun q => (q.2, q.1)

/-- PCIe's code of a completion's status. -/
def hostStatus : HostFail → Option Nat
  | .unsupported => some 1
  | .completerAbort => some 4
  | .timeout => none

/-- HOST_ERR with a completion status, or with one the spec does not give where there was no completion. -/
def Block.hostErrWhy (b : Block) (p va : Nat) (why : HostFail) : Block :=
  match hostStatus why with
  | some st => b.hostErr p va st
  | none => b.windowErr p va

/-- A completion timeout comes 50 ms after a request (R510), and no request is older than its carriage. -/
def hostTimeout : Nat := 50000000

/-- HOST_ERR (R510): the Cart carriage whose access failed ends with a fault status. -/
def execHostErr (e : Fin 64) (why : HostFail) (addr : Nat) (s : State) : Host.Outcome State Fault Refusal :=
  onBlock (fun b =>
    match b.hostFlights (· == e.val) with
    | [] => b
    | (i, f) :: _ =>
      if why = .timeout ∧ b.now < f.startAt + hostTimeout then b
      else (b.endFault i f).hostErrWhy f.part addr why) s

/-! Semaphores and interrupts. -/

/-- The module's semaphore that index `i` of a function's window names (R506). -/
def Block.semOfFn (b : Block) (who : Agent) (i : Nat) : Option Nat :=
  match who with
  | .vf v =>
    match b.partOfVf v with
    | none => none
    | some q => (b.leavesUnder q).findSome? fun p =>
      let base := b.regN (partPage p) 0x138
      if base ≤ i && i < base + (b.grant p).semCount then some ((b.grant p).semBase + (i - base)) else none
  | .pf => if i < 16384 then some i else none
  | _ => none

/-- A write of SEM_ADD_i (R506, R172): values other than 1 to 2³¹ are ignored. -/
def Block.semAdd (b : Block) (who : Agent) (i v : Nat) : Block :=
  if v = 0 || 2 ^ 31 < v then b
  else match b.semOfFn who i with
    | some k => b.addSem k v
    | none => b

/-- SEM_ADD. -/
def execSemAdd (who : Agent) (i : Nat) (value : Word) (s : State) : Host.Outcome State Fault Refusal :=
  onBlock (fun b => b.semAdd who i value.toNat) s

/-- MSIX_UNMASK (R516): the host clears a vector's mask; one that is pending is sent. -/
def execMsixUnmask (who : Agent) (vector : Fin 2048) (s : State) : Host.Outcome State Fault Refusal :=
  onBlock (fun b =>
    let go (fn : Nat) : Block :=
      let b := b.setFld (msixPage fn vector) (msixOff vector 12) 0 1 0
      let ctrl := b.regN (msixCtrlPage fn) 0
      let off := 0x10 + 4 * (vector.val / 32)
      if bitOf (b.regN (msixCtrlPage fn) off) (vector % 32) && bitOf ctrl 0 && !bitOf ctrl 1 then
        (b.setFld (msixCtrlPage fn) off (vector % 32) 1 0).emit (.msix fn vector)
      else b
    match who with
    | .pf => go 0
    | .vf v => go (1 + v)
    | _ => b) s

/-! Managed removal (R524). -/

/-- The leaves that run, and whether a leaf's channels have stopped. -/
def Block.runningLeaves (b : Block) : List Nat := b.allLeaves.filter fun p => (b.grant p).loaded

def Block.leafStopped (b : Block) (p : Nat) : Bool :=
  (b.grant p).channels.all fun c => b.fld (pageOf .chan c) 0x048 0 2 == 0 || (b.chan c).quiesced

/-- Ends with a fault status every carriage that runs, but those parked in an image. -/
def Block.endRunning (b : Block) : Block := b.faultFlights fun f => f.engine < 2 ^ 20

/-- QUIESCE: in mode 0 a leaf with a step under way stops at its commit, every other one at its next carriage boundary. -/
def execQuiesce (rq : Req) (mode timeoutMs : Nat) (s : State) : Host.Outcome State Fault Refusal :=
  onBlock (fun b =>
    if rq.by_ != .pf then b.reply rq 0x35 0x02 [0]
    else if 2 ≤ mode then b.reply rq 0x35 0x01 [0]
    else if b.quiescing.isSome then b.reply rq 0x35 0x04 [0]
    else
      let now := b.runningLeaves.filter fun p => mode == 1 || b.phase p == 0
      ({ b with quiescing := some ⟨rq, mode, b.now + timeoutMs * 1000000⟩ }).each now Block.stopLeaf) s

/-- QUIESCE_TIMEOUT: what still runs ends with a fault status, and every leaf stops. -/
def execQuiesceTimeout (s : State) : Host.Outcome State Fault Refusal :=
  onBlock (fun b => match b.quiescing with
    | none => b
    | some q => if q.deadline ≤ b.now then (b.each b.runningLeaves Block.stopLeaf).endRunning else b) s

/-- QUIESCE_COMPLETE: every leaf has stopped, no carriage is incomplete, no back-invalidation is outstanding; the window is unbound,
doorbells are no longer accepted, the command replies. -/
def execQuiesceComplete (s : State) : Host.Outcome State Fault Refusal :=
  onBlock (fun b => match b.quiescing with
    | none => b
    | some q =>
      if !(b.runningLeaves.all b.leafStopped) || (b.flights.any fun f => f.engine < 2 ^ 20) then b
      else
        let b := if b.hdmBound.isSome then b.hdmUnbind else b
        if b.hdm.move.isSome || b.snoopWaits then b
        else (({ b with quiescing := none }).setFld hostPage 0x040 10 1 1).reply q.rq 0x35 0 [0]) s

/-- UNQUIESCE (R523). A QUIESCE that has not completed is given up. -/
def execUnquiesce (rq : Req) (s : State) : Host.Outcome State Fault Refusal :=
  onBlock (fun b =>
    if rq.by_ != .pf then b.reply rq 0x36 0x02 [0]
    else
      let b := match b.quiescing with
        | some q => ({ b with quiescing := none }).reply q.rq 0x35 0x04 [0]
        | none => b
      let b := b.each (List.range 256) fun b c => b.setChan c { b.chan c with quiesced := false }
      (b.setFld hostPage 0x040 10 1 0).reply rq 0x36 0 [0]) s

/-! The link. -/

/-- Configuration and MSI-X state of a function at their reset values (R503). -/
def Block.resetFunction (b : Block) (fn : Nat) : Block :=
  let r := storeClear b.regs (regKey (msixPage fn 0) 0) (regKey (msixPage (fn + 1) 0) 0)
  let r := storeClear r (regKey (msixCtrlPage fn) 0) (regKey (msixCtrlPage (fn + 1)) 0)
  { b with regs := r }

/-- What a hot reset or a link down does to every function (R503). -/
def Block.resetPort (b : Block) : Block :=
  let b := b.each (List.range 17) Block.resetFunction
  ({ b with ide := [] }).setFld hostPage 0x040 8 2 0

/-- Reads of the host window in flight when the link is lost deliver poisoned data (R525). DEDUCED (log 199): what a CART has in flight is the
row at which it stands, unless that has been read and waits for its destination. -/
def Block.lostRead (b : Block) (i : Nat) (f : Flight) : Block :=
  let c := cartOf f.word
  if c.mode = 3 || regionOf c.src != some .host || !f.buf.isEmpty then b
  else
    let bs := (List.range c.rowBytes).map fun k => ((Config.freeValue (b.free + k)).truncate 8, true)
    ({ b with free := b.free + c.rowBytes }.cartRow ⟨f.engine - 256, i, c⟩ { f with buf := bs, scales := [], rowLen := c.rowBytes } none
      (b.cartSide f.part c.dst c.dstRing false)).1

/-- A link down (R503, R525): one that no QUIESCE precedes fails the host's requests in flight and loses the window. -/
def Block.linkDown (b : Block) : Block :=
  let quiet := b.fld hostPage 0x040 10 1 == 1
  let b := (b.resetPort).setFld hostPage 0x040 0 8 0
  let b := b.ifSo (!quiet) fun b =>
    let b := b.each (b.hostFlights fun _ => true) fun b q => ((b.lostRead q.1 q.2).endFault q.1 q.2).windowErr q.2.part
      (((b.sides q.2.part q.2.word).find? fun s => regionOf s.lo == some .host).map Side.lo |>.getD 0)
    b.hdmLost
  ((b.add64 hostPage 0x090 1).raise hostPage 0).platformEvent hostPage 0

/-- HOST_LINK_DOWN (R503, R525, R623). -/
def execHostLinkDown (kind : LinkDownKind) (s : State) : Host.Outcome State Fault Refusal :=
  onBlock (fun b => match kind with
    | .hotReset => b.resetPort
    | .perst => b.linkDown
    | .linkDown => b.linkDown
    | .surprise => b.linkDown) s

/-- HOST_LINK_UP (R500, R501, R525, R526): `width` lanes at 16 GT/s (1), 32 GT/s (2) or 64 GT/s (3). -/
def execHostLinkUp (width rate : Nat) (s : State) : Host.Outcome State Fault Refusal :=
  onBlock (fun b =>
    if !([1, 2, 4, 8].contains width && 1 ≤ rate && rate ≤ 3) then b
    else
      let b := (b.setFld hostPage 0x040 0 6 (width + rate * 16)).raise hostPage 1
      b.ifSo (width != 8 || rate != 3) fun b => b.raise hostPage 2) s

/-- HOST_TRAIN_FAIL (R500, R631): it is reported over the sideband alone. -/
def execHostTrainFail (why : Nat) (s : State) : Host.Outcome State Fault Refusal := onBlock (fun b => b.emit (.pldm 0x0B why)) s

/-- IDE_FAIL (R515). -/
def execIdeFail (s : State) : Host.Outcome State Fault Refusal := onBlock (fun b => (b.raise hostPage 3).linkDown) s

end Sys2Proof.Machine
end

