-- ==== Sys2Proof/Machine/Lending.lean ====
section
/-!
DEFINITION. Lending and reclaiming arrays (R487 to R494, R315).
-/

namespace Sys2Proof.Machine

/-- Sets or clears LOCK on the pages of a pair. -/
def Block.lockPair (b : Block) (a v : Nat) : Block :=
  (b.setFld (arrayPage a) 0x01C 0 1 v).setFld (vecPage a) 0x01C 0 1 v

/-- Whether every condition of R487 holds for a lend of array `a` to slot `slot` of the fill leaf in the array's field. -/
def Block.mayLend (b : Block) (lender fill a slot : Nat) : Bool :=
  let l := b.recOfPart lender
  let f := b.recOfPart fill
  let k := slotKey fill (a / 32) slot
  let ph := b.phase lender
  let loaded (p : Nat) : Bool := (b.grant p).loaded && b.partState p == 2
  let idle := b.arrayState a == 0 && b.arrayIdle a && (b.arr a).lentTo.isNone &&
    !(b.flights.any fun x => x.engine == a || x.engine == engVec a) && b.fld (arrayPage a) 0x180 0 1 == 0
  let free := (b.slot k).bound.isNone && !((List.range 128).any fun x => match (b.arr x).lentTo with
    | some t => t.fill == fill && x / 32 == a / 32 && t.slot == slot
    | none => false)
  loaded lender && loaded fill && l.lendOk && bitOf (b.govern lender 0x200) 7 && (ph == 1 || ph == 3 || ph == 4) &&
    bitOf (b.grant lender).arrays.toNat a && idle && f.fillOk && slot < (b.part fill).hold.fill.getD (a / 32) 0 && free &&
    (b.grant lender).bayBytes + f.fillBay ≤ baySize && 7472 + f.fillBay / 64 ≤ 6 * b.fieldClk (a / 32)

/-- Where the fill bytes of a lent bay begin (R488). -/
def fillBase (a fillBay : Nat) : Nat := regionBase .bay + (a + 1) * baySize - fillBay

/-- LEND: the lender's context is saved, the pair zeroed, the slot's bay bytes are laid in. -/
def execLend (lender fill : Fin 64) (a : Fin 128) (slot : Nat) (s : State) : Host.Outcome State Fault Refusal :=
  onBlock (fun b =>
    if !b.mayLend lender fill a slot then b
    else
      let fb := (b.recOfPart fill).fillBay
      let kept := (b.slot (slotKey fill (a / 32) slot)).bay
      let b := ((b.keepImage a (lenderKey a)).zeroPair a).putM (fillBase a fb)
        ((kept ++ List.replicate fb ((0 : Byte), false)).take fb)
      let b := (b.setArr a { b.arr a with lentTo := some ⟨fill, lender, slot, none⟩ }).setPairState a 2
      (b.setFld (partPage lender) 0x0D0 0 8 (b.fld (partPage lender) 0x0D0 0 8 + 1)).lockPair a 1) s

/-- LEND_DONE: the slot's context is restored, the slot is bound, its carriages go on. -/
def execLendDone (a : Fin 128) (s : State) : Host.Outcome State Fault Refusal :=
  onBlock (fun b =>
    match (b.arr a).lentTo with
    | none => b
    | some l =>
      let k := slotKey l.fill (a / 32) l.slot
      if b.arrayState a != 2 || (b.slot k).bound.isSome || l.reclaimAt.isSome then b
      else
        let b := (b.takeImage a (slotImageKey k) (b.image (slotImageKey k))).setImage (slotImageKey k) CtxImage.none
        let b := b.setSlot k ⟨some a.val, []⟩
        let b := b.setFld (partPage l.fill) 0x0D0 8 8 (b.fld (partPage l.fill) 0x0D0 8 8 + 1)
        (((b.setPairState a 0).lockPair a 0).touchEngine a).touchEngine (engVec a)) s

/-- Whether a lender carriage that names array `a` stands at the head of a channel (R492). -/
def Block.lenderWaits (b : Block) (lender a : Nat) : Bool :=
  (b.grant lender).channels.any fun c => match b.atHead c with
    | none => false
    | some (p, w) =>
      let named : List Nat := match cType w with
        | 0x01 => [(Sys2Proof.Machine.streamOf w).array]
        | 0x02 => (foldOf w).members.map (32 * (foldOf w).field + ·)
        | 0x03 => [(chainOf w).engine]
        | 0x04 => if (cartOf w).dstKind == 1 then [(cartOf w).array] else []
        | _ => []
      named.any fun i => b.arrayAt p i == some (.unit a)

/-- Saves the context and the bay bytes of a bound slot (R491); where the save fails the slot's state is lost (R494). -/
def Block.saveSlot (b : Block) (a : Nat) (l : Lent) (ok : Bool) : Block :=
  let k := slotKey l.fill (a / 32) l.slot
  let fb := (b.recOfPart l.fill).fillBay
  if ok then (b.keepImage a (slotImageKey k)).setSlot k ⟨some a, b.getM (fillBase a fb) fb⟩
  else
    let b := b.each b.flights.zipIdx fun b q =>
      if (q.1.engine == a || q.1.engine == engVec a) && !q.1.done then
        (b.setFlight q.2 { q.1.finish with faulted := true }).spoilCtx q.1.ctx .fault
      else b
    b.raisePart l.fill 2 a l.slot

/-- RECLAIM: it starts when the lender needs the array; the slot is saved and unbound, the pair zeroed, the lender's context
restored. A lend still in progress is given up. -/
def execReclaim (a : Fin 128) (saveOk restoreOk : Bool) (s : State) : Host.Outcome State Fault Refusal :=
  onBlock (fun b =>
    match (b.arr a).lentTo with
    | none => b
    | some l =>
      let k := slotKey l.fill (a / 32) l.slot
      let fb := (b.recOfPart l.fill).fillBay
      if l.reclaimAt.isSome || b.fld (arrayPage a) 0x00C 0 1 == 1 || !(b.phase l.lender == 2 || b.lenderWaits l.lender a) then b
      else
        let b := (b.add64 (partPage l.lender) 0x0E0 1).lockPair a 1
        let b := if (b.slot k).bound = some a.val then
            let b := b.saveSlot a l saveOk
            (b.setSlot k { b.slot k with bound := none }).setFld (partPage l.fill) 0x0D0 8 8
              (b.fld (partPage l.fill) 0x0D0 8 8 - 1)
          else b
        let b := (b.zeroPair a).zero (fillBase a fb) (fillBase a fb + fb)
        let b := b.setArr a { b.arr a with lentTo := some { l with reclaimAt := some b.now }, stopped := false }
        if restoreOk then
          ((b.takeImage a (lenderKey a) (b.image (lenderKey a))).setImage (lenderKey a) CtxImage.none).setPairState a 2
        else
          let b := ((b.endLend a).setImage (lenderKey a) CtxImage.none).setPairState a 0
          let b := (b.setFld (arrayPage a) 0x00C 0 1 1).lockPair a 0
          (b.raise (arrayPage a) 2 (b.holderOf a)).openRec (.array a)) s

/-- RECLAIM_DONE: the lender has its array back. -/
def execReclaimDone (a : Fin 128) (s : State) : Host.Outcome State Fault Refusal :=
  onBlock (fun b =>
    match (b.arr a).lentTo with
    | none => b
    | some l => match l.reclaimAt with
      | none => b
      | some t =>
        let page := partPage l.lender
        let b := ((b.endLend a).setPairState a 0).lockPair a 0
        let b := b.setFld page 0x0E8 0 24 (max (b.fld page 0x0E8 0 24) (min (b.now - t) (2 ^ 24 - 1)))
        (b.touchEngine a).touchEngine (engVec a)) s

end Sys2Proof.Machine
end

