-- ==== Sys2Proof/Machine/Resets.lean ====
section
/-!
DEFINITION. The resets (R195, R238 to R241, R274, R295, R470, R503, R567, R626): warm, function-level and cold.
-/

namespace Sys2Proof.Machine

/-! What a warm and a function-level reset have in common. -/

/-- The carriages `sel` picks stop where they stand; those that are complete and the COMMITs and DISCARDs remain. -/
def Block.dropFlights (b : Block) (sel : Flight → Bool) : Block :=
  let b := b.interruptAll fun f => sel f && !f.done
  let keep (f : Flight) : Bool := !sel f || f.done || cType f.word == 0x0B || cType f.word == 0x0C
  let gone := b.flights.filter fun f => !keep f
  let b := b.each (List.range 8) fun b q =>
    if gone.any fun f => f.engine == engFold q then b.foldRelease q else b
  let b := { b with flights := b.flights.filter keep }
  (b.each gone fun b f => b.touchEngine f.engine).showPruners

/-- A reset channel is enabled empty (R470: the runtime issues the step again). -/
def Block.resetChan (b : Block) (c : Nat) : Block :=
  if b.chanState c = 0 then b
  else
    let q := (b.chan c).quiesced
    let b := b.chanEnable c
    b.setChan c { b.chan c with quiesced := q }

/-- The open step of a leaf ends; what is committed stays (R470). -/
def Block.dropStep (b : Block) (p : Nat) : Block :=
  let x := b.run p
  let b := b.setRun p { x with sums := [], norm := NormUnit.none, barrier := Barrier.none, toldNorm := false, toldRec := false, toldStep := false }
  b.setFld (partPage p) 0x284 0 2 0

/-- Whether a commit word can be read: either of its copies lies unpoisoned on a channel that keeps its contents (R239, R456). -/
def Block.commitReads (b : Block) (p d : Nat) : Bool :=
  [d, 16 + d].any fun i =>
    let a := (b.grant p).commitWord.getD i 0
    !(b.mc .near (channelOf .near a)).filling && !b.marked (a / 64)

/-- A draft after a reset (R195, R196): one whose commit word is written commits, every other one is discarded. -/
def Block.recoverDraft (b : Block) (p d : Nat) : Block :=
  let x := b.draft p d
  let b := b.setDraft p d { x with scr0 := (0, 0), scr1 := (0, 0) }
  match x.state with
  | .free => b
  | .committing => match x.closing with
    | some w => if b.commitReads p d then b.draftCommitted p d w else b.draftDiscarded p d x.closing (reasonCode .reset)
    | none => b
  | .discarding => b.draftDiscarded p d x.closing (reasonCode x.reason)
  | .open_ => b.draftDiscarded p d x.closing (reasonCode .reset)
  | .spoiled => b.draftDiscarded p d x.closing (reasonCode .reset)

/-- What follows the reset of a leaf with a manifest: its drafts, then ledger and Coach recovery are outstanding. -/
def Block.recoverLeaf (b : Block) (p : Nat) : Block :=
  if !(b.grant p).loaded then b
  else
    let b := b.each (List.range 16) fun b d => b.recoverDraft p d
    let b := (b.setN (partPage p) 0x2A0 1).showPruners
    (b.setShard p { b.shard p with recovering := b.exchState p != 0 }).dropJoin p

/-- The keys of a session are discarded; its next envelope waits for a handshake with FRESH = 1 (R549). -/
def Keys.discarded : Keys := { Keys.none with fresh := true }

/-- A pair after a reset: ZERO (R295, R470). -/
def Block.resetPair (b : Block) (a : Nat) : Block :=
  let b := b.zeroPair a
  b.setArr a { b.arr a with stopped := false }

/-! Warm reset. -/

/-- Bays, yard, contexts, lends and what the engines have staged after a warm reset (R274, R470); retired arrays are retired again, the
others are tested (R119, R120). -/
def Block.resetUnits (b : Block) (retired : BitVec 128) : Block :=
  let b := b.each (List.range 128) fun b a => (b.endLend a).resetPair a
  let b := b.zero (regionBase .bay) (regionBase .bay + regionSize .bay)
  let b := b.zero (regionBase .yard) (regionBase .yard + regionSize .yard)
  let b := { b with images := [], slots := [] }
  let b := b.each (List.range 64) fun b e => b.setCartU e CartUnit.none
  b.each (List.range 128) fun b a =>
    if bitOf retired.toNat a then (b.setPairState a 3).setFld devPage (0x050 + 4 * (a / 32)) (a % 32) 1 1
    else (b.setPairState a 0).ifSo (b.domainReady (a / 8)) fun b => b.selftestStart a

/-- What Hawthorn does at a warm reset before it releases the Steward (R539, R558): MR2 to MR6 are zero, the debug port is locked. -/
def Block.hawWarm (b : Block) : Block :=
  let page := pageOf .hawthorn 0
  let regs := storeClear b.regs (regKey page 0x140) (regKey page 0x1E0)
  let b := { b with regs := regs }
  let haw := { b.haw with scope := 0, released := false, halted := 0, coreRegs := [], tapIn := [], tapOut := 0 }
  ({ b with haw := haw }).setFld page 0x040 3 1 0

/-- The assertion of a warm reset. -/
def Block.warmStart (b : Block) (retired : BitVec 128) (rqs : List Req) : Block :=
  match b.warm with
  | some w => { b with warm := some { w with rqs := w.rqs ++ rqs } }
  | none =>
    let b := { b with warm := some ⟨rqs, false⟩ }.setN recPage 0x044 2
    let b := ({ b with memQ := [] }.dropFlights fun _ => true).drainAll
    let b := b.each b.allLeaves fun b p =>
      let b := (b.dropStep p).setN (partPage p) 0x2A0 0
      let b := b.setShard p { b.shard p with recovering := false }
      b.ifSo (b.resetting p) fun b => b.setFld (partPage p) 0x0C0 0 3 2
    let b := b.each (List.range 256) Block.resetChan
    let b := b.resetUnits retired
    let sessions := b.sessions.map fun (q : Nat × Keys) => (q.1, Keys.discarded)
    let flows := b.flows.map fun (q : Nat × Flow) => (q.1, { q.2 with queue := [] })
    let b := ({ b with sessions := sessions, flows := flows }).hawWarm
    b.ifSo (!b.recOpen .deviceKept) fun b => b.openRec .deviceKept

/-- WARM_RESET: function 0's command, or the module's own. The reply follows when the reset ends. -/
def execWarmReset (rq : Option Req) (s : State) : Host.Outcome State Fault Refusal :=
  onBoth (fun nv b =>
    (nv, match rq with
      | none => b.warmStart nv.retired []
      | some rq => if rq.by_ != .pf then b.reply rq 0x37 0x02 [0] else b.warmStart nv.retired [rq])) s

/-- PLDM_WARM_RESET (R632): a request over the sideband joins a reset that is under way.  It is answered once the Steward has started. -/
def execPldmWarmReset (s : State) : Host.Outcome State Fault Refusal :=
  onBoth (fun nv b => (nv, if b.warm.isSome || b.haw.released then b.warmStart nv.retired [] else b)) s

/-- MC_DRAIN_DONE: every write that holds a slot has been completed and the check-granule cache written back; within 50 µs the devices
enter self-refresh. -/
def execMcDrainDone (t : Tier) (k : Fin 32) (s : State) : Host.Outcome State Fault Refusal :=
  onBlock (fun b => match (b.mc t k).draining with
    | none => b
    | some t0 =>
      if b.now ≤ t0 + 50000 then
        let b := b.issueBatch t k fun _ => true
        let x := b.mc t k
        (b.setMc t k { x with draining := none, chk := x.chk.map fun e => (e.1, false) }).setMcState t k 3
      else b) s

/-- DRAIN_TIMEOUT (R239): the channel's contents are lost with the fault that follows the restart. -/
def execDrainTimeout (t : Tier) (k : Fin 32) (s : State) : Host.Outcome State Fault Refusal :=
  onBlock (fun b => match (b.mc t k).draining with
    | none => b
    | some t0 =>
      if t0 + 50000 ≤ b.now then
        let b := (b.setMc t k { b.mc t k with draining := none, faultNext := true }).setMcState t k 3
        b.raise (pageMc t k) 4 none k 0 b.allLeaves
      else b) s

/-- Decided clock steps apply before work resumes (R581). -/
def Block.applyClocks (b : Block) : Block :=
  b.each (List.range 4) fun b f =>
    if b.stepDecided f then
      let b := b.setN clockPage (0x050 + 4 * f) (b.fieldClk f - 25)
      let power := { b.power with decided := storePut (fun _ => false) b.power.decided f false }
      let b := { b with power := power }
      b.each (List.range 32) fun b i => b.setFld (arrayPage (32 * f + i)) 0x01C 0 1 0
    else b

/-- The domains that THERMAL_TRIP switched off are woken again, in the order of R567, but for those the operator switched off. -/
def Block.rewake (b : Block) : Block :=
  let order := [18, 19] ++ List.range 16
  let ds := order.filter fun d => bitOf b.power.tripped.toNat d && !bitOf b.power.operatorOff.toNat d
  let power := { b.power with tripped := 0, wakeQueue := b.power.wakeQueue ++ ds.filter fun d => !b.power.wakeQueue.contains d }
  let b := { b with power := power }
  if ds.isEmpty then b
  else
    let warm := b.warm.map fun (w : Warm) => { w with waking := true }
    ({ b with warm := warm }).setFld devPage 0x040 0 3 1

/-- SELF_REFRESH_EXIT: every controller has drained; they retrain and serve again, but for one whose drain timed out, a channel fault (R239);
the Steward reads the journal and the commit words. -/
def execSelfRefreshExit (s : State) : Host.Outcome State Fault Refusal :=
  onBlock (fun b =>
    let each (f : Tier → Nat → Bool) : Bool := [Tier.near, Tier.deep].all fun t => (List.range 32).all fun k => f t k
    match b.warm with
    | none => b
    | some w =>
      if w.waking || !each (fun t k => (b.mc t k).draining.isNone) then b
      else
        let b := b.each [Tier.near, Tier.deep] fun b t => b.each (List.range 32) fun b k =>
          if b.mcState t k = 3 then b.setMcState t k (if (b.mc t k).filling then 4 else 2) else b
        let b := b.each [Tier.near, Tier.deep] fun b t => b.each (List.finRange 32) fun b k =>
          b.ifSo ((b.mc t k).faultNext && b.mcState t k == 2) fun b => b.chanFaulted t k 3
        let b := (b.each b.allLeaves Block.recoverLeaf).endDevice
        let b := b.applyClocks.rewake
        let b := b.hdmPump b.hdm.held
        let waking : Bool := match b.warm with
          | some w => w.waking
          | none => false
        b.ifSo (!waking) Block.warmEnd) s

/-! Function-level resets. -/

/-- The fill slots of a leaf lose their contexts; a slot bound now keeps its array (R470). -/
def Block.resetSlots (b : Block) (p : Nat) : Block :=
  let fb := (b.recOfPart p).fillBay
  b.each (List.range 128) fun b i =>
    let k := 128 * p + i
    let b := b.setImage (slotImageKey k) CtxImage.none
    match (b.slot k).bound with
    | some a => (b.resetPair a).zero (fillBase a fb) (fillBase a fb + fb)
    | none => b.setSlot k FillSlot.none

/-- The array contexts and bay ranges of a leaf (R470); the context of an array lent out stands in the lender's image. -/
def Block.resetArrays (b : Block) (p : Nat) : Block :=
  b.each (unitsIn (b.part p).hold.arrays.toNat 0 128) fun b a =>
    let lo := regionBase .bay + a * baySize
    let key := b.ctxAddr a / 4096
    let b := b.ifSo (b.image key).valid fun b =>
      (b.setImage key CtxImage.none).zero (b.ctxAddr a) (b.ctxAddr a + 0x3D000)
    match (b.arr a).lentTo with
    | none =>
      let b := (b.resetPair a).zero lo (lo + baySize)
      if b.retired a then b else ((b.setPairState a 0).setCtxResult a 0).selftestStart a
    | some _ => (b.setImage (lenderKey a) CtxImage.none).zero lo (lo + (b.grant p).bayBytes)

/-- The controllers complete the writes of a leaf that hold slots and drop its other requests (R241). -/
def Block.resetRequests (b : Block) (p : Nat) : Block :=
  let b := { b with memQ := b.memQ.filter fun r => accessLeaf r.who != some p }
  b.each [Tier.near, Tier.deep] fun b t => b.each (List.range 32) fun b k => b.issueBatch t k fun s => s.part == some p

/-- The reset of a leaf. -/
def Block.resetLeaf (b : Block) (p : Nat) : Block :=
  if !(b.part p).present || !(b.part p).leaf then b
  else
    let b := (b.resetRequests p).dropFlights fun f => f.part == p
    let b := ((b.dropStep p).resetArrays p).resetSlots p
    let b := b.each (unitsIn (b.part p).hold.carts.toNat 0 64) Block.clearCart
    let b := b.each (b.grant p).yardRanges fun b q => b.zero q.1 q.2
    let b := b.each (b.grant p).channels Block.resetChan
    let b := b.each (b.partnersOf p) fun b q => b.setSession q.session Keys.discarded
    (b.recoverLeaf p).ifSo ((b.grant p).loaded && b.partState p == 2) fun b => b.setPartState p 4

/-- FUNCTION_LEVEL_RESET (R241, R470). -/
def execFunctionLevelReset (p : Fin 64) (s : State) : Host.Outcome State Fault Refusal :=
  onBlock (fun b => b.resetLeaf p) s

/-- FLR_VF (R503): the top-level partition the function serves and every partition below it. -/
def execFlrVf (v : Fin 16) (s : State) : Host.Outcome State Fault Refusal :=
  onBlock (fun b =>
    let b := b.resetFunction (1 + v)
    match b.partOfVf v with
    | none => b
    | some q => b.each (b.leavesUnder q) Block.resetLeaf) s

/-- FLR_FUNCTION0 (R503). -/
def execFlrFunction0 (s : State) : Host.Outcome State Fault Refusal :=
  onBlock (fun b =>
    (b.resetFunction 0).each [0, 1, 2] fun b m =>
      let r := storeClear b.regs (regKey (mbxRegion m) 0) (regKey (mbxRegion m) 0x1000)
      let r := storeClear r (regKey (pageOf .mbx m) 0x040) (regKey (pageOf .mbx m) 0x060)
      ({ b with regs := r }).setMbx m Mailbox.none) s

/-! Cold resets. -/

/-- The module after a loss of its input (R240, R470, R575): what the Steward's non-volatile record, the host and the outside hold
stays, and so do the registers of the HAWTHORN page that only say what the fuses hold. -/
def Block.cold (b : Block) : Block :=
  let page := pageOf .hawthorn 0
  let power := { Power.reset with history := b.power.history, ageNs := b.power.ageNs + b.now, pmonBase := b.power.pmonBase }
  let fresh := { Block.reset with free := b.free, hostMem := b.hostMem, hostBad := b.hostBad, out := b.out, power := power }
  (((fresh.setN recPage 0x044 1).setN page 0x044 (b.regN page 0x044)).setN page 0x048 (b.fld page 0x048 0 16)).set64 page 0x050 (b.reg64 page 0x050)

/-- COLD_RESET. -/
def execColdReset (s : State) : Host.Outcome State Fault Refusal := onBlock Block.cold s

/-- INPUT_FAULT (R572, R626): an input outside its limits is a cold reset; time allowing, FATAL INPUT_FAULT comes before. -/
def execInputFault (timeAllows : Bool) (tenMv : BitVec 16) (s : State) : Host.Outcome State Fault Refusal :=
  onBlock (fun b =>
    let mv := tenMv.toNat
    let long : Bool := match b.power.rangeSince with
      | some t => t + 10000000 < b.now
      | none => false
    if 4800 ≤ mv && mv ≤ 6000 && !(tolerated mv && long) then b
    else
      let b := b.setN powerPage 0x068 mv
      (b.ifSo timeAllows fun b => b.raise powerPage 2 none mv).cold) s

end Sys2Proof.Machine
end

