-- ==== Sys2Proof/Machine/Hawthorn.lean ====
section
/-!
DEFINITION. Hawthorn (R530 to R544, R552, R560 to R563): fuses, firmware images and the boot chain, measurements, the random source,
its mailbox commands.
-/

namespace Sys2Proof.Machine

/-! Fuses (R533, R534). -/

/-- A bit is blown when any of its cells reads blown under either margin. -/
def FuseBit.blown (f : FuseBit) : Bool := (f.low ||| f.high) != 0

/-- A bit all of whose cells are blown. -/
def FuseBit.whole : FuseBit := ⟨7, 7⟩

/-- Blows again what reads intact of a blown bit. -/
def FuseBit.mend (f : FuseBit) : FuseBit := if f.blown then FuseBit.whole else f

/-- The one-bit fields of the owner slots and the vendor keys; a hash none of whose cells is blown is zero. -/
def fuseDefault : Nat → FuseBit := fun _ => FuseBit.intact
def hashDefault : Nat → List Byte := fun _ => List.replicate 32 0
def Fuses.validBit (f : Fuses) (i : Nat) : FuseBit := storeGet fuseDefault f.ownerValid i
def Fuses.revokeBit (f : Fuses) (i : Nat) : FuseBit := storeGet fuseDefault f.ownerRevoke i
def Fuses.vendorBit (f : Fuses) (i : Nat) : FuseBit := storeGet fuseDefault f.vendorRevoke i
def Fuses.ownerKeyHash (f : Fuses) (i : Nat) : List Byte := storeGet hashDefault f.ownerHash i
def Fuses.vendorKeyHash (f : Fuses) (i : Nat) : List Byte := storeGet hashDefault f.vendorHash i

def Fuses.ownerActive (f : Fuses) (i : Nat) : Bool :=
  (f.validBit i).blown && !(f.revokeBit i).blown
def Fuses.ownerSpent (f : Fuses) (i : Nat) : Bool :=
  f.ownerTouched.getLsbD i && !(f.validBit i).blown
def Fuses.vendorActive (f : Fuses) (i : Nat) : Bool := i < 2 && !(f.vendorBit i).blown
def Fuses.owned (f : Fuses) : Bool := (List.range 4).any f.ownerActive
def Fuses.svn (f : Fuses) (kind : Nat) : Nat := if kind = 1 then f.svnHfw else f.svnSfw

/-- FUSE_STATE (R563). -/
def Fuses.state (f : Fuses) : Nat :=
  let bits (n : Nat) (g : Nat → Bool) : Nat := ((List.range n).map fun i => b2n (g i) * 2 ^ i).sum
  b2n f.dbgSeal.blown + 2 * bits 2 (fun i => !f.vendorActive i) + 8 * bits 4 f.ownerActive +
    2 ^ 7 * bits 4 (fun i => (f.revokeBit i).blown) + 2 ^ 11 * bits 4 f.ownerSpent

/-- The fuses as Hawthorn senses them at every boot. -/
def Fuses.mend (f : Fuses) : Fuses :=
  let each (m : Store FuseBit) : Store FuseBit := m.map fun q => (q.1, q.2.mend)
  { f with vendorRevoke := each f.vendorRevoke, ownerValid := each f.ownerValid, ownerRevoke := each f.ownerRevoke,
           dbgSeal := f.dbgSeal.mend }

/-- The HAWTHORN page shows what the fuses hold. -/
def Block.showFuses (b : Block) (f : Fuses) : Block :=
  let b := (b.setN hawPage 0x044 f.state).setFld hawPage 0x040 2 1 (b2n f.owned)
  b.setFld hawPage 0x048 0 16 (f.svnHfw + f.svnSfw * 2 ^ 8)

/-- Fuses have been blown: the page shows it, FUSE_BLOWN is raised. -/
def Block.blew (b : Block) (f : Fuses) : Block := (b.showFuses f).raise hawPage 6

/-! Measurements and identity (R541, R542). -/

def Block.mr (b : Block) (i : Nat) : List Byte := b.regBytes hawPage (0x100 + 0x20 * i) 8
def Block.setMr (b : Block) (i : Nat) (v : List Byte) : Block := b.setBytes hawPage (0x100 + 0x20 * i) v 8
def Block.extendMr (b : Block) (i : Nat) (v : List Byte) : Block := b.setMr i (Config.shake256 (b.mr i ++ v) 32)

/-- DEVICE_ID: the first 64 bits of the hash of the DevID public key. -/
def deviceIdOf (nv : NonVolatile) : Nat := ofBytes ((Config.shake256 (padTo 1793 (Config.falconKey (devIdSeed nv))) 32).take 8)

/-- The seed of the alias key: UDS, MR0, MR1, MR2, "ALIAS". -/
def Block.aliasSeed (b : Block) (nv : NonVolatile) : List Byte :=
  Config.shake256 (nv.fuses.uds ++ b.mr 0 ++ b.mr 1 ++ b.mr 2 ++ [0x41#8, 0x4C#8, 0x49#8, 0x41#8, 0x53#8]) 32

/-! Firmware images (R535, R536). -/

def keyHash (key : List Byte) : List Byte := Config.shake256 (padTo 1793 key) 32

/-- Whether an image of a kind (1 HFW, 2 SFW) verifies. -/
def imageVerifies (f : Fuses) (kind : Nat) (i : FwImage) : Bool :=
  let signedPart := i.header.take 0xE50
  i.magic == 0x48574631 && i.kind == kind && i.rsvOk && i.svn ≤ 64 && f.svn kind ≤ i.svn &&
    i.bodyBytes ≤ (if kind = 1 then 2 ^ 19 else 2 ^ 24) && i.bodyBytes == i.body.length &&
    i.bodyHash == Config.shake256 i.body 32 &&
    ((List.range 2).any fun k => f.vendorActive k && f.vendorKeyHash k == keyHash i.vendorKey) &&
    Config.falconVerify i.vendorKey signedPart i.vendorSig &&
    (!f.owned || (i.ownerSigned && ((List.range 4).any fun k => f.ownerActive k && f.ownerKeyHash k == keyHash i.ownerKey) &&
      Config.falconVerify i.ownerKey signedPart i.ownerSig))

/-- The boot flash's slot of a kind: A (false) or B (true). -/
def slotIndex (kind : Nat) (s : Bool) : Nat := 2 * (kind - 1) + b2n s
def NonVolatile.slot (nv : NonVolatile) (kind : Nat) (s : Bool) : Option FwImage := storeGet (fun _ => none) nv.flash (slotIndex kind s)
def NonVolatile.first (nv : NonVolatile) (kind : Nat) : Bool := if kind = 1 then nv.hfwFirst else nv.sfwFirst

/-- The image of a slot, if it verifies. -/
def NonVolatile.good (nv : NonVolatile) (kind : Nat) (s : Bool) : Option FwImage :=
  match nv.slot kind s with
  | some i => if imageVerifies nv.fuses kind i then some i else none
  | none => none

/-- The slot a boot runs with its image: the first choice, else the other (R537). -/
def NonVolatile.bootSlot (nv : NonVolatile) (kind : Nat) : Option (Bool × FwImage) :=
  let s := nv.first kind
  match nv.good kind s, nv.good kind (!s) with
  | some i, _ => some (s, i)
  | none, some i => some (!s, i)
  | none, none => none

/-- Hawthorn starts an image: its slot and SVN, the fallback event, the measurement of its header. -/
def Block.started (b : Block) (nv : NonVolatile) (kind : Nat) (s : Bool) (i : FwImage) : Block :=
  let b := (b.setFld hawPage 0x040 (4 + kind) 1 (b2n s)).setFld hawPage 0x048 (8 + 8 * kind) 8 i.svn
  let b := b.ifSo (s != nv.first kind) fun b => b.raise hawPage 0
  b.extendMr kind (Config.shake256 i.header 32)

/-- Hawthorn enters RECOVERY. -/
def Block.enterRecovery (b : Block) : Block := (b.setFld hawPage 0x040 0 2 2).raise hawPage 1

/-- Hawthorn's HW_STATE.STATE: 0 BOOT, 1 RUN, 2 RECOVERY. -/
def Block.hawState (b : Block) : Nat := b.fld hawPage 0x040 0 2

/-! Thorn's key slots (R554, R555). -/

def Block.thornSlot (b : Block) (k : Nat) : ThornSlot := storeGet (fun _ => ThornSlot.none) b.haw.thorn k
/-- The Thorn slots with slot `k` replaced. -/
def Block.withThorn (b : Block) (k : Nat) (x : ThornSlot) : Store ThornSlot := storePut (fun _ => ThornSlot.none) b.haw.thorn k x
def thornPage : Nat := pageOf .thorn 0

/-- A key word takes effect: the usage count is 0, the limit is the present one. -/
def Block.thornWord (b : Block) (k w : Nat) (v : Word) : Block :=
  let x := b.thornSlot k
  let bit : BitVec 8 := BitVec.ofNat 8 (2 ^ w)
  let redone := x.redone ||| bit
  let written := x.written ||| bit
  let x := { x with words := storePut (fun _ => 0) x.words w v, written := written, limit := 2 ^ b.fld thornPage 0x060 0 5,
                    redone := redone, spent := x.spent && redone != 255 }
  let haw := { b.haw with thorn := b.withThorn k x }
  let b := ({ b with haw := haw }).set64 thornPage (0x180 + 8 * k) 0
  b.setFld thornPage 0x044 (2 + k) 1 (b2n (written == 255))

/-- A key write, which waits while an operation uses the slot. -/
def Block.thornKey (b : Block) (k w : Nat) (v : Word) : Block :=
  let busy : Bool := match b.haw.thornRun with
    | some r => r.slot == k
    | none => false
  if busy then
    let x := b.thornSlot k
    let haw := { b.haw with thorn := b.withThorn k { x with next := x.next ++ [(w, v)] } }
    { b with haw := haw }
  else b.thornWord k w v

/-- A whole key. -/
def Block.thornWhole (b : Block) (k : Nat) (ws : List Word) : Block :=
  b.each (List.range 8) fun b w => b.thornKey k w (ws.getD w 0)

/-! The boot chain (R537 to R539). -/

/-- HAWTHORN_BOOT: the ROM senses the fuses, completes their blows, tests the entropy source and starts the firmware. -/
def execHawthornBoot (entropyOk : Bool) (s : State) : Host.Outcome State Fault Refusal :=
  onBoth (fun nv b =>
    if b.hawState != 0 then (nv, b)
    else
      let nv := { nv with fuses := nv.fuses.mend }
      let b := (b.showFuses nv.fuses).set64 hawPage 0x050 (deviceIdOf nv)
      let b := b.setFld hawPage 0x040 4 1 (b2n entropyOk)
      let b := b.ifSo (!entropyOk) fun b =>
        let haw := { b.haw with failedAt := b.now }
        ({ b with haw := haw }).raise hawPage 2
      let b := b.extendMr 0 (toBytes 4 nv.fuses.state ++ toBytes 4 (b.regN hawPage 0x048) ++ List.replicate 24 0)
      match nv.bootSlot 1 with
      | none => (nv, b.enterRecovery)
      | some (s, i) =>
        let b := (b.started nv 1 s i).thornWhole 0 (wordsOf 8 (padTo 32 (Config.recordKey nv.fuses.uds)))
        (nv, b.setFld hawPage 0x040 0 2 1)) s

/-- The process monitors are read at every cold reset; the first reading of the module's life stays as the baseline (R578, R587). -/
def Block.readMonitors (b : Block) (pmon : List (BitVec 16)) : Block :=
  let now := (List.range 32).map fun i => (pmon.getD i 0).toNat
  let base := if b.power.pmonBase.isEmpty then now else b.power.pmonBase
  let power := { b.power with pmonBase := base }
  ({ b with power := power }).each (List.range 32) fun b i =>
    b.setN (pageOf .health 0) (0x700 + 4 * i) (now.getD i 0 + base.getD i 0 * 2 ^ 16)

/-- The Steward retires again the arrays its non-volatile record names (R120). -/
def Block.retireAgain (b : Block) (retired : BitVec 128) : Block :=
  b.each (unitsIn retired.toNat 0 128) fun b a => (b.setPairState a 3).setFld devPage (0x050 + 4 * (a / 32)) (a % 32) 1 1

/-- STEWARD_RELEASE: after power-good, and after a warm reset (R539). -/
def execStewardRelease (ms : BitVec 16) (pmon : List (BitVec 16)) (s : State) : Host.Outcome State Fault Refusal :=
  onBoth (fun nv b =>
    if b.hawState != 1 || b.haw.released then (nv, b)
    else match nv.bootSlot 2 with
      | none => (nv, b.enterRecovery)
      | some (s, i) =>
        let first := !b.haw.booted
        let haw := { b.haw with released := true, booted := true }
        let b := ({ b with haw := haw }).started nv 2 s i
        let b := b.ifSo first fun b => (b.setN hawPage 0x058 ms.toNat).readMonitors pmon
        (nv, b.retireAgain nv.retired)) s

/-! The random source (R552). -/

/-- ENTROPY_FAIL. -/
def execEntropyFail (s : State) : Host.Outcome State Fault Refusal :=
  onBlock (fun b =>
    let haw := { b.haw with failedAt := b.now }
    (({ b with haw := haw }).setFld hawPage 0x040 4 1 0).raise hawPage 2) s

/-- ENTROPY_RETEST, a second after the last failure. -/
def execEntropyRetest (pass : Bool) (s : State) : Host.Outcome State Fault Refusal :=
  onBlock (fun b =>
    if b.entropyOk || b.now < b.haw.failedAt + 1000000000 then b
    else if pass then b.setFld hawPage 0x040 4 1 1
    else
      let haw := { b.haw with failedAt := b.now }
      { b with haw := haw }) s

/-- DRBG_RESEED. -/
def execDrbgReseed (s : State) : Host.Outcome State Fault Refusal :=
  onBlock (fun b =>
    if b.haw.sinceSeed < 2 ^ 20 || !b.entropyOk then b
    else
      let haw := { b.haw with sinceSeed := 0 }
      { b with haw := haw }) s

/-! Commands (R561, R562). -/

/-- The code of the first check that fails. -/
def firstCode (cs : List (Bool × Nat)) : Option Nat := (cs.find? Prod.fst).map Prod.snd

/-- Function 0 on MBX[1], the Steward on MBX[3]. -/
def isF0 (rq : Req) : Bool := rq.by_ == .pf && rq.mbx.val == 1
def isS (rq : Req) : Bool := rq.by_ == .steward && rq.mbx.val == 3

/-- The checks of every command: its arguments, its issuer, Hawthorn's state. -/
def Block.hawChecks (b : Block) (badArgs issuer recovery : Bool) : List (Bool × Nat) :=
  [(badArgs, 0x01), (!issuer, 0x02), (!(b.hawState == 1 || (recovery && b.hawState == 2)), 0x04)]

/-- The bytes a signed request's signature covers. -/
def signedBody (r : SignedReq) : List Byte :=
  toBytes 4 (r.code % 256) ++ toBytes 4 0 ++ toBytes 8 r.deviceId ++ padTo 32 r.nonce ++ padTo 32 r.argHash ++ toBytes 4 (r.slot % 8) ++
    toBytes 4 0 ++ padTo 1800 r.pubKey

/-- The 3,168 bytes of a signed request. -/
def signedBytes (r : SignedReq) : List Byte := signedBody r ++ padTo 1280 r.signature

/-- Whether a signed request authorises a command with this data argument, signed in one of these slots. -/
def Block.authorises (b : Block) (nv : NonVolatile) (r : SignedReq) (code : Nat) (arg : Option (List Byte)) (slots : List Nat) : Bool :=
  let f := nv.fuses
  let fresh : Bool := match b.haw.nonce with
    | some (n, t) => n == r.nonce && b.now ≤ t + 60000000000
    | none => false
  let argHash := match arg with
    | some a => Config.shake256 a 32
    | none => List.replicate 32 0
  let key := if r.slot < 4 then (f.ownerActive r.slot, f.ownerKeyHash r.slot) else (f.vendorActive (r.slot - 4), f.vendorKeyHash (r.slot - 4))
  r.code == code && r.deviceId == deviceIdOf nv && fresh && r.argHash == argHash && slots.contains r.slot && key.1 && key.2 == keyHash r.pubKey &&
    Config.falconVerify r.pubKey (signedBody r) r.signature

/-- A nonce serves one signed request. -/
def Block.spendNonce (b : Block) (r : Option SignedReq) : Block :=
  match r, b.haw.nonce with
  | some r, some (n, _) =>
    if n == r.nonce then
      let haw := { b.haw with nonce := none }
      { b with haw := haw }
    else b
  | _, _ => b

def ownerSlots : List Nat := [0, 1, 2, 3]
def vendorSlots : List Nat := [4, 5]

/-- Whether the signed request that a command needs in OWNED authorises it. -/
def Block.ownerSays (b : Block) (nv : NonVolatile) (r : Option SignedReq) (code : Nat) (arg : Option (List Byte)) : Bool :=
  !nv.fuses.owned || match r with
    | some r => b.authorises nv r code arg ownerSlots
    | none => false

/-- INFO. -/
def execInfo (rq : Req) (s : State) : Host.Outcome State Fault Refusal :=
  onBlock (fun b =>
    match firstCode (b.hawChecks false (isF0 rq || isS rq) (isF0 rq)) with
    | some c => b.reply rq 0x01 c [0]
    | none => b.reply rq 0x01 0 ([0] ++ words64 (b.reg64 hawPage 0x050) ++ [b.reg hawPage 0x040, b.reg hawPage 0x044, b.reg hawPage 0x048])) s

/-- RANDOM. -/
def execRandom (rq : Req) (count : Nat) (s : State) : Host.Outcome State Fault Refusal :=
  onBlock (fun b =>
    match firstCode (b.hawChecks (count = 0 || 8 < count) (isS rq) false ++ [(!b.entropyOk, 0x08)]) with
    | some c => b.reply rq 0x02 c [0]
    | none =>
      let (b, ws) := b.drawRandom count
      b.reply rq 0x02 0 ([0] ++ ws.map fun w => BitVec.ofNat 32 w.toNat)) s

/-- NONCE. -/
def execNonce (rq : Req) (s : State) : Host.Outcome State Fault Refusal :=
  onBlock (fun b =>
    match firstCode (b.hawChecks false (isF0 rq) true ++ [(!b.entropyOk, 0x08)]) with
    | some c => b.reply rq 0x03 c [0]
    | none =>
      let (b, bs) := b.drawBytes 4
      let haw := { b.haw with nonce := some (bs, b.now) }
      ({ b with haw := haw }).reply rq 0x03 0 ([0] ++ wordsOf 8 bs)) s

/-- Whether a firmware kind is one. -/
def badKind (kind : Nat) : Bool := kind != 1 && kind != 2

/-- The slot of a kind that runs. -/
def Block.runningSlot (b : Block) (kind : Nat) : Bool := b.fld hawPage 0x040 (4 + kind) 1 == 1

/-- FW_STAGE: the image goes into the slot that does not run, and is verified there. -/
def execFwStage (rq : Req) (kind : Nat) (image : FwImage) (s : State) : Host.Outcome State Fault Refusal :=
  onBoth (fun nv b =>
    match firstCode (b.hawChecks (badKind kind) (isF0 rq) true) with
    | some c => (nv, b.reply rq 0x04 c [0])
    | none =>
      let nv := { nv with flash := storePut (fun _ => none) nv.flash (slotIndex kind (!b.runningSlot kind)) (some image) }
      (nv, b.reply rq 0x04 (if imageVerifies nv.fuses kind image then 0 else 0x07) [0])) s

/-- FW_ACTIVATE. -/
def execFwActivate (rq : Req) (kind : Nat) (s : State) : Host.Outcome State Fault Refusal :=
  onBoth (fun nv b =>
    let staged := !b.runningSlot kind
    match firstCode (b.hawChecks (badKind kind) (isF0 rq) true ++ [((nv.good kind staged).isNone, 0x07)]) with
    | some c => (nv, b.reply rq 0x05 c [0])
    | none => (if kind = 1 then { nv with hfwFirst := staged } else { nv with sfwFirst := staged }, b.reply rq 0x05 0 [0])) s

/-- SVN_COMMIT. -/
def execSvnCommit (rq : Req) (kind : Nat) (s : State) : Host.Outcome State Fault Refusal :=
  onBoth (fun nv b =>
    let new := b.fld hawPage 0x048 (8 + 8 * kind) 8
    let holds (s : Bool) : Bool := match nv.slot kind s with
      | some i => new ≤ i.svn
      | none => false
    match firstCode (b.hawChecks (badKind kind) (isF0 rq) false ++ [(!holds false || !holds true, 0x04)]) with
    | some c => (nv, b.reply rq 0x06 c [0])
    | none =>
      if new ≤ nv.fuses.svn kind then (nv, b.reply rq 0x06 0 [0])
      else
        let fuses := if kind = 1 then { nv.fuses with svnHfw := new } else { nv.fuses with svnSfw := new }
        ({ nv with fuses := fuses }, (b.blew fuses).reply rq 0x06 0 [0])) s

/-- OWNER_KEY_ADD: `senseOk` is what the verification of the blown hash finds; one that fails leaves the slot spent. -/
def execOwnerKeyAdd (rq : Req) (slot : Nat) (key : List Byte) (sr : Option SignedReq) (senseOk : Bool) (s : State) :
    Host.Outcome State Fault Refusal :=
  onBoth (fun nv b =>
    let f := nv.fuses
    let used := (f.validBit slot).blown || f.ownerTouched.getLsbD slot
    match firstCode (b.hawChecks (4 ≤ slot) (isF0 rq) false ++
        [(used, 0x04), (!b.ownerSays nv sr 0x07 (some (padTo 1793 key)), 0x07)]) with
    | some c => (nv, (b.ifSo (c == 0x07) fun b => b.spendNonce sr).reply rq 0x07 c [0])
    | none =>
      let b := b.spendNonce (if f.owned then sr else none)
      let touched := f.ownerTouched ||| BitVec.ofNat 4 (2 ^ slot)
      if senseOk then
        let f := { f with ownerHash := storePut hashDefault f.ownerHash slot (keyHash key), ownerTouched := touched,
                          ownerValid := storePut fuseDefault f.ownerValid slot FuseBit.whole }
        ({ nv with fuses := f }, (b.blew f).reply rq 0x07 0 [0])
      else
        let f := { f with ownerHash := storePut hashDefault f.ownerHash slot ((List.range 4).flatMap fun i => toBytes 8 (Config.freeValue (b.free + i)).toNat),
                          ownerTouched := touched }
        ({ nv with fuses := f }, (b.tick.tick.tick.tick.blew f).reply rq 0x07 0x07 [0])) s

/-- OWNER_KEY_REVOKE. -/
def execOwnerKeyRevoke (rq : Req) (slot : Nat) (sr : SignedReq) (s : State) : Host.Outcome State Fault Refusal :=
  onBoth (fun nv b =>
    let f := nv.fuses
    let last := (List.range 4).all fun i => i == slot || !f.ownerActive i
    match firstCode (b.hawChecks (4 ≤ slot) (isF0 rq) false ++
        [(!f.ownerActive slot || last, 0x04), (!b.authorises nv sr 0x08 none ownerSlots, 0x07)]) with
    | some c => (nv, (b.ifSo (c == 0x07) fun b => b.spendNonce (some sr)).reply rq 0x08 c [0])
    | none =>
      let f := { f with ownerRevoke := storePut fuseDefault f.ownerRevoke slot FuseBit.whole }
      ({ nv with fuses := f }, ((b.spendNonce (some sr)).blew f).reply rq 0x08 0 [0])) s

/-- VENDOR_KEY_REVOKE. -/
def execVendorKeyRevoke (rq : Req) (slot : Nat) (sr : SignedReq) (s : State) : Host.Outcome State Fault Refusal :=
  onBoth (fun nv b =>
    let f := nv.fuses
    match firstCode (b.hawChecks (2 ≤ slot) (isF0 rq) false ++
        [(!f.vendorActive slot || !f.vendorActive (1 - slot), 0x04), (!b.authorises nv sr 0x09 none [4 + (1 - slot)], 0x07)]) with
    | some c => (nv, (b.ifSo (c == 0x07) fun b => b.spendNonce (some sr)).reply rq 0x09 c [0])
    | none =>
      let f := { f with vendorRevoke := storePut fuseDefault f.vendorRevoke slot FuseBit.whole }
      ({ nv with fuses := f }, ((b.spendNonce (some sr)).blew f).reply rq 0x09 0 [0])) s

/-- MR_EXTEND. -/
def execMrExtend (rq : Req) (index : Nat) (value : List Byte) (s : State) : Host.Outcome State Fault Refusal :=
  onBlock (fun b =>
    let issuer := if index = 6 then (isF0 rq) else (isS rq)
    match firstCode (b.hawChecks (index < 3 || 6 < index) issuer false) with
    | some c => b.reply rq 0x0A c [0]
    | none => (b.extendMr index (padTo 32 value)).reply rq 0x0A 0 [0]) s

/-- FABRIC_SET: the list governs from a port's next training. -/
def execFabricSet (rq : Req) (hashes : List (List Byte)) (sr : Option SignedReq) (s : State) : Host.Outcome State Fault Refusal :=
  onBoth (fun nv b => (nv,
    let list := hashes.map (padTo 32)
    match firstCode (b.hawChecks (1024 < hashes.length) (isF0 rq) false ++
        [(!b.ownerSays nv sr 0x0B (some list.flatten), 0x07)]) with
    | some c => (b.ifSo (c == 0x07) fun b => b.spendNonce sr).reply rq 0x0B c [0]
    | none =>
      let b := b.spendNonce (if nv.fuses.owned then sr else none)
      let haw := { b.haw with fabric := list }
      ({ b with haw := haw }).reply rq 0x0B 0 [0])) s

/-! The debug port (R558, R560). -/

/-- Closes the debug port. -/
def Block.closePort (b : Block) : Block :=
  let haw := { b.haw with scope := 0, tapIn := [], tapOut := 0 }
  ({ b with haw := haw }).setFld hawPage 0x040 3 1 0

/-- DEBUG_UNLOCK. -/
def execDebugUnlock (rq : Req) (scope : Word) (sr : SignedReq) (s : State) : Host.Outcome State Fault Refusal :=
  onBoth (fun nv b => (nv,
    let f := nv.fuses
    match firstCode (b.hawChecks (8 ≤ scope.toNat) (isF0 rq) false ++
        [(f.dbgSeal.blown, 0x04),
         (!b.authorises nv sr 0x0C (some (toBytes 4 scope.toNat)) (if f.owned then ownerSlots else vendorSlots), 0x07)]) with
    | some c => (b.ifSo (c == 0x07) fun b => b.spendNonce (some sr)).reply rq 0x0C c [0]
    | none =>
      let b := b.spendNonce (some sr)
      let haw := { b.haw with scope := scope, unlockedAt := b.now }
      let b := (({ b with haw := haw }).setFld hawPage 0x040 3 1 1).extendMr 7 (Config.shake256 (signedBytes sr) 32)
      (b.raise hawPage 4).reply rq 0x0C 0 [0])) s

/-- DEBUG_LOCK. -/
def execDebugLock (rq : Req) (s : State) : Host.Outcome State Fault Refusal :=
  onBlock (fun b =>
    match firstCode (b.hawChecks false (isF0 rq) false) with
    | some c => b.reply rq 0x0D c [0]
    | none => b.closePort.reply rq 0x0D 0 [0]) s

/-- DBG_SEAL_BLOW: MBX[2] is absent at once. -/
def execDbgSealBlow (rq : Req) (confirm : Word) (deviceId : DWord) (sr : Option SignedReq) (s : State) : Host.Outcome State Fault Refusal :=
  onBoth (fun nv b =>
    let f := nv.fuses
    match firstCode (b.hawChecks false (isF0 rq) false ++
        [(b.debugOpen || f.dbgSeal.blown, 0x04), (confirm.toNat != 0x5EA1 || deviceId.toNat != deviceIdOf nv, 0x07),
         (!b.ownerSays nv sr 0x0E none, 0x07)]) with
    | some c => (nv, (b.ifSo (c == 0x07) fun b => b.spendNonce sr).reply rq 0x0E c [0])
    | none =>
      let b := (b.spendNonce (if f.owned then sr else none)).closePort
      let f := { f with dbgSeal := FuseBit.whole }
      let b := (b.setMbx 2 Mailbox.none).extendMr 7 (List.replicate 32 0x5E)
      ({ nv with fuses := f }, ((b.blew f).raise hawPage 5).reply rq 0x0E 0 [0])) s

end Sys2Proof.Machine
end

