-- ==== Sys2Proof/Machine/Thorn.lean ====
section
/-!
DEFINITION. Thorn, the keyed-check engine (R553 to R557), and Hawthorn's commands that use it (R562).
-/

namespace Sys2Proof.Machine

/-! AES-256-CMAC (R553). -/

def xorBytes (a b : List Byte) : List Byte := List.zipWith (· ^^^ ·) a b

/-- A block of 16 bytes, its first byte the most significant, doubled in GF(2¹²⁸). -/
def cmacDouble (l : List Byte) : List Byte :=
  let v := ofBytes l.reverse
  let w := v * 2 % 2 ^ 128
  (toBytes 16 (if 2 ^ 127 ≤ v then w ^^^ 0x87 else w)).reverse

/-- max(1, ⌈L/16⌉). -/
def cmacBlocks (len : Nat) : Nat := max 1 (ceilDiv len 16)

/-- The last block of a message, masked: whole under K1, padded with 0x80 and zeros under K2. -/
def cmacLast (k1 last : List Byte) : List Byte :=
  if last.length = 16 then xorBytes last k1 else xorBytes (padTo 16 (last ++ [0x80#8])) (cmacDouble k1)

/-- The tag of a message. -/
def cmac (key msg : List Byte) : List Byte :=
  let zero : List Byte := List.replicate 16 0
  let k1 := cmacDouble (Config.aes256 key zero)
  let n := cmacBlocks msg.length
  let x := (List.range (n - 1)).foldl (fun x i => Config.aes256 key (xorBytes x ((msg.drop (16 * i)).take 16))) zero
  Config.aes256 key (xorBytes x (cmacLast k1 (msg.drop (16 * (n - 1)))))

/-! Operations. -/

/-- The eight words of a slot's key. -/
def ThornSlot.key (x : ThornSlot) : List Word := (List.range 8).map (storeGet (fun _ => 0) x.words)

def Block.thornUsed (b : Block) (k : Nat) : Nat := b.reg64 thornPage (0x180 + 8 * k)

/-- Refuses an operation. -/
def Block.thornRefuse (b : Block) : Block := b.setFld thornPage 0x044 0 2 3

/-- Starts an operation over `len` bytes with a slot; one that would pass the slot's limit is refused before it starts (R555). -/
def Block.thornBegin (b : Block) (k len : Nat) : Block :=
  let x := b.thornSlot k
  if x.written != 255 then b.thornRefuse
  else if x.limit < b.thornUsed k + cmacBlocks len then
    let haw := { b.haw with thorn := b.withThorn k { x with spent := true, redone := 0 } }
    ({ b with haw := haw }).thornRefuse.raise thornPage 0 none k
  else if x.spent then b.thornRefuse
  else
    let haw := { b.haw with thornRun := some ⟨k, bytesOfWords x.key, len, []⟩ }
    ({ b with haw := haw }).setFld thornPage 0x044 0 2 1

/-- Message bytes; those beyond L are ignored. -/
def Block.thornFeed (b : Block) (bs : List Byte) : Block :=
  match b.haw.thornRun with
  | none => b
  | some r =>
    let haw := { b.haw with thornRun := some { r with msg := (r.msg ++ bs).take r.len } }
    { b with haw := haw }

/-- The tag of an operation whose message is whole. -/
def Block.thornTag (b : Block) : Option (List Byte) :=
  match b.haw.thornRun with
  | some r => if r.msg.length = r.len then some (cmac r.key r.msg) else none
  | none => none

/-- An operation ends: its tag can be read, its blocks are counted, the key words that waited take effect. -/
def Block.thornEnd (b : Block) : Block :=
  match b.haw.thornRun, b.thornTag with
  | some r, some tag =>
    let x := b.thornSlot r.slot
    let haw := { b.haw with thornRun := none, thorn := b.withThorn r.slot { x with next := [] } }
    let b := ((({ b with haw := haw }).setBytes thornPage 0x050 tag 4).setFld thornPage 0x044 0 2 2).add64 thornPage (0x180 + 8 * r.slot)
      (cmacBlocks r.len)
    b.each x.next fun b q => b.thornWord r.slot q.1 q.2
  | _, _ => b

/-- THORN_START: Hawthorn's write to TH_CTRL. -/
def execThornStart (value : Word) (s : State) : Host.Outcome State Fault Refusal :=
  onBlock (fun b =>
    let b := b.setFld thornPage 0x040 0 3 value.toNat
    if bitOf value.toNat 3 && b.haw.thornRun.isNone then b.thornBegin (value.toNat % 8) (b.regN thornPage 0x048) else b) s

/-- TH_DATA_WRITE. -/
def execThDataWrite (value : Word) (s : State) : Host.Outcome State Fault Refusal :=
  onBlock (fun b => b.thornFeed (toBytes 4 value.toNat)) s

/-- TH_KEY_WRITE. -/
def execThKeyWrite (slot : Fin 8) (w : Fin 8) (value : Word) (s : State) : Host.Outcome State Fault Refusal :=
  onBlock (fun b => b.thornKey slot w value) s

/-- THORN_DONE. -/
def execThornDone (s : State) : Host.Outcome State Fault Refusal := onBlock Block.thornEnd s

/-! Commands. -/

/-- Slots 1 to 7 are the issuers' (R554). -/
def badThornSlot (slot : Nat) : Bool := slot = 0 || 8 ≤ slot

/-- THORN_KEY_SET: its nine arguments need 12 or 16 message registers. -/
def execThornKeySet (rq : Req) (slot : Nat) (key : List Word) (s : State) : Host.Outcome State Fault Refusal :=
  onBlock (fun b =>
    let short := !b.mbxQueue rq.mbx && b.mbxRegs rq.mbx < 12
    match firstCode (b.hawChecks (badThornSlot slot || key.length != 8 || short) (isF0 rq) false) with
    | some c => b.reply rq 0x0F c [0]
    | none => (b.thornWhole slot key).reply rq 0x0F 0 [0]) s

/-- THORN_KEY_DERIVE. -/
def execThornKeyDerive (rq : Req) (slot : Nat) (label : List Word) (s : State) : Host.Outcome State Fault Refusal :=
  onBoth (fun nv b => (nv,
    match firstCode (b.hawChecks (badThornSlot slot || label.length != 4) (isF0 rq || isS rq) false) with
    | some c => b.reply rq 0x10 c [0]
    | none => (b.thornWhole slot (wordsOf 8 (Config.shake256 (nv.fuses.uds ++ bytesOfWords label) 32))).reply rq 0x10 0 [0])) s

/-- THORN_MAC: function 0 names host memory, the Steward device addresses. -/
def execThornMac (rq : Req) (slot : Nat) (message : Src) (length : Nat) (s : State) : Host.Outcome State Fault Refusal :=
  onBlock (fun b =>
    let badSrc : Bool := match message with
      | .host _ => isS rq
      | .virt _ => isF0 rq
    match firstCode (b.hawChecks (badThornSlot slot || 2 ^ 32 ≤ length || badSrc) (isF0 rq || isS rq) false ++
        [(b.haw.thornRun.isSome, 0x04)]) with
    | some c => b.reply rq 0x11 c [0]
    | none =>
      let b := ((b.setFld thornPage 0x040 0 3 slot).setN thornPage 0x048 length).thornBegin slot length
      if b.haw.thornRun.isNone then b.reply rq 0x11 0x04 [0]
      else
        let b := (b.thornFeed (b.argBytes none message length)).thornEnd
        b.reply rq 0x11 0 (0 :: (List.range 4).map fun i => b.reg thornPage (0x050 + 4 * i))) s

end Sys2Proof.Machine
end

