-- ==== Sys2Proof/Machine/Spdm.lean ====
section
/-!
DEFINITION. Attestation and IDE keys (R545, R546, R551): the SPDM responder of function 0, whose codes are those of the SPDM standard
that R545 names, and the key sets of the IDE streams.
-/

namespace Sys2Proof.Machine

/-- The SPDM responder of a module whose Hawthorn runs. -/
def Block.spdm (b : Block) : Spdm := b.haw.spdm
def Block.setSpdm (b : Block) (x : Spdm) : Block :=
  let haw := { b.haw with spdm := x }
  { b with haw := haw }

/-- Answers ERROR with an error code: 1 InvalidRequest, 2 InvalidSession, 3 Busy, 4 UnexpectedRequest, 6 DecryptError,
0x0A SessionLimitExceeded, 0x0E RequestTooLarge, 0x0F LargeResponse. -/
def Block.spdmError (b : Block) (code : Nat) (data : List Nat := []) : Block := b.emit (.spdm 0x7F (code :: data) [])

/-- A request that needs the connection negotiated as far as `stage`. -/
def spdmAt (stage : Nat) (f : Block → Block) (s : State) : Host.Outcome State Fault Refusal :=
  onBlock (fun b => if b.hawState != 1 then b else if b.spdm.stage < stage then b.spdmError 4 else f b) s

/-- The same with the non-volatile records. -/
def spdmWith (stage : Nat) (f : NonVolatile → Block → Block) (s : State) : Host.Outcome State Fault Refusal :=
  onBoth (fun nv b => (nv, if b.hawState != 1 then b else if b.spdm.stage < stage then b.spdmError 4 else f nv b)) s

/-- GET_VERSION: 1.3 only. -/
def execGetVersion (s : State) : Host.Outcome State Fault Refusal :=
  spdmAt 0 (fun b => (b.setSpdm { b.spdm with stage := 1, sending := none, taking := none }).emit (.spdm 0x04 [0x13] [])) s

/-- The capabilities of R545 as the standard's flags: CERT, CHAL, MEAS with signature, ENCRYPT, MAC, KEY_EX, HBEAT, KEY_UPD, CHUNK. -/
def spdmFlags : Nat := 2 ^ 1 + 2 ^ 2 + 2 ^ 4 + 2 ^ 6 + 2 ^ 7 + 2 ^ 9 + 2 ^ 13 + 2 ^ 14 + 2 ^ 17

/-- GET_CAPABILITIES: the flags, DataTransferSize, MaxSPDMmsgSize. -/
def execGetCapabilities (s : State) : Host.Outcome State Fault Refusal :=
  spdmAt 1 (fun b => (b.setSpdm { b.spdm with stage := max b.spdm.stage 2 }).emit (.spdm 0x61 [spdmFlags, 4096, 65536] [])) s

/-- NEGOTIATE_ALGORITHMS: the extended codes of Falcon-1024 with SHAKE256 and of ML-KEM-1024; SHA3-384, raw bit stream and AES-256-GCM by
the standard's bits. -/
def execNegotiateAlgorithms (s : State) : Host.Outcome State Fault Refusal :=
  spdmAt 2 (fun b => (b.setSpdm { b.spdm with stage := 3 }).emit (.spdm 0x63 [0x0001, 0x0002, 2 ^ 4, 2 ^ 0, 2 ^ 1] [])) s

/-- The certificate chain of slot 0. -/
def Block.certChain (b : Block) (nv : NonVolatile) : List Byte :=
  Config.certChain (Config.falconKey (devIdSeed nv)) (Config.falconKey (b.aliasSeed nv))

/-- GET_DIGESTS. -/
def execGetDigests (s : State) : Host.Outcome State Fault Refusal :=
  spdmWith 3 (fun nv b => b.emit (.spdm 0x01 [1] (Config.sha3x384 (b.certChain nv)))) s

/-- Sends a response; one longer than DataTransferSize is announced as a large response, fetched by CHUNK_GET. -/
def Block.spdmSend (b : Block) (code : Nat) (fields : List Nat) (bytes : List Byte) : Block :=
  if bytes.length + 8 ≤ 4096 then b.emit (.spdm code fields bytes)
  else
    let x := b.spdm
    (b.setSpdm { x with sending := some ⟨x.handle, 0, bytes⟩, handle := (x.handle + 1) % 256 }).spdmError 0x0F [x.handle]

/-- GET_CERTIFICATE: a portion of slot 0's chain and what remains after it. -/
def execGetCertificate (slot offset length : Nat) (s : State) : Host.Outcome State Fault Refusal :=
  spdmWith 3 (fun nv b =>
    let chain := b.certChain nv
    if slot != 0 || chain.length < offset then b.spdmError 1
    else
      let part := (chain.drop offset).take length
      b.spdmSend 0x02 [part.length, chain.length - offset - part.length] part) s

/-- A response signed by the alias key: its body, a fresh nonce of 32 bytes, the signature over what the standard has it cover. -/
def Block.spdmSigned (b : Block) (nv : NonVolatile) (code : Nat) (fields : List Nat) (asked body : List Byte) : Block :=
  let (b, random) := b.drawBytes 4
  let text := body ++ random
  b.spdmSend code fields (text ++ padTo 1280 (Config.falconSign (b.aliasSeed nv) (Config.spdmSigned code asked text)))

/-- CHALLENGE: CHALLENGE_AUTH. -/
def execChallenge (nonce : List Byte) (s : State) : Host.Outcome State Fault Refusal :=
  spdmWith 3 (fun nv b => b.spdmSigned nv 0x03 [0] nonce (Config.sha3x384 (b.certChain nv))) s

/-- Measurement block `i`, 1 to 10 (R546). -/
def Block.measurement (b : Block) (i : Nat) : List Byte :=
  if i ≤ 8 then b.mr (i - 1)
  else if i = 9 then b.regBytes hawPage 0x040 3
  else b.regBytes hawPage 0x050 2

/-- GET_MEASUREMENTS: block 0 asks for their number, 255 for them all. -/
def execGetMeasurements (block : Nat) (nonce : List Byte) (s : State) : Host.Outcome State Fault Refusal :=
  spdmWith 3 (fun nv b =>
    if block = 0 then b.spdmSigned nv 0x60 [10] nonce []
    else if block = 255 then b.spdmSigned nv 0x60 ((List.range 10).map (· + 1)) nonce ((List.range 10).flatMap fun i => b.measurement (i + 1))
    else if block ≤ 10 then b.spdmSigned nv 0x60 [block] nonce (b.measurement block)
    else b.spdmError 1) s

/-! Sessions. -/

def Block.spdmSession (b : Block) (i : Nat) : SpdmSession := storeGet (fun _ => ⟨.absent, []⟩) b.spdm.sessions i
def Block.setSpdmSession (b : Block) (i : Nat) (x : SpdmSession) : Block :=
  b.setSpdm { b.spdm with sessions := storePut (fun _ => ⟨.absent, []⟩) b.spdm.sessions i x }

/-- KEY_EXCHANGE: at most four sessions; none starts while the entropy source fails (R552). -/
def execKeyExchange (encapKey : List Byte) (s : State) : Host.Outcome State Fault Refusal :=
  spdmWith 3 (fun nv b =>
    if !b.entropyOk then b.spdmError 3
    else match (List.range 4).find? fun i => (b.spdmSession i).phase == .absent with
      | none => b.spdmError 0x0A
      | some i =>
        let (b, seed) := b.drawBytes 4
        let (ct, ss) := Config.kemEncaps encapKey seed
        (b.setSpdmSession i ⟨.shaking, ss⟩).spdmSigned nv 0x64 [i] encapKey ct) s

/-- FINISH. -/
def execFinish (session : Fin 4) (verify : List Byte) (s : State) : Host.Outcome State Fault Refusal :=
  spdmAt 3 (fun b =>
    let x := b.spdmSession session
    if x.phase != .shaking then b.spdmError 2
    else if verify != Config.spdmVerify x.secret then (b.setSpdmSession session ⟨.absent, []⟩).spdmError 6
    else (b.setSpdmSession session { x with phase := .established }).emit (.spdm 0x65 [session.val] [])) s

/-- A request inside an established session. -/
def spdmIn (session : Nat) (f : SpdmSession → Block → Block) (s : State) : Host.Outcome State Fault Refusal :=
  spdmAt 3 (fun b =>
    let x := b.spdmSession session
    if x.phase != .established then b.spdmError 2 else f x b) s

/-- HEARTBEAT. -/
def execHeartbeat (session : Fin 4) (s : State) : Host.Outcome State Fault Refusal :=
  spdmIn session (fun _ b => b.emit (.spdm 0x68 [session.val] [])) s

/-- KEY_UPDATE. -/
def execKeyUpdate (session : Fin 4) (s : State) : Host.Outcome State Fault Refusal :=
  spdmIn session (fun x b =>
    (b.setSpdmSession session { x with secret := Config.spdmUpdate x.secret }).emit (.spdm 0x69 [session.val] [])) s

/-- END_SESSION. -/
def execEndSession (session : Fin 4) (s : State) : Host.Outcome State Fault Refusal :=
  spdmIn session (fun _ b => (b.setSpdmSession session ⟨.absent, []⟩).emit (.spdm 0x6C [session.val] [])) s

/-! Large messages. -/

/-- The message bytes of a chunk: DataTransferSize less the standard's header, which the first chunk has 4 bytes more of. -/
def chunkBytes (seq : Nat) : Nat := if seq = 0 then 4080 else 4084

/-- CHUNK_GET. -/
def execChunkGet (handle seq : Nat) (s : State) : Host.Outcome State Fault Refusal :=
  spdmAt 2 (fun b =>
    match b.spdm.sending with
    | none => b.spdmError 4
    | some l =>
      if l.handle != handle || l.seq != seq then (b.setSpdm { b.spdm with sending := none }).spdmError 1
      else
        let rest := l.bytes.drop (chunkBytes seq)
        let next := if rest.isEmpty then none else some { l with seq := seq + 1, bytes := rest }
        (b.setSpdm { b.spdm with sending := next }).emit (.spdm 0x06 [handle, seq, b2n rest.isEmpty] (l.bytes.take (chunkBytes seq)))) s

/-- SPDM_CHUNK_SEND: the request that the chunks make up comes as a command of its own. -/
def execSpdmChunkSend (handle seq : Nat) (last : Bool) (bytes : List Byte) (s : State) : Host.Outcome State Fault Refusal :=
  spdmAt 2 (fun b =>
    let sofar : Option (List Byte) :=
      if seq = 0 then some []
      else match b.spdm.taking with
        | some l => if l.handle = handle && l.seq = seq then some l.bytes else none
        | none => none
    match sofar with
    | none => (b.setSpdm { b.spdm with taking := none }).spdmError 1
    | some bs =>
      let all := bs ++ bytes
      if 65536 < all.length then (b.setSpdm { b.spdm with taking := none }).spdmError 0x0E
      else (b.setSpdm { b.spdm with taking := if last then none else some ⟨handle, seq + 1, all⟩ }).emit (.spdm 0x05 [handle, seq] [])) s

/-! IDE keys (R515, R551). -/

def Block.ideOf (b : Block) (i : Nat) : IdeStream := storeGet (fun _ => IdeStream.none) b.ide i
def Block.setIde (b : Block) (i : Nat) (x : IdeStream) : Block := { b with ide := storePut (fun _ => IdeStream.none) b.ide i x }

/-- VENDOR_DEFINED_REQUEST: IDE_KM programs a key set of a stream. -/
def execVendorDefinedRequest (session : Fin 4) (stream : Fin 5) (keySet : Fin 2) (key : List Byte) (s : State) :
    Host.Outcome State Fault Refusal :=
  spdmIn session (fun _ b =>
    let x := b.ideOf stream
    (b.setIde stream { x with keys := storePut (fun _ => none) x.keys keySet (some (padTo 32 key)) }).emit (.spdm 0x7E [stream.val, keySet.val] [])) s

/-- HOST_LINK shows whether IDE protects CXL.io and CXL.cachemem; stream 0 is the link stream. -/
def Block.showIde (b : Block) : Block :=
  (b.setFld hostPage 0x040 8 1 (b2n ((List.range 5).any fun i => (b.ideOf i).cur.isSome))).setFld hostPage 0x040 9 1 (b2n (b.ideOf 0).cur.isSome)

/-- K_SET_GO, inside a secured session: the stream goes to its other key set, or to the first it has. -/
def execKSetGo (stream : Fin 5) (s : State) : Host.Outcome State Fault Refusal :=
  onBlock (fun b =>
    let x := b.ideOf stream
    let has (i : Nat) : Bool := (storeGet (fun _ => none) x.keys i).isSome
    let next : Option Nat := match x.cur with
      | some i => if has (1 - i) then some (1 - i) else none
      | none => if has 0 then some 0 else if has 1 then some 1 else none
    if !((List.range 4).any fun i => (b.spdmSession i).phase == .established) then b
    else match next with
      | none => b
      | some i => (b.setIde stream { x with cur := some i, since := b.now, units := 0, told := false }).showIde) s

/-- IDE_REKEY: `units` more TLPs or flits have been protected. -/
def execIdeRekey (stream : Fin 5) (units : Nat) (s : State) : Host.Outcome State Fault Refusal :=
  onBlock (fun b =>
    let x := b.ideOf stream
    match x.cur with
    | none => b
    | some i =>
      let n := x.units + units
      let due := 2 ^ 32 ≤ n || x.since + 3600000000000 ≤ b.now
      let b := b.setIde stream { x with units := n, told := x.told || due }
      let b := b.ifSo (due && !x.told) fun b => b.raise hawPage 7 none stream
      b.ifSo (decide (2 ^ 34 ≤ n)) fun b =>
        let x := b.ideOf stream
        let b := b.setIde stream { x with keys := storePut (fun _ => none) x.keys i none, cur := none }
        (b.showIde.raise hostPage 3).linkDown) s

end Sys2Proof.Machine
end

