-- ==== Sys2Proof/Machine/RegAccess.lean ====
section
/-!
DEFINITION. Register accesses (R12 to R19, R504, R607 to R616): the write of a word with what its register starts, reads that clear
or latch.
-/

namespace Sys2Proof.Machine

/-! What a write starts. -/

/-- Two ranges have no byte in common. -/
def disjoint (a m b n : Nat) : Bool := m = 0 || n = 0 || a + m ≤ b || b + n ≤ a

/-- A drain compressor's window, sector area and index table lie in the bay and apart (R293). -/
def pzGood (bay rawBase rawLen sec idx : Nat) : Bool :=
  rawBase % 4096 == 0 && rawLen % 4096 == 0 && rawLen ≤ baySize && sec % 32 == 0 && idx % 8 == 0 &&
    (rawLen = 0 || (rawBase + rawLen ≤ bay && sec + rawLen ≤ bay && idx + rawLen / 512 ≤ bay)) &&
    disjoint rawBase rawLen sec rawLen && disjoint rawBase rawLen idx (rawLen / 512) && disjoint sec rawLen idx (rawLen / 512)

/-- A write of PZ_RAW_BASE, PZ_RAW_LEN, PZ_SEC_BASE or PZ_IDX_BASE; a reserved geometry leaves the register as it was. -/
def Block.pzReg (b : Block) (a off v : Nat) : Block :=
  let page := arrayPage a
  let v := v % 2 ^ (if off = 0x188 then 22 else 21)
  let get (o : Nat) : Nat := if o = off then v else b.regN page o
  if pzGood (b.bayBytesOf a) (get 0x184) (get 0x188) (get 0x18C) (get 0x190) then b.setN page off v else b

/-- A port that is switched off: DOWN, with nothing in flight; its frames that wait are dropped and counted. -/
def Block.portOff (b : Block) (n : Fin 48) : Block :=
  let q := (b.port n).sendQ
  let b := (b.add64 (portPage n) 0x088 q.length).each q Block.leaveIngress
  let b := (((b.setPort n PortUnit.none).setPortState n 0).showLanes n 0).showHop n
  b.moveChunks ((b.flows.filter fun q => q.2.fields.port == n.val).map Prod.fst)

/-- A write of PORT_CTRL (R438, R565): one that enables a port of a domain that is off waits for the domain. -/
def Block.portCtrl (b : Block) (n : Fin 48) (v : Nat) : Block :=
  let page := portPage n
  let old := b.regN page 0x040
  let new := legalPort old (v % 2 ^ 5)
  let d := 18 + n.val / 24
  if bitOf new 0 && !b.domainReady d then
    let power := { b.power with enWaits := (b.power.enWaits.filter fun q => q.1 != n.val) ++ [(n.val, new)] }
    ({ b with power := power }).askWake d
  else
    let power := { b.power with enWaits := b.power.enWaits.filter fun q => q.1 != n.val }
    let b := ({ b with power := power }).setN page 0x040 new
    let b := b.ifSo (bitOf old 0 && !bitOf new 0) fun b => b.portOff n
    b.ifSo (bitOf v 5 && b.mayTrain n) fun b => (b.raise page 2).startTraining n

/-- A write of a forwarding entry, after which a port may lead nowhere (R415, R452). -/
def Block.forwardWord (b : Block) (n off m v : Nat) : Block :=
  (b.writeBits .port n off m v).each (List.finRange 48) Block.rerouted

/-- A write of CHAN_CTRL (R170). -/
def Block.chanCtrl (b : Block) (c v : Nat) : Block :=
  let old := b.fld (pageOf .chan c) 0x040 0 1 == 1
  if bitOf v 0 && !old then b.chanEnable c
  else if !bitOf v 0 && old then b.chanDisable c
  else b

/-- A write of CTX_CMD (R121). -/
def Block.ctxCmd (b : Block) (a v : Nat) : Block :=
  match v % 4 with
  | 1 => b.ctxSave a false
  | 2 => b.ctxRestore a false
  | 3 => b.ctxZero a
  | _ => b

/-- A write of PZ_CTRL with its FLUSH bit. -/
def Block.pzWord (b : Block) (a v : Nat) : Block := (b.pzCtrl a v).ifSo (bitOf v 1) fun b => b.pzFlush a

/-- A write of NUM_CTRL (R77): AUTO, then SNAP. -/
def Block.numCtrl (b : Block) (p v : Nat) : Block :=
  (b.setFld (perfPage p) 0x3F0 1 1 (fieldOf v 1 1)).ifSo (bitOf v 0) fun b => b.numSnap p

/-- A write to an ARRAY page's own registers. -/
def Block.arrayWord (b : Block) (a off m v : Nat) : Block :=
  if off = 0x00C then b.ifSo (bitOf v 0) fun b => b.selftestStart a
  else if off = 0x058 then b.ctxCmd a v
  else if 0x100 ≤ off && off < 0x170 && off % 16 = 0 then b.ringCfg a ((off - 0x100) / 16 + 1) v
  else if off = 0x180 then b.pzWord a v
  else if 0x184 ≤ off && off < 0x194 then b.pzReg a off v
  else b.writeBits .array a off m v

/-- A write to a PERF page. -/
def Block.perfWord (b : Block) (p off m v : Nat) : Block :=
  if off = 0x040 then b.perfCtrl p v
  else if off = 0x044 then b.qControl (some p) v
  else if 0x100 ≤ off && off < 0x120 then b.perfSel p ((off - 0x100) / 4) v
  else if off = 0x3F0 then b.numCtrl p v
  else b.writeBits .perf p off m v

/-- A write to a PART page. -/
def Block.partWord (b : Block) (p off m v : Nat) : Block :=
  if stepOffsets.contains off then b.stepWord p off v
  else if off = 0x118 then b.xlatInvStart p v
  else b.writeBits .part p off m v

/-- A write to a controller's page: SCRUB_NOW starts a pass (R242). -/
def Block.mcWord (b : Block) (t : Tier) (k off m v : Nat) : Block :=
  let b := b.writeBits (if t = .near then .nearmc else .deepmc) k off m v
  b.ifSo (off = 0x040 && bitOf v 12 && b.mcState t k == 2) fun b => b.scrubStart t k

/-- A write to the THORN page, by Hawthorn (R557). -/
def Block.thornReg (b : Block) (off m v : Nat) : Block :=
  if off = 0x040 then
    let b := b.setFld thornPage 0x040 0 3 v
    if bitOf v 3 && b.haw.thornRun.isNone then b.thornBegin (v % 8) (b.regN thornPage 0x048) else b
  else if off = 0x04C then b.thornFeed (toBytes 4 v)
  else if 0x080 ≤ off && off < 0x180 then b.thornKey ((off - 0x080) / 32) ((off - 0x080) / 4 % 8) (BitVec.ofNat 32 v)
  else b.writeBits .thorn 0 off m v

/-- A word written to a register of a page, W1C bits apart. -/
def Block.startWord (b : Block) (who : Agent) (k : Kind) (n x off m v : Nat) : Block :=
  match k with
  | .array => b.arrayWord n off m v
  | .perf => b.perfWord n off m v
  | .part => b.partWord n off m v
  | .nearmc => b.mcWord .near n off m v
  | .deepmc => b.mcWord .deep n off m v
  | .thorn => b.thornReg off m v
  | .mbx => if off = 0x040 then b.mbxCfg n v else b.writeBits .mbx n off m v
  | .chan =>
    if off = 0x040 then b.chanCtrl n v
    else if off = 0x044 then b.chanCmd who (x - (kindPages .chan).1) (v % 4)
    else b.writeBits .chan n off m v
  | .port =>
    if h : n < 48 then
      if off = 0x040 then b.portCtrl ⟨n, h⟩ v
      else if 0x800 ≤ off then b.forwardWord n off m v
      else b.writeBits .port n off m v
    else b
  | _ => b.writeBits k n off m v

/-- A word of BAR 0 written by a requester: its W1C bits cleared but for those hardware sets in the same cycle, which are set whether or not
the write takes effect; its other bits set, what it starts started (R12, R13, R16, R504, R609, R614). -/
def Block.writeWord (b : Block) (who : Agent) (x off v hwSet : Nat) : Block :=
  match b.pageRef who x with
  | .page y =>
    match pageKind y with
    | none => b
    | some (k, n) =>
      match regWordAt k n off with
      | none => b
      | some w =>
        let w1c := halfMask w w.row.w1c
        let may := b.mayWrite who k n off
        if w1c != 0 then
          if may || hwSet % 2 ^ 32 &&& w1c != 0 then b.clearBits k n off w1c (if may then v else 0) hwSet else b
        else if !may || (halfMask w w.row.rw = 0 && halfMask w w.row.wo = 0) then b
        else b.startWord who k n x off (halfMask w w.row.rw) v
  | _ => b

/-! BAR 2 and BAR 4 (R505, R506, R528): register accesses name their 4 KiB pages after those of BAR 0. -/

/-- The function a requester is. -/
def fnOfAgent : Agent → Option Nat
  | .pf => some 0
  | .vf v => some (1 + v)
  | _ => none

/-- A write to a mailbox region (R519, R520, R528). -/
def Block.writeMbx (b : Block) (who : Agent) (m off v : Nat) : Block :=
  if off = 0x040 then b.reqGo who m v
  else if off = 0x0C0 then b.rplDone who m v
  else if off = 0x100 then b.reqPush who m (BitVec.ofNat 32 v)
  else if off = 0x184 then b.ifSo (bitOf v 0) fun b => b.rplDrop who m
  else if !b.mbxOwner who m || b.mbxQueue m || 4 * b.mbxRegs m ≤ off then b
  else if (b.mbx m).reqFull then b.mbxReject who m (regKey (mbxRegion m) off)
  else b.setN (mbxRegion m) off v

/-- A write to a function's MSI-X table or the control of its capability (R505, R516). -/
def Block.writeMsix (b : Block) (fn x off v : Nat) : Block :=
  if msixPage fn 0 ≤ x && x < msixPage (fn + 1) 0 && !(off % 16 = 12) then b.setN x off v
  else if msixPage fn 0 ≤ x && x < msixPage (fn + 1) 0 then
    let vector := 256 * (x - msixPage fn 0) + off / 16
    let b := b.setN x off (v % 2)
    let ctrl := b.regN (msixCtrlPage fn) 0
    let word := 0x10 + 4 * (vector / 32)
    if v % 2 = 0 && bitOf (b.regN (msixCtrlPage fn) word) (vector % 32) && bitOf ctrl 0 && !bitOf ctrl 1 then
      (b.setFld (msixCtrlPage fn) word (vector % 32) 1 0).emit (.msix fn vector)
    else b
  else if x = msixCtrlPage fn && off = 0 then b.setFld x 0 0 2 (v % 4)
  else b

/-- The byte of BAR 4 that an offset of one of its pages names. -/
def bar4Byte (x off : Nat) : Nat := (x - bar4Page) * 0x1000 + off

/-- A word of BAR 2 or BAR 4 written by a requester. -/
def Block.writeBar (b : Block) (who : Agent) (x off v : Nat) : Block :=
  if x < 0x4040 then b.writeMbx who (x - 0x4000) off v
  else match fnOfAgent who with
    | none => b
    | some fn =>
      if x < doorbellPage 0 then b.writeMsix fn x off v
      else if x < pendingPage then
        match b.chanOf who (2 * (x - doorbellPage 0) + off / 0x800) with
        | some c => b.ifSo (off % 0x800 == 0 && x < doorbellPage 128) fun b => b.doorbell c v
        | none => b
      else if x < bar4Page then b
      else
        let at_ := bar4Byte x off
        if at_ < 0x200000 then b.ringWrite who (at_ / 0x2000) (at_ / 128 % 64) (at_ % 128) (toBytes 4 v)
        else if 0x210000 ≤ at_ && at_ < 0x220000 then b.semAdd who ((at_ - 0x210000) / 4) v
        else b

/-- A word of BAR 2 or BAR 4 as a requester reads it; write-only and reserved words read 0. -/
def Block.readBar (b : Block) (who : Agent) (x off : Nat) : Nat :=
  if x < 0x4040 then b.mbxWord who (x - 0x4000) off
  else match fnOfAgent who with
    | none => 0
    | some fn =>
      if (msixPage fn 0 ≤ x && x < msixPage (fn + 1) 0) || (x = msixCtrlPage fn && off = 0) then b.regN x off
      else if doorbellPage 0 ≤ x && x < doorbellPage 128 then
        match b.chanOf who (2 * (x - doorbellPage 0) + off / 0x800) with
        | some c => if off % 0x800 = 4 then b.rdPtr c else if off % 0x800 = 8 then b.regN (chanPage c) 0x048 else 0
        | none => 0
      else if x = pendingPage then (if off < 0x100 then b.regN (msixCtrlPage fn) (0x010 + off) else 0)
      else if bar4Page ≤ x then
        let at_ := bar4Byte x off
        if at_ < 0x200000 then
          match b.chanOf who (at_ / 0x2000) with
          | some c => ofBytes (storeGetList memDefault b.rings (8192 * c + at_ % 0x2000) 4)
          | none => 0
        else if at_ < 0x210000 then
          match b.semOfFn who ((at_ - 0x200000) / 4) with
          | some i => (b.sem i).toNat
          | none => 0
        else 0
      else 0

/-- What a 4-byte read in BAR 2 changes: it takes a reply (R519, R528). -/
def Block.barTaken (b : Block) (who : Agent) (x off : Nat) : Block :=
  if 0x4040 ≤ x || x < 0x4000 then b
  else if off = 0x180 then b.rplTaken who (x - 0x4000)
  else if 0x080 ≤ off && off < 0x0C0 then b.rplMsgTaken who (x - 0x4000) ((off - 0x080) / 4)
  else b

/-- One word written. -/
def Block.writeAt (b : Block) (who : Agent) (x off v hwSet : Nat) : Block :=
  if x < 0x4000 then b.writeWord who x off v hwSet else b.writeBar who x off v

/-- The words of an access, the lower offset first (R616). -/
def Block.writeWords (b : Block) (who : Agent) (x off : Nat) : Nat → Nat → Nat → Block
  | 0, _, _ => b
  | n + 1, v, hw => Block.writeWords (b.writeAt who x off (v % 2 ^ 32) (hw % 2 ^ 32)) who x (off + 4) n (v / 2 ^ 32) (hw / 2 ^ 32)

/-- Bits that hardware sets in a W1C word of a page in the cycle of a write that does not reach it (R13). -/
def Block.hwWord (b : Block) (who : Agent) (x off hwSet : Nat) : Block :=
  match b.pageRef who x with
  | .page y =>
    match pageKind y with
    | none => b
    | some (k, n) =>
      match regWordAt k n off with
      | none => b
      | some w => b.ifSo (hwSet % 2 ^ 32 &&& halfMask w w.row.w1c != 0) fun b => b.clearBits k n off (halfMask w w.row.w1c) 0 hwSet
  | _ => b

/-- An access by a requester that writes: one of 8 bytes to a 64-bit register leaves it whole where the value is reserved (R16), one of a width or
alignment no page accepts is ignored, but for the W1C bits hardware sets in the same cycle (R13, R616). -/
def Block.writeAccess (b : Block) (who : Agent) (x off width v hwSet : Nat) : Block :=
  if goodWidth off width then
    let reserved : Bool := match b.pageRef who x with
      | .page y => match pageKind y with
        | some (k, n) => width == 8 && x < 0x4000 && b.wideReserved k n off v
        | none => false
      | _ => false
    if reserved then b else b.writeWords who x off (width / 4) v hwSet
  else (b.hwWord who x (off / 4 * 4) hwSet).ifSo (decide (4 < width)) fun b => b.hwWord who x (off / 4 * 4 + 4) (hwSet / 2 ^ 32)

/-- REG_WRITE. -/
def execRegWrite (who : Agent) (page off width : Nat) (value : DWord) (s : State) : Host.Outcome State Fault Refusal :=
  onBlock (fun b => b.writeAccess who page off width value.toNat 0) s

/-- EVENT_CLEAR (R13): `hwSet` are the bits that hardware sets in the same cycle. -/
def execEventClear (who : Agent) (page off width : Nat) (value hwSet : DWord) (s : State) : Host.Outcome State Fault Refusal :=
  onBlock (fun b => b.writeAccess who page off width value.toNat hwSet.toNat) s

/-- BLK_LOCK_WRITE: the Steward's write, then a host write that reaches the page in the same cycle (R614). -/
def execBlkLockWrite (page : Nat) (value : Word) (same : Option (Nat × Word)) (s : State) : Host.Outcome State Fault Refusal :=
  onBlock (fun b =>
    let b := b.writeWord .steward page 0x01C value.toNat 0
    match same with
    | none => b
    | some (off, v) => if off % 4 = 0 then b.writeWord .pf page off v.toNat 0 else b) s

/-! Reads. -/

/-- Registers a requester reads as 0 (R122, R219, R439, R557) and write-only bits (R12). -/
def hidden (who : Agent) (k : Kind) (off : Nat) : Bool :=
  match who with
  | .vf _ => (k == .array && 0x050 ≤ off && off < 0x060) || (k == .part && 0x100 ≤ off && off < 0x120) ||
      (k == .port && 0x800 ≤ off)
  | .hawthorn => false
  | _ => k == .thorn && 0x050 ≤ off && off < 0x060

/-- Whether a view's array page shows its unit as lent out (R493): the unit is the view's own, not one of its fill slots. -/
def Block.showsLent (b : Block) (who : Agent) (k : Kind) (x : Nat) : Bool :=
  match who with
  | .vf v => match b.partOfVf v with
    | some q => match b.arrayAt q (x - (kindPages k).1) with
      | some (.unit a) => (b.arr a).lentTo.isSome
      | _ => false
    | none => false
  | _ => false

/-- What a lender's page reads: the state is CONTEXT, the rest is READY (R493, R613). -/
def lentWord (k : Kind) (off v : Nat) : Nat :=
  if off = 0x010 then putField v 0 2 1
  else if (k == .array && off == 0x044) || (k == .vec && off == 0x040) then putField v 0 2 2
  else v

/-- A register word as a requester reads it at page `x` of its view, or a word of BAR 2 or BAR 4 (R19, R505, R506, R597, R609, R616); it
changes nothing. -/
def Block.readWord (b : Block) (who : Agent) (x off : Nat) : Nat :=
  if 0x4000 ≤ x then b.readBar who x off
  else match b.pageRef who x with
  | .absent => 0
  | .unbound vec =>
    let k := if vec then Kind.vec else Kind.array
    match off with
    | 0x000 => kindCode k + (x - (kindPages k).1) * 2 ^ 8
    | 0x004 => 0x100
    | 0x008 => blkCaps k
    | 0x010 => 1
    | _ => 0
  | .page y =>
    match pageKind y with
    | none => 0
    | some (k, n) =>
      if k = .perfUser then
        if bitOf (b.grant n).entitle.toNat 4 && (b.grant n).loaded then
          if off = 0 then kindCode .perfUser + n * 2 ^ 8 else b.value .perf n off
        else 0
      else if hidden who k off then 0
      else if off = 0 then kindCode k + (x - (kindPages k).1) * 2 ^ 8
      else if (regWordAt k n off).isSome then
        if (k == .array || k == .vec) && b.showsLent who k x then lentWord k off (b.value k n off) else b.value k n off
      else 0

/-! Reads that change something (R12, R14, R17). -/

/-- A requester's number. -/
def agentCode : Agent → Nat
  | .pf => 0
  | .vf v => 1 + v
  | .steward => 17
  | .hawthorn => 18
  | .debug => 19

/-- The latch of a requester for the upper half at `off` of a page of its view. -/
def latchKey (who : Agent) (x off : Nat) : Nat := agentCode who * 2 ^ 32 + regKey x off
def Block.latched (b : Block) (who : Agent) (x off : Nat) : Option Word := storeGet (fun _ => none) b.latch (latchKey who x off)
def Block.setLatch (b : Block) (who : Agent) (x off : Nat) (v : Option Word) : Block :=
  { b with latch := storePut (fun _ => none) b.latch (latchKey who x off) v }

/-- The device register word that a requester reads at an offset of a page it sees. -/
def Block.wordRef (b : Block) (who : Agent) (x off : Nat) : Option (Kind × Nat × RegWord) :=
  match b.pageRef who x with
  | .page y =>
    match pageKind y with
    | some (k, n) => if hidden who k off then none else (regWordAt k n off).map fun w => (k, n, w)
    | none => none
  | _ => none

/-- A register that clears when read keeps only what hardware adds in the same cycle (R14). -/
def Block.clearRc (b : Block) (k : Kind) (n off : Nat) (wide : Bool) (update : Option Nat) : Block :=
  let b := b.setN (pageOf k n) off (update.getD 0 % 2 ^ 32)
  b.ifSo wide fun b => b.setN (pageOf k n) (off + 4) (update.getD 0 / 2 ^ 32)

/-- A 4-byte read by a requester: its value; a lower half latches the upper one, an upper half ends its latch, a register that clears
when read is cleared, but by its lower half alone. -/
def Block.read32 (b : Block) (who : Agent) (x off : Nat) (update : Option Nat) : Block × Nat :=
  match b.wordRef who x off with
  | none => (b.barTaken who x off, b.readWord who x off)
  | some (k, n, w) =>
    let v := b.readWord who x off
    if w.upper then
      match b.latched who x off with
      | some l => (b.setLatch who x off none, l.toNat)
      | none => (b, v)
    else
      let b := b.ifSo w.row.wide fun b => b.setLatch who x (off + 4) (some (BitVec.ofNat 32 (b.readWord who x (off + 4))))
      (b.ifSo w.row.rc fun b => b.clearRc k n off w.row.wide update, v)

/-- A read of a whole register, a 64-bit one in one access (R17). A latch of its upper half that is pending stays pending: the spec does not say
what becomes of it (log entry 14). -/
def Block.readWhole (b : Block) (who : Agent) (x off : Nat) (update : Option Nat) : Block × Nat :=
  match b.wordRef who x off with
  | none => (b, 0)
  | some (k, n, w) =>
    let lo := b.readWord who x off
    let v := if w.row.wide then lo + 2 ^ 32 * b.readWord who x (off + 4) else lo
    (b.ifSo w.row.rc fun b => b.clearRc k n off w.row.wide update, v)

/-- A read access (R17, R616): 4 bytes; 8 bytes of a 64-bit register, or of two adjacent words one after the other; 1 or 2 bytes of a word,
which clear and latch nothing. Any other returns zero bytes. -/
def Block.readAccess (b : Block) (who : Agent) (x off width : Nat) (update : Option Nat) : Block × Nat :=
  if goodWidth off width then
    if width = 4 then b.read32 who x off update
    else
      let wide : Bool := match b.wordRef who x off with
        | some (_, _, w) => w.row.wide && !w.upper
        | none => false
      if wide then b.readWhole who x off update
      else
        let (b, lo) := b.read32 who x off update
        let (b, hi) := b.read32 who x (off + 4) none
        (b, lo + 2 ^ 32 * hi)
  else if (width = 1 || width = 2) && off % width = 0 && off < 0x1000 then
    (b, fieldOf (b.readWord who x (off / 4 * 4)) (8 * (off % 4)) (8 * width))
  else (b, 0)

/-- Answers a read. -/
def Block.answer (who : Agent) (x off : Nat) (r : Block × Nat) : Block := r.1.emit (.readData who x off (BitVec.ofNat 64 r.2))

/-- LOW_HALF_READ (R17): a read access; of 4 bytes at a lower half it latches the upper one, at an upper half it ends the latch. -/
def execLowHalfRead (who : Agent) (page : Nat) (at_ : Span) (update : Option DWord) (s : State) : Host.Outcome State Fault Refusal :=
  onBlock (fun b => Block.answer who page at_.off (b.readAccess who page at_.off at_.width (update.map BitVec.toNat))) s

/-- Answers a whole read of a register that clears when read. -/
def Block.readRc (b : Block) (who : Agent) (x off : Nat) (update : Option Nat) : Block :=
  Block.answer who x off (b.readWhole who x off update)

/-- SLOTS_PEAK_READ (R242). -/
def execSlotsPeakRead (who : Agent) (t : Tier) (k : Fin 32) (update : Option Word) (s : State) : Host.Outcome State Fault Refusal :=
  onBlock (fun b => b.readRc who (pageMc t k) 0x0A4 (update.map BitVec.toNat)) s

/-- INFLIGHT_HWM_READ (R316). -/
def execInflightHwmRead (who : Agent) (p : Fin 64) (update : Option Word) (s : State) : Host.Outcome State Fault Refusal :=
  onBlock (fun b => b.readRc who (partPage p) 0x238 (update.map BitVec.toNat)) s

/-- STASH_HWM_READ (R317). -/
def execStashHwmRead (who : Agent) (p : Fin 64) (update : Option DWord) (s : State) : Host.Outcome State Fault Refusal :=
  onBlock (fun b => b.readRc who (partPage p) 0x248 (update.map BitVec.toNat)) s

/-- RECLAIM_MAX_READ (R498). -/
def execReclaimMaxRead (who : Agent) (p : Fin 64) (update : Option Word) (s : State) : Host.Outcome State Fault Refusal :=
  onBlock (fun b => b.readRc who (partPage p) 0x0E8 (update.map BitVec.toNat)) s

end Sys2Proof.Machine
end

