-- ==== Sys2Proof/Machine/Debug.lean ====
section
/-!
DEFINITION. The debug mailbox MBX[2] and the test access port (R558, R559). The Steward's cores run firmware that the spec does not
describe: what their registers hold, until the port writes them, are free values.
-/

namespace Sys2Proof.Machine

/-- A request of the debug mailbox; the host's end of MBX[2] is function 0's. -/
def debugReq (seq : BitVec 8) : Req := ⟨2, seq, .pf⟩

/-- A debug command: nothing once the port is sealed; status 0x04 while it is locked or without the scope bit the command needs. -/
def debugCmd (seq : BitVec 8) (code : Nat) (bit : Option Nat) (f : Block → Block) (s : State) : Host.Outcome State Fault Refusal :=
  onBlock (fun b =>
    let may : Bool := match bit with
      | some i => bitOf b.haw.scope.toNat i
      | none => true
    if !b.mbxExists 2 then b
    else if !b.debugOpen || !may then b.reply (debugReq seq) code 0x04 [0]
    else f b) s

/-- DBG_INFO. -/
def execDbgInfo (seq : BitVec 8) (s : State) : Host.Outcome State Fault Refusal :=
  debugCmd seq 0x01 none (fun b => b.reply (debugReq seq) 0x01 0 ([0, b.haw.scope] ++ words64 b.haw.unlockedAt)) s

/-- Whether `count` words from an offset lie in a page. -/
def goodSpan (off count : Nat) : Bool := off % 4 = 0 && off + 4 * count ≤ 0x1000

/-- Reads words of a page in order. -/
def Block.readPage (b : Block) (x off : Nat) : Nat → Block × List Word
  | 0 => (b, [])
  | n + 1 =>
    let (b, v) := b.read32 .debug x off none
    let (b, vs) := Block.readPage b x (off + 4) n
    (b, BitVec.ofNat 32 v :: vs)

/-- PAGE_READ. -/
def execPageRead (seq : BitVec 8) (page off count : Nat) (s : State) : Host.Outcome State Fault Refusal :=
  debugCmd seq 0x02 (some 1) (fun b =>
    if count = 0 || 14 < count || !goodSpan off count then b.reply (debugReq seq) 0x02 0x01 [0]
    else
      let (b, vs) := b.readPage page off count
      b.reply (debugReq seq) 0x02 0 (0 :: vs)) s

/-- PAGE_WRITE. -/
def execPageWrite (seq : BitVec 8) (page off : Nat) (words : List Word) (s : State) : Host.Outcome State Fault Refusal :=
  debugCmd seq 0x03 (some 1) (fun b =>
    if words.isEmpty || 12 < words.length || !goodSpan off words.length then b.reply (debugReq seq) 0x03 0x01 [0]
    else (b.each words.zipIdx fun b q => b.writeWord .debug page (off + 4 * q.2) q.1.toNat 0).reply (debugReq seq) 0x03 0 [0]) s

/-- Whether `n` bytes at a device address lie in the near tier, the deep tier, the bays or the yard. -/
def debugRange (addr n : Nat) : Bool :=
  match regionOf addr with
  | some .host => false
  | some r => addr + n ≤ regionBase r + regionSize r
  | none => false

/-- MEM_READ. -/
def execMemRead (seq : BitVec 8) (addr count : Nat) (s : State) : Host.Outcome State Fault Refusal :=
  debugCmd seq 0x04 (some 2) (fun b =>
    if count = 0 || 13 < count || !debugRange addr (4 * count) then b.reply (debugReq seq) 0x04 0x01 [0]
    else
      let bad := b.poisoned addr (4 * count)
      let words := wordsOf count (b.bytes addr (4 * count))
      (b.countTier addr (4 * count) false).reply (debugReq seq) 0x04 (if bad then 0x09 else 0) (0 :: words)) s

/-- MEM_WRITE. -/
def execMemWrite (seq : BitVec 8) (addr : Nat) (words : List Word) (s : State) : Host.Outcome State Fault Refusal :=
  debugCmd seq 0x05 (some 2) (fun b =>
    let n := 4 * words.length
    if words.isEmpty || 12 < words.length || !debugRange addr n then b.reply (debugReq seq) 0x05 0x01 [0]
    else ((b.put addr (bytesOfWords words) false).countTier addr n true).reply (debugReq seq) 0x05 0 [0]) s

/-! The Steward's cores. -/

def Block.setHaw (b : Block) (h : Haw) : Block := { b with haw := h }

/-- What is known of the registers of the cores in a mask is forgotten. -/
def forget (regs : List (Nat × DWord)) (mask : Nat) : List (Nat × DWord) := regs.filter fun q => !bitOf mask (q.1 / 65536)

/-- CORE_HALT. -/
def execCoreHalt (seq : BitVec 8) (mask : BitVec 8) (s : State) : Host.Outcome State Fault Refusal :=
  debugCmd seq 0x06 (some 0) (fun b =>
    let halted := b.haw.halted ||| mask
    (b.setHaw { b.haw with halted := halted }).reply (debugReq seq) 0x06 0 [0, halted.setWidth 32]) s

/-- CORE_RESUME. -/
def execCoreResume (seq : BitVec 8) (mask : BitVec 8) (s : State) : Host.Outcome State Fault Refusal :=
  debugCmd seq 0x07 (some 0) (fun b =>
    (b.setHaw { b.haw with halted := b.haw.halted &&& ~~~mask, coreRegs := forget b.haw.coreRegs mask.toNat }).reply (debugReq seq) 0x07 0 [0]) s

/-- The program counter's register number (R559). -/
def pcReg : Nat := 64

/-- Whether a register number names one: 0 to 31 the integer registers, 32 to 63 the floating registers, 64 the program counter,
0x1000 + n CSR n. -/
def coreReg (reg : Nat) : Bool := reg ≤ 64 || (0x1000 ≤ reg && reg < 0x2000)

/-- A register of a core: x0 is 0; one the port has written or read since the core last ran is what it was then, but a CSR; every other
value is free. -/
def Block.coreValue (b : Block) (core reg : Nat) : Block × DWord :=
  if reg = 0 then (b, 0)
  else match b.haw.coreRegs.find? fun q => q.1 == 65536 * core + reg with
    | some q => (b, q.2)
    | none =>
      let v := Config.freeValue b.free
      let regs := if reg ≤ 64 then b.haw.coreRegs ++ [(65536 * core + reg, v)] else b.haw.coreRegs
      (b.tick.setHaw { b.haw with coreRegs := regs }, v)

/-- The checks that CORE_STEP, CORE_REG_READ and CORE_REG_WRITE share. -/
def Block.coreRefused (b : Block) (core : Nat) (badArgs : Bool) : Option Nat :=
  firstCode [(8 ≤ core || badArgs, 0x01), (!b.haw.halted.getLsbD core, 0x04)]

/-- CORE_STEP. -/
def execCoreStep (seq : BitVec 8) (core : Nat) (count : Nat) (s : State) : Host.Outcome State Fault Refusal :=
  debugCmd seq 0x08 (some 0) (fun b =>
    match b.coreRefused core (count = 0 || 65535 < count) with
    | some c => b.reply (debugReq seq) 0x08 c [0]
    | none =>
      let b := b.setHaw { b.haw with coreRegs := forget b.haw.coreRegs (2 ^ core) }
      let (b, pc) := b.coreValue core pcReg
      b.reply (debugReq seq) 0x08 0 (0 :: words64 pc.toNat)) s

/-- CORE_REG_READ. -/
def execCoreRegRead (seq : BitVec 8) (core reg : Nat) (s : State) : Host.Outcome State Fault Refusal :=
  debugCmd seq 0x09 (some 0) (fun b =>
    match b.coreRefused core (!coreReg reg) with
    | some c => b.reply (debugReq seq) 0x09 c [0]
    | none =>
      let (b, v) := b.coreValue core reg
      b.reply (debugReq seq) 0x09 0 (0 :: words64 v.toNat)) s

/-- CORE_REG_WRITE: what a CSR reads as afterwards the spec leaves open. -/
def execCoreRegWrite (seq : BitVec 8) (core reg : Nat) (value : DWord) (s : State) : Host.Outcome State Fault Refusal :=
  debugCmd seq 0x0A (some 0) (fun b =>
    match b.coreRefused core (!coreReg reg) with
    | some c => b.reply (debugReq seq) 0x0A c [0]
    | none =>
      let key := 65536 * core + reg
      let regs := b.haw.coreRegs.filter fun q => q.1 != key
      let regs := if reg = 0 || 64 < reg then regs else regs ++ [(key, value)]
      (b.setHaw { b.haw with coreRegs := regs }).reply (debugReq seq) 0x0A 0 [0]) s

/-! The test access port. -/

/-- A word shifted in: the next of a request, whose header says how many follow; a whole request goes to MBX[2] as its message registers
and REQ_GO do. A zero where a header is due is no request. -/
def Block.tapTake (b : Block) (value : Word) : Block :=
  if b.haw.tapIn.isEmpty && value = 0 then b
  else
    let ws := b.haw.tapIn ++ [value]
    if ws.length ≤ min 15 (headLen (ws.headD 0)) then b.setHaw { b.haw with tapIn := ws }
    else
      let b := b.setHaw { b.haw with tapIn := [] }
      if (b.mbx 2).reqFull then b.add64 (mbxPage 2) 0x048 1
      else (b.each ws.zipIdx fun b q => b.setReg (mbxRegion 2) (4 * q.2) q.1).setMbx 2 { b.mbx 2 with reqFull := true }

/-- A word shifted out: the next of the reply in MBX[2], 0 without one; the last empties the direction. -/
def Block.tapGive (b : Block) : Block × Word :=
  if !(b.mbx 2).rplFull then (b, 0)
  else
    let i := b.haw.tapOut
    let v := b.reg (mbxRegion 2) (0x080 + 4 * i)
    if i < min 15 (headLen (b.reg (mbxRegion 2) 0x080)) then (b.setHaw { b.haw with tapOut := i + 1 }, v)
    else (((b.setHaw { b.haw with tapOut := 0 }).setMbx 2 { b.mbx 2 with rplFull := false }).rplEmptied 2, v)

/-- MBX_ACCESS, while the test access port is unlocked. -/
def execMbxAccess (value : Word) (s : State) : Host.Outcome State Fault Refusal :=
  onBlock (fun b =>
    if !b.mbxExists 2 || !b.debugOpen then b
    else
      let (b, out) := b.tapGive
      (b.emit (.tap out)).tapTake value) s

/-! The sideband (R630 to R632). -/

/-- Whether the Steward answers the sideband. -/
def Block.sideband (b : Block) : Bool := b.haw.released && b.hawState == 1 && b.warm.isNone

/-- The value of a sensor, and its number in the order of R631. -/
def Block.sensor (b : Block) : PldmSensor → Nat × Int
  | .inputVoltage => (0, b.fld powerPage 0x068 0 16)
  | .inputCurrent => (1, b.fld powerPage 0x06C 0 16)
  | .inputPower => (2, b.regN powerPage 0x048)
  | .hottestJunction => (3, signedOf 16 (b.fld (pageOf .health 0) 0x040 0 16))
  | .coolantInlet => (4, signedOf 16 (b.fld (pageOf .health 0) 0x048 0 16))
  | .coolantOutlet => (5, signedOf 16 (b.fld (pageOf .health 0) 0x04C 0 16))
  | .deviceState => (6, b.fld devPage 0x040 0 3)
  | .hawthornState => (7, b.regN hawPage 0x040)
  | .fruRecord => (8, 0)

/-- The ordering code (R1): "YG48-L-F" where DBG_SEAL was blown at the factory, else "YG48-L-S". -/
def orderingCode (nv : NonVolatile) : List Byte :=
  [0x59, 0x47, 0x34, 0x38, 0x2D, 0x4C, 0x2D] ++ [if nv.sealed then 0x46 else 0x53]

/-- The FRU record (R636): the ordering code, the serial number and DEVICE_ID. -/
def fruRecord (nv : NonVolatile) : Out := .fru (orderingCode nv) nv.serial (BitVec.ofNat 64 (deviceIdOf nv))

/-- PLDM_GET_SENSOR. A request for the FRU record (PLDM type 4, R630) comes by the same row (DESIGN CHOICE, log 197: the table has no row of
its own for it). -/
def execPldmGetSensor (sensor : PldmSensor) (s : State) : Host.Outcome State Fault Refusal :=
  onBoth (fun nv b =>
    (nv, if !b.sideband then b
      else if sensor = .fruRecord then b.emit (fruRecord nv)
      else b.emit (.pldm (b.sensor sensor).1 (b.sensor sensor).2))) s

/-- PLDM_POWER_CAP (R571, R631): a cap outside its range changes nothing. -/
def execPldmPowerCap (watts : Nat) (s : State) : Host.Outcome State Fault Refusal :=
  onBlock (fun b => if b.sideband then (b.setCap watts).getD b else b) s

end Sys2Proof.Machine
end

