-- ==== Sys2Proof/Machine/Dispatch.lean ====
section
/-!
DEFINITION. The dispatch: one arm for each command, each one direct call of its meaning.
-/

namespace Sys2Proof.Machine

def exec (i : Instr) (s : State) : Host.Outcome State Fault Refusal :=
  match i with
  | .regWrite a b c d e => Sys2Proof.Machine.execRegWrite a b c d e s
  | .eventClear a b c d e f => Sys2Proof.Machine.execEventClear a b c d e f s
  | .lowHalfRead a b c d => Sys2Proof.Machine.execLowHalfRead a b c d s
  | .blkLockWrite a b c => Sys2Proof.Machine.execBlkLockWrite a b c s
  | .slotsPeakRead a b c d => Sys2Proof.Machine.execSlotsPeakRead a b c d s
  | .inflightHwmRead a b c => Sys2Proof.Machine.execInflightHwmRead a b c s
  | .stashHwmRead a b c => Sys2Proof.Machine.execStashHwmRead a b c s
  | .reclaimMaxRead a b c => Sys2Proof.Machine.execReclaimMaxRead a b c s
  | .rplQRead a b => Sys2Proof.Machine.execRplQRead a b s
  | .doorbell a b c => Sys2Proof.Machine.execDoorbell a b c s
  | .carriageHead a => Sys2Proof.Machine.execCarriageHead a s
  | .carriageDispatch a => Sys2Proof.Machine.execCarriageDispatch a s
  | .idleCarriage a => Sys2Proof.Machine.execIdleCarriage a s
  | .resume a b => Sys2Proof.Machine.execResume a b s
  | .dropPkt a b => Sys2Proof.Machine.execDropPkt a b s
  | .flush a b => Sys2Proof.Machine.execFlush a b s
  | .chanEnable a => Sys2Proof.Machine.execChanEnable a s
  | .chanDisable a => Sys2Proof.Machine.execChanDisable a s
  | .carriageComplete a => Sys2Proof.Machine.execCarriageComplete a s
  | .signal a b => Sys2Proof.Machine.execSignal a b s
  | .wait a => Sys2Proof.Machine.execWait a s
  | .fence a => Sys2Proof.Machine.execFence a s
  | .fenceComplete a b => Sys2Proof.Machine.execFenceComplete a b s
  | .draftBegin a => Sys2Proof.Machine.execDraftBegin a s
  | .commit a => Sys2Proof.Machine.execCommit a s
  | .discard a => Sys2Proof.Machine.execDiscard a s
  | .draftDecision a b => Sys2Proof.Machine.execDraftDecision a b s
  | .draftRemapDone a b => Sys2Proof.Machine.execDraftRemapDone a b s
  | .draftPagesDropped a b => Sys2Proof.Machine.execDraftPagesDropped a b s
  | .stream w => Sys2Proof.Machine.execStream w s
  | .slotLoadDone a => Sys2Proof.Machine.execSlotLoadDone a s
  | .fold a => Sys2Proof.Machine.execFold a s
  | .foldStart w => Sys2Proof.Machine.execFoldStart w s
  | .ctxSave a b => Sys2Proof.Machine.execCtxSave a b s
  | .ctxRestore a b => Sys2Proof.Machine.execCtxRestore a b s
  | .ctxZero a => Sys2Proof.Machine.execCtxZero a s
  | .ctxDone a => Sys2Proof.Machine.execCtxDone a s
  | .compatApply a => Sys2Proof.Machine.execCompatApply a s
  | .arrayParity a => Sys2Proof.Machine.execArrayParity a s
  | .vecParity a => Sys2Proof.Machine.execVecParity a s
  | .selftest a => Sys2Proof.Machine.execSelftest a s
  | .selftestDone a b => Sys2Proof.Machine.execSelftestDone a b s
  | .vchain w => Sys2Proof.Machine.execVchain w s
  | .memAccess a b c d => Sys2Proof.Machine.execMemAccess a b c d s
  | .translationFill a b c d => Sys2Proof.Machine.execTranslationFill a b c d s
  | .writeBatch a b => Sys2Proof.Machine.execWriteBatch a b s
  | .refresh a b c => Sys2Proof.Machine.execRefresh a b c s
  | .mcHot a b c => Sys2Proof.Machine.execMcHot a b c s
  | .bankSlow a b c => Sys2Proof.Machine.execBankSlow a b c s
  | .bankSlowLimit a b c => Sys2Proof.Machine.execBankSlowLimit a b c s
  | .scrubPass a b c => Sys2Proof.Machine.execScrubPass a b c s
  | .scrubNow a b => Sys2Proof.Machine.execScrubNow a b s
  | .scrubDone a b => Sys2Proof.Machine.execScrubDone a b s
  | .tierTraining a b => Sys2Proof.Machine.execTierTraining a b s
  | .tierZeroingDone => Sys2Proof.Machine.execTierZeroingDone s
  | .chanFault a b c => Sys2Proof.Machine.execChanFault a b c s
  | .poisonFillDone a b => Sys2Proof.Machine.execPoisonFillDone a b s
  | .warmReset a => Sys2Proof.Machine.execWarmReset a s
  | .mcDrainDone a b => Sys2Proof.Machine.execMcDrainDone a b s
  | .drainTimeout a b => Sys2Proof.Machine.execDrainTimeout a b s
  | .selfRefreshExit => Sys2Proof.Machine.execSelfRefreshExit s
  | .functionLevelReset a => Sys2Proof.Machine.execFunctionLevelReset a s
  | .xlatInv a b => Sys2Proof.Machine.execXlatInv a b s
  | .xlatInvDone a => Sys2Proof.Machine.execXlatInvDone a s
  | .cartCopy a => Sys2Proof.Machine.execCartCopy a s
  | .cartGather a => Sys2Proof.Machine.execCartGather a s
  | .cartScatter a => Sys2Proof.Machine.execCartScatter a s
  | .cartFill a => Sys2Proof.Machine.execCartFill a s
  | .runAhead a => Sys2Proof.Machine.execRunAhead a s
  | .ringEnable a b c d => Sys2Proof.Machine.execRingEnable a b c d s
  | .ringRowRelease a b => Sys2Proof.Machine.execRingRowRelease a b s
  | .pzEnable a b c => Sys2Proof.Machine.execPzEnable a b c s
  | .pzFlush a b => Sys2Proof.Machine.execPzFlush a b s
  | .numSnap a b => Sys2Proof.Machine.execNumSnap a b s
  | .stepRegWrite a b c d e => Sys2Proof.Machine.execStepRegWrite a b c d e s
  | .pruneAccum a => Sys2Proof.Machine.execPruneAccum a s
  | .pruneUpdate a => Sys2Proof.Machine.execPruneUpdate a s
  | .ledgerBlock a => Sys2Proof.Machine.execLedgerBlock a s
  | .normClose a => Sys2Proof.Machine.execNormClose a s
  | .deferredPass a b => Sys2Proof.Machine.execDeferredPass a b s
  | .ledgerRecovery a => Sys2Proof.Machine.execLedgerRecovery a s
  | .barrier a => Sys2Proof.Machine.execBarrier a s
  | .barrierReady a => Sys2Proof.Machine.execBarrierReady a s
  | .readyReceived a b c => Sys2Proof.Machine.execReadyReceived a b c s
  | .stepCommitReceived a b => Sys2Proof.Machine.execStepCommitReceived a b s
  | .commitRecordAck a => Sys2Proof.Machine.execCommitRecordAck a s
  | .commitTimeout a => Sys2Proof.Machine.execCommitTimeout a s
  | .normSend a => Sys2Proof.Machine.execNormSend a s
  | .normValueReceived a b c d => Sys2Proof.Machine.execNormValueReceived a b c d s
  | .normRecordReceived a b c d e => Sys2Proof.Machine.execNormRecordReceived a b c d e s
  | .normTimeout a => Sys2Proof.Machine.execNormTimeout a s
  | .coachBind a => Sys2Proof.Machine.execCoachBind a s
  | .coachFound a => Sys2Proof.Machine.execCoachFound a s
  | .coachJoin a => Sys2Proof.Machine.execCoachJoin a s
  | .coachUnbind a => Sys2Proof.Machine.execCoachUnbind a s
  | .unbindRelease a => Sys2Proof.Machine.execUnbindRelease a s
  | .coachPartners a => Sys2Proof.Machine.execCoachPartners a s
  | .partnersReread a => Sys2Proof.Machine.execPartnersReread a s
  | .chunkSend a b c => Sys2Proof.Machine.execChunkSend a b c s
  | .chunkResend a b c => Sys2Proof.Machine.execChunkResend a b c s
  | .chunk a b c => Sys2Proof.Machine.execChunk a b c s
  | .ack a b c => Sys2Proof.Machine.execAck a b c s
  | .roundDeadline a => Sys2Proof.Machine.execRoundDeadline a s
  | .close a b c d => Sys2Proof.Machine.execClose a b c d s
  | .open_ a b c => Sys2Proof.Machine.execOpen a b c s
  | .openRepeat a => Sys2Proof.Machine.execOpenRepeat a s
  | .helloSend a => Sys2Proof.Machine.execHelloSend a s
  | .hello a b c => Sys2Proof.Machine.execHello a b c s
  | .segmentOuter a b => Sys2Proof.Machine.execSegmentOuter a b s
  | .manifestSign a => Sys2Proof.Machine.execManifestSign a s
  | .manifest a b c d e f g => Sys2Proof.Machine.execManifest a b c d e f g s
  | .body a b c => Sys2Proof.Machine.execBody a b c s
  | .adoptionDone a => Sys2Proof.Machine.execAdoptionDone a s
  | .rebaseBlock a => Sys2Proof.Machine.execRebaseBlock a s
  | .rebaseDone a => Sys2Proof.Machine.execRebaseDone a s
  | .coachRecovery a => Sys2Proof.Machine.execCoachRecovery a s
  | .rebaseResume a b => Sys2Proof.Machine.execRebaseResume a b s
  | .rebaseRollback a b => Sys2Proof.Machine.execRebaseRollback a b s
  | .leaderTimeout a => Sys2Proof.Machine.execLeaderTimeout a s
  | .holdReceived a b => Sys2Proof.Machine.execHoldReceived a b s
  | .reconcile a b c => Sys2Proof.Machine.execReconcile a b c s
  | .digestReq a b c d => Sys2Proof.Machine.execDigestReq a b c d s
  | .digestResp a b c d e => Sys2Proof.Machine.execDigestResp a b c d e s
  | .blockReq a b c d e => Sys2Proof.Machine.execBlockReq a b c d e s
  | .blockData a b c d e => Sys2Proof.Machine.execBlockData a b c d e s
  | .portTrain a => Sys2Proof.Machine.execPortTrain a s
  | .retrain a => Sys2Proof.Machine.execRetrain a s
  | .trainPhaseDone a b c => Sys2Proof.Machine.execTrainPhaseDone a b c s
  | .trainPhaseTimeout a => Sys2Proof.Machine.execTrainPhaseTimeout a s
  | .flit a b c => Sys2Proof.Machine.execFlit a b c s
  | .nak a b => Sys2Proof.Machine.execNak a b s
  | .fastRetrain a b => Sys2Proof.Machine.execFastRetrain a b s
  | .controlFlit a b c => Sys2Proof.Machine.execControlFlit a b c s
  | .frame a b c => Sys2Proof.Machine.execFrame a b c s
  | .arrivalSignal a b c => Sys2Proof.Machine.execArrivalSignal a b c s
  | .queueDropPkt a => Sys2Proof.Machine.execQueueDropPkt a s
  | .frameExpired a => Sys2Proof.Machine.execFrameExpired a s
  | .hopRekey a => Sys2Proof.Machine.execHopRekey a s
  | .keyWait a => Sys2Proof.Machine.execKeyWait a s
  | .graceClose a => Sys2Proof.Machine.execGraceClose a s
  | .handshakeInit a b => Sys2Proof.Machine.execHandshakeInit a b s
  | .handshakeResp a b => Sys2Proof.Machine.execHandshakeResp a b s
  | .handshakeConfirm a b => Sys2Proof.Machine.execHandshakeConfirm a b s
  | .handshakeRetry a => Sys2Proof.Machine.execHandshakeRetry a s
  | .envelope a b => Sys2Proof.Machine.execEnvelope a b s
  | .staleEpoch a b c => Sys2Proof.Machine.execStaleEpoch a b c s
  | .ethAutonegRestart a => Sys2Proof.Machine.execEthAutonegRestart a s
  | .ethUp a => Sys2Proof.Machine.execEthUp a s
  | .ethDown a => Sys2Proof.Machine.execEthDown a s
  | .ethFrame a b c => Sys2Proof.Machine.execEthFrame a b c s
  | .ptpMessage a b => Sys2Proof.Machine.execPtpMessage a b s
  | .flowAdd a b c => Sys2Proof.Machine.execFlowAdd a b c s
  | .flowRate a b c => Sys2Proof.Machine.execFlowRate a b c s
  | .flowWithdraw a b => Sys2Proof.Machine.execFlowWithdraw a b s
  | .windowSet a b c d => Sys2Proof.Machine.execWindowSet a b c d s
  | .boundMissed a => Sys2Proof.Machine.execBoundMissed a s
  | .recRelaid a b => Sys2Proof.Machine.execRecRelaid a b s
  | .fieldFault a b c => Sys2Proof.Machine.execFieldFault a b c s
  | .shadowArrival a b c => Sys2Proof.Machine.execShadowArrival a b c s
  | .shadowAck a b => Sys2Proof.Machine.execShadowAck a b s
  | .shadowHeartbeat a b => Sys2Proof.Machine.execShadowHeartbeat a b s
  | .moduleLost a => Sys2Proof.Machine.execModuleLost a s
  | .keeperLost a => Sys2Proof.Machine.execKeeperLost a s
  | .rebuild a b c d e f g => Sys2Proof.Machine.execRebuild a b c d e f g s
  | .rebuildReq a => Sys2Proof.Machine.execRebuildReq a s
  | .rebuildBlock a b c => Sys2Proof.Machine.execRebuildBlock a b c s
  | .rebuildDone a b c => Sys2Proof.Machine.execRebuildDone a b c s
  | .keeperSet a b c => Sys2Proof.Machine.execKeeperSet a b c s
  | .partCreate a b => Sys2Proof.Machine.execPartCreate a b s
  | .partResize a b => Sys2Proof.Machine.execPartResize a b s
  | .partDestroy a b => Sys2Proof.Machine.execPartDestroy a b s
  | .manifestLoad a b c d => Sys2Proof.Machine.execManifestLoad a b c d s
  | .manifestUnload a b => Sys2Proof.Machine.execManifestUnload a b s
  | .partQuery a b c => Sys2Proof.Machine.execPartQuery a b c s
  | .zeroingDone a => Sys2Proof.Machine.execZeroingDone a s
  | .lend a b c d => Sys2Proof.Machine.execLend a b c d s
  | .lendDone a => Sys2Proof.Machine.execLendDone a s
  | .reclaim a b c => Sys2Proof.Machine.execReclaim a b c s
  | .reclaimDone a => Sys2Proof.Machine.execReclaimDone a s
  | .shortfall a b c d => Sys2Proof.Machine.execShortfall a b c d s
  | .shortfallClear a => Sys2Proof.Machine.execShortfallClear a s
  | .hdmBind a b c => Sys2Proof.Machine.execHdmBind a b c s
  | .hdmUnbind a => Sys2Proof.Machine.execHdmUnbind a s
  | .hostwinMap a b c d e => Sys2Proof.Machine.execHostwinMap a b c d e s
  | .hostwinUnmap a b c d => Sys2Proof.Machine.execHostwinUnmap a b c d s
  | .mbxAssign a b c => Sys2Proof.Machine.execMbxAssign a b c s
  | .quiesce a b c => Sys2Proof.Machine.execQuiesce a b c s
  | .quiesceComplete => Sys2Proof.Machine.execQuiesceComplete s
  | .unquiesce a => Sys2Proof.Machine.execUnquiesce a s
  | .semAdd a b c => Sys2Proof.Machine.execSemAdd a b c s
  | .reqGo a b c => Sys2Proof.Machine.execReqGo a b c s
  | .reqQ a b c => Sys2Proof.Machine.execReqQ a b c s
  | .rplDone a b c => Sys2Proof.Machine.execRplDone a b c s
  | .rplDropPkt a b => Sys2Proof.Machine.execRplDropPkt a b s
  | .mbxCfgWrite a b c => Sys2Proof.Machine.execMbxCfgWrite a b c s
  | .mbxRequestTake a => Sys2Proof.Machine.execMbxRequestTake a s
  | .mbxReply a => Sys2Proof.Machine.execMbxReply a s
  | .hdmHostRead a => Sys2Proof.Machine.execHdmHostRead a s
  | .hdmHostWrite a b => Sys2Proof.Machine.execHdmHostWrite a b s
  | .hostEviction a => Sys2Proof.Machine.execHostEviction a s
  | .birsp a b => Sys2Proof.Machine.execBirsp a b s
  | .hdmBiTimeout => Sys2Proof.Machine.execHdmBiTimeout s
  | .h2dSnoop a => Sys2Proof.Machine.execH2dSnoop a s
  | .hostErr a b c => Sys2Proof.Machine.execHostErr a b c s
  | .hostLinkDown a => Sys2Proof.Machine.execHostLinkDown a s
  | .hostLinkUp a b => Sys2Proof.Machine.execHostLinkUp a b s
  | .flrFunction0 => Sys2Proof.Machine.execFlrFunction0 s
  | .flrVf a => Sys2Proof.Machine.execFlrVf a s
  | .ideFail => Sys2Proof.Machine.execIdeFail s
  | .msixUnmask a b => Sys2Proof.Machine.execMsixUnmask a b s
  | .hawthornBoot a => Sys2Proof.Machine.execHawthornBoot a s
  | .stewardRelease a b => Sys2Proof.Machine.execStewardRelease a b s
  | .info a => Sys2Proof.Machine.execInfo a s
  | .random a b => Sys2Proof.Machine.execRandom a b s
  | .nonce a => Sys2Proof.Machine.execNonce a s
  | .fwStage a b c => Sys2Proof.Machine.execFwStage a b c s
  | .fwActivate a b => Sys2Proof.Machine.execFwActivate a b s
  | .svnCommit a b => Sys2Proof.Machine.execSvnCommit a b s
  | .ownerKeyAdd a b c d e => Sys2Proof.Machine.execOwnerKeyAdd a b c d e s
  | .ownerKeyRevoke a b c => Sys2Proof.Machine.execOwnerKeyRevoke a b c s
  | .vendorKeyRevoke a b c => Sys2Proof.Machine.execVendorKeyRevoke a b c s
  | .mrExtend a b c => Sys2Proof.Machine.execMrExtend a b c s
  | .fabricSet a b c => Sys2Proof.Machine.execFabricSet a b c s
  | .debugUnlock a b c => Sys2Proof.Machine.execDebugUnlock a b c s
  | .debugLock a => Sys2Proof.Machine.execDebugLock a s
  | .dbgSealBlow a b c d => Sys2Proof.Machine.execDbgSealBlow a b c d s
  | .thornKeySet a b c => Sys2Proof.Machine.execThornKeySet a b c s
  | .thornKeyDerive a b c => Sys2Proof.Machine.execThornKeyDerive a b c s
  | .thornMac a b c d => Sys2Proof.Machine.execThornMac a b c d s
  | .thornStart a => Sys2Proof.Machine.execThornStart a s
  | .thDataWrite a => Sys2Proof.Machine.execThDataWrite a s
  | .thKeyWrite a b c => Sys2Proof.Machine.execThKeyWrite a b c s
  | .thornDone => Sys2Proof.Machine.execThornDone s
  | .entropyFail => Sys2Proof.Machine.execEntropyFail s
  | .entropyRetest a => Sys2Proof.Machine.execEntropyRetest a s
  | .drbgReseed => Sys2Proof.Machine.execDrbgReseed s
  | .ideRekey a b => Sys2Proof.Machine.execIdeRekey a b s
  | .kSetGo a => Sys2Proof.Machine.execKSetGo a s
  | .getVersion => Sys2Proof.Machine.execGetVersion s
  | .getCapabilities => Sys2Proof.Machine.execGetCapabilities s
  | .negotiateAlgorithms => Sys2Proof.Machine.execNegotiateAlgorithms s
  | .getDigests => Sys2Proof.Machine.execGetDigests s
  | .getCertificate a b c => Sys2Proof.Machine.execGetCertificate a b c s
  | .challenge a => Sys2Proof.Machine.execChallenge a s
  | .getMeasurements a b => Sys2Proof.Machine.execGetMeasurements a b s
  | .keyExchange a => Sys2Proof.Machine.execKeyExchange a s
  | .finish a b => Sys2Proof.Machine.execFinish a b s
  | .heartbeat a => Sys2Proof.Machine.execHeartbeat a s
  | .keyUpdate a => Sys2Proof.Machine.execKeyUpdate a s
  | .endSession a => Sys2Proof.Machine.execEndSession a s
  | .chunkGet a b => Sys2Proof.Machine.execChunkGet a b s
  | .vendorDefinedRequest a b c d => Sys2Proof.Machine.execVendorDefinedRequest a b c d s
  | .dbgInfo a => Sys2Proof.Machine.execDbgInfo a s
  | .pageRead a b c d => Sys2Proof.Machine.execPageRead a b c d s
  | .pageWrite a b c d => Sys2Proof.Machine.execPageWrite a b c d s
  | .memRead a b c => Sys2Proof.Machine.execMemRead a b c s
  | .memWrite a b c => Sys2Proof.Machine.execMemWrite a b c s
  | .coreHalt a b => Sys2Proof.Machine.execCoreHalt a b s
  | .coreResume a b => Sys2Proof.Machine.execCoreResume a b s
  | .coreStep a b c => Sys2Proof.Machine.execCoreStep a b c s
  | .coreRegRead a b c => Sys2Proof.Machine.execCoreRegRead a b c s
  | .coreRegWrite a b c d => Sys2Proof.Machine.execCoreRegWrite a b c d s
  | .mbxAccess a => Sys2Proof.Machine.execMbxAccess a s
  | .governorSample a b c => Sys2Proof.Machine.execGovernorSample a b c s
  | .powerCapSet a b => Sys2Proof.Machine.execPowerCapSet a b s
  | .domainPower a b c => Sys2Proof.Machine.execDomainPower a b c s
  | .domainWake a => Sys2Proof.Machine.execDomainWake a s
  | .domainReady a => Sys2Proof.Machine.execDomainReady a s
  | .thermalSample a b c => Sys2Proof.Machine.execThermalSample a b c s
  | .voltageDroop a b => Sys2Proof.Machine.execVoltageDroop a b s
  | .ageingReading a => Sys2Proof.Machine.execAgeingReading a s
  | .ageingMeasure a b => Sys2Proof.Machine.execAgeingMeasure a b s
  | .ageingConfig a b c d => Sys2Proof.Machine.execAgeingConfig a b c d s
  | .clockStep a => Sys2Proof.Machine.execClockStep a s
  | .inputRange a => Sys2Proof.Machine.execInputRange a s
  | .inputFault a b => Sys2Proof.Machine.execInputFault a b s
  | .coldReset => Sys2Proof.Machine.execColdReset s
  | .coolantSample a b => Sys2Proof.Machine.execCoolantSample a b s
  | .perfLatch a b => Sys2Proof.Machine.execPerfLatch a b s
  | .perfClear a b => Sys2Proof.Machine.execPerfClear a b s
  | .perfSelWrite a b c d => Sys2Proof.Machine.execPerfSelWrite a b c d s
  | .evqEnable a b c => Sys2Proof.Machine.execEvqEnable a b c s
  | .eventRecordWrite => Sys2Proof.Machine.execEventRecordWrite s
  | .evqConsumerRead a => Sys2Proof.Machine.execEvqConsumerRead a s
  | .evqHoldoffEnd a => Sys2Proof.Machine.execEvqHoldoffEnd a s
  | .evqModuleSet a b c => Sys2Proof.Machine.execEvqModuleSet a b c s
  | .eventTest a b => Sys2Proof.Machine.execEventTest a b s
  | .pldmGetSensor a => Sys2Proof.Machine.execPldmGetSensor a s
  | .pldmPowerCap a => Sys2Proof.Machine.execPldmPowerCap a s
  | .pldmWarmReset => Sys2Proof.Machine.execPldmWarmReset s
  | .rekeying a => Sys2Proof.Machine.execRekeying a s
  | .spdmChunkSend a b c d => Sys2Proof.Machine.execSpdmChunkSend a b c d s
  | .railRecovers a b => Sys2Proof.Machine.execRailRecovers a b s
  | .ringSlotWrite a b c d e => Sys2Proof.Machine.execRingSlotWrite a b c d e s
  | .rplMsgRead a b c => Sys2Proof.Machine.execRplMsgRead a b c s
  | .hostTrainFail a => Sys2Proof.Machine.execHostTrainFail a s
  | .quiesceTimeout => Sys2Proof.Machine.execQuiesceTimeout s

end Sys2Proof.Machine
end

