-- ==== Sys2Proof/WellFormed.lean ====
section
/-!
DEFINITION. Well-formed commands: every operand fits the field, the message or the range of numbers the spec gives it. A command that is
not well formed names nothing the interface could carry.
-/

namespace Sys2Proof

/-- An access of 1, 2, 4 or 8 bytes inside a page (R616). -/
def accessShape (off width : Nat) : Bool := [1, 2, 4, 8].contains width && off + width ≤ 0x1000

/-- A memory request names at least one byte and at most a page of 4 KiB. -/
def memShape : MemOp → Bool
  | .read len => 1 ≤ len && len ≤ 4096
  | .write bytes _ => !bytes.isEmpty && bytes.length ≤ 4096

/-- The fields of a Siori message header (R397). -/
def sHdrShape (h : SHdr) : Bool :=
  h.type_ < 256 && h.version < 16 && h.srcSite < 65536 && h.dstSite < 65536 && h.shard < 2 ^ 32 && h.round < 2 ^ 32

/-- The fields of a Ropaurn frame (R412). -/
def frameShape (f : Frame) : Bool :=
  f.hdr.destMod < 2 ^ 24 && f.hdr.destPart < 64 && f.hdr.srcMod < 2 ^ 24 && f.hdr.srcPart < 64 && f.hdr.vc < 4 && f.hdr.epoch < 256

/-- The fields of a handshake message (R547). -/
def keyMsgShape (m : KeyMsg) : Bool := m.ktype < 256 && m.newEpoch < 256 && m.sessionId < 2 ^ 32

/-- The fields of a signed request (R561). -/
def signedShape (r : SignedReq) : Bool :=
  r.code < 256 && r.deviceId < 2 ^ 64 && r.nonce.length = 32 && r.argHash.length = 32 && r.slot < 8

/-- Whether a command is well formed. -/
def wellFormed (i : Instr) : Bool :=
  match i with
  | .regWrite _ page off width _ => page < 0x6400 && accessShape off width
  | .eventClear _ page off width _ _ => page < 0x6400 && accessShape off width
  | .lowHalfRead _ page at_ _ => page < 0x6400 && accessShape at_.off at_.width
  | .blkLockWrite page _ same => page < 0x4000 && match same with
    | some q => q.1 < 0x1000 && q.1 % 4 = 0
    | none => true
  | .rplQRead _ m => m < 64
  | .doorbell _ chan _ => chan < 256
  | .resume _ chan => chan < 256
  | .dropPkt _ chan => chan < 256
  | .flush _ chan => chan < 256
  | .memAccess _ addr op _ => addr < 2 ^ 48 && memShape op
  | .translationFill _ _ _ v => v < 2 ^ 20
  | .refresh _ _ bank => bank < 128
  | .scrubPass _ _ hits => hits.length ≤ 65536
  | .tierTraining _ fails => fails.all fun q => 1 ≤ q.2 && q.2 ≤ 3
  | .ringEnable _ a _ _ => a < 128
  | .pzEnable _ a _ => a < 128
  | .pzFlush _ a => a < 128
  | .stepRegWrite _ _ off width _ => accessShape off width
  | .readyReceived _ src _ => src < 2 ^ 24
  | .normValueReceived _ src _ _ => src < 2 ^ 24
  | .chunkSend _ seg flow => seg < 65536 && flow < 4096
  | .chunkResend _ seg flow => seg < 65536 && flow < 4096
  | .chunk _ h m => sHdrShape h && m.index < 65536 && m.bytes.length ≤ 8192 && m.crc < 2 ^ 32
  | .ack _ h chunks => sHdrShape h && chunks.all (· < 65536)
  | .close _ h _ merged => sHdrShape h && merged < 65536
  | .open_ _ h m => sHdrShape h && m.root.length = 32
  | .hello _ h m => sHdrShape h && m.newRoot.length = 32
  | .segmentOuter _ seg => seg < 65536
  | .manifest _ h m _ _ _ _ => sHdrShape h && m.bytes.length ≤ 8192
  | .body _ h m => sHdrShape h && m.bytes.length ≤ 8192
  | .digestReq _ h _ _ => sHdrShape h
  | .digestResp _ h _ _ _ => sHdrShape h
  | .blockReq _ h _ _ _ => sHdrShape h
  | .blockData _ h _ _ _ => sHdrShape h
  | .flit _ f _ => f.seq < 4096 && f.ack < 4096 && f.payload.length ≤ 244
  | .nak _ ackSeq => ackSeq < 4096
  | .frame _ f _ => frameShape f
  | .arrivalSignal _ srcMod srcPart => srcMod < 2 ^ 24 && srcPart < 64
  | .handshakeInit _ m => keyMsgShape m
  | .handshakeResp _ m => keyMsgShape m
  | .handshakeConfirm _ m => keyMsgShape m
  | .envelope _ e => e.etype < 256 && e.epoch < 256 && e.sessionId < 2 ^ 32 && e.counter < 2 ^ 64 && e.tag.length = 16
  | .staleEpoch session epoch counter => session < 1024 && epoch < 256 && counter < 2 ^ 64
  | .flowAdd _ i _ => i < 2 ^ 32
  | .flowRate _ i rate => i < 2 ^ 32 && rate < 2 ^ 32
  | .flowWithdraw _ i => i < 2 ^ 32
  | .windowSet _ _ w _ => w < 2 ^ 32
  | .rebuild _ _ desc staging _ _ _ => desc < 2 ^ 64 && staging < 2 ^ 48
  | .keeperSet _ _ k => k.keeperMod < 2 ^ 24 && k.keptMod < 2 ^ 24
  | .partDestroy _ id => id < 2 ^ 32
  | .partQuery _ id result => id < 2 ^ 32 && result < 2 ^ 64
  | .lend _ _ _ slot => slot < 32
  | .shortfall _ _ resource _ => resource < 2 ^ 64
  | .hdmBind _ _ base => base < 2 ^ 64
  | .hostwinMap _ _ first count _ => first < 2 ^ 32 && count < 2 ^ 32
  | .hostwinUnmap _ _ first count => first < 2 ^ 32 && count < 2 ^ 32
  | .mbxAssign _ m leaf => m < 2 ^ 32 && leaf < 2 ^ 32
  | .quiesce _ mode timeoutMs => mode < 2 ^ 32 && timeoutMs < 2 ^ 32
  | .semAdd _ i _ => i < 16384
  | .reqGo _ m _ => m < 64
  | .reqQ _ m _ => m < 64
  | .rplDone _ m _ => m < 64
  | .rplDropPkt _ m => m < 64
  | .mbxCfgWrite _ m _ => m < 64
  | .hdmHostRead off => off % 64 = 0
  | .hdmHostWrite off bytes => off % 64 = 0 && bytes.length = 64
  | .hostEviction off => off % 64 = 0
  | .birsp off dirty => off % 64 = 0 && match dirty with
    | some bs => bs.length = 64
    | none => true
  | .h2dSnoop addr => addr < 2 ^ 64
  | .hostErr _ _ addr => addr < 2 ^ 48
  | .hostLinkUp width rate => [1, 2, 4, 8].contains width && 1 ≤ rate && rate ≤ 3
  | .stewardRelease _ pmon => pmon.length = 32
  | .random _ count => count < 2 ^ 32
  | .fwStage _ kind _ => kind < 2 ^ 32
  | .fwActivate _ kind => kind < 2 ^ 32
  | .svnCommit _ kind => kind < 2 ^ 32
  | .ownerKeyAdd _ slot key _ _ => slot < 2 ^ 32 && key.length = 1793
  | .ownerKeyRevoke _ slot sr => slot < 2 ^ 32 && signedShape sr
  | .vendorKeyRevoke _ slot sr => slot < 2 ^ 32 && signedShape sr
  | .mrExtend _ index value => index < 2 ^ 32 && value.length = 32
  | .fabricSet _ hashes _ => hashes.all fun h => h.length = 32
  | .debugUnlock _ _ sr => signedShape sr
  | .thornKeySet _ slot key => slot < 2 ^ 32 && key.length = 8
  | .thornKeyDerive _ slot label => slot < 2 ^ 32 && label.length = 4
  | .thornMac _ slot _ length => slot < 2 ^ 32 && length < 2 ^ 32
  | .getCertificate slot offset length => slot < 8 && offset < 65536 && length < 65536
  | .challenge nonce => nonce.length = 32
  | .getMeasurements block nonce => block < 256 && nonce.length = 32
  | .keyExchange encapKey => encapKey.length = 1568
  | .chunkGet handle seq => handle < 256 && seq < 65536
  | .vendorDefinedRequest _ _ _ key => key.length = 32
  | .pageRead _ page off count => page < 0x4000 && off < 2 ^ 32 && count < 2 ^ 32
  | .pageWrite _ page off words => page < 0x4000 && off < 2 ^ 32 && words.length ≤ 12
  | .memRead _ addr count => addr < 2 ^ 64 && count < 2 ^ 32
  | .memWrite _ addr words => addr < 2 ^ 64 && words.length ≤ 12
  | .coreStep _ core count => core < 2 ^ 32 && count < 2 ^ 32
  | .coreRegRead _ core reg => core < 2 ^ 32 && reg < 2 ^ 32
  | .coreRegWrite _ core reg _ => core < 2 ^ 32 && reg < 2 ^ 32
  | .powerCapSet _ watts => watts < 2 ^ 32
  | .domainPower _ domain _ => domain < 2 ^ 32
  | .ageingReading slacks => slacks.length % 512 = 0
  | .ageingMeasure _ slacks => slacks.length % 512 = 0
  | .ageingConfig _ period guard_ floor => period < 2 ^ 32 && guard_ < 2 ^ 32 && floor < 2 ^ 32
  | .evqModuleSet _ base _ => base < 2 ^ 64
  | .eventTest _ leaf => leaf < 2 ^ 32
  | .rekeying session => session < 1024
  | .spdmChunkSend handle seq _ bytes => handle < 256 && seq < 65536 && bytes.length ≤ 4096
  | .ringSlotWrite _ chan slot off bytes => chan < 256 && slot < 64 && off + bytes.length ≤ 128
  | .rplMsgRead _ m i => m < 64 && i < 16
  | .slotsPeakRead .. | .inflightHwmRead .. | .stashHwmRead .. | .reclaimMaxRead .. | .carriageHead ..
  | .carriageDispatch .. | .idleCarriage .. | .chanEnable .. | .chanDisable .. | .carriageComplete .. | .signal ..
  | .wait .. | .fence .. | .fenceComplete .. | .draftBegin .. | .commit .. | .discard .. | .draftDecision ..
  | .draftRemapDone .. | .draftPagesDropped .. | .stream .. | .slotLoadDone .. | .fold .. | .foldStart .. | .ctxSave ..
  | .ctxRestore .. | .ctxZero .. | .ctxDone .. | .compatApply .. | .arrayParity .. | .vecParity .. | .selftest ..
  | .selftestDone .. | .vchain .. | .writeBatch .. | .mcHot .. | .bankSlow .. | .bankSlowLimit .. | .scrubNow ..
  | .scrubDone .. | .tierZeroingDone .. | .chanFault .. | .poisonFillDone .. | .warmReset .. | .mcDrainDone ..
  | .drainTimeout .. | .selfRefreshExit .. | .functionLevelReset .. | .xlatInv .. | .xlatInvDone .. | .cartCopy ..
  | .cartGather .. | .cartScatter .. | .cartFill .. | .runAhead .. | .ringRowRelease .. | .numSnap .. | .pruneAccum ..
  | .pruneUpdate .. | .ledgerBlock .. | .normClose .. | .deferredPass .. | .ledgerRecovery .. | .barrier ..
  | .barrierReady .. | .stepCommitReceived .. | .commitRecordAck .. | .commitTimeout .. | .normSend ..
  | .normRecordReceived .. | .normTimeout .. | .coachBind .. | .coachFound .. | .coachJoin .. | .coachUnbind ..
  | .unbindRelease .. | .coachPartners .. | .partnersReread .. | .roundDeadline .. | .openRepeat .. | .helloSend ..
  | .manifestSign .. | .adoptionDone .. | .rebaseBlock .. | .rebaseDone .. | .coachRecovery .. | .rebaseResume ..
  | .rebaseRollback .. | .leaderTimeout .. | .holdReceived .. | .reconcile .. | .portTrain .. | .retrain ..
  | .trainPhaseDone .. | .trainPhaseTimeout .. | .fastRetrain .. | .controlFlit .. | .queueDropPkt ..
  | .frameExpired .. | .hopRekey .. | .keyWait .. | .graceClose .. | .handshakeRetry .. | .ethAutonegRestart ..
  | .ethUp .. | .ethDown .. | .ethFrame .. | .ptpMessage .. | .boundMissed .. | .recRelaid .. | .fieldFault ..
  | .shadowArrival .. | .shadowAck .. | .shadowHeartbeat .. | .moduleLost .. | .keeperLost .. | .rebuildReq ..
  | .rebuildBlock .. | .rebuildDone .. | .partCreate .. | .partResize .. | .manifestLoad .. | .manifestUnload ..
  | .zeroingDone .. | .lendDone .. | .reclaim .. | .reclaimDone .. | .shortfallClear .. | .hdmUnbind ..
  | .quiesceComplete .. | .unquiesce .. | .mbxRequestTake .. | .mbxReply .. | .hdmBiTimeout .. | .hostLinkDown ..
  | .flrFunction0 .. | .flrVf .. | .ideFail .. | .msixUnmask .. | .hawthornBoot .. | .info .. | .nonce ..
  | .debugLock .. | .dbgSealBlow .. | .thornStart .. | .thDataWrite .. | .thKeyWrite .. | .thornDone ..
  | .entropyFail .. | .entropyRetest .. | .drbgReseed .. | .ideRekey .. | .kSetGo .. | .getVersion ..
  | .getCapabilities .. | .negotiateAlgorithms .. | .getDigests .. | .finish .. | .heartbeat .. | .keyUpdate ..
  | .endSession .. | .dbgInfo .. | .coreHalt .. | .coreResume .. | .mbxAccess .. | .governorSample .. | .domainWake ..
  | .domainReady .. | .thermalSample .. | .voltageDroop .. | .clockStep .. | .inputRange .. | .inputFault ..
  | .coldReset .. | .coolantSample .. | .perfLatch .. | .perfClear .. | .perfSelWrite .. | .evqEnable ..
  | .eventRecordWrite .. | .evqConsumerRead .. | .evqHoldoffEnd .. | .pldmGetSensor .. | .pldmPowerCap ..
  | .pldmWarmReset .. | .railRecovers .. | .hostTrainFail .. | .quiesceTimeout .. => true

/-- The well-formed commands. -/
def WellFormed (i : Instr) : Prop := wellFormed i = true

end Sys2Proof
end

