-- ==== Sys2Proof/Safety.lean ====
section
/-!
DEFINITION. The terms that claims about the module are stated in: what a command answers, what it leaves alone, what is safe.
-/

namespace Sys2Proof.Machine

open Sys2Proof

/-- A command completes with a next state whose block meets `P`; the queue and the non-volatile records are what they were. -/
def Does (i : Instr) (s : State) (P : Block → Prop) : Prop :=
  ∃ t : State, exec i s = .next t ∧ t.pending = s.pending ∧ t.nv = s.nv ∧ P t.block

/-- A command completes with a next state that meets `P`. -/
def Gives (i : Instr) (s : State) (P : State → Prop) : Prop := ∃ t : State, exec i s = .next t ∧ P t

/-- One reply has joined those that wait at the mailbox of a request (R522). -/
def Replied (b b' : Block) (rq : Req) (code status : Nat) (words : List Word) : Prop :=
  (b'.mbx rq.mbx).replies = (b.mbx rq.mbx).replies ++ [⟨code, rq.seq, status, words⟩]

/-- Something has been sent out last. -/
def Sent (b : Block) (o : Out) : Prop := b.out.head? = some o

/-- Every byte of memory and every poison mark is what it was. -/
def MemoryKept (b b' : Block) : Prop := ∀ a, b'.byte a = b.byte a ∧ b'.marked (a / 64) = b.marked (a / 64)

/-- Every byte of memory outside [lo, hi) is what it was. -/
def MemoryKeptBut (b b' : Block) (lo hi : Nat) : Prop := ∀ a, a < lo ∨ hi ≤ a → b'.byte a = b.byte a

/-- Every register outside a list of pages is what it was. -/
def PagesKeptBut (b b' : Block) (pages : List Nat) : Prop :=
  ∀ page off, page ∉ pages → off < 0x1000 → b'.reg page off = b.reg page off

/-- The pages of the memory controllers, which count every access to the tiers (R242). -/
def mcPages : List Nat := [Tier.near, Tier.deep].flatMap fun t => (List.range 32).map (pageMc t)

/-- The pages of the Carts, which show what of the staged data an invalidation has left (R218, R261). -/
def cartPages : List Nat := (List.range 64).map (pageOf .cart)

/-- Every register but those at a list of pages and offsets is what it was. -/
def RegsKeptBut (b b' : Block) (regs : List (Nat × Nat)) : Prop :=
  ∀ page off, (page, off) ∉ regs → off < 0x1000 → b'.reg page off = b.reg page off

/-- Every semaphore, every channel's standing, every draft and every array is what it was. -/
def UnitsKept (b b' : Block) : Prop :=
  b'.sems = b.sems ∧ b'.chans = b.chans ∧ b'.drafts = b.drafts ∧ b'.arrays = b.arrays ∧ b'.vecs = b.vecs

/-- The carriage `w` of leaf `p` at the read pointer of channel `c` is of type `t`, has passed its first check, is held by nothing, is refused
for nothing and is of no spoiled draft (R163, R169, R189). -/
def Dispatches (b : Block) (c p : Nat) (w : Carriage) (t : Nat) : Prop :=
  b.atHead c = some (p, w) ∧ (b.chan c).headOk = true ∧ cType w = t ∧ b.held c p w = false ∧ b.refusal p c w = none ∧
  ¬(cDraft w = true ∧ (b.draft p (cDraftId w)).state = .spoiled)

/-- The carriage at the read pointer has been passed: the pointer has advanced, the channel runs, and the carriage is in flight last, on its
engine, complete or not (R167, R172). -/
def Passed (b b' : Block) (c p : Nat) (w : Carriage) (engine : Nat) (done : Bool) : Prop :=
  b'.rdPtr c = (b.rdPtr c + 1) % 128 ∧ b'.chanState c = 1 ∧ (b'.chan c).headOk = false ∧
  b'.reg64 (chanPage c) 0x058 = (b.reg64 (chanPage c) 0x058 + if cType w = 0 then 0 else 1) % 2 ^ 64 ∧
  ∃ f, b'.flights = b.flights ++ [f] ∧ f.chan = c ∧ f.part = p ∧ f.word = w ∧ f.engine = engine ∧ (done = true → f.done = true)

/-- Flight `i` is the oldest that `sel` picks; it belongs to no draft spoiled before its start, and no line it touches waits for the
host and no channel of a tier it touches has stopped serving (R169, R189, R237, R512). -/
def Runs (b : Block) (sel : Flight → Bool) (i : Nat) (f : Flight) : Prop :=
  b.flights.findIdx? sel = some i ∧ b.flights[i]? = some f ∧
  (∀ d, f.ctx.draft = some d → (b.draft f.part d).state ≠ .spoiled ∨ f.started = true) ∧
  b.snoopFor f.part (b.sides f.part f.word) = (b, true) ∧ b.sidesHeld (b.sides f.part f.word) = false

/-- The module while a carriage of flight `f` runs: the translation cache of its engine serves it (R217). -/
def Block.servedFor (b : Block) (f : Flight) : Block := { b with cacheSel := cacheOf f.engine }

/-- Flight `i` has ended its rows; with a fault status or without. -/
def Ended (b' : Block) (i : Nat) (faulted : Bool) : Prop := ∃ g, b'.flights[i]? = some g ∧ g.rows = true ∧ g.faulted = faulted

/-- `n` bytes at a virtual address of leaf `p` lie together at device address `d`. -/
def LiesAt (b : Block) (p va n : Nat) (wr : Bool) (d : Nat) : Prop := 0 < n ∧ chunks va n = [(va, n)] ∧ b.xl ⟨p, none⟩ va wr = .dev d

/-- Flight `i` is a CART of one row of mode `mode` between memory places, of no draft, about to start on engine `e`, without rings, codec
and staged data. -/
def OneRow (b : Block) (e i : Nat) (f : Flight) (mode : Nat) : Prop :=
  let c := cartOf f.word
  Runs b (fun f => f.engine == engCart e && !f.done) i f ∧ cDraft f.word = false ∧ f.started = false ∧ f.chained = false ∧ f.buf = [] ∧
  f.ringPos = [] ∧ f.plane = 0 ∧ f.row = 0 ∧ f.faulted = false ∧ c.mode = mode ∧ c.rows = 1 ∧ c.planes = 1 ∧ c.dstKind = 0 ∧ c.codec = 0 ∧
  c.pass = false ∧ c.srcRing = 0 ∧ c.dstRing = 0

/-- Ranges of memory, each an address and a length, none of which meets another. -/
def Apart (rs : List (Nat × Nat)) : Prop := rs.Pairwise fun x y => x.1 + x.2 ≤ y.1 ∨ y.1 + y.2 ≤ x.1

/-- Flight `i`'s blocks on each Pruner have their turn (R169, R175). -/
def HasTurn (b : Block) (i : Nat) (f : Flight) : Prop := ∀ k, k < 32 → f.leftOf k = 0 ∨ b.prunerTurn i k = true

/-- Picks the UPDATEs that have a block left for PRUNER[k]. -/
def updateSel (k : Nat) (f : Flight) : Bool :=
  cType f.word == 5 && !f.done && (pruneOf f.word).op == 1 && f.engine != engDispatch && f.leftOf k != 0

/-- An access finds its way free: its issuer has none that waits, and nothing holds this one (R222, R223, R512). -/
def Admitted (b : Block) (who : MemIssuer) (va : Nat) (op : MemOp) : Prop :=
  b.memQ.find? (fun r => r.who == who) = none ∧ b.accessWait who va op none = none

/-- A Siori message of a type has come to a bound leaf from one of its partners, with a good header, for its shard and site (R397). -/
def Heard (b : Block) (p : Nat) (h : SHdr) (type_ : Nat) : Prop :=
  b.bound p = true ∧ h.type_ = type_ ∧ h.version = 1 ∧ h.rsv = 0 ∧ (b.partnerAt p h.srcSite).isSome = true ∧
  h.shard = (b.desc p).shard ∧ h.dstSite = (b.desc p).site

/-- The module's one Coach has turned to flight `i`: no COACH carriage that reached it earlier is left (R169, R175). -/
def CoachTurn (b : Block) (i : Nat) : Prop :=
  ((b.flights.take i).any fun q => cType q.word == 6 && q.engine != engDispatch && !q.done) = false

/-- The host holds no line of the areas that a pass of the Coach over the shard of leaf `p` writes (R512). -/
def CoachFree (b : Block) (p : Nat) : Prop := b.snoopFor p ((b.desc p).spans.filter Side.wr) = (b, true)

/-- The datagram of a message sealed under an epoch and counter, as it leaves by a flow (R397, R429, R432). -/
def Block.datagram (b : Block) (f : FlowFields) (m : Mail) (epoch ctr : Nat) : Out :=
  .message m.type_ [m.site, (b.destOf m).1, ofBytes (b.destOf m).2.reverse, m.session, epoch, ctr] (b.mailBytes m)
    (ipPacket f (b.destOf m).1 (b.destOf m).2 (b.seal m epoch ctr).sealed)

/-- No packet waits for a flow. -/
def FlowsEmpty (b : Block) : Prop := ∀ i, (b.flow i).queue = []

/-- A Siori message goes out at once, under key `k`, by flow `j`, for which nothing waits and whose bucket holds enough (R429, R432, R433). -/
def Posts (b : Block) (m : Mail) (k : KeyDir) (j : Nat) : Prop :=
  (∃ q, b.partnerAt m.part m.site = some q ∧ q.session = m.session) ∧ (b.session m.session).send = some k ∧ k.spent b.now = false ∧
  b.flowOf m.session = some j ∧ (b.flow j).queue = [] ∧
  8000 * b.packetLen (b.seal m k.epoch k.counter) ≤ ((b.flow j).refill b.now).tokens

/-- The fragments of a chunk: the messages and their places from 0 (R374, R398). -/
def Block.chunkMails (b : Block) (p site session seg : Nat) : List (Mail × Nat) :=
  let wire := (b.chunkWire p (b.round p) seg).2
  let fs := fragments 8192 wire
  fs.zipIdx.map fun q => (⟨p, site, session, mChunk, b.round p, [seg, b.anchorRound p, q.2, fs.length, 0, wire.length, (crc32c wire).toNat], q.1,
    24 + q.1.length⟩, q.2)

/-- Every fragment of a chunk has gone out by a flow or waits for it, under consecutive counters; all have gone where the bucket holds them
(R374, R375, R429). -/
def ChunkGoes (b b' : Block) (mails : List (Mail × Nat)) (flow epoch ctr : Nat) : Prop :=
  (∀ q ∈ mails, b.datagram (b.flow flow).fields q.1 epoch (ctr + q.2) ∈ b'.out ∨ b.seal q.1 epoch (ctr + q.2) ∈ (b'.flow flow).queue) ∧
  ((mails.map fun q => 8000 * b.packetLen (b.seal q.1 epoch (ctr + q.2))).sum ≤ ((b.flow flow).refill b.now).tokens →
    (b'.flow flow).queue = [] ∧ ∀ q ∈ mails, b.datagram (b.flow flow).fields q.1 epoch (ctr + q.2) ∈ b'.out)

/-- A handshake message as it goes out: to a hop link's partner as it is, to a counterpart as a datagram (R549, R550). -/
def Block.shakeOut (b : Block) (o : KeyOwner) (ktype epoch : Nat) (bytes : List Byte) : Out :=
  .handshake ktype [ownerCode o, epoch] (match o with
    | .hop _ => bytes
    | .e2e i => b.keyDatagram i epoch bytes)

/-- A command starts the handshake of a link or session that has none under way: at epoch 0 where it has no key and the handshake is its first, at
the next epoch where its key is at the threshold (R433, R549, R550). -/
def Rekeys (cmd : Instr) (s : State) (o : KeyOwner) (first : Bool) : Prop :=
  (s.block.keysOf o).busy = false → (s.block.keysOf o).ready = none → s.block.mayShake o = true →
  ((s.block.keysOf o).send = none → first = true → Does cmd s (fun b' => (b'.keysOf o).busy = true ∧ (b'.keysOf o).mine = true ∧
    (b'.keysOf o).fresh = true ∧ (b'.keysOf o).newEpoch = 0 ∧ (b'.keysOf o).send = none ∧
    Sent b' (b'.shakeOut o 1 0 (b'.keysOf o).init) ∧ MemoryKept s.block b' ∧ UnitsKept s.block b')) ∧
  (∀ d, (s.block.keysOf o).send = some d → d.ageing s.block.now = true → Does cmd s (fun b' => (b'.keysOf o).busy = true ∧
    (b'.keysOf o).mine = true ∧ (b'.keysOf o).fresh = false ∧ (b'.keysOf o).newEpoch = (d.epoch + 1) % 256 ∧ (b'.keysOf o).send = some d ∧
    Sent b' (b'.shakeOut o 1 ((d.epoch + 1) % 256) (b'.keysOf o).init) ∧ MemoryKept s.block b' ∧ UnitsKept s.block b'))

/-- An SPDM response goes out whole, or as a large response to be fetched by its handle (R545). -/
def SpdmSends (b b' : Block) (code : Nat) (fields : List Nat) (bytes : List Byte) : Prop :=
  if bytes.length + 8 ≤ 4096 then Sent b' (.spdm code fields bytes)
  else Sent b' (.spdm 0x7F [0x0F, b.haw.spdm.handle] []) ∧ b'.haw.spdm.sending = some ⟨b.haw.spdm.handle, 0, bytes⟩

/-- An SPDM response signed by the alias key: its body, 32 bytes of fresh randomness, the signature over what the standard has it
cover (R542, R545). -/
def SpdmSigns (nv : NonVolatile) (b b' : Block) (code : Nat) (fields : List Nat) (asked body : List Byte) : Prop :=
  ∃ random, SpdmSends b b' code fields (body ++ random ++
    padTo 1280 (Config.falconSign (b.aliasSeed nv) (Config.spdmSigned code asked (body ++ random))))

/-- The commands that may change the non-volatile records: tests that retire arrays, the boot, and what writes flash or fuses. -/
def writesRecords : Instr → Bool
  | .selftestDone .. => true
  | .fieldFault .. => true
  | .hawthornBoot .. => true
  | .fwStage .. => true
  | .fwActivate .. => true
  | .svnCommit .. => true
  | .ownerKeyAdd .. => true
  | .ownerKeyRevoke .. => true
  | .vendorKeyRevoke .. => true
  | .dbgSealBlow .. => true
  | _ => false

/-- A fuse that is blown stays blown. -/
def FusesGrow (f g : Fuses) : Prop :=
  (f.dbgSeal.blown = true → g.dbgSeal.blown = true) ∧
  (∀ i, (f.vendorBit i).blown = true → (g.vendorBit i).blown = true) ∧
  (∀ i, (f.validBit i).blown = true → (g.validBit i).blown = true) ∧
  (∀ i, (f.revokeBit i).blown = true → (g.revokeBit i).blown = true) ∧
  f.svnHfw ≤ g.svnHfw ∧ f.svnSfw ≤ g.svnSfw

end Sys2Proof.Machine
end

