-- ==== Sys2Proof/Certificates/Slice0/Obligations.lean ====
section
/-!
DEFINITION. The statements about the module, one `def Obligations.<Name> : Prop` each: what every command does where it completes,
what it leaves alone, and what holds of every step.
-/

open Sys2Proof Sys2Proof.Machine

/-- R12, R13, R616: a write of BLK_EVENT_EN by the Steward, or by function 0 while the page is not locked, sets the bits the page defines and no
other. A write that reaches a word with W1C bits clears those written 1 but for those hardware sets in the same cycle, which stay set; its
other bits, every other register, memory and every unit stay as they were. An 8-byte write acts as two 4-byte writes, the lower offset
first, where its value is no reserved encoding of a 64-bit register. REG_WRITE, EVENT_CLEAR. -/
def Obligations.EventRegistersTakeWrites : Prop :=
  (∀ (s : State) (who : Agent) (x : Nat) (k : Kind) (n : Nat) (v : DWord), pageKind x = some (k, n) → k ≠ .perfUser →
    (who = .steward ∨ who = .pf ∧ s.block.fld x 0x01C 0 1 = 0) →
    Does (.regWrite who x 0x018 4 v) s (fun b' =>
      (∀ i, i < 32 → bitOf (b'.regN x 0x018) i =
        if bitOf (eventMask k) i then bitOf v.toNat i else bitOf (s.block.regN x 0x018) i) ∧
      RegsKeptBut s.block b' [(x, 0x018)] ∧ MemoryKept s.block b' ∧ UnitsKept s.block b')) ∧
  (∀ (s : State) (who : Agent) (x y off : Nat) (k : Kind) (n : Nat) (w : RegWord) (v hw : DWord), x < 0x4000 →
    s.block.pageRef who x = .page y → pageKind y = some (k, n) → off % 4 = 0 → off < 0x1000 → regWordAt k n off = some w →
    halfMask w w.row.w1c ≠ 0 → s.block.mayWrite who k n off = true →
    Does (.eventClear who x off 4 v hw) s (fun b' =>
      (∀ i, i < 32 → bitOf (b'.regN y off) i =
        if bitOf (halfMask w w.row.w1c) i then bitOf hw.toNat i || (bitOf (s.block.regN y off) i && !bitOf v.toNat i)
        else bitOf (s.block.regN y off) i) ∧
      RegsKeptBut s.block b' [(y, off)] ∧ MemoryKept s.block b' ∧ UnitsKept s.block b')) ∧
  (∀ (s : State) (who : Agent) (x off : Nat) (v hw : DWord), off % 8 = 0 → off < 0x1000 →
    (∀ y k n, s.block.pageRef who x = .page y → pageKind y = some (k, n) → s.block.wideReserved k n off v.toNat = false) →
    (∃ t, exec (.eventClear who x off 4 v hw) s = .next t ∧
      exec (.eventClear who x off 8 v hw) s = exec (.eventClear who x (off + 4) 4 (v >>> 32) (hw >>> 32)) t) ∧
    (∃ t, exec (.regWrite who x off 4 v) s = .next t ∧
      exec (.regWrite who x off 8 v) s = exec (.regWrite who x (off + 4) 4 (v >>> 32)) t))

/-- R16, R609, R616: a write where the requester sees no page, where the page has no register, or to a register none of whose bits a write
reaches, changes nothing; so does an access of another width or off its alignment, and an 8-byte write whose value is a reserved encoding of a 64-bit
register. REG_WRITE, EVENT_CLEAR. -/
def Obligations.WritesElsewhereChangeNothing : Prop :=
  (∀ (s : State) (who : Agent) (x off : Nat) (v hw : DWord), x < 0x4000 →
    (∀ y k n w, s.block.pageRef who x = .page y → pageKind y = some (k, n) → regWordAt k n off = some w →
      halfMask w w.row.rw = 0 ∧ halfMask w w.row.w1c = 0 ∧ halfMask w w.row.wo = 0) →
    exec (.regWrite who x off 4 v) s = .next s ∧
    (off % 4 = 0 → off < 0x1000 → exec (.eventClear who x off 4 v hw) s = .next s) ∧
    (∀ width, goodWidth off width = false → exec (.regWrite who x off width v) s = .next s ∧ exec (.eventClear who x off width v 0) s = .next s)) ∧
  (∀ (s : State) (who : Agent) (x y off : Nat) (k : Kind) (n : Nat) (v : DWord), off % 8 = 0 → off < 0x1000 → x < 0x4000 →
    s.block.pageRef who x = .page y → pageKind y = some (k, n) → s.block.wideReserved k n off v.toNat = true →
    exec (.regWrite who x off 8 v) s = .next s)

/-- R614: BLK_LOCK takes bit 0 of what the Steward writes, and the lock governs a host's write that reaches the page in the same cycle:
once locked, no write of function 0 or of a virtual function changes any register of the page. BLK_LOCK_WRITE, REG_WRITE. -/
def Obligations.LockedPagesIgnoreHosts : Prop :=
  (∀ (s : State) (x k' : Nat) (k : Kind) (value : Word), pageKind x = some (k, k') → k ≠ .perfUser →
    s.block.pageRef .steward x = .page x → Does (.blkLockWrite x value none) s (fun b' => b'.fld x 0x01C 0 1 = value.toNat % 2 ∧ RegsKeptBut s.block b' [(x, 0x01C)] ∧
      MemoryKept s.block b' ∧ UnitsKept s.block b')) ∧
  (∀ (s : State) (x k' : Nat) (k : Kind) (value : Word) (off : Nat) (v : Word), pageKind x = some (k, k') →
    s.block.pageRef .steward x = .page x → value.toNat % 2 = 1 →
    exec (.blkLockWrite x value (some (off, v))) s = exec (.blkLockWrite x value none) s) ∧
  (∀ (s : State) (who : Agent) (x y off : Nat) (v : DWord), x < 0x4000 → (who = .pf ∨ ∃ f, who = .vf f) →
    s.block.pageRef who x = .page y → s.block.fld y 0x01C 0 1 = 1 → exec (.regWrite who x off 4 v) s = .next s)

/-- R17: a read of the lower half of a 64-bit register returns it and latches the upper half for that requester; the next read of the
upper half returns what was latched, whatever the register has become meanwhile, and ends the latch; without a latch it returns the current upper half. A register that
clears when read clears whole by a read of its lower half or of all of it; a read of all of it in one access returns both halves as they stand
together. LOW_HALF_READ, STASH_HWM_READ. -/
def Obligations.HalvesReadAsOneValue : Prop :=
  (∀ (s : State) (who : Agent) (x off : Nat) (k : Kind) (n : Nat) (w : RegWord),
    off % 4 = 0 → off < 0x1000 → s.block.wordRef who x off = some (k, n, w) → w.upper = false → w.row.wide = true →
    ∃ t, exec (.lowHalfRead who x ⟨off, 4⟩ none) s = .next t ∧ t.pending = s.pending ∧ t.nv = s.nv ∧
      Sent t.block (.readData who x off (BitVec.ofNat 64 (s.block.readWord who x off))) ∧
      (if w.row.rc = true then t.block.reg64 (pageOf k n) off = 0 ∧ RegsKeptBut s.block t.block [(pageOf k n, off), (pageOf k n, off + 4)]
        else t.block.regs = s.block.regs) ∧
      t.block.mem = s.block.mem ∧ UnitsKept s.block t.block ∧
      ∀ (t' : State) (k' : Kind) (n' : Nat) (w' : RegWord), t'.block.latch = t.block.latch →
        t'.block.wordRef who x (off + 4) = some (k', n', w') → w'.upper = true →
        Does (.lowHalfRead who x ⟨(off + 4), 4⟩ none) t' (fun b' =>
          Sent b' (.readData who x (off + 4) (BitVec.ofNat 64 (s.block.readWord who x (off + 4) % 2 ^ 32))) ∧
          b'.latched who x (off + 4) = none ∧ b'.regs = t'.block.regs)) ∧
  (∀ (s : State) (who : Agent) (x off : Nat) (k : Kind) (n : Nat) (w : RegWord), off % 4 = 0 → off < 0x1000 →
    s.block.wordRef who x off = some (k, n, w) → w.upper = true → s.block.latched who x off = none →
    Does (.lowHalfRead who x ⟨off, 4⟩ none) s (fun b' => Sent b' (.readData who x off (BitVec.ofNat 64 (s.block.readWord who x off))) ∧
      b'.regs = s.block.regs ∧ b'.latch = s.block.latch)) ∧
  (∀ (s : State) (who : Agent) (x off : Nat) (k : Kind) (n : Nat) (w : RegWord), off % 8 = 0 → off < 0x1000 →
    s.block.wordRef who x off = some (k, n, w) → w.upper = false → w.row.wide = true →
    Does (.lowHalfRead who x ⟨off, 8⟩ none) s (fun b' => Sent b' (.readData who x off (BitVec.ofNat 64
      (s.block.readWord who x off + 2 ^ 32 * s.block.readWord who x (off + 4)))) ∧
      (if w.row.rc = true then b'.reg64 (pageOf k n) off = 0 else b'.regs = s.block.regs) ∧ b'.mem = s.block.mem ∧ UnitsKept s.block b')) ∧
  (∀ (s : State) (who : Agent) (p : Fin 64), s.block.wordRef who (partPage p) 0x248 ≠ none →
    Does (.stashHwmRead who p none) s (fun b' => Sent b' (.readData who (partPage p) 0x248 (BitVec.ofNat 64
      (s.block.readWord who (partPage p) 0x248 + 2 ^ 32 * s.block.readWord who (partPage p) 0x24C))) ∧
      ∀ k n w, s.block.wordRef who (partPage p) 0x248 = some (k, n, w) → b'.reg64 (pageOf k n) 0x248 = 0))

/-- R14, R242, R316, R317, R498: a register that clears when read returns its value and keeps only what hardware adds in the same cycle;
so does a 4-byte read that reaches it in its lower half; where the requester sees no such page, the read returns 0 and clears nothing.
SLOTS_PEAK_READ, INFLIGHT_HWM_READ, STASH_HWM_READ, RECLAIM_MAX_READ, LOW_HALF_READ. -/
def Obligations.ReadsThatClear : Prop :=
  (∀ (s : State) (who : Agent) (t : Tier) (k : Fin 32) (u : Option Word), s.block.pageRef who (pageMc t k) = .page (pageMc t k) →
    Does (.slotsPeakRead who t k u) s (fun b' =>
      Sent b' (.readData who (pageMc t k) 0x0A4 (BitVec.ofNat 64 (s.block.regN (pageMc t k) 0x0A4))) ∧
      b'.reg (pageMc t k) 0x0A4 = u.getD 0 ∧ RegsKeptBut s.block b' [(pageMc t k, 0x0A4)] ∧ MemoryKept s.block b')) ∧
  (∀ (s : State) (who : Agent) (t : Tier) (k : Fin 32) (u : Option Word), s.block.pageRef who (pageMc t k) = .absent →
    Does (.slotsPeakRead who t k u) s (fun b' => Sent b' (.readData who (pageMc t k) 0x0A4 0) ∧ b'.regs = s.block.regs)) ∧
  (∀ (s : State) (who : Agent) (p : Fin 64) (u : Option Word), s.block.pageRef who (pageOf .part p) = .page (pageOf .part p) →
    Does (.inflightHwmRead who p u) s (fun b' =>
      Sent b' (.readData who (pageOf .part p) 0x238 (BitVec.ofNat 64 (s.block.regN (pageOf .part p) 0x238))) ∧
      b'.reg (pageOf .part p) 0x238 = u.getD 0 ∧ RegsKeptBut s.block b' [(pageOf .part p, 0x238)] ∧ MemoryKept s.block b') ∧
    Does (.reclaimMaxRead who p u) s (fun b' =>
      Sent b' (.readData who (pageOf .part p) 0x0E8 (BitVec.ofNat 64 (s.block.regN (pageOf .part p) 0x0E8))) ∧
      b'.reg (pageOf .part p) 0x0E8 = u.getD 0 ∧ RegsKeptBut s.block b' [(pageOf .part p, 0x0E8)] ∧ MemoryKept s.block b')) ∧
  (∀ (s : State) (who : Agent) (p : Fin 64) (u : Option DWord), s.block.pageRef who (pageOf .part p) = .page (pageOf .part p) →
    Does (.stashHwmRead who p u) s (fun b' =>
      Sent b' (.readData who (pageOf .part p) 0x248 (BitVec.ofNat 64 (s.block.reg64 (pageOf .part p) 0x248))) ∧
      b'.reg64 (pageOf .part p) 0x248 = (u.getD 0).toNat ∧
      RegsKeptBut s.block b' [(pageOf .part p, 0x248), (pageOf .part p, 0x24C)] ∧ MemoryKept s.block b')) ∧
  (∀ (s : State) (who : Agent) (x off : Nat) (k : Kind) (n : Nat) (w : RegWord) (u : Option DWord),
    off % 4 = 0 → off < 0x1000 → s.block.wordRef who x off = some (k, n, w) → w.upper = false → w.row.rc = true →
    Does (.lowHalfRead who x ⟨off, 4⟩ u) s (fun b' =>
      Sent b' (.readData who x off (BitVec.ofNat 64 (s.block.readWord who x off))) ∧
      b'.regN (pageOf k n) off = (u.getD 0).toNat % 2 ^ 32 ∧
      (w.row.wide = true → b'.regN (pageOf k n) (off + 4) = (u.getD 0).toNat / 2 ^ 32) ∧
      RegsKeptBut s.block b' ([(pageOf k n, off)] ++ if w.row.wide then [(pageOf k n, off + 4)] else []) ∧ MemoryKept s.block b'))

/-- R592, R596: PERF_CTRL.LATCH copies the eight counters, PERF_CYCLES and the time to their latches at once and leaves the counters;
CLEAR zeroes counters and latches; a write of PERF_SEL_k that changes it zeroes counter k with its OVF, and an event that is not valid with its kind
leaves both fields as they were. PERF_LATCH, PERF_CLEAR, PERF_SEL_WRITE. -/
def Obligations.CountersLatchAndClear : Prop :=
  (∀ (s : State) (who : Agent) (p : Fin 64), s.block.mayPerf who p 0x040 = true →
    Does (.perfLatch who p) s (fun b' =>
      (∀ k, k < 8 → b'.reg64 (perfPage p) (0x0C0 + 8 * k) = s.block.reg64 (perfPage p) (0x080 + 8 * k) ∧
        b'.reg64 (perfPage p) (0x080 + 8 * k) = s.block.reg64 (perfPage p) (0x080 + 8 * k)) ∧
      b'.reg64 (perfPage p) 0x068 = s.block.perfCycles p % 2 ^ 64 ∧ b'.reg64 (perfPage p) 0x070 = s.block.now % 2 ^ 64 ∧
      PagesKeptBut s.block b' [perfPage p] ∧ MemoryKept s.block b' ∧ UnitsKept s.block b') ∧
    Does (.perfClear who p) s (fun b' =>
      (∀ k, k < 8 → b'.reg64 (perfPage p) (0x080 + 8 * k) = 0 ∧ b'.reg64 (perfPage p) (0x0C0 + 8 * k) = 0) ∧
      PagesKeptBut s.block b' [perfPage p] ∧ MemoryKept s.block b' ∧ UnitsKept s.block b')) ∧
  (∀ (s : State) (who : Agent) (p : Fin 64) (k : Fin 8) (v : Word), s.block.mayPerf who p (0x100 + 4 * k) = true →
    Does (.perfSelWrite who p k v) s (fun b' =>
      let old := s.block.regN (perfPage p) (0x100 + 4 * k)
      let new := b'.regN (perfPage p) (0x100 + 4 * k)
      (if fieldOf v.toNat 8 3 ∈ perfKinds (fieldOf v.toNat 0 8) then new = v.toNat % 2 ^ 20
        else fieldOf new 0 11 = fieldOf old 0 11 ∧ fieldOf new 11 9 = fieldOf v.toNat 11 9) ∧
      b'.reg64 (perfPage p) (0x080 + 8 * k) = (if new = old then s.block.reg64 (perfPage p) (0x080 + 8 * k) else 0) ∧
      PagesKeptBut s.block b' [perfPage p] ∧ MemoryKept s.block b' ∧ UnitsKept s.block b'))

/-- R601, R602, R604: a change of a queue's EN from 0 to 1 starts it anew with WR and RD 0; the oldest record of a FAULT or FATAL event, or one
whose 10 µs have passed, is written to its queue at BASE + 32 (WR mod E) while the queue holds credit, and WR advances; without credit the
consumer's word is read for RD; a holdoff that ends over a record it covered fires the queue's vector and begins anew. EVQ_ENABLE,
EVENT_RECORD_WRITE, EVQ_CONSUMER_READ, EVQ_HOLDOFF_END. -/
def Obligations.EventQueuesFillAndFire : Prop :=
  (∀ (s : State) (who : Agent) (p : Fin 64) (v : Word), s.block.mayPerf who p 0x044 = true →
    s.block.qEnabled (some p.val) = false → bitOf v.toNat 0 = true → fieldOf v.toNat 1 4 ≤ 10 →
    Does (.evqEnable who p v) s (fun b' => b'.regN (perfPage p) 0x044 = v.toNat % 2 ^ 27 ∧ b'.regN (perfPage p) 0x050 = 0 ∧
      b'.regN (perfPage p) 0x054 = 0 ∧ (b'.evq p).lost = 0 ∧ RegsKeptBut s.block b' [(perfPage p, 0x044), (perfPage p, 0x050), (perfPage p, 0x054)] ∧
      MemoryKept s.block b' ∧ UnitsKept s.block b')) ∧
  (∀ (s : State) (p : Fin 64) (e : EvRec) (rest : List EvRec) (a : Nat), s.block.events = e :: rest → e.dests = [some p.val] →
    (2 ≤ e.sev ∨ e.time + 10000 < s.block.now) → s.block.qEnabled (some p.val) = true → s.block.qCredits (some p.val) ≠ 0 →
    (s.block.evq p).lost = 0 → s.block.fld (perfPage p) 0x040 1 1 = 0 → (∀ d, (s.block.draft p d).state ≠ .open_) →
    s.block.qWhere (some p.val) (s.block.reg64 (perfPage p) 0x048 + 32 * (s.block.regN (perfPage p) 0x050 % s.block.qSize (some p.val))) = .dev a →
    Does .eventRecordWrite s (fun b' => b'.events = rest ∧ b'.bytes a 32 = s.block.evBytes (some p.val) e ∧
      b'.regN (perfPage p) 0x050 = (s.block.regN (perfPage p) 0x050 + 1) % 2 ^ 17 ∧ MemoryKeptBut s.block b' a (a + 32) ∧ UnitsKept s.block b' ∧
      PagesKeptBut s.block b' ([perfPage p, pageOf .hostif 0, msixCtrlPage (s.block.fnOf p)] ++ mcPages))) ∧
  (∀ (s : State) (p : Fin 64) (r : Block × List Byte), s.block.qEnabled (some p.val) = true → s.block.qCredits (some p.val) = 0 →
    ((s.block.evq p).lastRead = 0 ∨ (s.block.evq p).lastRead + 10000 ≤ s.block.now) →
    s.block.qGet (some p.val) (s.block.reg64 (perfPage p) 0x048 + 32 * s.block.qSize (some p.val)) 8 = some r →
    Does (.evqConsumerRead (some p)) s (fun b' => b'.regN (perfPage p) 0x054 = ofBytes r.2 % 2 ^ 17 ∧ (b'.evq p).lastRead = s.block.now ∧
      PagesKeptBut s.block b' ([perfPage p, pageOf .hostif 0] ++ mcPages) ∧ MemoryKept s.block b' ∧ UnitsKept s.block b')) ∧
  (∀ (s : State) (p : Fin 64), (s.block.evq p).covered = true → (s.block.evq p).holdEnd ≤ s.block.now →
    s.block.fld (perfPage p) 0x044 7 1 = 1 →
    Does (.evqHoldoffEnd (some p)) s (fun b' =>
      (b'.evq p).covered = false ∧ (b'.evq p).holdEnd = s.block.now + s.block.fld (perfPage p) 0x044 19 8 * 1000 ∧
      (let fn := s.block.fnOf p
       let v := s.block.fld (perfPage p) 0x044 8 11
       bitOf (s.block.regN (msixCtrlPage fn) 0) 0 = true → bitOf (s.block.regN (msixCtrlPage fn) 0) 1 = false →
         bitOf (s.block.regN (msixPage fn v) (msixOff v 12)) 0 = false → Sent b' (.msix fn v)) ∧
      PagesKeptBut s.block b' [pageOf .hostif 0, msixCtrlPage (s.block.fnOf p)] ∧ MemoryKept s.block b' ∧ UnitsKept s.block b'))

/-- R604, R605: function 0 sets the module queue's base and control and is answered 0x00; any other issuer is answered 0x02; EVENT_TEST of the
module queue writes one record with BIT 31 and the request's SEQ as ARG0 at the queue's next place. EVQ_MODULE_SET, EVENT_TEST. -/
def Obligations.ModuleQueueCommands : Prop :=
  (∀ (s : State) (rq : Req) (base : Nat) (ctrl : Word), rq.by_ = .pf → base % 4096 = 0 → (regionOf base).isSome = true →
    ctrl.toNat < 2 ^ 27 → fieldOf ctrl.toNat 1 4 ≤ 10 →
    Does (.evqModuleSet rq base ctrl) s (fun b' => Replied s.block b' rq 0x70 0 [0] ∧ b'.reg64 devPage 0x208 = base ∧
      fieldOf (b'.regN devPage 0x200) 0 27 = ctrl.toNat ∧ PagesKeptBut s.block b' [devPage] ∧ MemoryKept s.block b' ∧ UnitsKept s.block b')) ∧
  (∀ (s : State) (rq : Req) (base : Nat) (ctrl : Word), rq.by_ ≠ .pf →
    Does (.evqModuleSet rq base ctrl) s (fun b' => Replied s.block b' rq 0x70 0x02 [0] ∧ b'.regs = s.block.regs ∧ MemoryKept s.block b')) ∧
  (∀ (s : State) (rq : Req) (a : Nat), rq.by_ = .pf → s.block.qEnabled none = true → s.block.qCredits none ≠ 0 → (s.block.evq 64).lost = 0 →
    (∀ p d, (s.block.draft p d).state ≠ .open_) → s.block.qWhere none (s.block.reg64 devPage 0x208 + 32 * (s.block.regN devPage 0x210 % s.block.qSize none)) = .dev a →
    Does (.eventTest rq 127) s (fun b' => Replied s.block b' rq 0x71 0 [0] ∧
      b'.bytes a 32 = s.block.evBytes none ⟨s.block.now, devPage, 31, 0, none, 0, BitVec.ofNat 64 rq.seq.toNat, 0, []⟩ ∧
      b'.regN devPage 0x210 = (s.block.regN devPage 0x210 + 1) % 2 ^ 17 ∧ MemoryKeptBut s.block b' a (a + 32) ∧ UnitsKept s.block b')) ∧
  (∀ (s : State) (rq : Req), rq.by_ ≠ .pf → Does (.eventTest rq 127) s (fun b' => Replied s.block b' rq 0x71 0x02 [0] ∧ b'.regs = s.block.regs))

/-- R519, R520: a REQ_GO write by the mailbox's owner fills an empty request direction, and a write to a full one is counted in REJECT and changes
nothing of the mailbox; so with a word for REQ_Q and sixteen words. REQ_GO, REQ_Q. -/
def Obligations.MailboxRequestsFillOrReject : Prop :=
  (∀ (s : State) (who : Agent) (m : Nat) (v : Word), s.block.mbxOwner who m = true → s.block.mbxQueue m = false →
    (s.block.mbx m).reqFull = false → bitOf v.toNat 0 = true →
    Does (.reqGo who m v) s (fun b' => b'.mbx m = { s.block.mbx m with reqFull := true } ∧ (∀ m', m' ≠ m → b'.mbx m' = s.block.mbx m') ∧
      b'.regs = s.block.regs ∧ MemoryKept s.block b' ∧ UnitsKept s.block b')) ∧
  (∀ (s : State) (who : Agent) (m : Nat) (v : Word), s.block.mbxOwner who m = true → s.block.mbxQueue m = false →
    (s.block.mbx m).reqFull = true →
    Does (.reqGo who m v) s (fun b' => b'.mailboxes = s.block.mailboxes ∧
      b'.reg64 (mbxPage m) 0x048 = (s.block.reg64 (mbxPage m) 0x048 + 1) % 2 ^ 64 ∧
      RegsKeptBut s.block b' [(mbxPage m, 0x048), (mbxPage m, 0x04C)] ∧ MemoryKept s.block b')) ∧
  (∀ (s : State) (who : Agent) (m : Nat) (v : Word), s.block.mbxOwner who m = true → s.block.mbxQueue m = true →
    (s.block.mbx m).reqQ.length < 16 →
    Does (.reqQ who m v) s (fun b' => b'.mbx m = { s.block.mbx m with reqQ := (s.block.mbx m).reqQ ++ [v] } ∧
      (∀ m', m' ≠ m → b'.mbx m' = s.block.mbx m') ∧ b'.regs = s.block.regs ∧ MemoryKept s.block b' ∧ UnitsKept s.block b')) ∧
  (∀ (s : State) (who : Agent) (m : Nat) (v : Word), s.block.mbxOwner who m = true → s.block.mbxQueue m = true →
    16 ≤ (s.block.mbx m).reqQ.length →
    Does (.reqQ who m v) s (fun b' => b'.mailboxes = s.block.mailboxes ∧
      b'.reg64 (mbxPage m) 0x048 = (s.block.reg64 (mbxPage m) 0x048 + 1) % 2 ^ 64 ∧ MemoryKept s.block b'))

/-- R521, R522: taking a request empties the request direction, counts it and holds its words among those taken; the oldest waiting reply is
written to the message registers, header first, or appended to the reply queue, and counted, its request being no longer held.
MBX_REQUEST_TAKE, MBX_REPLY. -/
def Obligations.MailboxesTakeAndReply : Prop :=
  (∀ (s : State) (m : Fin 64), s.block.mbxExists m = true → (s.block.mbx m).taken.length < 8 → s.block.mbxQueue m = false →
    (s.block.mbx m).reqFull = true →
    Does (.mbxRequestTake m) s (fun b' =>
      let words := (List.range (s.block.mbxRegs m)).map fun i => s.block.reg (mbxRegion m) (4 * i)
      let msg := words.take (1 + headLen (words.headD 0))
      (b'.mbx m).reqFull = false ∧ b'.reg64 (mbxPage m) 0x050 = (s.block.reg64 (mbxPage m) 0x050 + 1) % 2 ^ 64 ∧
      (b'.mbx m).taken = (if (msg.headD 0).toNat = 0 then (s.block.mbx m).taken else (s.block.mbx m).taken ++ [msg]) ∧
      (∀ m' : Nat, m' ≠ m → b'.mbx m' = s.block.mbx m') ∧ MemoryKept s.block b' ∧ UnitsKept s.block b')) ∧
  (∀ (s : State) (m : Fin 64) (n : Nat), s.block.mbxExists m = true → (s.block.mbx m).taken.length < 8 → s.block.mbxQueue m = true →
    n = 1 + headLen ((s.block.mbx m).reqQ.headD 0) → n ≤ 16 → n ≤ (s.block.mbx m).reqQ.length →
    Does (.mbxRequestTake m) s (fun b' => (b'.mbx m).reqQ = (s.block.mbx m).reqQ.drop n ∧
      (b'.mbx m).credits = (s.block.mbx m).credits + BitVec.ofNat 32 n ∧
      (((s.block.mbx m).reqQ.headD 0).toNat ≠ 0 → (b'.mbx m).taken = (s.block.mbx m).taken ++ [(s.block.mbx m).reqQ.take n]) ∧
      MemoryKept s.block b' ∧ UnitsKept s.block b')) ∧
  (∀ (s : State) (m : Fin 64) (r : Reply) (rest : List Reply), (s.block.mbx m).replies = r :: rest → s.block.mbxQueue m = false →
    (s.block.mbx m).rplFull = false →
    Does (.mbxReply m) s (fun b' => (b'.mbx m).replies = rest ∧ (b'.mbx m).rplFull = true ∧
      (∀ i, i < s.block.mbxRegs m → b'.reg (mbxRegion m) (0x080 + 4 * i) = r.words'.getD i 0) ∧
      b'.reg64 (mbxPage m) 0x058 = (s.block.reg64 (mbxPage m) 0x058 + 1) % 2 ^ 64 ∧ MemoryKept s.block b' ∧ UnitsKept s.block b')) ∧
  (∀ (s : State) (m : Fin 64) (r : Reply) (rest : List Reply), (s.block.mbx m).replies = r :: rest → s.block.mbxQueue m = true →
    (s.block.mbx m).rplQ.length + r.words'.length ≤ 16 →
    Does (.mbxReply m) s (fun b' => (b'.mbx m).replies = rest ∧ (b'.mbx m).rplQ = (s.block.mbx m).rplQ ++ r.words' ∧
      b'.reg64 (mbxPage m) 0x058 = (s.block.reg64 (mbxPage m) 0x058 + 1) % 2 ^ 64 ∧ MemoryKept s.block b' ∧ UnitsKept s.block b'))

/-- R519, R528: the owner empties a full reply direction by RPL_DONE, or with ACK = 1 by reading the last message register; a read of RPL_Q takes
the oldest word, RPL_DROP_PKT the rest of the reply being read. RPL_DONE, RPL_MSG_READ, RPL_Q_READ, RPL_DROP_PKT. -/
def Obligations.MailboxRepliesAreRead : Prop :=
  (∀ (s : State) (who : Agent) (m : Nat) (v : Word), s.block.mbxOwner who m = true → s.block.mbxQueue m = false → s.block.mbxAck m = false →
    (s.block.mbx m).rplFull = true → bitOf v.toNat 0 = true →
    Does (.rplDone who m v) s (fun b' => b'.mbx m = { s.block.mbx m with rplFull := false } ∧ Sent b' (.stewardIrq m) ∧
      (∀ m', m' ≠ m → b'.mbx m' = s.block.mbx m') ∧ b'.regs = s.block.regs ∧ MemoryKept s.block b' ∧ UnitsKept s.block b')) ∧
  (∀ (s : State) (who : Agent) (m i : Nat), s.block.mbxOwner who m = true → s.block.mbxQueue m = false → i < s.block.mbxRegs m →
    Does (.rplMsgRead who m i) s (fun b' =>
      Out.readData who (mbxRegion m) (0x080 + 4 * i) (BitVec.ofNat 64 (s.block.regN (mbxRegion m) (0x080 + 4 * i))) ∈ b'.out ∧
      b'.mbx m = (if s.block.mbxAck m = true ∧ i + 1 = s.block.mbxRegs m then { s.block.mbx m with rplFull := false } else s.block.mbx m) ∧
      b'.regs = s.block.regs ∧ MemoryKept s.block b' ∧ UnitsKept s.block b')) ∧
  (∀ (s : State) (who : Agent) (m : Nat) (w : Word) (rest : List Word), s.block.mbxOwner who m = true → s.block.mbxQueue m = true →
    (s.block.mbx m).rplQ = w :: rest →
    Does (.rplQRead who m) s (fun b' => Sent b' (.readData who (mbxRegion m) 0x180 (BitVec.ofNat 64 w.toNat)) ∧ (b'.mbx m).rplQ = rest ∧
      (b'.mbx m).rplLeft = (if (s.block.mbx m).rplLeft = 0 then headLen w else (s.block.mbx m).rplLeft - 1) ∧
      b'.regs = s.block.regs ∧ MemoryKept s.block b' ∧ UnitsKept s.block b')) ∧
  (∀ (s : State) (who : Agent) (m : Nat), s.block.mbxOwner who m = true → s.block.mbxQueue m = true → (s.block.mbx m).rplLeft ≠ 0 →
    Does (.rplDropPkt who m) s (fun b' => (b'.mbx m).rplQ = (s.block.mbx m).rplQ.drop (s.block.mbx m).rplLeft ∧ (b'.mbx m).rplLeft = 0 ∧
      b'.regs = s.block.regs ∧ MemoryKept s.block b' ∧ UnitsKept s.block b'))

/-- R518, R519: MBX_CFG takes a write only while both directions are empty, and then starts the credits anew; MBX_ASSIGN by function 0 gives a
pool mailbox, emptied, to a leaf or takes it back. MBX_CFG_WRITE, MBX_ASSIGN. -/
def Obligations.MailboxesChangeHandsEmpty : Prop :=
  (∀ (s : State) (who : Agent) (m : Nat) (v : Word), m < 64 → s.block.pageRef who (mbxPage m) = .page (mbxPage m) →
    s.block.mayWrite who .mbx m 0x040 = true → (s.block.mbx m).reqFull = false → (s.block.mbx m).rplFull = false →
    (s.block.mbx m).reqQ = [] → (s.block.mbx m).rplQ = [] → fieldOf v.toNat 1 2 ≠ 3 →
    Does (.mbxCfgWrite who m v) s (fun b' => b'.regN (mbxPage m) 0x040 = v.toNat % 2 ^ 15 ∧ (b'.mbx m).credits = 0 ∧ (b'.mbx m).rplLeft = 0 ∧
      RegsKeptBut s.block b' [(mbxPage m, 0x040)] ∧ MemoryKept s.block b' ∧ UnitsKept s.block b')) ∧
  (∀ (s : State) (who : Agent) (m : Nat) (v : Word),
    ((s.block.mbx m).reqFull = true ∨ (s.block.mbx m).rplFull = true ∨ (s.block.mbx m).reqQ ≠ [] ∨ (s.block.mbx m).rplQ ≠ []) →
    exec (.mbxCfgWrite who m v) s = .next s) ∧
  (∀ (s : State) (rq : Req) (m leaf : Nat), rq.by_ = .pf → 32 ≤ m → m < 64 → rq.mbx.val ≠ m →
    (leaf = 127 ∨ leaf < 64 ∧ (s.block.part leaf).present = true ∧ (s.block.part leaf).leaf = true ∧ s.block.resetting leaf = false) →
    Does (.mbxAssign rq m leaf) s (fun b' => Replied s.block b' rq 0x34 0 [0] ∧
      b'.mbx m = { Mailbox.none with leaf := if leaf = 127 then none else some leaf } ∧
      (∀ off, off < 0x1000 → b'.reg (mbxRegion m) off = 0) ∧ PagesKeptBut s.block b' [mbxRegion m, mbxPage m] ∧
      MemoryKept s.block b' ∧ UnitsKept s.block b'))

/-- R166, R168, R170, R507: a doorbell within 64 of the read pointer publishes up to its value, one beyond halts the channel; ENABLE starts the
channel empty and RUNNING, its clearing stops dispatch; RESUME and DROP_PKT act
only on a HALTED channel and else change nothing, DROP_PKT taking the carriage at the read pointer and leaving the channel HALTED, FLUSH
drops every carriage between the pointers and leaves a DISABLED channel so; a host's write into a slot that is
not published stores its bytes. DOORBELL, RING_SLOT_WRITE, CHAN_ENABLE, CHAN_DISABLE, RESUME, DROP_PKT, FLUSH. -/
def Obligations.ChannelsPublishAndStop : Prop :=
  (∀ (s : State) (who : Agent) (n c : Nat) (v : Word), s.block.chanOf who n = some c → s.block.chanState c ≠ 0 →
    s.block.accepting = true →
    Does (.doorbell who n v) s (fun b' =>
      (if 64 < (v.toNat % 128 + 128 - s.block.rdPtr c) % 128 then b'.chanState c = 3 ∧ b'.fld (chanPage c) 0x014 1 1 = 1 ∧
          b'.wrPtr c = s.block.wrPtr c
        else b'.wrPtr c = v.toNat % 128 ∧ RegsKeptBut s.block b' [(chanPage c, 0x04C)]) ∧
      b'.rdPtr c = s.block.rdPtr c ∧ b'.rings = s.block.rings ∧ MemoryKept s.block b' ∧ UnitsKept s.block b')) ∧
  (∀ (s : State) (who : Agent) (n c slot off : Nat) (bytes : List Byte), s.block.chanOf who n = some c → slot < 64 →
    off + bytes.length ≤ 128 → (s.block.chanState c = 0 ∨ s.block.published c slot = false) →
    Does (.ringSlotWrite who n slot off bytes) s (fun b' =>
      (∀ i, 8192 * c + 128 * slot + off ≤ i →
        storeGet memDefault b'.rings i = (bytes[i - (8192 * c + 128 * slot + off)]?).getD (storeGet memDefault s.block.rings i)) ∧
      (∀ i, i < 8192 * c + 128 * slot + off → storeGet memDefault b'.rings i = storeGet memDefault s.block.rings i) ∧
      b'.regs = s.block.regs ∧ MemoryKept s.block b' ∧ UnitsKept s.block b')) ∧
  (∀ (s : State) (c : Fin 256),
    Does (.chanEnable c) s (fun b' => b'.fld (chanPage c) 0x040 0 1 = 1 ∧ b'.rdPtr c = 0 ∧ b'.wrPtr c = 0 ∧ b'.chanState c = 1 ∧
      (b'.chan c).closing = false ∧ (b'.chan c).owner = (s.block.chan c).owner ∧
      RegsKeptBut s.block b' [(chanPage c, 0x040), (chanPage c, 0x048), (chanPage c, 0x04C), (chanPage c, 0x050), (chanPage c, 0x054)] ∧ MemoryKept s.block b') ∧
    Does (.chanDisable c) s (fun b' => b'.fld (chanPage c) 0x040 0 1 = 0 ∧ b'.chanState c = 0 ∧ b'.atHead c = none ∧
      b'.flights = s.block.flights ∧ RegsKeptBut s.block b' [(chanPage c, 0x040), (chanPage c, 0x048)] ∧ MemoryKept s.block b')) ∧
  (∀ (s : State) (who : Agent) (n c : Nat), s.block.chanPageOf who n = some c → s.block.mayWrite who .chan c 0x044 = true →
    (s.block.chanState c = 3 →
      Does (.resume who n) s (fun b' => b'.chanState c = 1 ∧ b'.rdPtr c = s.block.rdPtr c ∧
        RegsKeptBut s.block b' [(chanPage c, 0x048)] ∧ MemoryKept s.block b') ∧
      (s.block.rdPtr c ≠ s.block.wrPtr c →
        Does (.dropPkt who n) s (fun b' => b'.chanState c = 3 ∧ b'.rdPtr c = (s.block.rdPtr c + 1) % 128 ∧
          b'.reg64 (chanPage c) 0x060 = (s.block.reg64 (chanPage c) 0x060 + 1) % 2 ^ 64 ∧
          RegsKeptBut s.block b' [(chanPage c, 0x050), (chanPage c, 0x060), (chanPage c, 0x064)] ∧ MemoryKept s.block b')) ∧
      (s.block.rdPtr c = s.block.wrPtr c → exec (.dropPkt who n) s = .next s)) ∧
    (s.block.chanState c ≠ 3 → exec (.dropPkt who n) s = .next s ∧ exec (.resume who n) s = .next s) ∧
    Does (.flush who n) s (fun b' => b'.chanState c = (if s.block.chanState c = 0 then 0 else 1) ∧
        b'.rdPtr c = (s.block.rdPtr c + (s.block.wrPtr c + 128 - s.block.rdPtr c) % 128) % 128 ∧ b'.wrPtr c = s.block.wrPtr c ∧
        b'.reg64 (chanPage c) 0x060 = (s.block.reg64 (chanPage c) 0x060 + (s.block.wrPtr c + 128 - s.block.rdPtr c) % 128) % 2 ^ 64 ∧
        PagesKeptBut s.block b' [chanPage c] ∧ MemoryKept s.block b'))

/-- R162, R163: a carriage at the read pointer that breaks no rule passes its first check, and waits or runs as it is held; one that breaks a rule
halts the channel with the code of the first rule broken and its TAG on the page and raises REFUSED, the read pointer staying. CARRIAGE_HEAD. -/
def Obligations.FirstCheckPassesOrRefuses : Prop :=
  ∀ (s : State) (c : Fin 256) (p : Nat) (w : Carriage), s.block.atHead c = some (p, w) → (s.block.chan c).headOk = false →
    Does (.carriageHead c) s (fun b' =>
      (match s.block.refusal p c w with
        | none => (b'.chan c).headOk = true ∧ b'.chanState c = (if s.block.held c p w = true then 2 else 1) ∧
            RegsKeptBut s.block b' [(chanPage c, 0x048)]
        | some code => b'.chanState c = 3 ∧ b'.fld (chanPage c) 0x048 8 8 = code ∧ b'.fld (chanPage c) 0x048 16 16 = cTag w ∧
            b'.fld (chanPage c) 0x014 0 1 = 1) ∧
      b'.rdPtr c = s.block.rdPtr c ∧ b'.flights = s.block.flights ∧ MemoryKept s.block b' ∧ b'.sems = s.block.sems ∧
      b'.drafts = s.block.drafts ∧ b'.arrays = s.block.arrays ∧ b'.vecs = s.block.vecs)

/-- R163, R167, R169, R172: a carriage that may be dispatched leaves its channel for its engine; an IDLE passes without count; a completed
carriage leaves with its post-signal. CARRIAGE_DISPATCH, IDLE, CARRIAGE_COMPLETE. -/
def Obligations.CarriagesDispatchAndComplete : Prop :=
  (∀ (s : State) (c : Fin 256) (p : Nat) (w : Carriage) (t : Nat), Dispatches s.block c p w t → 1 ≤ t → t ≤ 6 →
    Does (.carriageDispatch c) s (fun b' => Passed s.block b' c p w (s.block.engineOf p c w) false ∧ MemoryKept s.block b' ∧
      b'.sems = s.block.sems ∧ b'.drafts = s.block.drafts ∧ b'.arrays = s.block.arrays ∧ b'.vecs = s.block.vecs)) ∧
  (∀ (s : State) (c : Fin 256) (p : Nat) (w : Carriage), Dispatches s.block c p w 0 →
    Does (.idleCarriage c) s (fun b' => Passed s.block b' c p w engDispatch true ∧ MemoryKept s.block b' ∧
      b'.sems = s.block.sems ∧ b'.drafts = s.block.drafts ∧ b'.arrays = s.block.arrays ∧ b'.vecs = s.block.vecs)) ∧
  (∀ (s : State) (c : Fin 256) (f : Flight) (rest : List Flight), s.block.flights = f :: rest → f.chan = c.val → f.done = true →
    Does (.carriageComplete c) s (fun b' => b'.flights = rest ∧ MemoryKept s.block b' ∧
      (if cPostEn f.word = true then
        b'.sem (s.block.semIndex f.part (cPostSem f.word)) =
            s.block.sem (s.block.semIndex f.part (cPostSem f.word)) + BitVec.ofNat 32 (cPostAdd f.word) ∧
          ∀ i, i ≠ s.block.semIndex f.part (cPostSem f.word) → b'.sem i = s.block.sem i
      else b'.sems = s.block.sems) ∧
      b'.chans = s.block.chans ∧ b'.drafts = s.block.drafts ∧ b'.arrays = s.block.arrays ∧ b'.vecs = s.block.vecs))

/-- R171, R174, R177 to R179: a SIGNAL whose scope's wait is over adds its value to its semaphore and to no other; a WAIT whose semaphore has not
reached its threshold (as a signed difference of 32 bits) makes the channel wait and passes once it has; a FENCE makes its channel wait until
every earlier carriage of the channel is complete and its effects acknowledged. SIGNAL, WAIT, FENCE, FENCE_COMPLETE. -/
def Obligations.SemaphoresAndFencesOrder : Prop :=
  (∀ (s : State) (c : Fin 256) (p : Nat) (w : Carriage) (acked : Bool), Dispatches s.block c p w 8 →
    s.block.fenceWaits c (cf w 0x10 0 3) acked = false →
    Does (.signal c acked) s (fun b' => Passed s.block b' c p w engDispatch true ∧ MemoryKept s.block b' ∧
      b'.sem (s.block.semIndex p (cf w 0x14 0 14)) =
        s.block.sem (s.block.semIndex p (cf w 0x14 0 14)) + BitVec.ofNat 32 (cf w 0x18 0 32) ∧
      (∀ i, i ≠ s.block.semIndex p (cf w 0x14 0 14) → b'.sem i = s.block.sem i) ∧
      b'.drafts = s.block.drafts ∧ b'.arrays = s.block.arrays ∧ b'.vecs = s.block.vecs)) ∧
  (∀ (s : State) (c : Fin 256) (p : Nat) (w : Carriage), Dispatches s.block c p w 9 →
    Does (.wait c) s (fun b' =>
      (if 0 ≤ (s.block.sem (s.block.semIndex p (cf w 0x10 0 14)) - BitVec.ofNat 32 (cf w 0x14 0 32)).toInt then
        Passed s.block b' c p w engDispatch true
      else b'.chanState c = 2 ∧ b'.rdPtr c = s.block.rdPtr c ∧ b'.flights = s.block.flights) ∧
      b'.sems = s.block.sems ∧ MemoryKept s.block b' ∧ b'.drafts = s.block.drafts ∧ b'.arrays = s.block.arrays ∧ b'.vecs = s.block.vecs)) ∧
  (∀ (s : State) (c : Fin 256) (p : Nat) (w : Carriage), s.block.atHead c = some (p, w) → (s.block.chan c).headOk = true → cType w = 7 →
    Does (.fence c) s (fun b' => b'.chanState c = 2 ∧ b'.rdPtr c = s.block.rdPtr c ∧ RegsKeptBut s.block b' [(chanPage c, 0x048)] ∧
      MemoryKept s.block b' ∧ UnitsKept s.block b')) ∧
  (∀ (s : State) (c : Fin 256) (p : Nat) (w : Carriage) (acked : Bool), Dispatches s.block c p w 7 →
    Does (.fenceComplete c acked) s (fun b' =>
      (if s.block.chanBusy c = false ∧ acked = true ∧ (cf w 0x10 0 3 = 4 → s.block.snoopWaits = false) then
        Passed s.block b' c p w engDispatch true
      else b'.chanState c = 2 ∧ b'.rdPtr c = s.block.rdPtr c ∧ b'.flights = s.block.flights) ∧
      b'.sems = s.block.sems ∧ MemoryKept s.block b' ∧ b'.drafts = s.block.drafts ∧ b'.arrays = s.block.arrays ∧ b'.vecs = s.block.vecs))

/-- R182, R190 to R196: DRAFT_BEGIN opens a draft with its limit of pages and the values of its semaphores; COMMIT and DISCARD close it to further
carriages; the decision of a draft with nothing in flight turns a SPOILED one and a DISCARD to discarding and a COMMIT without a predicate to
committing, its commit word 1 at both places; the remap's end leaves the draft FREE with the commit word 0, and the end of a discard leaves it FREE with the
semaphores at the values they had. DRAFT_BEGIN, COMMIT, DISCARD, DRAFT_DECISION, DRAFT_REMAP_DONE, DRAFT_PAGES_DROPPED. -/
def Obligations.DraftsOpenCloseAndEnd : Prop :=
  (∀ (s : State) (c : Fin 256) (p : Nat) (w : Carriage), Dispatches s.block c p w 0x0A →
    Does (.draftBegin c) s (fun b' => Passed s.block b' c p w engDispatch true ∧ (b'.draft p (cDraftId w)).state = .open_ ∧
      (b'.draft p (cDraftId w)).pageLimit = cf w 0x10 0 19 ∧ (b'.draft p (cDraftId w)).pages = [] ∧
      (∀ i, i < cf w 0x14 16 7 → (b'.draft p (cDraftId w)).semValues[i]? = some (s.block.sem (s.block.semIndex p (cf w 0x14 0 14 + i)))) ∧
      MemoryKept s.block b' ∧ b'.sems = s.block.sems ∧ b'.arrays = s.block.arrays ∧ b'.vecs = s.block.vecs)) ∧
  (∀ (s : State) (c : Fin 256) (p : Nat) (w : Carriage), Dispatches s.block c p w 0x0B →
    Does (.commit c) s (fun b' => Passed s.block b' c p w engDispatch false ∧
      b'.draft p (cDraftId w) = { s.block.draft p (cDraftId w) with closing := some w, closeChan := c.val } ∧ MemoryKept s.block b' ∧
      b'.sems = s.block.sems ∧ b'.arrays = s.block.arrays ∧ b'.vecs = s.block.vecs)) ∧
  (∀ (s : State) (c : Fin 256) (p : Nat) (w : Carriage), Dispatches s.block c p w 0x0C →
    Does (.discard c) s (fun b' => Passed s.block b' c p w engDispatch false ∧
      b'.draft p (cDraftId w) = { s.block.draft p (cDraftId w) with closing := some w, closeChan := c.val } ∧ MemoryKept s.block b' ∧
      b'.sems = s.block.sems ∧ b'.arrays = s.block.arrays ∧ b'.vecs = s.block.vecs)) ∧
  (∀ (s : State) (p : Fin 64) (d : Fin 16) (w : Carriage), (s.block.draft p d).closing = some w →
    (s.block.flights.any fun f => f.part == p && cDraftOf f.word == some d.val) = false →
    ((s.block.draft p d).state = .spoiled → Does (.draftDecision p d) s (fun b' =>
      b'.draft p d = { s.block.draft p d with state := .discarding } ∧ MemoryKept s.block b' ∧ b'.sems = s.block.sems)) ∧
    ((s.block.draft p d).state = .open_ → cType w = 0x0C → Does (.draftDecision p d) s (fun b' =>
      b'.draft p d = { s.block.draft p d with state := .discarding, reason := .requested } ∧ MemoryKept s.block b' ∧ b'.sems = s.block.sems)) ∧
    ((s.block.draft p d).state = .open_ → cType w = 0x0B → cb w 0x10 0 = false → Does (.draftDecision p d) s (fun b' =>
      let one := (s.block.grant p).commitWord.getD d 0
      let two := (s.block.grant p).commitWord.getD (16 + d) 0
      b'.draft p d = { s.block.draft p d with state := .committing } ∧ b'.num two 8 = 1 ∧
      (one + 8 ≤ two ∨ two + 8 ≤ one → b'.num one 8 = 1) ∧ b'.sems = s.block.sems))) ∧
  (∀ (s : State) (p : Fin 64) (d : Fin 16) (w : Carriage), (s.block.draft p d).closing = some w → (s.block.draft p d).state = .committing →
    Does (.draftRemapDone p d) s (fun b' => (b'.draft p d).state = .free ∧ (b'.draft p d).closing = none ∧
      b'.num ((s.block.grant p).commitWord.getD d 0) 8 = 0 ∧ b'.num ((s.block.grant p).commitWord.getD (16 + d) 0) 8 = 0)) ∧
  (∀ (s : State) (p : Fin 64) (d : Fin 16) (w : Carriage), (s.block.draft p d).closing = some w → (s.block.draft p d).state = .discarding →
    cb w 0x20 30 = false →
    Does (.draftPagesDropped p d) s (fun b' => (b'.draft p d).state = .free ∧ (b'.draft p d).closing = none ∧
      ∀ i v, (s.block.draft p d).semValues[i]? = some v → b'.sem (s.block.semIndex p ((s.block.draft p d).semBase + i)) = v))

/-- R80 to R93, R99, R234: the last row of a STREAM without rings and outputs leaves in its entry of every column the row's sums, alone in mode 1 and
added to what stood there in modes 2 and 3, and counts the row; a poisoned row ends the carriage with a fault status and leaves the
entries; in general a STREAM whose rows are all broadcast and whose skid buffer is empty ends, its transposed block written. STREAM. -/
def Obligations.StreamRowsAccumulate : Prop :=
  (∀ (s : State) (a : Fin 128) (n i : Nat) (f : Flight) (t : Tile) (b1 b2 : Block) (row sc : List (Byte × Bool)),
    let c := streamOf f.word
    let f' := { f with started := true }
    0 < n → s.block.flights.findIdx? (fun f => streamSel a f && decide ((streamOf f.word).rows ≤ f.row)) = none →
    Runs s.block (fun f => streamSel a f && decide (f.row < (streamOf f.word).rows)) i f → s.block.arrayRuns a = true →
    s.block.slotPending a i c.slot = false → s.block.rowsWait a i c = false → s.block.tile a c.slot = some t →
    widthClass t.fmt = widthClass c.aFmt → c.aRing = 0 → c.writesRows = false → c.writesTrans = false → f.skid = [] →
    s.block.skidOthers a i < 16 → f.row + 1 = c.rows → c.entry + c.rows ≤ 256 → f.faulted = false →
    (s.block.servedFor f).streamInput f' a c f.row = (b1, .ok row) → b1.streamScales f' a c f.row = (b2, .ok sc) →
    (anyMark row = false → anyMark sc = false → s.block.skidFirst a i = true → Does (.stream ⟨a, n⟩) s (fun b' => Ended b' i false ∧
      (b'.arr a).entryRow (c.entry + f.row) =
        (if c.mode = 0 then (s.block.arr a).entryRow (c.entry + f.row)
         else intoEntries (c.mode == 2 || c.mode == 3)
          (if c.mode = 2 ∨ c.mode = 3 then (s.block.arr a).entryRow (c.entry + f.row) else List.replicate 128 0)
          (rowSums t c.aFmt (raw row) ((raw sc).map (·.toNat)))) ∧
      b'.reg64 (arrayPage a) 0x060 = (s.block.reg64 (arrayPage a) 0x060 + 1) % 2 ^ 64 ∧ MemoryKept s.block b' ∧ b'.sems = s.block.sems ∧
      (∀ a', a' ≠ a.val → b'.arr a' = s.block.arr a') ∧ b'.vecs = s.block.vecs)) ∧
    (anyMark row = true → Does (.stream ⟨a, n⟩) s (fun b' => Ended b' i true ∧ (b'.arr a).entries = (s.block.arr a).entries ∧
      MemoryKept s.block b' ∧ b'.sems = s.block.sems))) ∧
  (∀ (s : State) (a : Fin 128) (n i : Nat) (f f' : Flight) (t : Tile) (b1 : Block),
    let c := streamOf f.word
    s.block.flights.findIdx? (fun f => streamSel a f && decide ((streamOf f.word).rows ≤ f.row)) = none →
    Runs s.block (fun f => streamSel a f && decide (f.row < (streamOf f.word).rows)) i f → s.block.arrayRuns a = true →
    s.block.slotPending a i c.slot = false → s.block.rowsWait a i c = false → s.block.tile a c.slot = some t →
    widthClass t.fmt = widthClass c.aFmt → c.writesTrans = false → f.faulted = false → s.block.skidFirst a i = true →
    (s.block.servedFor f).ringsStart i { f with started := true } (streamRings a c) = some f' → c.rows ≤ f'.row + n →
    (s.block.servedFor f).streamRows f' a c t (16 - s.block.skidOthers a i) true (c.rows - f'.row) ⟨f'.row, f'.skid, .done⟩ =
      (b1, ⟨c.rows, [], .done⟩) → b1.skidFirst a i = true → i < b1.flights.length →
    Does (.stream ⟨a, n⟩) s (fun b' => Ended b' i false ∧ b'.mem = b1.mem ∧ b'.arrays = b1.arrays)) ∧
  (∀ (s : State) (a : Fin 128) (n i : Nat) (f : Flight) (b1 : Block),
    let c := streamOf f.word
    Runs s.block (fun f => streamSel a f && decide ((streamOf f.word).rows ≤ f.row)) i f →
    s.block.flights.findIdx? (fun f => streamSel a f && decide (f.row < (streamOf f.word).rows)) = none → s.block.arrayRuns a = true →
    f.skid = [] → f.faulted = false → c.writesTrans = true →
    (s.block.servedFor f).transRows { f with started := true } a c (128 - f.plane) f.plane = (b1, 128, .done) → i < b1.flights.length →
    b1.flights.findIdx? (fun f => streamSel a f && decide (f.row < (streamOf f.word).rows)) = none →
    Does (.stream ⟨a, n⟩) s (fun b' => Ended b' i false ∧ b'.mem = b1.mem ∧ b'.arrays = b1.arrays))

/-- R94 to R98, R234: a load from a tile in the bay, in Privet form or in the inbox leaves the idle slot valid with the tile built from what it read
and its scale bytes, and its format; poison ends the carriage with a fault status and leaves the slot empty. SLOT_LOAD_DONE. -/
def Obligations.SlotLoadsFillTheIdleSlot : Prop :=
  ∀ (s : State) (a : Fin 128) (i : Nat) (f : Flight) (b1 b2 : Block) (src : Nat → Nat → Nat) (marked : Bool) (sc : List (Byte × Bool)),
    let c := streamOf f.word
    let f' := { f with started := true }
    let cols := (tileShape c.lFmt c.lTrans).2
    let slot := 1 - c.slot
    let z := s.block.servedFor f
    Runs s.block (fun f => f.engine == a.val && cType f.word == 0x01 && !f.loads) i f → s.block.arrayRuns a = true →
    s.block.slotBusy a i slot = false → f.faulted = false → c.slot < 2 →
    ((∃ rows, c.lSrc = 0 ∧ z.rawTile f' c = (b1, .inl rows) ∧ src = (fun r k => elemAt c.lFmt (raw (rows.getD r [])) k) ∧
        marked = rows.any anyMark) ∨
     (∃ bs, c.lSrc = 1 ∧ z.privetTile f' a c = (b1, .inl bs) ∧ src = (fun r k => slotElemAt c.lFmt (raw bs) (r * cols + k)) ∧
        marked = anyMark bs) ∨
     (c.lSrc = 2 ∧ f.buf.length ≤ 16384 ∧ 16384 ≤ f.buf.length + (s.block.arr a).inbox.length / 64 * 64 ∧ b1 = z.inboxPump a ∧
        src = (fun r k => slotElemAt c.lFmt (raw (f.buf ++ (s.block.arr a).inbox.take (16384 - f.buf.length))) (r * cols + k)) ∧
        marked = anyMark (f.buf ++ (s.block.arr a).inbox.take (16384 - f.buf.length)) ∧
        (b1.arr a).inbox = (s.block.arr a).inbox.drop (16384 - f.buf.length))) →
    b1.tileScales f' c = (b2, .ok sc) →
    Does (.slotLoadDone a) s (fun b' =>
      if marked = true ∨ anyMark sc = true then b'.fld (arrayPage a) 0x044 (4 + slot) 1 = 0 ∧ Ended b' i true
      else b'.fld (arrayPage a) 0x044 (4 + slot) 1 = 1 ∧ b'.fld (arrayPage a) 0x044 (8 + 4 * slot) 4 = c.lFmt % 16 ∧
        b'.fld (arrayPage a) 0x044 (6 + slot) 1 = b2n c.lTrans ∧
        (if slot = 0 then (b'.arr a).slot0 else (b'.arr a).slot1) = buildSlot c.lFmt c.lBaxis c.lTrans src (raw sc) ∧
        ∃ g, b'.flights[i]? = some g ∧ g.loads = true ∧ g.faulted = false)

/-- R103, R106, R107: a sequencer without a FOLD takes the oldest of its own; a FOLD whose arrays are all idle holds them, runs its tiles, and stands
where it has come to; when it has run them all, or one of them failed, it lets its arrays go and ends, with a fault status where it failed. FOLD,
FOLD_START. -/
def Obligations.FoldsTakeArraysAndEnd : Prop :=
  (∀ (s : State) (q : Fin 8) (f : Flight), s.block.fold q = none →
    s.block.flights.find? (fun f => f.engine == engFold q && !f.done) = some f →
    Does (.fold q) s (fun b' => b'.fold q = some ⟨f.word, false, 0, 0, 0, []⟩ ∧ b'.flights = s.block.flights ∧ b'.regs = s.block.regs ∧
      MemoryKept s.block b' ∧ UnitsKept s.block b')) ∧
  (∀ (s : State) (q : Fin 8) (x : FoldRun) (i : Nat) (f : Flight) (units : List Nat),
    s.block.fold q = some x → x.begun = false → Runs s.block (fun f => f.engine == engFold q && f.word == x.word && !f.done) i f →
    units = s.block.foldUnits f.part (foldOf f.word) → units ≠ [] → (∀ a ∈ units, a < 128) → units.all s.block.arrayIdle = true →
    x.group < ceilDiv (foldOf f.word).rows 256 →
    Does (.foldStart ⟨q, 0⟩) s (fun b' => b'.fold q = some { x with begun := true, turn := units.map fun _ => 0 } ∧
      (∀ a ∈ units, b'.foldHeld a = true ∧ b'.arrayRuns a = false) ∧ b'.flights = s.block.flights ∧ MemoryKept s.block b' ∧
      UnitsKept s.block b')) ∧
  (∀ (s : State) (q : Fin 8) (x x' : FoldRun) (n i : Nat) (f : Flight) (b1 : Block) (ok : Bool),
    s.block.fold q = some x → x.begun = true → Runs s.block (fun f => f.engine == engFold q && f.word == x.word && !f.done) i f →
    f.faulted = false → (s.block.foldUnits f.part (foldOf f.word)).all s.block.foldReady = true →
    (s.block.servedFor f).foldTiles (s.block.foldJob f) n x = (b1, x', ok) → i < b1.flights.length →
    Does (.foldStart ⟨q, n⟩) s (fun b' => b'.mem = b1.mem ∧ b'.arrays = b1.arrays ∧
      if ok = true ∧ x'.group < ceilDiv (foldOf f.word).rows 256 then b'.fold q = some x' ∧ b'.flights = b1.flights
      else b'.fold q = none ∧ Ended b' i (!ok)))

/-- R127 to R130, R139, R143, R144, R157: a VCHAIN ends when its last row has; a beat without outputs leaves the registers that its chain of stages
computes from the beat's lanes, and the carriage at the next beat, pass or row. VCHAIN. -/
def Obligations.ChainRowsRunTheirStages : Prop :=
  (∀ (s : State) (e : Fin 128) (n i : Nat) (f f' g : Flight) (b1 : Block),
    let c := chainOf f.word
    Runs s.block (fun f => f.engine == engVec e && cType f.word == 0x03 && !f.done) i f → s.block.arrayRuns e = true → f.faulted = false →
    (s.block.servedFor f).ringsStart i { f with started := true } (chainRings e c) = some f' →
    (s.block.servedFor f).chainBeats e c n f' = (b1, g, .done) → c.rows ≤ g.row → i < b1.flights.length →
    Does (.vchain ⟨e, n⟩) s (fun b' => (∃ g, b'.flights[i]? = some g ∧ g.done = true ∧ g.faulted = f'.faulted) ∧ b'.mem = b1.mem ∧
      b'.vecs = b1.vecs)) ∧
  (∀ (s : State) (e : Fin 128) (i : Nat) (f f' : Flight) (b1 : Block) (av sc bv mv : List Byte),
    let c := chainOf f.word
    let v := f'.inRow.getD (VecRow.start c)
    let at_ := c.first v.beat
    let cnt := c.count v.beat
    let read (x : ChainSide) (fmt : Nat) (b : Block) : Block × Got :=
      b.chainRead f' c.engine e x f'.row (elemBytes fmt at_) (elemBytes fmt cnt)
    Runs s.block (fun f => f.engine == engVec e && cType f.word == 0x03 && !f.done) i f → s.block.arrayRuns e = true → f.faulted = false →
    (s.block.servedFor f).ringsStart i { f with started := true } (chainRings e c) = some f' → f'.row < c.rows →
    (chainUsed c).all (fun x => x.v.ring == 0) = true →
    (v.pass + 1 = c.passes → c.dEn = false ∧ c.rowEn = false) →
    gather (s.block.servedFor f) [read (chainA c) c.aFmt, fun b => b.chainScales f' e c f'.row at_ cnt,
      fun b => if c.bEn then read (chainB c) c.bFmt b else (b, .ok []),
      fun b => if c.maskEn then b.chainRead f' c.engine e (chainMask c) f'.row (32 * v.beat) 32 else (b, .ok [])] =
        (b1, some [av, sc, bv, mv]) →
    Does (.vchain ⟨e, 1⟩) s (fun b' =>
      let x := runBeat c ⟨sourceLanes c c.aFmt cnt av (sc.map (·.toNat)), if c.bEn then sourceLanes c c.bFmt cnt bv [] else [],
         mv.flatMap fun v => (List.range 8).map fun i => v.getLsbD i⟩ f'.row ⟨(s.block.vec e).file, v⟩
      (b'.vec e).regs = fileRegs (if v.beat + 1 = c.nb then endPass c x else x).regs ∧
      (∃ g, b'.flights[i]? = some g ∧
        (if v.beat + 1 ≠ c.nb then g.row = f'.row ∧ g.inRow = some { x.row with beat := v.beat + 1 }
         else if v.pass + 1 ≠ c.passes then g.row = f'.row ∧
           g.inRow = some { VecRow.start c with pass := v.pass + 1, stat := (endPass c x).row.stat }
         else g.row = f'.row + 1 ∧ g.inRow = none)) ∧
      MemoryKept s.block b' ∧ b'.arrays = s.block.arrays))

/-- R111 to R117, R121, R234: a save keeps the pair's context in an image and leaves the pair in CONTEXT with RESULT 2; the save of an array that a FOLD
holds saves every array the FOLD holds and lets them go; a restore gives the pair what the image
holds; ZERO leaves entries, slots, inbox, registers and draw counts empty; CTX_DONE returns the pair with RESULT 1 and CTX_DONE raised; a parity
error ends a save or a restore with RESULT 3 and CTX_FAIL, and poison in an image its restore; COMPAT is taken while the array is IDLE. CTX_SAVE,
CTX_RESTORE, CTX_ZERO, CTX_DONE, COMPAT_APPLY. -/
def Obligations.ContextsSaveRestoreAndZero : Prop :=
  (∀ (s : State) (a : Fin 128), s.block.ctxFree a = true →
    (s.block.foldHeld a = false → s.block.foldOn a = none →
    Does (.ctxSave a false) s (fun b' => b'.regN (arrayPage a) 0x05C = 2 ∧ b'.arrayState a = 2 ∧
      b'.image (s.block.ctxAddr a / 4096) = ⟨s.block.arr a, s.block.vec a, s.block.reg (arrayPage a) 0x044, none, true⟩ ∧
      b'.arr a = s.block.arr a ∧ b'.vecs = s.block.vecs ∧ b'.sems = s.block.sems ∧ b'.drafts = s.block.drafts)) ∧
    (∀ q i f, s.block.foldHeld a = true → s.block.foldOn a = some q → s.block.foldFlight q = some (i, f) →
      (∀ a' ∈ s.block.foldUnits f.part (foldOf f.word), a' < 128) →
      Does (.ctxSave a false) s (fun b' => b'.arrays = s.block.arrays ∧ b'.vecs = s.block.vecs ∧
        ∀ a' ∈ s.block.foldUnits f.part (foldOf f.word), s.block.foldHeld a' = true →
          b'.regN (arrayPage a') 0x05C = 2 ∧ b'.arrayState a' = 2 ∧ b'.foldHeld a' = false)) ∧
    Does (.ctxSave a true) s (fun b' => b'.regN (arrayPage a) 0x05C = 3 ∧ b'.fld (arrayPage a) 0x014 2 1 = 1 ∧ (b'.arr a).stopped = true ∧
      b'.images = s.block.images ∧ MemoryKept s.block b' ∧ b'.vecs = s.block.vecs) ∧
    (s.block.imageMarked (s.block.ctxAddr a) = false →
      Does (.ctxRestore a false) s (fun b' => b'.regN (arrayPage a) 0x05C = 2 ∧ b'.arrayState a = 2 ∧
      (let m := s.block.getImage (s.block.ctxAddr a) (s.block.ctxAddr a / 4096)
       (b'.arr a).entries = m.array.entries ∧ (b'.arr a).slot0 = m.array.slot0 ∧ (b'.arr a).slot1 = m.array.slot1 ∧
       (b'.arr a).inbox = m.array.inbox ∧ (b'.arr a).draws = m.array.draws ∧ b'.vec a = m.vec) ∧ MemoryKept s.block b' ∧
      b'.sems = s.block.sems)) ∧
    (∀ parity, (parity = true ∨ s.block.imageMarked (s.block.ctxAddr a) = true) →
      Does (.ctxRestore a parity) s (fun b' => b'.regN (arrayPage a) 0x05C = 3 ∧ b'.fld (arrayPage a) 0x014 2 1 = 1 ∧
      (b'.arr a).entries = [] ∧ b'.vec a = VecUnit.none ∧ MemoryKept s.block b')) ∧
    Does (.ctxZero a) s (fun b' => b'.regN (arrayPage a) 0x05C = 2 ∧ b'.arrayState a = 2 ∧ (b'.arr a).entries = [] ∧
      (b'.arr a).slot0 = Slot.none ∧ (b'.arr a).slot1 = Slot.none ∧ (b'.arr a).inbox = [] ∧ (b'.arr a).draws = 0 ∧
      b'.fld (arrayPage a) 0x180 0 1 = 0 ∧ b'.vec a = VecUnit.none ∧ b'.sems = s.block.sems)) ∧
  (∀ (s : State) (a : Fin 128), s.block.arrayState a = 2 → s.block.regN (arrayPage a) 0x05C = 2 →
    Does (.ctxDone a) s (fun b' => b'.regN (arrayPage a) 0x05C = 1 ∧ b'.fld (arrayPage a) 0x014 1 1 = 1 ∧
      b'.arrayState a = b2n (s.block.foldHeld a || s.block.flights.any fun f => f.engine == a.val && !f.done) ∧ MemoryKept s.block b' ∧
      UnitsKept s.block b')) ∧
  (∀ (s : State) (a : Fin 128), s.block.arrayState a = 0 →
    Does (.compatApply a) s (fun b' => (b'.arr a).compat = (s.block.fld (arrayPage a) 0x040 0 1 == 1) ∧ b'.regs = s.block.regs ∧
      MemoryKept s.block b' ∧ ∀ a', a' ≠ a.val → b'.arr a' = s.block.arr a'))

/-- R118 to R120, R156, R449, R612: PARITY of an array or its vector engine starts the pair's self-test and is recorded with its time; SELFTEST starts
one on an idle or retired pair; a self-test that fails, or passes after a second PARITY within the hour, retires the pair for good: its state, the page of
DEV and the non-volatile record say so; one that passes gives the pair back. ARRAY_PARITY, VEC_PARITY, SELFTEST, SELFTEST_DONE. -/
def Obligations.ParityTestsAndRetires : Prop :=
  (∀ (s : State) (a : Fin 128), s.block.arrayState a ≠ 3 →
    Does (.arrayParity a) s (fun b' => b'.fld (arrayPage a) 0x00C 0 1 = 1 ∧ b'.fld (arrayPage a) 0x014 0 1 = 1 ∧
      (b'.arr a).parityAt.head? = some s.block.now ∧ MemoryKept s.block b' ∧ b'.sems = s.block.sems ∧ b'.vecs = s.block.vecs) ∧
    Does (.vecParity a) s (fun b' => b'.fld (arrayPage a) 0x00C 0 1 = 1 ∧ b'.fld (vecPage a) 0x014 0 1 = 1 ∧
      (b'.arr a).parityAt.head? = some s.block.now ∧ MemoryKept s.block b' ∧ b'.sems = s.block.sems ∧ b'.vecs = s.block.vecs)) ∧
  (∀ (s : State) (a : Fin 128), (s.block.arrayState a = 0 ∨ s.block.arrayState a = 3) →
    Does (.selftest a) s (fun b' => b'.fld (arrayPage a) 0x00C 0 1 = 1 ∧ RegsKeptBut s.block b' [(arrayPage a, 0x00C)] ∧
      MemoryKept s.block b' ∧ UnitsKept s.block b')) ∧
  (∀ (s : State) (a : Fin 128) (pass : Bool), s.block.fld (arrayPage a) 0x00C 0 1 = 1 → s.block.arrayState a ≠ 3 →
    (pass = false ∨ 2 ≤ (s.block.arr a).parityAt.length) →
    Gives (.selftestDone a pass) s (fun t => t.block.fld (arrayPage a) 0x00C 0 1 = 0 ∧ t.block.arrayState a = 3 ∧
      t.block.fld (vecPage a) 0x040 0 2 = 3 ∧ t.block.fld (arrayPage a) 0x010 2 1 = b2n (!pass) ∧
      t.block.retired a = true ∧ t.nv.retired = s.nv.retired ||| BitVec.ofNat 128 (2 ^ a.val) ∧ t.nv.fuses = s.nv.fuses ∧
      t.nv.flash = s.nv.flash ∧ t.pending = s.pending ∧ MemoryKept s.block t.block)) ∧
  (∀ (s : State) (a : Fin 128), s.block.fld (arrayPage a) 0x00C 0 1 = 1 → (s.block.arr a).parityAt.length < 2 →
    (s.block.arr a).lentTo = none →
    Does (.selftestDone a true) s (fun b' => b'.fld (arrayPage a) 0x00C 0 1 = 0 ∧ (b'.arr a).stopped = false ∧
      b'.fld (arrayPage a) 0x010 2 1 = 0 ∧ b'.fld (vecPage a) 0x010 2 1 = 0 ∧
      RegsKeptBut s.block b' [(arrayPage a, 0x00C), (arrayPage a, 0x010), (vecPage a, 0x010)] ∧ MemoryKept s.block b'))

/-- R487 to R494, R498: a lend that meets every condition saves the lender's context, locks the pair's pages and counts at the lender; when it is done
the fill slot is bound; a reclaim unbinds the slot and counts; when it is done the lender has its array back, unlocked, and RECLAIM_MAX has followed the
time it took. LEND, LEND_DONE, RECLAIM, RECLAIM_DONE. -/
def Obligations.ArraysAreLentAndReclaimed : Prop :=
  (∀ (s : State) (lender fill : Fin 64) (a : Fin 128) (slot : Nat), s.block.mayLend lender fill a slot = true →
    Does (.lend lender fill a slot) s (fun b' => (b'.arr a).lentTo = some ⟨fill, lender, slot, none⟩ ∧ b'.arrayState a = 2 ∧
      (let m := b'.image (lenderKey a)
       m.array = s.block.arr a ∧ m.vec = s.block.vec a ∧ m.state = s.block.reg (arrayPage a) 0x044 ∧ m.valid = true) ∧ (b'.arr a).entries = [] ∧
      b'.fld (partPage lender) 0x0D0 0 8 = (s.block.fld (partPage lender) 0x0D0 0 8 + 1) % 2 ^ 8 ∧
      b'.fld (arrayPage a) 0x01C 0 1 = 1 ∧ b'.fld (vecPage a) 0x01C 0 1 = 1 ∧ b'.sems = s.block.sems ∧ b'.drafts = s.block.drafts)) ∧
  (∀ (s : State) (a : Fin 128) (l : Lent), (s.block.arr a).lentTo = some l → s.block.arrayState a = 2 → l.reclaimAt = none →
    (s.block.slot (slotKey l.fill (a / 32) l.slot)).bound = none →
    Does (.lendDone a) s (fun b' => (b'.slot (slotKey l.fill (a / 32) l.slot)).bound = some a.val ∧
      b'.fld (partPage l.fill) 0x0D0 8 8 = (s.block.fld (partPage l.fill) 0x0D0 8 8 + 1) % 2 ^ 8 ∧
      b'.fld (arrayPage a) 0x01C 0 1 = 0 ∧ b'.fld (vecPage a) 0x01C 0 1 = 0 ∧ MemoryKept s.block b' ∧ b'.sems = s.block.sems)) ∧
  (∀ (s : State) (a : Fin 128) (l : Lent) (saveOk : Bool), (s.block.arr a).lentTo = some l → l.reclaimAt = none →
    s.block.fld (arrayPage a) 0x00C 0 1 = 0 → (s.block.phase l.lender = 2 ∨ s.block.lenderWaits l.lender a = true) →
    Does (.reclaim a saveOk true) s (fun b' => (b'.arr a).lentTo = some { l with reclaimAt := some s.block.now } ∧ b'.arrayState a = 2 ∧
      (b'.slot (slotKey l.fill (a / 32) l.slot)).bound ≠ some a.val ∧
      b'.reg64 (partPage l.lender) 0x0E0 = (s.block.reg64 (partPage l.lender) 0x0E0 + 1) % 2 ^ 64 ∧
      b'.fld (arrayPage a) 0x01C 0 1 = 1 ∧ b'.sems = s.block.sems)) ∧
  (∀ (s : State) (a : Fin 128) (l : Lent) (t : Nat), (s.block.arr a).lentTo = some l → l.reclaimAt = some t → l.lender < 64 → l.fill < 64 →
    Does (.reclaimDone a) s (fun b' => (b'.arr a).lentTo = none ∧ b'.fld (arrayPage a) 0x01C 0 1 = 0 ∧ b'.fld (vecPage a) 0x01C 0 1 = 0 ∧
      b'.fld (partPage l.lender) 0x0E8 0 24 = max (s.block.fld (partPage l.lender) 0x0E8 0 24) (min (s.block.now - t) (2 ^ 24 - 1)) ∧
      MemoryKept s.block b' ∧ b'.sems = s.block.sems))

/-- R201, R203, R212, R220, R222, R227, R233, R234: a Steward's access that does not lie in one region of the map ends with a bus error; inside one, a
read that is admitted returns the bytes with their poison and a write changes those bytes and no others; a partition's access returns what its
translation names, and one without a translation raises XLATE_FAULT and changes no memory; an access that is not admitted waits at its issuer.
MEM_ACCESS. -/
def Obligations.MemoryAccessesReadAndWrite : Prop :=
  (∀ (s : State) (a : Nat) (op : MemOp) (e : MemErr), inRegion a (opLen op) = false → exec (.memAccess .steward a op e) s = .fault .busError) ∧
  (∀ (s : State) (a n : Nat), inRegion a n = true → regionOf a ≠ some .host → Admitted s.block .steward a (.read n) →
    Does (.memAccess .steward a (.read n) .none) s (fun b' => Sent b' (.memData (s.block.bytes a n) (anyMark (s.block.getM a n))) ∧
      MemoryKept s.block b' ∧ UnitsKept s.block b')) ∧
  (∀ (s : State) (a : Nat) (bs : List Byte) (m : Bool), inRegion a bs.length = true → regionOf a ≠ some .host →
    Admitted s.block .steward a (.write bs m) →
    Does (.memAccess .steward a (.write bs m) .none) s (fun b' =>
      (∀ x, b'.byte x = if h : a ≤ x ∧ x < a + bs.length then bs[x - a]'(by omega) else s.block.byte x) ∧
      (a % 64 = 0 → bs.length = 64 → b'.marked (a / 64) = m) ∧ b'.sems = s.block.sems ∧ b'.chans = s.block.chans ∧
      b'.arrays = s.block.arrays ∧ b'.vecs = s.block.vecs ∧ (regionOf a ≠ some .near → b'.drafts = s.block.drafts))) ∧
  (∀ (s : State) (a n : Nat), inRegion a n = true → regionOf a = some .host →
    Does (.memAccess .steward a (.read n) .none) s (fun b' =>
      Sent b' (.memData (storeGetList memDefault s.block.hostMem (a - regionBase .host) n)
        (anyMark (s.block.getHost (a - regionBase .host) n))) ∧ MemoryKept s.block b' ∧ UnitsKept s.block b')) ∧
  (∀ (s : State) (a : Nat) (bs : List Byte) (m : Bool), inRegion a bs.length = true → regionOf a = some .host →
    Does (.memAccess .steward a (.write bs m) .none) s (fun b' =>
      (∀ x, storeGet memDefault b'.hostMem x = if h : a - regionBase .host ≤ x ∧ x < a - regionBase .host + bs.length
        then bs[x - (a - regionBase .host)]'(by omega) else storeGet memDefault s.block.hostMem x) ∧
      MemoryKept s.block b' ∧ UnitsKept s.block b' ∧ b'.regs = s.block.regs)) ∧
  (∀ (s : State) (p : Fin 64) (d : Option (Fin 16)) (va n : Nat) (b1 : Block) (bs : List (Byte × Bool)),
    Admitted s.block (.part p d) va (.read n) →
    (∀ q ∈ s.block.accessPieces (.part p d) va (.read n), q.2.2 ≠ .bad ∧ q.2.2 ≠ .outside) →
    s.block.readV (accessCtx p d) va n = (b1, .ok bs) →
    Does (.memAccess (.part p d) va (.read n) .none) s (fun b' => Sent b' (.memData (raw bs) (anyMark bs)) ∧ MemoryKept s.block b' ∧
      b'.sems = s.block.sems ∧ b'.arrays = s.block.arrays)) ∧
  (∀ (s : State) (p : Fin 64) (d : Option (Fin 16)) (va : Nat) (op : MemOp) (e : MemErr), Admitted s.block (.part p d) va op → 0 < opLen op →
    (s.block.xl (accessCtx p d) va (opWrites op) = .bad ∨ s.block.xl (accessCtx p d) va (opWrites op) = .outside) →
    Does (.memAccess (.part p d) va op e) s (fun b' => b'.fld (pageOf .part p) 0x014 3 1 = 1 ∧ MemoryKept s.block b' ∧
      UnitsKept s.block b')) ∧
  (∀ (s : State) (p : Fin 64) (d : Option (Fin 16)) (va : Nat) (op : MemOp) (e : MemErr) (c : WaitCause),
    s.block.memQ.find? (fun r => r.who == .part p d) = none → s.block.accessWait (.part p d) va op none = some c →
    Does (.memAccess (.part p d) va op e) s (fun b' => b'.memQ = s.block.memQ ++ [⟨.part p d, va, op, e, s.block.now, c⟩] ∧
      MemoryKept s.block b' ∧ UnitsKept s.block b'))

/-- R206, R231, R233: a corrected error is counted in CE_COUNT with its address and changes no data; an uncorrectable one is counted in UE_COUNT,
raises UE, poisons its granule, and no byte outside the granule changes. MEM_ACCESS, SCRUB_PASS. -/
def Obligations.ErrorsAreCorrectedOrPoison : Prop :=
  (∀ (s : State) (t : Tier) (a n : Nat) (sym : Fin 68), tierOf a = some t → inRegion a n = true → Admitted s.block .steward a (.read n) →
    Does (.memAccess .steward a (.read n) (.corrected sym)) s (fun b' =>
      b'.reg64 (pageMc t (channelOf t a)) 0x060 = (s.block.reg64 (pageMc t (channelOf t a)) 0x060 + 1) % 2 ^ 64 ∧
      b'.reg64 (pageMc t (channelOf t a)) 0x070 = a / 64 * 64 ∧ MemoryKept s.block b' ∧ UnitsKept s.block b')) ∧
  (∀ (s : State) (t : Tier) (a n : Nat), tierOf a = some t → inRegion a n = true → 0 < n → Admitted s.block .steward a (.read n) →
    Does (.memAccess .steward a (.read n) .uncorrectable) s (fun b' =>
      b'.marked (a / 64) = true ∧ (∃ bs, Sent b' (.memData bs true)) ∧ b'.fld (pageMc t (channelOf t a)) 0x014 1 1 = 1 ∧
      b'.reg64 (pageMc t (channelOf t a)) 0x068 = (s.block.reg64 (pageMc t (channelOf t a)) 0x068 + 1) % 2 ^ 64 ∧
      MemoryKeptBut s.block b' (a / 64 * 64) (a / 64 * 64 + 64) ∧ UnitsKept s.block b')) ∧
  (∀ (s : State) (t : Tier) (k : Fin 32) (g : Nat), s.block.mcState t k = 2 → s.block.fld (pageMc t k) 0x044 3 1 = 1 →
    g < chanGranules t → tierOf (chanAddr t k (64 * g)) = some t →
    Does (.scrubPass t k [⟨g, .uncorrectable⟩]) s (fun b' => b'.marked (chanAddr t k (64 * g) / 64) = true ∧
      MemoryKeptBut s.block b' (chanAddr t k (64 * g) / 64 * 64) (chanAddr t k (64 * g) / 64 * 64 + 64) ∧ UnitsKept s.block b'))

/-- R230, R235, R236, R242, R617: SCRUB_NOW starts a pass of a serving controller from group 0, SCRUB_DONE ends it with SCRUB_PASS raised; training with both tiers'
domains ready brings every controller of the tier into service; the zeroing's end leaves both tiers zero and unmarked and the device READY.
SCRUB_NOW, SCRUB_DONE, TIER_TRAINING, TIER_ZEROING_DONE. -/
def Obligations.TiersTrainZeroAndScrub : Prop :=
  (∀ (s : State) (t : Tier) (k : Fin 32), s.block.mcState t k = 2 →
    Does (.scrubNow t k) s (fun b' => b'.fld (pageMc t k) 0x044 3 1 = 1 ∧ b'.reg64 (pageMc t k) 0x020 = 0 ∧
      b'.reg64 (pageMc t k) 0x028 = chanGroups t ∧ PagesKeptBut s.block b' [pageMc t k] ∧ MemoryKept s.block b' ∧ UnitsKept s.block b')) ∧
  (∀ (s : State) (t : Tier) (k : Fin 32), s.block.fld (pageMc t k) 0x044 3 1 = 1 →
    Does (.scrubDone t k) s (fun b' => b'.fld (pageMc t k) 0x044 3 1 = 0 ∧ b'.reg64 (pageMc t k) 0x020 = chanGroups t ∧ b'.regN (pageMc t k) 0x030 = 10000 ∧
      b'.fld (pageMc t k) 0x014 6 1 = 1 ∧ PagesKeptBut s.block b' [pageMc t k] ∧ MemoryKept s.block b' ∧ UnitsKept s.block b')) ∧
  (∀ (s : State) (t : Tier), s.block.domainReady 16 = true → s.block.domainReady 17 = true →
    (s.block.fld devPage 0x040 0 3 = 1 ∨ s.block.fld devPage 0x040 0 3 = 2) → s.block.mcState t 0 = 0 →
    Does (.tierTraining t []) s (fun b' => (∀ k, k < 32 → b'.mcState t k = 2) ∧
      (b'.fld devPage 0x040 0 3 = if ((List.range 32).all fun k => s.block.mcState (if t = .near then .deep else .near) k == 2) = true then 3 else 2) ∧
      MemoryKept s.block b' ∧ UnitsKept s.block b')) ∧
  (∀ (s : State), s.block.fld devPage 0x040 0 3 = 3 →
    Does .tierZeroingDone s (fun b' => b'.fld devPage 0x040 0 3 = 4 ∧ b'.fld devPage 0x014 0 1 = 1 ∧
      (∀ a t, tierOf a = some t → b'.byte a = 0 ∧ b'.marked (a / 64) = false) ∧
      (∀ a, tierOf a = none → b'.byte a = s.block.byte a) ∧ RegsKeptBut s.block b' [(devPage, 0x014), (devPage, 0x040)] ∧
      UnitsKept s.block b'))

/-- R211, R217 to R219, R223, R226, R229, R236, R237, R512: a translation miss is counted and its valid entry kept in its cache, and an access that waited for
it is served; pending writes issue as a batch once one is due, and their slots are free; a refresh changes nothing a program can see; HOT follows the
temperature; a bank that has kept a request waiting for more than 20 µs is SLOW and raises BANK_SLOW, and 100 ms of it or CRC replays take the channel
out of service with CHAN_FAULT, the lines of its pending requests poisoned; an invalidation is BUSY from its start, when the caches drop the leaf's
entries it covers and the leaf's engines what they staged through it, to its end, once nothing translated through it is pending. TRANSLATION_FILL,
WRITE_BATCH, REFRESH, MC_HOT, BANK_SLOW, BANK_SLOW_LIMIT, CHAN_FAULT, XLAT_INV, XLAT_INV_DONE. -/
def Obligations.ControllersReportAndRetrain : Prop :=
  (∀ (s : State) (c : Fin 5) (p : Fin 64) (t : Tier) (v : Nat), s.block.memQ = [] → s.block.xlHit c p t (v * 2 ^ 21) = false →
    Does (.translationFill c p t v) s (fun b' => b'.reg64 (pageOf .part p) 0x120 = (s.block.reg64 (pageOf .part p) 0x120 + 1) % 2 ^ 64 ∧
      (∀ e, s.block.entry (s.block.tableOf p t).1 (s.block.tableOf p t).2 v = some e → bitOf e 0 = true → (bitOf e 4 = false ∨ t = .deep) →
        b'.xlHit c p t (v * 2 ^ 21) = true) ∧
      PagesKeptBut s.block b' ([pageOf .part p, pageOf .perf p] ++ mcPages) ∧ MemoryKept s.block b' ∧ UnitsKept s.block b')) ∧
  (∀ (s : State) (c : Fin 5) (p : Fin 64) (t : Tier) (v : Nat), s.block.xlHit c p t (s.block.fillOffset p t v) = true →
    exec (.translationFill c p t v) s = .next s) ∧
  (∀ (s : State) (c : Fin 5) (p : Fin 64) (t : Tier) (v : Nat) (r : MemReq), s.block.memQ = [r] →
    s.block.xlHit c p t (s.block.fillOffset p t v) = false →
    (s.block.xlMiss c p t (s.block.fillOffset p t v)).accessWait r.who r.va r.op (some (p.val, t, v)) = none →
    Does (.translationFill c p t v) s (fun b' => b'.memQ = [] ∧ b'.sems = s.block.sems ∧ b'.arrays = s.block.arrays)) ∧
  (∀ (s : State) (t : Tier) (k : Fin 32), s.block.mcState t k = 2 → s.block.memQ = [] →
    (64 ≤ (s.block.mc t k).slots.length ∨ ∃ q ∈ (s.block.mc t k).slots, q.since + 1000 ≤ s.block.now) →
    Does (.writeBatch t k) s (fun b' => (b'.mc t k).slots = [] ∧ b'.fld (pageMc t k) 0x050 0 32 = 0 ∧
      PagesKeptBut s.block b' [pageMc t k] ∧ MemoryKept s.block b' ∧ UnitsKept s.block b')) ∧
  (∀ (s : State) (t : Tier) (k : Fin 32), (s.block.mc t k).slots.length < 64 → (∀ q ∈ (s.block.mc t k).slots, s.block.now < q.since + 1000) →
    exec (.writeBatch t k) s = .next s) ∧
  (∀ (s : State) (t : Tier) (k : Fin 32) (bank : Nat), exec (.refresh t k bank) s = .next s) ∧
  (∀ (s : State) (t : Tier) (k : Fin 32) (temp : Int),
    Does (.mcHot t k temp) s (fun b' => b'.fld (pageMc t k) 0x044 4 1 = b2n (decide (85 * 16 < temp)) ∧
      RegsKeptBut s.block b' [(pageMc t k, 0x044)] ∧ MemoryKept s.block b' ∧ UnitsKept s.block b')) ∧
  (∀ (s : State) (t : Tier) (k : Fin 32) (bank : Fin 128), s.block.mcState t k = 2 → (t = .near → bank.val < 64) →
    bitOf (s.block.regN (pageMc t k) (0x050 + 4 * (bank / 32))) (bank % 32) = false →
    (∃ q ∈ (s.block.mc t k).slots, bankOfLine t q.line = bank.val ∧ q.since + 20000 < s.block.now) →
    Does (.bankSlow t k bank) s (fun b' => bitOf (b'.regN (pageMc t k) (0x050 + 4 * (bank / 32))) (bank % 32) = true ∧
      b'.fld (pageMc t k) 0x014 2 1 = 1 ∧ PagesKeptBut s.block b' [pageMc t k] ∧ MemoryKept s.block b' ∧ UnitsKept s.block b')) ∧
  (∀ (s : State) (t : Tier) (k : Fin 32) (bank : Fin 128),
    ((s.block.mc t k).slowSince.any fun q => q.1 == bank.val && decide (q.2 + 100000000 ≤ s.block.now)) = true →
    Does (.bankSlowLimit t k bank) s (fun b' => b'.mcState t k = 4 ∧ b'.fld (pageMc t k) 0x014 3 1 = 1 ∧ (b'.mc t k).slots = [] ∧
      b'.mem = s.block.mem ∧ (∀ q ∈ (s.block.mc t k).slots, b'.marked q.line = true) ∧
      (∀ x, (∀ q ∈ (s.block.mc t k).slots, q.line ≠ x) → b'.marked x = s.block.marked x) ∧ UnitsKept s.block b')) ∧
  (∀ (s : State) (k : Fin 32), s.block.mcState .near k = 2 →
    Does (.chanFault .near k .crcReplays) s (fun b' => b'.mcState .near k = 4 ∧ b'.fld (pageOf .nearmc k) 0x014 3 1 = 1 ∧
      (s.block.recs = [] → b'.recOpen (.nearmc k) = true) ∧ b'.mem = s.block.mem ∧
      (∀ q ∈ (s.block.mc .near k).slots, b'.marked q.line = true) ∧
      (∀ x, (∀ q ∈ (s.block.mc .near k).slots, q.line ≠ x) → b'.marked x = s.block.marked x) ∧ UnitsKept s.block b')) ∧
  (∀ (s : State) (p : Fin 64) (v : Word),
    Does (.xlatInv p v) s (fun b' => b'.regN (pageOf .part p) 0x11C = 1 ∧
      (∀ e, e < 64 → (b'.cart e).staged = if (s.block.cart e).part = p.val then
        (s.block.cart e).staged.filter (fun q => !invCovers v.toNat q.1) else (s.block.cart e).staged) ∧
      (∀ c e, c < 5 → e ∈ b'.xlCache c → e ∈ s.block.xlCache c ∧ ¬(e.part = p.val ∧ invDrops v.toNat e = true)) ∧
      PagesKeptBut s.block b' ([pageOf .part p, pageOf .hostif 0] ++ (List.range 64).map (pageOf .cart)) ∧ MemoryKept s.block b' ∧
      UnitsKept s.block b')) ∧
  (∀ (s : State) (p : Fin 64), s.block.invPending p = true → exec (.xlatInvDone p) s = .next s) ∧
  (∀ (s : State) (p : Fin 64) (rq : Req) (code : Nat), s.block.invPending p = false → s.block.invWaits = [(p.val, rq, code)] →
    Does (.xlatInvDone p) s (fun b' => b'.regN (pageOf .part p) 0x11C = 0 ∧ b'.invWaits = [] ∧ Replied s.block b' rq code 0 [0] ∧
      RegsKeptBut s.block b' [(pageOf .part p, 0x11C)] ∧ MemoryKept s.block b' ∧ UnitsKept s.block b'))
/-- R249 to R252, R276: a row of a COPY, a GATHER, a SCATTER or a FILL leaves at its destination the bytes of its source, of the place its index names or
of its pattern, and no other byte of memory changes; an index beyond the window ends the carriage with a fault status and INDEX and changes no
memory; a CART of any number of rows ends when its last row has. CART_COPY, CART_GATHER, CART_SCATTER, CART_FILL. -/
def Obligations.CartsMoveTheirRows : Prop :=
  (∀ (s : State) (e : Fin 64) (i sa da : Nat) (f : Flight), let c := cartOf f.word
    OneRow s.block e i f 0 → LiesAt s.block f.part c.src c.rowBytes false sa → LiesAt s.block f.part c.dst c.rowBytes true da →
    (c.src + c.rowBytes ≤ c.dst ∨ c.dst + c.rowBytes ≤ c.src) →
    Does (.cartCopy e) s (fun b' => Ended b' i false ∧ b'.bytes da c.rowBytes = s.block.bytes sa c.rowBytes ∧
      MemoryKeptBut s.block b' da (da + c.rowBytes) ∧ b'.sems = s.block.sems ∧ b'.arrays = s.block.arrays ∧
      b'.reg64 (cartPage e) 0x048 = (s.block.reg64 (cartPage e) 0x048 + c.rowBytes) % 2 ^ 64)) ∧
  (∀ (s : State) (e : Fin 64) (i ia sa da : Nat) (f : Flight), let c := cartOf f.word
    OneRow s.block e i f 1 → LiesAt s.block f.part c.idx 4 false ia → anyMark (s.block.getM ia 4) = false →
    (let va := c.src + s.block.num ia 4 * c.srcStride
     c.winBase ≤ va ∧ va + c.rowBytes ≤ c.winBase + c.winLen ∧ LiesAt s.block f.part va c.rowBytes false sa) →
    LiesAt s.block f.part c.dst c.rowBytes true da →
    Does (.cartGather e) s (fun b' => Ended b' i false ∧ b'.bytes da c.rowBytes = s.block.bytes sa c.rowBytes ∧
      MemoryKeptBut s.block b' da (da + c.rowBytes) ∧ b'.sems = s.block.sems ∧ b'.arrays = s.block.arrays)) ∧
  (∀ (s : State) (e : Fin 64) (i ia : Nat) (f : Flight), let c := cartOf f.word
    OneRow s.block e i f 1 → LiesAt s.block f.part c.idx 4 false ia → anyMark (s.block.getM ia 4) = false →
    ¬(c.winBase ≤ c.src + s.block.num ia 4 * c.srcStride ∧ c.src + s.block.num ia 4 * c.srcStride + c.rowBytes ≤ c.winBase + c.winLen) →
    Does (.cartGather e) s (fun b' => Ended b' i true ∧ b'.fld (cartPage e) 0x014 0 1 = 1 ∧ MemoryKept s.block b')) ∧
  (∀ (s : State) (e : Fin 64) (i ia sa da : Nat) (f : Flight), let c := cartOf f.word
    OneRow s.block e i f 2 → LiesAt s.block f.part c.idx 4 false ia → anyMark (s.block.getM ia 4) = false →
    (let va := c.dst + s.block.num ia 4 * c.dstStride
     c.winBase ≤ va ∧ va + c.rowBytes ≤ c.winBase + c.winLen ∧ LiesAt s.block f.part va c.rowBytes true da) →
    LiesAt s.block f.part c.src c.rowBytes false sa →
    Does (.cartScatter e) s (fun b' => Ended b' i false ∧ b'.bytes da c.rowBytes = s.block.bytes sa c.rowBytes ∧
      MemoryKeptBut s.block b' da (da + c.rowBytes) ∧ b'.sems = s.block.sems ∧ b'.arrays = s.block.arrays)) ∧
  (∀ (s : State) (e : Fin 64) (i da : Nat) (f : Flight), let c := cartOf f.word
    OneRow s.block e i f 3 → c.rowBytes % 4 = 0 → LiesAt s.block f.part c.dst c.rowBytes true da →
    Does (.cartFill e) s (fun b' => Ended b' i false ∧
      b'.bytes da c.rowBytes = (List.range (c.rowBytes / 4)).flatMap (fun _ => toBytes 4 c.fill) ∧
      MemoryKeptBut s.block b' da (da + c.rowBytes) ∧ b'.sems = s.block.sems ∧ b'.arrays = s.block.arrays)) ∧
  (∀ (s : State) (e : Fin 64) (i : Nat) (f f1 : Flight) (b1 : Block) (side1 side2 : Option RingSide), let c := cartOf f.word
    Runs s.block (fun f => f.engine == engCart e && !f.done) i f → f.started = true → f.ringPos ≠ [] → c.dstKind = 0 →
    (c.codec = 0 ∨ f.unit.isSome = true) → f.faulted = false →
    side1 = s.block.cartSide f.part c.src c.srcRing true → side2 = s.block.cartSide f.part c.dst c.dstRing false →
    (s.block.servedFor f).cartRows ⟨e, i, c⟩ side1 side2 (c.rows * c.planes - f.plane * c.rows - f.row) f = (b1, f1, .done) → i < b1.flights.length →
    f1.faulted = false →
    ((c.mode = 0 → Does (.cartCopy e) s (fun b' => Ended b' i false ∧ b'.mem = (b1.cartOverlap f1 c).mem)) ∧
     (c.mode = 1 → Does (.cartGather e) s (fun b' => Ended b' i false ∧ b'.mem = b1.mem)) ∧
     (c.mode = 2 → Does (.cartScatter e) s (fun b' => Ended b' i false ∧ b'.mem = b1.mem)) ∧
     (c.mode = 3 → Does (.cartFill e) s (fun b' => Ended b' i false ∧ b'.mem = b1.mem))))

/-- R259, R260, R266, R268, R269, R293: run-ahead stages the next block of the window unless its entry forbids it, which it counts; a ring's configuration is taken
while no carriage uses the ring, and enabling it starts both positions at 0; a released row lets the carriage that waits go on; a drain compressor starts a
tensor when it is enabled, and FLUSH leaves no byte of a partial block behind. RUN_AHEAD, RING_ENABLE, RING_ROW_RELEASE, PZ_ENABLE, PZ_FLUSH. -/
def Obligations.RingsStageAndRelease : Prop :=
  (∀ (s : State) (e : Fin 64) (w : Carriage) (va : Nat), (s.block.cart e).last = some w →
    (let c := cartOf w
     c.mode = 0 ∧ c.winLen ≠ 0 ∧ (regionOf c.src = some .near ∨ regionOf c.src = some .deep) ∧
     va = ceilDiv (s.block.cartSrcSide (s.block.cart e).part c).hi 4096 * 4096 ∧ c.winBase + c.winLen = va + 4096) →
    (s.block.cart e).raStop = false → (s.block.cart e).staged = [] → (s.block.cart e).inUse.length < 64 →
    (s.block.mayFetch (s.block.cart e).part va = false →
      Does (.runAhead e) s (fun b' => (b'.cart e).staged = [] ∧ (b'.cart e).raStop = true ∧
        b'.reg64 (cartPage e) 0x060 = (s.block.reg64 (cartPage e) 0x060 + 1) % 2 ^ 64 ∧ MemoryKept s.block b' ∧ UnitsKept s.block b')) ∧
    (∀ b1 bs, s.block.mayFetch (s.block.cart e).part va = true →
      ({ s.block with cacheSel := cacheOf (engCart e) } : Block).readPiece ⟨(s.block.cart e).part, (s.block.cart e).draft⟩ va 4096 = (b1, .ok bs) →
      Does (.runAhead e) s (fun b' => (b'.cart e).staged = [(va, bs)] ∧ b'.fld (cartPage e) 0x040 2 1 = 1 ∧
        b'.reg64 (cartPage e) 0x050 = (s.block.reg64 (cartPage e) 0x050 + 4096) % 2 ^ 64 ∧ MemoryKept s.block b' ∧ UnitsKept s.block b'))) ∧
  (∀ (s : State) (who : Agent) (n u : Nat) (k : Fin 7) (v : Word), s.block.arrayPageOf who n (ringOff (k + 1) 0) = some u →
    s.block.ringInUse u (k + 1) = false → bitOf v.toNat 20 = true → fieldOf v.toNat 18 2 ≠ 3 →
    fieldOf v.toNat 0 9 * 4096 + (fieldOf v.toNat 9 9 + 1) * 4096 ≤ baySize →
    fieldOf v.toNat 0 9 * 4096 + (fieldOf v.toNat 9 9 + 1) * 4096 ≤ s.block.bayBytesOf u →
    Does (.ringEnable who n k v) s (fun b' => b'.regN (arrayPage u) (ringOff (k + 1) 0) = v.toNat % 2 ^ 21 ∧
      (bitOf (s.block.regN (arrayPage u) (ringOff (k + 1) 0)) 20 = false →
        b'.ringPos u (k + 1) true = 0 ∧ b'.ringPos u (k + 1) false = 0) ∧
      PagesKeptBut s.block b' [arrayPage u] ∧ MemoryKept s.block b' ∧ b'.sems = s.block.sems)) ∧
  (∀ (s : State) (a : Fin 128) (k : Fin 7) (f : Flight),
    s.block.flights.filter (fun f => f.started && s.block.namesRing a (k + 1) f) = [f] →
    (cType f.word = 1 → Does (.ringRowRelease a k) s (fun b' => exec (.stream ⟨a, 2 ^ 24⟩) s = .next { s with block := b' })) ∧
    (cType f.word = 3 → Does (.ringRowRelease a k) s (fun b' => exec (.vchain ⟨a, 2 ^ 33⟩) s = .next { s with block := b' })) ∧
    (∀ e : Fin 64, cType f.word = 4 → f.engine = engCart e → (cartOf f.word).mode = 0 →
      Does (.ringRowRelease a k) s (fun b' => exec (.cartCopy e) s = .next { s with block := b' }))) ∧
  (∀ (s : State) (who : Agent) (n u : Nat) (v : Word), s.block.arrayPageOf who n 0x180 = some u → fieldOf v.toNat 5 3 < 4 →
    bitOf (s.block.regN (arrayPage u) 0x180) 0 = false → bitOf v.toNat 0 = true →
    Does (.pzEnable who n v) s (fun b' => b'.regN (arrayPage u) 0x180 = v.toNat &&& 0xFD ∧ b'.regN (arrayPage u) 0x194 = 0 ∧
      (b'.arr u).pzBytes = [] ∧ RegsKeptBut s.block b' [(arrayPage u, 0x180), (arrayPage u, 0x194)] ∧ MemoryKept s.block b' ∧
      b'.sems = s.block.sems)) ∧
  (∀ (s : State) (who : Agent) (n u : Nat), s.block.arrayPageOf who n 0x180 = some u → (s.block.arr u).pzBytes.length ≤ 4096 →
    (s.block.arr u).pzBytes ≠ [] →
    Does (.pzFlush who n) s (fun b' => (b'.arr u).pzBytes = [] ∧
      b'.fld (arrayPage u) 0x194 17 10 = (s.block.fld (arrayPage u) 0x194 17 10 + 1) % 2 ^ 10 ∧ b'.sems = s.block.sems ∧ b'.vecs = s.block.vecs))

/-- R78, R333, R334: a health snapshot latches every live health counter with the time and clears it; a word written to a step register is stored with its reserved
encodings replaced, and where the write is deferred the earlier value governs until the commit; an access of eight bytes is two words in turn.
NUM_SNAP, STEP_REG_WRITE. -/
def Obligations.StepRegistersAndSnapshots : Prop :=
  (∀ (s : State) (who : Agent) (p : Fin 64) (x : Nat), s.block.pageRef who (pageOf .perf p) = .page x →
    s.block.mayWrite who .perf p 0x3F0 = true →
    Does (.numSnap who p) s (fun b' =>
      (∀ i, i < 64 → b'.reg64 (pageOf .perf p) (0x400 + 8 * i) = (storeGet (fun _ => 0) s.block.health (64 * p + i)).toNat ∧
        storeGet (fun _ => 0) b'.health (64 * p + i) = 0) ∧
      b'.reg64 (pageOf .perf p) 0x3F8 = s.block.now % 2 ^ 64 ∧ PagesKeptBut s.block b' [pageOf .perf p] ∧ MemoryKept s.block b' ∧
      UnitsKept s.block b')) ∧
  (∀ (s : State) (who : Agent) (p : Fin 64) (off : Nat) (v : DWord) (x : Nat) (w : RegWord), s.block.pageRef who (partPage p) = .page x →
    off ∈ stepOffsets → s.block.mayWrite who .part p off = true → regWordAt .part p off = some w →
    Does (.stepRegWrite who p off 4 v) s (fun b' =>
      let old := s.block.regN (partPage p) off
      let m := halfMask w w.row.rw % 2 ^ 32
      let new := legalStep (s.block.grant p).semCount off old ((old &&& (2 ^ 32 - 1 - m)) ||| (v.toNat % 2 ^ 32 &&& m))
      b'.reg (partPage p) off = BitVec.ofNat 32 new ∧ RegsKeptBut s.block b' [(partPage p, off)] ∧ MemoryKept s.block b' ∧
      UnitsKept s.block b' ∧
      (s.block.stepDeferred p off = true → b'.govern p off = s.block.govern p off ∧ (b'.run p).fwdBase = (s.block.run p).fwdBase ∧
        (b'.run p).bwdBase = (s.block.run p).bwdBase) ∧
      (s.block.stepDeferred p off = false → (s.block.run p).gov = [] → b'.govern p off = b'.regN (partPage p) off ∧
        (off = 0x204 → old = 0 → new ≠ 0 →
          (b'.run p).fwdBase = b'.sem (b'.semIndex p (fieldOf (b'.govern p 0x208) 0 14)) ∧
          (b'.run p).bwdBase = b'.sem (b'.semIndex p (fieldOf (b'.govern p 0x208) 16 14)))))) ∧
  (∀ (s t u : State) (who : Agent) (p : Fin 64) (off : Nat) (v : DWord) (x : Nat), s.block.pageRef who (partPage p) = .page x →
    goodWidth off 8 = true → off + 4 ∈ stepOffsets → s.block.mayWrite who .part p off = true →
    s.block.wideReserved .part p off v.toNat = false →
    exec (.stepRegWrite who p off 4 v) s = .next t → exec (.stepRegWrite who p (off + 4) 4 (BitVec.ofNat 64 (v.toNat / 2 ^ 32))) t = .next u →
    exec (.stepRegWrite who p off 8 v) s = .next u)

/-- R342, R343, R347, R348, R352 to R354, R357, R363: an ACCUM of one block leaves in its accumulator the contribution, added to what stood there unless FIRST is 1,
adds the squares to the Pruner's sum under SSQ and ends; one of any number of blocks ends after its last. A Pruner's next block of an UPDATE whose stamp is the
step already is skipped and counted, without a write, and an UPDATE or a deferred pass that finds it so of its only block ends; another block leaves the values of its
rule in place, the step in its stamp, and its entry retired; in general the block is done and the carriage ends after the last one. A deferred pass takes the
carriage off its draft's list and signals, or keeps its place where a block waits; ledger recovery runs over all Pruners, puts back what an open entry of an
uncommitted step holds, and says that it is done. PRUNE_ACCUM, PRUNE_UPDATE, LEDGER_BLOCK, DEFERRED_PASS, LEDGER_RECOVERY. -/
def Obligations.GradientsAccumulateAndUpdate : Prop :=
  (∀ (s : State) (p : Fin 64) (i : Nat) (f : Flight) (b1 : Block) (g : Nat), let c := pruneOf f.word
    Runs s.block (pruneSel p 0) i f → (c.first = true → c.step ≤ s.block.committed p + 1) → HasTurn s.block i f → f.faulted = false →
    ((s.block.servedFor f).noteAccum p c).accumBlocks f.ctx c c.nblk c.g0 = (b1, g, .done) → i < b1.flights.length →
    Does (.pruneAccum p) s (fun b' => Ended b' i false ∧ b'.mem = b1.mem ∧ b'.leafRuns = b1.leafRuns)) ∧
  (∀ (s : State) (p : Fin 64) (i : Nat) (f : Flight) (sa da : Nat), let c := pruneOf f.word
    Runs s.block (pruneSel p 0) i f → (c.first = true → c.step ≤ s.block.committed p + 1) → HasTurn s.block i f → f.part = p →
    cDraft f.word = false → f.faulted = false →
    c.nblk = 1 → c.srcEn = true → LiesAt s.block f.part c.src (if c.srcFmt = 0 then 4096 else 2048) false sa →
    LiesAt s.block f.part (pieceAddr c.accum 4096 c.g0) 4096 false da → LiesAt s.block f.part (pieceAddr c.accum 4096 c.g0) 4096 true da →
    anyMark (s.block.getM sa (if c.srcFmt = 0 then 4096 else 2048)) = false → anyMark (s.block.getM da 4096) = false →
    Does (.pruneAccum p) s (fun b' =>
      let old := (unpackWords 4 (s.block.bytes da 4096)).map (BitVec.ofNat 32)
      let src := srcWords c.srcFmt (s.block.bytes sa (if c.srcFmt = 0 then 4096 else 2048))
      let new := if c.first then src.map fun w => encF32 (decF32 w) else List.zipWith f32Add old src
      Ended b' i false ∧ b'.bytes da 4096 = packWords 4 (new.map (·.toNat)) ∧ MemoryKeptBut s.block b' da (da + 4096) ∧
      (c.ssq = true → storeGet (fun _ => 0) (b'.run p).sums (c.g0 % 32) =
        addSquares (storeGet (fun _ => 0) (s.block.run p).sums (c.g0 % 32)) new) ∧
      (c.ssq = false → (b'.run p).sums = (s.block.run p).sums) ∧ b'.sems = s.block.sems ∧ b'.arrays = s.block.arrays)) ∧
  (∀ (s : State) (k : Fin 32) (i : Nat) (f : Flight) (b1 : Block), let c := pruneOf f.word
    Runs s.block (updateSel k) i f → f.next.length = 32 → s.block.prunerTurn i k = true →
    s.block.passWaits f.ctx c f.ruleRec (f.blockOf k) = false →
    (s.block.servedFor f).updateBlock f.ctx c f.ruleRec f.clip (f.blockOf k) = (b1, .done) → i < b1.flights.length →
    Does (.ledgerBlock k) s (fun b' => b'.mem = b1.mem ∧ b'.pdraws = b1.pdraws ∧ b'.sems = b1.sems ∧
      ∃ g', b'.flights[i]? = some g' ∧ g'.next = f.next.set k (f.next.getD k 0 + 1))) ∧
  (∀ (s : State) (k : Fin 32) (i : Nat) (f : Flight) (da : Nat), let c := pruneOf f.word
    Runs s.block (updateSel k) i f → f.next.length = 32 → s.block.prunerTurn i k = true →
    s.block.passWaits f.ctx c f.ruleRec (f.blockOf k) = false → cDraft f.word = false → f.ruleRec.rule ≠ 0 →
    LiesAt s.block f.part (pieceAddr c.stamp 4 (f.blockOf k)) 4 false da →
    anyMark (s.block.getM da 4) = false → s.block.num da 4 = c.step → f.part < 64 →
    Does (.ledgerBlock k) s (fun b' => MemoryKept s.block b' ∧
      b'.reg64 (partPage f.part) 0x298 = (s.block.reg64 (partPage f.part) 0x298 + 1) % 2 ^ 64 ∧
      b'.reg64 (partPage f.part) 0x290 = s.block.reg64 (partPage f.part) 0x290 ∧
      ∃ g', b'.flights[i]? = some g' ∧ g'.next = f.next.set k (f.next.getD k 0 + 1))) ∧
  (∀ (s : State) (k : Fin 32) (i : Nat) (f : Flight) (b1 b2 : Block) (sb : List Byte) (bss : List (List Byte)),
    let c := pruneOf f.word
    let r := f.ruleRec
    let g := f.blockOf k
    let st := stored r (fun _ => 0) (newBlock r f.clip bss)
    let e := s.block.entryOf f.part c r g (ofBytes sb) bss
    let news := ((e.addrs.take 3).zip st.pieces).filter fun q => q.1 != 0
    Runs s.block (updateSel k) i f → f.next.length = 32 → s.block.prunerTurn i k = true → s.block.passWaits f.ctx c r g = false →
    cDraft f.word = false → 1 ≤ r.rule → r.rule ≤ 3 → r.conv = 0 → c.wcEn = false → c.shadowEn = false → f.part < 64 → g % 32 = k →
    (s.block.servedFor f).readAll f.ctx [(pieceAddr c.stamp 4 g, 4)] = (b1, .ok [sb]) → ofBytes sb ≠ c.step → c.step < 2 ^ 32 →
    b1.readAll f.ctx (pruneReads c r g) = (b2, .ok bss) → (∀ q ∈ pruneWrites c r g, s.block.firstBad f.ctx true q.1 q.2 = none) →
    st.finite = true → s.block.unretired k = 0 → s.block.nextSeq k + 1 < 2 ^ 64 →
    Apart (news.map (fun q => (q.1, q.2.length)) ++
      [(e.addrs.getD 3 0, 4), (ringAddr (s.block.ringBase k) k retiredOff, 64)]) →
    Does (.ledgerBlock k) s (fun b' => (∀ q ∈ news, b'.bytes q.1 q.2.length = q.2) ∧ b'.num (e.addrs.getD 3 0) 4 = c.step ∧
      b'.unretired k = 0 ∧ b'.nextSeq k = s.block.nextSeq k + 1 ∧
      b'.reg64 (partPage f.part) 0x290 = (s.block.reg64 (partPage f.part) 0x290 + 1) % 2 ^ 64 ∧ b'.sems = s.block.sems ∧
      ∃ g', b'.flights[i]? = some g' ∧ g'.next = f.next.set k (f.next.getD k 0 + 1))) ∧
  (∀ (s : State) (p : Fin 64) (i : Nat) (f f' : Flight) (b1 : Block), Runs s.block (pruneSel p 1) i f →
    (s.block.servedFor f).beginUpdate i { f with started := true } = (b1, some f') →
    Does (.pruneUpdate p) s (fun b' => b'.mem = (b1.updateRest i f' (pruneOf f'.word).nblk).mem ∧
      b'.flights = (b1.updateRest i f' (pruneOf f'.word).nblk).flights)) ∧
  (∀ (s : State) (p : Fin 64) (i : Nat) (f : Flight) (ra da : Nat), let c := pruneOf f.word
    let r := ruleOf (s.block.bytes ra 64)
    Runs s.block (pruneSel p 1) i f → f.part = p → f.next = [] → f.faulted = false → cDraft f.word = false → c.nblk = 1 →
    c.step ≤ s.block.committed p + 1 → c.normClip = false → LiesAt s.block p c.rule 64 false ra → anyMark (s.block.getM ra 64) = false →
    r.good = true → r.rule ≠ 0 → s.block.prunerTurn i (c.g0 % 32) = true → s.block.passWaits f.ctx c r c.g0 = false →
    LiesAt s.block p (pieceAddr c.stamp 4 c.g0) 4 false da → anyMark (s.block.getM da 4) = false → s.block.num da 4 = c.step →
    Does (.pruneUpdate p) s (fun b' => Ended b' i false ∧ MemoryKept s.block b' ∧
      b'.reg64 (partPage p) 0x298 = (s.block.reg64 (partPage p) 0x298 + 1) % 2 ^ 64 ∧ b'.sems = s.block.sems ∧ b'.drafts = s.block.drafts)) ∧
  (∀ (s : State) (p : Fin 64) (d : Fin 16) (q : Deferred) (rest : List Deferred) (b1 b2 : Block) (rule : BitVec 512) (clip : Word) (fate : PassEnd),
    let c := pruneOf q.word
    (s.block.draft p d).deferred = q :: rest → q.ready = true → q.begun = none →
    s.block.snoopFor p (pruneSides c (ruleOf (s.block.peekV p c.rule 64)) false) = (s.block, true) →
    s.block.updateStart ⟨p, none⟩ c = (b1, .go rule clip) →
    b1.passBlocks ⟨p, none⟩ c (ruleOf (toBytes 64 rule.toNat)) clip c.nblk c.g0 = (b2, fate) →
    Does (.deferredPass p d) s (fun b' => b'.mem = b2.mem ∧
      match fate with
      | .wait g => (b'.draft p d).deferred = { q with begun := some (rule, clip, g) } :: ((b2.draft p d).deferred).drop 1 ∧ b'.sems = b2.sems
      | _ => (b'.draft p d).deferred = ((b2.draft p d).deferred).drop 1 ∧
        (c.deferEn = true → b'.sem (b2.semIndex p c.deferSem) = b2.sem (b2.semIndex p c.deferSem) + 1) ∧
        (c.deferEn = false → b'.sems = b2.sems))) ∧
  (∀ (s : State) (p : Fin 64) (d : Fin 16) (q : Deferred) (rest : List Deferred) (ra da : Nat), let c := pruneOf q.word
    let r := ruleOf (s.block.bytes ra 64)
    (s.block.draft p d).deferred = q :: rest → q.ready = true → q.begun = none → s.block.hdmBase p = none → c.nblk = 1 →
    c.step ≤ s.block.committed p + 1 → c.normClip = false → LiesAt s.block p c.rule 64 false ra → anyMark (s.block.getM ra 64) = false →
    r.good = true → r.rule ≠ 0 → s.block.passWaits ⟨p, none⟩ c r c.g0 = false →
    LiesAt s.block p (pieceAddr c.stamp 4 c.g0) 4 false da → anyMark (s.block.getM da 4) = false → s.block.num da 4 = c.step →
    Does (.deferredPass p d) s (fun b' => (b'.draft p d).deferred = rest ∧ MemoryKept s.block b' ∧
      b'.reg64 (partPage p) 0x298 = (s.block.reg64 (partPage p) 0x298 + 1) % 2 ^ 64 ∧
      (c.deferEn = true → b'.sem (s.block.semIndex p c.deferSem) = s.block.sem (s.block.semIndex p c.deferSem) + 1) ∧
      (c.deferEn = false → b'.sems = s.block.sems))) ∧
  (∀ (s : State) (p : Fin 64), s.block.fld (partPage p) 0x2A0 0 1 = 1 →
    Does (.ledgerRecovery p) s (fun b' => b'.regN (partPage p) 0x2A0 = 2 ∧
      b'.mem = (s.block.each (List.range 32) fun b k =>
        b.recoverPruner p k (fun e => e.part == p.val && decide (s.block.committed p < e.step))
          (fun e => e.part == p.val && !decide (s.block.committed p < e.step) && (e.rule ≤ 3 || !s.block.bound p))).mem ∧
      ((∀ k, k < 32 → s.block.unretired k = 0) → MemoryKept s.block b') ∧
      b'.sems = s.block.sems ∧ b'.committed p = s.block.committed p)) ∧
  (∀ (s : State) (p : Fin 64) (k seq : Nat) (e : Entry), s.block.fld (partPage p) 0x2A0 0 1 = 1 → k < 32 →
    s.block.openSeqs k = [seq] → (∀ k', k' < 32 → k' ≠ k → s.block.unretired k' = 0) → s.block.ringFailed k = false →
    s.block.entryPoisoned k seq = false → s.block.sealedEntry k seq = some e → e.part = p → s.block.committed p < e.step → e.addrs.getD 3 0 ≠ 0 →
    Apart (((e.addrs.take 3).zip e.olds).filterMap (fun q => if q.1 != 0 && !q.2.isEmpty then some (q.1, q.2.length) else none) ++
      [(e.addrs.getD 3 0, 4), (ringAddr (s.block.ringBase k) k retiredOff, 64)]) →
    Does (.ledgerRecovery p) s (fun b' => (∀ q ∈ (e.addrs.take 3).zip e.olds, q.1 ≠ 0 → b'.bytes q.1 q.2.length = q.2) ∧
      b'.num (e.addrs.getD 3 0) 4 = e.stamp % 2 ^ 32 ∧ b'.unretired k = 0 ∧ b'.regN (partPage p) 0x2A0 = 2 ∧
      b'.fld (prunerPage k) 0x014 3 1 = 1 ∧ b'.sems = s.block.sems))

/-- R321 to R324, R344, R453: NORM_CLOSE adds the Pruners' sums to LOCAL_NORM, clears them and, with NORM_EN, gives the norm unit its own value for the step; a
module that has every value sends their sum to its parent; the root forms the record from it, stores it at NORM_ADDR, signals NORM_SEM and sends it down; a child's
value of the step is taken once, and a record of the step is stored, signalled and kept; each of the two time-outs is told once. NORM_CLOSE, NORM_SEND,
NORM_VALUE_RECEIVED, NORM_RECORD_RECEIVED, NORM_TIMEOUT. -/
def Obligations.NormsClimbTheTree : Prop :=
  (∀ (s : State) (p : Fin 64) (i : Nat) (f : Flight), Runs s.block (pruneSel p 2) i f →
    ((s.block.flights.take i).any fun q => pruneSel p 0 q) = false →
    Does (.normClose p) s (fun b' =>
      let total := (List.range 32).foldl (fun acc k => f64Add acc (storeGet (fun _ => 0) (s.block.run p).sums k)) 0
      Ended b' i f.faulted ∧ b'.reg64 (partPage p) 0x288 = total.toNat ∧ (b'.run p).sums = [] ∧
      ((b'.run p).norm.terms = if s.block.normEn p = true ∧ (pruneOf f.word).step = s.block.stepNow p ∧
          (s.block.run p).norm.terms.any (fun q => q.1.isNone) = false then (s.block.run p).norm.terms ++ [(none, total)]
        else (s.block.run p).norm.terms) ∧
      RegsKeptBut s.block b' [(partPage p, 0x288), (partPage p, 0x28C)] ∧ MemoryKept s.block b' ∧ UnitsKept s.block b')) ∧
  (∀ (s : State) (p : Fin 64), s.block.normEn p = true → s.block.normWhole p = true → s.block.isRoot p = false →
    (s.block.run p).norm.record = none → ((s.block.run p).norm.sentAt = none ∨ (s.block.run p).toldNorm = true ∨ (s.block.run p).toldRec = true) →
    Does (.normSend p) s (fun b' =>
      Sent b' (.queueMsg msgNormValue (s.block.normParent p) [s.block.stepNow p, (s.block.run p).norm.sum.toNat]) ∧
      (b'.run p).norm.sentAt = some ((s.block.run p).norm.sentAt.getD s.block.now) ∧ b'.regs = s.block.regs ∧ MemoryKept s.block b' ∧
      UnitsKept s.block b')) ∧
  (∀ (s : State) (p : Fin 64) (da : Nat), s.block.normEn p = true → s.block.normWhole p = true → s.block.isRoot p = true →
    (s.block.run p).norm.record = none → LiesAt s.block p (s.block.reg64 (partPage p) 0x210) 16 true da →
    Does (.normSend p) s (fun b' =>
      let r := normRecord (s.block.run p).norm.sum (signedOf 8 (fieldOf (s.block.govern p 0x224) 0 8)) (BitVec.ofNat 32 (s.block.govern p 0x21C))
      b'.bytes da 16 = recordBytes r.1 ∧ MemoryKeptBut s.block b' da (da + 16) ∧
      b'.sem (s.block.semIndex p (s.block.fld (partPage p) 0x218 0 14)) =
        s.block.sem (s.block.semIndex p (s.block.fld (partPage p) 0x218 0 14)) + 1 ∧
      b'.reg64 (partPage p) 0x258 = r.1.1.toNat ∧ (b'.run p).norm.record = some r.1 ∧
      (r.2 = true → b'.fld (partPage p) 0x014 6 1 = 1) ∧
      ∀ d ∈ (s.block.run p).norm.children,
        Out.queueMsg msgNormRecord d [s.block.stepNow p, r.1.1.toNat, r.1.2.1.toNat, r.1.2.2.toNat] ∈ b'.out)) ∧
  (∀ (s : State) (p : Fin 64) (src : Nat) (step : Word) (value : DWord), s.block.normEn p = true → s.block.isRoot p = false →
    step.toNat = s.block.stepNow p → src ∉ (s.block.run p).norm.children → (s.block.run p).norm.children.length < s.block.childCount p →
    Does (.normValueReceived p src step value) s (fun b' =>
      (b'.run p).norm = { (s.block.run p).norm with terms := (s.block.run p).norm.terms ++ [(some src, value)] } ∧
      b'.regs = s.block.regs ∧ MemoryKept s.block b' ∧ UnitsKept s.block b')) ∧
  (∀ (s : State) (p : Fin 64) (da : Nat) (step : Word) (n : DWord) (c pred : Word), s.block.normEn p = true → s.block.isRoot p = false →
    step.toNat = s.block.stepNow p → (s.block.run p).norm.record = none → LiesAt s.block p (s.block.reg64 (partPage p) 0x210) 16 true da →
    Does (.normRecordReceived p step n c pred) s (fun b' =>
      b'.bytes da 16 = recordBytes (n, c, pred) ∧ MemoryKeptBut s.block b' da (da + 16) ∧
      b'.sem (s.block.semIndex p (s.block.fld (partPage p) 0x218 0 14)) =
        s.block.sem (s.block.semIndex p (s.block.fld (partPage p) 0x218 0 14)) + 1 ∧
      b'.reg64 (partPage p) 0x258 = n.toNat ∧ (b'.run p).norm.record = some (n, c, pred))) ∧
  (∀ (s : State) (p : Fin 64), (s.block.run p).toldNorm = false → s.block.overdue p (s.block.run p).norm.closedAt = true →
    (s.block.run p).norm.children.length < s.block.childCount p →
    Does (.normTimeout p) s (fun b' => (b'.run p).toldNorm = true ∧ (b'.run p).toldRec = (s.block.run p).toldRec ∧
      (b'.run p).norm = (s.block.run p).norm ∧ b'.fld (partPage p) 0x014 5 1 = 1 ∧ MemoryKept s.block b' ∧ UnitsKept s.block b')) ∧
  (∀ (s : State) (p : Fin 64), (s.block.run p).toldRec = false → s.block.overdue p (s.block.run p).norm.sentAt = true →
    (s.block.run p).norm.record = none →
    (s.block.overdue p (s.block.run p).norm.closedAt = false ∨ s.block.childCount p ≤ (s.block.run p).norm.children.length ∨
      (s.block.run p).toldNorm = true) →
    Does (.normTimeout p) s (fun b' => (b'.run p).toldRec = true ∧ (b'.run p).toldNorm = (s.block.run p).toldNorm ∧
      (b'.run p).norm = (s.block.run p).norm ∧ b'.fld (partPage p) 0x014 5 1 = 1 ∧ MemoryKept s.block b' ∧ UnitsKept s.block b'))

/-- R313, R334, R359 to R362: a BARRIER opens the barrier; its conditions met, a leaf without a norm tree and a root whose children are ready write the step's number at
the commit record, the root sending COMMIT down, and another module sends READY up once; READY of the step is taken once; COMMIT of the step is passed down and the
record written; its acknowledgement advances COMMITTED_STEP and the bases, and ends the barrier; a missing message is told once. BARRIER, BARRIER_READY,
READY_RECEIVED, STEP_COMMIT_RECEIVED, COMMIT_RECORD_ACK, COMMIT_TIMEOUT. -/
def Obligations.StepsCommit : Prop :=
  (∀ (s : State) (p : Fin 64) (i : Nat) (f : Flight), Runs s.block (pruneSel p 3) i f → (s.block.run p).barrier.word = none →
    Does (.barrier p) s (fun b' => (b'.run p).barrier = { (s.block.run p).barrier with word := some f.word, chan := f.chan } ∧
      b'.fld (partPage p) 0x284 0 2 = 1 ∧ RegsKeptBut s.block b' [(partPage p, 0x284)] ∧ MemoryKept s.block b' ∧ UnitsKept s.block b')) ∧
  (∀ (s : State) (p : Fin 64) (w : BitVec 1024), (s.block.run p).barrier.word = some w → (s.block.run p).barrier.record = none →
    ((s.block.run p).barrier.own = true ∨ s.block.barrierMet p w = true) →
    ((s.block.normEn p = false ∨ s.block.isRoot p = true) → (s.block.normEn p = true → s.block.childCount p ≤ (s.block.run p).barrier.ready.length) →
      Does (.barrierReady p) s (fun b' => b'.num (s.block.grant p).commitRec 4 = s.block.stepNow p % 2 ^ 32 ∧
        MemoryKeptBut s.block b' (s.block.grant p).commitRec ((s.block.grant p).commitRec + 4) ∧
        (b'.run p).barrier.record = some (s.block.stepNow p) ∧ b'.fld (partPage p) 0x284 0 2 = 2 ∧ b'.committed p = s.block.committed p ∧
        (s.block.normEn p = true → ∀ d ∈ (s.block.run p).barrier.ready, Out.queueMsg msgCommit d [s.block.stepNow p] ∈ b'.out) ∧
        UnitsKept s.block b')) ∧
    (s.block.normEn p = true → s.block.isRoot p = false → s.block.childCount p ≤ (s.block.run p).barrier.ready.length →
      (s.block.run p).barrier.sentAt = none →
      Does (.barrierReady p) s (fun b' => Sent b' (.queueMsg msgReady (s.block.normParent p) [s.block.stepNow p]) ∧
        (b'.run p).barrier.own = true ∧ (b'.run p).barrier.sentAt = some s.block.now ∧ (b'.run p).barrier.record = none ∧
        b'.fld (partPage p) 0x284 0 2 = 2 ∧ RegsKeptBut s.block b' [(partPage p, 0x284)] ∧ MemoryKept s.block b' ∧ UnitsKept s.block b'))) ∧
  (∀ (s : State) (p : Fin 64) (src : Nat) (step : Word), s.block.normEn p = true → step.toNat = s.block.stepNow p →
    (s.block.run p).barrier.own = false → src ∉ (s.block.run p).barrier.ready → (s.block.run p).barrier.ready.length < s.block.childCount p →
    Does (.readyReceived p src step) s (fun b' =>
      (b'.run p).barrier = { (s.block.run p).barrier with ready := (s.block.run p).barrier.ready ++ [src] } ∧ b'.regs = s.block.regs ∧
      MemoryKept s.block b' ∧ UnitsKept s.block b')) ∧
  (∀ (s : State) (p : Fin 64) (step : Word) (t : Nat), s.block.normEn p = true → s.block.isRoot p = false → step.toNat = s.block.stepNow p →
    (s.block.run p).barrier.sentAt = some t → (s.block.run p).barrier.record = none →
    Does (.stepCommitReceived p step) s (fun b' => b'.num (s.block.grant p).commitRec 4 = s.block.stepNow p % 2 ^ 32 ∧
      MemoryKeptBut s.block b' (s.block.grant p).commitRec ((s.block.grant p).commitRec + 4) ∧
      (b'.run p).barrier.record = some (s.block.stepNow p) ∧
      (∀ d ∈ (s.block.run p).barrier.ready, Out.queueMsg msgCommit d [s.block.stepNow p] ∈ b'.out) ∧ UnitsKept s.block b')) ∧
  (∀ (s : State) (p : Fin 64) (step : Nat), (s.block.run p).barrier.record = some step → step < 2 ^ 32 → s.block.exchState p = 0 →
    s.block.fld (partPage p) 0x600 0 1 = 0 → s.block.quiescing = none → (s.block.shard p).held = false →
    Does (.commitRecordAck p) s (fun b' => b'.committed p = step ∧ (b'.run p).barrier = Barrier.none ∧ (b'.run p).norm = NormUnit.none ∧
      b'.fld (partPage p) 0x284 0 2 = 0 ∧ b'.reg64 (partPage p) 0x250 = (s.block.reg64 (partPage p) 0x250 + 1) % 2 ^ 64 ∧ (b'.run p).gov = [] ∧
      (s.block.regN (partPage p) 0x208 = s.block.govern p 0x208 →
        (b'.run p).fwdBase = (s.block.run p).fwdBase + BitVec.ofNat 32 (fieldOf (s.block.govern p 0x204) 0 16) ∧
        (b'.run p).bwdBase = (s.block.run p).bwdBase + BitVec.ofNat 32 (fieldOf (s.block.govern p 0x204) 0 16)) ∧
      MemoryKept s.block b' ∧ b'.sems = s.block.sems ∧ b'.drafts = s.block.drafts)) ∧
  (∀ (s : State) (p : Fin 64), s.block.normEn p = true → (s.block.run p).toldStep = false → (s.block.run p).barrier.record = none →
    (s.block.isRoot p = true → (s.block.run p).barrier.ready.length < s.block.childCount p) →
    s.block.overdue p (s.block.run p).barrier.sentAt = true →
    Does (.commitTimeout p) s (fun b' => (b'.run p).toldStep = true ∧ (b'.run p).barrier = (s.block.run p).barrier ∧
      b'.fld (partPage p) 0x014 13 1 = 1 ∧ MemoryKept s.block b' ∧ UnitsKept s.block b'))

/-- R369 to R371, R389, R396: BIND of a good descriptor binds the leaf with its partners, IDLE at the stored round and anchor round with the stored record;
a bad descriptor ends the carriage with a fault status; FOUND binds at round 0 with itself alone in the record; JOIN binds in JOIN from the named partner; UNBIND
and PARTNERS wait until the shard is IDLE, then release it, keeping the record, or read the partner table again. COACH_BIND, COACH_FOUND, COACH_JOIN, COACH_UNBIND,
UNBIND_RELEASE, COACH_PARTNERS, PARTNERS_REREAD. -/
def Obligations.ShardsBindAndRelease : Prop :=
  (∀ (s : State) (p : Fin 64) (i op : Nat) (f : Flight) (b1 b2 : Block) (bs : List (Byte × Bool)) (ps : List (BitVec 512)),
    let w : BitVec 2048 := BitVec.ofNat 2048 (ofBytes (raw bs))
    Runs s.block (coachSel p op) i f → CoachTurn s.block i → f.faulted = false →
    (s.block.servedFor f).readV ⟨p, none⟩ (cf f.word 0x18 0 48) 256 = (b1, .ok bs) →
    anyMark bs = false → descClean w = true → b1.descInGrant p (descOf w) = true →
    b1.readPartners p (descOf w).partners = (b2, some ps) → i < b2.flights.length →
    (op = 0 → Does (.coachBind p) s (fun b' => Ended b' i false ∧ (b'.shard p).desc = w ∧ (b'.shard p).partners = ps ∧
      b'.exchState p = 1 ∧ (b'.shard p).record = (s.block.shard p).record ∧ (b'.shard p).order = (s.block.shard p).order ∧
      b'.round p = s.block.round p ∧ b'.anchorRound p = s.block.anchorRound p ∧
      (b'.shard p).marked = (s.block.shard p).marked ∧ MemoryKept s.block b' ∧ b'.sems = s.block.sems)) ∧
    (op = 1 → Does (.coachFound p) s (fun b' => Ended b' i false ∧ (b'.shard p).desc = w ∧ (b'.shard p).partners = ps ∧
      b'.exchState p = 1 ∧ b'.round p = 0 ∧ b'.anchorRound p = 0 ∧ (b'.shard p).order = [(descOf w).site] ∧
      ∃ root, (b'.shard p).record = some (foundRecord (descOf w) root))) ∧
    (∀ q, op = 2 → (ps.map partnerOf)[cf f.word 0x10 8 8]? = some q →
      Does (.coachJoin p) s (fun b' => Ended b' i false ∧ (b'.shard p).desc = w ∧ (b'.shard p).partners = ps ∧ b'.exchState p = 11 ∧
        (b'.shard p).joining = some q.site ∧ MemoryKept s.block b' ∧ b'.sems = s.block.sems))) ∧
  (∀ (s : State) (p : Fin 64) (i : Nat) (f : Flight) (b1 : Block) (bs : List (Byte × Bool)), Runs s.block (coachSel p 0) i f → CoachTurn s.block i →
    (s.block.servedFor f).readV ⟨p, none⟩ (cf f.word 0x18 0 48) 256 = (b1, .ok bs) → i < b1.flights.length →
    (anyMark bs = true ∨ descClean (BitVec.ofNat 2048 (ofBytes (raw bs))) = false) →
    Does (.coachBind p) s (fun b' => Ended b' i true ∧ b'.exchState p = s.block.exchState p ∧ b'.shards = s.block.shards ∧
      MemoryKept s.block b')) ∧
  (∀ (s : State) (p : Fin 64) (i : Nat) (f : Flight), CoachTurn s.block i →
    (Runs s.block (coachSel p 3) i f → Does (.coachUnbind p) s (fun b' => (b'.shard p).unbind = true ∧
      b'.flights[i]? = some { f with started := true } ∧ b'.regs = s.block.regs ∧ MemoryKept s.block b' ∧ UnitsKept s.block b')) ∧
    (Runs s.block (coachSel p 4) i f → Does (.coachPartners p) s (fun b' => (b'.shard p).reread = true ∧
      b'.flights[i]? = some { f with started := true } ∧ b'.regs = s.block.regs ∧ MemoryKept s.block b' ∧ UnitsKept s.block b'))) ∧
  (∀ (s : State) (p : Fin 64) (i : Nat) (f : Flight), s.block.exchState p = 1 →
    ((s.block.shard p).unbind = true → s.block.flights.findIdx? (coachSel p 3) = some i → s.block.flights[i]? = some f →
      Does (.unbindRelease p) s (fun b' => b'.exchState p = 0 ∧ (b'.shard p).desc = 0 ∧ (b'.shard p).record = (s.block.shard p).record ∧
        Ended b' i f.faulted ∧ RegsKeptBut s.block b' [(partPage p, 0x300), (partPage p, 0x260)] ∧ MemoryKept s.block b' ∧
        UnitsKept s.block b')) ∧
    (∀ b1 ps, (s.block.shard p).reread = true → s.block.flights.findIdx? (coachSel p 4) = some i → s.block.flights[i]? = some f →
      s.block.readPartners p (s.block.desc p).partners = (b1, some ps) → b1.flights = s.block.flights →
      Does (.partnersReread p) s (fun b' => (b'.shard p).partners = ps ∧ (b'.shard p).reread = false ∧ Ended b' i f.faulted ∧
        b'.exchState p = 1 ∧ MemoryKept s.block b')))

/-- R368, R374 to R377, R389 to R392, R397: a chunk goes out in fragments under consecutive counters of its session's key and is remembered; one that is due is sent again, under its
old epoch while that may be used; at the leader a whole good chunk is kept; ACK marks the chunks it lists; at the deadline the leader closes the round and a follower stops; CLOSE,
OPEN and HELLO do at a follower what they say; OPEN is repeated and HELLO sent every second; a silent leader is passed over; HOLD and its release go down the tree. CHUNK_SEND, CHUNK_RESEND,
CHUNK, ACK, ROUND_DEADLINE, CLOSE, OPEN, OPEN_REPEAT, HELLO_SEND, HELLO, LEADER_TIMEOUT, HOLD_RECEIVED. -/
def Obligations.RoundsSendCollectAndClose : Prop :=
  (∀ (s : State) (p : Fin 64) (seg flow site session : Nat) (k : KeyDir),
    let mails := s.block.chunkMails p site session seg
    s.block.chunkFlow p flow = some (site, session) → (s.block.flow flow).queue = [] → (s.block.session session).send = some k →
    (seg < (s.block.desc p).nseg → (∀ c ∈ (s.block.shard p).sent, c.seg ≠ seg) → k.spent s.block.now = false → k.counter + mails.length ≤ 2 ^ 32 →
      Does (.chunkSend p seg flow) s (fun b' =>
        (b'.shard p).sent = (s.block.shard p).sent ++ [⟨seg, k.epoch, k.counter, flow, s.block.now, false, false⟩] ∧
        ChunkGoes s.block b' mails flow k.epoch k.counter ∧
        b'.reg64 (partPage p) 0x310 = (s.block.reg64 (partPage p) 0x310 + 1) % 2 ^ 64 ∧ MemoryKept s.block b' ∧ b'.sems = s.block.sems)) ∧
    (∀ c epoch ctr, (s.block.shard p).sent.find? (fun c => c.seg == seg) = some c → c.acked = false →
      (c.queued = true ∨ s.block.chunkWaits p seg = false ∧ c.sentAt + (s.block.desc p).resendMs * 1000000 ≤ s.block.now) →
      (if (s.block.session session).mayRepeat s.block.now c.epoch = true then epoch = c.epoch ∧ ctr = c.counter
        else k.spent s.block.now = false ∧ k.counter + mails.length ≤ 2 ^ 32 ∧ epoch = k.epoch ∧ ctr = k.counter) →
      Does (.chunkResend p seg flow) s (fun b' =>
        (b'.shard p).sent = (s.block.shard p).sent.map (fun c =>
          if c.seg = seg then ⟨seg, epoch, ctr, flow, s.block.now, false, false⟩ else c) ∧
        ChunkGoes s.block b' mails flow epoch ctr ∧
        b'.reg64 (partPage p) 0x318 = (s.block.reg64 (partPage p) 0x318 + 1) % 2 ^ 64 ∧ MemoryKept s.block b' ∧ b'.sems = s.block.sems))) ∧
  (∀ (s : State) (p : Fin 64) (h : SHdr) (m : ChunkMsg) (t : Nat) (plain : List Byte), Heard s.block p h mChunk → h.round = s.block.roundNow p →
    s.block.leads p h.round = true → (s.block.exchState p = 1 ∨ s.block.exchState p = 4) → (s.block.shard p).stuck = false →
    (s.block.shard p).deadline = some t → (s.block.shard p).frags = [] → m.index < (s.block.desc p).nseg →
    (∀ c ∈ (s.block.shard p).inbound, ¬(c.site = h.srcSite ∧ c.index = m.index)) →
    isZeroV (decF32 ((s.block.desc p).weight h.round m.baseRound)) = false → m.nfrag = 1 → m.frag = 0 → m.poisoned = false →
    m.bytes.length = m.wireBytes → m.bytes.length ≤ 8192 → (crc32c m.bytes).toNat = m.crc →
    chunkPlain ((s.block.desc p).segLen m.index) m.privet m.bytes = some plain → s.block.inboundFits p m.bytes.length = true →
    (s.block.desc p).quorum = 0 →
    Does (.chunk p h m) s (fun b' => (b'.shard p).inbound = (s.block.shard p).inbound ++ [⟨h.srcSite, m.index, m.baseRound, plain⟩] ∧
      (b'.shard p).deadline = some t ∧ b'.exchState p = s.block.exchState p ∧ MemoryKept s.block b' ∧ UnitsKept s.block b')) ∧
  (∀ (s : State) (p : Fin 64) (h : SHdr) (chunks : List Nat), Heard s.block p h mAck → 1 ≤ chunks.length → chunks.length ≤ 1024 →
    h.round = s.block.round p → h.srcSite = s.block.leaderOf p h.round → s.block.exchState p = 3 →
    Does (.ack p h chunks) s (fun b' =>
      (b'.shard p).sent = (s.block.shard p).sent.map (fun c => if chunks.contains c.seg then { c with acked := true } else c) ∧
      (b'.shard p).heardAt = s.block.now ∧ b'.reg64 (partPage p) 0x320 = (s.block.reg64 (partPage p) 0x320 +
        ((s.block.shard p).sent.filter fun c => !c.acked && chunks.contains c.seg).length) % 2 ^ 64 ∧
      MemoryKept s.block b' ∧ UnitsKept s.block b')) ∧
  (∀ (s : State) (p : Fin 64) (t : Nat), (s.block.shard p).deadline = some t → t ≤ s.block.now →
    Does (.roundDeadline p) s (fun b' => MemoryKept s.block b' ∧ UnitsKept s.block b' ∧
      (s.block.exchState p = 3 → b'.shard p = { s.block.shard p with stopped := true } ∧ b'.regs = s.block.regs) ∧
      (s.block.exchState p = 4 →
        let void := decide (s.block.someSites p < (s.block.desc p).minContrib)
        (b'.shard p).deadline = none ∧ (b'.shard p).void = void ∧ b'.exchState p = (if void then 8 else 5) ∧
        b'.reg64 (partPage p) 0x358 = s.block.now % 2 ^ 64 ∧ b'.fld coachPage 0x014 (b2n void) 1 = 1))) ∧
  (∀ (s : State) (p : Fin 64) (h : SHdr) (void : Bool) (merged : Nat), Heard s.block p h mClose → merged ≤ (s.block.desc p).nseg →
    s.block.exchState p = 3 → h.round = s.block.round p → h.srcSite = s.block.leaderOf p h.round →
    Does (.close p h void merged) s (fun b' => (b'.shard p).stopped = true ∧ (b'.shard p).void = void ∧
      b'.exchState p = (if void then 8 else 3) ∧ b'.reg64 (partPage p) 0x358 = s.block.now % 2 ^ 64 ∧
      b'.fld coachPage 0x014 (b2n void) 1 = 1 ∧ MemoryKept s.block b' ∧ UnitsKept s.block b')) ∧
  (∀ (s : State) (p : Fin 64) (h : SHdr) (m : OpenMsg), Heard s.block p h mOpen → m.quorum < 512 →
    m.orderRound = (s.block.shard p).orderRound → (s.block.shard p).order ≠ [] → h.round = s.block.round p → s.block.exchState p = 3 →
    s.block.turnOf p h.round h.srcSite = some (s.block.shard p).turn → m.decline = false → FlowsEmpty s.block →
    Does (.open_ p h m) s (fun b' => (b'.shard p).deadline = some m.deadline ∧ (b'.shard p).heardAt = s.block.now ∧
      (b'.shard p).turn = (s.block.shard p).turn ∧ (b'.shard p).sent = (s.block.shard p).sent ∧ b'.exchState p = 3 ∧
      MemoryKept s.block b' ∧ UnitsKept s.block b')) ∧
  (∀ (s : State) (p : Fin 64),
    ((s.block.shard p).deadline ≠ none → (s.block.exchState p = 4 ∨ s.block.exchState p = 1) → s.block.leads p (s.block.roundNow p) = true →
      (s.block.shard p).heardAt + 1000000000 ≤ s.block.now → FlowsEmpty s.block →
      Does (.openRepeat p) s (fun b' => b'.shard p = { s.block.shard p with heardAt := s.block.now } ∧ MemoryKept s.block b' ∧
        UnitsKept s.block b')) ∧
    (s.block.bound p = true → (s.block.shard p).helloAt + 1000000000 ≤ s.block.now → FlowsEmpty s.block →
      Does (.helloSend p) s (fun b' => b'.shard p = { s.block.shard p with helloAt := s.block.now } ∧ MemoryKept s.block b' ∧
        UnitsKept s.block b')) ∧
    (s.block.exchState p = 3 → (s.block.shard p).heardAt + (s.block.desc p).leaderSec * 1000000000 ≤ s.block.now →
      Does (.leaderTimeout p) s (fun b' => (s.block.shard p).turn < (b'.shard p).turn ∧ (b'.shard p).sent = [] ∧
        (b'.shard p).heardAt = s.block.now ∧ b'.fld coachPage 0x014 2 1 = 1 ∧ MemoryKept s.block b' ∧ UnitsKept s.block b'))) ∧
  (∀ (s : State) (p : Fin 64) (h : SHdr) (m : HelloMsg), Heard s.block p h mHello → m.nContrib ≤ 256 →
    let peer : Peer := ⟨h.srcSite, m.round, m.leader, m.nContrib, m.baseRound, m.newRoot⟩
    Does (.hello p h m) s (fun b' =>
      (b'.shard p).peers = (s.block.shard p).peers.filter (fun q => q.site != h.srcSite) ++ [peer] ∧
      (∀ own, (s.block.shard p).record = some own → own.round = m.round → own.newRoot ≠ m.newRoot → (s.block.shard p).rival = none →
        winsOver m.nContrib m.leader own.contrib.length own.leader = true →
        (b'.shard p).rival = some peer ∧ b'.fld coachPage 0x014 6 1 = 1) ∧
      MemoryKept s.block b' ∧ UnitsKept s.block b')) ∧
  (∀ (s : State) (p : Fin 64) (release : Bool),
    Does (.holdReceived p release) s (fun b' => (b'.shard p).held = !release ∧ (release = true → b'.fld (partPage p) 0x300 5 1 = 0) ∧
      (∀ d ∈ s.block.below p, Out.queueMsg msgHold d [b2n release] ∈ b'.out) ∧ RegsKeptBut s.block b' [(partPage p, 0x300)] ∧
      MemoryKept s.block b' ∧ UnitsKept s.block b'))

/-- R379 to R388, R391, R543, R544: a segment of the merge leaves the differences of its OUTER as its body; the record signed after the last segment becomes the shard's
anchor record, unless the debug port is open; a manifest with a good signature and the shard's own root begins ADOPT and one without is refused; bodies are kept; an adoption that
reaches NEW_ROOT ends and a bad BODY_HASH is refused; the rebase goes on block by block, leaves a poisoned block and ends with the round; after a reset it waits in CHOICE for RESUME or
ROLLBACK. SEGMENT_OUTER, MANIFEST_SIGN, MANIFEST, BODY, ADOPTION_DONE, REBASE_BLOCK, REBASE_DONE, COACH_RECOVERY, REBASE_RESUME, REBASE_ROLLBACK. -/
def Obligations.RecordsMergeAdoptAndRebase : Prop :=
  (∀ (s : State) (p : Fin 64) (seg : Nat) (b1 b2 b3 b4 b5 : Block) (own : List (Byte × Bool)) (rule : RuleRec) (old new : List Nat),
    let d := s.block.desc p
    let r := s.block.round p
    let n := d.segLen seg
    s.block.exchState p = 5 → seg = (s.block.shard p).pos → seg < d.nseg → (s.block.shard p).stuck = false →
    s.block.ringsClear = true → CoachFree s.block p → s.block.peekM p (d.storeAt r (1024 * seg)) (544 * n) = (b1, own) →
    (b1.poke p d.inbound (packWords 4 ((mergedDelta n ((d.site, d.weight r (s.block.anchorRound p), storeSubs own) ::
      ((s.block.shard p).inbound.filter fun c => c.index == seg).map fun c => (c.site, d.weight r c.base, chunkSubs n c.bytes))).map
        (·.toNat)))).outerRule p = (b2, some rule) →
    rule.good = true → rule.rule = 4 → b2.segPatterns p seg = (b3, old) →
    b3.passBlocks ⟨p, none⟩ (outerPrune d r seg) rule (rule.c 9) n (d.g0 + 1024 * seg) = (b4, .done) → b4.segPatterns p seg = (b5, new) →
    Does (.segmentOuter p seg) s (fun b' => (b'.shard p).pos = seg + 1 ∧
      storeGet (fun _ => []) (b'.shard p).bodies seg = packBody (diffs16 new old) ∧ b'.exchState p = 5)) ∧
  (∀ (s : State) (p : Fin 64),
    (s.block.exchState p = 6 ∨ (s.block.exchState p = 5 ∧ (s.block.shard p).pos = (s.block.desc p).nseg)) →
    (s.block.debugOpen = true → Does (.manifestSign p) s (fun b' => b'.exchState p = 6 ∧ b'.shards = s.block.shards ∧
      RegsKeptBut s.block b' [(partPage p, 0x300)] ∧ MemoryKept s.block b')) ∧
    (s.block.debugOpen = false → Does (.manifestSign p) s (fun b' => b'.exchState p = 8 ∧ b'.anchorRound p = s.block.round p ∧
      (b'.shard p).inbound = [] ∧ ∃ m, (b'.shard p).record = some m ∧ m.round = s.block.round p ∧ m.leader = (s.block.desc p).site ∧
        (b'.shard p).sig = Config.falconSign (devIdSeed s.nv) (manifestBytes m)))) ∧
  (∀ (s : State) (p : Fin 64) (h : SHdr) (m : FragMsg) (whole : Manifest) (key sig : List Byte), Heard s.block p h mManifest →
    m.nfrag = 1 → m.frag = 0 → m.bytes.length ≤ 8192 → m.bytes.length = m.total → (s.block.shard p).manFrags = [] →
    (s.block.shard p).order ≠ [] → m.bytes = manifestBytes whole ++ sig → manifestFormed whole = true → whole.shard = (s.block.desc p).shard →
    whole.nseg = (s.block.desc p).nseg →
    (s.block.manifestSigned p whole key sig = false → Does (.manifest p h m whole (manifestBytes whole) key sig) s (fun b' =>
      b'.exchState p = s.block.exchState p ∧ (b'.shard p).incoming = (s.block.shard p).incoming ∧ b'.fld coachPage 0x014 3 1 = 1 ∧
      MemoryKept s.block b' ∧ UnitsKept s.block b')) ∧
    (s.block.manifestSigned p whole key sig = true → s.block.exchState p = 3 → whole.round = s.block.round p →
      h.srcSite = s.block.leaderOf p whole.round →
      Does (.manifest p h m whole (manifestBytes whole) key sig) s (fun b' =>
        (if (s.block.rootOf p).2 = whole.prevRoot then b'.exchState p = 7 ∧ (b'.shard p).incoming = some whole ∧ (b'.shard p).sig = sig
          else b'.exchState p = 11 ∧ (b'.shard p).rejoin = true ∧ b'.fld coachPage 0x014 3 1 = 1) ∧
        MemoryKept s.block b' ∧ UnitsKept s.block b'))) ∧
  (∀ (s : State) (p : Fin 64) (h : SHdr) (m : FragMsg), Heard s.block p h mBody → m.nfrag = 1 → m.frag = 0 → m.bytes.length ≤ 8192 →
    m.bytes.length = m.total → (s.block.exchState p = 3 ∨ s.block.exchState p = 7) → h.round = s.block.round p →
    h.srcSite = s.block.leaderOf p h.round → m.segment < (s.block.desc p).nseg →
    storeGet (fun _ => []) (s.block.shard p).bodies m.segment = [] → (s.block.shard p).bodyFrags = [] →
    s.block.inboundFits p m.bytes.length = true →
    Does (.body p h m) s (fun b' => storeGet (fun _ => []) (b'.shard p).bodies m.segment = m.bytes ∧
      (∀ i, i ≠ m.segment → storeGet (fun _ => []) (b'.shard p).bodies i = storeGet (fun _ => []) (s.block.shard p).bodies i) ∧
      b'.exchState p = s.block.exchState p ∧ MemoryKept s.block b' ∧ UnitsKept s.block b')) ∧
  (∀ (s : State) (p : Fin 64) (m : Manifest), (s.block.shard p).incoming = some m → s.block.exchState p = 7 → s.block.bodiesWhole p = true →
    s.block.coachBusy p = false → s.block.ringsClear = true → CoachFree s.block p → (s.block.shard p).pos < (s.block.desc p).nseg →
    let bytes := s.block.bodyBytes p (s.block.shard p).bodies
    ((Config.shake256 bytes 32 ≠ m.bodyHash ∨ bytes.length ≠ m.bodyBytes) →
      Does (.adoptionDone p) s (fun b' => b'.exchState p = 3 ∧ (b'.shard p).incoming = none ∧ (b'.shard p).bodies = [] ∧
        b'.fld coachPage 0x014 3 1 = 1 ∧ b'.anchorRound p = s.block.anchorRound p ∧ MemoryKept s.block b')) ∧
    (∀ b1 b2 root, Config.shake256 bytes 32 = m.bodyHash → bytes.length = m.bodyBytes →
      (s.block.hashed bytes.length).adopt p (s.block.shard p).bodies = b1 →
      (b1.setShard p { b1.shard p with pos := (s.block.desc p).nseg }).rootOf p = (b2, root) →
      Does (.adoptionDone p) s (fun b' => b'.mem = b2.mem ∧
        (root = m.newRoot → b'.exchState p = 8 ∧ b'.anchorRound p = m.round % 2 ^ 32 ∧ (b'.shard p).record = some m) ∧
        (root ≠ m.newRoot → b'.exchState p = 7 ∧ b'.fld coachPage 0x014 8 1 = 1)))) ∧
  (∀ (s : State) (p : Fin 64), s.block.exchState p = 9 → (s.block.shard p).pos < (s.block.desc p).nblk →
    s.block.room (((s.block.desc p).g0 + (s.block.shard p).pos) % 32) = true → CoachFree s.block p →
    Does (.rebaseBlock p) s (fun b' => (b'.shard p).pos = (s.block.shard p).pos + 1 ∧ b'.exchState p = 9 ∧
      b'.reg64 coachPage 0x020 = ((s.block.shard p).pos + 1) % 2 ^ 64 ∧ b'.mem = (s.block.rebaseOne p (s.block.shard p).pos).mem) ∧
    (∀ b1 b2 w a, (s.block.shard p).pos % 1024 ≠ 0 →
      s.block.peekM p (pieceAddr (s.block.desc p).master 4096 ((s.block.desc p).g0 + (s.block.shard p).pos)) 4096 = (b1, w) →
      b1.peekM p (pieceAddr (s.block.desc p).anchor 2048 ((s.block.desc p).g0 + (s.block.shard p).pos)) 2048 = (b2, a) → anyMark (w ++ a) = true →
      Does (.rebaseBlock p) s (fun b' => MemoryKept s.block b' ∧
        b'.fld (prunerPage (((s.block.desc p).g0 + (s.block.shard p).pos) % 32)) 0x014 1 1 = 1))) ∧
  (∀ (s : State) (p : Fin 64), s.block.exchState p = 9 → (s.block.desc p).nblk ≤ (s.block.shard p).pos →
    s.block.fld (partPage p) 0x600 0 1 = 0 →
    Does (.rebaseDone p) s (fun b' => b'.exchState p = 1 ∧ (b'.shard p).pos = 0 ∧ (b'.shard p).sent = [] ∧ (b'.shard p).inbound = [] ∧
      (b'.shard p).deadline = none ∧ (b'.shard p).record = (s.block.shard p).record ∧ b'.fld coachPage 0x040 6 1 = 0 ∧
      RegsKeptBut s.block b' [(coachPage, 0x040), (partPage p, 0x300), (partPage p, 0x260)] ∧ MemoryKept s.block b' ∧ UnitsKept s.block b')) ∧
  (∀ (s : State) (p : Fin 64), (s.block.shard p).recovering = true →
    Does (.coachRecovery p) s (fun b' => (b'.shard p).recovering = false ∧
      b'.exchState p = (if s.block.exchState p = 9 then 13 else s.block.exchState p) ∧
      b'.mem = (s.block.each (List.range 32) fun b k => b.recoverPruner p k
        (fun e => e.part == p.val && (e.rule == 4 || e.rule == 0xE || e.rule == 0xF)) (fun _ => false)).mem ∧
      ((∀ k, k < 32 → s.block.unretired k = 0) → MemoryKept s.block b'))) ∧
  (∀ (s : State) (rq : Req) (p : Fin 64), rq.by_ = .pf → s.block.exchState p = 13 → s.block.resetting p = false →
    Does (.rebaseResume rq p) s (fun b' => b'.exchState p = 9 ∧ Replied s.block b' rq 0x40 0 [0] ∧ b'.shards = s.block.shards ∧
      RegsKeptBut s.block b' [(partPage p, 0x300)] ∧ MemoryKept s.block b' ∧ UnitsKept s.block b') ∧
    (s.block.ringsClear = true → Does (.rebaseRollback rq p) s (fun b' => b'.exchState p = 8 ∧ Replied s.block b' rq 0x41 0 [0] ∧ (b'.shard p).pos = 0 ∧
      (b'.shard p).again = (!(s.block.shard p).void) ∧
      b'.anchorRound p = (if (s.block.shard p).void = true then s.block.anchorRound p else (s.block.shard p).prevRound % 2 ^ 32))) ∧
    (s.block.ringsClear = false → Does (.rebaseRollback rq p) s (fun b' => Replied s.block b' rq 0x41 0x04 [0] ∧ b'.exchState p = 13 ∧
      b'.shards = s.block.shards ∧ b'.regs = s.block.regs ∧ MemoryKept s.block b' ∧ UnitsKept s.block b')))

/-- R392 to R396, R398: the winning lineage's state is taken to INBOUND for the next step boundary; a group of digests and a block whose leaf holds are sent to a partner that asks; a joiner
writes the digests it waited for into its tree; a block that a replica asked for is written where its leaf is right, counted, and asked for again where it is wrong. RECONCILE,
DIGEST_REQ, DIGEST_RESP, BLOCK_REQ, BLOCK_DATA. -/
def Obligations.ReplicasReconcileAndRepair : Prop :=
  (∀ (s : State) (p : Fin 64) (aWin : List Byte) (earlier : List Manifest) (whole : Manifest) (w : Peer), earlier.all manifestFormed = true →
    isLineage (earlier ++ [whole]) = true → (s.block.shard p).rival = some w → s.block.exchState p = 1 →
    manifestFormed whole = true → whole.round = w.round → whole.newRoot = w.root → whole.nseg = (s.block.desc p).nseg →
    aWin.length = 4096 * (s.block.desc p).nblk → rootOfState aWin = w.root →
    Does (.reconcile p aWin ⟨earlier, whole⟩) s (fun b' => b'.exchState p = 10 ∧ (b'.shard p).incoming = some whole ∧
      (b'.shard p).earlier = earlier ∧
      (∀ o, o < (s.block.desc p).nblk → storeGet (fun _ => []) (b'.shard p).bodies o = (aWin.drop (4096 * o)).take 4096) ∧
      RegsKeptBut s.block b' [(partPage p, 0x300)] ∧ MemoryKept s.block b' ∧ UnitsKept s.block b')) ∧
  (∀ (s : State) (p : Fin 64) (h : SHdr) (level node i j : Nat) (k : KeyDir),
    let bs := (s.block.digestsOf p level node).2
    let m : Mail := ⟨p, h.srcSite, i, mDigestResp, h.round, [level, node, bs.length / 8], bs, 12 + bs.length⟩
    Heard s.block p h mDigestReq → level < 256 → level < (s.block.desc p).levels.length →
    256 * node < (s.block.desc p).levels.getD level 0 → Posts s.block m k j → FlowsEmpty s.block →
    Does (.digestReq p h level node) s (fun b' => Sent b' (s.block.datagram (s.block.flow j).fields m k.epoch k.counter) ∧
      b'.shards = s.block.shards ∧ MemoryKept s.block b' ∧ UnitsKept s.block b')) ∧
  (∀ (s : State) (p : Fin 64) (h : SHdr) (node da : Nat) (digests : List Nat) (m : Manifest), Heard s.block p h mDigestResp →
    s.block.exchState p = 11 → (s.block.shard p).incoming = some m → (s.block.shard p).joining = some h.srcSite →
    node ∈ (s.block.shard p).wantNodes → (∃ n ∈ (s.block.shard p).wantNodes, n ≠ node) →
    digests.length = min 256 ((s.block.desc p).levels.getD 0 0 - 256 * node) →
    LiesAt s.block p ((s.block.desc p).digestAt 0 (256 * node)) (8 * digests.length) true da →
    Does (.digestResp p h 0 node digests) s (fun b' => (b'.shard p).wantNodes = (s.block.shard p).wantNodes.filter (· != node) ∧
      b'.bytes da (8 * digests.length) = digests.flatMap digestBytes ∧ MemoryKeptBut s.block b' da (da + 8 * digests.length) ∧
      b'.exchState p = 11 ∧ b'.sems = s.block.sems)) ∧
  (∀ (s : State) (p : Fin 64) (h : SHdr) (g : Nat) (leafOnly : Bool) (replicas : List (Nat × Nat × List Byte)) (i j : Nat) (k : KeyDir),
    let o := g - (s.block.desc p).g0
    let stored := (s.block.peek p ((s.block.desc p).digestAt 0 o) 8).2
    let bs := (s.block.leafBytes p o).2
    let sent := if leafOnly then [] else bs
    let m : Mail := ⟨p, h.srcSite, i, mBlockData, h.round, [g, digestNum stored], sent, 16 + sent.length⟩
    Heard s.block p h mBlockReq → (s.block.desc p).g0 ≤ g → g < (s.block.desc p).g0 + (s.block.desc p).nblk →
    (s.block.leads p (s.block.roundNow p) = false ∨ leafOf bs = stored) → Posts s.block m k j → FlowsEmpty s.block →
    Does (.blockReq p h g leafOnly replicas) s (fun b' => Sent b' (s.block.datagram (s.block.flow j).fields m k.epoch k.counter) ∧
      b'.shards = s.block.shards ∧ MemoryKept s.block b' ∧ UnitsKept s.block b')) ∧
  (∀ (s : State) (p : Fin 64) (h : SHdr) (g leaf : Nat) (bytes : List Byte), Heard s.block p h mBlockData → bytes.length = 4096 →
    (s.block.desc p).g0 ≤ g → g - (s.block.desc p).g0 ∈ (s.block.shard p).wantBlocks →
    g - (s.block.desc p).g0 ∉ (s.block.rebuildOf p).left → s.block.exchState p ≠ 11 →
    (leafOf bytes = digestBytes leaf → s.block.room (g % 32) = true → Does (.blockData p h g leaf bytes) s (fun b' =>
      (b'.shard p).wantBlocks = (s.block.shard p).wantBlocks.filter (· != g - (s.block.desc p).g0) ∧
      b'.reg64 (partPage p) 0x340 = (s.block.reg64 (partPage p) 0x340 + 1) % 2 ^ 64 ∧ b'.sems = s.block.sems)) ∧
    (leafOf bytes ≠ digestBytes leaf ∨ s.block.room (g % 32) = false → Does (.blockData p h g leaf bytes) s (fun b' =>
      (b'.shard p).wantBlocks = (s.block.shard p).wantBlocks ∧
      b'.reg64 (partPage p) 0x340 = s.block.reg64 (partPage p) 0x340 ∧ MemoryKept s.block b' ∧ UnitsKept s.block b')))

/-- R403 to R409, R424 to R426, R430, R431, R438: a port that is DOWN trains from its first attempt, and RETRAIN starts afresh with RETRAIN raised; a phase that is done leads to the next
and the last one to UP, to KEYING where both sides encrypt, or to another attempt; three failed attempts end in FAILED; a flit in order is taken, one with a bad CRC asks for a replay; NAK
replays and the eighth without an ACK retrains, which ends in UP or, at the third failure, in FAILED; samples and PTP slew the time base by at most 100 ppm; Ethernet ports come up, go down and answer
frames. PORT_TRAIN, RETRAIN, TRAIN_PHASE_DONE, TRAIN_PHASE_TIMEOUT, FLIT, NAK, FAST_RETRAIN, CONTROL_FLIT, ETH_AUTONEG_RESTART, ETH_UP, ETH_DOWN,
ETH_FRAME, PTP_MESSAGE. -/
def Obligations.PortsTrainRetryAndRecover : Prop :=
  (∀ (s : State) (n : Fin 48), s.block.mayTrain n = true →
    (s.block.portState n = 0 → Does (.portTrain n) s (fun b' => b'.portState n = 1 ∧ (b'.port n).attempt = 1 ∧ (b'.port n).phase = 0 ∧
      (b'.port n).phaseAt = s.block.now ∧ (b'.port n).lanes = b'.portLanes n ∧
      b'.portMode n = (s.block.fld (portPage n) 0x040 1 1 == 1, s.block.fld (portPage n) 0x040 2 2) ∧
      RegsKeptBut s.block b' [(portPage n, 0x044)] ∧ MemoryKept s.block b' ∧ UnitsKept s.block b')) ∧
    Does (.retrain n) s (fun b' => b'.portState n = 1 ∧ (b'.port n).attempt = 1 ∧ (b'.port n).phase = 0 ∧ b'.fld (portPage n) 0x014 2 1 = 1 ∧
      b'.portMode n = (s.block.fld (portPage n) 0x040 1 1 == 1, s.block.fld (portPage n) 0x040 2 2) ∧
      MemoryKept s.block b' ∧ UnitsKept s.block b')) ∧
  (∀ (s : State) (n : Fin 48) (lanes : BitVec 2) (partnerEnc : Bool), s.block.mayTrain n = true → s.block.portEth n = false →
    (s.block.portState n = 1 → (s.block.port n).lanes &&& lanes ≠ 0 → (s.block.port n).phase < 3 →
      Does (.trainPhaseDone n lanes partnerEnc) s (fun b' => (b'.port n).phase = (s.block.port n).phase + 1 ∧
        (b'.port n).lanes = (s.block.port n).lanes &&& lanes ∧ (b'.port n).phaseAt = s.block.now ∧ b'.regs = s.block.regs ∧ MemoryKept s.block b' ∧ UnitsKept s.block b')) ∧
    (s.block.portState n = 1 → (s.block.port n).lanes &&& lanes ≠ 0 → 3 ≤ (s.block.port n).phase → (s.block.port n).sendQ = [] →
      Does (.trainPhaseDone n lanes partnerEnc) s (fun b' =>
        (if s.block.portEnc n = partnerEnc then
          b'.portState n = (if partnerEnc then 2 else 3) ∧ (b'.port n).credit = [384, 384, 192, 64] ∧ (b'.port n).txSeq = 0 ∧
          (b'.port n).rxSeq = 4095 ∧ (partnerEnc = true → (b'.port n).fabric = s.block.haw.fabric ∧ (b'.port n).keys = Keys.none) ∧
          (partnerEnc = false → b'.fld (portPage n) 0x044 3 2 = ((s.block.port n).lanes &&& lanes).toNat)
        else (s.block.port n).attempt < 3 → b'.portState n = 1 ∧ (b'.port n).attempt = (s.block.port n).attempt + 1) ∧
        MemoryKept s.block b' ∧ UnitsKept s.block b')) ∧
    ((s.block.portState n = 1 ∨ s.block.portState n = 2) →
      (s.block.port n).phaseAt + phaseBound (s.block.portState n == 2) (s.block.port n).phase ≤ s.block.now →
      Does (.trainPhaseTimeout n) s (fun b' =>
      (if (s.block.port n).attempt < 3 then b'.portState n = 1 ∧ (b'.port n).attempt = (s.block.port n).attempt + 1 ∧ (b'.port n).phase = 0
        else b'.portState n = 5 ∧ b'.fld (portPage n) 0x014 0 1 = 1 ∧ (b'.port n).sendQ = [] ∧
          b'.reg64 (portPage n) 0x088 = (s.block.reg64 (portPage n) 0x088 + (s.block.port n).sendQ.length) % 2 ^ 64) ∧
      MemoryKept s.block b' ∧ UnitsKept s.block b'))) ∧
  (∀ (s : State) (n : Fin 48) (f : Flit), s.block.portUp n = true → s.block.portEth n = false →
    ((crc32c (flitBytes f)).toNat = f.crc → f.ftype = 0 → f.rsv = 0 → f.credit.length = 4 → f.seq = ((s.block.port n).rxSeq + 1) % 4096 →
      Does (.flit n f false) s (fun b' => (b'.port n).rxSeq = f.seq ∧ (b'.port n).dropping = false ∧
        ((s.block.port n).sendQ = [] → (b'.port n).replay = ((s.block.takeAck n f.ack).port n).replay) ∧ MemoryKept s.block b' ∧
        UnitsKept s.block b')) ∧
    ((crc32c (flitBytes f)).toNat ≠ f.crc → (s.block.port n).dropping = false →
      Does (.flit n f false) s (fun b' => b'.port n = { s.block.port n with dropping := true } ∧
        b'.reg64 (portPage n) 0x080 = (s.block.reg64 (portPage n) 0x080 + 1) % 2 ^ 64 ∧
        Sent b' (.flit n 2 [(s.block.port n).rxSeq, 1, 0, 0, 0, 0] []) ∧ MemoryKept s.block b' ∧ UnitsKept s.block b')) ∧
    ((s.block.port n).dropping = false → Does (.flit n f true) s (fun b' => b'.port n = { s.block.port n with dropping := true } ∧
      b'.reg64 (portPage n) 0x078 = (s.block.reg64 (portPage n) 0x078 + 1) % 2 ^ 64 ∧ MemoryKept s.block b' ∧ UnitsKept s.block b'))) ∧
  (∀ (s : State) (n : Fin 48) (ack : Nat), s.block.portUp n = true → s.block.portEth n = false →
    Does (.nak n ack) s (fun b' =>
      let x := (s.block.takeAck n ack).port n
      (if 8 ≤ x.replays then b'.portState n = 4 ∧ b'.fld (portPage n) 0x014 2 1 = 1
        else b'.port n = { x with replays := x.replays + 1 } ∧ b'.portState n = 3 ∧
          ∀ q ∈ x.replay, Out.flit n 0 [q.1, q.2.1] q.2.2 ∈ b'.out) ∧ MemoryKept s.block b' ∧ UnitsKept s.block b')) ∧
  (∀ (s : State) (n : Fin 48), s.block.portState n = 4 →
    Does (.fastRetrain n true) s (fun b' => b'.portState n = 3 ∧ (b'.port n).replays = 0 ∧ (b'.port n).fastFails = 0 ∧
      (∀ q ∈ (s.block.port n).replay, Out.flit n 0 [q.1, q.2.1] q.2.2 ∈ b'.out) ∧ MemoryKept s.block b') ∧
    Does (.fastRetrain n false) s (fun b' =>
      (if (s.block.port n).fastFails < 2 then b'.portState n = 4 ∧ (b'.port n).fastFails = (s.block.port n).fastFails + 1
        else b'.portState n = 5 ∧ (b'.port n).sendQ = []) ∧ MemoryKept s.block b')) ∧
  (∀ (s : State) (n : Fin 48) (sample : Int) (delay : Nat), s.block.portUp n = true →
    (s.block.portEth n = false → Does (.controlFlit n sample delay) s (fun b' => b'.slew = max (-100000) (min 100000 sample) ∧
      b'.port n = { s.block.port n with delay := delay } ∧ b'.regs = s.block.regs ∧ MemoryKept s.block b' ∧ UnitsKept s.block b')) ∧
    (s.block.portEth n = true → Does (.ptpMessage n sample) s (fun b' => b'.slew = max (-100000) (min 100000 sample) ∧
      b'.regs = s.block.regs ∧ MemoryKept s.block b' ∧ UnitsKept s.block b'))) ∧
  (∀ (s : State) (n : Fin 48), s.block.portEth n = true →
    (∀ t, (s.block.port n).ethSince = some t → s.block.portOn n = true → s.block.portState n = 1 → t + 1000000000 ≤ s.block.now →
      Does (.ethAutonegRestart n) s (fun b' => b'.port n = { s.block.port n with ethSince := some s.block.now, ethTold := true } ∧
        ((s.block.port n).ethTold = false → b'.fld (portPage n) 0x014 6 1 = 1) ∧ b'.portState n = 1 ∧ MemoryKept s.block b' ∧ UnitsKept s.block b')) ∧
    (s.block.mayTrain n = true → s.block.portState n = 1 →
      Does (.ethUp n) s (fun b' => b'.portState n = 3 ∧ b'.fld (portPage n) 0x014 7 1 = 1 ∧ (b'.port n).ethSince = none ∧
        b'.fld (portPage n) 0x044 3 2 = (s.block.portLanes n).toNat ∧ MemoryKept s.block b' ∧ UnitsKept s.block b')) ∧
    (s.block.portState n = 3 →
      Does (.ethDown n) s (fun b' => b'.portState n = 1 ∧ b'.fld (portPage n) 0x014 6 1 = 1 ∧ (b'.port n).ethSince = some s.block.now ∧
        (∀ q ∈ b'.flows, q.2.fields.port = n.val → q.2.queue = []) ∧
        (FlowsEmpty s.block → ∀ p, p < 64 → (b'.shard p).sent = (s.block.shard p).sent) ∧
        MemoryKept s.block b' ∧ UnitsKept s.block b') ∧
      ∀ kind bytes, Does (.ethFrame n kind bytes) s (fun b' =>
        (∀ k, bytes.length ≤ 9216 → ethAnswer kind = some k → Sent b' (.ethernet n k bytes) ∧ b'.regs = s.block.regs) ∧
        ((9216 < bytes.length ∨ kind = .other ∨ kind = .ipFragment) →
          b'.reg64 (portPage n) 0x090 = (s.block.reg64 (portPage n) 0x090 + 1) % 2 ^ 64) ∧ MemoryKept s.block b' ∧ UnitsKept s.block b')))

/-- R410, R413 to R421, R428, R429: a frame for the module is written or reduced where a window admits it, and refused and counted where none does; one for another module leaves by the
table's port with its lifetime reduced, or is dropped and counted; a QUEUE frame enters its queue; the last frame of a whole message lets its arrival signal its semaphore; a
consumer takes a queue's first frame; expired frames are dropped and counted; flows and windows are as the mailbox sets them. FRAME, ARRIVAL_SIGNAL, QUEUE_DROP_PKT, FRAME_EXPIRED,
FLOW_ADD, FLOW_RATE, FLOW_WITHDRAW, WINDOW_SET. -/
def Obligations.FramesLandForwardAndExpire : Prop :=
  (∀ (s : State) (n : Fin 48) (f g : Frame) (residence : Nat) (b1 : Block), s.block.portUp n = true → s.block.portEth n = false →
    frameFormed f = true →
    ((s.block.add64 (portPage n) 0x058 1).add64 (portPage n) 0x068 f.payload.length).openFrame n f = (b1, some g) → g.hdr.destPart < 64 →
    (∀ w q da, g.hdr.destMod = b1.moduleId n → g.hdr.kind < 2 → (b1.grant g.hdr.destPart).loaded = true →
      b1.windowFor g.hdr.destPart g = some w → streamAfter (b1.streamOf n g.hdr) g.hdr = (q, false) → 1 ≤ g.payload.length →
      LiesAt b1 g.hdr.destPart g.hdr.dstAddr g.payload.length true da → LiesAt b1 g.hdr.destPart g.hdr.dstAddr g.payload.length false da →
      Does (.frame n f residence) s (fun b' =>
        b'.bytes da g.payload.length = (if g.hdr.kind = 0 then g.payload
          else reduceBytes g.hdr.red (s.block.bytes da g.payload.length) g.payload) ∧
        MemoryKeptBut s.block b' da (da + g.payload.length) ∧ b'.sems = s.block.sems ∧ b'.streamOf n g.hdr = q ∧
        (g.hdr.last = true → ∃ a, (b'.port n).arrivals = (s.block.port n).arrivals ++ [a] ∧ a.srcMod = g.hdr.srcMod ∧ a.srcPart = g.hdr.srcPart))) ∧
    (g.hdr.destMod = b1.moduleId n → g.hdr.kind < 2 → (b1.grant g.hdr.destPart).loaded = true → b1.windowFor g.hdr.destPart g = none →
      Does (.frame n f residence) s (fun b' => MemoryKept s.block b' ∧ b'.sems = s.block.sems ∧
        b'.reg64 (portPage n) 0x098 = (s.block.reg64 (portPage n) 0x098 + 1) % 2 ^ 64 ∧
        b'.fld (partPage g.hdr.destPart) 0x014 10 1 = 1 ∧ (b'.port n).arrivals = (s.block.port n).arrivals)) ∧
    (g.hdr.destMod = b1.moduleId n → g.hdr.kind = 2 → (b1.port n).vc3 = [] → b1.queueOpen g.hdr.dstAddr = true →
      Does (.frame n f residence) s (fun b' => b'.queue g.hdr.dstAddr = s.block.queue g.hdr.dstAddr ++ [g] ∧
        (∀ q, q ≠ g.hdr.dstAddr → b'.queue q = s.block.queue q) ∧ MemoryKept s.block b' ∧ UnitsKept s.block b')) ∧
    (g.hdr.destMod ≠ b1.moduleId n → b1.egressOf n g.hdr.destMod = none →
      Does (.frame n f residence) s (fun b' => b'.reg64 (portPage n) 0x090 = (s.block.reg64 (portPage n) 0x090 + 1) % 2 ^ 64 ∧
        MemoryKept s.block b' ∧ UnitsKept s.block b')) ∧
    (∀ e, g.hdr.destMod ≠ b1.moduleId n → b1.egressOf n g.hdr.destMod = some e → e ≠ n.val → e < 48 → b1.portUp e = true → b1.portEth e = false →
      let used := lifeUsed (residence + (b1.port n).delay)
      (g.hdr.life ≤ used → Does (.frame n f residence) s (fun b' =>
        b'.reg64 (portPage n) 0x088 = (s.block.reg64 (portPage n) 0x088 + 1) % 2 ^ 64 ∧ MemoryKept s.block b' ∧ UnitsKept s.block b')) ∧
      (used < g.hdr.life → b1.portEnc e = false → (b1.port e).sendQ = [] → g.hdr.vc < 4 →
        frameFlits g.payload.length false ≤ (b1.port e).credit.getD g.hdr.vc 0 →
        (b1.port e).replay.length + frameFlits g.payload.length false ≤ 512 →
        Does (.frame n f residence) s (fun b' =>
          Out.frame e (frameBytes { g with hdr := { g.hdr with life := g.hdr.life - used, enc := false, epoch := 0, frameCtr := 0 }, tag := [] })
            ∈ b'.out ∧ (b'.port e).sendQ = [] ∧ MemoryKept s.block b' ∧ UnitsKept s.block b')))) ∧
  (∀ (s : State) (n : Fin 48) (srcMod srcPart i k : Nat) (a : Arrival),
    (s.block.port n).arrivals.findIdx? (fun a => a.srcMod == srcMod && a.srcPart == srcPart) = some i → (s.block.port n).arrivals[i]? = some a →
    a.sem = some k →
    Does (.arrivalSignal n srcMod srcPart) s (fun b' => b'.sem k = s.block.sem k + 1 ∧ (∀ j, j ≠ k → b'.sem j = s.block.sem j) ∧
      (b'.port n).arrivals = (s.block.port n).arrivals.eraseIdx i ∧ MemoryKept s.block b')) ∧
  (∀ (s : State) (q : Fin 3), (∀ m, m < 48 → (s.block.port m).vc3 = []) →
    Does (.queueDropPkt q) s (fun b' => b'.queue q = (s.block.queue q).drop 1 ∧
      (∀ r, r ≠ q.val → b'.queue r = s.block.queue r) ∧ b'.regs = s.block.regs ∧ MemoryKept s.block b' ∧
      UnitsKept s.block b')) ∧
  (∀ (s : State) (n : Fin 48), Does (.frameExpired n) s (fun b' => (∀ x ∈ (b'.port n).sendQ, x.expired s.block.now = false) ∧
    (∀ x ∈ (b'.port n).vc3, x.expired s.block.now = false) ∧
    b'.reg64 (portPage n) 0x088 = (s.block.reg64 (portPage n) 0x088 +
      (((s.block.port n).sendQ ++ (s.block.port n).vc3).filter fun x => x.expired s.block.now).length) % 2 ^ 64 ∧
    MemoryKept s.block b' ∧ UnitsKept s.block b')) ∧
  (∀ (s : State) (rq : Req) (i : Nat) (f : FlowFields) (rate : Nat), rq.by_ = .pf → i < 4096 →
    (flowFormed f = true → (s.block.flow i).used = false → s.block.flowsOf f.session < 64 → s.block.portEth f.port = true →
      Does (.flowAdd rq i f) s (fun b' => b'.flow i = ⟨f, true, 8000 * f.burst, s.block.now, []⟩ ∧ (∀ j, j ≠ i → b'.flow j = s.block.flow j) ∧
        Replied s.block b' rq 0x50 0 [0] ∧ b'.regs = s.block.regs ∧ MemoryKept s.block b' ∧ UnitsKept s.block b')) ∧
    ((s.block.flow i).used = true → 1 ≤ rate → rate ≤ 400000 →
      Does (.flowRate rq i rate) s (fun b' => b'.flow i = { (s.block.flow i).refill s.block.now with fields := { (s.block.flow i).fields with rate := rate } } ∧
        (∀ j, j ≠ i → b'.flow j = s.block.flow j) ∧ Replied s.block b' rq 0x51 0 [0] ∧ b'.regs = s.block.regs ∧ MemoryKept s.block b' ∧
        UnitsKept s.block b')) ∧
    ((s.block.flow i).used = true →
      Does (.flowWithdraw rq i) s (fun b' => (b'.flow i).used = false ∧ (b'.flow i).queue = [] ∧
        ((∀ q ∈ (s.block.flow i).queue, q.mail.type_ = mChunk) →
          (∀ j, j ≠ i → b'.flow j = s.block.flow j) ∧
          (∀ p, p < 64 → (b'.shard p).sent = (s.block.shard p).sent.map (fun c =>
            if ((s.block.flow i).queue.any fun q => q.ofChunk p c.seg && s.block.packetLive q) = true then { c with queued := true } else c)) ∧
          b'.regs = s.block.regs) ∧
        Replied s.block b' rq 0x52 0 [0] ∧ MemoryKept s.block b' ∧ UnitsKept s.block b'))) ∧
  (∀ (s : State) (rq : Req) (p : Fin 64) (w : Nat) (f : WindowFields), (s.block.part p).present = true → (s.block.part p).leaf = true → w < 16 →
    windowFormed f = true → s.block.fnOfLeaf rq.by_ p = true → s.block.resetting p = false →
    Does (.windowSet rq p w f) s (fun b' => b'.reg64 (partPage p) (0x400 + 0x20 * w) = f.base ∧
      b'.reg64 (partPage p) (0x408 + 0x20 * w) = f.len ∧ b'.regN (partPage p) (0x410 + 0x20 * w) = f.ctrl ∧
      b'.regN (partPage p) (0x414 + 0x20 * w) = f.src ∧ b'.regN (partPage p) (0x418 + 0x20 * w) = f.mask ∧
      Replied s.block b' rq 0x53 0 [0] ∧ PagesKeptBut s.block b' [partPage p] ∧ MemoryKept s.block b' ∧ UnitsKept s.block b'))

/-- R422, R423, R432 to R436, R544, R547 to R550: at its threshold, or before its first use, a key's handshake starts with INIT, of which a good one is answered and a bad one raises
HANDSHAKE_FAIL; RESP and CONFIRM install the keys and put them to use; INIT is sent again every 250 ms; a spent key makes its owner wait; the previous key ends with its grace window; an
envelope is opened under the key of its epoch, counted where it fails, and a stale one answered; STALE_EPOCH has its chunk encrypted afresh. HOP_REKEY, REKEYING, KEY_WAIT, GRACE_CLOSE,
HANDSHAKE_INIT, HANDSHAKE_RESP, HANDSHAKE_CONFIRM, HANDSHAKE_RETRY, ENVELOPE, STALE_EPOCH. -/
def Obligations.KeysAgreeRollAndExpire : Prop :=
  (∀ (s : State) (n : Fin 48), Rekeys (.hopRekey n) s (.hop n) (s.block.portState n == 2)) ∧
  (∀ (s : State) (i : Nat), Rekeys (.rekeying i) s (.e2e i) (s.block.session i).fresh) ∧
  (∀ (s : State) (o : KeyOwner) (d : KeyDir), (s.block.keysOf o).send = some d → d.spent s.block.now = true →
    ((s.block.keysOf o).waitSince = none → Does (.keyWait o) s (fun b' => (b'.keysOf o).waitSince = some s.block.now ∧
      (∀ n, o = .hop n → b'.fld (portPage n) 0x014 5 1 = 1) ∧ MemoryKept s.block b' ∧ UnitsKept s.block b')) ∧
    (∀ t i, (s.block.keysOf o).waitSince = some t → o = .e2e i → Does (.keyWait o) s (fun b' =>
      b'.reg64 coachPage 0x088 = (s.block.reg64 coachPage 0x088 + (s.block.now - t) / 1000000) % 2 ^ 64 ∧
      RegsKeptBut s.block b' [(coachPage, 0x088), (coachPage, 0x08C)] ∧ MemoryKept s.block b' ∧ UnitsKept s.block b'))) ∧
  (∀ (s : State) (o : KeyOwner) (t : Nat), (s.block.keysOf o).graceEnd = some t → (t ≤ s.block.now ∨ (s.block.keysOf o).graceLeft = 0) →
    Does (.graceClose o) s (fun b' => b'.keysOf o = { s.block.keysOf o with prevRecv := none, graceEnd := none, graceLeft := 0 } ∧
      MemoryKept s.block b' ∧ UnitsKept s.block b')) ∧
  (∀ (s : State) (o : KeyOwner) (m : KeyMsg), m.ktype = 1 → s.block.mayShake o = true → (s.block.keysOf o).init ≠ keyMsgBytes m →
    let good := Config.falconVerify m.pubKey (keyMsgBody 1 m.newEpoch m.fresh m.sessionId m.random m.kem m.pubKey) m.signature &&
      s.block.peerKnown o m.pubKey
    (good = false → Does (.handshakeInit o m) s (fun b' => b'.keysOf o = s.block.keysOf o ∧ b'.fld hawPage 0x014 3 1 = 1 ∧
      b'.reg64 hawPage 0x070 = (s.block.reg64 hawPage 0x070 + 1) % 2 ^ 64 ∧ MemoryKept s.block b' ∧ UnitsKept s.block b')) ∧
    (good = true → (m.fresh = true ∨ ∃ d, (s.block.keysOf o).recv = some d ∧ m.newEpoch = (d.epoch + 1) % 256) → (s.block.keysOf o).busy = false →
      Does (.handshakeInit o m) s (fun b' => (b'.keysOf o).busy = true ∧ (b'.keysOf o).mine = false ∧ (b'.keysOf o).newEpoch = m.newEpoch ∧
        (b'.keysOf o).init = keyMsgBytes m ∧ (∃ d, (b'.keysOf o).ready = some d ∧ d.epoch = m.newEpoch) ∧
        (∃ d, (b'.keysOf o).recv = some d ∧ d.epoch = m.newEpoch) ∧ (∃ c, Sent b' (.handshake 3 [ownerCode o, m.newEpoch] c)) ∧
        b'.shakeOut o 2 m.newEpoch (b'.keysOf o).resp ∈ b'.out ∧ MemoryKept s.block b' ∧ UnitsKept s.block b'))) ∧
  (∀ (s : State) (o : KeyOwner) (m : KeyMsg), m.ktype = 2 → (s.block.keysOf o).busy = true → (s.block.keysOf o).mine = true →
    (s.block.keysOf o).resp = [] → m.newEpoch = (s.block.keysOf o).newEpoch → s.block.mayShake o = true →
    Does (.handshakeResp o m) s (fun b' =>
      let k := s.block.keysOf o
      (if Config.falconVerify m.pubKey (keyMsgBody 2 m.newEpoch m.fresh m.sessionId m.random m.kem m.pubKey ++ k.init) m.signature = true ∧
          s.block.peerKnown o m.pubKey = true then
        let kv := (shakeKeys o k.init (keyMsgBytes m) (Config.kemDecaps k.seed m.kem)).1
        (b'.keysOf o).resp = keyMsgBytes m ∧ (b'.keysOf o).ready = some ⟨k.newEpoch, kv.take 32, (kv.drop 64).take 4, 0, none⟩ ∧
        (b'.keysOf o).recv = some ⟨k.newEpoch, (kv.drop 32).take 32, (kv.drop 68).take 4, 0, none⟩
      else b'.keysOf o = k ∧ b'.fld hawPage 0x014 3 1 = 1) ∧ MemoryKept s.block b' ∧ UnitsKept s.block b')) ∧
  (∀ (s : State) (o : KeyOwner) (m : KeyMsg) (d : KeyDir), (s.block.keysOf o).ready = some d → m.ktype = 3 →
    m.newEpoch = (s.block.keysOf o).newEpoch → s.block.debugOpen = false → (∀ n, o = .hop n → (s.block.port n).sendQ = []) →
    (∀ i, o = .e2e i → ∀ x ∈ s.block.mail, x.session ≠ i) →
    Does (.handshakeConfirm o m) s (fun b' =>
      (if m.random = (s.block.keysOf o).expect then
        (b'.keysOf o).send = some d ∧ (b'.keysOf o).ready = none ∧ (b'.keysOf o).prevSend = (s.block.keysOf o).send ∧
        (b'.keysOf o).busy = false ∧ (b'.keysOf o).waitSince = none ∧
        b'.reg64 hawPage 0x068 = (s.block.reg64 hawPage 0x068 + 1) % 2 ^ 64 ∧ (∀ n, o = .hop n → b'.fld (portPage n) 0x014 4 1 = 1)
      else b'.keysOf o = s.block.keysOf o ∧ b'.fld hawPage 0x014 3 1 = 1) ∧ MemoryKept s.block b' ∧ UnitsKept s.block b')) ∧
  (∀ (s : State) (o : KeyOwner), (s.block.keysOf o).busy = true → (s.block.keysOf o).mine = true → (s.block.keysOf o).resp = [] →
    (s.block.keysOf o).sentAt + 250000000 ≤ s.block.now → s.block.ownerLive o = true →
    Does (.handshakeRetry o) s (fun b' => b'.keysOf o = { s.block.keysOf o with sentAt := s.block.now } ∧
      Sent b' (s.block.shakeOut o 1 (s.block.keysOf o).newEpoch (s.block.keysOf o).init) ∧ MemoryKept s.block b' ∧ UnitsKept s.block b')) ∧
  (∀ (s : State) (n : Fin 48) (e : Envelope), s.block.portEth n = true → s.block.portUp n = true → e.rsv = 0 → (e.etype = 1 ∨ e.etype = 2) →
    (s.block.sessions.find? (fun q => q.2.idIn == e.sessionId && q.2.recv.isSome) = none → Does (.envelope n e) s (fun b' =>
      b'.reg64 coachPage 0x068 = (s.block.reg64 coachPage 0x068 + 1) % 2 ^ 64 ∧ b'.sessions = s.block.sessions ∧ MemoryKept s.block b' ∧
      UnitsKept s.block b')) ∧
    (∀ i k, s.block.sessions.find? (fun q => q.2.idIn == e.sessionId && q.2.recv.isSome) = some (i, k) →
      (∀ d, k.forEpoch s.block.now e.epoch = some d → Does (.envelope n e) s (fun b' =>
        (match Config.gcmOpen d.key (nonceOf d e.counter) (envHead e.etype e.epoch e.sessionId e.counter) e.body e.tag with
          | none => b'.reg64 coachPage 0x068 = (s.block.reg64 coachPage 0x068 + 1) % 2 ^ 64 ∧ b'.sessions = s.block.sessions
          | some _ => b'.session i = k.tookUse s.block.now e.epoch s.block.graceMs s.block.graceLog ∧ b'.regs = s.block.regs) ∧
        MemoryKept s.block b' ∧ UnitsKept s.block b')) ∧
      (∀ c, k.forEpoch s.block.now e.epoch = none → k.recv = some c → Does (.envelope n e) s (fun b' =>
        let ahead := (e.epoch + 256 - c.epoch % 256) % 256
        (if 1 ≤ ahead ∧ ahead < 128 then b'.reg64 coachPage 0x080 = (s.block.reg64 coachPage 0x080 + 1) % 2 ^ 64 ∧ b'.out = s.block.out
          else ∀ p q kd j, s.block.sessionPartner i = some (p, q) →
            Posts s.block ⟨p, q.site, i, 0, 0, [e.epoch, e.counter], [], 16⟩ kd j →
            b'.reg64 coachPage 0x070 = (s.block.reg64 coachPage 0x070 + 1) % 2 ^ 64 ∧
            Sent b' (s.block.datagram (s.block.flow j).fields ⟨p, q.site, i, 0, 0, [e.epoch, e.counter], [], 16⟩ kd.epoch kd.counter)) ∧
        MemoryKept s.block b' ∧ UnitsKept s.block b')))) ∧
  (∀ (s : State) (session epoch counter p : Nat) (q q' : Partner) (c : SentChunk) (k : KeyDir),
    s.block.sessionPartner session = some (p, q) → s.block.exchState p = 3 → (s.block.shard p).stopped = false →
    q.site = s.block.leaderOf p (s.block.round p) → s.block.partnerAt p q.site = some q' →
    (s.block.shard p).sent.find? (fun c => !c.acked && c.epoch == epoch && decide (c.counter ≤ counter) &&
      decide (counter < c.counter + ceilDiv (544 * (s.block.desc p).segLen c.seg) 8192)) = some c →
    (s.block.session session).send = some k → k.spent s.block.now = false →
    k.counter + (s.block.chunkMails p q'.site session c.seg).length ≤ 2 ^ 32 →
    Does (.staleEpoch session epoch counter) s (fun b' =>
      (b'.shard p).sent = (s.block.shard p).sent.map (fun d =>
        if d.seg = c.seg then ⟨c.seg, k.epoch, k.counter, c.flow, s.block.now, false, false⟩ else d) ∧
      (s.block.chunkFlow p c.flow = some (q'.site, session) → (s.block.flow c.flow).queue = [] →
        ChunkGoes s.block b' (s.block.chunkMails p q'.site session c.seg) c.flow k.epoch k.counter) ∧
      b'.reg64 coachPage 0x078 = (s.block.reg64 coachPage 0x078 + 1) % 2 ^ 64 ∧ MemoryKept s.block b' ∧ b'.sems = s.block.sems))
/-- R237, R440 to R442, R444, R446, R450, R451, R455, R463, R471: a missed bound is counted, raised and answered by a recovery in the enclosing domain; the runtime's report ends a recovery; a
field fault zeroes the field's yard and bays and retires the arrays that fail its test; a poisoned channel serves again with every granule marked; a neighbour or keeper not heard for a
second is reported once. BOUND_MISSED, REC_RELAID, FIELD_FAULT, POISON_FILL_DONE, MODULE_LOST, KEEPER_LOST. -/
def Obligations.RecoveriesEndEscalateAndTell : Prop :=
  (∀ (s : State) (d : Domain) (r : Recovery) (t : Nat), r ∈ s.block.recs → r.domain = d → r.deadline = some t → t ≤ s.block.now →
    Does (.boundMissed d) s (fun b' => b'.fld recPage 0x014 2 1 = 1 ∧
      b'.reg64 recPage 0x078 = (s.block.reg64 recPage 0x078 + 1) % 2 ^ 64 ∧ b'.recOpen (enclosing d) = true ∧
      (enclosing d ≠ d → b'.recOpen d = false) ∧ MemoryKept s.block b' ∧ UnitsKept s.block b')) ∧
  (∀ (s : State) (rq : Req) (d : Domain), rq.by_ = .pf → relaidDomain d = true → s.block.recOpen d = true →
    Does (.recRelaid rq d) s (fun b' => b'.recOpen d = false ∧ b'.fld recPage 0x014 0 1 = 1 ∧
      (∀ p ∈ s.block.affected d, b'.fld (partPage p) 0x0C4 2 1 = 0) ∧ b'.reg64 recPage 0x060 = s.block.now % 2 ^ 64 ∧
      Replied s.block b' rq 0x44 0 [0] ∧ MemoryKept s.block b' ∧ UnitsKept s.block b')) ∧
  (∀ (s : State) (f : Fin 4) (pass : Bool) (failing : List (Fin 32)), (∀ i, i < 32 → (s.block.arr (32 * f + i)).lentTo = none) →
    Gives (.fieldFault f pass failing) s (fun t =>
      t.nv.retired = s.nv.retired ||| BitVec.ofNat 128
        ((((List.range 32).map (32 * f.val + ·)).filter fun a => !pass || failing.any fun i => 32 * f.val + i.val == a).map (2 ^ ·)).sum ∧
      t.nv.fuses = s.nv.fuses ∧ t.nv.flash = s.nv.flash ∧ t.pending = s.pending ∧
      (∀ i : Fin 32, (pass = false ∨ i ∈ failing) → t.block.arrayState (32 * f + i) = 3) ∧
      (∀ a, regionBase .yard + f * yardSize ≤ a → a < regionBase .yard + (f + 1) * yardSize → t.block.byte a = 0) ∧
      (∀ a, regionBase .bay + 32 * f * baySize ≤ a → a < regionBase .bay + 32 * (f + 1) * baySize → t.block.byte a = 0) ∧
      (∀ a, a < regionBase .bay → t.block.byte a = s.block.byte a) ∧ t.block.sems = s.block.sems)) ∧
  (∀ (s : State) (t : Tier) (k : Fin 32), (s.block.mc t k).filling = true → s.block.memQ = [] →
    Does (.poisonFillDone t k) s (fun b' => (b'.mc t k).filling = false ∧ b'.mcState t k = 2 ∧
      (∀ g, g < chanGranules t → b'.marked (chanAddr t k (64 * g) / 64) = true) ∧ b'.mem = s.block.mem ∧ b'.sems = s.block.sems)) ∧
  (∀ (s : State) (p : Fin 64),
    (s.block.keeps p = true → (s.block.run p).keep.keptGone = false → (s.block.run p).keep.keptHeard + 1000000000 ≤ s.block.now →
      Does (.moduleLost p) s (fun b' => (b'.run p).keep = { (s.block.run p).keep with keptGone := true } ∧
        b'.fld recPage 0x014 3 1 = 1 ∧ MemoryKept s.block b' ∧ UnitsKept s.block b')) ∧
    (s.block.exports p = true → (s.block.run p).keep.keeperGone = false → (s.block.run p).keep.keeperHeard + 1000000000 ≤ s.block.now →
      Does (.keeperLost p) s (fun b' => (b'.run p).keep = { (s.block.run p).keep with keeperGone := true } ∧
        b'.fld recPage 0x014 4 1 = 1 ∧ MemoryKept s.block b' ∧ UnitsKept s.block b')))

/-- R457 to R467, R471: the keeper acknowledges a whole generation and reports a gap, the sender keeps the acknowledged one, and both sides are heard by their beats; KEEPER_SET names keeper and
kept neighbour in the leaf's registers; REBUILD binds the leaf, asks its keeper and waits in JOIN; the keeper streams its area, header first; each block whose leaf admits it is
written and struck off, and the last one ends the rebuild at the keeper's step and the record's round. SHADOW_ARRIVAL, SHADOW_ACK, SHADOW_HEARTBEAT, KEEPER_SET, REBUILD,
REBUILD_REQ, REBUILD_BLOCK, REBUILD_DONE. -/
def Obligations.KeepersHoldAndRebuild : Prop :=
  (∀ (s : State) (p : Fin 64) (gen : Word), s.block.keeps p = true →
    Does (.shadowArrival p gen false) s (fun b' => b'.reg (partPage p) 0x63C = gen ∧ (b'.run p).keep.keptHeard = s.block.now ∧
      Sent b' (.queueMsg msgShadowAck (s.block.fld (partPage p) 0x608 0 30) [gen.toNat]) ∧ RegsKeptBut s.block b' [(partPage p, 0x63C)] ∧
      MemoryKept s.block b' ∧ UnitsKept s.block b') ∧
    Does (.shadowArrival p gen true) s (fun b' => b'.reg (partPage p) 0x63C = s.block.reg (partPage p) 0x63C ∧
      (b'.run p).keep.keptHeard = s.block.now ∧ b'.fld recPage 0x014 8 1 = 1 ∧ MemoryKept s.block b' ∧ UnitsKept s.block b') ∧
    Does (.shadowHeartbeat p false) s (fun b' => (b'.run p).keep.keptHeard = s.block.now ∧ (b'.run p).keep.keptGone = false ∧
      Sent b' (.queueMsg msgBeat (s.block.fld (partPage p) 0x608 0 30) []) ∧ b'.regs = s.block.regs ∧ MemoryKept s.block b' ∧
      UnitsKept s.block b')) ∧
  (∀ (s : State) (p : Fin 64) (gen : Word), s.block.exports p = true →
    Does (.shadowAck p gen) s (fun b' => b'.reg (partPage p) 0x638 = gen ∧ (b'.run p).keep.keeperHeard = s.block.now ∧
      RegsKeptBut s.block b' [(partPage p, 0x638)] ∧ MemoryKept s.block b' ∧ UnitsKept s.block b') ∧
    Does (.shadowHeartbeat p true) s (fun b' => (b'.run p).keep.keeperHeard = s.block.now ∧
      Sent b' (.queueMsg msgBeat (s.block.fld (partPage p) 0x604 0 30) []) ∧ b'.regs = s.block.regs ∧ MemoryKept s.block b' ∧
      UnitsKept s.block b')) ∧
  (∀ (s : State) (rq : Req) (p : Fin 64) (k : KeeperArgs), rq.by_ = .pf → (s.block.part p).present = true → (s.block.part p).leaf = true →
    keeperFormed k = true → s.block.resetting p = false →
    Does (.keeperSet rq p k) s (fun b' => b'.exports p = k.shadowEn ∧ b'.keeps p = k.keepEn ∧ b'.fld (partPage p) 0x600 8 6 = k.momPeriod - 1 ∧
      b'.regN (partPage p) 0x604 = k.keeperMod ∧ b'.regN (partPage p) 0x608 = k.keptMod ∧ b'.reg64 (partPage p) 0x610 = k.shadowBase ∧
      b'.reg64 (partPage p) 0x618 = k.keeperArea ∧ b'.reg64 (partPage p) 0x620 = k.keptArea ∧ b'.reg64 (partPage p) 0x628 = k.g0 ∧
      b'.regN (partPage p) 0x630 = k.nblk ∧ Replied s.block b' rq 0x43 0 [0] ∧ PagesKeptBut s.block b' [partPage p] ∧ MemoryKept s.block b' ∧
      UnitsKept s.block b')) ∧
  (∀ (s : State) (rq : Req) (p : Fin 64) (desc staging keeper keeperRate partnerRate : Nat) (b1 : Block), rq.by_ = .pf →
    (s.block.grant p).loaded = true → s.block.exchState p = 0 → s.block.resetting p = false → keeper < 2 ^ 30 →
    s.block.bindRebuild p desc = (b1, true) →
    Does (.rebuild rq p desc staging keeper keeperRate partnerRate) s (fun b' =>
      b'.rebuildOf p = ⟨true, staging, keeper, none, List.range (b1.desc p).nblk, []⟩ ∧ b'.exchState p = 11 ∧
      (b'.shard p).desc = (b1.shard p).desc ∧ Out.queueMsg msgRebuildReq keeper [p.val] ∈ b'.out ∧ b'.recOpen .deviceLost = true ∧
      b'.reg64 recPage 0x080 = (s.block.reg64 recPage 0x080 + 1) % 2 ^ 64 ∧ Replied s.block b' rq 0x42 0 [0] ∧ MemoryKept s.block b' ∧
      UnitsKept s.block b')) ∧
  (∀ (s : State) (p : Fin 64), s.block.keeps p = true →
    Does (.rebuildReq p) s (fun b' =>
      let base := s.block.reg64 (partPage p) 0x620
      let dest := s.block.fld (partPage p) 0x608 0 30
      let head := (s.block.peekM p base 64).2
      let n := fieldOf (ofBytes (raw head)) 96 27
      let len := keeperBytes n - 64
      Out.shadow dest 0 (n == 0) (anyMark head) (raw head) ∈ b'.out ∧
      (∀ i, i < ceilDiv len 8192 →
        let m := min 8192 (64 + len - (64 + 8192 * i))
        let bs := (s.block.peekM p (base + (64 + 8192 * i)) m).2
        Out.shadow dest (64 + 8192 * i) (64 + 8192 * i + m == 64 + len) (anyMark bs) (raw bs) ∈ b'.out) ∧
      MemoryKept s.block b' ∧ UnitsKept s.block b')) ∧
  (∀ (s : State) (p : Fin 64) (g : Nat) (anchor : List Byte), (s.block.rebuildOf p).active = true →
    ((s.block.rebuildOf p).channel ≠ none ∨ ((s.block.shard p).incoming ≠ none ∧ (s.block.shard p).wantNodes = [])) →
    (s.block.desc p).g0 ≤ g → g - (s.block.desc p).g0 ∈ (s.block.rebuildOf p).left → anchor.length = 4096 →
    s.block.leafAdmits p (g - (s.block.desc p).g0) anchor = true →
    Does (.rebuildBlock p g anchor) s (fun b' =>
      (b'.rebuildOf p).left = (s.block.rebuildOf p).left.filter (· != g - (s.block.desc p).g0) ∧
      (b'.shard p).wantBlocks = (s.block.shard p).wantBlocks.filter (· != g - (s.block.desc p).g0) ∧
      b'.mem = (s.block.rebuildOne p (g - (s.block.desc p).g0) anchor).mem ∧ b'.sems = s.block.sems)) ∧
  (∀ (s : State) (p : Fin 64) (step round : Word) (m : Manifest), (s.block.rebuildOf p).active = true → (s.block.rebuildOf p).left = [] →
    (s.block.rebuildOf p).channel = none → (s.block.shard p).incoming = some m → s.block.exchState p = 11 → m.round = round.toNat →
    Does (.rebuildDone p step round) s (fun b' => b'.rebuildOf p = Rebuild.none ∧ b'.exchState p = 1 ∧ b'.reg (partPage p) 0x280 = step ∧
      b'.anchorRound p = round.toNat ∧ b'.round p = (round.toNat + 1) % 2 ^ 32 ∧ (b'.shard p).record = some m ∧
      b'.fld recPage 0x014 5 1 = 1))

/-- R475 to R481, R495, R496, R502: a record that meets every check makes a top-level partition with the lowest free virtual function, or one below an interior parent, whose units' domains are
ready; RESIZE gives a partition a new record and releases the rest, DESTROY takes an interior partition away at once and a leaf once it is zeroed, and QUERY writes record and status to
the result address; ZEROING_DONE zeroes what was released and replies. PART_CREATE, PART_RESIZE, PART_DESTROY, PART_QUERY, ZEROING_DONE. -/
def Obligations.PartitionsAreMadeAndTaken : Prop :=
  (∀ (s : State) (rq : Req) (record : Src) (h : Holding), let w := s.block.recordArg record
    let r := recOf w
    recClean w = true → (s.block.part r.id).present = false →
    (∀ d, d < 16 → fieldOf h.arrays.toNat (8 * d) 8 = 0 ∨ s.block.domainReady d = true) →
    (∀ v, r.parent = 127 → rq.by_ = .pf → rq.mbx.val < 32 → (List.range 16).find? (fun v => (s.block.partOfVf v).isNone) = some v →
      s.block.holdOf none r = some h → s.block.fits none none r h = true →
      Does (.partCreate rq record) s (fun b' => b'.part r.id =
          { present := true, leaf := r.leaf, parent := 127, depth := 1, top := r.id, vf := some v, view := none, record := w, hold := h } ∧
        (r.leaf = true → b'.partState r.id = 1) ∧ Replied s.block b' rq 0x20 0 [BitVec.ofNat 32 v] ∧
        (∀ q, q ≠ r.id → b'.part q = s.block.part q) ∧ MemoryKept s.block b' ∧ UnitsKept s.block b')) ∧
    (r.parent ≠ 127 → s.block.mayManage rq r.parent = true → (s.block.part r.parent).present = true → (s.block.part r.parent).depth < 4 →
      (s.block.part r.parent).leaf = false → s.block.holdOf (s.block.callerView rq.by_) r = some h →
      s.block.fits (some r.parent) none r h = true →
      Does (.partCreate rq record) s (fun b' => b'.part r.id =
          { present := true, leaf := r.leaf, parent := r.parent, depth := (s.block.part r.parent).depth + 1,
            top := (s.block.part r.parent).top, vf := none, view := s.block.callerView rq.by_, record := w, hold := h } ∧
        (r.leaf = true → b'.partState r.id = 1) ∧ Replied s.block b' rq 0x20 0 [0] ∧ (∀ q, q ≠ r.id → b'.part q = s.block.part q) ∧
        MemoryKept s.block b' ∧ UnitsKept s.block b'))) ∧
  (∀ (s : State) (rq : Req) (record : Src) (h : Holding), let w := s.block.recordArg record
    let r := recOf w
    let x := s.block.part r.id
    recClean w = true → x.present = true → s.block.mayManage rq r.id = true → x.parent = r.parent → s.block.zeroingOf r.id = none →
    (x.leaf = true → s.block.partState r.id ≤ 2) → s.block.holdOf (s.block.callerView rq.by_) r = some h →
    s.block.covers r.id r h = true → s.block.fits (if x.parent = 127 then none else some x.parent) (some r.id) r h = true →
    (∀ d, d < 16 → fieldOf h.arrays.toNat (8 * d) 8 = 0 ∨ s.block.domainReady d = true) →
    Does (.partResize rq record) s (fun b' => b'.part r.id = { x with view := s.block.callerView rq.by_, record := w, hold := h } ∧
      (∀ q, q ≠ r.id → b'.part q = s.block.part q) ∧
      (if x.leaf = true then b'.zeroing = s.block.zeroing ++ [⟨rq, 0x21, r.id, x.hold.minus h, false, false⟩]
        else Replied s.block b' rq 0x21 0 [0]) ∧ MemoryKept s.block b' ∧ UnitsKept s.block b')) ∧
  (∀ (s : State) (rq : Req) (id : Nat), id < 112 → (s.block.part id).present = true → s.block.mayManage rq id = true →
    (s.block.children id = [] → (s.block.part id).leaf = false →
      Does (.partDestroy rq id) s (fun b' => b'.part id = Machine.Part.none ∧ (∀ q, q ≠ id → b'.part q = s.block.part q) ∧
        Replied s.block b' rq 0x22 0 [0] ∧ MemoryKept s.block b' ∧ UnitsKept s.block b')) ∧
    (id < 64 → s.block.children id = [] → (s.block.part id).leaf = true → s.block.partState id = 1 → s.block.zeroingOf id = none →
      Does (.partDestroy rq id) s (fun b' => b'.partState id = 3 ∧
        b'.zeroing = s.block.zeroing ++ [⟨rq, 0x22, id, Holding.none, false, true⟩] ∧ b'.parts = s.block.parts ∧ MemoryKept s.block b' ∧
        UnitsKept s.block b')) ∧
    (∀ result, id < 64 → (s.block.part id).leaf = true → s.block.resetting id = false → result < 2 ^ 63 →
      Does (.partQuery rq id result) s (fun b' =>
        storeGetList memDefault b'.hostMem result 184 =
          toBytes 128 (s.block.part id).record.toNat ++ s.block.regBytes (partPage id) 0x0C0 14 ∧
        Replied s.block b' rq 0x25 0 [0] ∧ b'.regs = s.block.regs ∧ MemoryKept s.block b' ∧ UnitsKept s.block b'))) ∧
  (∀ (s : State) (p : Fin 64) (j : ZeroJob), s.block.zeroingOf p = some j →
    (j.unload = true → s.block.leafBusy p = false → s.block.fld (partPage p) 0x11C 0 1 = 0 → Does (.zeroingDone p) s (fun b' => b'.partState p = 1 ∧ b'.grant p = Grant.none ∧
      b'.shard p = Shard.none ∧ b'.zeroingOf p = none ∧
      (∀ q ∈ (s.block.grant p).ranges ++ (s.block.grant p).yardRanges, ∀ a, q.1 ≤ a → a < q.2 → b'.byte a = 0) ∧
      Replied s.block b' j.rq j.code 0 [0])) ∧
    (j.unload = false → j.destroy = true → Does (.zeroingDone p) s (fun b' => b'.part p = Machine.Part.none ∧ b'.zeroingOf p = none ∧
      ⟨j.code, j.rq.seq, 0, [0]⟩ ∈ (b'.mbx j.rq.mbx).replies ∧ b'.sems = s.block.sems ∧
      (∀ a ∈ unitsIn (s.block.part p).hold.arrays.toNat 0 128, (b'.arr a).entries = [] ∧ (b'.arr a).slot0 = Slot.none ∧
        (b'.arr a).slot1 = Slot.none ∧ b'.vec a = VecUnit.none))) ∧
    (j.unload = false → j.destroy = false →
      (∀ d, d < 16 → fieldOf (s.block.part p).hold.arrays.toNat (8 * d) 8 = 0 ∨ s.block.domainReady d = true) →
      Does (.zeroingDone p) s (fun b' => b'.parts = s.block.parts ∧ b'.zeroingOf p = none ∧
        (∀ a ∈ unitsIn j.held.arrays.toNat 0 128, (b'.arr a).entries = [] ∧ b'.vec a = VecUnit.none ∧
          ∀ i, i < baySize → b'.byte (regionBase .bay + a * baySize + i) = 0) ∧
        Replied s.block b' j.rq j.code 0 [0] ∧ b'.sems = s.block.sems)))

/-- R197 to R199, R480, R485, R486, R497, R498: a manifest that breaks no rule and has a place becomes the leaf's grant, its tables named on the page, its semaphores zero, its channels its own and
enabled; the first rule broken is answered with its code and detail and changes nothing; UNLOAD stops the leaf's channels and begins the zeroing; a shortfall of bandwidth is shown with the
factor left, counted and raised, and its clearing shows the whole resource again. MANIFEST_LOAD, MANIFEST_UNLOAD, SHORTFALL, SHORTFALL_CLEAR. -/
def Obligations.ManifestsAndShortfalls : Prop :=
  (∀ (s : State) (rq : Req) (p : Fin 64) (arg : Src) (pl : Placement),
    let w : BitVec 2048 := BitVec.ofNat 2048 (ofBytes (s.block.argBytes (some p.val) arg 256))
    let m := manOf w
    s.block.fld devPage 0x040 0 3 = 4 → s.block.partState p ≠ 4 →
    (manClean w = false → Does (.manifestLoad rq p arg pl) s (fun b' => Replied s.block b' rq 0x23 0x01 [0] ∧ b'.grants = s.block.grants ∧
      b'.regs = s.block.regs ∧ MemoryKept s.block b' ∧ UnitsKept s.block b')) ∧
    (manClean w = true → m.version ≠ 1 → Does (.manifestLoad rq p arg pl) s (fun b' =>
      Replied s.block b' rq 0x23 0x02 [BitVec.ofNat 32 m.version] ∧ b'.grants = s.block.grants ∧ b'.regs = s.block.regs ∧ MemoryKept s.block b' ∧
      UnitsKept s.block b')) ∧
    (∀ code detail, manClean w = true → m.version = 1 → s.block.manRefused rq p m pl = some (code, detail) →
      Does (.manifestLoad rq p arg pl) s (fun b' => Replied s.block b' rq 0x23 code [BitVec.ofNat 32 detail] ∧
        b'.grants = s.block.grants ∧ b'.regs = s.block.regs ∧ MemoryKept s.block b' ∧ UnitsKept s.block b')) ∧
    (manClean w = true → m.version = 1 → s.block.manRefused rq p m pl = none → m.seed ≠ 0 →
      Does (.manifestLoad rq p arg pl) s (fun b' => b'.partState p = 2 ∧ (b'.grant p).loaded = true ∧
        (b'.grant p).channels = pl.channels.map (·.val) ∧ (b'.grant p).nearFrames = pl.nearFrames ∧ (b'.grant p).deepFrames = pl.deepFrames ∧
        (b'.grant p).nearBytes = m.near ∧ (b'.grant p).deepBytes = m.deep ∧ (b'.grant p).semBase = pl.semBase ∧
        (b'.grant p).semCount = m.sems ∧ (b'.grant p).counters = m.counters ∧ (b'.grant p).seed = BitVec.ofNat 64 m.seed ∧
        (b'.grant p).loadedAt = s.block.now ∧ (∀ q, q ≠ p.val → b'.grant q = s.block.grant q) ∧
        (∀ i, i < m.sems → b'.sem (pl.semBase + i) = 0) ∧ (∀ c ∈ pl.channels, (b'.chan c).owner = some p.val ∧ b'.chanState c = 1) ∧
        b'.reg64 (partPage p) 0x100 = pl.nearTable % 2 ^ 64 ∧ b'.reg64 (partPage p) 0x110 = pl.deepTable % 2 ^ 64 ∧
        b'.regN (partPage p) 0x108 = pl.nearFrames.length % 2 ^ 32 ∧ Replied s.block b' rq 0x23 0 [0] ∧ b'.drafts = s.block.drafts))) ∧
  (∀ (s : State) (rq : Req) (p : Fin 64), (s.block.part p).present = true → (s.block.part p).leaf = true → s.block.mayManage rq p = true →
    s.block.partState p = 2 → s.block.exchState p = 0 → s.block.fld (partPage p) 0x600 0 2 = 0 → s.block.zeroingOf p = none →
    s.block.hdmOf p = false →
    Does (.manifestUnload rq p) s (fun b' => b'.partState p = 3 ∧
      b'.zeroing = s.block.zeroing ++ [⟨rq, 0x24, p, Holding.none, true, false⟩] ∧
      (∀ c ∈ (s.block.grant p).channels, b'.chanState c = 0) ∧ b'.reg64 (partPage p) 0x0F0 = s.block.grantBytes p % 2 ^ 64 ∧
      b'.grants = s.block.grants ∧ b'.parts = s.block.parts ∧ MemoryKept s.block b' ∧ b'.sems = s.block.sems)) ∧
  (∀ (s : State) (p : Fin 64) (port : Bool) (resource : Nat) (factor : Fin 1025), (s.block.part p).present = true → (s.block.part p).leaf = true →
    factor.val * 64 < 1024 * 63 →
    Does (.shortfall p port resource factor) s (fun b' =>
      b'.fld (partPage p) (if port then 0x0CC else 0x0C8) 0 11 = min (s.block.fld (partPage p) (if port then 0x0CC else 0x0C8) 0 11) factor.val ∧
      b'.fld (partPage p) 0x0C4 (if port then 4 else 3) 1 = 1 ∧
      b'.regN (partPage p) 0x0EC = (s.block.regN (partPage p) 0x0EC + 1) % 2 ^ 32 ∧ b'.fld (partPage p) 0x014 0 1 = 1 ∧
      MemoryKept s.block b' ∧ UnitsKept s.block b')) ∧
  (∀ (s : State) (p : Fin 64), s.block.fld (partPage p) 0x0C4 3 2 ≠ 0 →
    Does (.shortfallClear p) s (fun b' => b'.fld (partPage p) 0x0C4 3 2 = 0 ∧ b'.regN (partPage p) 0x0C8 = 0x400 ∧
      b'.regN (partPage p) 0x0CC = 0x400 ∧ b'.fld (partPage p) 0x014 1 1 = 1 ∧ MemoryKept s.block b' ∧ UnitsKept s.block b'))

/-- R506, R508 to R514: the host-window table takes entries and loses them, an invalidation following; a SEM_ADD counts; a host access to the HDM window reads or writes through the
leaf's deep-tier table, enters a read line into the filter, waits while the binding moves, and reads poison unbound; eviction and the host's answers clear or clean a line; binding and
unbinding back-invalidate every tracked line first; an answer missing for 10 ms unbinds the window; a host error ends the Cart carriage and is counted; a snoop finds no line. HOSTWIN_MAP,
HOSTWIN_UNMAP, SEM_ADD, HDM_HOST_READ, HDM_HOST_WRITE, HOST_EVICTION, BIRSP, HDM_BIND, HDM_UNBIND, HDM_BI_TIMEOUT, HOST_ERR, H2D_SNOOP. -/
def Obligations.HostWindowsServeAndInvalidate : Prop :=
  (∀ (s : State) (rq : Req) (p : Fin 64) (first count : Nat) (entries : Src), s.block.winRefused rq p first count = none →
    (let bs := s.block.argBytes (some p.val) entries (8 * count)
     let e := fun i => ofBytes ((bs.drop (8 * i)).take 8)
     (∀ i, i < count → fieldOf (e i) 5 16 = 0) → (rq.by_ = .pf ∨ ∀ i, i < count → bitOf (e i) 4 = false) →
     Does (.hostwinMap rq p first count entries) s (fun b' => (∀ i, i < count → b'.num (s.block.winEntry p (first + i)) 8 = e i) ∧
       MemoryKeptBut s.block b' (s.block.winEntry p first) (s.block.winEntry p (first + count)) ∧
       ((∃ i, i < count ∧ bitOf (s.block.num (s.block.winEntry p (first + i)) 8) 0 = true) → b'.regN (partPage p) 0x11C = 1) ∧
       (∀ off, off < 0x1000 → off ≠ 0x11C → b'.reg (partPage p) off = s.block.reg (partPage p) off) ∧
       PagesKeptBut s.block b' (partPage p :: hostPage :: mcPages ++ cartPages) ∧ Replied s.block b' rq 0x32 0 [0] ∧ UnitsKept s.block b')) ∧
    Does (.hostwinUnmap rq p first count) s (fun b' => (∀ i, i < count → b'.num (s.block.winEntry p (first + i)) 8 = 0) ∧
      MemoryKeptBut s.block b' (s.block.winEntry p first) (s.block.winEntry p (first + count)) ∧ b'.regN (partPage p) 0x11C = 1 ∧
      b'.invWaits = s.block.invWaits ++ [(p.val, rq, 0x33)] ∧
      (∀ off, off < 0x1000 → off ≠ 0x11C → b'.reg (partPage p) off = s.block.reg (partPage p) off) ∧
      PagesKeptBut s.block b' (partPage p :: hostPage :: mcPages ++ cartPages) ∧ UnitsKept s.block b')) ∧
  (∀ (s : State) (who : Agent) (i k : Nat) (value : Word), value.toNat ≠ 0 → value.toNat ≤ 2 ^ 31 → s.block.semOfFn who i = some k →
    Does (.semAdd who i value) s (fun b' => b'.sem k = s.block.sem k + value ∧ (∀ j, j ≠ k → b'.sem j = s.block.sem j) ∧
      b'.chans = s.block.chans ∧ b'.drafts = s.block.drafts ∧ MemoryKept s.block b')) ∧
  (∀ (s : State) (off p base : Nat), off < hdmSize → s.block.hdm.held = [] → s.block.hdm.move = none → s.block.hdmBound = some (p, base) →
    (∀ a, s.block.xlTier p .deep (base + off / 64 * 64 - regionBase .deep) false = .dev a → s.block.tierServes a = true →
      ((s.block.snoop.any fun l => l.off == off / 64 * 64) = true ∨ s.block.snoop.length < filterLines) →
      Does (.hdmHostRead off) s (fun b' =>
        Sent b' (.memData (s.block.bytes a 64) ((s.block.getM a 64).any Prod.snd)) ∧ (∃ l ∈ b'.snoop, l.off = off / 64 * 64) ∧
        b'.reg64 hostPage 0x070 = (s.block.reg64 hostPage 0x070 + 64) % 2 ^ 64 ∧ MemoryKept s.block b' ∧ UnitsKept s.block b')) ∧
    (∀ a (bytes : List Byte), s.block.xlTier p .deep (base + off - regionBase .deep) true = .dev a → s.block.tierServes a = true →
      Does (.hdmHostWrite off bytes) s (fun b' => b'.bytes a bytes.length = bytes ∧ MemoryKeptBut s.block b' a (a + bytes.length) ∧
        b'.reg64 hostPage 0x078 = (s.block.reg64 hostPage 0x078 + bytes.length) % 2 ^ 64 ∧ b'.snoop = s.block.snoop ∧
        UnitsKept s.block b'))) ∧
  (∀ (s : State) (off : Nat) (bytes : List Byte), off < hdmSize →
    (s.block.hdm.move.isSome = true →
      Does (.hdmHostRead off) s (fun b' => b'.hdm.held = s.block.hdm.held ++ [(off / 64 * 64, none)] ∧ b'.out = s.block.out ∧
        MemoryKept s.block b' ∧ UnitsKept s.block b') ∧
      Does (.hdmHostWrite off bytes) s (fun b' => b'.hdm.held = s.block.hdm.held ++ [(off, some bytes)] ∧ MemoryKept s.block b' ∧
        UnitsKept s.block b')) ∧
    (s.block.hdm.move = none → s.block.hdm.held = [] → s.block.hdmBound = none →
      Does (.hdmHostRead off) s (fun b' => Sent b' (.memData [] true) ∧ b'.snoop = s.block.snoop ∧ MemoryKept s.block b' ∧
        UnitsKept s.block b'))) ∧
  (∀ (s : State) (off : Nat), s.block.hdm.move = none → s.block.hdm.held = [] → s.block.memQ = [] → (s.block.snoop.any fun l => l.off == off / 64 * 64) = true →
    Does (.hostEviction off) s (fun b' => (∀ l, l ∈ b'.snoop ↔ l ∈ s.block.snoop ∧ l.off ≠ off / 64 * 64) ∧ b'.regs = s.block.regs ∧
      MemoryKept s.block b' ∧ UnitsKept s.block b')) ∧
  (∀ (s : State) (off : Nat) (l : SfLine) (dirty : Option (List Byte)), s.block.hdm.move = none → s.block.hdm.held = [] → s.block.memQ = [] →
    (s.block.snoop.find? fun l => l.off == off / 64 * 64 && l.waiting.isSome) = some l →
    Does (.birsp off dirty) s (fun b' =>
      (match dirty with
        | some bs => b'.bytes l.dev (bs.take 64).length = bs.take 64 ∧ MemoryKeptBut s.block b' l.dev (l.dev + (bs.take 64).length)
        | none => MemoryKept s.block b') ∧
      (l.waiting = some true → ∀ q, q ∈ b'.snoop ↔ q ∈ s.block.snoop ∧ q.off ≠ l.off) ∧
      (l.waiting = some false → ∀ q ∈ b'.snoop, q.off = l.off → q.clean = true ∧ q.waiting = none) ∧ UnitsKept s.block b')) ∧
  (∀ (s : State) (rq : Req) (p : Fin 64) (base : Nat), rq.by_ = .pf → s.block.hdm.move = none → base % 0x200000 = 0 →
    regionOf base = some .deep → (s.block.part p).present = true → (s.block.part p).leaf = true → (s.block.grant p).loaded = true →
    s.block.partState p = 2 →
    (s.block.snoop = [] → Does (.hdmBind rq p base) s (fun b' => b'.hdmBound = some (p.val, base) ∧ b'.hdm.move = none ∧
      Replied s.block b' rq 0x30 0 [0] ∧ (s.block.hdm.held = [] → MemoryKept s.block b') ∧ UnitsKept s.block b')) ∧
    (s.block.snoop ≠ [] → Does (.hdmBind rq p base) s (fun b' => b'.hdm.move = some ⟨some (rq, 0x30), some (p.val, base)⟩ ∧
      b'.snoop.map SfLine.off = s.block.snoop.map SfLine.off ∧ (∀ l ∈ b'.snoop, l.waiting.isSome = true) ∧
      (∀ l ∈ s.block.snoop, l.waiting = none → Out.biSnoop true l.off ∈ b'.out) ∧ MemoryKept s.block b' ∧ UnitsKept s.block b'))) ∧
  (∀ (s : State) (rq : Req), rq.by_ = .pf → s.block.hdm.move = none → s.block.snoop = [] →
    Does (.hdmUnbind rq) s (fun b' => b'.hdmBound = none ∧ b'.hdm.move = none ∧ Replied s.block b' rq 0x31 0 [0] ∧ MemoryKept s.block b' ∧
      UnitsKept s.block b')) ∧
  (∀ (s : State), (s.block.snoop.any fun l => l.waiting.isSome && decide (l.sent + 10000000 ≤ s.block.now)) = true → s.block.memQ = [] →
    Does .hdmBiTimeout s (fun b' => b'.fld hostPage 0x014 4 1 = 1 ∧ b'.hdmBound = none ∧ b'.snoop = [] ∧ b'.hdm.move = none ∧
      b'.hdm.held = [] ∧
      (∀ m rq code, s.block.hdm.move = some m → m.reply = some (rq, code) → ⟨code, rq.seq, 0x06, [0]⟩ ∈ (b'.mbx rq.mbx).replies) ∧
      MemoryKept s.block b' ∧ UnitsKept s.block b')) ∧
  (∀ (s : State) (e : Fin 64) (why : HostFail) (addr i : Nat) (f : Flight) (r : List (Nat × Flight)),
    s.block.hostFlights (· == e.val) = (i, f) :: r → (why = .timeout → f.startAt + hostTimeout ≤ s.block.now) →
    Does (.hostErr e why addr) s (fun b' => Ended b' i true ∧ b'.fld (partPage f.part) 0x014 12 1 = 1 ∧
      b'.reg64 hostPage 0x080 = (s.block.reg64 hostPage 0x080 + 1) % 2 ^ 64 ∧ MemoryKept s.block b' ∧ b'.sems = s.block.sems)) ∧
  (∀ (s : State) (addr : Nat), Does (.h2dSnoop addr) s (fun b' => b' = { s.block with out := .snoopReply addr :: s.block.out }))

/-- R499 to R503, R515, R516, R523 to R525: a hot reset clears configuration, MSI-X and IDE streams; a link down besides raises HOST_LINK_DOWN, and unless a QUIESCE preceded it unbinds the HDM
window; a trained link shows width and rate and raises HOST_LINK_UP, narrower or slower ones HOST_DEGRADED; a failed IDE check is a link down; unmasking a vector sends what is pending;
QUIESCE stops the leaves, its time-out ends what still runs, its completion unbinds the window and refuses doorbells, UNQUIESCE ends it. HOST_LINK_DOWN, HOST_LINK_UP, HOST_TRAIN_FAIL,
IDE_FAIL, MSIX_UNMASK, QUIESCE, QUIESCE_TIMEOUT, QUIESCE_COMPLETE, UNQUIESCE. -/
def Obligations.HostLinksFallQuiesceAndReturn : Prop :=
  (∀ (s : State), Does (.hostLinkDown .hotReset) s (fun b' => b'.ide = [] ∧ b'.fld hostPage 0x040 8 2 = 0 ∧
      (∀ fn, fn < 17 → b'.regN (msixCtrlPage fn) 0 = 0) ∧ b'.hdm = s.block.hdm ∧ b'.snoop = s.block.snoop ∧ b'.mailboxes = s.block.mailboxes ∧
      MemoryKept s.block b' ∧ UnitsKept s.block b')) ∧
  (∀ (s : State) (kind : LinkDownKind) (cmd : Instr), (cmd = .hostLinkDown kind ∧ kind ≠ .hotReset) ∨ cmd = .ideFail →
    Does cmd s (fun b' => b'.ide = [] ∧ b'.fld hostPage 0x040 0 8 = 0 ∧ b'.fld hostPage 0x014 0 1 = 1 ∧
      (cmd = .ideFail → b'.fld hostPage 0x014 3 1 = 1) ∧ b'.reg64 hostPage 0x090 = (s.block.reg64 hostPage 0x090 + 1) % 2 ^ 64 ∧
      (s.block.fld hostPage 0x040 10 1 = 1 → b'.hdm = s.block.hdm ∧ b'.snoop = s.block.snoop ∧ b'.hdmBound = s.block.hdmBound) ∧
      (s.block.fld hostPage 0x040 10 1 = 0 → b'.hdmBound = none ∧ b'.snoop = [] ∧
        (∀ q ∈ s.block.hostFlights fun _ => true, Ended b' q.1 true)) ∧
      (s.block.fld hostPage 0x040 10 1 = 1 ∨ (s.block.memQ = [] ∧ (s.block.hostFlights fun _ => true) = []) → MemoryKept s.block b') ∧
      b'.sems = s.block.sems)) ∧
  (∀ (s : State) (width rate : Nat), width ∈ [1, 2, 4, 8] → 1 ≤ rate → rate ≤ 3 →
    Does (.hostLinkUp width rate) s (fun b' => b'.fld hostPage 0x040 0 4 = width ∧ b'.fld hostPage 0x040 4 2 = rate ∧
      b'.fld hostPage 0x014 1 1 = 1 ∧ (width ≠ 8 ∨ rate ≠ 3 → b'.fld hostPage 0x014 2 1 = 1) ∧ MemoryKept s.block b' ∧ UnitsKept s.block b')) ∧
  (∀ (s : State) (why : Nat), Does (.hostTrainFail why) s (fun b' => b' = { s.block with out := .pldm 0x0B why :: s.block.out })) ∧
  (∀ (s : State) (who : Agent) (fn : Nat) (vector : Fin 2048), (who = .pf ∧ fn = 0) ∨ (∃ v : Fin 16, who = .vf v ∧ fn = 1 + v.val) →
    Does (.msixUnmask who vector) s (fun b' => b'.fld (msixPage fn vector) (msixOff vector 12) 0 1 = 0 ∧
      (if bitOf (s.block.regN (msixCtrlPage fn) (0x10 + 4 * (vector.val / 32))) (vector % 32) = true ∧
          bitOf (s.block.regN (msixCtrlPage fn) 0) 0 = true ∧ bitOf (s.block.regN (msixCtrlPage fn) 0) 1 = false
        then Sent b' (.msix fn vector) ∧ b'.fld (msixCtrlPage fn) (0x10 + 4 * (vector.val / 32)) (vector % 32) 1 = 0
        else b'.out = s.block.out) ∧ MemoryKept s.block b' ∧ UnitsKept s.block b')) ∧
  (∀ (s : State) (rq : Req) (mode timeoutMs : Nat), rq.by_ = .pf → mode < 2 → s.block.quiescing = none →
    Does (.quiesce rq mode timeoutMs) s (fun b' => b'.quiescing = some ⟨rq, mode, s.block.now + timeoutMs * 1000000⟩ ∧
      (∀ p ∈ s.block.runningLeaves, mode = 1 ∨ s.block.phase p = 0 → ∀ c ∈ (s.block.grant p).channels, (b'.chan c).quiesced = true) ∧
      b'.regs = s.block.regs ∧ b'.flights = s.block.flights ∧ MemoryKept s.block b' ∧ b'.sems = s.block.sems)) ∧
  (∀ (s : State) (q : Quiesce), s.block.quiescing = some q → q.deadline ≤ s.block.now →
    Does .quiesceTimeout s (fun b' => (∀ p ∈ s.block.runningLeaves, ∀ c ∈ (s.block.grant p).channels, (b'.chan c).quiesced = true) ∧
      (∀ f ∈ b'.flights, f.engine < 2 ^ 20 → f.done = true) ∧ b'.flights.length = s.block.flights.length ∧ MemoryKept s.block b' ∧
      b'.sems = s.block.sems)) ∧
  (∀ (s : State) (q : Quiesce), s.block.quiescing = some q → s.block.runningLeaves.all s.block.leafStopped = true →
    (s.block.flights.any fun f => f.engine < 2 ^ 20) = false → s.block.hdm.move = none → s.block.snoop = [] →
    Does .quiesceComplete s (fun b' => b'.quiescing = none ∧ b'.fld hostPage 0x040 10 1 = 1 ∧ b'.hdmBound = none ∧ b'.accepting = false ∧
      Replied s.block b' q.rq 0x35 0 [0] ∧ MemoryKept s.block b' ∧ UnitsKept s.block b')) ∧
  (∀ (s : State) (rq : Req), rq.by_ = .pf →
    Does (.unquiesce rq) s (fun b' => b'.quiescing = none ∧ b'.fld hostPage 0x040 10 1 = 0 ∧ (∀ c, c < 256 → (b'.chan c).quiesced = false) ∧
      ⟨0x36, rq.seq, 0, [0]⟩ ∈ (b'.mbx rq.mbx).replies ∧
      (∀ q, s.block.quiescing = some q → ⟨0x35, q.rq.seq, 4, [0]⟩ ∈ (b'.mbx q.rq.mbx).replies) ∧
      MemoryKept s.block b' ∧ b'.sems = s.block.sems))

/-- R119, R120, R238 to R240, R274, R295, R470, R503, R524, R539, R549, R558, R567, R572, R626, R632: a warm reset drops what runs, lets the controllers drain, empties the channels, ends the lends,
zeroes contexts, bays and yard, discards the sessions' keys, locks the debug port and stops the Steward; a request that comes meanwhile joins it. A controller that has drained, or has not within
50 µs, is in self-refresh; the exit from it restarts the controllers, opens ledger recovery and replies. A function-level reset does the like for a leaf, one of a virtual function for all it
serves, one of function 0 clears its mailboxes; a cold reset keeps only what is non-volatile or outside; an input out of its limits is one. WARM_RESET, PLDM_WARM_RESET, MC_DRAIN_DONE,
DRAIN_TIMEOUT, SELF_REFRESH_EXIT, FUNCTION_LEVEL_RESET, FLR_VF, FLR_FUNCTION0, COLD_RESET, INPUT_FAULT. -/
def Obligations.ResetsKeepAndLose : Prop :=
  (∀ (s : State) (cmd : Instr) (rqs : List Req),
    (cmd = .warmReset none ∧ rqs = []) ∨ (∃ rq, rq.by_ = .pf ∧ cmd = .warmReset (some rq) ∧ rqs = [rq]) ∨
      (cmd = .pldmWarmReset ∧ rqs = [] ∧ s.block.haw.released = true) →
    (∀ w, s.block.warm = some w → Does cmd s (fun b' => b' = { s.block with warm := some { w with rqs := w.rqs ++ rqs } })) ∧
    (s.block.warm = none → Does cmd s (fun b' => b'.warm = some ⟨rqs, false⟩ ∧
      (∀ f, f ∈ b'.flights ↔ f ∈ s.block.flights ∧ (f.done = true ∨ cType f.word = 0x0B ∨ cType f.word = 0x0C)) ∧
      (∀ t k, k < 32 → s.block.mcState t k = 2 ∨ s.block.mcState t k = 4 → (b'.mc t k).draining.isSome = true) ∧
      (∀ c, c < 256 → s.block.chanState c ≠ 0 → b'.chanState c = 1 ∧ b'.rdPtr c = 0 ∧ b'.wrPtr c = 0) ∧
      (∀ a, a < 128 → (b'.arr a).entries = [] ∧ (b'.arr a).lentTo = none ∧ b'.vec a = VecUnit.none ∧
        (bitOf s.nv.retired.toNat a = true → b'.arrayState a = 3)) ∧
      (∀ x, regionOf x = some .bay ∨ regionOf x = some .yard → b'.byte x = 0 ∧ b'.marked (x / 64) = false) ∧
      b'.images = [] ∧ b'.slots = [] ∧ b'.carts = [] ∧ b'.memQ = [] ∧ FlowsEmpty b' ∧ b'.regN recPage 0x044 = 2 ∧ b'.haw.released = false ∧ b'.debugOpen = false ∧
      (∀ i, 2 ≤ i → i ≤ 6 → b'.mr i = List.replicate 32 0) ∧ (∀ i, (b'.session i).send = none) ∧
      (b'.recOpen .deviceKept = true ∨ s.block.recOpen .replicaGroup = true)))) ∧
  (∀ (s : State) (t : Tier) (k : Fin 32) (t0 : Nat), (s.block.mc t k).draining = some t0 →
    (s.block.now ≤ t0 + 50000 → Does (.mcDrainDone t k) s (fun b' => (b'.mc t k).draining = none ∧ b'.mcState t k = 3 ∧
      (b'.mc t k).slots = [] ∧ (∀ e ∈ (b'.mc t k).chk, e.2 = false) ∧ PagesKeptBut s.block b' [pageMc t k] ∧
      ((s.block.mc t k).slots = [] → RegsKeptBut s.block b' [(pageMc t k, 0x044)]) ∧ MemoryKept s.block b' ∧ UnitsKept s.block b')) ∧
    (t0 + 50000 ≤ s.block.now → Does (.drainTimeout t k) s (fun b' => (b'.mc t k).draining = none ∧ (b'.mc t k).faultNext = true ∧
      b'.mcState t k = 3 ∧ b'.fld (pageMc t k) 0x014 4 1 = 1 ∧ MemoryKept s.block b' ∧ UnitsKept s.block b'))) ∧
  (∀ (s : State) (w : Warm), s.block.warm = some w → w.waking = false → (∀ t k, k < 32 → (s.block.mc t k).draining = none) →
    s.block.power.tripped = 0 →
    Does .selfRefreshExit s (fun b' => b'.warm = none ∧
      (∀ t k, k < 32 → s.block.mcState t k = 3 → b'.mcState t k = if (s.block.mc t k).filling || (s.block.mc t k).faultNext then 4 else 2) ∧
      (∀ p ∈ s.block.allLeaves, (s.block.grant p).loaded = true → b'.regN (partPage p) 0x2A0 = 1) ∧
      (∀ rq ∈ w.rqs, ⟨0x37, rq.seq, 0, [0]⟩ ∈ (b'.mbx rq.mbx).replies) ∧
      (s.block.fld devPage 0x040 0 3 = 1 → (∀ t k, k < 32 → s.block.mcState t k ∈ [2, 3, 4]) → b'.fld devPage 0x040 0 3 = 4))) ∧
  (∀ (s : State) (p : Fin 64), (s.block.part p).present = true → (s.block.part p).leaf = true →
    Does (.functionLevelReset p) s (fun b' =>
      (∀ f ∈ b'.flights, f.part = p.val → f.done = true ∨ cType f.word = 0x0B ∨ cType f.word = 0x0C) ∧
      (∀ c ∈ (s.block.grant p).channels, s.block.chanState c ≠ 0 → b'.chanState c = 1 ∧ b'.rdPtr c = 0 ∧ b'.wrPtr c = 0) ∧
      (∀ a ∈ unitsIn (s.block.part p).hold.arrays.toNat 0 128, (s.block.arr a).lentTo = none →
        (b'.arr a).entries = [] ∧ b'.vec a = VecUnit.none) ∧
      ((∀ d, d < 16 → (s.block.draft p d).state = .free) →
        (∀ a ∈ unitsIn (s.block.part p).hold.arrays.toNat 0 128, (s.block.arr a).lentTo = none →
          ∀ i, i < baySize → b'.byte (regionBase .bay + a * baySize + i) = 0) ∧
        (∀ q ∈ (s.block.grant p).yardRanges, ∀ x, q.1 ≤ x → x < q.2 → b'.byte x = 0)) ∧
      (∀ q ∈ s.block.partnersOf p, (b'.session q.session).send = none) ∧
      ((s.block.grant p).loaded = true → s.block.partState p = 2 → b'.partState p = 4 ∧ b'.regN (partPage p) 0x2A0 = 1) ∧
      (∀ q, q ≠ p.val → b'.grant q = s.block.grant q) ∧ b'.parts = s.block.parts)) ∧
  (∀ (s : State) (v : Fin 16), Does (.flrVf v) s (fun b' => b'.regN (msixCtrlPage (1 + v)) 0 = 0 ∧
      (s.block.partOfVf v = none → MemoryKept s.block b' ∧ UnitsKept s.block b') ∧
      (∀ q, s.block.partOfVf v = some q → ∀ p ∈ s.block.leavesUnder q, (s.block.grant p).loaded = true → s.block.partState p = 2 →
        b'.partState p = 4) ∧ b'.parts = s.block.parts)) ∧
  (∀ (s : State), Does .flrFunction0 s (fun b' => (∀ m, m < 3 → b'.mbx m = Mailbox.none) ∧ (∀ m, 3 ≤ m → b'.mbx m = s.block.mbx m) ∧
      b'.regN (msixCtrlPage 0) 0 = 0 ∧ MemoryKept s.block b' ∧ UnitsKept s.block b')) ∧
  (∀ (s : State), Does .coldReset s (fun b' =>
      b' = { Block.reset with free := s.block.free, hostMem := s.block.hostMem, hostBad := s.block.hostBad, out := s.block.out, power := b'.power, regs := b'.regs } ∧
      b'.regN recPage 0x044 = 1 ∧ RegsKeptBut Block.reset b' [(recPage, 0x044), (hawPage, 0x044), (hawPage, 0x048), (hawPage, 0x050), (hawPage, 0x054)] ∧
      b'.reg hawPage 0x044 = s.block.reg hawPage 0x044 ∧ b'.reg64 hawPage 0x050 = s.block.reg64 hawPage 0x050 ∧
      b'.fld hawPage 0x048 0 16 = s.block.fld hawPage 0x048 0 16 ∧ b'.power.history = s.block.power.history ∧
      b'.power.pmonBase = s.block.power.pmonBase ∧ b'.power.wakeQueue = Power.reset.wakeQueue)) ∧
  (∀ (s : State) (mv : BitVec 16),
    let bad := mv.toNat < 4800 ∨ 6000 < mv.toNat ∨
      (tolerated mv.toNat = true ∧ ∃ t, s.block.power.rangeSince = some t ∧ t + 10000000 < s.block.now)
    (bad → exec (.inputFault false mv) s = exec .coldReset s ∧
      exec (.inputFault true mv) s = exec .coldReset { s with block := s.block.emit (.pldm 0x0A (powerPage * 32 + 2)) } ∧
      Does (.inputFault false mv) s (fun b' => b'.mem = [] ∧ b'.now = 0 ∧ b'.fld devPage 0x040 0 3 = 0) ∧
      Does (.inputFault true mv) s (fun b' => b'.mem = [] ∧ b'.now = 0 ∧ Sent b' (.pldm 0x0A (powerPage * 32 + 2)))) ∧
    (¬ bad → ∀ timeAllows, exec (.inputFault timeAllows mv) s = .next s))

/-- R534, R536 to R541, R552, R561 to R563: the boot senses and completes the fuses, measures them and runs the first slot of Hawthorn's firmware that verifies, else enters RECOVERY; the
release does the same for the Steward's and retires the recorded arrays again; INFO reads the page; RANDOM and NONCE draw, or answer 0x08 without entropy; FW_STAGE fills the slot that does not
run, FW_ACTIVATE makes it first only if it verifies, SVN_COMMIT raises a fuse SVN only when both slots hold it; MR_EXTEND hashes; a failed health test closes the source, a passed retest opens
it; the generator is reseeded after 2²⁰ requests. HAWTHORN_BOOT, STEWARD_RELEASE, INFO, RANDOM, NONCE, FW_STAGE, FW_ACTIVATE, SVN_COMMIT, MR_EXTEND, ENTROPY_FAIL, ENTROPY_RETEST, DRBG_RESEED. -/
def Obligations.HawthornBootsAndMeasures : Prop :=
  (∀ (s : State) (entropyOk : Bool), s.block.hawState = 0 →
    Gives (.hawthornBoot entropyOk) s (fun t =>
      let nv := { s.nv with fuses := s.nv.fuses.mend }
      t.nv = nv ∧ t.pending = s.pending ∧ t.block.entropyOk = entropyOk ∧
      (entropyOk = false → t.block.fld hawPage 0x014 2 1 = 1 ∧ t.block.haw.failedAt = s.block.now) ∧
      t.block.regN hawPage 0x044 = nv.fuses.state % 2 ^ 32 ∧ t.block.reg64 hawPage 0x050 = deviceIdOf nv ∧
      (match nv.bootSlot 1 with
        | none => t.block.hawState = 2 ∧ t.block.fld hawPage 0x014 1 1 = 1 ∧ t.block.fld devPage 0x040 0 3 = 5
        | some (sl, i) => t.block.hawState = 1 ∧ t.block.fld hawPage 0x040 5 1 = b2n sl ∧ t.block.fld hawPage 0x048 16 8 = i.svn % 256 ∧
          t.block.mr 1 = padTo 32 (Config.shake256 (s.block.mr 1 ++ Config.shake256 i.header 32) 32) ∧
          (sl ≠ nv.first 1 → t.block.fld hawPage 0x014 0 1 = 1)) ∧ MemoryKept s.block t.block ∧ UnitsKept s.block t.block)) ∧
  (∀ (s : State) (ms : BitVec 16) (pmon : List (BitVec 16)), s.block.hawState = 1 → s.block.haw.released = false →
    Does (.stewardRelease ms pmon) s (fun b' =>
      (match s.nv.bootSlot 2 with
        | none => b'.hawState = 2 ∧ b'.fld hawPage 0x014 1 1 = 1 ∧ b'.haw.released = false
        | some (sl, i) => b'.haw.released = true ∧ b'.hawState = 1 ∧ b'.fld hawPage 0x040 6 1 = b2n sl ∧
          b'.fld hawPage 0x048 24 8 = i.svn % 256 ∧
          b'.mr 2 = padTo 32 (Config.shake256 (s.block.mr 2 ++ Config.shake256 i.header 32) 32) ∧
          (sl ≠ s.nv.first 2 → b'.fld hawPage 0x014 0 1 = 1) ∧ (s.block.haw.booted = false → b'.regN hawPage 0x058 = ms.toNat) ∧
          (∀ a, a < 128 → bitOf s.nv.retired.toNat a = true → b'.arrayState a = 3)) ∧ MemoryKept s.block b' ∧ UnitsKept s.block b')) ∧
  (∀ (s : State) (rq : Req), (isF0 rq = true ∧ (s.block.hawState = 1 ∨ s.block.hawState = 2)) ∨ (isS rq = true ∧ s.block.hawState = 1) →
    Does (.info rq) s (fun b' => Replied s.block b' rq 0x01 0 ([0] ++ words64 (s.block.reg64 hawPage 0x050) ++
      [s.block.reg hawPage 0x040, s.block.reg hawPage 0x044, s.block.reg hawPage 0x048]) ∧ b'.regs = s.block.regs ∧ b'.haw = s.block.haw ∧
      MemoryKept s.block b' ∧ UnitsKept s.block b')) ∧
  (∀ (s : State) (rq : Req) (count : Nat), isS rq = true → 1 ≤ count → count ≤ 8 → s.block.hawState = 1 →
    Does (.random rq count) s (fun b' => (if s.block.entropyOk = true
      then ∃ ws, ws.length = count ∧ Replied s.block b' rq 0x02 0 (0 :: ws) else Replied s.block b' rq 0x02 8 [0] ∧ b'.haw = s.block.haw) ∧
      b'.regs = s.block.regs ∧ MemoryKept s.block b' ∧ UnitsKept s.block b')) ∧
  (∀ (s : State) (rq : Req), isF0 rq = true → s.block.hawState = 1 ∨ s.block.hawState = 2 →
    Does (.nonce rq) s (fun b' => (if s.block.entropyOk = true
      then ∃ n, b'.haw.nonce = some (n, s.block.now) ∧ Replied s.block b' rq 0x03 0 (0 :: wordsOf 8 n)
      else Replied s.block b' rq 0x03 8 [0] ∧ b'.haw = s.block.haw) ∧ b'.regs = s.block.regs ∧ MemoryKept s.block b' ∧ UnitsKept s.block b') ∧
    (∀ kind image, kind = 1 ∨ kind = 2 → Gives (.fwStage rq kind image) s (fun t =>
      t.nv.slot kind (!s.block.runningSlot kind) = some image ∧
      (∀ k sl, k = 1 ∨ k = 2 → (k, sl) ≠ (kind, !s.block.runningSlot kind) → t.nv.slot k sl = s.nv.slot k sl) ∧
      t.nv.fuses = s.nv.fuses ∧ t.nv.retired = s.nv.retired ∧ t.nv.hfwFirst = s.nv.hfwFirst ∧ t.nv.sfwFirst = s.nv.sfwFirst ∧
      Replied s.block t.block rq 0x04 (if imageVerifies s.nv.fuses kind image then 0 else 7) [0] ∧ t.pending = s.pending ∧
      t.block.regs = s.block.regs ∧ MemoryKept s.block t.block ∧ UnitsKept s.block t.block)) ∧
    (∀ kind, kind = 1 ∨ kind = 2 → Gives (.fwActivate rq kind) s (fun t =>
      (if (s.nv.good kind (!s.block.runningSlot kind)).isSome = true
        then t.nv.first kind = (!s.block.runningSlot kind) ∧ Replied s.block t.block rq 0x05 0 [0]
        else t.nv = s.nv ∧ Replied s.block t.block rq 0x05 7 [0]) ∧ t.nv.first (3 - kind) = s.nv.first (3 - kind) ∧ t.nv.flash = s.nv.flash ∧
      t.nv.fuses = s.nv.fuses ∧ t.nv.retired = s.nv.retired ∧ t.pending = s.pending ∧ t.block.regs = s.block.regs ∧
      MemoryKept s.block t.block ∧ UnitsKept s.block t.block))) ∧
  (∀ (s : State) (rq : Req) (kind : Nat), isF0 rq = true → kind = 1 ∨ kind = 2 → s.block.hawState = 1 →
    Gives (.svnCommit rq kind) s (fun t =>
      let new := s.block.fld hawPage 0x048 (8 + 8 * kind) 8
      (if (∀ sl, ∃ i, s.nv.slot kind sl = some i ∧ new ≤ i.svn)
        then t.nv.fuses.svn kind = max new (s.nv.fuses.svn kind) ∧ t.nv.fuses.svn (3 - kind) = s.nv.fuses.svn (3 - kind) ∧
          Replied s.block t.block rq 0x06 0 [0] ∧ (s.nv.fuses.svn kind < new → t.block.fld hawPage 0x014 6 1 = 1)
        else t.nv = s.nv ∧ Replied s.block t.block rq 0x06 4 [0]) ∧ FusesGrow s.nv.fuses t.nv.fuses ∧ t.nv.flash = s.nv.flash ∧
      t.nv.retired = s.nv.retired ∧ t.pending = s.pending ∧ MemoryKept s.block t.block ∧ UnitsKept s.block t.block)) ∧
  (∀ (s : State) (rq : Req) (index : Nat) (value : List Byte), (index = 6 ∧ isF0 rq = true) ∨ (3 ≤ index ∧ index ≤ 5 ∧ isS rq = true) →
    s.block.hawState = 1 →
    Does (.mrExtend rq index value) s (fun b' =>
      b'.mr index = padTo 32 (Config.shake256 (s.block.mr index ++ padTo 32 value) 32) ∧ (∀ i, i < 8 → i ≠ index → b'.mr i = s.block.mr i) ∧
      Replied s.block b' rq 0x0A 0 [0] ∧ PagesKeptBut s.block b' [hawPage] ∧ MemoryKept s.block b' ∧ UnitsKept s.block b')) ∧
  (∀ (s : State), Does .entropyFail s (fun b' => b'.entropyOk = false ∧ b'.fld hawPage 0x014 2 1 = 1 ∧ b'.haw.failedAt = s.block.now ∧
      MemoryKept s.block b' ∧ UnitsKept s.block b') ∧
    (∀ pass, s.block.entropyOk = false → s.block.haw.failedAt + 1000000000 ≤ s.block.now →
      Does (.entropyRetest pass) s (fun b' => b'.entropyOk = pass ∧ (pass = false → b'.haw.failedAt = s.block.now) ∧
        RegsKeptBut s.block b' [(hawPage, 0x040)] ∧ MemoryKept s.block b' ∧ UnitsKept s.block b')) ∧
    (2 ^ 20 ≤ s.block.haw.sinceSeed → s.block.entropyOk = true →
      Does .drbgReseed s (fun b' => b'.haw = { s.block.haw with sinceSeed := 0 } ∧ b'.regs = s.block.regs ∧ MemoryKept s.block b' ∧
        UnitsKept s.block b')))

/-- R533, R534, R544, R550, R558, R560 to R563: an owner key is blown into an unused slot and verified, one that fails leaves the slot spent; a key is revoked by a request signed with an active
key and never the last; the fabric list is replaced; the debug port opens for the scope a signed request names, is measured and closes on command, and never opens once sealed; the seal
closes it for good; a request whose authority fails answers 0x07 and blows nothing. OWNER_KEY_ADD, OWNER_KEY_REVOKE, VENDOR_KEY_REVOKE, FABRIC_SET, DEBUG_UNLOCK, DEBUG_LOCK,
DBG_SEAL_BLOW. -/
def Obligations.KeysAndSealFollowSignedRequests : Prop :=
  (∀ (s : State) (rq : Req), isF0 rq = true → s.block.hawState = 1 →
    (∀ slot key sr senseOk, slot < 4 → (s.nv.fuses.validBit slot).blown = false → s.nv.fuses.ownerTouched.getLsbD slot = false →
      Gives (.ownerKeyAdd rq slot key sr senseOk) s (fun t =>
        (if s.block.ownerSays s.nv sr 0x07 (some (padTo 1793 key)) = true then
          (if senseOk = true
            then (t.nv.fuses.validBit slot).blown = true ∧ t.nv.fuses.ownerKeyHash slot = keyHash key ∧ Replied s.block t.block rq 0x07 0 [0]
            else (t.nv.fuses.validBit slot).blown = false ∧ t.nv.fuses.ownerSpent slot = true ∧ Replied s.block t.block rq 0x07 7 [0]) ∧
          t.block.fld hawPage 0x014 6 1 = 1 ∧ t.block.fld hawPage 0x040 2 1 = b2n t.nv.fuses.owned ∧
          (∀ i, i ≠ slot → t.nv.fuses.validBit i = s.nv.fuses.validBit i ∧ t.nv.fuses.ownerKeyHash i = s.nv.fuses.ownerKeyHash i)
         else t.nv = s.nv ∧ Replied s.block t.block rq 0x07 7 [0]) ∧ FusesGrow s.nv.fuses t.nv.fuses ∧ t.nv.flash = s.nv.flash ∧
        t.nv.retired = s.nv.retired ∧ t.pending = s.pending ∧ MemoryKept s.block t.block ∧ UnitsKept s.block t.block)) ∧
    (∀ slot sr, slot < 4 → s.nv.fuses.ownerActive slot = true →
      Gives (.ownerKeyRevoke rq slot sr) s (fun t =>
        (if ((List.range 4).any fun i => i != slot && s.nv.fuses.ownerActive i) = true then
          (if s.block.authorises s.nv sr 0x08 none ownerSlots = true
            then t.nv.fuses.ownerActive slot = false ∧ (∀ i, i ≠ slot → t.nv.fuses.ownerActive i = s.nv.fuses.ownerActive i) ∧
              t.block.haw.nonce = none ∧ t.block.fld hawPage 0x014 6 1 = 1 ∧ Replied s.block t.block rq 0x08 0 [0]
            else t.nv = s.nv ∧ Replied s.block t.block rq 0x08 7 [0])
         else t.nv = s.nv ∧ Replied s.block t.block rq 0x08 4 [0]) ∧ FusesGrow s.nv.fuses t.nv.fuses ∧ t.nv.flash = s.nv.flash ∧
        t.nv.retired = s.nv.retired ∧ t.pending = s.pending ∧ MemoryKept s.block t.block ∧ UnitsKept s.block t.block)) ∧
    (∀ slot sr, slot < 2 → s.nv.fuses.vendorActive slot = true →
      Gives (.vendorKeyRevoke rq slot sr) s (fun t =>
        (if s.nv.fuses.vendorActive (1 - slot) = true then
          (if s.block.authorises s.nv sr 0x09 none [4 + (1 - slot)] = true
            then t.nv.fuses.vendorActive slot = false ∧ t.nv.fuses.vendorActive (1 - slot) = true ∧ t.block.haw.nonce = none ∧
              t.block.fld hawPage 0x014 6 1 = 1 ∧ Replied s.block t.block rq 0x09 0 [0]
            else t.nv = s.nv ∧ Replied s.block t.block rq 0x09 7 [0])
         else t.nv = s.nv ∧ Replied s.block t.block rq 0x09 4 [0]) ∧ FusesGrow s.nv.fuses t.nv.fuses ∧ t.nv.flash = s.nv.flash ∧
        t.nv.retired = s.nv.retired ∧ t.pending = s.pending ∧ MemoryKept s.block t.block ∧ UnitsKept s.block t.block)) ∧
    (∀ hashes sr, hashes.length ≤ 1024 →
      Does (.fabricSet rq hashes sr) s (fun b' =>
        (if s.block.ownerSays s.nv sr 0x0B (some (hashes.map (padTo 32)).flatten) = true
          then b'.haw.fabric = hashes.map (padTo 32) ∧ Replied s.block b' rq 0x0B 0 [0]
          else b'.haw.fabric = s.block.haw.fabric ∧ Replied s.block b' rq 0x0B 7 [0]) ∧ b'.regs = s.block.regs ∧ b'.ports = s.block.ports ∧
        MemoryKept s.block b' ∧ UnitsKept s.block b')) ∧
    (∀ scope sr, scope.toNat < 8 →
      Does (.debugUnlock rq scope sr) s (fun b' =>
        (if s.nv.fuses.dbgSeal.blown = true then Replied s.block b' rq 0x0C 4 [0] ∧ b'.regs = s.block.regs ∧ b'.haw = s.block.haw
         else if s.block.authorises s.nv sr 0x0C (some (toBytes 4 scope.toNat)) (if s.nv.fuses.owned then ownerSlots else vendorSlots) = true
          then b'.debugOpen = true ∧ b'.haw.scope = scope ∧ b'.haw.unlockedAt = s.block.now ∧ b'.haw.nonce = none ∧
            b'.mr 7 = padTo 32 (Config.shake256 (s.block.mr 7 ++ Config.shake256 (signedBytes sr) 32) 32) ∧
            b'.fld hawPage 0x014 4 1 = 1 ∧ Replied s.block b' rq 0x0C 0 [0]
          else b'.regs = s.block.regs ∧ b'.haw.scope = s.block.haw.scope ∧ Replied s.block b' rq 0x0C 7 [0]) ∧
        MemoryKept s.block b' ∧ UnitsKept s.block b')) ∧
    Does (.debugLock rq) s (fun b' => b'.debugOpen = false ∧ b'.haw.scope = 0 ∧ Replied s.block b' rq 0x0D 0 [0] ∧
      RegsKeptBut s.block b' [(hawPage, 0x040)] ∧ MemoryKept s.block b' ∧ UnitsKept s.block b') ∧
    (∀ (confirm : Word) (deviceId : DWord) sr, s.block.debugOpen = false → s.nv.fuses.dbgSeal.blown = false →
      Gives (.dbgSealBlow rq confirm deviceId sr) s (fun t =>
        (if confirm.toNat = 0x5EA1 ∧ deviceId.toNat = deviceIdOf s.nv ∧ s.block.ownerSays s.nv sr 0x0E none = true
          then t.nv.fuses.dbgSeal = FuseBit.whole ∧ t.block.mbxExists 2 = false ∧ t.block.debugOpen = false ∧
            t.block.fld hawPage 0x044 0 1 = 1 ∧ t.block.fld hawPage 0x014 5 1 = 1 ∧ t.block.fld hawPage 0x014 6 1 = 1 ∧
            Replied s.block t.block rq 0x0E 0 [0]
          else t.nv = s.nv ∧ t.block.regs = s.block.regs ∧ Replied s.block t.block rq 0x0E 7 [0]) ∧ FusesGrow s.nv.fuses t.nv.fuses ∧
        t.nv.flash = s.nv.flash ∧ t.nv.retired = s.nv.retired ∧ t.pending = s.pending ∧ MemoryKept s.block t.block ∧
        UnitsKept s.block t.block)))

/-- R553 to R557, R561, R562: a key word takes effect at once, zeroing the slot's count and applying the limit, or when the running operation ends; an operation on an invalid or spent slot, or
past the limit, is refused, the last with KEY_LIMIT; one that starts keeps its key; data beyond the length are ignored; its end shows the AES-256-CMAC and counts the blocks. Function 0 sets
whole keys, both issuers derive them and have tags computed. TH_KEY_WRITE, THORN_START, TH_DATA_WRITE, THORN_DONE, THORN_KEY_SET, THORN_KEY_DERIVE, THORN_MAC. -/
def Obligations.KeyedChecksFollowTheirSlots : Prop :=
  (∀ (s : State) (k w : Fin 8) (v : Word),
    ((∀ r, s.block.haw.thornRun = some r → r.slot ≠ k.val) → Does (.thKeyWrite k w v) s (fun b' =>
      (∀ i, i < 8 → (b'.thornSlot k).key.getD i 0 = if i = w.val then v else (s.block.thornSlot k).key.getD i 0) ∧
      (b'.thornSlot k).written = (s.block.thornSlot k).written ||| BitVec.ofNat 8 (2 ^ w.val) ∧
      (b'.thornSlot k).limit = 2 ^ s.block.fld thornPage 0x060 0 5 ∧ b'.thornUsed k = 0 ∧
      b'.fld thornPage 0x044 (2 + k) 1 = b2n ((b'.thornSlot k).written == 255) ∧
      (∀ j, j ≠ k.val → b'.thornSlot j = s.block.thornSlot j) ∧ PagesKeptBut s.block b' [thornPage] ∧ MemoryKept s.block b' ∧
      UnitsKept s.block b')) ∧
    (∀ r, s.block.haw.thornRun = some r → r.slot = k.val → Does (.thKeyWrite k w v) s (fun b' =>
      b'.thornSlot k = { s.block.thornSlot k with next := (s.block.thornSlot k).next ++ [(w.val, v)] } ∧ b'.haw.thornRun = some r ∧
      b'.regs = s.block.regs ∧ MemoryKept s.block b' ∧ UnitsKept s.block b'))) ∧
  (∀ (s : State) (v : Word),
    (s.block.haw.thornRun = none → bitOf v.toNat 3 = true → Does (.thornStart v) s (fun b' =>
      let k := v.toNat % 8
      let x := s.block.thornSlot k
      let len := s.block.regN thornPage 0x048
      b'.fld thornPage 0x040 0 3 = k ∧
      (if x.written = 255 ∧ s.block.thornUsed k + cmacBlocks len ≤ x.limit ∧ x.spent = false
        then b'.haw.thornRun = some ⟨k, bytesOfWords x.key, len, []⟩ ∧ b'.fld thornPage 0x044 0 2 = 1
        else b'.haw.thornRun = none ∧ b'.fld thornPage 0x044 0 2 = 3 ∧
          (x.written = 255 → x.limit < s.block.thornUsed k + cmacBlocks len →
            b'.fld thornPage 0x014 0 1 = 1 ∧ (b'.thornSlot k).spent = true)) ∧
      b'.thornUsed k = s.block.thornUsed k ∧ MemoryKept s.block b' ∧ UnitsKept s.block b')) ∧
    (∀ r, s.block.haw.thornRun = some r →
      Does (.thornStart v) s (fun b' => b'.haw = s.block.haw ∧ b'.fld thornPage 0x040 0 3 = v.toNat % 8 ∧
        RegsKeptBut s.block b' [(thornPage, 0x040)] ∧ MemoryKept s.block b' ∧ UnitsKept s.block b') ∧
      Does (.thDataWrite v) s (fun b' => b'.haw.thornRun = some { r with msg := (r.msg ++ toBytes 4 v.toNat).take r.len } ∧
        b'.regs = s.block.regs ∧ MemoryKept s.block b' ∧ UnitsKept s.block b') ∧
      (r.msg.length = r.len → Does .thornDone s (fun b' => b'.haw.thornRun = none ∧ b'.fld thornPage 0x044 0 2 = 2 ∧
        b'.regBytes thornPage 0x050 4 = padTo 16 (cmac r.key r.msg) ∧
        b'.thornUsed r.slot = (if (s.block.thornSlot r.slot).next = [] then (s.block.thornUsed r.slot + cmacBlocks r.len) % 2 ^ 64 else 0) ∧
        (b'.thornSlot r.slot).next = [] ∧ MemoryKept s.block b' ∧ UnitsKept s.block b')))) ∧
  (∀ (s : State) (rq : Req) (slot : Nat), 1 ≤ slot → slot < 8 → s.block.hawState = 1 →
    (∀ r, s.block.haw.thornRun = some r → r.slot ≠ slot) →
    (∀ key, isF0 rq = true → key.length = 8 → s.block.mbxQueue rq.mbx = true ∨ 12 ≤ s.block.mbxRegs rq.mbx →
      Does (.thornKeySet rq slot key) s (fun b' => (b'.thornSlot slot).key = key ∧ (b'.thornSlot slot).written = 255 ∧
        (b'.thornSlot slot).spent = false ∧ b'.thornUsed slot = 0 ∧ b'.fld thornPage 0x044 (2 + slot) 1 = 1 ∧
        Replied s.block b' rq 0x0F 0 [0] ∧ PagesKeptBut s.block b' [thornPage] ∧ MemoryKept s.block b' ∧ UnitsKept s.block b')) ∧
    (∀ label, isF0 rq = true ∨ isS rq = true → label.length = 4 →
      Does (.thornKeyDerive rq slot label) s (fun b' =>
        (b'.thornSlot slot).key = wordsOf 8 (Config.shake256 (s.nv.fuses.uds ++ bytesOfWords label) 32) ∧
        (b'.thornSlot slot).written = 255 ∧ b'.thornUsed slot = 0 ∧ Replied s.block b' rq 0x10 0 [0] ∧
        PagesKeptBut s.block b' [thornPage] ∧ MemoryKept s.block b' ∧ UnitsKept s.block b')) ∧
    (∀ message length, s.block.haw.thornRun = none → length < 2 ^ 32 →
      (isF0 rq = true ∧ ∃ bs, message = .host bs) ∨ (isS rq = true ∧ ∃ va, message = .virt va) → (s.block.thornSlot slot).next = [] →
      Does (.thornMac rq slot message length) s (fun b' =>
        let x := s.block.thornSlot slot
        (if x.written = 255 ∧ s.block.thornUsed slot + cmacBlocks length ≤ x.limit ∧ x.spent = false
          then (∃ ws, ws.length = 4 ∧ Replied s.block b' rq 0x11 0 (0 :: ws) ∧
            bytesOfWords ws = padTo 16 (cmac (bytesOfWords x.key) (s.block.argBytes none message length))) ∧
            b'.thornUsed slot = (s.block.thornUsed slot + cmacBlocks length) % 2 ^ 64
          else Replied s.block b' rq 0x11 4 [0] ∧ b'.thornUsed slot = s.block.thornUsed slot) ∧
        b'.haw.thornRun = none ∧ MemoryKept s.block b' ∧ UnitsKept s.block b')))

/-- R515, R545, R546, R551, R552: the SPDM responder of a running Hawthorn negotiates version 1.3, capabilities and algorithms in order and answers requests before their stage with an error;
it gives digests, certificate, signed challenge answers and measurements; it keeps up to four sessions, from key exchange to their end; it sends and takes large messages by chunks; in a session
IDE keys are set, a stream goes over to its other key set, warns after an hour or 2³² units and fails at 2³⁴. GET_VERSION, GET_CAPABILITIES, NEGOTIATE_ALGORITHMS, GET_DIGESTS, GET_CERTIFICATE,
CHALLENGE, GET_MEASUREMENTS, KEY_EXCHANGE, FINISH, HEARTBEAT, KEY_UPDATE, END_SESSION, CHUNK_GET, CHUNK_SEND, VENDOR_DEFINED_REQUEST, K_SET_GO, IDE_REKEY. -/
def Obligations.AttestationAnswersAndKeysIde : Prop :=
  (∀ (s : State), s.block.hawState = 1 →
    Does .getVersion s (fun b' => Sent b' (.spdm 0x04 [0x13] []) ∧
      b'.haw = { s.block.haw with spdm := { s.block.haw.spdm with stage := 1, sending := none, taking := none } } ∧
      b'.regs = s.block.regs ∧ MemoryKept s.block b' ∧ UnitsKept s.block b') ∧
    (1 ≤ s.block.haw.spdm.stage → Does .getCapabilities s (fun b' => Sent b' (.spdm 0x61 [spdmFlags, 4096, 65536] []) ∧
      b'.haw.spdm = { s.block.haw.spdm with stage := max s.block.haw.spdm.stage 2 } ∧ b'.regs = s.block.regs ∧ MemoryKept s.block b' ∧
      UnitsKept s.block b')) ∧
    (2 ≤ s.block.haw.spdm.stage → Does .negotiateAlgorithms s (fun b' => Sent b' (.spdm 0x63 [1, 2, 16, 1, 2] []) ∧
      b'.haw.spdm = { s.block.haw.spdm with stage := 3 } ∧ b'.regs = s.block.regs ∧ MemoryKept s.block b' ∧ UnitsKept s.block b')) ∧
    (∀ cmd stage, (cmd, stage) ∈ [(.getCapabilities, 1), (.negotiateAlgorithms, 2), (.getDigests, 3)] → s.block.haw.spdm.stage < stage →
      Does cmd s (fun b' => Sent b' (.spdm 0x7F [4] []) ∧ b'.haw = s.block.haw ∧ b'.regs = s.block.regs ∧ MemoryKept s.block b' ∧ UnitsKept s.block b'))) ∧
  (∀ (s : State), s.block.hawState = 1 → 3 ≤ s.block.haw.spdm.stage →
    Does .getDigests s (fun b' => Sent b' (.spdm 0x01 [1] (Config.sha3x384 (s.block.certChain s.nv))) ∧ b'.haw = s.block.haw ∧
      b'.regs = s.block.regs ∧ MemoryKept s.block b' ∧ UnitsKept s.block b') ∧
    (∀ offset length, offset ≤ (s.block.certChain s.nv).length →
      Does (.getCertificate 0 offset length) s (fun b' =>
        let part := ((s.block.certChain s.nv).drop offset).take length
        SpdmSends s.block b' 0x02 [part.length, (s.block.certChain s.nv).length - offset - part.length] part ∧ b'.regs = s.block.regs ∧
        MemoryKept s.block b' ∧ UnitsKept s.block b')) ∧
    (∀ nonce, Does (.challenge nonce) s (fun b' =>
      SpdmSigns s.nv s.block b' 0x03 [0] nonce (Config.sha3x384 (s.block.certChain s.nv)) ∧ b'.regs = s.block.regs ∧
      MemoryKept s.block b' ∧ UnitsKept s.block b')) ∧
    (∀ block nonce, Does (.getMeasurements block nonce) s (fun b' =>
      (if block = 0 then SpdmSigns s.nv s.block b' 0x60 [10] nonce []
       else if block = 255 then SpdmSigns s.nv s.block b' 0x60 ((List.range 10).map (· + 1)) nonce
          ((List.range 8).flatMap s.block.mr ++ s.block.regBytes hawPage 0x040 3 ++ s.block.regBytes hawPage 0x050 2)
       else if block ≤ 8 then SpdmSigns s.nv s.block b' 0x60 [block] nonce (s.block.mr (block - 1))
       else if block = 9 then SpdmSigns s.nv s.block b' 0x60 [9] nonce (s.block.regBytes hawPage 0x040 3)
       else if block = 10 then SpdmSigns s.nv s.block b' 0x60 [10] nonce (s.block.regBytes hawPage 0x050 2)
       else Sent b' (.spdm 0x7F [1] [])) ∧ b'.regs = s.block.regs ∧ MemoryKept s.block b' ∧ UnitsKept s.block b')) ∧
    (∀ encapKey, Does (.keyExchange encapKey) s (fun b' =>
      (if s.block.entropyOk = false then Sent b' (.spdm 0x7F [3] []) ∧ b'.haw = s.block.haw
       else match (List.range 4).find? fun i => (s.block.spdmSession i).phase == .absent with
        | none => Sent b' (.spdm 0x7F [0x0A] []) ∧ b'.haw = s.block.haw
        | some i => ∃ seed, b'.spdmSession i = ⟨.shaking, (Config.kemEncaps encapKey seed).2⟩ ∧
          (∀ j, j ≠ i → b'.spdmSession j = s.block.spdmSession j) ∧
          SpdmSigns s.nv s.block b' 0x64 [i] encapKey (Config.kemEncaps encapKey seed).1) ∧
      b'.regs = s.block.regs ∧ MemoryKept s.block b' ∧ UnitsKept s.block b')) ∧
    (∀ (j : Fin 4) verify, (s.block.spdmSession j).phase = .shaking → Does (.finish j verify) s (fun b' =>
      (if verify = Config.spdmVerify (s.block.spdmSession j).secret
        then b'.spdmSession j = { s.block.spdmSession j with phase := .established } ∧ Sent b' (.spdm 0x65 [j.val] [])
        else b'.spdmSession j = ⟨.absent, []⟩ ∧ Sent b' (.spdm 0x7F [6] [])) ∧ (∀ i, i ≠ j.val → b'.spdmSession i = s.block.spdmSession i) ∧
      b'.regs = s.block.regs ∧ MemoryKept s.block b' ∧ UnitsKept s.block b')) ∧
    (∀ (j : Fin 4), (s.block.spdmSession j).phase = .established →
      Does (.heartbeat j) s (fun b' => Sent b' (.spdm 0x68 [j.val] []) ∧ b'.haw = s.block.haw ∧ b'.regs = s.block.regs ∧ MemoryKept s.block b' ∧
        UnitsKept s.block b') ∧
      Does (.keyUpdate j) s (fun b' => Sent b' (.spdm 0x69 [j.val] []) ∧
        b'.spdmSession j = ⟨.established, Config.spdmUpdate (s.block.spdmSession j).secret⟩ ∧
        (∀ i, i ≠ j.val → b'.spdmSession i = s.block.spdmSession i) ∧ b'.regs = s.block.regs ∧ MemoryKept s.block b' ∧ UnitsKept s.block b') ∧
      Does (.endSession j) s (fun b' => Sent b' (.spdm 0x6C [j.val] []) ∧ b'.spdmSession j = ⟨.absent, []⟩ ∧
        (∀ i, i ≠ j.val → b'.spdmSession i = s.block.spdmSession i) ∧ b'.regs = s.block.regs ∧ MemoryKept s.block b' ∧ UnitsKept s.block b') ∧
      (∀ (stream : Fin 5) (keySet : Fin 2) key, Does (.vendorDefinedRequest j stream keySet key) s (fun b' =>
        Sent b' (.spdm 0x7E [stream.val, keySet.val] []) ∧ storeGet (fun _ => none) (b'.ideOf stream).keys keySet = some (padTo 32 key) ∧
        (b'.ideOf stream).cur = (s.block.ideOf stream).cur ∧ (∀ i, i ≠ stream.val → b'.ideOf i = s.block.ideOf i) ∧
        b'.regs = s.block.regs ∧ MemoryKept s.block b' ∧ UnitsKept s.block b')) ∧
      (∀ (stream : Fin 5) (i : Nat), i < 2 → (storeGet (fun _ => none) (s.block.ideOf stream).keys i).isSome = true →
        ((s.block.ideOf stream).cur = some (1 - i) ∨ ((s.block.ideOf stream).cur = none ∧
          (i = 0 ∨ storeGet (fun _ => none) (s.block.ideOf stream).keys 0 = none))) →
        Does (.kSetGo stream) s (fun b' => b'.ideOf stream = { s.block.ideOf stream with cur := some i, since := s.block.now, units := 0, told := false } ∧
          b'.fld hostPage 0x040 8 1 = 1 ∧ b'.fld hostPage 0x040 9 1 = b2n (b'.ideOf 0).cur.isSome ∧
          RegsKeptBut s.block b' [(hostPage, 0x040)] ∧ MemoryKept s.block b' ∧ UnitsKept s.block b')))) ∧
  (∀ (s : State) (l : SpdmLarge), s.block.hawState = 1 → 2 ≤ s.block.haw.spdm.stage → s.block.haw.spdm.sending = some l →
    Does (.chunkGet l.handle l.seq) s (fun b' =>
      Sent b' (.spdm 0x06 [l.handle, l.seq, b2n (l.bytes.drop (chunkBytes l.seq)).isEmpty] (l.bytes.take (chunkBytes l.seq))) ∧
      b'.haw.spdm.sending = (if l.bytes.length ≤ chunkBytes l.seq then none
        else some ⟨l.handle, l.seq + 1, l.bytes.drop (chunkBytes l.seq)⟩) ∧ b'.regs = s.block.regs ∧ MemoryKept s.block b' ∧
      UnitsKept s.block b')) ∧
  (∀ (s : State) (handle seq : Nat) (last : Bool) (bytes sofar : List Byte), s.block.hawState = 1 → 2 ≤ s.block.haw.spdm.stage →
    (seq = 0 ∧ sofar = []) ∨ (seq ≠ 0 ∧ s.block.haw.spdm.taking = some ⟨handle, seq, sofar⟩) →
    Does (.spdmChunkSend handle seq last bytes) s (fun b' =>
      (if 65536 < (sofar ++ bytes).length then Sent b' (.spdm 0x7F [0x0E] []) ∧ b'.haw.spdm.taking = none
       else Sent b' (.spdm 0x05 [handle, seq] []) ∧
        b'.haw.spdm.taking = (if last = true then none else some ⟨handle, seq + 1, sofar ++ bytes⟩)) ∧ b'.regs = s.block.regs ∧
      MemoryKept s.block b' ∧ UnitsKept s.block b')) ∧
  (∀ (s : State) (stream : Fin 5) (units i : Nat), (s.block.ideOf stream).cur = some i →
    let x := s.block.ideOf stream
    Does (.ideRekey stream units) s (fun b' =>
      ((2 ^ 32 ≤ x.units + units ∨ x.since + 3600000000000 ≤ s.block.now) → x.told = false → b'.fld hawPage 0x014 7 1 = 1) ∧
      (if x.units + units < 2 ^ 34
        then b'.ideOf stream = { x with units := x.units + units, told := x.told ||
            (decide (2 ^ 32 ≤ x.units + units) || decide (x.since + 3600000000000 ≤ s.block.now)) } ∧ UnitsKept s.block b'
        else b'.ideOf stream = IdeStream.none ∧ b'.fld hostPage 0x014 3 1 = 1 ∧ b'.fld hostPage 0x014 0 1 = 1 ∧
          b'.fld hostPage 0x040 0 8 = 0) ∧
      (x.units + units < 2 ^ 34 ∨ s.block.fld hostPage 0x040 10 1 = 1 ∨ (s.block.memQ = [] ∧ (s.block.hostFlights fun _ => true) = []) →
        MemoryKept s.block b')))

/-- R518, R544, R558, R559, R561: with the port open and the scope bit set, each debug command has its effect and is answered 0x00: pages read as the device view, HAWTHORN and THORN as 0; writes
follow BLK_LOCK; tier, bay and yard memory read and written, poison told by 0x09, other addresses refused by 0x01; cores halted, resumed, stepped, a register written read back; a running core's
registers refused by 0x04. While the port is locked, or without the bit, every request is answered 0x04, and once the port is sealed none is. The test access port passes the same words. DBG_INFO,
PAGE_READ, PAGE_WRITE, MEM_READ, MEM_WRITE, CORE_HALT, CORE_RESUME, CORE_STEP, CORE_REG_READ, CORE_REG_WRITE, MBX_ACCESS. -/
def Obligations.DebugPortServesItsScope : Prop :=
  (∀ (s : State) (seq : BitVec 8), s.block.mbxExists 2 = true → s.block.debugOpen = true →
    Does (.dbgInfo seq) s (fun b' => Replied s.block b' (debugReq seq) 1 0 ([0, s.block.haw.scope] ++ words64 s.block.haw.unlockedAt) ∧
      b'.regs = s.block.regs ∧ b'.haw = s.block.haw ∧ MemoryKept s.block b' ∧ UnitsKept s.block b') ∧
    (bitOf s.block.haw.scope.toNat 1 = true →
      (∀ page off count, 1 ≤ count → count ≤ 14 → goodSpan off count = true →
        Does (.pageRead seq page off count) s (fun b' => (∃ vs, vs.length = count ∧ Replied s.block b' (debugReq seq) 2 0 (0 :: vs) ∧
          (s.block.latched .debug page off = none → vs.head? = some (BitVec.ofNat 32 (s.block.readWord .debug page off))) ∧
          (page = hawPage ∨ page = thornPage → vs = List.replicate count 0 ∧ b'.regs = s.block.regs)) ∧ MemoryKept s.block b' ∧
          UnitsKept s.block b')) ∧
      (∀ page off words, words ≠ [] → words.length ≤ 12 → goodSpan off words.length = true →
        Does (.pageWrite seq page off words) s (fun b' => ⟨3, seq, 0, [0]⟩ ∈ (b'.mbx 2).replies ∧
          (page = hawPage ∨ page = thornPage ∨ s.block.fld page 0x01C 0 1 = 1 →
            b'.regs = s.block.regs ∧ MemoryKept s.block b' ∧ UnitsKept s.block b'))) ∧
      (∀ page k n v, pageKind page = some (k, n) → k ≠ .thorn → k ≠ .hawthorn → k ≠ .perfUser → s.block.pageRef .debug page = .page page →
        s.block.fld page 0x01C 0 1 = 0 →
        Does (.pageWrite seq page 0x018 [v]) s (fun b' => Replied s.block b' (debugReq seq) 3 0 [0] ∧
          (∀ i, i < 32 → bitOf (b'.regN page 0x018) i =
            if bitOf (eventMask k) i then bitOf v.toNat i else bitOf (s.block.regN page 0x018) i) ∧
          RegsKeptBut s.block b' [(page, 0x018)] ∧ MemoryKept s.block b' ∧ UnitsKept s.block b'))) ∧
    (bitOf s.block.haw.scope.toNat 2 = true → ∀ addr,
      (∀ count, 1 ≤ count → count ≤ 13 → Does (.memRead seq addr count) s (fun b' =>
        (if debugRange addr (4 * count) = true
          then Replied s.block b' (debugReq seq) 4 (if s.block.poisoned addr (4 * count) then 9 else 0)
            (0 :: wordsOf count (s.block.bytes addr (4 * count)))
          else Replied s.block b' (debugReq seq) 4 1 [0]) ∧ MemoryKept s.block b' ∧ UnitsKept s.block b')) ∧
      (∀ words, words ≠ [] → words.length ≤ 12 → Does (.memWrite seq addr words) s (fun b' =>
        (if debugRange addr (4 * words.length) = true
          then b'.bytes addr (4 * words.length) = bytesOfWords words ∧ MemoryKeptBut s.block b' addr (addr + 4 * words.length) ∧
            Replied s.block b' (debugReq seq) 5 0 [0]
          else MemoryKept s.block b' ∧ Replied s.block b' (debugReq seq) 5 1 [0]) ∧ UnitsKept s.block b'))) ∧
    (bitOf s.block.haw.scope.toNat 0 = true →
      (∀ mask, Does (.coreHalt seq mask) s (fun b' => b'.haw = { s.block.haw with halted := s.block.haw.halted ||| mask } ∧
        Replied s.block b' (debugReq seq) 6 0 [0, (s.block.haw.halted ||| mask).setWidth 32] ∧ b'.regs = s.block.regs ∧
        MemoryKept s.block b' ∧ UnitsKept s.block b') ∧
        Does (.coreResume seq mask) s (fun b' => b'.haw.halted = s.block.haw.halted &&& ~~~mask ∧
          Replied s.block b' (debugReq seq) 7 0 [0] ∧ b'.regs = s.block.regs ∧ MemoryKept s.block b' ∧ UnitsKept s.block b')) ∧
      (∀ core reg count (value : DWord), core < 8 → coreReg reg = true → 1 ≤ count → count ≤ 65535 →
        (s.block.haw.halted.getLsbD core = true →
          Does (.coreStep seq core count) s (fun b' => (∃ pc, Replied s.block b' (debugReq seq) 8 0 (0 :: words64 pc) ∧
            (b'.coreValue core pcReg).2.toNat = pc) ∧ b'.regs = s.block.regs ∧ MemoryKept s.block b' ∧ UnitsKept s.block b') ∧
          Does (.coreRegRead seq core reg) s (fun b' =>
            Replied s.block b' (debugReq seq) 9 0 (0 :: words64 (s.block.coreValue core reg).2.toNat) ∧
            (reg ≤ 64 → (b'.coreValue core reg).2 = (s.block.coreValue core reg).2) ∧ b'.regs = s.block.regs ∧ MemoryKept s.block b' ∧
            UnitsKept s.block b') ∧
          Does (.coreRegWrite seq core reg value) s (fun b' => Replied s.block b' (debugReq seq) 0x0A 0 [0] ∧
            (1 ≤ reg → reg ≤ 64 → (b'.coreValue core reg).2 = value) ∧ (reg = 0 → (b'.coreValue core 0).2 = 0) ∧
            (∀ q ∈ s.block.haw.coreRegs, q.1 ≠ 65536 * core + reg → q ∈ b'.haw.coreRegs) ∧ b'.regs = s.block.regs ∧
            MemoryKept s.block b' ∧ UnitsKept s.block b')) ∧
        (s.block.haw.halted.getLsbD core = false →
          ∀ cmd code, (cmd, code) ∈ [(Instr.coreStep seq core count, 8), (.coreRegRead seq core reg, 9), (.coreRegWrite seq core reg value, 10)] →
            Does cmd s (fun b' => Replied s.block b' (debugReq seq) code 4 [0] ∧ b'.haw = s.block.haw ∧ b'.regs = s.block.regs))))) ∧
  (∀ (s : State) (seq : BitVec 8) page off count addr mask core reg (words : List Word) (value : DWord) cmd code bit,
    (cmd, code, bit) ∈ [(Instr.pageRead seq page off count, 2, 1), (.pageWrite seq page off words, 3, 1), (.memRead seq addr count, 4, 2),
      (.memWrite seq addr words, 5, 2), (.coreHalt seq mask, 6, 0), (.coreResume seq mask, 7, 0), (.coreStep seq core count, 8, 0),
      (.coreRegRead seq core reg, 9, 0), (.coreRegWrite seq core reg value, 10, 0)] →
    (s.block.mbxExists 2 = true → (s.block.debugOpen = false ∨ bitOf s.block.haw.scope.toNat bit = false) →
      Does cmd s (fun b' => Replied s.block b' (debugReq seq) code 4 [0] ∧ b'.regs = s.block.regs ∧ b'.haw = s.block.haw ∧
        MemoryKept s.block b' ∧ UnitsKept s.block b')) ∧
    (s.block.mbxExists 2 = false → exec cmd s = .next s)) ∧
  (∀ (s : State) (value : Word), s.block.mbxExists 2 = true → s.block.debugOpen = true →
    Does (.mbxAccess value) s (fun b' =>
      (if (s.block.mbx 2).rplFull = true
        then Sent b' (.tap (s.block.reg (mbxRegion 2) (0x080 + 4 * s.block.haw.tapOut))) ∧
          (if s.block.haw.tapOut < min 15 (headLen (s.block.reg (mbxRegion 2) 0x080))
            then b'.haw.tapOut = s.block.haw.tapOut + 1 ∧ (b'.mbx 2).rplFull = true
            else b'.haw.tapOut = 0 ∧ (b'.mbx 2).rplFull = false)
        else Sent b' (.tap 0) ∧ b'.haw.tapOut = s.block.haw.tapOut) ∧
      (let ws := s.block.haw.tapIn ++ [value]
       if s.block.haw.tapIn = [] ∧ value = 0 then b'.haw.tapIn = [] ∧ (b'.mbx 2).reqFull = (s.block.mbx 2).reqFull
       else if ws.length ≤ min 15 (headLen (ws.headD 0)) then b'.haw.tapIn = ws ∧ (b'.mbx 2).reqFull = (s.block.mbx 2).reqFull
       else b'.haw.tapIn = [] ∧ (b'.mbx 2).reqFull = true ∧
        ((s.block.mbx 2).reqFull = false → ∀ i, i < ws.length → b'.reg (mbxRegion 2) (4 * i) = ws.getD i 0)) ∧
      MemoryKept s.block b' ∧ UnitsKept s.block b'))

/-- R564 to R572, R576, R577, R584, R585, R625, R626, R629 to R632: the governor's duty follows the three averages and a new cap applies from the next sample; a domain is switched off where its
condition allows, losing its contents, is woken in turn 25 µs after the last and is ready 520 µs later; an island's duty follows its temperature, a trip switches the domains off; a rail's droop,
the input and the coolant are recorded and reported; the sideband reads sensors and sets the cap. GOVERNOR_SAMPLE, POWER_CAP_SET, PLDM_POWER_CAP, PLDM_GET_SENSOR, DOMAIN_POWER, DOMAIN_WAKE,
DOMAIN_READY, THERMAL_SAMPLE, VOLTAGE_DROOP, RAIL_RECOVERS, INPUT_RANGE, COOLANT_SAMPLE. -/
def Obligations.PowerFollowsLoadAndHeat : Prop :=
  (∀ (s : State) (avg100us avg1ms avg1s : Nat),
    let cap := (s.block.power.capNext.map (· % 2 ^ 32)).getD (s.block.regN powerPage 0x040)
    let d := s.block.regN powerPage 0x054
    let d' := if 2900 < avg100us then max d 32 else if cap < avg1ms then min 64 (d + 1) else if avg1ms * 100 < cap * 98 then d - 1 else d
    Does (.governorSample avg100us avg1ms avg1s) s (fun b' => b'.regN powerPage 0x040 = cap ∧ b'.power.capNext = none ∧
      b'.regN powerPage 0x054 = d' ∧ b'.regN powerPage 0x06C < 2 ^ 16 ∧ b'.free = s.block.free + 1 ∧ b'.regN powerPage 0x044 = avg1ms % 4096 ∧ b'.regN powerPage 0x048 = avg1s % 4096 ∧
      b'.reg64 powerPage 0x058 = (s.block.reg64 powerPage 0x058 + (s.block.power.energyRem + avg100us) / 100) % 2 ^ 64 ∧
      (s.block.power.alarm = false →
        1000 < (s.block.power.govHigh.filter (s.block.now < · + 1000000000)).length + (if 0 < d' then 1 else 0) →
        b'.power.alarm = true ∧ b'.fld powerPage 0x014 0 1 = 1) ∧ MemoryKept s.block b' ∧ UnitsKept s.block b')) ∧
  (∀ (s : State) (rq : Req) (watts : Nat), rq.by_ = .pf →
    Does (.powerCapSet rq watts) s (fun b' => (if 1200 ≤ watts ∧ watts ≤ 2600
      then b'.power.capNext = some watts ∧ Replied s.block b' rq 0x60 0 [0]
      else b'.power = s.block.power ∧ Replied s.block b' rq 0x60 1 [0]) ∧ b'.regs = s.block.regs ∧ MemoryKept s.block b' ∧
      UnitsKept s.block b')) ∧
  (∀ (s : State), s.block.sideband = true →
    (∀ watts, Does (.pldmPowerCap watts) s (fun b' =>
      b' = { s.block with power := { s.block.power with capNext := if 1200 ≤ watts ∧ watts ≤ 2600 then some watts else s.block.power.capNext } })) ∧
    (∀ sensor n (v : Int), (sensor, n, v) ∈ [(PldmSensor.inputVoltage, 0, (s.block.fld powerPage 0x068 0 16 : Int)),
        (.inputCurrent, 1, (s.block.fld powerPage 0x06C 0 16 : Int)), (.inputPower, 2, (s.block.regN powerPage 0x048 : Int)),
        (.hottestJunction, 3, signedOf 16 (s.block.fld healthPage 0x040 0 16)), (.coolantInlet, 4, signedOf 16 (s.block.fld healthPage 0x048 0 16)),
        (.coolantOutlet, 5, signedOf 16 (s.block.fld healthPage 0x04C 0 16)), (.deviceState, 6, (s.block.fld devPage 0x040 0 3 : Int)),
        (.hawthornState, 7, (s.block.regN hawPage 0x040 : Int))] →
      Does (.pldmGetSensor sensor) s (fun b' => b' = s.block.emit (.pldm n v))) ∧
    Does (.pldmGetSensor .fruRecord) s (fun b' => b' = s.block.emit (.fru (orderingCode s.nv) s.nv.serial (BitVec.ofNat 64 (deviceIdOf s.nv))))) ∧
  (∀ (s : State) (rq : Req) (d : Nat), rq.by_ = .pf → d < 20 →
    Does (.domainPower rq d true) s (fun b' => bitOf b'.power.operatorOff.toNat d = false ∧
      (bitOf (s.block.regN powerPage 0x04C) d = false → d ∈ b'.power.wakeQueue) ∧ Replied s.block b' rq 0x61 0 [0] ∧
      b'.regs = s.block.regs ∧ MemoryKept s.block b' ∧ UnitsKept s.block b') ∧
    (s.block.mayBeOff d = true → Does (.domainPower rq d false) s (fun b' => bitOf (b'.regN powerPage 0x04C) d = false ∧
      b'.domainReady d = false ∧ bitOf b'.power.operatorOff.toNat d = true ∧ d ∉ b'.power.wakeQueue ∧ Replied s.block b' rq 0x61 0 [0] ∧
      (d < 16 → ∀ a ∈ domainArrays d, b'.vec a = VecUnit.none ∧ (b'.arr a).entries = [] ∧
        ∀ i, i < baySize → b'.byte (regionBase .bay + a * baySize + i) = 0) ∧
      (d = 16 → ∀ x, x < regionSize .near → b'.byte x = 0) ∧
      (d = 17 → ∀ x, regionOf x = some .deep → b'.byte x = 0) ∧ (18 ≤ d → MemoryKept s.block b') ∧ b'.sems = s.block.sems)) ∧
    (s.block.mayBeOff d = false → Does (.domainPower rq d false) s (fun b' => Replied s.block b' rq 0x61 4 [0] ∧ b'.power = s.block.power ∧
      b'.regs = s.block.regs ∧ MemoryKept s.block b' ∧ UnitsKept s.block b'))) ∧
  (∀ (s : State) (d : Fin 20) (rest : List Nat), s.block.power.wakeQueue = d.val :: rest →
    (∀ t, s.block.power.lastOn = some t → t + 25000 ≤ s.block.now) →
    Does (.domainWake d) s (fun b' => bitOf (b'.regN powerPage 0x04C) d = true ∧ b'.power.wakeQueue = rest ∧
      storeGet (fun _ => 0) b'.power.onAt d = s.block.now ∧ b'.power.lastOn = some s.block.now ∧
      (s.block.fld devPage 0x040 0 3 = 0 → b'.fld devPage 0x040 0 3 = 1) ∧ RegsKeptBut s.block b' [(powerPage, 0x04C), (devPage, 0x040)] ∧
      MemoryKept s.block b' ∧ UnitsKept s.block b')) ∧
  (∀ (s : State) (d : Fin 20), bitOf (s.block.regN powerPage 0x04C) d = true →
    storeGet (fun _ => 0) s.block.power.onAt d + 520000 ≤ s.block.now →
    Does (.domainReady d) s (fun b' => b'.domainReady d = true ∧
      (d.val < 16 → ∀ a ∈ domainArrays d.val, s.block.retired a = false → s.block.arrayState a = 0 → b'.fld (pageOf .array a) 0x00C 0 1 = 1) ∧
      (∀ w ∈ s.block.power.waits, (∀ e ∈ w.domains, e = d.val ∨ s.block.domainReady e = true) →
        ⟨w.code, w.rq.seq, 0, w.words⟩ ∈ (b'.mbx w.rq.mbx).replies ∧ w ∉ b'.power.waits) ∧ MemoryKept s.block b' ∧ UnitsKept s.block b')) ∧
  (∀ (s : State) (a : Fin 128) (t0 t1 : Int),
    let t := max t0 t1
    let x := s.block.therm a
    let trips := 1760 ≤ t ∨ (1680 ≤ t ∧ ∃ u, x.hotSince = some u ∧ u + 100000000 ≤ s.block.now)
    Does (.thermalSample a t0 t1) s (fun b' => b'.regN healthPage (0x400 + 4 * a.val) = tempCode t0 + 2 ^ 16 * tempCode t1 ∧
      b'.regN healthPage 0x040 = tempCode b'.hottest.1 + 2 ^ 16 * b'.hottest.2 ∧
      (b'.therm a).duty = (if 1680 ≤ t then 16
        else if 1600 ≤ t then (if x.duty = 0 ∨ x.roseAt + 100000 ≤ s.block.now then min 16 (x.duty + 1) else x.duty)
        else if t < 1568 ∧ x.fellAt + 1000000 ≤ s.block.now ∧ x.roseAt + 1000000 ≤ s.block.now then x.duty - 1 else x.duty) ∧
      (1680 ≤ t → x.hotSince = none → b'.fld healthPage 0x014 0 1 = 1) ∧
      (trips → s.block.power.tripped = 0 → b'.fld healthPage 0x014 1 1 = 1 ∧ b'.fld devPage 0x040 0 3 = 5 ∧
        (∀ d, d < 16 ∨ d = 18 ∨ d = 19 → bitOf (b'.regN powerPage 0x04C) d = false) ∧
        (∀ y, y < regionBase .bay → b'.byte y = s.block.byte y)) ∧
      (¬ trips → MemoryKept s.block b' ∧ UnitsKept s.block b') ∧ b'.sems = s.block.sems)) ∧
  (∀ (s : State) (m : Fin 64) (v : BitVec 16) (cmd : Instr) (low : Bool),
    (cmd = .voltageDroop m v ∧ low = true) ∨ (cmd = .railRecovers m v ∧ low = false) →
    Does cmd s (fun b' => b'.regN healthPage (0x600 + 4 * m.val) = v.toNat ∧
      (∀ i : Fin 64, bitOf b'.power.droop.toNat i = if i = m then low else bitOf s.block.power.droop.toNat i) ∧
      RegsKeptBut s.block b' [(healthPage, 0x600 + 4 * m.val)] ∧ MemoryKept s.block b' ∧ UnitsKept s.block b')) ∧
  (∀ (s : State) (mv : BitVec 16), Does (.inputRange mv) s (fun b' => b'.regN powerPage 0x068 = mv.toNat ∧
      (if tolerated mv.toNat = true then b'.power.rangeSince = some (s.block.power.rangeSince.getD s.block.now) ∧
          (s.block.power.rangeSince = none → b'.fld powerPage 0x014 3 1 = 1)
        else b'.power.rangeSince = none) ∧ MemoryKept s.block b' ∧ UnitsKept s.block b')) ∧
  (∀ (s : State) (inlet outlet : Int), Does (.coolantSample inlet outlet) s (fun b' =>
      b'.regN healthPage 0x048 = tempCode inlet ∧ b'.regN healthPage 0x04C = tempCode outlet ∧
      b'.power.deltaSince = (if 400 < outlet - inlet then some (s.block.power.deltaSince.getD s.block.now) else none) ∧
      b'.power.inletSince = (if 640 < inlet then some (s.block.power.inletSince.getD s.block.now) else none) ∧
      ((∃ u, (b'.power.deltaSince = some u ∧ s.block.power.deltaDone = false ∨ b'.power.inletSince = some u ∧ s.block.power.inletDone = false) ∧
        u + 10000000000 ≤ s.block.now) → b'.fld healthPage 0x014 2 1 = 1) ∧ MemoryKept s.block b' ∧ UnitsKept s.block b'))

/-- R579 to R584, R588: a reading of the 512 monitors records each group's margin, clipped to a byte; a group below the guard takes a voltage step, or its field decides a clock step when the
group's steps are used up, the clock is above the floor and the field has decided none today, or the group is exhausted, each told once; a group without slack is tested; a decided clock step
takes effect at the field's quiesce point; a measurement is a reading on command; AGEING_CONFIG sets period, guard and floor within their ranges. AGEING_READING, AGEING_MEASURE,
AGEING_CONFIG, CLOCK_STEP. -/
def Obligations.AgeingIsReadAndReplanned : Prop :=
  (∀ (s : State) (slacks : List Int) (cmd : Instr), slacks.length = 512 →
    cmd = .ageingReading slacks ∨ (∃ rq, rq.by_ = .pf ∧ cmd = .ageingMeasure rq slacks) →
    Does cmd s (fun b' => b'.reg64 ageingPage 0x050 = s.block.now % 2 ^ 64 ∧
      (∀ g, g < 16 →
        let m := marginOf slacks g
        let n := s.block.offsetSteps g
        let f := g / 4
        let low := m < s.block.regN ageingPage 0x044
        b'.fld ageingPage (0x100 + 4 * g) 8 8 = (max 0 (min 255 m)).toNat ∧
        b'.offsetSteps g = (if low ∧ n < 16 then n + 1 else n) ∧
        (low → n < 16 → b'.fld ageingPage 0x014 0 1 = 1) ∧
        (low → 16 ≤ n → s.block.regN ageingPage 0x048 < s.block.fieldClk f → s.block.clockStepToday f = false → b'.stepDecided f = true) ∧
        (low → 16 ≤ n → s.block.fieldClk f ≤ s.block.regN ageingPage 0x048 → bitOf b'.power.exhausted.toNat g = true ∧
          (bitOf s.block.power.exhausted.toNat g = false → b'.fld ageingPage 0x014 1 1 = 1)) ∧
        (m < 0 → ∀ a ∈ domainArrays g, s.block.arrayState a = 0 ∨ s.block.arrayState a = 3 → b'.fld (pageOf .array a) 0x00C 0 1 = 1)) ∧
      (∀ f, f < 4 → b'.fieldClk f = s.block.fieldClk f) ∧
      (∀ rq, cmd = .ageingMeasure rq slacks → Replied s.block b' rq 0x62 0 [0]) ∧ MemoryKept s.block b' ∧ UnitsKept s.block b')) ∧
  (∀ (s t : State) (xs ys : List Int), xs.length = 512 → exec (.ageingReading xs) s = .next t →
    exec (.ageingReading (xs ++ ys)) s = exec (.ageingReading ys) t) ∧
  (∀ (s : State) (rq : Req) (period guard_ floor : Nat), rq.by_ = .pf →
    Does (.ageingConfig rq period guard_ floor) s (fun b' =>
      (if 1 ≤ period ∧ period ≤ 168 ∧ 5 ≤ guard_ ∧ guard_ ≤ 100 ∧ 1500 ≤ floor ∧ floor ≤ 2500 ∧ floor % 25 = 0
        then b'.regN ageingPage 0x040 = period ∧ b'.regN ageingPage 0x044 = guard_ ∧ b'.regN ageingPage 0x048 = floor ∧
          Replied s.block b' rq 0x63 0 [0]
        else b'.regs = s.block.regs ∧ Replied s.block b' rq 0x63 1 [0]) ∧
      RegsKeptBut s.block b' [(ageingPage, 0x040), (ageingPage, 0x044), (ageingPage, 0x048)] ∧ MemoryKept s.block b' ∧ UnitsKept s.block b')) ∧
  (∀ (s : State) (f : Fin 4), s.block.stepDecided f = true → s.block.fieldBusy f (s.block.fieldClk f - 25) = false →
    Does (.clockStep f) s (fun b' => b'.fieldClk f = s.block.fieldClk f - 25 ∧ b'.stepDecided f = false ∧
      (∀ g, g ≠ f.val → b'.stepDecided g = s.block.stepDecided g) ∧
      (∀ i, i < 32 → b'.fld (pageOf .array (32 * f.val + i)) 0x01C 0 1 = 0) ∧ MemoryKept s.block b' ∧ UnitsKept s.block b'))

/-- A step carries out the command at the front of the queue with the queue's rest; on an empty queue it idles, and the time base advances, by a nanosecond while it is not slewed: the model's choice
(log entry 1), with what the spec counts in nanoseconds beside it. Every command of the table completes with a next state and leaves the queue as it is, in every state and for all its operands, but for a
MEM_ACCESS of the Steward outside the regions of the map (R203). -/
def Obligations.StepRunsTheFrontCommand : Prop :=
  (∀ (s : State) (c : Instr) (rest : List Instr), s.pending = c :: rest → step s = exec c { s with pending := rest }) ∧
  (∀ (s : State) (c : Instr), (∀ addr op e, c = .memAccess .steward addr op e → inRegion addr (opLen op) = true) →
    ∃ t, exec c s = .next t ∧ t.pending = s.pending) ∧
  (∀ (s : State), s.pending = [] → ∃ t, step s = .next t ∧ t.pending = [] ∧ t.nv = s.nv ∧
    (s.block.slew = 0 → s.block.slewAcc = 0 → t.block.now = s.block.now + 1) ∧
    (s.block.regN (pageOf .power 0) 0x054 ≠ 0 →
      t.block.reg64 (pageOf .power 0) 0x060 = (s.block.reg64 (pageOf .power 0) 0x060 + 1) % 2 ^ 64) ∧
    MemoryKept s.block t.block ∧ UnitsKept s.block t.block ∧ t.block.flights = s.block.flights)

/-- The state after reset holds what the spec's tables give: Hawthorn in BOOT, the device in POWER_ON, no array retired, Thorn without a key and its limit at 2²⁴, the time base at 0, every semaphore 0, every
channel disabled, every mailbox empty, no partition, no recovery, memory, bays and yard zero, no command waiting.
The values of semaphores, memory, marks and registers without a stated reset value are the model's choice (log entries 8, 9 and 10). -/
def Obligations.ResetHoldsWhatTheSpecGives : Prop :=
  let b := State.reset.block
  State.reset.pending = [] ∧ b.now = 0 ∧ b.hawState = 0 ∧ b.fld devPage 0x040 0 3 = 0 ∧ b.regN devPage 0x050 = 0 ∧
  b.regN thornPage 0x044 = 0 ∧ b.regN thornPage 0x060 = 24 ∧ b.regN (pageOf .recovery 0) 0x040 = 0 ∧
  (∀ i, b.sem i = 0) ∧ (∀ c, c < 256 → b.chanState c = 0) ∧ (∀ m, b.mbx m = Mailbox.none) ∧ (∀ p, b.part p = Machine.Part.none) ∧
  (∀ a, b.byte a = 0 ∧ b.marked (a / 64) = false) ∧ b.out = []

/-- R19, R593: a block that a requester's view does not show reads 0 at every offset and ignores writes; so do counters c to 7 of a leaf's page with their PERF_SEL registers, c being the manifest's COUNTERS,
while the first c keep what they hold. LOW_HALF_READ, REG_WRITE. -/
def Obligations.AbsentBlocksAndCountersReadZero : Prop :=
  (∀ (s : State) (who : Agent) (x off width : Nat) (v : DWord), x < 0x4000 → s.block.pageRef who x = .absent →
    Does (.lowHalfRead who x ⟨off, width⟩ none) s (fun b' => b' = s.block.emit (.readData who x off 0)) ∧
    exec (.regWrite who x off width v) s = .next s) ∧
  (∀ (s : State) (who : Agent) (p : Fin 64) (k : Nat) (v : DWord),
    s.block.pageRef who (pageOf .perf p) = .page (pageOf .perf p) → k < 8 →
    ((s.block.grant p).counters ≤ k → ∀ off, off ∈ [0x080 + 8 * k, 0x084 + 8 * k, 0x0C0 + 8 * k, 0x0C4 + 8 * k, 0x100 + 4 * k] →
      s.block.readWord who (pageOf .perf p) off = 0 ∧ exec (.regWrite who (pageOf .perf p) off 4 v) s = .next s) ∧
    (k < (s.block.grant p).counters → ∀ off, off ∈ [0x080 + 8 * k, 0x084 + 8 * k, 0x0C0 + 8 * k, 0x0C4 + 8 * k, 0x100 + 4 * k] →
      s.block.readWord who (pageOf .perf p) off = s.block.regN (pageOf .perf p) off))

/-- R2, R120, R534, R540, R561: whatever state a step starts from, and whatever command it carries out, a blown fuse stays blown and a fuse SVN never falls, so the seal, a revocation and a commit are for
good; an array once recorded as retired stays recorded; only the commands that write the records change them; no command adds to the queue; and once the seal is blown no later step runs with it whole. -/
def Obligations.EveryStepKeepsTheRecords : Prop :=
  ∀ (s t : State), step s = .next t →
    FusesGrow s.nv.fuses t.nv.fuses ∧ t.nv.retired &&& s.nv.retired = s.nv.retired ∧ t.pending = s.pending.tail ∧
    (s.pending.head?.any writesRecords = false → t.nv = s.nv) ∧
    (s.nv.fuses.dbgSeal.blown = true → ∀ (u : State) (rq : Req) (scope : Word) (sr : SignedReq),
      exec (.debugUnlock rq scope sr) t = .next u → u.block.haw.scope = t.block.haw.scope ∧ u.block.debugOpen = t.block.debugOpen)

/-- The records of the reset state meet the invariant's premises: nothing is blown and nothing is retired, so every state that steps reach from it has only what commands wrote.
That reset begins with factory records is the model's choice (log entry 10). -/
def Obligations.ResetRecordsAreClear : Prop :=
  State.reset.nv.fuses.dbgSeal.blown = false ∧ (∀ i, (State.reset.nv.fuses.vendorBit i).blown = false ∧
    (State.reset.nv.fuses.validBit i).blown = false ∧ (State.reset.nv.fuses.revokeBit i).blown = false) ∧
  State.reset.nv.retired = 0 ∧ (∀ kind sl, State.reset.nv.slot kind sl = none) ∧ State.reset.nv.fuses.owned = false
end

