-- ==== Sys2Proof/Laws/State.lean ====
section
/-!
SUPPORT. What each update of the block leaves alone: one lemma for each field of the block and each named update.
-/

namespace Sys2Proof.Machine

variable (b : Block)

@[simp] theorem setReg_now (p o : Nat) (v : Word) : (b.setReg p o v).now = b.now := rfl
@[simp] theorem setReg_free (p o : Nat) (v : Word) : (b.setReg p o v).free = b.free := rfl
@[simp] theorem setReg_latch (p o : Nat) (v : Word) : (b.setReg p o v).latch = b.latch := rfl
@[simp] theorem setReg_mem (p o : Nat) (v : Word) : (b.setReg p o v).mem = b.mem := rfl
@[simp] theorem setReg_poison (p o : Nat) (v : Word) : (b.setReg p o v).poison = b.poison := rfl
@[simp] theorem setReg_poisonB (p o : Nat) (v : Word) : (b.setReg p o v).poisonB = b.poisonB := rfl
@[simp] theorem setReg_hostMem (p o : Nat) (v : Word) : (b.setReg p o v).hostMem = b.hostMem := rfl
@[simp] theorem setReg_hostBad (p o : Nat) (v : Word) : (b.setReg p o v).hostBad = b.hostBad := rfl
@[simp] theorem setReg_rings (p o : Nat) (v : Word) : (b.setReg p o v).rings = b.rings := rfl
@[simp] theorem setReg_sems (p o : Nat) (v : Word) : (b.setReg p o v).sems = b.sems := rfl
@[simp] theorem setReg_chans (p o : Nat) (v : Word) : (b.setReg p o v).chans = b.chans := rfl
@[simp] theorem setReg_flights (p o : Nat) (v : Word) : (b.setReg p o v).flights = b.flights := rfl
@[simp] theorem setReg_parts (p o : Nat) (v : Word) : (b.setReg p o v).parts = b.parts := rfl
@[simp] theorem setReg_grants (p o : Nat) (v : Word) : (b.setReg p o v).grants = b.grants := rfl
@[simp] theorem setReg_drafts (p o : Nat) (v : Word) : (b.setReg p o v).drafts = b.drafts := rfl
@[simp] theorem setReg_arrays (p o : Nat) (v : Word) : (b.setReg p o v).arrays = b.arrays := rfl
@[simp] theorem setReg_vecs (p o : Nat) (v : Word) : (b.setReg p o v).vecs = b.vecs := rfl
@[simp] theorem setReg_slots (p o : Nat) (v : Word) : (b.setReg p o v).slots = b.slots := rfl
@[simp] theorem setReg_images (p o : Nat) (v : Word) : (b.setReg p o v).images = b.images := rfl
@[simp] theorem setReg_carts (p o : Nat) (v : Word) : (b.setReg p o v).carts = b.carts := rfl
@[simp] theorem setReg_foldRun (p o : Nat) (v : Word) : (b.setReg p o v).foldRun = b.foldRun := rfl
@[simp] theorem setReg_events (p o : Nat) (v : Word) : (b.setReg p o v).events = b.events := rfl
@[simp] theorem setReg_evQueues (p o : Nat) (v : Word) : (b.setReg p o v).evQueues = b.evQueues := rfl
@[simp] theorem setReg_health (p o : Nat) (v : Word) : (b.setReg p o v).health = b.health := rfl
@[simp] theorem setReg_mailboxes (p o : Nat) (v : Word) : (b.setReg p o v).mailboxes = b.mailboxes := rfl
@[simp] theorem setReg_snoop (p o : Nat) (v : Word) : (b.setReg p o v).snoop = b.snoop := rfl
@[simp] theorem setReg_power (p o : Nat) (v : Word) : (b.setReg p o v).power = b.power := rfl
@[simp] theorem setReg_mcs (p o : Nat) (v : Word) : (b.setReg p o v).mcs = b.mcs := rfl
@[simp] theorem setReg_memQ (p o : Nat) (v : Word) : (b.setReg p o v).memQ = b.memQ := rfl
@[simp] theorem setReg_xlCaches (p o : Nat) (v : Word) : (b.setReg p o v).xlCaches = b.xlCaches := rfl
@[simp] theorem setReg_cacheSel (p o : Nat) (v : Word) : (b.setReg p o v).cacheSel = b.cacheSel := rfl
@[simp] theorem setReg_xlInvs (p o : Nat) (v : Word) : (b.setReg p o v).xlInvs = b.xlInvs := rfl
@[simp] theorem setReg_recs (p o : Nat) (v : Word) : (b.setReg p o v).recs = b.recs := rfl
@[simp] theorem setReg_ports (p o : Nat) (v : Word) : (b.setReg p o v).ports = b.ports := rfl
@[simp] theorem setReg_leafRuns (p o : Nat) (v : Word) : (b.setReg p o v).leafRuns = b.leafRuns := rfl
@[simp] theorem setReg_queues (p o : Nat) (v : Word) : (b.setReg p o v).queues = b.queues := rfl
@[simp] theorem setReg_msgSeq (p o : Nat) (v : Word) : (b.setReg p o v).msgSeq = b.msgSeq := rfl
@[simp] theorem setReg_shards (p o : Nat) (v : Word) : (b.setReg p o v).shards = b.shards := rfl
@[simp] theorem setReg_flows (p o : Nat) (v : Word) : (b.setReg p o v).flows = b.flows := rfl
@[simp] theorem setReg_sessions (p o : Nat) (v : Word) : (b.setReg p o v).sessions = b.sessions := rfl
@[simp] theorem setReg_pdraws (p o : Nat) (v : Word) : (b.setReg p o v).pdraws = b.pdraws := rfl
@[simp] theorem setReg_prDone (p o : Nat) (v : Word) : (b.setReg p o v).prDone = b.prDone := rfl
@[simp] theorem setReg_lost (p o : Nat) (v : Word) : (b.setReg p o v).lost = b.lost := rfl
@[simp] theorem setReg_mail (p o : Nat) (v : Word) : (b.setReg p o v).mail = b.mail := rfl
@[simp] theorem setReg_haw (p o : Nat) (v : Word) : (b.setReg p o v).haw = b.haw := rfl
@[simp] theorem setReg_slew (p o : Nat) (v : Word) : (b.setReg p o v).slew = b.slew := rfl
@[simp] theorem setReg_slewAcc (p o : Nat) (v : Word) : (b.setReg p o v).slewAcc = b.slewAcc := rfl
@[simp] theorem setReg_rebuilds (p o : Nat) (v : Word) : (b.setReg p o v).rebuilds = b.rebuilds := rfl
@[simp] theorem setReg_zeroing (p o : Nat) (v : Word) : (b.setReg p o v).zeroing = b.zeroing := rfl
@[simp] theorem setReg_warm (p o : Nat) (v : Word) : (b.setReg p o v).warm = b.warm := rfl
@[simp] theorem setReg_hdm (p o : Nat) (v : Word) : (b.setReg p o v).hdm = b.hdm := rfl
@[simp] theorem setReg_quiescing (p o : Nat) (v : Word) : (b.setReg p o v).quiescing = b.quiescing := rfl
@[simp] theorem setReg_invWaits (p o : Nat) (v : Word) : (b.setReg p o v).invWaits = b.invWaits := rfl
@[simp] theorem setReg_ide (p o : Nat) (v : Word) : (b.setReg p o v).ide = b.ide := rfl
@[simp] theorem setReg_out (p o : Nat) (v : Word) : (b.setReg p o v).out = b.out := rfl

@[simp] theorem setN_now (p o v : Nat) : (b.setN p o v).now = b.now := rfl
@[simp] theorem setN_free (p o v : Nat) : (b.setN p o v).free = b.free := rfl
@[simp] theorem setN_latch (p o v : Nat) : (b.setN p o v).latch = b.latch := rfl
@[simp] theorem setN_mem (p o v : Nat) : (b.setN p o v).mem = b.mem := rfl
@[simp] theorem setN_poison (p o v : Nat) : (b.setN p o v).poison = b.poison := rfl
@[simp] theorem setN_poisonB (p o v : Nat) : (b.setN p o v).poisonB = b.poisonB := rfl
@[simp] theorem setN_hostMem (p o v : Nat) : (b.setN p o v).hostMem = b.hostMem := rfl
@[simp] theorem setN_hostBad (p o v : Nat) : (b.setN p o v).hostBad = b.hostBad := rfl
@[simp] theorem setN_rings (p o v : Nat) : (b.setN p o v).rings = b.rings := rfl
@[simp] theorem setN_sems (p o v : Nat) : (b.setN p o v).sems = b.sems := rfl
@[simp] theorem setN_chans (p o v : Nat) : (b.setN p o v).chans = b.chans := rfl
@[simp] theorem setN_flights (p o v : Nat) : (b.setN p o v).flights = b.flights := rfl
@[simp] theorem setN_parts (p o v : Nat) : (b.setN p o v).parts = b.parts := rfl
@[simp] theorem setN_grants (p o v : Nat) : (b.setN p o v).grants = b.grants := rfl
@[simp] theorem setN_drafts (p o v : Nat) : (b.setN p o v).drafts = b.drafts := rfl
@[simp] theorem setN_arrays (p o v : Nat) : (b.setN p o v).arrays = b.arrays := rfl
@[simp] theorem setN_vecs (p o v : Nat) : (b.setN p o v).vecs = b.vecs := rfl
@[simp] theorem setN_slots (p o v : Nat) : (b.setN p o v).slots = b.slots := rfl
@[simp] theorem setN_images (p o v : Nat) : (b.setN p o v).images = b.images := rfl
@[simp] theorem setN_carts (p o v : Nat) : (b.setN p o v).carts = b.carts := rfl
@[simp] theorem setN_foldRun (p o v : Nat) : (b.setN p o v).foldRun = b.foldRun := rfl
@[simp] theorem setN_events (p o v : Nat) : (b.setN p o v).events = b.events := rfl
@[simp] theorem setN_evQueues (p o v : Nat) : (b.setN p o v).evQueues = b.evQueues := rfl
@[simp] theorem setN_health (p o v : Nat) : (b.setN p o v).health = b.health := rfl
@[simp] theorem setN_mailboxes (p o v : Nat) : (b.setN p o v).mailboxes = b.mailboxes := rfl
@[simp] theorem setN_snoop (p o v : Nat) : (b.setN p o v).snoop = b.snoop := rfl
@[simp] theorem setN_power (p o v : Nat) : (b.setN p o v).power = b.power := rfl
@[simp] theorem setN_mcs (p o v : Nat) : (b.setN p o v).mcs = b.mcs := rfl
@[simp] theorem setN_memQ (p o v : Nat) : (b.setN p o v).memQ = b.memQ := rfl
@[simp] theorem setN_xlCaches (p o v : Nat) : (b.setN p o v).xlCaches = b.xlCaches := rfl
@[simp] theorem setN_cacheSel (p o v : Nat) : (b.setN p o v).cacheSel = b.cacheSel := rfl
@[simp] theorem setN_xlInvs (p o v : Nat) : (b.setN p o v).xlInvs = b.xlInvs := rfl
@[simp] theorem setN_recs (p o v : Nat) : (b.setN p o v).recs = b.recs := rfl
@[simp] theorem setN_ports (p o v : Nat) : (b.setN p o v).ports = b.ports := rfl
@[simp] theorem setN_leafRuns (p o v : Nat) : (b.setN p o v).leafRuns = b.leafRuns := rfl
@[simp] theorem setN_queues (p o v : Nat) : (b.setN p o v).queues = b.queues := rfl
@[simp] theorem setN_msgSeq (p o v : Nat) : (b.setN p o v).msgSeq = b.msgSeq := rfl
@[simp] theorem setN_shards (p o v : Nat) : (b.setN p o v).shards = b.shards := rfl
@[simp] theorem setN_flows (p o v : Nat) : (b.setN p o v).flows = b.flows := rfl
@[simp] theorem setN_sessions (p o v : Nat) : (b.setN p o v).sessions = b.sessions := rfl
@[simp] theorem setN_pdraws (p o v : Nat) : (b.setN p o v).pdraws = b.pdraws := rfl
@[simp] theorem setN_prDone (p o v : Nat) : (b.setN p o v).prDone = b.prDone := rfl
@[simp] theorem setN_lost (p o v : Nat) : (b.setN p o v).lost = b.lost := rfl
@[simp] theorem setN_mail (p o v : Nat) : (b.setN p o v).mail = b.mail := rfl
@[simp] theorem setN_haw (p o v : Nat) : (b.setN p o v).haw = b.haw := rfl
@[simp] theorem setN_slew (p o v : Nat) : (b.setN p o v).slew = b.slew := rfl
@[simp] theorem setN_slewAcc (p o v : Nat) : (b.setN p o v).slewAcc = b.slewAcc := rfl
@[simp] theorem setN_rebuilds (p o v : Nat) : (b.setN p o v).rebuilds = b.rebuilds := rfl
@[simp] theorem setN_zeroing (p o v : Nat) : (b.setN p o v).zeroing = b.zeroing := rfl
@[simp] theorem setN_warm (p o v : Nat) : (b.setN p o v).warm = b.warm := rfl
@[simp] theorem setN_hdm (p o v : Nat) : (b.setN p o v).hdm = b.hdm := rfl
@[simp] theorem setN_quiescing (p o v : Nat) : (b.setN p o v).quiescing = b.quiescing := rfl
@[simp] theorem setN_invWaits (p o v : Nat) : (b.setN p o v).invWaits = b.invWaits := rfl
@[simp] theorem setN_ide (p o v : Nat) : (b.setN p o v).ide = b.ide := rfl
@[simp] theorem setN_out (p o v : Nat) : (b.setN p o v).out = b.out := rfl

@[simp] theorem set64_now (p o v : Nat) : (b.set64 p o v).now = b.now := rfl
@[simp] theorem set64_free (p o v : Nat) : (b.set64 p o v).free = b.free := rfl
@[simp] theorem set64_latch (p o v : Nat) : (b.set64 p o v).latch = b.latch := rfl
@[simp] theorem set64_mem (p o v : Nat) : (b.set64 p o v).mem = b.mem := rfl
@[simp] theorem set64_poison (p o v : Nat) : (b.set64 p o v).poison = b.poison := rfl
@[simp] theorem set64_poisonB (p o v : Nat) : (b.set64 p o v).poisonB = b.poisonB := rfl
@[simp] theorem set64_hostMem (p o v : Nat) : (b.set64 p o v).hostMem = b.hostMem := rfl
@[simp] theorem set64_hostBad (p o v : Nat) : (b.set64 p o v).hostBad = b.hostBad := rfl
@[simp] theorem set64_rings (p o v : Nat) : (b.set64 p o v).rings = b.rings := rfl
@[simp] theorem set64_sems (p o v : Nat) : (b.set64 p o v).sems = b.sems := rfl
@[simp] theorem set64_chans (p o v : Nat) : (b.set64 p o v).chans = b.chans := rfl
@[simp] theorem set64_flights (p o v : Nat) : (b.set64 p o v).flights = b.flights := rfl
@[simp] theorem set64_parts (p o v : Nat) : (b.set64 p o v).parts = b.parts := rfl
@[simp] theorem set64_grants (p o v : Nat) : (b.set64 p o v).grants = b.grants := rfl
@[simp] theorem set64_drafts (p o v : Nat) : (b.set64 p o v).drafts = b.drafts := rfl
@[simp] theorem set64_arrays (p o v : Nat) : (b.set64 p o v).arrays = b.arrays := rfl
@[simp] theorem set64_vecs (p o v : Nat) : (b.set64 p o v).vecs = b.vecs := rfl
@[simp] theorem set64_slots (p o v : Nat) : (b.set64 p o v).slots = b.slots := rfl
@[simp] theorem set64_images (p o v : Nat) : (b.set64 p o v).images = b.images := rfl
@[simp] theorem set64_carts (p o v : Nat) : (b.set64 p o v).carts = b.carts := rfl
@[simp] theorem set64_foldRun (p o v : Nat) : (b.set64 p o v).foldRun = b.foldRun := rfl
@[simp] theorem set64_events (p o v : Nat) : (b.set64 p o v).events = b.events := rfl
@[simp] theorem set64_evQueues (p o v : Nat) : (b.set64 p o v).evQueues = b.evQueues := rfl
@[simp] theorem set64_health (p o v : Nat) : (b.set64 p o v).health = b.health := rfl
@[simp] theorem set64_mailboxes (p o v : Nat) : (b.set64 p o v).mailboxes = b.mailboxes := rfl
@[simp] theorem set64_snoop (p o v : Nat) : (b.set64 p o v).snoop = b.snoop := rfl
@[simp] theorem set64_power (p o v : Nat) : (b.set64 p o v).power = b.power := rfl
@[simp] theorem set64_mcs (p o v : Nat) : (b.set64 p o v).mcs = b.mcs := rfl
@[simp] theorem set64_memQ (p o v : Nat) : (b.set64 p o v).memQ = b.memQ := rfl
@[simp] theorem set64_xlCaches (p o v : Nat) : (b.set64 p o v).xlCaches = b.xlCaches := rfl
@[simp] theorem set64_cacheSel (p o v : Nat) : (b.set64 p o v).cacheSel = b.cacheSel := rfl
@[simp] theorem set64_xlInvs (p o v : Nat) : (b.set64 p o v).xlInvs = b.xlInvs := rfl
@[simp] theorem set64_recs (p o v : Nat) : (b.set64 p o v).recs = b.recs := rfl
@[simp] theorem set64_ports (p o v : Nat) : (b.set64 p o v).ports = b.ports := rfl
@[simp] theorem set64_leafRuns (p o v : Nat) : (b.set64 p o v).leafRuns = b.leafRuns := rfl
@[simp] theorem set64_queues (p o v : Nat) : (b.set64 p o v).queues = b.queues := rfl
@[simp] theorem set64_msgSeq (p o v : Nat) : (b.set64 p o v).msgSeq = b.msgSeq := rfl
@[simp] theorem set64_shards (p o v : Nat) : (b.set64 p o v).shards = b.shards := rfl
@[simp] theorem set64_flows (p o v : Nat) : (b.set64 p o v).flows = b.flows := rfl
@[simp] theorem set64_sessions (p o v : Nat) : (b.set64 p o v).sessions = b.sessions := rfl
@[simp] theorem set64_pdraws (p o v : Nat) : (b.set64 p o v).pdraws = b.pdraws := rfl
@[simp] theorem set64_prDone (p o v : Nat) : (b.set64 p o v).prDone = b.prDone := rfl
@[simp] theorem set64_lost (p o v : Nat) : (b.set64 p o v).lost = b.lost := rfl
@[simp] theorem set64_mail (p o v : Nat) : (b.set64 p o v).mail = b.mail := rfl
@[simp] theorem set64_haw (p o v : Nat) : (b.set64 p o v).haw = b.haw := rfl
@[simp] theorem set64_slew (p o v : Nat) : (b.set64 p o v).slew = b.slew := rfl
@[simp] theorem set64_slewAcc (p o v : Nat) : (b.set64 p o v).slewAcc = b.slewAcc := rfl
@[simp] theorem set64_rebuilds (p o v : Nat) : (b.set64 p o v).rebuilds = b.rebuilds := rfl
@[simp] theorem set64_zeroing (p o v : Nat) : (b.set64 p o v).zeroing = b.zeroing := rfl
@[simp] theorem set64_warm (p o v : Nat) : (b.set64 p o v).warm = b.warm := rfl
@[simp] theorem set64_hdm (p o v : Nat) : (b.set64 p o v).hdm = b.hdm := rfl
@[simp] theorem set64_quiescing (p o v : Nat) : (b.set64 p o v).quiescing = b.quiescing := rfl
@[simp] theorem set64_invWaits (p o v : Nat) : (b.set64 p o v).invWaits = b.invWaits := rfl
@[simp] theorem set64_ide (p o v : Nat) : (b.set64 p o v).ide = b.ide := rfl
@[simp] theorem set64_out (p o v : Nat) : (b.set64 p o v).out = b.out := rfl

@[simp] theorem setFld_now (p o l n v : Nat) : (b.setFld p o l n v).now = b.now := rfl
@[simp] theorem setFld_free (p o l n v : Nat) : (b.setFld p o l n v).free = b.free := rfl
@[simp] theorem setFld_latch (p o l n v : Nat) : (b.setFld p o l n v).latch = b.latch := rfl
@[simp] theorem setFld_mem (p o l n v : Nat) : (b.setFld p o l n v).mem = b.mem := rfl
@[simp] theorem setFld_poison (p o l n v : Nat) : (b.setFld p o l n v).poison = b.poison := rfl
@[simp] theorem setFld_poisonB (p o l n v : Nat) : (b.setFld p o l n v).poisonB = b.poisonB := rfl
@[simp] theorem setFld_hostMem (p o l n v : Nat) : (b.setFld p o l n v).hostMem = b.hostMem := rfl
@[simp] theorem setFld_hostBad (p o l n v : Nat) : (b.setFld p o l n v).hostBad = b.hostBad := rfl
@[simp] theorem setFld_rings (p o l n v : Nat) : (b.setFld p o l n v).rings = b.rings := rfl
@[simp] theorem setFld_sems (p o l n v : Nat) : (b.setFld p o l n v).sems = b.sems := rfl
@[simp] theorem setFld_chans (p o l n v : Nat) : (b.setFld p o l n v).chans = b.chans := rfl
@[simp] theorem setFld_flights (p o l n v : Nat) : (b.setFld p o l n v).flights = b.flights := rfl
@[simp] theorem setFld_parts (p o l n v : Nat) : (b.setFld p o l n v).parts = b.parts := rfl
@[simp] theorem setFld_grants (p o l n v : Nat) : (b.setFld p o l n v).grants = b.grants := rfl
@[simp] theorem setFld_drafts (p o l n v : Nat) : (b.setFld p o l n v).drafts = b.drafts := rfl
@[simp] theorem setFld_arrays (p o l n v : Nat) : (b.setFld p o l n v).arrays = b.arrays := rfl
@[simp] theorem setFld_vecs (p o l n v : Nat) : (b.setFld p o l n v).vecs = b.vecs := rfl
@[simp] theorem setFld_slots (p o l n v : Nat) : (b.setFld p o l n v).slots = b.slots := rfl
@[simp] theorem setFld_images (p o l n v : Nat) : (b.setFld p o l n v).images = b.images := rfl
@[simp] theorem setFld_carts (p o l n v : Nat) : (b.setFld p o l n v).carts = b.carts := rfl
@[simp] theorem setFld_foldRun (p o l n v : Nat) : (b.setFld p o l n v).foldRun = b.foldRun := rfl
@[simp] theorem setFld_events (p o l n v : Nat) : (b.setFld p o l n v).events = b.events := rfl
@[simp] theorem setFld_evQueues (p o l n v : Nat) : (b.setFld p o l n v).evQueues = b.evQueues := rfl
@[simp] theorem setFld_health (p o l n v : Nat) : (b.setFld p o l n v).health = b.health := rfl
@[simp] theorem setFld_mailboxes (p o l n v : Nat) : (b.setFld p o l n v).mailboxes = b.mailboxes := rfl
@[simp] theorem setFld_snoop (p o l n v : Nat) : (b.setFld p o l n v).snoop = b.snoop := rfl
@[simp] theorem setFld_power (p o l n v : Nat) : (b.setFld p o l n v).power = b.power := rfl
@[simp] theorem setFld_mcs (p o l n v : Nat) : (b.setFld p o l n v).mcs = b.mcs := rfl
@[simp] theorem setFld_memQ (p o l n v : Nat) : (b.setFld p o l n v).memQ = b.memQ := rfl
@[simp] theorem setFld_xlCaches (p o l n v : Nat) : (b.setFld p o l n v).xlCaches = b.xlCaches := rfl
@[simp] theorem setFld_cacheSel (p o l n v : Nat) : (b.setFld p o l n v).cacheSel = b.cacheSel := rfl
@[simp] theorem setFld_xlInvs (p o l n v : Nat) : (b.setFld p o l n v).xlInvs = b.xlInvs := rfl
@[simp] theorem setFld_recs (p o l n v : Nat) : (b.setFld p o l n v).recs = b.recs := rfl
@[simp] theorem setFld_ports (p o l n v : Nat) : (b.setFld p o l n v).ports = b.ports := rfl
@[simp] theorem setFld_leafRuns (p o l n v : Nat) : (b.setFld p o l n v).leafRuns = b.leafRuns := rfl
@[simp] theorem setFld_queues (p o l n v : Nat) : (b.setFld p o l n v).queues = b.queues := rfl
@[simp] theorem setFld_msgSeq (p o l n v : Nat) : (b.setFld p o l n v).msgSeq = b.msgSeq := rfl
@[simp] theorem setFld_shards (p o l n v : Nat) : (b.setFld p o l n v).shards = b.shards := rfl
@[simp] theorem setFld_flows (p o l n v : Nat) : (b.setFld p o l n v).flows = b.flows := rfl
@[simp] theorem setFld_sessions (p o l n v : Nat) : (b.setFld p o l n v).sessions = b.sessions := rfl
@[simp] theorem setFld_pdraws (p o l n v : Nat) : (b.setFld p o l n v).pdraws = b.pdraws := rfl
@[simp] theorem setFld_prDone (p o l n v : Nat) : (b.setFld p o l n v).prDone = b.prDone := rfl
@[simp] theorem setFld_lost (p o l n v : Nat) : (b.setFld p o l n v).lost = b.lost := rfl
@[simp] theorem setFld_mail (p o l n v : Nat) : (b.setFld p o l n v).mail = b.mail := rfl
@[simp] theorem setFld_haw (p o l n v : Nat) : (b.setFld p o l n v).haw = b.haw := rfl
@[simp] theorem setFld_slew (p o l n v : Nat) : (b.setFld p o l n v).slew = b.slew := rfl
@[simp] theorem setFld_slewAcc (p o l n v : Nat) : (b.setFld p o l n v).slewAcc = b.slewAcc := rfl
@[simp] theorem setFld_rebuilds (p o l n v : Nat) : (b.setFld p o l n v).rebuilds = b.rebuilds := rfl
@[simp] theorem setFld_zeroing (p o l n v : Nat) : (b.setFld p o l n v).zeroing = b.zeroing := rfl
@[simp] theorem setFld_warm (p o l n v : Nat) : (b.setFld p o l n v).warm = b.warm := rfl
@[simp] theorem setFld_hdm (p o l n v : Nat) : (b.setFld p o l n v).hdm = b.hdm := rfl
@[simp] theorem setFld_quiescing (p o l n v : Nat) : (b.setFld p o l n v).quiescing = b.quiescing := rfl
@[simp] theorem setFld_invWaits (p o l n v : Nat) : (b.setFld p o l n v).invWaits = b.invWaits := rfl
@[simp] theorem setFld_ide (p o l n v : Nat) : (b.setFld p o l n v).ide = b.ide := rfl
@[simp] theorem setFld_out (p o l n v : Nat) : (b.setFld p o l n v).out = b.out := rfl

@[simp] theorem add32_now (p o n : Nat) : (b.add32 p o n).now = b.now := rfl
@[simp] theorem add32_free (p o n : Nat) : (b.add32 p o n).free = b.free := rfl
@[simp] theorem add32_latch (p o n : Nat) : (b.add32 p o n).latch = b.latch := rfl
@[simp] theorem add32_mem (p o n : Nat) : (b.add32 p o n).mem = b.mem := rfl
@[simp] theorem add32_poison (p o n : Nat) : (b.add32 p o n).poison = b.poison := rfl
@[simp] theorem add32_poisonB (p o n : Nat) : (b.add32 p o n).poisonB = b.poisonB := rfl
@[simp] theorem add32_hostMem (p o n : Nat) : (b.add32 p o n).hostMem = b.hostMem := rfl
@[simp] theorem add32_hostBad (p o n : Nat) : (b.add32 p o n).hostBad = b.hostBad := rfl
@[simp] theorem add32_rings (p o n : Nat) : (b.add32 p o n).rings = b.rings := rfl
@[simp] theorem add32_sems (p o n : Nat) : (b.add32 p o n).sems = b.sems := rfl
@[simp] theorem add32_chans (p o n : Nat) : (b.add32 p o n).chans = b.chans := rfl
@[simp] theorem add32_flights (p o n : Nat) : (b.add32 p o n).flights = b.flights := rfl
@[simp] theorem add32_parts (p o n : Nat) : (b.add32 p o n).parts = b.parts := rfl
@[simp] theorem add32_grants (p o n : Nat) : (b.add32 p o n).grants = b.grants := rfl
@[simp] theorem add32_drafts (p o n : Nat) : (b.add32 p o n).drafts = b.drafts := rfl
@[simp] theorem add32_arrays (p o n : Nat) : (b.add32 p o n).arrays = b.arrays := rfl
@[simp] theorem add32_vecs (p o n : Nat) : (b.add32 p o n).vecs = b.vecs := rfl
@[simp] theorem add32_slots (p o n : Nat) : (b.add32 p o n).slots = b.slots := rfl
@[simp] theorem add32_images (p o n : Nat) : (b.add32 p o n).images = b.images := rfl
@[simp] theorem add32_carts (p o n : Nat) : (b.add32 p o n).carts = b.carts := rfl
@[simp] theorem add32_foldRun (p o n : Nat) : (b.add32 p o n).foldRun = b.foldRun := rfl
@[simp] theorem add32_events (p o n : Nat) : (b.add32 p o n).events = b.events := rfl
@[simp] theorem add32_evQueues (p o n : Nat) : (b.add32 p o n).evQueues = b.evQueues := rfl
@[simp] theorem add32_health (p o n : Nat) : (b.add32 p o n).health = b.health := rfl
@[simp] theorem add32_mailboxes (p o n : Nat) : (b.add32 p o n).mailboxes = b.mailboxes := rfl
@[simp] theorem add32_snoop (p o n : Nat) : (b.add32 p o n).snoop = b.snoop := rfl
@[simp] theorem add32_power (p o n : Nat) : (b.add32 p o n).power = b.power := rfl
@[simp] theorem add32_mcs (p o n : Nat) : (b.add32 p o n).mcs = b.mcs := rfl
@[simp] theorem add32_memQ (p o n : Nat) : (b.add32 p o n).memQ = b.memQ := rfl
@[simp] theorem add32_xlCaches (p o n : Nat) : (b.add32 p o n).xlCaches = b.xlCaches := rfl
@[simp] theorem add32_cacheSel (p o n : Nat) : (b.add32 p o n).cacheSel = b.cacheSel := rfl
@[simp] theorem add32_xlInvs (p o n : Nat) : (b.add32 p o n).xlInvs = b.xlInvs := rfl
@[simp] theorem add32_recs (p o n : Nat) : (b.add32 p o n).recs = b.recs := rfl
@[simp] theorem add32_ports (p o n : Nat) : (b.add32 p o n).ports = b.ports := rfl
@[simp] theorem add32_leafRuns (p o n : Nat) : (b.add32 p o n).leafRuns = b.leafRuns := rfl
@[simp] theorem add32_queues (p o n : Nat) : (b.add32 p o n).queues = b.queues := rfl
@[simp] theorem add32_msgSeq (p o n : Nat) : (b.add32 p o n).msgSeq = b.msgSeq := rfl
@[simp] theorem add32_shards (p o n : Nat) : (b.add32 p o n).shards = b.shards := rfl
@[simp] theorem add32_flows (p o n : Nat) : (b.add32 p o n).flows = b.flows := rfl
@[simp] theorem add32_sessions (p o n : Nat) : (b.add32 p o n).sessions = b.sessions := rfl
@[simp] theorem add32_pdraws (p o n : Nat) : (b.add32 p o n).pdraws = b.pdraws := rfl
@[simp] theorem add32_prDone (p o n : Nat) : (b.add32 p o n).prDone = b.prDone := rfl
@[simp] theorem add32_lost (p o n : Nat) : (b.add32 p o n).lost = b.lost := rfl
@[simp] theorem add32_mail (p o n : Nat) : (b.add32 p o n).mail = b.mail := rfl
@[simp] theorem add32_haw (p o n : Nat) : (b.add32 p o n).haw = b.haw := rfl
@[simp] theorem add32_slew (p o n : Nat) : (b.add32 p o n).slew = b.slew := rfl
@[simp] theorem add32_slewAcc (p o n : Nat) : (b.add32 p o n).slewAcc = b.slewAcc := rfl
@[simp] theorem add32_rebuilds (p o n : Nat) : (b.add32 p o n).rebuilds = b.rebuilds := rfl
@[simp] theorem add32_zeroing (p o n : Nat) : (b.add32 p o n).zeroing = b.zeroing := rfl
@[simp] theorem add32_warm (p o n : Nat) : (b.add32 p o n).warm = b.warm := rfl
@[simp] theorem add32_hdm (p o n : Nat) : (b.add32 p o n).hdm = b.hdm := rfl
@[simp] theorem add32_quiescing (p o n : Nat) : (b.add32 p o n).quiescing = b.quiescing := rfl
@[simp] theorem add32_invWaits (p o n : Nat) : (b.add32 p o n).invWaits = b.invWaits := rfl
@[simp] theorem add32_ide (p o n : Nat) : (b.add32 p o n).ide = b.ide := rfl
@[simp] theorem add32_out (p o n : Nat) : (b.add32 p o n).out = b.out := rfl

@[simp] theorem add64_now (p o n : Nat) : (b.add64 p o n).now = b.now := rfl
@[simp] theorem add64_free (p o n : Nat) : (b.add64 p o n).free = b.free := rfl
@[simp] theorem add64_latch (p o n : Nat) : (b.add64 p o n).latch = b.latch := rfl
@[simp] theorem add64_mem (p o n : Nat) : (b.add64 p o n).mem = b.mem := rfl
@[simp] theorem add64_poison (p o n : Nat) : (b.add64 p o n).poison = b.poison := rfl
@[simp] theorem add64_poisonB (p o n : Nat) : (b.add64 p o n).poisonB = b.poisonB := rfl
@[simp] theorem add64_hostMem (p o n : Nat) : (b.add64 p o n).hostMem = b.hostMem := rfl
@[simp] theorem add64_hostBad (p o n : Nat) : (b.add64 p o n).hostBad = b.hostBad := rfl
@[simp] theorem add64_rings (p o n : Nat) : (b.add64 p o n).rings = b.rings := rfl
@[simp] theorem add64_sems (p o n : Nat) : (b.add64 p o n).sems = b.sems := rfl
@[simp] theorem add64_chans (p o n : Nat) : (b.add64 p o n).chans = b.chans := rfl
@[simp] theorem add64_flights (p o n : Nat) : (b.add64 p o n).flights = b.flights := rfl
@[simp] theorem add64_parts (p o n : Nat) : (b.add64 p o n).parts = b.parts := rfl
@[simp] theorem add64_grants (p o n : Nat) : (b.add64 p o n).grants = b.grants := rfl
@[simp] theorem add64_drafts (p o n : Nat) : (b.add64 p o n).drafts = b.drafts := rfl
@[simp] theorem add64_arrays (p o n : Nat) : (b.add64 p o n).arrays = b.arrays := rfl
@[simp] theorem add64_vecs (p o n : Nat) : (b.add64 p o n).vecs = b.vecs := rfl
@[simp] theorem add64_slots (p o n : Nat) : (b.add64 p o n).slots = b.slots := rfl
@[simp] theorem add64_images (p o n : Nat) : (b.add64 p o n).images = b.images := rfl
@[simp] theorem add64_carts (p o n : Nat) : (b.add64 p o n).carts = b.carts := rfl
@[simp] theorem add64_foldRun (p o n : Nat) : (b.add64 p o n).foldRun = b.foldRun := rfl
@[simp] theorem add64_events (p o n : Nat) : (b.add64 p o n).events = b.events := rfl
@[simp] theorem add64_evQueues (p o n : Nat) : (b.add64 p o n).evQueues = b.evQueues := rfl
@[simp] theorem add64_health (p o n : Nat) : (b.add64 p o n).health = b.health := rfl
@[simp] theorem add64_mailboxes (p o n : Nat) : (b.add64 p o n).mailboxes = b.mailboxes := rfl
@[simp] theorem add64_snoop (p o n : Nat) : (b.add64 p o n).snoop = b.snoop := rfl
@[simp] theorem add64_power (p o n : Nat) : (b.add64 p o n).power = b.power := rfl
@[simp] theorem add64_mcs (p o n : Nat) : (b.add64 p o n).mcs = b.mcs := rfl
@[simp] theorem add64_memQ (p o n : Nat) : (b.add64 p o n).memQ = b.memQ := rfl
@[simp] theorem add64_xlCaches (p o n : Nat) : (b.add64 p o n).xlCaches = b.xlCaches := rfl
@[simp] theorem add64_cacheSel (p o n : Nat) : (b.add64 p o n).cacheSel = b.cacheSel := rfl
@[simp] theorem add64_xlInvs (p o n : Nat) : (b.add64 p o n).xlInvs = b.xlInvs := rfl
@[simp] theorem add64_recs (p o n : Nat) : (b.add64 p o n).recs = b.recs := rfl
@[simp] theorem add64_ports (p o n : Nat) : (b.add64 p o n).ports = b.ports := rfl
@[simp] theorem add64_leafRuns (p o n : Nat) : (b.add64 p o n).leafRuns = b.leafRuns := rfl
@[simp] theorem add64_queues (p o n : Nat) : (b.add64 p o n).queues = b.queues := rfl
@[simp] theorem add64_msgSeq (p o n : Nat) : (b.add64 p o n).msgSeq = b.msgSeq := rfl
@[simp] theorem add64_shards (p o n : Nat) : (b.add64 p o n).shards = b.shards := rfl
@[simp] theorem add64_flows (p o n : Nat) : (b.add64 p o n).flows = b.flows := rfl
@[simp] theorem add64_sessions (p o n : Nat) : (b.add64 p o n).sessions = b.sessions := rfl
@[simp] theorem add64_pdraws (p o n : Nat) : (b.add64 p o n).pdraws = b.pdraws := rfl
@[simp] theorem add64_prDone (p o n : Nat) : (b.add64 p o n).prDone = b.prDone := rfl
@[simp] theorem add64_lost (p o n : Nat) : (b.add64 p o n).lost = b.lost := rfl
@[simp] theorem add64_mail (p o n : Nat) : (b.add64 p o n).mail = b.mail := rfl
@[simp] theorem add64_haw (p o n : Nat) : (b.add64 p o n).haw = b.haw := rfl
@[simp] theorem add64_slew (p o n : Nat) : (b.add64 p o n).slew = b.slew := rfl
@[simp] theorem add64_slewAcc (p o n : Nat) : (b.add64 p o n).slewAcc = b.slewAcc := rfl
@[simp] theorem add64_rebuilds (p o n : Nat) : (b.add64 p o n).rebuilds = b.rebuilds := rfl
@[simp] theorem add64_zeroing (p o n : Nat) : (b.add64 p o n).zeroing = b.zeroing := rfl
@[simp] theorem add64_warm (p o n : Nat) : (b.add64 p o n).warm = b.warm := rfl
@[simp] theorem add64_hdm (p o n : Nat) : (b.add64 p o n).hdm = b.hdm := rfl
@[simp] theorem add64_quiescing (p o n : Nat) : (b.add64 p o n).quiescing = b.quiescing := rfl
@[simp] theorem add64_invWaits (p o n : Nat) : (b.add64 p o n).invWaits = b.invWaits := rfl
@[simp] theorem add64_ide (p o n : Nat) : (b.add64 p o n).ide = b.ide := rfl
@[simp] theorem add64_out (p o n : Nat) : (b.add64 p o n).out = b.out := rfl

@[simp] theorem emit_now (o : Out) : (b.emit o).now = b.now := rfl
@[simp] theorem emit_free (o : Out) : (b.emit o).free = b.free := rfl
@[simp] theorem emit_regs (o : Out) : (b.emit o).regs = b.regs := rfl
@[simp] theorem emit_latch (o : Out) : (b.emit o).latch = b.latch := rfl
@[simp] theorem emit_mem (o : Out) : (b.emit o).mem = b.mem := rfl
@[simp] theorem emit_poison (o : Out) : (b.emit o).poison = b.poison := rfl
@[simp] theorem emit_poisonB (o : Out) : (b.emit o).poisonB = b.poisonB := rfl
@[simp] theorem emit_hostMem (o : Out) : (b.emit o).hostMem = b.hostMem := rfl
@[simp] theorem emit_hostBad (o : Out) : (b.emit o).hostBad = b.hostBad := rfl
@[simp] theorem emit_rings (o : Out) : (b.emit o).rings = b.rings := rfl
@[simp] theorem emit_sems (o : Out) : (b.emit o).sems = b.sems := rfl
@[simp] theorem emit_chans (o : Out) : (b.emit o).chans = b.chans := rfl
@[simp] theorem emit_flights (o : Out) : (b.emit o).flights = b.flights := rfl
@[simp] theorem emit_parts (o : Out) : (b.emit o).parts = b.parts := rfl
@[simp] theorem emit_grants (o : Out) : (b.emit o).grants = b.grants := rfl
@[simp] theorem emit_drafts (o : Out) : (b.emit o).drafts = b.drafts := rfl
@[simp] theorem emit_arrays (o : Out) : (b.emit o).arrays = b.arrays := rfl
@[simp] theorem emit_vecs (o : Out) : (b.emit o).vecs = b.vecs := rfl
@[simp] theorem emit_slots (o : Out) : (b.emit o).slots = b.slots := rfl
@[simp] theorem emit_images (o : Out) : (b.emit o).images = b.images := rfl
@[simp] theorem emit_carts (o : Out) : (b.emit o).carts = b.carts := rfl
@[simp] theorem emit_foldRun (o : Out) : (b.emit o).foldRun = b.foldRun := rfl
@[simp] theorem emit_events (o : Out) : (b.emit o).events = b.events := rfl
@[simp] theorem emit_evQueues (o : Out) : (b.emit o).evQueues = b.evQueues := rfl
@[simp] theorem emit_health (o : Out) : (b.emit o).health = b.health := rfl
@[simp] theorem emit_mailboxes (o : Out) : (b.emit o).mailboxes = b.mailboxes := rfl
@[simp] theorem emit_snoop (o : Out) : (b.emit o).snoop = b.snoop := rfl
@[simp] theorem emit_power (o : Out) : (b.emit o).power = b.power := rfl
@[simp] theorem emit_mcs (o : Out) : (b.emit o).mcs = b.mcs := rfl
@[simp] theorem emit_memQ (o : Out) : (b.emit o).memQ = b.memQ := rfl
@[simp] theorem emit_xlCaches (o : Out) : (b.emit o).xlCaches = b.xlCaches := rfl
@[simp] theorem emit_cacheSel (o : Out) : (b.emit o).cacheSel = b.cacheSel := rfl
@[simp] theorem emit_xlInvs (o : Out) : (b.emit o).xlInvs = b.xlInvs := rfl
@[simp] theorem emit_recs (o : Out) : (b.emit o).recs = b.recs := rfl
@[simp] theorem emit_ports (o : Out) : (b.emit o).ports = b.ports := rfl
@[simp] theorem emit_leafRuns (o : Out) : (b.emit o).leafRuns = b.leafRuns := rfl
@[simp] theorem emit_queues (o : Out) : (b.emit o).queues = b.queues := rfl
@[simp] theorem emit_msgSeq (o : Out) : (b.emit o).msgSeq = b.msgSeq := rfl
@[simp] theorem emit_shards (o : Out) : (b.emit o).shards = b.shards := rfl
@[simp] theorem emit_flows (o : Out) : (b.emit o).flows = b.flows := rfl
@[simp] theorem emit_sessions (o : Out) : (b.emit o).sessions = b.sessions := rfl
@[simp] theorem emit_pdraws (o : Out) : (b.emit o).pdraws = b.pdraws := rfl
@[simp] theorem emit_prDone (o : Out) : (b.emit o).prDone = b.prDone := rfl
@[simp] theorem emit_lost (o : Out) : (b.emit o).lost = b.lost := rfl
@[simp] theorem emit_mail (o : Out) : (b.emit o).mail = b.mail := rfl
@[simp] theorem emit_haw (o : Out) : (b.emit o).haw = b.haw := rfl
@[simp] theorem emit_slew (o : Out) : (b.emit o).slew = b.slew := rfl
@[simp] theorem emit_slewAcc (o : Out) : (b.emit o).slewAcc = b.slewAcc := rfl
@[simp] theorem emit_rebuilds (o : Out) : (b.emit o).rebuilds = b.rebuilds := rfl
@[simp] theorem emit_zeroing (o : Out) : (b.emit o).zeroing = b.zeroing := rfl
@[simp] theorem emit_warm (o : Out) : (b.emit o).warm = b.warm := rfl
@[simp] theorem emit_hdm (o : Out) : (b.emit o).hdm = b.hdm := rfl
@[simp] theorem emit_quiescing (o : Out) : (b.emit o).quiescing = b.quiescing := rfl
@[simp] theorem emit_invWaits (o : Out) : (b.emit o).invWaits = b.invWaits := rfl
@[simp] theorem emit_ide (o : Out) : (b.emit o).ide = b.ide := rfl

@[simp] theorem tick_now  : (b.tick).now = b.now := rfl
@[simp] theorem tick_regs  : (b.tick).regs = b.regs := rfl
@[simp] theorem tick_latch  : (b.tick).latch = b.latch := rfl
@[simp] theorem tick_mem  : (b.tick).mem = b.mem := rfl
@[simp] theorem tick_poison  : (b.tick).poison = b.poison := rfl
@[simp] theorem tick_poisonB  : (b.tick).poisonB = b.poisonB := rfl
@[simp] theorem tick_hostMem  : (b.tick).hostMem = b.hostMem := rfl
@[simp] theorem tick_hostBad  : (b.tick).hostBad = b.hostBad := rfl
@[simp] theorem tick_rings  : (b.tick).rings = b.rings := rfl
@[simp] theorem tick_sems  : (b.tick).sems = b.sems := rfl
@[simp] theorem tick_chans  : (b.tick).chans = b.chans := rfl
@[simp] theorem tick_flights  : (b.tick).flights = b.flights := rfl
@[simp] theorem tick_parts  : (b.tick).parts = b.parts := rfl
@[simp] theorem tick_grants  : (b.tick).grants = b.grants := rfl
@[simp] theorem tick_drafts  : (b.tick).drafts = b.drafts := rfl
@[simp] theorem tick_arrays  : (b.tick).arrays = b.arrays := rfl
@[simp] theorem tick_vecs  : (b.tick).vecs = b.vecs := rfl
@[simp] theorem tick_slots  : (b.tick).slots = b.slots := rfl
@[simp] theorem tick_images  : (b.tick).images = b.images := rfl
@[simp] theorem tick_carts  : (b.tick).carts = b.carts := rfl
@[simp] theorem tick_foldRun  : (b.tick).foldRun = b.foldRun := rfl
@[simp] theorem tick_events  : (b.tick).events = b.events := rfl
@[simp] theorem tick_evQueues  : (b.tick).evQueues = b.evQueues := rfl
@[simp] theorem tick_health  : (b.tick).health = b.health := rfl
@[simp] theorem tick_mailboxes  : (b.tick).mailboxes = b.mailboxes := rfl
@[simp] theorem tick_snoop  : (b.tick).snoop = b.snoop := rfl
@[simp] theorem tick_power  : (b.tick).power = b.power := rfl
@[simp] theorem tick_mcs  : (b.tick).mcs = b.mcs := rfl
@[simp] theorem tick_memQ  : (b.tick).memQ = b.memQ := rfl
@[simp] theorem tick_xlCaches  : (b.tick).xlCaches = b.xlCaches := rfl
@[simp] theorem tick_cacheSel  : (b.tick).cacheSel = b.cacheSel := rfl
@[simp] theorem tick_xlInvs  : (b.tick).xlInvs = b.xlInvs := rfl
@[simp] theorem tick_recs  : (b.tick).recs = b.recs := rfl
@[simp] theorem tick_ports  : (b.tick).ports = b.ports := rfl
@[simp] theorem tick_leafRuns  : (b.tick).leafRuns = b.leafRuns := rfl
@[simp] theorem tick_queues  : (b.tick).queues = b.queues := rfl
@[simp] theorem tick_msgSeq  : (b.tick).msgSeq = b.msgSeq := rfl
@[simp] theorem tick_shards  : (b.tick).shards = b.shards := rfl
@[simp] theorem tick_flows  : (b.tick).flows = b.flows := rfl
@[simp] theorem tick_sessions  : (b.tick).sessions = b.sessions := rfl
@[simp] theorem tick_pdraws  : (b.tick).pdraws = b.pdraws := rfl
@[simp] theorem tick_prDone  : (b.tick).prDone = b.prDone := rfl
@[simp] theorem tick_lost  : (b.tick).lost = b.lost := rfl
@[simp] theorem tick_mail  : (b.tick).mail = b.mail := rfl
@[simp] theorem tick_haw  : (b.tick).haw = b.haw := rfl
@[simp] theorem tick_slew  : (b.tick).slew = b.slew := rfl
@[simp] theorem tick_slewAcc  : (b.tick).slewAcc = b.slewAcc := rfl
@[simp] theorem tick_rebuilds  : (b.tick).rebuilds = b.rebuilds := rfl
@[simp] theorem tick_zeroing  : (b.tick).zeroing = b.zeroing := rfl
@[simp] theorem tick_warm  : (b.tick).warm = b.warm := rfl
@[simp] theorem tick_hdm  : (b.tick).hdm = b.hdm := rfl
@[simp] theorem tick_quiescing  : (b.tick).quiescing = b.quiescing := rfl
@[simp] theorem tick_invWaits  : (b.tick).invWaits = b.invWaits := rfl
@[simp] theorem tick_ide  : (b.tick).ide = b.ide := rfl
@[simp] theorem tick_out  : (b.tick).out = b.out := rfl

@[simp] theorem setChan_now (c : Nat) (x : Chan) : (b.setChan c x).now = b.now := rfl
@[simp] theorem setChan_free (c : Nat) (x : Chan) : (b.setChan c x).free = b.free := rfl
@[simp] theorem setChan_regs (c : Nat) (x : Chan) : (b.setChan c x).regs = b.regs := rfl
@[simp] theorem setChan_latch (c : Nat) (x : Chan) : (b.setChan c x).latch = b.latch := rfl
@[simp] theorem setChan_mem (c : Nat) (x : Chan) : (b.setChan c x).mem = b.mem := rfl
@[simp] theorem setChan_poison (c : Nat) (x : Chan) : (b.setChan c x).poison = b.poison := rfl
@[simp] theorem setChan_poisonB (c : Nat) (x : Chan) : (b.setChan c x).poisonB = b.poisonB := rfl
@[simp] theorem setChan_hostMem (c : Nat) (x : Chan) : (b.setChan c x).hostMem = b.hostMem := rfl
@[simp] theorem setChan_hostBad (c : Nat) (x : Chan) : (b.setChan c x).hostBad = b.hostBad := rfl
@[simp] theorem setChan_rings (c : Nat) (x : Chan) : (b.setChan c x).rings = b.rings := rfl
@[simp] theorem setChan_sems (c : Nat) (x : Chan) : (b.setChan c x).sems = b.sems := rfl
@[simp] theorem setChan_flights (c : Nat) (x : Chan) : (b.setChan c x).flights = b.flights := rfl
@[simp] theorem setChan_parts (c : Nat) (x : Chan) : (b.setChan c x).parts = b.parts := rfl
@[simp] theorem setChan_grants (c : Nat) (x : Chan) : (b.setChan c x).grants = b.grants := rfl
@[simp] theorem setChan_drafts (c : Nat) (x : Chan) : (b.setChan c x).drafts = b.drafts := rfl
@[simp] theorem setChan_arrays (c : Nat) (x : Chan) : (b.setChan c x).arrays = b.arrays := rfl
@[simp] theorem setChan_vecs (c : Nat) (x : Chan) : (b.setChan c x).vecs = b.vecs := rfl
@[simp] theorem setChan_slots (c : Nat) (x : Chan) : (b.setChan c x).slots = b.slots := rfl
@[simp] theorem setChan_images (c : Nat) (x : Chan) : (b.setChan c x).images = b.images := rfl
@[simp] theorem setChan_carts (c : Nat) (x : Chan) : (b.setChan c x).carts = b.carts := rfl
@[simp] theorem setChan_foldRun (c : Nat) (x : Chan) : (b.setChan c x).foldRun = b.foldRun := rfl
@[simp] theorem setChan_events (c : Nat) (x : Chan) : (b.setChan c x).events = b.events := rfl
@[simp] theorem setChan_evQueues (c : Nat) (x : Chan) : (b.setChan c x).evQueues = b.evQueues := rfl
@[simp] theorem setChan_health (c : Nat) (x : Chan) : (b.setChan c x).health = b.health := rfl
@[simp] theorem setChan_mailboxes (c : Nat) (x : Chan) : (b.setChan c x).mailboxes = b.mailboxes := rfl
@[simp] theorem setChan_snoop (c : Nat) (x : Chan) : (b.setChan c x).snoop = b.snoop := rfl
@[simp] theorem setChan_power (c : Nat) (x : Chan) : (b.setChan c x).power = b.power := rfl
@[simp] theorem setChan_mcs (c : Nat) (x : Chan) : (b.setChan c x).mcs = b.mcs := rfl
@[simp] theorem setChan_memQ (c : Nat) (x : Chan) : (b.setChan c x).memQ = b.memQ := rfl
@[simp] theorem setChan_xlCaches (c : Nat) (x : Chan) : (b.setChan c x).xlCaches = b.xlCaches := rfl
@[simp] theorem setChan_cacheSel (c : Nat) (x : Chan) : (b.setChan c x).cacheSel = b.cacheSel := rfl
@[simp] theorem setChan_xlInvs (c : Nat) (x : Chan) : (b.setChan c x).xlInvs = b.xlInvs := rfl
@[simp] theorem setChan_recs (c : Nat) (x : Chan) : (b.setChan c x).recs = b.recs := rfl
@[simp] theorem setChan_ports (c : Nat) (x : Chan) : (b.setChan c x).ports = b.ports := rfl
@[simp] theorem setChan_leafRuns (c : Nat) (x : Chan) : (b.setChan c x).leafRuns = b.leafRuns := rfl
@[simp] theorem setChan_queues (c : Nat) (x : Chan) : (b.setChan c x).queues = b.queues := rfl
@[simp] theorem setChan_msgSeq (c : Nat) (x : Chan) : (b.setChan c x).msgSeq = b.msgSeq := rfl
@[simp] theorem setChan_shards (c : Nat) (x : Chan) : (b.setChan c x).shards = b.shards := rfl
@[simp] theorem setChan_flows (c : Nat) (x : Chan) : (b.setChan c x).flows = b.flows := rfl
@[simp] theorem setChan_sessions (c : Nat) (x : Chan) : (b.setChan c x).sessions = b.sessions := rfl
@[simp] theorem setChan_pdraws (c : Nat) (x : Chan) : (b.setChan c x).pdraws = b.pdraws := rfl
@[simp] theorem setChan_prDone (c : Nat) (x : Chan) : (b.setChan c x).prDone = b.prDone := rfl
@[simp] theorem setChan_lost (c : Nat) (x : Chan) : (b.setChan c x).lost = b.lost := rfl
@[simp] theorem setChan_mail (c : Nat) (x : Chan) : (b.setChan c x).mail = b.mail := rfl
@[simp] theorem setChan_haw (c : Nat) (x : Chan) : (b.setChan c x).haw = b.haw := rfl
@[simp] theorem setChan_slew (c : Nat) (x : Chan) : (b.setChan c x).slew = b.slew := rfl
@[simp] theorem setChan_slewAcc (c : Nat) (x : Chan) : (b.setChan c x).slewAcc = b.slewAcc := rfl
@[simp] theorem setChan_rebuilds (c : Nat) (x : Chan) : (b.setChan c x).rebuilds = b.rebuilds := rfl
@[simp] theorem setChan_zeroing (c : Nat) (x : Chan) : (b.setChan c x).zeroing = b.zeroing := rfl
@[simp] theorem setChan_warm (c : Nat) (x : Chan) : (b.setChan c x).warm = b.warm := rfl
@[simp] theorem setChan_hdm (c : Nat) (x : Chan) : (b.setChan c x).hdm = b.hdm := rfl
@[simp] theorem setChan_quiescing (c : Nat) (x : Chan) : (b.setChan c x).quiescing = b.quiescing := rfl
@[simp] theorem setChan_invWaits (c : Nat) (x : Chan) : (b.setChan c x).invWaits = b.invWaits := rfl
@[simp] theorem setChan_ide (c : Nat) (x : Chan) : (b.setChan c x).ide = b.ide := rfl
@[simp] theorem setChan_out (c : Nat) (x : Chan) : (b.setChan c x).out = b.out := rfl

@[simp] theorem setPart_now (c : Nat) (x : Part) : (b.setPart c x).now = b.now := rfl
@[simp] theorem setPart_free (c : Nat) (x : Part) : (b.setPart c x).free = b.free := rfl
@[simp] theorem setPart_regs (c : Nat) (x : Part) : (b.setPart c x).regs = b.regs := rfl
@[simp] theorem setPart_latch (c : Nat) (x : Part) : (b.setPart c x).latch = b.latch := rfl
@[simp] theorem setPart_mem (c : Nat) (x : Part) : (b.setPart c x).mem = b.mem := rfl
@[simp] theorem setPart_poison (c : Nat) (x : Part) : (b.setPart c x).poison = b.poison := rfl
@[simp] theorem setPart_poisonB (c : Nat) (x : Part) : (b.setPart c x).poisonB = b.poisonB := rfl
@[simp] theorem setPart_hostMem (c : Nat) (x : Part) : (b.setPart c x).hostMem = b.hostMem := rfl
@[simp] theorem setPart_hostBad (c : Nat) (x : Part) : (b.setPart c x).hostBad = b.hostBad := rfl
@[simp] theorem setPart_rings (c : Nat) (x : Part) : (b.setPart c x).rings = b.rings := rfl
@[simp] theorem setPart_sems (c : Nat) (x : Part) : (b.setPart c x).sems = b.sems := rfl
@[simp] theorem setPart_chans (c : Nat) (x : Part) : (b.setPart c x).chans = b.chans := rfl
@[simp] theorem setPart_flights (c : Nat) (x : Part) : (b.setPart c x).flights = b.flights := rfl
@[simp] theorem setPart_grants (c : Nat) (x : Part) : (b.setPart c x).grants = b.grants := rfl
@[simp] theorem setPart_drafts (c : Nat) (x : Part) : (b.setPart c x).drafts = b.drafts := rfl
@[simp] theorem setPart_arrays (c : Nat) (x : Part) : (b.setPart c x).arrays = b.arrays := rfl
@[simp] theorem setPart_vecs (c : Nat) (x : Part) : (b.setPart c x).vecs = b.vecs := rfl
@[simp] theorem setPart_slots (c : Nat) (x : Part) : (b.setPart c x).slots = b.slots := rfl
@[simp] theorem setPart_images (c : Nat) (x : Part) : (b.setPart c x).images = b.images := rfl
@[simp] theorem setPart_carts (c : Nat) (x : Part) : (b.setPart c x).carts = b.carts := rfl
@[simp] theorem setPart_foldRun (c : Nat) (x : Part) : (b.setPart c x).foldRun = b.foldRun := rfl
@[simp] theorem setPart_events (c : Nat) (x : Part) : (b.setPart c x).events = b.events := rfl
@[simp] theorem setPart_evQueues (c : Nat) (x : Part) : (b.setPart c x).evQueues = b.evQueues := rfl
@[simp] theorem setPart_health (c : Nat) (x : Part) : (b.setPart c x).health = b.health := rfl
@[simp] theorem setPart_mailboxes (c : Nat) (x : Part) : (b.setPart c x).mailboxes = b.mailboxes := rfl
@[simp] theorem setPart_snoop (c : Nat) (x : Part) : (b.setPart c x).snoop = b.snoop := rfl
@[simp] theorem setPart_power (c : Nat) (x : Part) : (b.setPart c x).power = b.power := rfl
@[simp] theorem setPart_mcs (c : Nat) (x : Part) : (b.setPart c x).mcs = b.mcs := rfl
@[simp] theorem setPart_memQ (c : Nat) (x : Part) : (b.setPart c x).memQ = b.memQ := rfl
@[simp] theorem setPart_xlCaches (c : Nat) (x : Part) : (b.setPart c x).xlCaches = b.xlCaches := rfl
@[simp] theorem setPart_cacheSel (c : Nat) (x : Part) : (b.setPart c x).cacheSel = b.cacheSel := rfl
@[simp] theorem setPart_xlInvs (c : Nat) (x : Part) : (b.setPart c x).xlInvs = b.xlInvs := rfl
@[simp] theorem setPart_recs (c : Nat) (x : Part) : (b.setPart c x).recs = b.recs := rfl
@[simp] theorem setPart_ports (c : Nat) (x : Part) : (b.setPart c x).ports = b.ports := rfl
@[simp] theorem setPart_leafRuns (c : Nat) (x : Part) : (b.setPart c x).leafRuns = b.leafRuns := rfl
@[simp] theorem setPart_queues (c : Nat) (x : Part) : (b.setPart c x).queues = b.queues := rfl
@[simp] theorem setPart_msgSeq (c : Nat) (x : Part) : (b.setPart c x).msgSeq = b.msgSeq := rfl
@[simp] theorem setPart_shards (c : Nat) (x : Part) : (b.setPart c x).shards = b.shards := rfl
@[simp] theorem setPart_flows (c : Nat) (x : Part) : (b.setPart c x).flows = b.flows := rfl
@[simp] theorem setPart_sessions (c : Nat) (x : Part) : (b.setPart c x).sessions = b.sessions := rfl
@[simp] theorem setPart_pdraws (c : Nat) (x : Part) : (b.setPart c x).pdraws = b.pdraws := rfl
@[simp] theorem setPart_prDone (c : Nat) (x : Part) : (b.setPart c x).prDone = b.prDone := rfl
@[simp] theorem setPart_lost (c : Nat) (x : Part) : (b.setPart c x).lost = b.lost := rfl
@[simp] theorem setPart_mail (c : Nat) (x : Part) : (b.setPart c x).mail = b.mail := rfl
@[simp] theorem setPart_haw (c : Nat) (x : Part) : (b.setPart c x).haw = b.haw := rfl
@[simp] theorem setPart_slew (c : Nat) (x : Part) : (b.setPart c x).slew = b.slew := rfl
@[simp] theorem setPart_slewAcc (c : Nat) (x : Part) : (b.setPart c x).slewAcc = b.slewAcc := rfl
@[simp] theorem setPart_rebuilds (c : Nat) (x : Part) : (b.setPart c x).rebuilds = b.rebuilds := rfl
@[simp] theorem setPart_zeroing (c : Nat) (x : Part) : (b.setPart c x).zeroing = b.zeroing := rfl
@[simp] theorem setPart_warm (c : Nat) (x : Part) : (b.setPart c x).warm = b.warm := rfl
@[simp] theorem setPart_hdm (c : Nat) (x : Part) : (b.setPart c x).hdm = b.hdm := rfl
@[simp] theorem setPart_quiescing (c : Nat) (x : Part) : (b.setPart c x).quiescing = b.quiescing := rfl
@[simp] theorem setPart_invWaits (c : Nat) (x : Part) : (b.setPart c x).invWaits = b.invWaits := rfl
@[simp] theorem setPart_ide (c : Nat) (x : Part) : (b.setPart c x).ide = b.ide := rfl
@[simp] theorem setPart_out (c : Nat) (x : Part) : (b.setPart c x).out = b.out := rfl

@[simp] theorem setGrant_now (c : Nat) (x : Grant) : (b.setGrant c x).now = b.now := rfl
@[simp] theorem setGrant_free (c : Nat) (x : Grant) : (b.setGrant c x).free = b.free := rfl
@[simp] theorem setGrant_regs (c : Nat) (x : Grant) : (b.setGrant c x).regs = b.regs := rfl
@[simp] theorem setGrant_latch (c : Nat) (x : Grant) : (b.setGrant c x).latch = b.latch := rfl
@[simp] theorem setGrant_mem (c : Nat) (x : Grant) : (b.setGrant c x).mem = b.mem := rfl
@[simp] theorem setGrant_poison (c : Nat) (x : Grant) : (b.setGrant c x).poison = b.poison := rfl
@[simp] theorem setGrant_poisonB (c : Nat) (x : Grant) : (b.setGrant c x).poisonB = b.poisonB := rfl
@[simp] theorem setGrant_hostMem (c : Nat) (x : Grant) : (b.setGrant c x).hostMem = b.hostMem := rfl
@[simp] theorem setGrant_hostBad (c : Nat) (x : Grant) : (b.setGrant c x).hostBad = b.hostBad := rfl
@[simp] theorem setGrant_rings (c : Nat) (x : Grant) : (b.setGrant c x).rings = b.rings := rfl
@[simp] theorem setGrant_sems (c : Nat) (x : Grant) : (b.setGrant c x).sems = b.sems := rfl
@[simp] theorem setGrant_chans (c : Nat) (x : Grant) : (b.setGrant c x).chans = b.chans := rfl
@[simp] theorem setGrant_flights (c : Nat) (x : Grant) : (b.setGrant c x).flights = b.flights := rfl
@[simp] theorem setGrant_parts (c : Nat) (x : Grant) : (b.setGrant c x).parts = b.parts := rfl
@[simp] theorem setGrant_drafts (c : Nat) (x : Grant) : (b.setGrant c x).drafts = b.drafts := rfl
@[simp] theorem setGrant_arrays (c : Nat) (x : Grant) : (b.setGrant c x).arrays = b.arrays := rfl
@[simp] theorem setGrant_vecs (c : Nat) (x : Grant) : (b.setGrant c x).vecs = b.vecs := rfl
@[simp] theorem setGrant_slots (c : Nat) (x : Grant) : (b.setGrant c x).slots = b.slots := rfl
@[simp] theorem setGrant_images (c : Nat) (x : Grant) : (b.setGrant c x).images = b.images := rfl
@[simp] theorem setGrant_carts (c : Nat) (x : Grant) : (b.setGrant c x).carts = b.carts := rfl
@[simp] theorem setGrant_foldRun (c : Nat) (x : Grant) : (b.setGrant c x).foldRun = b.foldRun := rfl
@[simp] theorem setGrant_events (c : Nat) (x : Grant) : (b.setGrant c x).events = b.events := rfl
@[simp] theorem setGrant_evQueues (c : Nat) (x : Grant) : (b.setGrant c x).evQueues = b.evQueues := rfl
@[simp] theorem setGrant_health (c : Nat) (x : Grant) : (b.setGrant c x).health = b.health := rfl
@[simp] theorem setGrant_mailboxes (c : Nat) (x : Grant) : (b.setGrant c x).mailboxes = b.mailboxes := rfl
@[simp] theorem setGrant_snoop (c : Nat) (x : Grant) : (b.setGrant c x).snoop = b.snoop := rfl
@[simp] theorem setGrant_power (c : Nat) (x : Grant) : (b.setGrant c x).power = b.power := rfl
@[simp] theorem setGrant_mcs (c : Nat) (x : Grant) : (b.setGrant c x).mcs = b.mcs := rfl
@[simp] theorem setGrant_memQ (c : Nat) (x : Grant) : (b.setGrant c x).memQ = b.memQ := rfl
@[simp] theorem setGrant_xlCaches (c : Nat) (x : Grant) : (b.setGrant c x).xlCaches = b.xlCaches := rfl
@[simp] theorem setGrant_cacheSel (c : Nat) (x : Grant) : (b.setGrant c x).cacheSel = b.cacheSel := rfl
@[simp] theorem setGrant_xlInvs (c : Nat) (x : Grant) : (b.setGrant c x).xlInvs = b.xlInvs := rfl
@[simp] theorem setGrant_recs (c : Nat) (x : Grant) : (b.setGrant c x).recs = b.recs := rfl
@[simp] theorem setGrant_ports (c : Nat) (x : Grant) : (b.setGrant c x).ports = b.ports := rfl
@[simp] theorem setGrant_leafRuns (c : Nat) (x : Grant) : (b.setGrant c x).leafRuns = b.leafRuns := rfl
@[simp] theorem setGrant_queues (c : Nat) (x : Grant) : (b.setGrant c x).queues = b.queues := rfl
@[simp] theorem setGrant_msgSeq (c : Nat) (x : Grant) : (b.setGrant c x).msgSeq = b.msgSeq := rfl
@[simp] theorem setGrant_shards (c : Nat) (x : Grant) : (b.setGrant c x).shards = b.shards := rfl
@[simp] theorem setGrant_flows (c : Nat) (x : Grant) : (b.setGrant c x).flows = b.flows := rfl
@[simp] theorem setGrant_sessions (c : Nat) (x : Grant) : (b.setGrant c x).sessions = b.sessions := rfl
@[simp] theorem setGrant_pdraws (c : Nat) (x : Grant) : (b.setGrant c x).pdraws = b.pdraws := rfl
@[simp] theorem setGrant_prDone (c : Nat) (x : Grant) : (b.setGrant c x).prDone = b.prDone := rfl
@[simp] theorem setGrant_lost (c : Nat) (x : Grant) : (b.setGrant c x).lost = b.lost := rfl
@[simp] theorem setGrant_mail (c : Nat) (x : Grant) : (b.setGrant c x).mail = b.mail := rfl
@[simp] theorem setGrant_haw (c : Nat) (x : Grant) : (b.setGrant c x).haw = b.haw := rfl
@[simp] theorem setGrant_slew (c : Nat) (x : Grant) : (b.setGrant c x).slew = b.slew := rfl
@[simp] theorem setGrant_slewAcc (c : Nat) (x : Grant) : (b.setGrant c x).slewAcc = b.slewAcc := rfl
@[simp] theorem setGrant_rebuilds (c : Nat) (x : Grant) : (b.setGrant c x).rebuilds = b.rebuilds := rfl
@[simp] theorem setGrant_zeroing (c : Nat) (x : Grant) : (b.setGrant c x).zeroing = b.zeroing := rfl
@[simp] theorem setGrant_warm (c : Nat) (x : Grant) : (b.setGrant c x).warm = b.warm := rfl
@[simp] theorem setGrant_hdm (c : Nat) (x : Grant) : (b.setGrant c x).hdm = b.hdm := rfl
@[simp] theorem setGrant_quiescing (c : Nat) (x : Grant) : (b.setGrant c x).quiescing = b.quiescing := rfl
@[simp] theorem setGrant_invWaits (c : Nat) (x : Grant) : (b.setGrant c x).invWaits = b.invWaits := rfl
@[simp] theorem setGrant_ide (c : Nat) (x : Grant) : (b.setGrant c x).ide = b.ide := rfl
@[simp] theorem setGrant_out (c : Nat) (x : Grant) : (b.setGrant c x).out = b.out := rfl

@[simp] theorem setDraft_now (p d : Nat) (x : Draft) : (b.setDraft p d x).now = b.now := rfl
@[simp] theorem setDraft_free (p d : Nat) (x : Draft) : (b.setDraft p d x).free = b.free := rfl
@[simp] theorem setDraft_regs (p d : Nat) (x : Draft) : (b.setDraft p d x).regs = b.regs := rfl
@[simp] theorem setDraft_latch (p d : Nat) (x : Draft) : (b.setDraft p d x).latch = b.latch := rfl
@[simp] theorem setDraft_mem (p d : Nat) (x : Draft) : (b.setDraft p d x).mem = b.mem := rfl
@[simp] theorem setDraft_poison (p d : Nat) (x : Draft) : (b.setDraft p d x).poison = b.poison := rfl
@[simp] theorem setDraft_poisonB (p d : Nat) (x : Draft) : (b.setDraft p d x).poisonB = b.poisonB := rfl
@[simp] theorem setDraft_hostMem (p d : Nat) (x : Draft) : (b.setDraft p d x).hostMem = b.hostMem := rfl
@[simp] theorem setDraft_hostBad (p d : Nat) (x : Draft) : (b.setDraft p d x).hostBad = b.hostBad := rfl
@[simp] theorem setDraft_rings (p d : Nat) (x : Draft) : (b.setDraft p d x).rings = b.rings := rfl
@[simp] theorem setDraft_sems (p d : Nat) (x : Draft) : (b.setDraft p d x).sems = b.sems := rfl
@[simp] theorem setDraft_chans (p d : Nat) (x : Draft) : (b.setDraft p d x).chans = b.chans := rfl
@[simp] theorem setDraft_flights (p d : Nat) (x : Draft) : (b.setDraft p d x).flights = b.flights := rfl
@[simp] theorem setDraft_parts (p d : Nat) (x : Draft) : (b.setDraft p d x).parts = b.parts := rfl
@[simp] theorem setDraft_grants (p d : Nat) (x : Draft) : (b.setDraft p d x).grants = b.grants := rfl
@[simp] theorem setDraft_arrays (p d : Nat) (x : Draft) : (b.setDraft p d x).arrays = b.arrays := rfl
@[simp] theorem setDraft_vecs (p d : Nat) (x : Draft) : (b.setDraft p d x).vecs = b.vecs := rfl
@[simp] theorem setDraft_slots (p d : Nat) (x : Draft) : (b.setDraft p d x).slots = b.slots := rfl
@[simp] theorem setDraft_images (p d : Nat) (x : Draft) : (b.setDraft p d x).images = b.images := rfl
@[simp] theorem setDraft_carts (p d : Nat) (x : Draft) : (b.setDraft p d x).carts = b.carts := rfl
@[simp] theorem setDraft_foldRun (p d : Nat) (x : Draft) : (b.setDraft p d x).foldRun = b.foldRun := rfl
@[simp] theorem setDraft_events (p d : Nat) (x : Draft) : (b.setDraft p d x).events = b.events := rfl
@[simp] theorem setDraft_evQueues (p d : Nat) (x : Draft) : (b.setDraft p d x).evQueues = b.evQueues := rfl
@[simp] theorem setDraft_health (p d : Nat) (x : Draft) : (b.setDraft p d x).health = b.health := rfl
@[simp] theorem setDraft_mailboxes (p d : Nat) (x : Draft) : (b.setDraft p d x).mailboxes = b.mailboxes := rfl
@[simp] theorem setDraft_snoop (p d : Nat) (x : Draft) : (b.setDraft p d x).snoop = b.snoop := rfl
@[simp] theorem setDraft_power (p d : Nat) (x : Draft) : (b.setDraft p d x).power = b.power := rfl
@[simp] theorem setDraft_mcs (p d : Nat) (x : Draft) : (b.setDraft p d x).mcs = b.mcs := rfl
@[simp] theorem setDraft_memQ (p d : Nat) (x : Draft) : (b.setDraft p d x).memQ = b.memQ := rfl
@[simp] theorem setDraft_xlCaches (p d : Nat) (x : Draft) : (b.setDraft p d x).xlCaches = b.xlCaches := rfl
@[simp] theorem setDraft_cacheSel (p d : Nat) (x : Draft) : (b.setDraft p d x).cacheSel = b.cacheSel := rfl
@[simp] theorem setDraft_xlInvs (p d : Nat) (x : Draft) : (b.setDraft p d x).xlInvs = b.xlInvs := rfl
@[simp] theorem setDraft_recs (p d : Nat) (x : Draft) : (b.setDraft p d x).recs = b.recs := rfl
@[simp] theorem setDraft_ports (p d : Nat) (x : Draft) : (b.setDraft p d x).ports = b.ports := rfl
@[simp] theorem setDraft_leafRuns (p d : Nat) (x : Draft) : (b.setDraft p d x).leafRuns = b.leafRuns := rfl
@[simp] theorem setDraft_queues (p d : Nat) (x : Draft) : (b.setDraft p d x).queues = b.queues := rfl
@[simp] theorem setDraft_msgSeq (p d : Nat) (x : Draft) : (b.setDraft p d x).msgSeq = b.msgSeq := rfl
@[simp] theorem setDraft_shards (p d : Nat) (x : Draft) : (b.setDraft p d x).shards = b.shards := rfl
@[simp] theorem setDraft_flows (p d : Nat) (x : Draft) : (b.setDraft p d x).flows = b.flows := rfl
@[simp] theorem setDraft_sessions (p d : Nat) (x : Draft) : (b.setDraft p d x).sessions = b.sessions := rfl
@[simp] theorem setDraft_pdraws (p d : Nat) (x : Draft) : (b.setDraft p d x).pdraws = b.pdraws := rfl
@[simp] theorem setDraft_prDone (p d : Nat) (x : Draft) : (b.setDraft p d x).prDone = b.prDone := rfl
@[simp] theorem setDraft_lost (p d : Nat) (x : Draft) : (b.setDraft p d x).lost = b.lost := rfl
@[simp] theorem setDraft_mail (p d : Nat) (x : Draft) : (b.setDraft p d x).mail = b.mail := rfl
@[simp] theorem setDraft_haw (p d : Nat) (x : Draft) : (b.setDraft p d x).haw = b.haw := rfl
@[simp] theorem setDraft_slew (p d : Nat) (x : Draft) : (b.setDraft p d x).slew = b.slew := rfl
@[simp] theorem setDraft_slewAcc (p d : Nat) (x : Draft) : (b.setDraft p d x).slewAcc = b.slewAcc := rfl
@[simp] theorem setDraft_rebuilds (p d : Nat) (x : Draft) : (b.setDraft p d x).rebuilds = b.rebuilds := rfl
@[simp] theorem setDraft_zeroing (p d : Nat) (x : Draft) : (b.setDraft p d x).zeroing = b.zeroing := rfl
@[simp] theorem setDraft_warm (p d : Nat) (x : Draft) : (b.setDraft p d x).warm = b.warm := rfl
@[simp] theorem setDraft_hdm (p d : Nat) (x : Draft) : (b.setDraft p d x).hdm = b.hdm := rfl
@[simp] theorem setDraft_quiescing (p d : Nat) (x : Draft) : (b.setDraft p d x).quiescing = b.quiescing := rfl
@[simp] theorem setDraft_invWaits (p d : Nat) (x : Draft) : (b.setDraft p d x).invWaits = b.invWaits := rfl
@[simp] theorem setDraft_ide (p d : Nat) (x : Draft) : (b.setDraft p d x).ide = b.ide := rfl
@[simp] theorem setDraft_out (p d : Nat) (x : Draft) : (b.setDraft p d x).out = b.out := rfl

@[simp] theorem setArr_now (c : Nat) (x : ArrayUnit) : (b.setArr c x).now = b.now := rfl
@[simp] theorem setArr_free (c : Nat) (x : ArrayUnit) : (b.setArr c x).free = b.free := rfl
@[simp] theorem setArr_regs (c : Nat) (x : ArrayUnit) : (b.setArr c x).regs = b.regs := rfl
@[simp] theorem setArr_latch (c : Nat) (x : ArrayUnit) : (b.setArr c x).latch = b.latch := rfl
@[simp] theorem setArr_mem (c : Nat) (x : ArrayUnit) : (b.setArr c x).mem = b.mem := rfl
@[simp] theorem setArr_poison (c : Nat) (x : ArrayUnit) : (b.setArr c x).poison = b.poison := rfl
@[simp] theorem setArr_poisonB (c : Nat) (x : ArrayUnit) : (b.setArr c x).poisonB = b.poisonB := rfl
@[simp] theorem setArr_hostMem (c : Nat) (x : ArrayUnit) : (b.setArr c x).hostMem = b.hostMem := rfl
@[simp] theorem setArr_hostBad (c : Nat) (x : ArrayUnit) : (b.setArr c x).hostBad = b.hostBad := rfl
@[simp] theorem setArr_rings (c : Nat) (x : ArrayUnit) : (b.setArr c x).rings = b.rings := rfl
@[simp] theorem setArr_sems (c : Nat) (x : ArrayUnit) : (b.setArr c x).sems = b.sems := rfl
@[simp] theorem setArr_chans (c : Nat) (x : ArrayUnit) : (b.setArr c x).chans = b.chans := rfl
@[simp] theorem setArr_flights (c : Nat) (x : ArrayUnit) : (b.setArr c x).flights = b.flights := rfl
@[simp] theorem setArr_parts (c : Nat) (x : ArrayUnit) : (b.setArr c x).parts = b.parts := rfl
@[simp] theorem setArr_grants (c : Nat) (x : ArrayUnit) : (b.setArr c x).grants = b.grants := rfl
@[simp] theorem setArr_drafts (c : Nat) (x : ArrayUnit) : (b.setArr c x).drafts = b.drafts := rfl
@[simp] theorem setArr_vecs (c : Nat) (x : ArrayUnit) : (b.setArr c x).vecs = b.vecs := rfl
@[simp] theorem setArr_slots (c : Nat) (x : ArrayUnit) : (b.setArr c x).slots = b.slots := rfl
@[simp] theorem setArr_images (c : Nat) (x : ArrayUnit) : (b.setArr c x).images = b.images := rfl
@[simp] theorem setArr_carts (c : Nat) (x : ArrayUnit) : (b.setArr c x).carts = b.carts := rfl
@[simp] theorem setArr_foldRun (c : Nat) (x : ArrayUnit) : (b.setArr c x).foldRun = b.foldRun := rfl
@[simp] theorem setArr_events (c : Nat) (x : ArrayUnit) : (b.setArr c x).events = b.events := rfl
@[simp] theorem setArr_evQueues (c : Nat) (x : ArrayUnit) : (b.setArr c x).evQueues = b.evQueues := rfl
@[simp] theorem setArr_health (c : Nat) (x : ArrayUnit) : (b.setArr c x).health = b.health := rfl
@[simp] theorem setArr_mailboxes (c : Nat) (x : ArrayUnit) : (b.setArr c x).mailboxes = b.mailboxes := rfl
@[simp] theorem setArr_snoop (c : Nat) (x : ArrayUnit) : (b.setArr c x).snoop = b.snoop := rfl
@[simp] theorem setArr_power (c : Nat) (x : ArrayUnit) : (b.setArr c x).power = b.power := rfl
@[simp] theorem setArr_mcs (c : Nat) (x : ArrayUnit) : (b.setArr c x).mcs = b.mcs := rfl
@[simp] theorem setArr_memQ (c : Nat) (x : ArrayUnit) : (b.setArr c x).memQ = b.memQ := rfl
@[simp] theorem setArr_xlCaches (c : Nat) (x : ArrayUnit) : (b.setArr c x).xlCaches = b.xlCaches := rfl
@[simp] theorem setArr_cacheSel (c : Nat) (x : ArrayUnit) : (b.setArr c x).cacheSel = b.cacheSel := rfl
@[simp] theorem setArr_xlInvs (c : Nat) (x : ArrayUnit) : (b.setArr c x).xlInvs = b.xlInvs := rfl
@[simp] theorem setArr_recs (c : Nat) (x : ArrayUnit) : (b.setArr c x).recs = b.recs := rfl
@[simp] theorem setArr_ports (c : Nat) (x : ArrayUnit) : (b.setArr c x).ports = b.ports := rfl
@[simp] theorem setArr_leafRuns (c : Nat) (x : ArrayUnit) : (b.setArr c x).leafRuns = b.leafRuns := rfl
@[simp] theorem setArr_queues (c : Nat) (x : ArrayUnit) : (b.setArr c x).queues = b.queues := rfl
@[simp] theorem setArr_msgSeq (c : Nat) (x : ArrayUnit) : (b.setArr c x).msgSeq = b.msgSeq := rfl
@[simp] theorem setArr_shards (c : Nat) (x : ArrayUnit) : (b.setArr c x).shards = b.shards := rfl
@[simp] theorem setArr_flows (c : Nat) (x : ArrayUnit) : (b.setArr c x).flows = b.flows := rfl
@[simp] theorem setArr_sessions (c : Nat) (x : ArrayUnit) : (b.setArr c x).sessions = b.sessions := rfl
@[simp] theorem setArr_pdraws (c : Nat) (x : ArrayUnit) : (b.setArr c x).pdraws = b.pdraws := rfl
@[simp] theorem setArr_prDone (c : Nat) (x : ArrayUnit) : (b.setArr c x).prDone = b.prDone := rfl
@[simp] theorem setArr_lost (c : Nat) (x : ArrayUnit) : (b.setArr c x).lost = b.lost := rfl
@[simp] theorem setArr_mail (c : Nat) (x : ArrayUnit) : (b.setArr c x).mail = b.mail := rfl
@[simp] theorem setArr_haw (c : Nat) (x : ArrayUnit) : (b.setArr c x).haw = b.haw := rfl
@[simp] theorem setArr_slew (c : Nat) (x : ArrayUnit) : (b.setArr c x).slew = b.slew := rfl
@[simp] theorem setArr_slewAcc (c : Nat) (x : ArrayUnit) : (b.setArr c x).slewAcc = b.slewAcc := rfl
@[simp] theorem setArr_rebuilds (c : Nat) (x : ArrayUnit) : (b.setArr c x).rebuilds = b.rebuilds := rfl
@[simp] theorem setArr_zeroing (c : Nat) (x : ArrayUnit) : (b.setArr c x).zeroing = b.zeroing := rfl
@[simp] theorem setArr_warm (c : Nat) (x : ArrayUnit) : (b.setArr c x).warm = b.warm := rfl
@[simp] theorem setArr_hdm (c : Nat) (x : ArrayUnit) : (b.setArr c x).hdm = b.hdm := rfl
@[simp] theorem setArr_quiescing (c : Nat) (x : ArrayUnit) : (b.setArr c x).quiescing = b.quiescing := rfl
@[simp] theorem setArr_invWaits (c : Nat) (x : ArrayUnit) : (b.setArr c x).invWaits = b.invWaits := rfl
@[simp] theorem setArr_ide (c : Nat) (x : ArrayUnit) : (b.setArr c x).ide = b.ide := rfl
@[simp] theorem setArr_out (c : Nat) (x : ArrayUnit) : (b.setArr c x).out = b.out := rfl

@[simp] theorem setVec_now (c : Nat) (x : VecUnit) : (b.setVec c x).now = b.now := rfl
@[simp] theorem setVec_free (c : Nat) (x : VecUnit) : (b.setVec c x).free = b.free := rfl
@[simp] theorem setVec_regs (c : Nat) (x : VecUnit) : (b.setVec c x).regs = b.regs := rfl
@[simp] theorem setVec_latch (c : Nat) (x : VecUnit) : (b.setVec c x).latch = b.latch := rfl
@[simp] theorem setVec_mem (c : Nat) (x : VecUnit) : (b.setVec c x).mem = b.mem := rfl
@[simp] theorem setVec_poison (c : Nat) (x : VecUnit) : (b.setVec c x).poison = b.poison := rfl
@[simp] theorem setVec_poisonB (c : Nat) (x : VecUnit) : (b.setVec c x).poisonB = b.poisonB := rfl
@[simp] theorem setVec_hostMem (c : Nat) (x : VecUnit) : (b.setVec c x).hostMem = b.hostMem := rfl
@[simp] theorem setVec_hostBad (c : Nat) (x : VecUnit) : (b.setVec c x).hostBad = b.hostBad := rfl
@[simp] theorem setVec_rings (c : Nat) (x : VecUnit) : (b.setVec c x).rings = b.rings := rfl
@[simp] theorem setVec_sems (c : Nat) (x : VecUnit) : (b.setVec c x).sems = b.sems := rfl
@[simp] theorem setVec_chans (c : Nat) (x : VecUnit) : (b.setVec c x).chans = b.chans := rfl
@[simp] theorem setVec_flights (c : Nat) (x : VecUnit) : (b.setVec c x).flights = b.flights := rfl
@[simp] theorem setVec_parts (c : Nat) (x : VecUnit) : (b.setVec c x).parts = b.parts := rfl
@[simp] theorem setVec_grants (c : Nat) (x : VecUnit) : (b.setVec c x).grants = b.grants := rfl
@[simp] theorem setVec_drafts (c : Nat) (x : VecUnit) : (b.setVec c x).drafts = b.drafts := rfl
@[simp] theorem setVec_arrays (c : Nat) (x : VecUnit) : (b.setVec c x).arrays = b.arrays := rfl
@[simp] theorem setVec_slots (c : Nat) (x : VecUnit) : (b.setVec c x).slots = b.slots := rfl
@[simp] theorem setVec_images (c : Nat) (x : VecUnit) : (b.setVec c x).images = b.images := rfl
@[simp] theorem setVec_carts (c : Nat) (x : VecUnit) : (b.setVec c x).carts = b.carts := rfl
@[simp] theorem setVec_foldRun (c : Nat) (x : VecUnit) : (b.setVec c x).foldRun = b.foldRun := rfl
@[simp] theorem setVec_events (c : Nat) (x : VecUnit) : (b.setVec c x).events = b.events := rfl
@[simp] theorem setVec_evQueues (c : Nat) (x : VecUnit) : (b.setVec c x).evQueues = b.evQueues := rfl
@[simp] theorem setVec_health (c : Nat) (x : VecUnit) : (b.setVec c x).health = b.health := rfl
@[simp] theorem setVec_mailboxes (c : Nat) (x : VecUnit) : (b.setVec c x).mailboxes = b.mailboxes := rfl
@[simp] theorem setVec_snoop (c : Nat) (x : VecUnit) : (b.setVec c x).snoop = b.snoop := rfl
@[simp] theorem setVec_power (c : Nat) (x : VecUnit) : (b.setVec c x).power = b.power := rfl
@[simp] theorem setVec_mcs (c : Nat) (x : VecUnit) : (b.setVec c x).mcs = b.mcs := rfl
@[simp] theorem setVec_memQ (c : Nat) (x : VecUnit) : (b.setVec c x).memQ = b.memQ := rfl
@[simp] theorem setVec_xlCaches (c : Nat) (x : VecUnit) : (b.setVec c x).xlCaches = b.xlCaches := rfl
@[simp] theorem setVec_cacheSel (c : Nat) (x : VecUnit) : (b.setVec c x).cacheSel = b.cacheSel := rfl
@[simp] theorem setVec_xlInvs (c : Nat) (x : VecUnit) : (b.setVec c x).xlInvs = b.xlInvs := rfl
@[simp] theorem setVec_recs (c : Nat) (x : VecUnit) : (b.setVec c x).recs = b.recs := rfl
@[simp] theorem setVec_ports (c : Nat) (x : VecUnit) : (b.setVec c x).ports = b.ports := rfl
@[simp] theorem setVec_leafRuns (c : Nat) (x : VecUnit) : (b.setVec c x).leafRuns = b.leafRuns := rfl
@[simp] theorem setVec_queues (c : Nat) (x : VecUnit) : (b.setVec c x).queues = b.queues := rfl
@[simp] theorem setVec_msgSeq (c : Nat) (x : VecUnit) : (b.setVec c x).msgSeq = b.msgSeq := rfl
@[simp] theorem setVec_shards (c : Nat) (x : VecUnit) : (b.setVec c x).shards = b.shards := rfl
@[simp] theorem setVec_flows (c : Nat) (x : VecUnit) : (b.setVec c x).flows = b.flows := rfl
@[simp] theorem setVec_sessions (c : Nat) (x : VecUnit) : (b.setVec c x).sessions = b.sessions := rfl
@[simp] theorem setVec_pdraws (c : Nat) (x : VecUnit) : (b.setVec c x).pdraws = b.pdraws := rfl
@[simp] theorem setVec_prDone (c : Nat) (x : VecUnit) : (b.setVec c x).prDone = b.prDone := rfl
@[simp] theorem setVec_lost (c : Nat) (x : VecUnit) : (b.setVec c x).lost = b.lost := rfl
@[simp] theorem setVec_mail (c : Nat) (x : VecUnit) : (b.setVec c x).mail = b.mail := rfl
@[simp] theorem setVec_haw (c : Nat) (x : VecUnit) : (b.setVec c x).haw = b.haw := rfl
@[simp] theorem setVec_slew (c : Nat) (x : VecUnit) : (b.setVec c x).slew = b.slew := rfl
@[simp] theorem setVec_slewAcc (c : Nat) (x : VecUnit) : (b.setVec c x).slewAcc = b.slewAcc := rfl
@[simp] theorem setVec_rebuilds (c : Nat) (x : VecUnit) : (b.setVec c x).rebuilds = b.rebuilds := rfl
@[simp] theorem setVec_zeroing (c : Nat) (x : VecUnit) : (b.setVec c x).zeroing = b.zeroing := rfl
@[simp] theorem setVec_warm (c : Nat) (x : VecUnit) : (b.setVec c x).warm = b.warm := rfl
@[simp] theorem setVec_hdm (c : Nat) (x : VecUnit) : (b.setVec c x).hdm = b.hdm := rfl
@[simp] theorem setVec_quiescing (c : Nat) (x : VecUnit) : (b.setVec c x).quiescing = b.quiescing := rfl
@[simp] theorem setVec_invWaits (c : Nat) (x : VecUnit) : (b.setVec c x).invWaits = b.invWaits := rfl
@[simp] theorem setVec_ide (c : Nat) (x : VecUnit) : (b.setVec c x).ide = b.ide := rfl
@[simp] theorem setVec_out (c : Nat) (x : VecUnit) : (b.setVec c x).out = b.out := rfl

@[simp] theorem setCart_now (c : Nat) (x : CartUnit) : (b.setCart c x).now = b.now := rfl
@[simp] theorem setCart_free (c : Nat) (x : CartUnit) : (b.setCart c x).free = b.free := rfl
@[simp] theorem setCart_regs (c : Nat) (x : CartUnit) : (b.setCart c x).regs = b.regs := rfl
@[simp] theorem setCart_latch (c : Nat) (x : CartUnit) : (b.setCart c x).latch = b.latch := rfl
@[simp] theorem setCart_mem (c : Nat) (x : CartUnit) : (b.setCart c x).mem = b.mem := rfl
@[simp] theorem setCart_poison (c : Nat) (x : CartUnit) : (b.setCart c x).poison = b.poison := rfl
@[simp] theorem setCart_poisonB (c : Nat) (x : CartUnit) : (b.setCart c x).poisonB = b.poisonB := rfl
@[simp] theorem setCart_hostMem (c : Nat) (x : CartUnit) : (b.setCart c x).hostMem = b.hostMem := rfl
@[simp] theorem setCart_hostBad (c : Nat) (x : CartUnit) : (b.setCart c x).hostBad = b.hostBad := rfl
@[simp] theorem setCart_rings (c : Nat) (x : CartUnit) : (b.setCart c x).rings = b.rings := rfl
@[simp] theorem setCart_sems (c : Nat) (x : CartUnit) : (b.setCart c x).sems = b.sems := rfl
@[simp] theorem setCart_chans (c : Nat) (x : CartUnit) : (b.setCart c x).chans = b.chans := rfl
@[simp] theorem setCart_flights (c : Nat) (x : CartUnit) : (b.setCart c x).flights = b.flights := rfl
@[simp] theorem setCart_parts (c : Nat) (x : CartUnit) : (b.setCart c x).parts = b.parts := rfl
@[simp] theorem setCart_grants (c : Nat) (x : CartUnit) : (b.setCart c x).grants = b.grants := rfl
@[simp] theorem setCart_drafts (c : Nat) (x : CartUnit) : (b.setCart c x).drafts = b.drafts := rfl
@[simp] theorem setCart_arrays (c : Nat) (x : CartUnit) : (b.setCart c x).arrays = b.arrays := rfl
@[simp] theorem setCart_vecs (c : Nat) (x : CartUnit) : (b.setCart c x).vecs = b.vecs := rfl
@[simp] theorem setCart_slots (c : Nat) (x : CartUnit) : (b.setCart c x).slots = b.slots := rfl
@[simp] theorem setCart_images (c : Nat) (x : CartUnit) : (b.setCart c x).images = b.images := rfl
@[simp] theorem setCart_foldRun (c : Nat) (x : CartUnit) : (b.setCart c x).foldRun = b.foldRun := rfl
@[simp] theorem setCart_events (c : Nat) (x : CartUnit) : (b.setCart c x).events = b.events := rfl
@[simp] theorem setCart_evQueues (c : Nat) (x : CartUnit) : (b.setCart c x).evQueues = b.evQueues := rfl
@[simp] theorem setCart_health (c : Nat) (x : CartUnit) : (b.setCart c x).health = b.health := rfl
@[simp] theorem setCart_mailboxes (c : Nat) (x : CartUnit) : (b.setCart c x).mailboxes = b.mailboxes := rfl
@[simp] theorem setCart_snoop (c : Nat) (x : CartUnit) : (b.setCart c x).snoop = b.snoop := rfl
@[simp] theorem setCart_power (c : Nat) (x : CartUnit) : (b.setCart c x).power = b.power := rfl
@[simp] theorem setCart_mcs (c : Nat) (x : CartUnit) : (b.setCart c x).mcs = b.mcs := rfl
@[simp] theorem setCart_memQ (c : Nat) (x : CartUnit) : (b.setCart c x).memQ = b.memQ := rfl
@[simp] theorem setCart_xlCaches (c : Nat) (x : CartUnit) : (b.setCart c x).xlCaches = b.xlCaches := rfl
@[simp] theorem setCart_cacheSel (c : Nat) (x : CartUnit) : (b.setCart c x).cacheSel = b.cacheSel := rfl
@[simp] theorem setCart_xlInvs (c : Nat) (x : CartUnit) : (b.setCart c x).xlInvs = b.xlInvs := rfl
@[simp] theorem setCart_recs (c : Nat) (x : CartUnit) : (b.setCart c x).recs = b.recs := rfl
@[simp] theorem setCart_ports (c : Nat) (x : CartUnit) : (b.setCart c x).ports = b.ports := rfl
@[simp] theorem setCart_leafRuns (c : Nat) (x : CartUnit) : (b.setCart c x).leafRuns = b.leafRuns := rfl
@[simp] theorem setCart_queues (c : Nat) (x : CartUnit) : (b.setCart c x).queues = b.queues := rfl
@[simp] theorem setCart_msgSeq (c : Nat) (x : CartUnit) : (b.setCart c x).msgSeq = b.msgSeq := rfl
@[simp] theorem setCart_shards (c : Nat) (x : CartUnit) : (b.setCart c x).shards = b.shards := rfl
@[simp] theorem setCart_flows (c : Nat) (x : CartUnit) : (b.setCart c x).flows = b.flows := rfl
@[simp] theorem setCart_sessions (c : Nat) (x : CartUnit) : (b.setCart c x).sessions = b.sessions := rfl
@[simp] theorem setCart_pdraws (c : Nat) (x : CartUnit) : (b.setCart c x).pdraws = b.pdraws := rfl
@[simp] theorem setCart_prDone (c : Nat) (x : CartUnit) : (b.setCart c x).prDone = b.prDone := rfl
@[simp] theorem setCart_lost (c : Nat) (x : CartUnit) : (b.setCart c x).lost = b.lost := rfl
@[simp] theorem setCart_mail (c : Nat) (x : CartUnit) : (b.setCart c x).mail = b.mail := rfl
@[simp] theorem setCart_haw (c : Nat) (x : CartUnit) : (b.setCart c x).haw = b.haw := rfl
@[simp] theorem setCart_slew (c : Nat) (x : CartUnit) : (b.setCart c x).slew = b.slew := rfl
@[simp] theorem setCart_slewAcc (c : Nat) (x : CartUnit) : (b.setCart c x).slewAcc = b.slewAcc := rfl
@[simp] theorem setCart_rebuilds (c : Nat) (x : CartUnit) : (b.setCart c x).rebuilds = b.rebuilds := rfl
@[simp] theorem setCart_zeroing (c : Nat) (x : CartUnit) : (b.setCart c x).zeroing = b.zeroing := rfl
@[simp] theorem setCart_warm (c : Nat) (x : CartUnit) : (b.setCart c x).warm = b.warm := rfl
@[simp] theorem setCart_hdm (c : Nat) (x : CartUnit) : (b.setCart c x).hdm = b.hdm := rfl
@[simp] theorem setCart_quiescing (c : Nat) (x : CartUnit) : (b.setCart c x).quiescing = b.quiescing := rfl
@[simp] theorem setCart_invWaits (c : Nat) (x : CartUnit) : (b.setCart c x).invWaits = b.invWaits := rfl
@[simp] theorem setCart_ide (c : Nat) (x : CartUnit) : (b.setCart c x).ide = b.ide := rfl
@[simp] theorem setCart_out (c : Nat) (x : CartUnit) : (b.setCart c x).out = b.out := rfl

@[simp] theorem setMbx_now (c : Nat) (x : Mailbox) : (b.setMbx c x).now = b.now := rfl
@[simp] theorem setMbx_free (c : Nat) (x : Mailbox) : (b.setMbx c x).free = b.free := rfl
@[simp] theorem setMbx_regs (c : Nat) (x : Mailbox) : (b.setMbx c x).regs = b.regs := rfl
@[simp] theorem setMbx_latch (c : Nat) (x : Mailbox) : (b.setMbx c x).latch = b.latch := rfl
@[simp] theorem setMbx_mem (c : Nat) (x : Mailbox) : (b.setMbx c x).mem = b.mem := rfl
@[simp] theorem setMbx_poison (c : Nat) (x : Mailbox) : (b.setMbx c x).poison = b.poison := rfl
@[simp] theorem setMbx_poisonB (c : Nat) (x : Mailbox) : (b.setMbx c x).poisonB = b.poisonB := rfl
@[simp] theorem setMbx_hostMem (c : Nat) (x : Mailbox) : (b.setMbx c x).hostMem = b.hostMem := rfl
@[simp] theorem setMbx_hostBad (c : Nat) (x : Mailbox) : (b.setMbx c x).hostBad = b.hostBad := rfl
@[simp] theorem setMbx_rings (c : Nat) (x : Mailbox) : (b.setMbx c x).rings = b.rings := rfl
@[simp] theorem setMbx_sems (c : Nat) (x : Mailbox) : (b.setMbx c x).sems = b.sems := rfl
@[simp] theorem setMbx_chans (c : Nat) (x : Mailbox) : (b.setMbx c x).chans = b.chans := rfl
@[simp] theorem setMbx_flights (c : Nat) (x : Mailbox) : (b.setMbx c x).flights = b.flights := rfl
@[simp] theorem setMbx_parts (c : Nat) (x : Mailbox) : (b.setMbx c x).parts = b.parts := rfl
@[simp] theorem setMbx_grants (c : Nat) (x : Mailbox) : (b.setMbx c x).grants = b.grants := rfl
@[simp] theorem setMbx_drafts (c : Nat) (x : Mailbox) : (b.setMbx c x).drafts = b.drafts := rfl
@[simp] theorem setMbx_arrays (c : Nat) (x : Mailbox) : (b.setMbx c x).arrays = b.arrays := rfl
@[simp] theorem setMbx_vecs (c : Nat) (x : Mailbox) : (b.setMbx c x).vecs = b.vecs := rfl
@[simp] theorem setMbx_slots (c : Nat) (x : Mailbox) : (b.setMbx c x).slots = b.slots := rfl
@[simp] theorem setMbx_images (c : Nat) (x : Mailbox) : (b.setMbx c x).images = b.images := rfl
@[simp] theorem setMbx_carts (c : Nat) (x : Mailbox) : (b.setMbx c x).carts = b.carts := rfl
@[simp] theorem setMbx_foldRun (c : Nat) (x : Mailbox) : (b.setMbx c x).foldRun = b.foldRun := rfl
@[simp] theorem setMbx_events (c : Nat) (x : Mailbox) : (b.setMbx c x).events = b.events := rfl
@[simp] theorem setMbx_evQueues (c : Nat) (x : Mailbox) : (b.setMbx c x).evQueues = b.evQueues := rfl
@[simp] theorem setMbx_health (c : Nat) (x : Mailbox) : (b.setMbx c x).health = b.health := rfl
@[simp] theorem setMbx_snoop (c : Nat) (x : Mailbox) : (b.setMbx c x).snoop = b.snoop := rfl
@[simp] theorem setMbx_power (c : Nat) (x : Mailbox) : (b.setMbx c x).power = b.power := rfl
@[simp] theorem setMbx_mcs (c : Nat) (x : Mailbox) : (b.setMbx c x).mcs = b.mcs := rfl
@[simp] theorem setMbx_memQ (c : Nat) (x : Mailbox) : (b.setMbx c x).memQ = b.memQ := rfl
@[simp] theorem setMbx_xlCaches (c : Nat) (x : Mailbox) : (b.setMbx c x).xlCaches = b.xlCaches := rfl
@[simp] theorem setMbx_cacheSel (c : Nat) (x : Mailbox) : (b.setMbx c x).cacheSel = b.cacheSel := rfl
@[simp] theorem setMbx_xlInvs (c : Nat) (x : Mailbox) : (b.setMbx c x).xlInvs = b.xlInvs := rfl
@[simp] theorem setMbx_recs (c : Nat) (x : Mailbox) : (b.setMbx c x).recs = b.recs := rfl
@[simp] theorem setMbx_ports (c : Nat) (x : Mailbox) : (b.setMbx c x).ports = b.ports := rfl
@[simp] theorem setMbx_leafRuns (c : Nat) (x : Mailbox) : (b.setMbx c x).leafRuns = b.leafRuns := rfl
@[simp] theorem setMbx_queues (c : Nat) (x : Mailbox) : (b.setMbx c x).queues = b.queues := rfl
@[simp] theorem setMbx_msgSeq (c : Nat) (x : Mailbox) : (b.setMbx c x).msgSeq = b.msgSeq := rfl
@[simp] theorem setMbx_shards (c : Nat) (x : Mailbox) : (b.setMbx c x).shards = b.shards := rfl
@[simp] theorem setMbx_flows (c : Nat) (x : Mailbox) : (b.setMbx c x).flows = b.flows := rfl
@[simp] theorem setMbx_sessions (c : Nat) (x : Mailbox) : (b.setMbx c x).sessions = b.sessions := rfl
@[simp] theorem setMbx_pdraws (c : Nat) (x : Mailbox) : (b.setMbx c x).pdraws = b.pdraws := rfl
@[simp] theorem setMbx_prDone (c : Nat) (x : Mailbox) : (b.setMbx c x).prDone = b.prDone := rfl
@[simp] theorem setMbx_lost (c : Nat) (x : Mailbox) : (b.setMbx c x).lost = b.lost := rfl
@[simp] theorem setMbx_mail (c : Nat) (x : Mailbox) : (b.setMbx c x).mail = b.mail := rfl
@[simp] theorem setMbx_haw (c : Nat) (x : Mailbox) : (b.setMbx c x).haw = b.haw := rfl
@[simp] theorem setMbx_slew (c : Nat) (x : Mailbox) : (b.setMbx c x).slew = b.slew := rfl
@[simp] theorem setMbx_slewAcc (c : Nat) (x : Mailbox) : (b.setMbx c x).slewAcc = b.slewAcc := rfl
@[simp] theorem setMbx_rebuilds (c : Nat) (x : Mailbox) : (b.setMbx c x).rebuilds = b.rebuilds := rfl
@[simp] theorem setMbx_zeroing (c : Nat) (x : Mailbox) : (b.setMbx c x).zeroing = b.zeroing := rfl
@[simp] theorem setMbx_warm (c : Nat) (x : Mailbox) : (b.setMbx c x).warm = b.warm := rfl
@[simp] theorem setMbx_hdm (c : Nat) (x : Mailbox) : (b.setMbx c x).hdm = b.hdm := rfl
@[simp] theorem setMbx_quiescing (c : Nat) (x : Mailbox) : (b.setMbx c x).quiescing = b.quiescing := rfl
@[simp] theorem setMbx_invWaits (c : Nat) (x : Mailbox) : (b.setMbx c x).invWaits = b.invWaits := rfl
@[simp] theorem setMbx_ide (c : Nat) (x : Mailbox) : (b.setMbx c x).ide = b.ide := rfl
@[simp] theorem setMbx_out (c : Nat) (x : Mailbox) : (b.setMbx c x).out = b.out := rfl

@[simp] theorem setEvq_now (c : Nat) (x : EvQueue) : (b.setEvq c x).now = b.now := rfl
@[simp] theorem setEvq_free (c : Nat) (x : EvQueue) : (b.setEvq c x).free = b.free := rfl
@[simp] theorem setEvq_regs (c : Nat) (x : EvQueue) : (b.setEvq c x).regs = b.regs := rfl
@[simp] theorem setEvq_latch (c : Nat) (x : EvQueue) : (b.setEvq c x).latch = b.latch := rfl
@[simp] theorem setEvq_mem (c : Nat) (x : EvQueue) : (b.setEvq c x).mem = b.mem := rfl
@[simp] theorem setEvq_poison (c : Nat) (x : EvQueue) : (b.setEvq c x).poison = b.poison := rfl
@[simp] theorem setEvq_poisonB (c : Nat) (x : EvQueue) : (b.setEvq c x).poisonB = b.poisonB := rfl
@[simp] theorem setEvq_hostMem (c : Nat) (x : EvQueue) : (b.setEvq c x).hostMem = b.hostMem := rfl
@[simp] theorem setEvq_hostBad (c : Nat) (x : EvQueue) : (b.setEvq c x).hostBad = b.hostBad := rfl
@[simp] theorem setEvq_rings (c : Nat) (x : EvQueue) : (b.setEvq c x).rings = b.rings := rfl
@[simp] theorem setEvq_sems (c : Nat) (x : EvQueue) : (b.setEvq c x).sems = b.sems := rfl
@[simp] theorem setEvq_chans (c : Nat) (x : EvQueue) : (b.setEvq c x).chans = b.chans := rfl
@[simp] theorem setEvq_flights (c : Nat) (x : EvQueue) : (b.setEvq c x).flights = b.flights := rfl
@[simp] theorem setEvq_parts (c : Nat) (x : EvQueue) : (b.setEvq c x).parts = b.parts := rfl
@[simp] theorem setEvq_grants (c : Nat) (x : EvQueue) : (b.setEvq c x).grants = b.grants := rfl
@[simp] theorem setEvq_drafts (c : Nat) (x : EvQueue) : (b.setEvq c x).drafts = b.drafts := rfl
@[simp] theorem setEvq_arrays (c : Nat) (x : EvQueue) : (b.setEvq c x).arrays = b.arrays := rfl
@[simp] theorem setEvq_vecs (c : Nat) (x : EvQueue) : (b.setEvq c x).vecs = b.vecs := rfl
@[simp] theorem setEvq_slots (c : Nat) (x : EvQueue) : (b.setEvq c x).slots = b.slots := rfl
@[simp] theorem setEvq_images (c : Nat) (x : EvQueue) : (b.setEvq c x).images = b.images := rfl
@[simp] theorem setEvq_carts (c : Nat) (x : EvQueue) : (b.setEvq c x).carts = b.carts := rfl
@[simp] theorem setEvq_foldRun (c : Nat) (x : EvQueue) : (b.setEvq c x).foldRun = b.foldRun := rfl
@[simp] theorem setEvq_events (c : Nat) (x : EvQueue) : (b.setEvq c x).events = b.events := rfl
@[simp] theorem setEvq_health (c : Nat) (x : EvQueue) : (b.setEvq c x).health = b.health := rfl
@[simp] theorem setEvq_mailboxes (c : Nat) (x : EvQueue) : (b.setEvq c x).mailboxes = b.mailboxes := rfl
@[simp] theorem setEvq_snoop (c : Nat) (x : EvQueue) : (b.setEvq c x).snoop = b.snoop := rfl
@[simp] theorem setEvq_power (c : Nat) (x : EvQueue) : (b.setEvq c x).power = b.power := rfl
@[simp] theorem setEvq_mcs (c : Nat) (x : EvQueue) : (b.setEvq c x).mcs = b.mcs := rfl
@[simp] theorem setEvq_memQ (c : Nat) (x : EvQueue) : (b.setEvq c x).memQ = b.memQ := rfl
@[simp] theorem setEvq_xlCaches (c : Nat) (x : EvQueue) : (b.setEvq c x).xlCaches = b.xlCaches := rfl
@[simp] theorem setEvq_cacheSel (c : Nat) (x : EvQueue) : (b.setEvq c x).cacheSel = b.cacheSel := rfl
@[simp] theorem setEvq_xlInvs (c : Nat) (x : EvQueue) : (b.setEvq c x).xlInvs = b.xlInvs := rfl
@[simp] theorem setEvq_recs (c : Nat) (x : EvQueue) : (b.setEvq c x).recs = b.recs := rfl
@[simp] theorem setEvq_ports (c : Nat) (x : EvQueue) : (b.setEvq c x).ports = b.ports := rfl
@[simp] theorem setEvq_leafRuns (c : Nat) (x : EvQueue) : (b.setEvq c x).leafRuns = b.leafRuns := rfl
@[simp] theorem setEvq_queues (c : Nat) (x : EvQueue) : (b.setEvq c x).queues = b.queues := rfl
@[simp] theorem setEvq_msgSeq (c : Nat) (x : EvQueue) : (b.setEvq c x).msgSeq = b.msgSeq := rfl
@[simp] theorem setEvq_shards (c : Nat) (x : EvQueue) : (b.setEvq c x).shards = b.shards := rfl
@[simp] theorem setEvq_flows (c : Nat) (x : EvQueue) : (b.setEvq c x).flows = b.flows := rfl
@[simp] theorem setEvq_sessions (c : Nat) (x : EvQueue) : (b.setEvq c x).sessions = b.sessions := rfl
@[simp] theorem setEvq_pdraws (c : Nat) (x : EvQueue) : (b.setEvq c x).pdraws = b.pdraws := rfl
@[simp] theorem setEvq_prDone (c : Nat) (x : EvQueue) : (b.setEvq c x).prDone = b.prDone := rfl
@[simp] theorem setEvq_lost (c : Nat) (x : EvQueue) : (b.setEvq c x).lost = b.lost := rfl
@[simp] theorem setEvq_mail (c : Nat) (x : EvQueue) : (b.setEvq c x).mail = b.mail := rfl
@[simp] theorem setEvq_haw (c : Nat) (x : EvQueue) : (b.setEvq c x).haw = b.haw := rfl
@[simp] theorem setEvq_slew (c : Nat) (x : EvQueue) : (b.setEvq c x).slew = b.slew := rfl
@[simp] theorem setEvq_slewAcc (c : Nat) (x : EvQueue) : (b.setEvq c x).slewAcc = b.slewAcc := rfl
@[simp] theorem setEvq_rebuilds (c : Nat) (x : EvQueue) : (b.setEvq c x).rebuilds = b.rebuilds := rfl
@[simp] theorem setEvq_zeroing (c : Nat) (x : EvQueue) : (b.setEvq c x).zeroing = b.zeroing := rfl
@[simp] theorem setEvq_warm (c : Nat) (x : EvQueue) : (b.setEvq c x).warm = b.warm := rfl
@[simp] theorem setEvq_hdm (c : Nat) (x : EvQueue) : (b.setEvq c x).hdm = b.hdm := rfl
@[simp] theorem setEvq_quiescing (c : Nat) (x : EvQueue) : (b.setEvq c x).quiescing = b.quiescing := rfl
@[simp] theorem setEvq_invWaits (c : Nat) (x : EvQueue) : (b.setEvq c x).invWaits = b.invWaits := rfl
@[simp] theorem setEvq_ide (c : Nat) (x : EvQueue) : (b.setEvq c x).ide = b.ide := rfl
@[simp] theorem setEvq_out (c : Nat) (x : EvQueue) : (b.setEvq c x).out = b.out := rfl

@[simp] theorem setSem_now (c : Nat) (x : Word) : (b.setSem c x).now = b.now := rfl
@[simp] theorem setSem_free (c : Nat) (x : Word) : (b.setSem c x).free = b.free := rfl
@[simp] theorem setSem_regs (c : Nat) (x : Word) : (b.setSem c x).regs = b.regs := rfl
@[simp] theorem setSem_latch (c : Nat) (x : Word) : (b.setSem c x).latch = b.latch := rfl
@[simp] theorem setSem_mem (c : Nat) (x : Word) : (b.setSem c x).mem = b.mem := rfl
@[simp] theorem setSem_poison (c : Nat) (x : Word) : (b.setSem c x).poison = b.poison := rfl
@[simp] theorem setSem_poisonB (c : Nat) (x : Word) : (b.setSem c x).poisonB = b.poisonB := rfl
@[simp] theorem setSem_hostMem (c : Nat) (x : Word) : (b.setSem c x).hostMem = b.hostMem := rfl
@[simp] theorem setSem_hostBad (c : Nat) (x : Word) : (b.setSem c x).hostBad = b.hostBad := rfl
@[simp] theorem setSem_rings (c : Nat) (x : Word) : (b.setSem c x).rings = b.rings := rfl
@[simp] theorem setSem_chans (c : Nat) (x : Word) : (b.setSem c x).chans = b.chans := rfl
@[simp] theorem setSem_flights (c : Nat) (x : Word) : (b.setSem c x).flights = b.flights := rfl
@[simp] theorem setSem_parts (c : Nat) (x : Word) : (b.setSem c x).parts = b.parts := rfl
@[simp] theorem setSem_grants (c : Nat) (x : Word) : (b.setSem c x).grants = b.grants := rfl
@[simp] theorem setSem_drafts (c : Nat) (x : Word) : (b.setSem c x).drafts = b.drafts := rfl
@[simp] theorem setSem_arrays (c : Nat) (x : Word) : (b.setSem c x).arrays = b.arrays := rfl
@[simp] theorem setSem_vecs (c : Nat) (x : Word) : (b.setSem c x).vecs = b.vecs := rfl
@[simp] theorem setSem_slots (c : Nat) (x : Word) : (b.setSem c x).slots = b.slots := rfl
@[simp] theorem setSem_images (c : Nat) (x : Word) : (b.setSem c x).images = b.images := rfl
@[simp] theorem setSem_carts (c : Nat) (x : Word) : (b.setSem c x).carts = b.carts := rfl
@[simp] theorem setSem_foldRun (c : Nat) (x : Word) : (b.setSem c x).foldRun = b.foldRun := rfl
@[simp] theorem setSem_events (c : Nat) (x : Word) : (b.setSem c x).events = b.events := rfl
@[simp] theorem setSem_evQueues (c : Nat) (x : Word) : (b.setSem c x).evQueues = b.evQueues := rfl
@[simp] theorem setSem_health (c : Nat) (x : Word) : (b.setSem c x).health = b.health := rfl
@[simp] theorem setSem_mailboxes (c : Nat) (x : Word) : (b.setSem c x).mailboxes = b.mailboxes := rfl
@[simp] theorem setSem_snoop (c : Nat) (x : Word) : (b.setSem c x).snoop = b.snoop := rfl
@[simp] theorem setSem_power (c : Nat) (x : Word) : (b.setSem c x).power = b.power := rfl
@[simp] theorem setSem_mcs (c : Nat) (x : Word) : (b.setSem c x).mcs = b.mcs := rfl
@[simp] theorem setSem_memQ (c : Nat) (x : Word) : (b.setSem c x).memQ = b.memQ := rfl
@[simp] theorem setSem_xlCaches (c : Nat) (x : Word) : (b.setSem c x).xlCaches = b.xlCaches := rfl
@[simp] theorem setSem_cacheSel (c : Nat) (x : Word) : (b.setSem c x).cacheSel = b.cacheSel := rfl
@[simp] theorem setSem_xlInvs (c : Nat) (x : Word) : (b.setSem c x).xlInvs = b.xlInvs := rfl
@[simp] theorem setSem_recs (c : Nat) (x : Word) : (b.setSem c x).recs = b.recs := rfl
@[simp] theorem setSem_ports (c : Nat) (x : Word) : (b.setSem c x).ports = b.ports := rfl
@[simp] theorem setSem_leafRuns (c : Nat) (x : Word) : (b.setSem c x).leafRuns = b.leafRuns := rfl
@[simp] theorem setSem_queues (c : Nat) (x : Word) : (b.setSem c x).queues = b.queues := rfl
@[simp] theorem setSem_msgSeq (c : Nat) (x : Word) : (b.setSem c x).msgSeq = b.msgSeq := rfl
@[simp] theorem setSem_shards (c : Nat) (x : Word) : (b.setSem c x).shards = b.shards := rfl
@[simp] theorem setSem_flows (c : Nat) (x : Word) : (b.setSem c x).flows = b.flows := rfl
@[simp] theorem setSem_sessions (c : Nat) (x : Word) : (b.setSem c x).sessions = b.sessions := rfl
@[simp] theorem setSem_pdraws (c : Nat) (x : Word) : (b.setSem c x).pdraws = b.pdraws := rfl
@[simp] theorem setSem_prDone (c : Nat) (x : Word) : (b.setSem c x).prDone = b.prDone := rfl
@[simp] theorem setSem_lost (c : Nat) (x : Word) : (b.setSem c x).lost = b.lost := rfl
@[simp] theorem setSem_mail (c : Nat) (x : Word) : (b.setSem c x).mail = b.mail := rfl
@[simp] theorem setSem_haw (c : Nat) (x : Word) : (b.setSem c x).haw = b.haw := rfl
@[simp] theorem setSem_slew (c : Nat) (x : Word) : (b.setSem c x).slew = b.slew := rfl
@[simp] theorem setSem_slewAcc (c : Nat) (x : Word) : (b.setSem c x).slewAcc = b.slewAcc := rfl
@[simp] theorem setSem_rebuilds (c : Nat) (x : Word) : (b.setSem c x).rebuilds = b.rebuilds := rfl
@[simp] theorem setSem_zeroing (c : Nat) (x : Word) : (b.setSem c x).zeroing = b.zeroing := rfl
@[simp] theorem setSem_warm (c : Nat) (x : Word) : (b.setSem c x).warm = b.warm := rfl
@[simp] theorem setSem_hdm (c : Nat) (x : Word) : (b.setSem c x).hdm = b.hdm := rfl
@[simp] theorem setSem_quiescing (c : Nat) (x : Word) : (b.setSem c x).quiescing = b.quiescing := rfl
@[simp] theorem setSem_invWaits (c : Nat) (x : Word) : (b.setSem c x).invWaits = b.invWaits := rfl
@[simp] theorem setSem_ide (c : Nat) (x : Word) : (b.setSem c x).ide = b.ide := rfl
@[simp] theorem setSem_out (c : Nat) (x : Word) : (b.setSem c x).out = b.out := rfl

@[simp] theorem setRun_now (c : Nat) (x : LeafRun) : (b.setRun c x).now = b.now := rfl
@[simp] theorem setRun_free (c : Nat) (x : LeafRun) : (b.setRun c x).free = b.free := rfl
@[simp] theorem setRun_regs (c : Nat) (x : LeafRun) : (b.setRun c x).regs = b.regs := rfl
@[simp] theorem setRun_latch (c : Nat) (x : LeafRun) : (b.setRun c x).latch = b.latch := rfl
@[simp] theorem setRun_mem (c : Nat) (x : LeafRun) : (b.setRun c x).mem = b.mem := rfl
@[simp] theorem setRun_poison (c : Nat) (x : LeafRun) : (b.setRun c x).poison = b.poison := rfl
@[simp] theorem setRun_poisonB (c : Nat) (x : LeafRun) : (b.setRun c x).poisonB = b.poisonB := rfl
@[simp] theorem setRun_hostMem (c : Nat) (x : LeafRun) : (b.setRun c x).hostMem = b.hostMem := rfl
@[simp] theorem setRun_hostBad (c : Nat) (x : LeafRun) : (b.setRun c x).hostBad = b.hostBad := rfl
@[simp] theorem setRun_rings (c : Nat) (x : LeafRun) : (b.setRun c x).rings = b.rings := rfl
@[simp] theorem setRun_sems (c : Nat) (x : LeafRun) : (b.setRun c x).sems = b.sems := rfl
@[simp] theorem setRun_chans (c : Nat) (x : LeafRun) : (b.setRun c x).chans = b.chans := rfl
@[simp] theorem setRun_flights (c : Nat) (x : LeafRun) : (b.setRun c x).flights = b.flights := rfl
@[simp] theorem setRun_parts (c : Nat) (x : LeafRun) : (b.setRun c x).parts = b.parts := rfl
@[simp] theorem setRun_grants (c : Nat) (x : LeafRun) : (b.setRun c x).grants = b.grants := rfl
@[simp] theorem setRun_drafts (c : Nat) (x : LeafRun) : (b.setRun c x).drafts = b.drafts := rfl
@[simp] theorem setRun_arrays (c : Nat) (x : LeafRun) : (b.setRun c x).arrays = b.arrays := rfl
@[simp] theorem setRun_vecs (c : Nat) (x : LeafRun) : (b.setRun c x).vecs = b.vecs := rfl
@[simp] theorem setRun_slots (c : Nat) (x : LeafRun) : (b.setRun c x).slots = b.slots := rfl
@[simp] theorem setRun_images (c : Nat) (x : LeafRun) : (b.setRun c x).images = b.images := rfl
@[simp] theorem setRun_carts (c : Nat) (x : LeafRun) : (b.setRun c x).carts = b.carts := rfl
@[simp] theorem setRun_foldRun (c : Nat) (x : LeafRun) : (b.setRun c x).foldRun = b.foldRun := rfl
@[simp] theorem setRun_events (c : Nat) (x : LeafRun) : (b.setRun c x).events = b.events := rfl
@[simp] theorem setRun_evQueues (c : Nat) (x : LeafRun) : (b.setRun c x).evQueues = b.evQueues := rfl
@[simp] theorem setRun_health (c : Nat) (x : LeafRun) : (b.setRun c x).health = b.health := rfl
@[simp] theorem setRun_mailboxes (c : Nat) (x : LeafRun) : (b.setRun c x).mailboxes = b.mailboxes := rfl
@[simp] theorem setRun_snoop (c : Nat) (x : LeafRun) : (b.setRun c x).snoop = b.snoop := rfl
@[simp] theorem setRun_power (c : Nat) (x : LeafRun) : (b.setRun c x).power = b.power := rfl
@[simp] theorem setRun_mcs (c : Nat) (x : LeafRun) : (b.setRun c x).mcs = b.mcs := rfl
@[simp] theorem setRun_memQ (c : Nat) (x : LeafRun) : (b.setRun c x).memQ = b.memQ := rfl
@[simp] theorem setRun_xlCaches (c : Nat) (x : LeafRun) : (b.setRun c x).xlCaches = b.xlCaches := rfl
@[simp] theorem setRun_cacheSel (c : Nat) (x : LeafRun) : (b.setRun c x).cacheSel = b.cacheSel := rfl
@[simp] theorem setRun_xlInvs (c : Nat) (x : LeafRun) : (b.setRun c x).xlInvs = b.xlInvs := rfl
@[simp] theorem setRun_recs (c : Nat) (x : LeafRun) : (b.setRun c x).recs = b.recs := rfl
@[simp] theorem setRun_ports (c : Nat) (x : LeafRun) : (b.setRun c x).ports = b.ports := rfl
@[simp] theorem setRun_queues (c : Nat) (x : LeafRun) : (b.setRun c x).queues = b.queues := rfl
@[simp] theorem setRun_msgSeq (c : Nat) (x : LeafRun) : (b.setRun c x).msgSeq = b.msgSeq := rfl
@[simp] theorem setRun_shards (c : Nat) (x : LeafRun) : (b.setRun c x).shards = b.shards := rfl
@[simp] theorem setRun_flows (c : Nat) (x : LeafRun) : (b.setRun c x).flows = b.flows := rfl
@[simp] theorem setRun_sessions (c : Nat) (x : LeafRun) : (b.setRun c x).sessions = b.sessions := rfl
@[simp] theorem setRun_pdraws (c : Nat) (x : LeafRun) : (b.setRun c x).pdraws = b.pdraws := rfl
@[simp] theorem setRun_prDone (c : Nat) (x : LeafRun) : (b.setRun c x).prDone = b.prDone := rfl
@[simp] theorem setRun_lost (c : Nat) (x : LeafRun) : (b.setRun c x).lost = b.lost := rfl
@[simp] theorem setRun_mail (c : Nat) (x : LeafRun) : (b.setRun c x).mail = b.mail := rfl
@[simp] theorem setRun_haw (c : Nat) (x : LeafRun) : (b.setRun c x).haw = b.haw := rfl
@[simp] theorem setRun_slew (c : Nat) (x : LeafRun) : (b.setRun c x).slew = b.slew := rfl
@[simp] theorem setRun_slewAcc (c : Nat) (x : LeafRun) : (b.setRun c x).slewAcc = b.slewAcc := rfl
@[simp] theorem setRun_rebuilds (c : Nat) (x : LeafRun) : (b.setRun c x).rebuilds = b.rebuilds := rfl
@[simp] theorem setRun_zeroing (c : Nat) (x : LeafRun) : (b.setRun c x).zeroing = b.zeroing := rfl
@[simp] theorem setRun_warm (c : Nat) (x : LeafRun) : (b.setRun c x).warm = b.warm := rfl
@[simp] theorem setRun_hdm (c : Nat) (x : LeafRun) : (b.setRun c x).hdm = b.hdm := rfl
@[simp] theorem setRun_quiescing (c : Nat) (x : LeafRun) : (b.setRun c x).quiescing = b.quiescing := rfl
@[simp] theorem setRun_invWaits (c : Nat) (x : LeafRun) : (b.setRun c x).invWaits = b.invWaits := rfl
@[simp] theorem setRun_ide (c : Nat) (x : LeafRun) : (b.setRun c x).ide = b.ide := rfl
@[simp] theorem setRun_out (c : Nat) (x : LeafRun) : (b.setRun c x).out = b.out := rfl

@[simp] theorem setMc_now (t : Tier) (k : Nat) (x : McUnit) : (b.setMc t k x).now = b.now := rfl
@[simp] theorem setMc_free (t : Tier) (k : Nat) (x : McUnit) : (b.setMc t k x).free = b.free := rfl
@[simp] theorem setMc_regs (t : Tier) (k : Nat) (x : McUnit) : (b.setMc t k x).regs = b.regs := rfl
@[simp] theorem setMc_latch (t : Tier) (k : Nat) (x : McUnit) : (b.setMc t k x).latch = b.latch := rfl
@[simp] theorem setMc_mem (t : Tier) (k : Nat) (x : McUnit) : (b.setMc t k x).mem = b.mem := rfl
@[simp] theorem setMc_poison (t : Tier) (k : Nat) (x : McUnit) : (b.setMc t k x).poison = b.poison := rfl
@[simp] theorem setMc_poisonB (t : Tier) (k : Nat) (x : McUnit) : (b.setMc t k x).poisonB = b.poisonB := rfl
@[simp] theorem setMc_hostMem (t : Tier) (k : Nat) (x : McUnit) : (b.setMc t k x).hostMem = b.hostMem := rfl
@[simp] theorem setMc_hostBad (t : Tier) (k : Nat) (x : McUnit) : (b.setMc t k x).hostBad = b.hostBad := rfl
@[simp] theorem setMc_rings (t : Tier) (k : Nat) (x : McUnit) : (b.setMc t k x).rings = b.rings := rfl
@[simp] theorem setMc_sems (t : Tier) (k : Nat) (x : McUnit) : (b.setMc t k x).sems = b.sems := rfl
@[simp] theorem setMc_chans (t : Tier) (k : Nat) (x : McUnit) : (b.setMc t k x).chans = b.chans := rfl
@[simp] theorem setMc_flights (t : Tier) (k : Nat) (x : McUnit) : (b.setMc t k x).flights = b.flights := rfl
@[simp] theorem setMc_parts (t : Tier) (k : Nat) (x : McUnit) : (b.setMc t k x).parts = b.parts := rfl
@[simp] theorem setMc_grants (t : Tier) (k : Nat) (x : McUnit) : (b.setMc t k x).grants = b.grants := rfl
@[simp] theorem setMc_drafts (t : Tier) (k : Nat) (x : McUnit) : (b.setMc t k x).drafts = b.drafts := rfl
@[simp] theorem setMc_arrays (t : Tier) (k : Nat) (x : McUnit) : (b.setMc t k x).arrays = b.arrays := rfl
@[simp] theorem setMc_vecs (t : Tier) (k : Nat) (x : McUnit) : (b.setMc t k x).vecs = b.vecs := rfl
@[simp] theorem setMc_slots (t : Tier) (k : Nat) (x : McUnit) : (b.setMc t k x).slots = b.slots := rfl
@[simp] theorem setMc_images (t : Tier) (k : Nat) (x : McUnit) : (b.setMc t k x).images = b.images := rfl
@[simp] theorem setMc_carts (t : Tier) (k : Nat) (x : McUnit) : (b.setMc t k x).carts = b.carts := rfl
@[simp] theorem setMc_foldRun (t : Tier) (k : Nat) (x : McUnit) : (b.setMc t k x).foldRun = b.foldRun := rfl
@[simp] theorem setMc_events (t : Tier) (k : Nat) (x : McUnit) : (b.setMc t k x).events = b.events := rfl
@[simp] theorem setMc_evQueues (t : Tier) (k : Nat) (x : McUnit) : (b.setMc t k x).evQueues = b.evQueues := rfl
@[simp] theorem setMc_health (t : Tier) (k : Nat) (x : McUnit) : (b.setMc t k x).health = b.health := rfl
@[simp] theorem setMc_mailboxes (t : Tier) (k : Nat) (x : McUnit) : (b.setMc t k x).mailboxes = b.mailboxes := rfl
@[simp] theorem setMc_snoop (t : Tier) (k : Nat) (x : McUnit) : (b.setMc t k x).snoop = b.snoop := rfl
@[simp] theorem setMc_power (t : Tier) (k : Nat) (x : McUnit) : (b.setMc t k x).power = b.power := rfl
@[simp] theorem setMc_memQ (t : Tier) (k : Nat) (x : McUnit) : (b.setMc t k x).memQ = b.memQ := rfl
@[simp] theorem setMc_xlCaches (t : Tier) (k : Nat) (x : McUnit) : (b.setMc t k x).xlCaches = b.xlCaches := rfl
@[simp] theorem setMc_cacheSel (t : Tier) (k : Nat) (x : McUnit) : (b.setMc t k x).cacheSel = b.cacheSel := rfl
@[simp] theorem setMc_xlInvs (t : Tier) (k : Nat) (x : McUnit) : (b.setMc t k x).xlInvs = b.xlInvs := rfl
@[simp] theorem setMc_recs (t : Tier) (k : Nat) (x : McUnit) : (b.setMc t k x).recs = b.recs := rfl
@[simp] theorem setMc_ports (t : Tier) (k : Nat) (x : McUnit) : (b.setMc t k x).ports = b.ports := rfl
@[simp] theorem setMc_leafRuns (t : Tier) (k : Nat) (x : McUnit) : (b.setMc t k x).leafRuns = b.leafRuns := rfl
@[simp] theorem setMc_queues (t : Tier) (k : Nat) (x : McUnit) : (b.setMc t k x).queues = b.queues := rfl
@[simp] theorem setMc_msgSeq (t : Tier) (k : Nat) (x : McUnit) : (b.setMc t k x).msgSeq = b.msgSeq := rfl
@[simp] theorem setMc_shards (t : Tier) (k : Nat) (x : McUnit) : (b.setMc t k x).shards = b.shards := rfl
@[simp] theorem setMc_flows (t : Tier) (k : Nat) (x : McUnit) : (b.setMc t k x).flows = b.flows := rfl
@[simp] theorem setMc_sessions (t : Tier) (k : Nat) (x : McUnit) : (b.setMc t k x).sessions = b.sessions := rfl
@[simp] theorem setMc_pdraws (t : Tier) (k : Nat) (x : McUnit) : (b.setMc t k x).pdraws = b.pdraws := rfl
@[simp] theorem setMc_prDone (t : Tier) (k : Nat) (x : McUnit) : (b.setMc t k x).prDone = b.prDone := rfl
@[simp] theorem setMc_lost (t : Tier) (k : Nat) (x : McUnit) : (b.setMc t k x).lost = b.lost := rfl
@[simp] theorem setMc_mail (t : Tier) (k : Nat) (x : McUnit) : (b.setMc t k x).mail = b.mail := rfl
@[simp] theorem setMc_haw (t : Tier) (k : Nat) (x : McUnit) : (b.setMc t k x).haw = b.haw := rfl
@[simp] theorem setMc_slew (t : Tier) (k : Nat) (x : McUnit) : (b.setMc t k x).slew = b.slew := rfl
@[simp] theorem setMc_slewAcc (t : Tier) (k : Nat) (x : McUnit) : (b.setMc t k x).slewAcc = b.slewAcc := rfl
@[simp] theorem setMc_rebuilds (t : Tier) (k : Nat) (x : McUnit) : (b.setMc t k x).rebuilds = b.rebuilds := rfl
@[simp] theorem setMc_zeroing (t : Tier) (k : Nat) (x : McUnit) : (b.setMc t k x).zeroing = b.zeroing := rfl
@[simp] theorem setMc_warm (t : Tier) (k : Nat) (x : McUnit) : (b.setMc t k x).warm = b.warm := rfl
@[simp] theorem setMc_hdm (t : Tier) (k : Nat) (x : McUnit) : (b.setMc t k x).hdm = b.hdm := rfl
@[simp] theorem setMc_quiescing (t : Tier) (k : Nat) (x : McUnit) : (b.setMc t k x).quiescing = b.quiescing := rfl
@[simp] theorem setMc_invWaits (t : Tier) (k : Nat) (x : McUnit) : (b.setMc t k x).invWaits = b.invWaits := rfl
@[simp] theorem setMc_ide (t : Tier) (k : Nat) (x : McUnit) : (b.setMc t k x).ide = b.ide := rfl
@[simp] theorem setMc_out (t : Tier) (k : Nat) (x : McUnit) : (b.setMc t k x).out = b.out := rfl

@[simp] theorem mark_now (l : Nat) (m : Bool) : (b.mark l m).now = b.now := rfl
@[simp] theorem mark_free (l : Nat) (m : Bool) : (b.mark l m).free = b.free := rfl
@[simp] theorem mark_regs (l : Nat) (m : Bool) : (b.mark l m).regs = b.regs := rfl
@[simp] theorem mark_latch (l : Nat) (m : Bool) : (b.mark l m).latch = b.latch := rfl
@[simp] theorem mark_mem (l : Nat) (m : Bool) : (b.mark l m).mem = b.mem := rfl
@[simp] theorem mark_hostMem (l : Nat) (m : Bool) : (b.mark l m).hostMem = b.hostMem := rfl
@[simp] theorem mark_hostBad (l : Nat) (m : Bool) : (b.mark l m).hostBad = b.hostBad := rfl
@[simp] theorem mark_rings (l : Nat) (m : Bool) : (b.mark l m).rings = b.rings := rfl
@[simp] theorem mark_sems (l : Nat) (m : Bool) : (b.mark l m).sems = b.sems := rfl
@[simp] theorem mark_chans (l : Nat) (m : Bool) : (b.mark l m).chans = b.chans := rfl
@[simp] theorem mark_flights (l : Nat) (m : Bool) : (b.mark l m).flights = b.flights := rfl
@[simp] theorem mark_parts (l : Nat) (m : Bool) : (b.mark l m).parts = b.parts := rfl
@[simp] theorem mark_grants (l : Nat) (m : Bool) : (b.mark l m).grants = b.grants := rfl
@[simp] theorem mark_drafts (l : Nat) (m : Bool) : (b.mark l m).drafts = b.drafts := rfl
@[simp] theorem mark_arrays (l : Nat) (m : Bool) : (b.mark l m).arrays = b.arrays := rfl
@[simp] theorem mark_vecs (l : Nat) (m : Bool) : (b.mark l m).vecs = b.vecs := rfl
@[simp] theorem mark_slots (l : Nat) (m : Bool) : (b.mark l m).slots = b.slots := rfl
@[simp] theorem mark_images (l : Nat) (m : Bool) : (b.mark l m).images = b.images := rfl
@[simp] theorem mark_carts (l : Nat) (m : Bool) : (b.mark l m).carts = b.carts := rfl
@[simp] theorem mark_foldRun (l : Nat) (m : Bool) : (b.mark l m).foldRun = b.foldRun := rfl
@[simp] theorem mark_events (l : Nat) (m : Bool) : (b.mark l m).events = b.events := rfl
@[simp] theorem mark_evQueues (l : Nat) (m : Bool) : (b.mark l m).evQueues = b.evQueues := rfl
@[simp] theorem mark_health (l : Nat) (m : Bool) : (b.mark l m).health = b.health := rfl
@[simp] theorem mark_mailboxes (l : Nat) (m : Bool) : (b.mark l m).mailboxes = b.mailboxes := rfl
@[simp] theorem mark_snoop (l : Nat) (m : Bool) : (b.mark l m).snoop = b.snoop := rfl
@[simp] theorem mark_power (l : Nat) (m : Bool) : (b.mark l m).power = b.power := rfl
@[simp] theorem mark_mcs (l : Nat) (m : Bool) : (b.mark l m).mcs = b.mcs := rfl
@[simp] theorem mark_memQ (l : Nat) (m : Bool) : (b.mark l m).memQ = b.memQ := rfl
@[simp] theorem mark_xlCaches (l : Nat) (m : Bool) : (b.mark l m).xlCaches = b.xlCaches := rfl
@[simp] theorem mark_cacheSel (l : Nat) (m : Bool) : (b.mark l m).cacheSel = b.cacheSel := rfl
@[simp] theorem mark_xlInvs (l : Nat) (m : Bool) : (b.mark l m).xlInvs = b.xlInvs := rfl
@[simp] theorem mark_recs (l : Nat) (m : Bool) : (b.mark l m).recs = b.recs := rfl
@[simp] theorem mark_ports (l : Nat) (m : Bool) : (b.mark l m).ports = b.ports := rfl
@[simp] theorem mark_leafRuns (l : Nat) (m : Bool) : (b.mark l m).leafRuns = b.leafRuns := rfl
@[simp] theorem mark_queues (l : Nat) (m : Bool) : (b.mark l m).queues = b.queues := rfl
@[simp] theorem mark_msgSeq (l : Nat) (m : Bool) : (b.mark l m).msgSeq = b.msgSeq := rfl
@[simp] theorem mark_shards (l : Nat) (m : Bool) : (b.mark l m).shards = b.shards := rfl
@[simp] theorem mark_flows (l : Nat) (m : Bool) : (b.mark l m).flows = b.flows := rfl
@[simp] theorem mark_sessions (l : Nat) (m : Bool) : (b.mark l m).sessions = b.sessions := rfl
@[simp] theorem mark_pdraws (l : Nat) (m : Bool) : (b.mark l m).pdraws = b.pdraws := rfl
@[simp] theorem mark_prDone (l : Nat) (m : Bool) : (b.mark l m).prDone = b.prDone := rfl
@[simp] theorem mark_lost (l : Nat) (m : Bool) : (b.mark l m).lost = b.lost := rfl
@[simp] theorem mark_mail (l : Nat) (m : Bool) : (b.mark l m).mail = b.mail := rfl
@[simp] theorem mark_haw (l : Nat) (m : Bool) : (b.mark l m).haw = b.haw := rfl
@[simp] theorem mark_slew (l : Nat) (m : Bool) : (b.mark l m).slew = b.slew := rfl
@[simp] theorem mark_slewAcc (l : Nat) (m : Bool) : (b.mark l m).slewAcc = b.slewAcc := rfl
@[simp] theorem mark_rebuilds (l : Nat) (m : Bool) : (b.mark l m).rebuilds = b.rebuilds := rfl
@[simp] theorem mark_zeroing (l : Nat) (m : Bool) : (b.mark l m).zeroing = b.zeroing := rfl
@[simp] theorem mark_warm (l : Nat) (m : Bool) : (b.mark l m).warm = b.warm := rfl
@[simp] theorem mark_hdm (l : Nat) (m : Bool) : (b.mark l m).hdm = b.hdm := rfl
@[simp] theorem mark_quiescing (l : Nat) (m : Bool) : (b.mark l m).quiescing = b.quiescing := rfl
@[simp] theorem mark_invWaits (l : Nat) (m : Bool) : (b.mark l m).invWaits = b.invWaits := rfl
@[simp] theorem mark_ide (l : Nat) (m : Bool) : (b.mark l m).ide = b.ide := rfl
@[simp] theorem mark_out (l : Nat) (m : Bool) : (b.mark l m).out = b.out := rfl

@[simp] theorem reply_now (rq : Req) (code status : Nat) (ws : List Word) : (b.reply rq code status ws).now = b.now := rfl
@[simp] theorem reply_free (rq : Req) (code status : Nat) (ws : List Word) : (b.reply rq code status ws).free = b.free := rfl
@[simp] theorem reply_regs (rq : Req) (code status : Nat) (ws : List Word) : (b.reply rq code status ws).regs = b.regs := rfl
@[simp] theorem reply_latch (rq : Req) (code status : Nat) (ws : List Word) : (b.reply rq code status ws).latch = b.latch := rfl
@[simp] theorem reply_mem (rq : Req) (code status : Nat) (ws : List Word) : (b.reply rq code status ws).mem = b.mem := rfl
@[simp] theorem reply_poison (rq : Req) (code status : Nat) (ws : List Word) : (b.reply rq code status ws).poison = b.poison := rfl
@[simp] theorem reply_poisonB (rq : Req) (code status : Nat) (ws : List Word) : (b.reply rq code status ws).poisonB = b.poisonB := rfl
@[simp] theorem reply_hostMem (rq : Req) (code status : Nat) (ws : List Word) : (b.reply rq code status ws).hostMem = b.hostMem := rfl
@[simp] theorem reply_hostBad (rq : Req) (code status : Nat) (ws : List Word) : (b.reply rq code status ws).hostBad = b.hostBad := rfl
@[simp] theorem reply_rings (rq : Req) (code status : Nat) (ws : List Word) : (b.reply rq code status ws).rings = b.rings := rfl
@[simp] theorem reply_sems (rq : Req) (code status : Nat) (ws : List Word) : (b.reply rq code status ws).sems = b.sems := rfl
@[simp] theorem reply_chans (rq : Req) (code status : Nat) (ws : List Word) : (b.reply rq code status ws).chans = b.chans := rfl
@[simp] theorem reply_flights (rq : Req) (code status : Nat) (ws : List Word) : (b.reply rq code status ws).flights = b.flights := rfl
@[simp] theorem reply_parts (rq : Req) (code status : Nat) (ws : List Word) : (b.reply rq code status ws).parts = b.parts := rfl
@[simp] theorem reply_grants (rq : Req) (code status : Nat) (ws : List Word) : (b.reply rq code status ws).grants = b.grants := rfl
@[simp] theorem reply_drafts (rq : Req) (code status : Nat) (ws : List Word) : (b.reply rq code status ws).drafts = b.drafts := rfl
@[simp] theorem reply_arrays (rq : Req) (code status : Nat) (ws : List Word) : (b.reply rq code status ws).arrays = b.arrays := rfl
@[simp] theorem reply_vecs (rq : Req) (code status : Nat) (ws : List Word) : (b.reply rq code status ws).vecs = b.vecs := rfl
@[simp] theorem reply_slots (rq : Req) (code status : Nat) (ws : List Word) : (b.reply rq code status ws).slots = b.slots := rfl
@[simp] theorem reply_images (rq : Req) (code status : Nat) (ws : List Word) : (b.reply rq code status ws).images = b.images := rfl
@[simp] theorem reply_carts (rq : Req) (code status : Nat) (ws : List Word) : (b.reply rq code status ws).carts = b.carts := rfl
@[simp] theorem reply_foldRun (rq : Req) (code status : Nat) (ws : List Word) : (b.reply rq code status ws).foldRun = b.foldRun := rfl
@[simp] theorem reply_events (rq : Req) (code status : Nat) (ws : List Word) : (b.reply rq code status ws).events = b.events := rfl
@[simp] theorem reply_evQueues (rq : Req) (code status : Nat) (ws : List Word) : (b.reply rq code status ws).evQueues = b.evQueues := rfl
@[simp] theorem reply_health (rq : Req) (code status : Nat) (ws : List Word) : (b.reply rq code status ws).health = b.health := rfl
@[simp] theorem reply_snoop (rq : Req) (code status : Nat) (ws : List Word) : (b.reply rq code status ws).snoop = b.snoop := rfl
@[simp] theorem reply_power (rq : Req) (code status : Nat) (ws : List Word) : (b.reply rq code status ws).power = b.power := rfl
@[simp] theorem reply_mcs (rq : Req) (code status : Nat) (ws : List Word) : (b.reply rq code status ws).mcs = b.mcs := rfl
@[simp] theorem reply_memQ (rq : Req) (code status : Nat) (ws : List Word) : (b.reply rq code status ws).memQ = b.memQ := rfl
@[simp] theorem reply_xlCaches (rq : Req) (code status : Nat) (ws : List Word) : (b.reply rq code status ws).xlCaches = b.xlCaches := rfl
@[simp] theorem reply_cacheSel (rq : Req) (code status : Nat) (ws : List Word) : (b.reply rq code status ws).cacheSel = b.cacheSel := rfl
@[simp] theorem reply_xlInvs (rq : Req) (code status : Nat) (ws : List Word) : (b.reply rq code status ws).xlInvs = b.xlInvs := rfl
@[simp] theorem reply_recs (rq : Req) (code status : Nat) (ws : List Word) : (b.reply rq code status ws).recs = b.recs := rfl
@[simp] theorem reply_ports (rq : Req) (code status : Nat) (ws : List Word) : (b.reply rq code status ws).ports = b.ports := rfl
@[simp] theorem reply_leafRuns (rq : Req) (code status : Nat) (ws : List Word) : (b.reply rq code status ws).leafRuns = b.leafRuns := rfl
@[simp] theorem reply_queues (rq : Req) (code status : Nat) (ws : List Word) : (b.reply rq code status ws).queues = b.queues := rfl
@[simp] theorem reply_msgSeq (rq : Req) (code status : Nat) (ws : List Word) : (b.reply rq code status ws).msgSeq = b.msgSeq := rfl
@[simp] theorem reply_shards (rq : Req) (code status : Nat) (ws : List Word) : (b.reply rq code status ws).shards = b.shards := rfl
@[simp] theorem reply_flows (rq : Req) (code status : Nat) (ws : List Word) : (b.reply rq code status ws).flows = b.flows := rfl
@[simp] theorem reply_sessions (rq : Req) (code status : Nat) (ws : List Word) : (b.reply rq code status ws).sessions = b.sessions := rfl
@[simp] theorem reply_pdraws (rq : Req) (code status : Nat) (ws : List Word) : (b.reply rq code status ws).pdraws = b.pdraws := rfl
@[simp] theorem reply_prDone (rq : Req) (code status : Nat) (ws : List Word) : (b.reply rq code status ws).prDone = b.prDone := rfl
@[simp] theorem reply_lost (rq : Req) (code status : Nat) (ws : List Word) : (b.reply rq code status ws).lost = b.lost := rfl
@[simp] theorem reply_mail (rq : Req) (code status : Nat) (ws : List Word) : (b.reply rq code status ws).mail = b.mail := rfl
@[simp] theorem reply_haw (rq : Req) (code status : Nat) (ws : List Word) : (b.reply rq code status ws).haw = b.haw := rfl
@[simp] theorem reply_slew (rq : Req) (code status : Nat) (ws : List Word) : (b.reply rq code status ws).slew = b.slew := rfl
@[simp] theorem reply_slewAcc (rq : Req) (code status : Nat) (ws : List Word) : (b.reply rq code status ws).slewAcc = b.slewAcc := rfl
@[simp] theorem reply_rebuilds (rq : Req) (code status : Nat) (ws : List Word) : (b.reply rq code status ws).rebuilds = b.rebuilds := rfl
@[simp] theorem reply_zeroing (rq : Req) (code status : Nat) (ws : List Word) : (b.reply rq code status ws).zeroing = b.zeroing := rfl
@[simp] theorem reply_warm (rq : Req) (code status : Nat) (ws : List Word) : (b.reply rq code status ws).warm = b.warm := rfl
@[simp] theorem reply_hdm (rq : Req) (code status : Nat) (ws : List Word) : (b.reply rq code status ws).hdm = b.hdm := rfl
@[simp] theorem reply_quiescing (rq : Req) (code status : Nat) (ws : List Word) : (b.reply rq code status ws).quiescing = b.quiescing := rfl
@[simp] theorem reply_invWaits (rq : Req) (code status : Nat) (ws : List Word) : (b.reply rq code status ws).invWaits = b.invWaits := rfl
@[simp] theorem reply_ide (rq : Req) (code status : Nat) (ws : List Word) : (b.reply rq code status ws).ide = b.ide := rfl
@[simp] theorem reply_out (rq : Req) (code status : Nat) (ws : List Word) : (b.reply rq code status ws).out = b.out := rfl

@[simp] theorem setLatch_now (w : Agent) (x o : Nat) (v : Option Word) : (b.setLatch w x o v).now = b.now := rfl
@[simp] theorem setLatch_free (w : Agent) (x o : Nat) (v : Option Word) : (b.setLatch w x o v).free = b.free := rfl
@[simp] theorem setLatch_regs (w : Agent) (x o : Nat) (v : Option Word) : (b.setLatch w x o v).regs = b.regs := rfl
@[simp] theorem setLatch_mem (w : Agent) (x o : Nat) (v : Option Word) : (b.setLatch w x o v).mem = b.mem := rfl
@[simp] theorem setLatch_poison (w : Agent) (x o : Nat) (v : Option Word) : (b.setLatch w x o v).poison = b.poison := rfl
@[simp] theorem setLatch_poisonB (w : Agent) (x o : Nat) (v : Option Word) : (b.setLatch w x o v).poisonB = b.poisonB := rfl
@[simp] theorem setLatch_hostMem (w : Agent) (x o : Nat) (v : Option Word) : (b.setLatch w x o v).hostMem = b.hostMem := rfl
@[simp] theorem setLatch_hostBad (w : Agent) (x o : Nat) (v : Option Word) : (b.setLatch w x o v).hostBad = b.hostBad := rfl
@[simp] theorem setLatch_rings (w : Agent) (x o : Nat) (v : Option Word) : (b.setLatch w x o v).rings = b.rings := rfl
@[simp] theorem setLatch_sems (w : Agent) (x o : Nat) (v : Option Word) : (b.setLatch w x o v).sems = b.sems := rfl
@[simp] theorem setLatch_chans (w : Agent) (x o : Nat) (v : Option Word) : (b.setLatch w x o v).chans = b.chans := rfl
@[simp] theorem setLatch_flights (w : Agent) (x o : Nat) (v : Option Word) : (b.setLatch w x o v).flights = b.flights := rfl
@[simp] theorem setLatch_parts (w : Agent) (x o : Nat) (v : Option Word) : (b.setLatch w x o v).parts = b.parts := rfl
@[simp] theorem setLatch_grants (w : Agent) (x o : Nat) (v : Option Word) : (b.setLatch w x o v).grants = b.grants := rfl
@[simp] theorem setLatch_drafts (w : Agent) (x o : Nat) (v : Option Word) : (b.setLatch w x o v).drafts = b.drafts := rfl
@[simp] theorem setLatch_arrays (w : Agent) (x o : Nat) (v : Option Word) : (b.setLatch w x o v).arrays = b.arrays := rfl
@[simp] theorem setLatch_vecs (w : Agent) (x o : Nat) (v : Option Word) : (b.setLatch w x o v).vecs = b.vecs := rfl
@[simp] theorem setLatch_slots (w : Agent) (x o : Nat) (v : Option Word) : (b.setLatch w x o v).slots = b.slots := rfl
@[simp] theorem setLatch_images (w : Agent) (x o : Nat) (v : Option Word) : (b.setLatch w x o v).images = b.images := rfl
@[simp] theorem setLatch_carts (w : Agent) (x o : Nat) (v : Option Word) : (b.setLatch w x o v).carts = b.carts := rfl
@[simp] theorem setLatch_foldRun (w : Agent) (x o : Nat) (v : Option Word) : (b.setLatch w x o v).foldRun = b.foldRun := rfl
@[simp] theorem setLatch_events (w : Agent) (x o : Nat) (v : Option Word) : (b.setLatch w x o v).events = b.events := rfl
@[simp] theorem setLatch_evQueues (w : Agent) (x o : Nat) (v : Option Word) : (b.setLatch w x o v).evQueues = b.evQueues := rfl
@[simp] theorem setLatch_health (w : Agent) (x o : Nat) (v : Option Word) : (b.setLatch w x o v).health = b.health := rfl
@[simp] theorem setLatch_mailboxes (w : Agent) (x o : Nat) (v : Option Word) : (b.setLatch w x o v).mailboxes = b.mailboxes := rfl
@[simp] theorem setLatch_snoop (w : Agent) (x o : Nat) (v : Option Word) : (b.setLatch w x o v).snoop = b.snoop := rfl
@[simp] theorem setLatch_power (w : Agent) (x o : Nat) (v : Option Word) : (b.setLatch w x o v).power = b.power := rfl
@[simp] theorem setLatch_mcs (w : Agent) (x o : Nat) (v : Option Word) : (b.setLatch w x o v).mcs = b.mcs := rfl
@[simp] theorem setLatch_memQ (w : Agent) (x o : Nat) (v : Option Word) : (b.setLatch w x o v).memQ = b.memQ := rfl
@[simp] theorem setLatch_xlCaches (w : Agent) (x o : Nat) (v : Option Word) : (b.setLatch w x o v).xlCaches = b.xlCaches := rfl
@[simp] theorem setLatch_cacheSel (w : Agent) (x o : Nat) (v : Option Word) : (b.setLatch w x o v).cacheSel = b.cacheSel := rfl
@[simp] theorem setLatch_xlInvs (w : Agent) (x o : Nat) (v : Option Word) : (b.setLatch w x o v).xlInvs = b.xlInvs := rfl
@[simp] theorem setLatch_recs (w : Agent) (x o : Nat) (v : Option Word) : (b.setLatch w x o v).recs = b.recs := rfl
@[simp] theorem setLatch_ports (w : Agent) (x o : Nat) (v : Option Word) : (b.setLatch w x o v).ports = b.ports := rfl
@[simp] theorem setLatch_leafRuns (w : Agent) (x o : Nat) (v : Option Word) : (b.setLatch w x o v).leafRuns = b.leafRuns := rfl
@[simp] theorem setLatch_queues (w : Agent) (x o : Nat) (v : Option Word) : (b.setLatch w x o v).queues = b.queues := rfl
@[simp] theorem setLatch_msgSeq (w : Agent) (x o : Nat) (v : Option Word) : (b.setLatch w x o v).msgSeq = b.msgSeq := rfl
@[simp] theorem setLatch_shards (w : Agent) (x o : Nat) (v : Option Word) : (b.setLatch w x o v).shards = b.shards := rfl
@[simp] theorem setLatch_flows (w : Agent) (x o : Nat) (v : Option Word) : (b.setLatch w x o v).flows = b.flows := rfl
@[simp] theorem setLatch_sessions (w : Agent) (x o : Nat) (v : Option Word) : (b.setLatch w x o v).sessions = b.sessions := rfl
@[simp] theorem setLatch_pdraws (w : Agent) (x o : Nat) (v : Option Word) : (b.setLatch w x o v).pdraws = b.pdraws := rfl
@[simp] theorem setLatch_prDone (w : Agent) (x o : Nat) (v : Option Word) : (b.setLatch w x o v).prDone = b.prDone := rfl
@[simp] theorem setLatch_lost (w : Agent) (x o : Nat) (v : Option Word) : (b.setLatch w x o v).lost = b.lost := rfl
@[simp] theorem setLatch_mail (w : Agent) (x o : Nat) (v : Option Word) : (b.setLatch w x o v).mail = b.mail := rfl
@[simp] theorem setLatch_haw (w : Agent) (x o : Nat) (v : Option Word) : (b.setLatch w x o v).haw = b.haw := rfl
@[simp] theorem setLatch_slew (w : Agent) (x o : Nat) (v : Option Word) : (b.setLatch w x o v).slew = b.slew := rfl
@[simp] theorem setLatch_slewAcc (w : Agent) (x o : Nat) (v : Option Word) : (b.setLatch w x o v).slewAcc = b.slewAcc := rfl
@[simp] theorem setLatch_rebuilds (w : Agent) (x o : Nat) (v : Option Word) : (b.setLatch w x o v).rebuilds = b.rebuilds := rfl
@[simp] theorem setLatch_zeroing (w : Agent) (x o : Nat) (v : Option Word) : (b.setLatch w x o v).zeroing = b.zeroing := rfl
@[simp] theorem setLatch_warm (w : Agent) (x o : Nat) (v : Option Word) : (b.setLatch w x o v).warm = b.warm := rfl
@[simp] theorem setLatch_hdm (w : Agent) (x o : Nat) (v : Option Word) : (b.setLatch w x o v).hdm = b.hdm := rfl
@[simp] theorem setLatch_quiescing (w : Agent) (x o : Nat) (v : Option Word) : (b.setLatch w x o v).quiescing = b.quiescing := rfl
@[simp] theorem setLatch_invWaits (w : Agent) (x o : Nat) (v : Option Word) : (b.setLatch w x o v).invWaits = b.invWaits := rfl
@[simp] theorem setLatch_ide (w : Agent) (x o : Nat) (v : Option Word) : (b.setLatch w x o v).ide = b.ide := rfl
@[simp] theorem setLatch_out (w : Agent) (x o : Nat) (v : Option Word) : (b.setLatch w x o v).out = b.out := rfl

@[simp] theorem setHaw_now (h : Haw) : (b.setHaw h).now = b.now := rfl
@[simp] theorem setHaw_free (h : Haw) : (b.setHaw h).free = b.free := rfl
@[simp] theorem setHaw_regs (h : Haw) : (b.setHaw h).regs = b.regs := rfl
@[simp] theorem setHaw_latch (h : Haw) : (b.setHaw h).latch = b.latch := rfl
@[simp] theorem setHaw_mem (h : Haw) : (b.setHaw h).mem = b.mem := rfl
@[simp] theorem setHaw_poison (h : Haw) : (b.setHaw h).poison = b.poison := rfl
@[simp] theorem setHaw_poisonB (h : Haw) : (b.setHaw h).poisonB = b.poisonB := rfl
@[simp] theorem setHaw_hostMem (h : Haw) : (b.setHaw h).hostMem = b.hostMem := rfl
@[simp] theorem setHaw_hostBad (h : Haw) : (b.setHaw h).hostBad = b.hostBad := rfl
@[simp] theorem setHaw_rings (h : Haw) : (b.setHaw h).rings = b.rings := rfl
@[simp] theorem setHaw_sems (h : Haw) : (b.setHaw h).sems = b.sems := rfl
@[simp] theorem setHaw_chans (h : Haw) : (b.setHaw h).chans = b.chans := rfl
@[simp] theorem setHaw_flights (h : Haw) : (b.setHaw h).flights = b.flights := rfl
@[simp] theorem setHaw_parts (h : Haw) : (b.setHaw h).parts = b.parts := rfl
@[simp] theorem setHaw_grants (h : Haw) : (b.setHaw h).grants = b.grants := rfl
@[simp] theorem setHaw_drafts (h : Haw) : (b.setHaw h).drafts = b.drafts := rfl
@[simp] theorem setHaw_arrays (h : Haw) : (b.setHaw h).arrays = b.arrays := rfl
@[simp] theorem setHaw_vecs (h : Haw) : (b.setHaw h).vecs = b.vecs := rfl
@[simp] theorem setHaw_slots (h : Haw) : (b.setHaw h).slots = b.slots := rfl
@[simp] theorem setHaw_images (h : Haw) : (b.setHaw h).images = b.images := rfl
@[simp] theorem setHaw_carts (h : Haw) : (b.setHaw h).carts = b.carts := rfl
@[simp] theorem setHaw_foldRun (h : Haw) : (b.setHaw h).foldRun = b.foldRun := rfl
@[simp] theorem setHaw_events (h : Haw) : (b.setHaw h).events = b.events := rfl
@[simp] theorem setHaw_evQueues (h : Haw) : (b.setHaw h).evQueues = b.evQueues := rfl
@[simp] theorem setHaw_health (h : Haw) : (b.setHaw h).health = b.health := rfl
@[simp] theorem setHaw_mailboxes (h : Haw) : (b.setHaw h).mailboxes = b.mailboxes := rfl
@[simp] theorem setHaw_snoop (h : Haw) : (b.setHaw h).snoop = b.snoop := rfl
@[simp] theorem setHaw_power (h : Haw) : (b.setHaw h).power = b.power := rfl
@[simp] theorem setHaw_mcs (h : Haw) : (b.setHaw h).mcs = b.mcs := rfl
@[simp] theorem setHaw_memQ (h : Haw) : (b.setHaw h).memQ = b.memQ := rfl
@[simp] theorem setHaw_xlCaches (h : Haw) : (b.setHaw h).xlCaches = b.xlCaches := rfl
@[simp] theorem setHaw_cacheSel (h : Haw) : (b.setHaw h).cacheSel = b.cacheSel := rfl
@[simp] theorem setHaw_xlInvs (h : Haw) : (b.setHaw h).xlInvs = b.xlInvs := rfl
@[simp] theorem setHaw_recs (h : Haw) : (b.setHaw h).recs = b.recs := rfl
@[simp] theorem setHaw_ports (h : Haw) : (b.setHaw h).ports = b.ports := rfl
@[simp] theorem setHaw_leafRuns (h : Haw) : (b.setHaw h).leafRuns = b.leafRuns := rfl
@[simp] theorem setHaw_queues (h : Haw) : (b.setHaw h).queues = b.queues := rfl
@[simp] theorem setHaw_msgSeq (h : Haw) : (b.setHaw h).msgSeq = b.msgSeq := rfl
@[simp] theorem setHaw_shards (h : Haw) : (b.setHaw h).shards = b.shards := rfl
@[simp] theorem setHaw_flows (h : Haw) : (b.setHaw h).flows = b.flows := rfl
@[simp] theorem setHaw_sessions (h : Haw) : (b.setHaw h).sessions = b.sessions := rfl
@[simp] theorem setHaw_pdraws (h : Haw) : (b.setHaw h).pdraws = b.pdraws := rfl
@[simp] theorem setHaw_prDone (h : Haw) : (b.setHaw h).prDone = b.prDone := rfl
@[simp] theorem setHaw_lost (h : Haw) : (b.setHaw h).lost = b.lost := rfl
@[simp] theorem setHaw_mail (h : Haw) : (b.setHaw h).mail = b.mail := rfl
@[simp] theorem setHaw_slew (h : Haw) : (b.setHaw h).slew = b.slew := rfl
@[simp] theorem setHaw_slewAcc (h : Haw) : (b.setHaw h).slewAcc = b.slewAcc := rfl
@[simp] theorem setHaw_rebuilds (h : Haw) : (b.setHaw h).rebuilds = b.rebuilds := rfl
@[simp] theorem setHaw_zeroing (h : Haw) : (b.setHaw h).zeroing = b.zeroing := rfl
@[simp] theorem setHaw_warm (h : Haw) : (b.setHaw h).warm = b.warm := rfl
@[simp] theorem setHaw_hdm (h : Haw) : (b.setHaw h).hdm = b.hdm := rfl
@[simp] theorem setHaw_quiescing (h : Haw) : (b.setHaw h).quiescing = b.quiescing := rfl
@[simp] theorem setHaw_invWaits (h : Haw) : (b.setHaw h).invWaits = b.invWaits := rfl
@[simp] theorem setHaw_ide (h : Haw) : (b.setHaw h).ide = b.ide := rfl
@[simp] theorem setHaw_out (h : Haw) : (b.setHaw h).out = b.out := rfl

@[simp] theorem setPort_now (n : Nat) (x : PortUnit) : (b.setPort n x).now = b.now := rfl
@[simp] theorem setPort_free (n : Nat) (x : PortUnit) : (b.setPort n x).free = b.free := rfl
@[simp] theorem setPort_regs (n : Nat) (x : PortUnit) : (b.setPort n x).regs = b.regs := rfl
@[simp] theorem setPort_latch (n : Nat) (x : PortUnit) : (b.setPort n x).latch = b.latch := rfl
@[simp] theorem setPort_mem (n : Nat) (x : PortUnit) : (b.setPort n x).mem = b.mem := rfl
@[simp] theorem setPort_poison (n : Nat) (x : PortUnit) : (b.setPort n x).poison = b.poison := rfl
@[simp] theorem setPort_poisonB (n : Nat) (x : PortUnit) : (b.setPort n x).poisonB = b.poisonB := rfl
@[simp] theorem setPort_hostMem (n : Nat) (x : PortUnit) : (b.setPort n x).hostMem = b.hostMem := rfl
@[simp] theorem setPort_hostBad (n : Nat) (x : PortUnit) : (b.setPort n x).hostBad = b.hostBad := rfl
@[simp] theorem setPort_rings (n : Nat) (x : PortUnit) : (b.setPort n x).rings = b.rings := rfl
@[simp] theorem setPort_sems (n : Nat) (x : PortUnit) : (b.setPort n x).sems = b.sems := rfl
@[simp] theorem setPort_chans (n : Nat) (x : PortUnit) : (b.setPort n x).chans = b.chans := rfl
@[simp] theorem setPort_flights (n : Nat) (x : PortUnit) : (b.setPort n x).flights = b.flights := rfl
@[simp] theorem setPort_parts (n : Nat) (x : PortUnit) : (b.setPort n x).parts = b.parts := rfl
@[simp] theorem setPort_grants (n : Nat) (x : PortUnit) : (b.setPort n x).grants = b.grants := rfl
@[simp] theorem setPort_drafts (n : Nat) (x : PortUnit) : (b.setPort n x).drafts = b.drafts := rfl
@[simp] theorem setPort_arrays (n : Nat) (x : PortUnit) : (b.setPort n x).arrays = b.arrays := rfl
@[simp] theorem setPort_vecs (n : Nat) (x : PortUnit) : (b.setPort n x).vecs = b.vecs := rfl
@[simp] theorem setPort_slots (n : Nat) (x : PortUnit) : (b.setPort n x).slots = b.slots := rfl
@[simp] theorem setPort_images (n : Nat) (x : PortUnit) : (b.setPort n x).images = b.images := rfl
@[simp] theorem setPort_carts (n : Nat) (x : PortUnit) : (b.setPort n x).carts = b.carts := rfl
@[simp] theorem setPort_foldRun (n : Nat) (x : PortUnit) : (b.setPort n x).foldRun = b.foldRun := rfl
@[simp] theorem setPort_events (n : Nat) (x : PortUnit) : (b.setPort n x).events = b.events := rfl
@[simp] theorem setPort_evQueues (n : Nat) (x : PortUnit) : (b.setPort n x).evQueues = b.evQueues := rfl
@[simp] theorem setPort_health (n : Nat) (x : PortUnit) : (b.setPort n x).health = b.health := rfl
@[simp] theorem setPort_mailboxes (n : Nat) (x : PortUnit) : (b.setPort n x).mailboxes = b.mailboxes := rfl
@[simp] theorem setPort_snoop (n : Nat) (x : PortUnit) : (b.setPort n x).snoop = b.snoop := rfl
@[simp] theorem setPort_power (n : Nat) (x : PortUnit) : (b.setPort n x).power = b.power := rfl
@[simp] theorem setPort_mcs (n : Nat) (x : PortUnit) : (b.setPort n x).mcs = b.mcs := rfl
@[simp] theorem setPort_memQ (n : Nat) (x : PortUnit) : (b.setPort n x).memQ = b.memQ := rfl
@[simp] theorem setPort_xlCaches (n : Nat) (x : PortUnit) : (b.setPort n x).xlCaches = b.xlCaches := rfl
@[simp] theorem setPort_cacheSel (n : Nat) (x : PortUnit) : (b.setPort n x).cacheSel = b.cacheSel := rfl
@[simp] theorem setPort_xlInvs (n : Nat) (x : PortUnit) : (b.setPort n x).xlInvs = b.xlInvs := rfl
@[simp] theorem setPort_recs (n : Nat) (x : PortUnit) : (b.setPort n x).recs = b.recs := rfl
@[simp] theorem setPort_leafRuns (n : Nat) (x : PortUnit) : (b.setPort n x).leafRuns = b.leafRuns := rfl
@[simp] theorem setPort_queues (n : Nat) (x : PortUnit) : (b.setPort n x).queues = b.queues := rfl
@[simp] theorem setPort_msgSeq (n : Nat) (x : PortUnit) : (b.setPort n x).msgSeq = b.msgSeq := rfl
@[simp] theorem setPort_shards (n : Nat) (x : PortUnit) : (b.setPort n x).shards = b.shards := rfl
@[simp] theorem setPort_flows (n : Nat) (x : PortUnit) : (b.setPort n x).flows = b.flows := rfl
@[simp] theorem setPort_sessions (n : Nat) (x : PortUnit) : (b.setPort n x).sessions = b.sessions := rfl
@[simp] theorem setPort_pdraws (n : Nat) (x : PortUnit) : (b.setPort n x).pdraws = b.pdraws := rfl
@[simp] theorem setPort_prDone (n : Nat) (x : PortUnit) : (b.setPort n x).prDone = b.prDone := rfl
@[simp] theorem setPort_lost (n : Nat) (x : PortUnit) : (b.setPort n x).lost = b.lost := rfl
@[simp] theorem setPort_mail (n : Nat) (x : PortUnit) : (b.setPort n x).mail = b.mail := rfl
@[simp] theorem setPort_haw (n : Nat) (x : PortUnit) : (b.setPort n x).haw = b.haw := rfl
@[simp] theorem setPort_slew (n : Nat) (x : PortUnit) : (b.setPort n x).slew = b.slew := rfl
@[simp] theorem setPort_slewAcc (n : Nat) (x : PortUnit) : (b.setPort n x).slewAcc = b.slewAcc := rfl
@[simp] theorem setPort_rebuilds (n : Nat) (x : PortUnit) : (b.setPort n x).rebuilds = b.rebuilds := rfl
@[simp] theorem setPort_zeroing (n : Nat) (x : PortUnit) : (b.setPort n x).zeroing = b.zeroing := rfl
@[simp] theorem setPort_warm (n : Nat) (x : PortUnit) : (b.setPort n x).warm = b.warm := rfl
@[simp] theorem setPort_hdm (n : Nat) (x : PortUnit) : (b.setPort n x).hdm = b.hdm := rfl
@[simp] theorem setPort_quiescing (n : Nat) (x : PortUnit) : (b.setPort n x).quiescing = b.quiescing := rfl
@[simp] theorem setPort_invWaits (n : Nat) (x : PortUnit) : (b.setPort n x).invWaits = b.invWaits := rfl
@[simp] theorem setPort_ide (n : Nat) (x : PortUnit) : (b.setPort n x).ide = b.ide := rfl
@[simp] theorem setPort_out (n : Nat) (x : PortUnit) : (b.setPort n x).out = b.out := rfl

@[simp] theorem setSession_now (n : Nat) (x : Keys) : (b.setSession n x).now = b.now := rfl
@[simp] theorem setSession_free (n : Nat) (x : Keys) : (b.setSession n x).free = b.free := rfl
@[simp] theorem setSession_regs (n : Nat) (x : Keys) : (b.setSession n x).regs = b.regs := rfl
@[simp] theorem setSession_latch (n : Nat) (x : Keys) : (b.setSession n x).latch = b.latch := rfl
@[simp] theorem setSession_mem (n : Nat) (x : Keys) : (b.setSession n x).mem = b.mem := rfl
@[simp] theorem setSession_poison (n : Nat) (x : Keys) : (b.setSession n x).poison = b.poison := rfl
@[simp] theorem setSession_poisonB (n : Nat) (x : Keys) : (b.setSession n x).poisonB = b.poisonB := rfl
@[simp] theorem setSession_hostMem (n : Nat) (x : Keys) : (b.setSession n x).hostMem = b.hostMem := rfl
@[simp] theorem setSession_hostBad (n : Nat) (x : Keys) : (b.setSession n x).hostBad = b.hostBad := rfl
@[simp] theorem setSession_rings (n : Nat) (x : Keys) : (b.setSession n x).rings = b.rings := rfl
@[simp] theorem setSession_sems (n : Nat) (x : Keys) : (b.setSession n x).sems = b.sems := rfl
@[simp] theorem setSession_chans (n : Nat) (x : Keys) : (b.setSession n x).chans = b.chans := rfl
@[simp] theorem setSession_flights (n : Nat) (x : Keys) : (b.setSession n x).flights = b.flights := rfl
@[simp] theorem setSession_parts (n : Nat) (x : Keys) : (b.setSession n x).parts = b.parts := rfl
@[simp] theorem setSession_grants (n : Nat) (x : Keys) : (b.setSession n x).grants = b.grants := rfl
@[simp] theorem setSession_drafts (n : Nat) (x : Keys) : (b.setSession n x).drafts = b.drafts := rfl
@[simp] theorem setSession_arrays (n : Nat) (x : Keys) : (b.setSession n x).arrays = b.arrays := rfl
@[simp] theorem setSession_vecs (n : Nat) (x : Keys) : (b.setSession n x).vecs = b.vecs := rfl
@[simp] theorem setSession_slots (n : Nat) (x : Keys) : (b.setSession n x).slots = b.slots := rfl
@[simp] theorem setSession_images (n : Nat) (x : Keys) : (b.setSession n x).images = b.images := rfl
@[simp] theorem setSession_carts (n : Nat) (x : Keys) : (b.setSession n x).carts = b.carts := rfl
@[simp] theorem setSession_foldRun (n : Nat) (x : Keys) : (b.setSession n x).foldRun = b.foldRun := rfl
@[simp] theorem setSession_events (n : Nat) (x : Keys) : (b.setSession n x).events = b.events := rfl
@[simp] theorem setSession_evQueues (n : Nat) (x : Keys) : (b.setSession n x).evQueues = b.evQueues := rfl
@[simp] theorem setSession_health (n : Nat) (x : Keys) : (b.setSession n x).health = b.health := rfl
@[simp] theorem setSession_mailboxes (n : Nat) (x : Keys) : (b.setSession n x).mailboxes = b.mailboxes := rfl
@[simp] theorem setSession_snoop (n : Nat) (x : Keys) : (b.setSession n x).snoop = b.snoop := rfl
@[simp] theorem setSession_power (n : Nat) (x : Keys) : (b.setSession n x).power = b.power := rfl
@[simp] theorem setSession_mcs (n : Nat) (x : Keys) : (b.setSession n x).mcs = b.mcs := rfl
@[simp] theorem setSession_memQ (n : Nat) (x : Keys) : (b.setSession n x).memQ = b.memQ := rfl
@[simp] theorem setSession_xlCaches (n : Nat) (x : Keys) : (b.setSession n x).xlCaches = b.xlCaches := rfl
@[simp] theorem setSession_cacheSel (n : Nat) (x : Keys) : (b.setSession n x).cacheSel = b.cacheSel := rfl
@[simp] theorem setSession_xlInvs (n : Nat) (x : Keys) : (b.setSession n x).xlInvs = b.xlInvs := rfl
@[simp] theorem setSession_recs (n : Nat) (x : Keys) : (b.setSession n x).recs = b.recs := rfl
@[simp] theorem setSession_ports (n : Nat) (x : Keys) : (b.setSession n x).ports = b.ports := rfl
@[simp] theorem setSession_leafRuns (n : Nat) (x : Keys) : (b.setSession n x).leafRuns = b.leafRuns := rfl
@[simp] theorem setSession_queues (n : Nat) (x : Keys) : (b.setSession n x).queues = b.queues := rfl
@[simp] theorem setSession_msgSeq (n : Nat) (x : Keys) : (b.setSession n x).msgSeq = b.msgSeq := rfl
@[simp] theorem setSession_shards (n : Nat) (x : Keys) : (b.setSession n x).shards = b.shards := rfl
@[simp] theorem setSession_flows (n : Nat) (x : Keys) : (b.setSession n x).flows = b.flows := rfl
@[simp] theorem setSession_pdraws (n : Nat) (x : Keys) : (b.setSession n x).pdraws = b.pdraws := rfl
@[simp] theorem setSession_prDone (n : Nat) (x : Keys) : (b.setSession n x).prDone = b.prDone := rfl
@[simp] theorem setSession_lost (n : Nat) (x : Keys) : (b.setSession n x).lost = b.lost := rfl
@[simp] theorem setSession_mail (n : Nat) (x : Keys) : (b.setSession n x).mail = b.mail := rfl
@[simp] theorem setSession_haw (n : Nat) (x : Keys) : (b.setSession n x).haw = b.haw := rfl
@[simp] theorem setSession_slew (n : Nat) (x : Keys) : (b.setSession n x).slew = b.slew := rfl
@[simp] theorem setSession_slewAcc (n : Nat) (x : Keys) : (b.setSession n x).slewAcc = b.slewAcc := rfl
@[simp] theorem setSession_rebuilds (n : Nat) (x : Keys) : (b.setSession n x).rebuilds = b.rebuilds := rfl
@[simp] theorem setSession_zeroing (n : Nat) (x : Keys) : (b.setSession n x).zeroing = b.zeroing := rfl
@[simp] theorem setSession_warm (n : Nat) (x : Keys) : (b.setSession n x).warm = b.warm := rfl
@[simp] theorem setSession_hdm (n : Nat) (x : Keys) : (b.setSession n x).hdm = b.hdm := rfl
@[simp] theorem setSession_quiescing (n : Nat) (x : Keys) : (b.setSession n x).quiescing = b.quiescing := rfl
@[simp] theorem setSession_invWaits (n : Nat) (x : Keys) : (b.setSession n x).invWaits = b.invWaits := rfl
@[simp] theorem setSession_ide (n : Nat) (x : Keys) : (b.setSession n x).ide = b.ide := rfl
@[simp] theorem setSession_out (n : Nat) (x : Keys) : (b.setSession n x).out = b.out := rfl

@[simp] theorem setShard_now (n : Nat) (x : Shard) : (b.setShard n x).now = b.now := rfl
@[simp] theorem setShard_free (n : Nat) (x : Shard) : (b.setShard n x).free = b.free := rfl
@[simp] theorem setShard_regs (n : Nat) (x : Shard) : (b.setShard n x).regs = b.regs := rfl
@[simp] theorem setShard_latch (n : Nat) (x : Shard) : (b.setShard n x).latch = b.latch := rfl
@[simp] theorem setShard_mem (n : Nat) (x : Shard) : (b.setShard n x).mem = b.mem := rfl
@[simp] theorem setShard_poison (n : Nat) (x : Shard) : (b.setShard n x).poison = b.poison := rfl
@[simp] theorem setShard_poisonB (n : Nat) (x : Shard) : (b.setShard n x).poisonB = b.poisonB := rfl
@[simp] theorem setShard_hostMem (n : Nat) (x : Shard) : (b.setShard n x).hostMem = b.hostMem := rfl
@[simp] theorem setShard_hostBad (n : Nat) (x : Shard) : (b.setShard n x).hostBad = b.hostBad := rfl
@[simp] theorem setShard_rings (n : Nat) (x : Shard) : (b.setShard n x).rings = b.rings := rfl
@[simp] theorem setShard_sems (n : Nat) (x : Shard) : (b.setShard n x).sems = b.sems := rfl
@[simp] theorem setShard_chans (n : Nat) (x : Shard) : (b.setShard n x).chans = b.chans := rfl
@[simp] theorem setShard_flights (n : Nat) (x : Shard) : (b.setShard n x).flights = b.flights := rfl
@[simp] theorem setShard_parts (n : Nat) (x : Shard) : (b.setShard n x).parts = b.parts := rfl
@[simp] theorem setShard_grants (n : Nat) (x : Shard) : (b.setShard n x).grants = b.grants := rfl
@[simp] theorem setShard_drafts (n : Nat) (x : Shard) : (b.setShard n x).drafts = b.drafts := rfl
@[simp] theorem setShard_arrays (n : Nat) (x : Shard) : (b.setShard n x).arrays = b.arrays := rfl
@[simp] theorem setShard_vecs (n : Nat) (x : Shard) : (b.setShard n x).vecs = b.vecs := rfl
@[simp] theorem setShard_slots (n : Nat) (x : Shard) : (b.setShard n x).slots = b.slots := rfl
@[simp] theorem setShard_images (n : Nat) (x : Shard) : (b.setShard n x).images = b.images := rfl
@[simp] theorem setShard_carts (n : Nat) (x : Shard) : (b.setShard n x).carts = b.carts := rfl
@[simp] theorem setShard_foldRun (n : Nat) (x : Shard) : (b.setShard n x).foldRun = b.foldRun := rfl
@[simp] theorem setShard_events (n : Nat) (x : Shard) : (b.setShard n x).events = b.events := rfl
@[simp] theorem setShard_evQueues (n : Nat) (x : Shard) : (b.setShard n x).evQueues = b.evQueues := rfl
@[simp] theorem setShard_health (n : Nat) (x : Shard) : (b.setShard n x).health = b.health := rfl
@[simp] theorem setShard_mailboxes (n : Nat) (x : Shard) : (b.setShard n x).mailboxes = b.mailboxes := rfl
@[simp] theorem setShard_snoop (n : Nat) (x : Shard) : (b.setShard n x).snoop = b.snoop := rfl
@[simp] theorem setShard_power (n : Nat) (x : Shard) : (b.setShard n x).power = b.power := rfl
@[simp] theorem setShard_mcs (n : Nat) (x : Shard) : (b.setShard n x).mcs = b.mcs := rfl
@[simp] theorem setShard_memQ (n : Nat) (x : Shard) : (b.setShard n x).memQ = b.memQ := rfl
@[simp] theorem setShard_xlCaches (n : Nat) (x : Shard) : (b.setShard n x).xlCaches = b.xlCaches := rfl
@[simp] theorem setShard_cacheSel (n : Nat) (x : Shard) : (b.setShard n x).cacheSel = b.cacheSel := rfl
@[simp] theorem setShard_xlInvs (n : Nat) (x : Shard) : (b.setShard n x).xlInvs = b.xlInvs := rfl
@[simp] theorem setShard_recs (n : Nat) (x : Shard) : (b.setShard n x).recs = b.recs := rfl
@[simp] theorem setShard_ports (n : Nat) (x : Shard) : (b.setShard n x).ports = b.ports := rfl
@[simp] theorem setShard_leafRuns (n : Nat) (x : Shard) : (b.setShard n x).leafRuns = b.leafRuns := rfl
@[simp] theorem setShard_queues (n : Nat) (x : Shard) : (b.setShard n x).queues = b.queues := rfl
@[simp] theorem setShard_msgSeq (n : Nat) (x : Shard) : (b.setShard n x).msgSeq = b.msgSeq := rfl
@[simp] theorem setShard_flows (n : Nat) (x : Shard) : (b.setShard n x).flows = b.flows := rfl
@[simp] theorem setShard_sessions (n : Nat) (x : Shard) : (b.setShard n x).sessions = b.sessions := rfl
@[simp] theorem setShard_pdraws (n : Nat) (x : Shard) : (b.setShard n x).pdraws = b.pdraws := rfl
@[simp] theorem setShard_prDone (n : Nat) (x : Shard) : (b.setShard n x).prDone = b.prDone := rfl
@[simp] theorem setShard_lost (n : Nat) (x : Shard) : (b.setShard n x).lost = b.lost := rfl
@[simp] theorem setShard_mail (n : Nat) (x : Shard) : (b.setShard n x).mail = b.mail := rfl
@[simp] theorem setShard_haw (n : Nat) (x : Shard) : (b.setShard n x).haw = b.haw := rfl
@[simp] theorem setShard_slew (n : Nat) (x : Shard) : (b.setShard n x).slew = b.slew := rfl
@[simp] theorem setShard_slewAcc (n : Nat) (x : Shard) : (b.setShard n x).slewAcc = b.slewAcc := rfl
@[simp] theorem setShard_rebuilds (n : Nat) (x : Shard) : (b.setShard n x).rebuilds = b.rebuilds := rfl
@[simp] theorem setShard_zeroing (n : Nat) (x : Shard) : (b.setShard n x).zeroing = b.zeroing := rfl
@[simp] theorem setShard_warm (n : Nat) (x : Shard) : (b.setShard n x).warm = b.warm := rfl
@[simp] theorem setShard_hdm (n : Nat) (x : Shard) : (b.setShard n x).hdm = b.hdm := rfl
@[simp] theorem setShard_quiescing (n : Nat) (x : Shard) : (b.setShard n x).quiescing = b.quiescing := rfl
@[simp] theorem setShard_invWaits (n : Nat) (x : Shard) : (b.setShard n x).invWaits = b.invWaits := rfl
@[simp] theorem setShard_ide (n : Nat) (x : Shard) : (b.setShard n x).ide = b.ide := rfl
@[simp] theorem setShard_out (n : Nat) (x : Shard) : (b.setShard n x).out = b.out := rfl

@[simp] theorem setFlow_now (n : Nat) (x : Flow) : (b.setFlow n x).now = b.now := rfl
@[simp] theorem setFlow_free (n : Nat) (x : Flow) : (b.setFlow n x).free = b.free := rfl
@[simp] theorem setFlow_regs (n : Nat) (x : Flow) : (b.setFlow n x).regs = b.regs := rfl
@[simp] theorem setFlow_latch (n : Nat) (x : Flow) : (b.setFlow n x).latch = b.latch := rfl
@[simp] theorem setFlow_mem (n : Nat) (x : Flow) : (b.setFlow n x).mem = b.mem := rfl
@[simp] theorem setFlow_poison (n : Nat) (x : Flow) : (b.setFlow n x).poison = b.poison := rfl
@[simp] theorem setFlow_poisonB (n : Nat) (x : Flow) : (b.setFlow n x).poisonB = b.poisonB := rfl
@[simp] theorem setFlow_hostMem (n : Nat) (x : Flow) : (b.setFlow n x).hostMem = b.hostMem := rfl
@[simp] theorem setFlow_hostBad (n : Nat) (x : Flow) : (b.setFlow n x).hostBad = b.hostBad := rfl
@[simp] theorem setFlow_rings (n : Nat) (x : Flow) : (b.setFlow n x).rings = b.rings := rfl
@[simp] theorem setFlow_sems (n : Nat) (x : Flow) : (b.setFlow n x).sems = b.sems := rfl
@[simp] theorem setFlow_chans (n : Nat) (x : Flow) : (b.setFlow n x).chans = b.chans := rfl
@[simp] theorem setFlow_flights (n : Nat) (x : Flow) : (b.setFlow n x).flights = b.flights := rfl
@[simp] theorem setFlow_parts (n : Nat) (x : Flow) : (b.setFlow n x).parts = b.parts := rfl
@[simp] theorem setFlow_grants (n : Nat) (x : Flow) : (b.setFlow n x).grants = b.grants := rfl
@[simp] theorem setFlow_drafts (n : Nat) (x : Flow) : (b.setFlow n x).drafts = b.drafts := rfl
@[simp] theorem setFlow_arrays (n : Nat) (x : Flow) : (b.setFlow n x).arrays = b.arrays := rfl
@[simp] theorem setFlow_vecs (n : Nat) (x : Flow) : (b.setFlow n x).vecs = b.vecs := rfl
@[simp] theorem setFlow_slots (n : Nat) (x : Flow) : (b.setFlow n x).slots = b.slots := rfl
@[simp] theorem setFlow_images (n : Nat) (x : Flow) : (b.setFlow n x).images = b.images := rfl
@[simp] theorem setFlow_carts (n : Nat) (x : Flow) : (b.setFlow n x).carts = b.carts := rfl
@[simp] theorem setFlow_foldRun (n : Nat) (x : Flow) : (b.setFlow n x).foldRun = b.foldRun := rfl
@[simp] theorem setFlow_events (n : Nat) (x : Flow) : (b.setFlow n x).events = b.events := rfl
@[simp] theorem setFlow_evQueues (n : Nat) (x : Flow) : (b.setFlow n x).evQueues = b.evQueues := rfl
@[simp] theorem setFlow_health (n : Nat) (x : Flow) : (b.setFlow n x).health = b.health := rfl
@[simp] theorem setFlow_mailboxes (n : Nat) (x : Flow) : (b.setFlow n x).mailboxes = b.mailboxes := rfl
@[simp] theorem setFlow_snoop (n : Nat) (x : Flow) : (b.setFlow n x).snoop = b.snoop := rfl
@[simp] theorem setFlow_power (n : Nat) (x : Flow) : (b.setFlow n x).power = b.power := rfl
@[simp] theorem setFlow_mcs (n : Nat) (x : Flow) : (b.setFlow n x).mcs = b.mcs := rfl
@[simp] theorem setFlow_memQ (n : Nat) (x : Flow) : (b.setFlow n x).memQ = b.memQ := rfl
@[simp] theorem setFlow_xlCaches (n : Nat) (x : Flow) : (b.setFlow n x).xlCaches = b.xlCaches := rfl
@[simp] theorem setFlow_cacheSel (n : Nat) (x : Flow) : (b.setFlow n x).cacheSel = b.cacheSel := rfl
@[simp] theorem setFlow_xlInvs (n : Nat) (x : Flow) : (b.setFlow n x).xlInvs = b.xlInvs := rfl
@[simp] theorem setFlow_recs (n : Nat) (x : Flow) : (b.setFlow n x).recs = b.recs := rfl
@[simp] theorem setFlow_ports (n : Nat) (x : Flow) : (b.setFlow n x).ports = b.ports := rfl
@[simp] theorem setFlow_leafRuns (n : Nat) (x : Flow) : (b.setFlow n x).leafRuns = b.leafRuns := rfl
@[simp] theorem setFlow_queues (n : Nat) (x : Flow) : (b.setFlow n x).queues = b.queues := rfl
@[simp] theorem setFlow_msgSeq (n : Nat) (x : Flow) : (b.setFlow n x).msgSeq = b.msgSeq := rfl
@[simp] theorem setFlow_shards (n : Nat) (x : Flow) : (b.setFlow n x).shards = b.shards := rfl
@[simp] theorem setFlow_sessions (n : Nat) (x : Flow) : (b.setFlow n x).sessions = b.sessions := rfl
@[simp] theorem setFlow_pdraws (n : Nat) (x : Flow) : (b.setFlow n x).pdraws = b.pdraws := rfl
@[simp] theorem setFlow_prDone (n : Nat) (x : Flow) : (b.setFlow n x).prDone = b.prDone := rfl
@[simp] theorem setFlow_lost (n : Nat) (x : Flow) : (b.setFlow n x).lost = b.lost := rfl
@[simp] theorem setFlow_mail (n : Nat) (x : Flow) : (b.setFlow n x).mail = b.mail := rfl
@[simp] theorem setFlow_haw (n : Nat) (x : Flow) : (b.setFlow n x).haw = b.haw := rfl
@[simp] theorem setFlow_slew (n : Nat) (x : Flow) : (b.setFlow n x).slew = b.slew := rfl
@[simp] theorem setFlow_slewAcc (n : Nat) (x : Flow) : (b.setFlow n x).slewAcc = b.slewAcc := rfl
@[simp] theorem setFlow_rebuilds (n : Nat) (x : Flow) : (b.setFlow n x).rebuilds = b.rebuilds := rfl
@[simp] theorem setFlow_zeroing (n : Nat) (x : Flow) : (b.setFlow n x).zeroing = b.zeroing := rfl
@[simp] theorem setFlow_warm (n : Nat) (x : Flow) : (b.setFlow n x).warm = b.warm := rfl
@[simp] theorem setFlow_hdm (n : Nat) (x : Flow) : (b.setFlow n x).hdm = b.hdm := rfl
@[simp] theorem setFlow_quiescing (n : Nat) (x : Flow) : (b.setFlow n x).quiescing = b.quiescing := rfl
@[simp] theorem setFlow_invWaits (n : Nat) (x : Flow) : (b.setFlow n x).invWaits = b.invWaits := rfl
@[simp] theorem setFlow_ide (n : Nat) (x : Flow) : (b.setFlow n x).ide = b.ide := rfl
@[simp] theorem setFlow_out (n : Nat) (x : Flow) : (b.setFlow n x).out = b.out := rfl

@[simp] theorem setIde_now (n : Nat) (x : IdeStream) : (b.setIde n x).now = b.now := rfl
@[simp] theorem setIde_free (n : Nat) (x : IdeStream) : (b.setIde n x).free = b.free := rfl
@[simp] theorem setIde_regs (n : Nat) (x : IdeStream) : (b.setIde n x).regs = b.regs := rfl
@[simp] theorem setIde_latch (n : Nat) (x : IdeStream) : (b.setIde n x).latch = b.latch := rfl
@[simp] theorem setIde_mem (n : Nat) (x : IdeStream) : (b.setIde n x).mem = b.mem := rfl
@[simp] theorem setIde_poison (n : Nat) (x : IdeStream) : (b.setIde n x).poison = b.poison := rfl
@[simp] theorem setIde_poisonB (n : Nat) (x : IdeStream) : (b.setIde n x).poisonB = b.poisonB := rfl
@[simp] theorem setIde_hostMem (n : Nat) (x : IdeStream) : (b.setIde n x).hostMem = b.hostMem := rfl
@[simp] theorem setIde_hostBad (n : Nat) (x : IdeStream) : (b.setIde n x).hostBad = b.hostBad := rfl
@[simp] theorem setIde_rings (n : Nat) (x : IdeStream) : (b.setIde n x).rings = b.rings := rfl
@[simp] theorem setIde_sems (n : Nat) (x : IdeStream) : (b.setIde n x).sems = b.sems := rfl
@[simp] theorem setIde_chans (n : Nat) (x : IdeStream) : (b.setIde n x).chans = b.chans := rfl
@[simp] theorem setIde_flights (n : Nat) (x : IdeStream) : (b.setIde n x).flights = b.flights := rfl
@[simp] theorem setIde_parts (n : Nat) (x : IdeStream) : (b.setIde n x).parts = b.parts := rfl
@[simp] theorem setIde_grants (n : Nat) (x : IdeStream) : (b.setIde n x).grants = b.grants := rfl
@[simp] theorem setIde_drafts (n : Nat) (x : IdeStream) : (b.setIde n x).drafts = b.drafts := rfl
@[simp] theorem setIde_arrays (n : Nat) (x : IdeStream) : (b.setIde n x).arrays = b.arrays := rfl
@[simp] theorem setIde_vecs (n : Nat) (x : IdeStream) : (b.setIde n x).vecs = b.vecs := rfl
@[simp] theorem setIde_slots (n : Nat) (x : IdeStream) : (b.setIde n x).slots = b.slots := rfl
@[simp] theorem setIde_images (n : Nat) (x : IdeStream) : (b.setIde n x).images = b.images := rfl
@[simp] theorem setIde_carts (n : Nat) (x : IdeStream) : (b.setIde n x).carts = b.carts := rfl
@[simp] theorem setIde_foldRun (n : Nat) (x : IdeStream) : (b.setIde n x).foldRun = b.foldRun := rfl
@[simp] theorem setIde_events (n : Nat) (x : IdeStream) : (b.setIde n x).events = b.events := rfl
@[simp] theorem setIde_evQueues (n : Nat) (x : IdeStream) : (b.setIde n x).evQueues = b.evQueues := rfl
@[simp] theorem setIde_health (n : Nat) (x : IdeStream) : (b.setIde n x).health = b.health := rfl
@[simp] theorem setIde_mailboxes (n : Nat) (x : IdeStream) : (b.setIde n x).mailboxes = b.mailboxes := rfl
@[simp] theorem setIde_snoop (n : Nat) (x : IdeStream) : (b.setIde n x).snoop = b.snoop := rfl
@[simp] theorem setIde_power (n : Nat) (x : IdeStream) : (b.setIde n x).power = b.power := rfl
@[simp] theorem setIde_mcs (n : Nat) (x : IdeStream) : (b.setIde n x).mcs = b.mcs := rfl
@[simp] theorem setIde_memQ (n : Nat) (x : IdeStream) : (b.setIde n x).memQ = b.memQ := rfl
@[simp] theorem setIde_xlCaches (n : Nat) (x : IdeStream) : (b.setIde n x).xlCaches = b.xlCaches := rfl
@[simp] theorem setIde_cacheSel (n : Nat) (x : IdeStream) : (b.setIde n x).cacheSel = b.cacheSel := rfl
@[simp] theorem setIde_xlInvs (n : Nat) (x : IdeStream) : (b.setIde n x).xlInvs = b.xlInvs := rfl
@[simp] theorem setIde_recs (n : Nat) (x : IdeStream) : (b.setIde n x).recs = b.recs := rfl
@[simp] theorem setIde_ports (n : Nat) (x : IdeStream) : (b.setIde n x).ports = b.ports := rfl
@[simp] theorem setIde_leafRuns (n : Nat) (x : IdeStream) : (b.setIde n x).leafRuns = b.leafRuns := rfl
@[simp] theorem setIde_queues (n : Nat) (x : IdeStream) : (b.setIde n x).queues = b.queues := rfl
@[simp] theorem setIde_msgSeq (n : Nat) (x : IdeStream) : (b.setIde n x).msgSeq = b.msgSeq := rfl
@[simp] theorem setIde_shards (n : Nat) (x : IdeStream) : (b.setIde n x).shards = b.shards := rfl
@[simp] theorem setIde_flows (n : Nat) (x : IdeStream) : (b.setIde n x).flows = b.flows := rfl
@[simp] theorem setIde_sessions (n : Nat) (x : IdeStream) : (b.setIde n x).sessions = b.sessions := rfl
@[simp] theorem setIde_pdraws (n : Nat) (x : IdeStream) : (b.setIde n x).pdraws = b.pdraws := rfl
@[simp] theorem setIde_prDone (n : Nat) (x : IdeStream) : (b.setIde n x).prDone = b.prDone := rfl
@[simp] theorem setIde_lost (n : Nat) (x : IdeStream) : (b.setIde n x).lost = b.lost := rfl
@[simp] theorem setIde_mail (n : Nat) (x : IdeStream) : (b.setIde n x).mail = b.mail := rfl
@[simp] theorem setIde_haw (n : Nat) (x : IdeStream) : (b.setIde n x).haw = b.haw := rfl
@[simp] theorem setIde_slew (n : Nat) (x : IdeStream) : (b.setIde n x).slew = b.slew := rfl
@[simp] theorem setIde_slewAcc (n : Nat) (x : IdeStream) : (b.setIde n x).slewAcc = b.slewAcc := rfl
@[simp] theorem setIde_rebuilds (n : Nat) (x : IdeStream) : (b.setIde n x).rebuilds = b.rebuilds := rfl
@[simp] theorem setIde_zeroing (n : Nat) (x : IdeStream) : (b.setIde n x).zeroing = b.zeroing := rfl
@[simp] theorem setIde_warm (n : Nat) (x : IdeStream) : (b.setIde n x).warm = b.warm := rfl
@[simp] theorem setIde_hdm (n : Nat) (x : IdeStream) : (b.setIde n x).hdm = b.hdm := rfl
@[simp] theorem setIde_quiescing (n : Nat) (x : IdeStream) : (b.setIde n x).quiescing = b.quiescing := rfl
@[simp] theorem setIde_invWaits (n : Nat) (x : IdeStream) : (b.setIde n x).invWaits = b.invWaits := rfl
@[simp] theorem setIde_out (n : Nat) (x : IdeStream) : (b.setIde n x).out = b.out := rfl

end Sys2Proof.Machine
end

