-- ==== Sys2Proof/Laws/Store.lean ====
section
/-!
SUPPORT. Laws of sparse storage: a read after a write, and the canonical form that every operation keeps.
-/

namespace Sys2Proof.Machine

variable {α : Type}

theorem storeGet_erase_same (d : Nat → α) (m : Store α) (i : Nat) : storeGet d (storeErase i m) i = d i := by
  induction m with
  | nil => rfl
  | cons q r ih =>
    obtain ⟨k, v⟩ := q
    by_cases h : k = i
    · simpa [storeErase, h] using ih
    · simpa [storeErase, storeGet, h] using ih

theorem storeGet_erase_ne (d : Nat → α) (m : Store α) {i j : Nat} (h : i ≠ j) :
    storeGet d (storeErase i m) j = storeGet d m j := by
  induction m with
  | nil => rfl
  | cons q r ih =>
    obtain ⟨k, v⟩ := q
    by_cases hk : k = i
    · subst hk
      simpa [storeErase, storeGet, h] using ih
    · simp only [storeErase, hk, if_false]
      by_cases hj : k = j
      · simp [storeGet, hj]
      · simpa [storeGet, hj] using ih

theorem storeGet_insert_ne (d : Nat → α) (m : Store α) {i j : Nat} (v : α) (h : i ≠ j) :
    storeGet d (storeInsert i v m) j = storeGet d m j := by
  induction m with
  | nil => simp [storeInsert, storeGet, h]
  | cons q r ih =>
    obtain ⟨k, w⟩ := q
    by_cases hi : i < k
    · simp [storeInsert, storeGet, hi, h]
    · simp only [storeInsert, hi, if_false]
      by_cases hj : k = j
      · simp [storeGet, hj]
      · simpa [storeGet, hj] using ih

theorem storeGet_insert_erase (d : Nat → α) (m : Store α) (i : Nat) (v : α) :
    storeGet d (storeInsert i v (storeErase i m)) i = v := by
  induction m with
  | nil => simp [storeErase, storeInsert, storeGet]
  | cons q r ih =>
    obtain ⟨k, w⟩ := q
    by_cases hk : k = i
    · simpa [storeErase, hk] using ih
    · by_cases hi : i < k
      · simp [storeErase, storeInsert, storeGet, hk, hi]
      · simpa [storeErase, storeInsert, storeGet, hk, hi] using ih

/-- A read of the key just written gives the value written. -/
@[simp] theorem storeGet_put_same [DecidableEq α] (d : Nat → α) (m : Store α) (i : Nat) (v : α) :
    storeGet d (storePut d m i v) i = v := by
  unfold storePut
  split
  · next h => rw [storeGet_erase_same, h]
  · exact storeGet_insert_erase d m i v

/-- A write leaves every other key alone. -/
theorem storeGet_put_ne [DecidableEq α] (d : Nat → α) (m : Store α) {i j : Nat} (v : α) (h : i ≠ j) :
    storeGet d (storePut d m i v) j = storeGet d m j := by
  unfold storePut
  split
  · exact storeGet_erase_ne d m h
  · rw [storeGet_insert_ne d _ v h, storeGet_erase_ne d m h]

/-- Both at once. -/
theorem storeGet_put [DecidableEq α] (d : Nat → α) (m : Store α) (i j : Nat) (v : α) :
    storeGet d (storePut d m i v) j = if i = j then v else storeGet d m j := by
  split
  · next h => subst h; simp
  · next h => exact storeGet_put_ne d m v h

/-- A read outside the keys of a list of writes. -/
theorem storeGet_putList_ne [DecidableEq α] (d : Nat → α) (vs : List α) (m : Store α) (i j : Nat)
    (h : j < i ∨ i + vs.length ≤ j) : storeGet d (storePutList d m i vs) j = storeGet d m j := by
  induction vs generalizing m i with
  | nil => rfl
  | cons v r ih =>
    simp only [List.length_cons] at h
    rw [storePutList, ih _ _ (by omega), storeGet_put_ne d m v (by omega)]

/-- A read inside them. -/
theorem storeGet_putList [DecidableEq α] (d : Nat → α) (vs : List α) (m : Store α) (i k : Nat) (h : k < vs.length) :
    storeGet d (storePutList d m i vs) (i + k) = vs[k] := by
  induction vs generalizing m i k with
  | nil => simp at h
  | cons v r ih =>
    cases k with
    | zero => rw [storePutList, storeGet_putList_ne d r _ _ _ (by omega)]; simp
    | succ k =>
      have := ih (storePut d m i v) (i + 1) k (by simpa using h)
      rw [storePutList, show i + (k + 1) = i + 1 + k by omega, this]
      simp

/-- Element `k` of a read of consecutive keys. -/
theorem storeGetList_get? {α : Type} (d : Nat → α) (m : Store α) (i n k : Nat) :
    (storeGetList d m i n)[k]? = if k < n then some (storeGet d m (i + k)) else none := by
  induction n generalizing i k with
  | zero => simp [storeGetList]
  | succ n ih =>
    cases k with
    | zero => simp [storeGetList]
    | succ k => simp [storeGetList, ih, Nat.add_assoc, Nat.add_comm 1 k]

/-- Consecutive keys read back what was written there. -/
theorem storeGetList_putList {α : Type} [DecidableEq α] (d : Nat → α) (m : Store α) (i : Nat) (vs : List α) :
    storeGetList d (storePutList d m i vs) i vs.length = vs := by
  apply List.ext_getElem?
  intro k
  rw [storeGetList_get?]
  split
  · next h => rw [storeGet_putList d vs m i k h, List.getElem?_eq_getElem h]
  · next h => rw [List.getElem?_eq_none (by omega)]

/-- Consecutive keys apart from those written read as before. -/
theorem storeGetList_putList_apart {α : Type} [DecidableEq α] (d : Nat → α) (m : Store α) (i : Nat) (vs : List α) (j n : Nat)
    (h : j + n ≤ i ∨ i + vs.length ≤ j) : storeGetList d (storePutList d m i vs) j n = storeGetList d m j n := by
  apply List.ext_getElem?
  intro k
  rw [storeGetList_get?, storeGetList_get?]
  split
  · rw [storeGet_putList_ne _ _ _ _ _ (by omega)]
  · rfl

/-- What a cleared range reads as. -/
theorem storeGet_clear (d : Nat → α) (m : Store α) (lo hi j : Nat) :
    storeGet d (storeClear m lo hi) j = if lo ≤ j ∧ j < hi then d j else storeGet d m j := by
  induction m with
  | nil => simp [storeClear, storeGet]
  | cons q r ih =>
    obtain ⟨k, v⟩ := q
    simp only [storeClear, List.filter_cons, Bool.or_eq_true, decide_eq_true_eq] at *
    by_cases hk : k < lo ∨ hi ≤ k
    · by_cases hj : k = j
      · subst hj
        have : ¬(lo ≤ k ∧ k < hi) := by omega
        simp [hk, storeGet, this]
      · simpa [hk, storeGet, hj] using ih
    · by_cases hj : k = j
      · subst hj
        have : lo ≤ k ∧ k < hi := by omega
        simpa [hk, this] using ih
      · simpa [hk, storeGet, hj] using ih

/-! The canonical form. -/

/-- The canonical form, said of the tail with a lower bound on its keys. -/
def storeAbove [DecidableEq α] (d : Nat → α) (m : Store α) (lo : Nat) : Prop := storeWf d m = true ∧ ∀ q ∈ m, lo ≤ q.1

theorem storeWf_cons [DecidableEq α] (d : Nat → α) (k : Nat) (v : α) (r : Store α) :
    storeWf d ((k, v) :: r) = true ↔ v ≠ d k ∧ storeWf d r = true ∧ ∀ q ∈ r, k < q.1 := by
  induction r generalizing k v with
  | nil => simp [storeWf]
  | cons q r ih =>
    obtain ⟨k', v'⟩ := q
    simp only [storeWf, Bool.and_eq_true, decide_eq_true_eq, List.mem_cons, forall_eq_or_imp, and_assoc]
    constructor
    · rintro ⟨h1, h2, h3⟩
      exact ⟨h1, h3, h2, fun q hq => Nat.lt_trans h2 (((ih k' v').1 h3).2.2 q hq)⟩
    · rintro ⟨h1, h3, h2, -⟩
      exact ⟨h1, h2, h3⟩

theorem mem_storeErase (m : Store α) (i : Nat) (q : Nat × α) : q ∈ storeErase i m ↔ q ∈ m ∧ q.1 ≠ i := by
  induction m with
  | nil => simp [storeErase]
  | cons p r ih =>
    obtain ⟨k, v⟩ := p
    by_cases h : k = i
    · simp only [storeErase, h, if_true, ih, List.mem_cons]
      constructor
      · rintro ⟨a, b⟩; exact ⟨.inr a, b⟩
      · rintro ⟨a | a, b⟩
        · subst a; exact absurd rfl (h ▸ b)
        · exact ⟨a, b⟩
    · simp only [storeErase, h, if_false, List.mem_cons, ih]
      constructor
      · rintro (a | a)
        · subst a; exact ⟨.inl rfl, h⟩
        · exact ⟨.inr a.1, a.2⟩
      · rintro ⟨a | a, b⟩
        · exact .inl a
        · exact .inr ⟨a, b⟩

theorem mem_storeInsert (m : Store α) (i : Nat) (v : α) (q : Nat × α) : q ∈ storeInsert i v m ↔ q = (i, v) ∨ q ∈ m := by
  induction m with
  | nil => simp [storeInsert]
  | cons p r ih =>
    obtain ⟨k, w⟩ := p
    by_cases h : i < k
    · simp [storeInsert, h]
    · simp only [storeInsert, h, if_false, List.mem_cons, ih]
      exact ⟨fun h => h.elim (fun a => .inr (.inl a)) (fun a => a.elim .inl fun c => .inr (.inr c)),
        fun h => h.elim (fun a => .inr (.inl a)) (fun a => a.elim .inl fun c => .inr (.inr c))⟩

theorem storeWf_erase [DecidableEq α] (d : Nat → α) (m : Store α) (i : Nat) (h : storeWf d m = true) :
    storeWf d (storeErase i m) = true := by
  induction m with
  | nil => rfl
  | cons q r ih =>
    obtain ⟨k, v⟩ := q
    obtain ⟨h1, h2, h3⟩ := (storeWf_cons d k v r).1 h
    by_cases hk : k = i
    · simpa [storeErase, hk] using ih h2
    · simp only [storeErase, hk, if_false]
      exact (storeWf_cons d k v _).2 ⟨h1, ih h2, fun q hq => h3 q ((mem_storeErase r i q).1 hq).1⟩

theorem storeWf_insert [DecidableEq α] (d : Nat → α) (m : Store α) (i : Nat) (v : α) (h : storeWf d m = true)
    (hv : v ≠ d i) (hi : ∀ q ∈ m, q.1 ≠ i) : storeWf d (storeInsert i v m) = true := by
  induction m with
  | nil => simp [storeInsert, storeWf, hv]
  | cons q r ih =>
    obtain ⟨k, w⟩ := q
    obtain ⟨h1, h2, h3⟩ := (storeWf_cons d k w r).1 h
    by_cases hk : i < k
    · simp only [storeInsert, hk, if_true]
      refine (storeWf_cons d i v _).2 ⟨hv, h, fun q hq => ?_⟩
      rcases List.mem_cons.1 hq with rfl | hq
      · exact hk
      · exact Nat.lt_trans hk (h3 q hq)
    · have hne : k ≠ i := hi (k, w) (by simp)
      simp only [storeInsert, hk, if_false]
      refine (storeWf_cons d k w _).2 ⟨h1, ih h2 (fun q hq => hi q (by simp [hq])), fun q hq => ?_⟩
      rcases (mem_storeInsert r i v q).1 hq with rfl | hq
      · simp only; omega
      · exact h3 q hq

/-- A write keeps the canonical form. -/
theorem storeWf_put [DecidableEq α] (d : Nat → α) (m : Store α) (i : Nat) (v : α) (h : storeWf d m = true) :
    storeWf d (storePut d m i v) = true := by
  unfold storePut
  split
  · exact storeWf_erase d m i h
  · next hv => exact storeWf_insert d _ i v (storeWf_erase d m i h) hv (fun q hq => ((mem_storeErase m i q).1 hq).2)

theorem storeWf_putList [DecidableEq α] (d : Nat → α) (vs : List α) (m : Store α) (i : Nat) (h : storeWf d m = true) :
    storeWf d (storePutList d m i vs) = true := by
  induction vs generalizing m i with
  | nil => exact h
  | cons v r ih => exact ih _ _ (storeWf_put d m i v h)

theorem storeWf_filter [DecidableEq α] (d : Nat → α) (m : Store α) (f : Nat × α → Bool) (h : storeWf d m = true) :
    storeWf d (m.filter f) = true := by
  induction m with
  | nil => rfl
  | cons q r ih =>
    obtain ⟨k, v⟩ := q
    obtain ⟨h1, h2, h3⟩ := (storeWf_cons d k v r).1 h
    simp only [List.filter_cons]
    split
    · exact (storeWf_cons d k v _).2 ⟨h1, ih h2, fun q hq => h3 q (List.mem_filter.1 hq).1⟩
    · exact ih h2

theorem storeWf_clear [DecidableEq α] (d : Nat → α) (m : Store α) (lo hi : Nat) (h : storeWf d m = true) :
    storeWf d (storeClear m lo hi) = true := storeWf_filter d m _ h

theorem storeWf_copy [DecidableEq α] (d : Nat → α) (m : Store α) (src n dst : Nat) (h : storeWf d m = true) :
    storeWf d (storeCopy d m src n dst) = true := by
  unfold storeCopy
  generalize m.filter _ = es
  have hc := storeWf_clear d m dst (dst + n) h
  generalize storeClear m dst (dst + n) = m' at hc
  induction es generalizing m' with
  | nil => exact hc
  | cons e r ih => exact ih _ (storeWf_put d m' _ _ hc)

/-! Every operation on memory keeps the canonical form. -/

theorem reset_mem_wf : Memory.wf Block.reset.mem = true := rfl

theorem each_keeps {β : Type} (P : Block → Prop) (xs : List β) (f : Block → β → Block) (h : ∀ b x, P b → P (f b x)) (b : Block) (hb : P b) :
    P (b.each xs f) := by
  induction xs generalizing b with
  | nil => exact hb
  | cons x r ih => exact ih _ (h b x hb)

theorem mem_mark (b : Block) (l : Nat) (m : Bool) : (b.mark l m).mem = b.mem := rfl

@[simp] theorem markWrite_mem (b : Block) (a : Nat) (ms : List Bool) (l : Nat) : (b.markWrite a ms l).mem = b.mem := by
  simp only [Block.markWrite]
  split
  · rfl
  · split <;> rfl

theorem putM_mem (b : Block) (a : Nat) (bs : List (Byte × Bool)) :
    (b.putM a bs).mem = storePutList memDefault b.mem a (bs.map Prod.fst) := by
  unfold Block.putM
  exact each_keeps (fun b' => b'.mem = storePutList memDefault b.mem a (bs.map Prod.fst)) _ _ (fun b x h => by simpa using h) _ rfl

theorem putM_wf (b : Block) (a : Nat) (bs : List (Byte × Bool)) (h : Memory.wf b.mem = true) : Memory.wf (b.putM a bs).mem = true := by
  rw [putM_mem]; exact storeWf_putList _ _ _ _ h

theorem put_wf (b : Block) (a : Nat) (bs : List Byte) (m : Bool) (h : Memory.wf b.mem = true) : Memory.wf (b.put a bs m).mem = true :=
  putM_wf b a _ h

theorem copy_wf (b : Block) (src n dst : Nat) (h : Memory.wf b.mem = true) : Memory.wf (b.copy src n dst).mem = true :=
  storeWf_copy _ _ _ _ _ h

theorem zero_wf (b : Block) (lo hi : Nat) (h : Memory.wf b.mem = true) : Memory.wf (b.zero lo hi).mem = true :=
  storeWf_clear _ _ _ _ h

/-- A byte after a write. -/
theorem put_byte (b : Block) (a : Nat) (bs : List Byte) (m : Bool) (x : Nat) :
    (b.put a bs m).byte x = if h : a ≤ x ∧ x < a + bs.length then bs[x - a]'(by omega) else b.byte x := by
  unfold Block.byte Block.put
  rw [putM_mem]
  have hm : (bs.map fun v => (v, m)).map Prod.fst = bs := by
    rw [List.map_map]; exact List.map_id bs
  rw [hm]
  split
  · next h =>
    have := storeGet_putList memDefault bs b.mem a (x - a) (by omega)
    rwa [show a + (x - a) = x by omega] at this
  · next h => exact storeGet_putList_ne _ _ _ _ _ (by omega)

/-- A range reads back what was written there. -/
theorem put_bytes (b : Block) (a : Nat) (bs : List Byte) (m : Bool) : (b.put a bs m).bytes a bs.length = bs := by
  unfold Block.bytes Block.put
  rw [putM_mem, List.map_map, show Prod.fst ∘ (fun v : Byte => (v, m)) = id from rfl, List.map_id]
  exact storeGetList_putList ..

/-- A range apart from the one written reads as before. -/
theorem put_bytes_apart (b : Block) (a : Nat) (bs : List Byte) (m : Bool) (x n : Nat) (h : x + n ≤ a ∨ a + bs.length ≤ x) :
    (b.put a bs m).bytes x n = b.bytes x n := by
  unfold Block.bytes Block.put
  rw [putM_mem, List.map_map, show Prod.fst ∘ (fun v : Byte => (v, m)) = id from rfl, List.map_id]
  exact storeGetList_putList_apart _ _ _ _ _ _ h

end Sys2Proof.Machine
end

