-- ==== Sys2Proof/Laws/Regs.lean ====
section
/-!
SUPPORT. Laws of registers and their fields: what a read gives after a write of the same and of another register or field; of 64-bit
registers; of the replies of a mailbox.
-/

namespace Sys2Proof.Machine

open Sys2Proof

/-! Bit fields. -/

/-- A number is its bits above a field, the field, and its bits below. -/
theorem split_field (v lo len : Nat) :
    v = v / 2 ^ (lo + len) * 2 ^ (lo + len) + fieldOf v lo len * 2 ^ lo + v % 2 ^ lo := by
  have h1 := Nat.div_add_mod v (2 ^ lo)
  have h2 := Nat.div_add_mod (v / 2 ^ lo) (2 ^ len)
  have h3 : v / 2 ^ lo / 2 ^ len = v / 2 ^ (lo + len) := by rw [Nat.div_div_eq_div_mul, ← Nat.pow_add]
  have h4 : v / 2 ^ (lo + len) * 2 ^ (lo + len) = 2 ^ lo * (2 ^ len * (v / 2 ^ (lo + len))) := by
    rw [Nat.pow_add]; ac_rfl
  unfold fieldOf
  rw [h3] at h2
  rw [h4, ← Nat.mul_comm (2 ^ lo), ← Nat.mul_add, h2, h1]

/-- What a replaced field leaves: the bits above and below. -/
theorem putField_eq (v lo len x : Nat) :
    putField v lo len x = v / 2 ^ (lo + len) * 2 ^ (lo + len) + x % 2 ^ len * 2 ^ lo + v % 2 ^ lo := by
  have h := split_field v lo len
  unfold putField
  omega

/-- The same, as the bits below the field and the rest. -/
theorem putField_parts (v lo len x : Nat) :
    putField v lo len x = v % 2 ^ lo + 2 ^ lo * (v / 2 ^ (lo + len) * 2 ^ len + x % 2 ^ len) := by
  rw [putField_eq, Nat.mul_add, show v / 2 ^ (lo + len) * 2 ^ (lo + len) = 2 ^ lo * (v / 2 ^ (lo + len) * 2 ^ len) by
    rw [Nat.pow_add]; ac_rfl, Nat.mul_comm (2 ^ lo) (x % 2 ^ len)]
  omega

theorem putField_low (v lo len x : Nat) : putField v lo len x % 2 ^ lo = v % 2 ^ lo := by
  rw [putField_parts, Nat.add_mul_mod_self_left, Nat.mod_mod]

theorem putField_shift (v lo len x : Nat) :
    putField v lo len x / 2 ^ lo = v / 2 ^ (lo + len) * 2 ^ len + x % 2 ^ len := by
  have hp : 0 < 2 ^ lo := Nat.two_pow_pos lo
  rw [putField_parts, Nat.add_mul_div_left _ _ hp, Nat.div_eq_of_lt (Nat.mod_lt _ hp), Nat.zero_add]

/-- The field just replaced. -/
@[simp] theorem fieldOf_putField (v lo len x : Nat) : fieldOf (putField v lo len x) lo len = x % 2 ^ len := by
  unfold fieldOf
  rw [putField_shift, Nat.mul_comm, Nat.mul_add_mod, Nat.mod_mod]

/-- A field below the one replaced. -/
theorem fieldOf_putField_below (v lo len x lo' len' : Nat) (h : lo' + len' ≤ lo) :
    fieldOf (putField v lo len x) lo' len' = fieldOf v lo' len' := by
  have key (w : Nat) : fieldOf w lo' len' = fieldOf (w % 2 ^ lo) lo' len' := by
    unfold fieldOf
    obtain ⟨d, rfl⟩ := Nat.exists_eq_add_of_le h
    rw [Nat.pow_add, Nat.pow_add, Nat.mul_assoc, Nat.mod_mul_right_div_self, Nat.mod_mul_right_mod]
  rw [key, putField_low, ← key]

/-- A field above the one replaced. -/
theorem fieldOf_putField_above (v lo len x lo' len' : Nat) (h : lo + len ≤ lo') :
    fieldOf (putField v lo len x) lo' len' = fieldOf v lo' len' := by
  have key (w : Nat) : fieldOf w lo' len' = w / 2 ^ (lo + len) / 2 ^ (lo' - (lo + len)) % 2 ^ len' := by
    unfold fieldOf
    rw [Nat.div_div_eq_div_mul, ← Nat.pow_add, Nat.add_sub_cancel' h]
  have hd : putField v lo len x / 2 ^ (lo + len) = v / 2 ^ (lo + len) := by
    rw [Nat.pow_add, ← Nat.div_div_eq_div_mul, putField_shift, ← Nat.pow_add, Nat.mul_comm, Nat.mul_add_div (Nat.two_pow_pos len),
      Nat.div_eq_of_lt (Nat.mod_lt _ (Nat.two_pow_pos len)), Nat.add_zero]
  rw [key, hd, ← key]

/-- A replaced field keeps the width of its register. -/
theorem putField_lt (v lo len x n : Nat) (hv : v < 2 ^ n) (h : lo + len ≤ n) : putField v lo len x < 2 ^ n := by
  have h1 : putField v lo len x / 2 ^ (lo + len) = v / 2 ^ (lo + len) := by
    rw [Nat.pow_add, ← Nat.div_div_eq_div_mul, putField_shift, ← Nat.pow_add, Nat.mul_comm, Nat.mul_add_div (Nat.two_pow_pos len),
      Nat.div_eq_of_lt (Nat.mod_lt _ (Nat.two_pow_pos len)), Nat.add_zero]
  have h2 : 2 ^ n = 2 ^ (n - (lo + len)) * 2 ^ (lo + len) := by rw [← Nat.pow_add]; congr 1; omega
  have h3 : v / 2 ^ (lo + len) < 2 ^ (n - (lo + len)) := Nat.div_lt_of_lt_mul (by rw [Nat.mul_comm, ← h2]; exact hv)
  rw [h2]
  exact (Nat.div_lt_iff_lt_mul (Nat.two_pow_pos _)).1 (h1 ▸ h3)

theorem bitOf_eq (v i : Nat) : bitOf v i = (fieldOf v i 1 == 1) := by simp [bitOf, fieldOf]

/-! Registers. -/

/-- Registers of pages are told apart by page and offset (R607). -/
theorem regKey_inj {p o p' o' : Nat} (h : o < 0x1000) (h' : o' < 0x1000) : regKey p o = regKey p' o' ↔ p = p' ∧ o = o' := by
  unfold regKey; omega

theorem reg_setReg (b : Block) (p o p' o' : Nat) (v : Word) :
    (b.setReg p o v).reg p' o' = if regKey p o = regKey p' o' then v else b.reg p' o' := storeGet_put _ _ _ _ _

@[simp] theorem reg_setReg_same (b : Block) (p o : Nat) (v : Word) : (b.setReg p o v).reg p o = v := by simp [reg_setReg]

theorem reg_setReg_ne (b : Block) {p o p' o' : Nat} (v : Word) (h : regKey p o ≠ regKey p' o') :
    (b.setReg p o v).reg p' o' = b.reg p' o' := by simp [reg_setReg, h]

theorem regN_lt (b : Block) (p o : Nat) : b.regN p o < 2 ^ 32 := (b.reg p o).isLt

@[simp] theorem regN_setN_same (b : Block) (p o v : Nat) : (b.setN p o v).regN p o = v % 2 ^ 32 := by
  simp [Block.regN, Block.setN]

theorem regN_setN_ne (b : Block) {p o p' o' : Nat} (v : Nat) (h : regKey p o ≠ regKey p' o') :
    (b.setN p o v).regN p' o' = b.regN p' o' := by simp [Block.regN, Block.setN, reg_setReg_ne b _ h]

/-- The field just set. -/
theorem fld_setFld_same (b : Block) (p o lo len v : Nat) (h : lo + len ≤ 32) : (b.setFld p o lo len v).fld p o lo len = v % 2 ^ len := by
  unfold Block.fld Block.setFld
  rw [regN_setN_same, Nat.mod_eq_of_lt (putField_lt _ _ _ _ _ (regN_lt b p o) h), fieldOf_putField]

/-- Another field of the same register. -/
theorem fld_setFld_other (b : Block) (p o lo len v lo' len' : Nat) (h : lo + len ≤ 32) (hd : lo' + len' ≤ lo ∨ lo + len ≤ lo') :
    (b.setFld p o lo len v).fld p o lo' len' = b.fld p o lo' len' := by
  unfold Block.fld Block.setFld
  rw [regN_setN_same, Nat.mod_eq_of_lt (putField_lt _ _ _ _ _ (regN_lt b p o) h)]
  rcases hd with hd | hd
  · exact fieldOf_putField_below _ _ _ _ _ _ hd
  · exact fieldOf_putField_above _ _ _ _ _ _ hd

/-- Another register. -/
theorem regN_setFld_ne (b : Block) {p o p' o' : Nat} (lo len v : Nat) (h : regKey p o ≠ regKey p' o') :
    (b.setFld p o lo len v).regN p' o' = b.regN p' o' := regN_setN_ne b _ h

@[simp] theorem reg64_set64_same (b : Block) (p o v : Nat) : (b.set64 p o v).reg64 p o = v % 2 ^ 64 := by
  have h1 : regKey p (o + 4) ≠ regKey p o := by unfold regKey; omega
  unfold Block.reg64 Block.set64
  rw [regN_setN_ne _ _ h1, regN_setN_same, regN_setN_same, Nat.mod_mod]
  omega

theorem regN_set64_ne (b : Block) {p o p' o' : Nat} (v : Nat) (h : regKey p o ≠ regKey p' o') (h4 : regKey p (o + 4) ≠ regKey p' o') :
    (b.set64 p o v).regN p' o' = b.regN p' o' := by
  unfold Block.set64
  rw [regN_setN_ne _ _ h4, regN_setN_ne _ _ h]

/-- A 64-bit count after an addition. -/
@[simp] theorem reg64_add64_same (b : Block) (p o n : Nat) : (b.add64 p o n).reg64 p o = (b.reg64 p o + n) % 2 ^ 64 :=
  reg64_set64_same _ _ _ _

theorem regN_add64_ne (b : Block) {p o p' o' : Nat} (n : Nat) (h : regKey p o ≠ regKey p' o') (h4 : regKey p (o + 4) ≠ regKey p' o') :
    (b.add64 p o n).regN p' o' = b.regN p' o' := regN_set64_ne b _ h h4

/-- Updates of fields other than the registers leave every register alone. -/
theorem reg_congr {b b' : Block} (h : b'.regs = b.regs) (p o : Nat) : b'.reg p o = b.reg p o := by unfold Block.reg; rw [h]
theorem regN_congr {b b' : Block} (h : b'.regs = b.regs) (p o : Nat) : b'.regN p o = b.regN p o := by unfold Block.regN; rw [reg_congr h]
theorem fld_congr {b b' : Block} (h : b'.regs = b.regs) (p o l n : Nat) : b'.fld p o l n = b.fld p o l n := by
  unfold Block.fld; rw [regN_congr h]

/-! Units. -/

@[simp] theorem mbx_setMbx_same (b : Block) (m : Nat) (x : Mailbox) : (b.setMbx m x).mbx m = x := storeGet_put_same _ _ _ _
theorem mbx_setMbx_ne (b : Block) {m n : Nat} (x : Mailbox) (h : m ≠ n) : (b.setMbx m x).mbx n = b.mbx n := storeGet_put_ne _ _ _ h
@[simp] theorem chan_setChan_same (b : Block) (c : Nat) (x : Chan) : (b.setChan c x).chan c = x := storeGet_put_same _ _ _ _
theorem chan_setChan_ne (b : Block) {c n : Nat} (x : Chan) (h : c ≠ n) : (b.setChan c x).chan n = b.chan n := storeGet_put_ne _ _ _ h
@[simp] theorem part_setPart_same (b : Block) (c : Nat) (x : Part) : (b.setPart c x).part c = x := storeGet_put_same _ _ _ _
theorem part_setPart_ne (b : Block) {c n : Nat} (x : Part) (h : c ≠ n) : (b.setPart c x).part n = b.part n := storeGet_put_ne _ _ _ h
@[simp] theorem grant_setGrant_same (b : Block) (c : Nat) (x : Grant) : (b.setGrant c x).grant c = x := storeGet_put_same _ _ _ _
@[simp] theorem arr_setArr_same (b : Block) (c : Nat) (x : ArrayUnit) : (b.setArr c x).arr c = x := storeGet_put_same _ _ _ _
theorem arr_setArr_ne (b : Block) {c n : Nat} (x : ArrayUnit) (h : c ≠ n) : (b.setArr c x).arr n = b.arr n := storeGet_put_ne _ _ _ h
@[simp] theorem vec_setVec_same (b : Block) (c : Nat) (x : VecUnit) : (b.setVec c x).vec c = x := storeGet_put_same _ _ _ _
@[simp] theorem draft_setDraft_same (b : Block) (p d : Nat) (x : Draft) : (b.setDraft p d x).draft p d = x := storeGet_put_same _ _ _ _
@[simp] theorem sem_setSem_same (b : Block) (i : Nat) (v : Word) : (b.setSem i v).sem i = v := storeGet_put_same _ _ _ _
theorem sem_setSem_ne (b : Block) {i j : Nat} (v : Word) (h : i ≠ j) : (b.setSem i v).sem j = b.sem j := storeGet_put_ne _ _ _ h
@[simp] theorem evq_setEvq_same (b : Block) (q : Nat) (x : EvQueue) : (b.setEvq q x).evq q = x := storeGet_put_same _ _ _ _
@[simp] theorem run_setRun_same (b : Block) (p : Nat) (x : LeafRun) : (b.setRun p x).run p = x := storeGet_put_same _ _ _ _
@[simp] theorem mc_setMc_same (b : Block) (t : Tier) (k : Nat) (x : McUnit) : (b.setMc t k x).mc t k = x := storeGet_put_same _ _ _ _
@[simp] theorem latched_setLatch_same (b : Block) (w : Agent) (x o : Nat) (v : Option Word) : (b.setLatch w x o v).latched w x o = v :=
  storeGet_put_same _ _ _ _

/-- A reply joins those that wait at its mailbox (R522). -/
@[simp] theorem replies_reply (b : Block) (rq : Req) (code status : Nat) (ws : List Word) :
    ((b.reply rq code status ws).mbx rq.mbx).replies = (b.mbx rq.mbx).replies ++ [⟨code, rq.seq, status, ws⟩] := by
  unfold Block.reply
  rw [mbx_setMbx_same]

theorem mbx_reply_ne (b : Block) (rq : Req) (code status : Nat) (ws : List Word) (m : Nat) (h : rq.mbx.val ≠ m) :
    (b.reply rq code status ws).mbx m = b.mbx m := mbx_setMbx_ne b _ h

@[simp] theorem reg_reply (b : Block) (rq : Req) (code status : Nat) (ws : List Word) (p o : Nat) :
    (b.reply rq code status ws).reg p o = b.reg p o := rfl

/-- The length of the bytes of a number. -/
@[simp] theorem length_toBytes (n v : Nat) : (toBytes n v).length = n := by
  induction n generalizing v with
  | zero => rfl
  | succ n ih => simp [toBytes, ih]

/-- The number of two lists of bytes. -/
theorem ofBytes_append (xs ys : List Byte) : ofBytes (xs ++ ys) = ofBytes xs + 256 ^ xs.length * ofBytes ys := by
  induction xs with
  | nil => simp [ofBytes]
  | cons x xs ih => simp only [List.cons_append, ofBytes, ih, List.length_cons, Nat.pow_succ, Nat.mul_add, Nat.mul_comm _ 256, Nat.mul_assoc, Nat.add_assoc]

/-- The bytes of a number hold it as far as they reach. -/
theorem ofBytes_toBytes (n v : Nat) : ofBytes (toBytes n v) = v % 256 ^ n := by
  induction n generalizing v with
  | zero => simp [toBytes, ofBytes, Nat.mod_one]
  | succ n ih =>
    rw [Nat.pow_succ, Nat.mul_comm (256 ^ n) 256, Nat.mod_mul, toBytes, ofBytes, ih]
    rfl

/-- A field below `hi` does not see what stands from `hi` on. -/
theorem fieldOf_low (v w hi lo len : Nat) (h : lo + len ≤ hi) : fieldOf (v + 2 ^ hi * w) lo len = fieldOf v lo len := by
  obtain ⟨k, rfl⟩ := Nat.exists_eq_add_of_le h
  unfold fieldOf
  rw [show v + 2 ^ (lo + len + k) * w = v + 2 ^ lo * (2 ^ len * (2 ^ k * w)) by
      simp only [Nat.pow_add, Nat.mul_assoc],
    Nat.add_mul_div_left _ _ (Nat.two_pow_pos lo), Nat.add_mul_mod_self_left]

/-- The field from `lo` on of a number whose part below `lo` is `v`. -/
theorem fieldOf_high (v w lo len : Nat) (h : v < 2 ^ lo) : fieldOf (v + 2 ^ lo * w) lo len = w % 2 ^ len := by
  unfold fieldOf
  rw [Nat.add_mul_div_left _ _ (Nat.two_pow_pos lo), Nat.div_eq_of_lt h, Nat.zero_add]

end Sys2Proof.Machine
end

