-- ==== Sys2Proof/Laws/Ops.lean ====
section
/-!
SUPPORT. What the shared operations leave alone: an event writes its page's BLK_EVENT, the records and, where it is FATAL, DEV and the
outside; a count writes the counters of a PERF page; a semaphore's addition writes the semaphore and INFLIGHT_HWM.
-/

namespace Sys2Proof.Machine

open Sys2Proof

variable (b : Block)

@[simp] theorem ifSo_true (f : Block → Block) : b.ifSo true f = f b := rfl
@[simp] theorem ifSo_false (f : Block → Block) : b.ifSo false f = b := rfl

/-- The block without its registers, records of events and what has gone out: what an event or a count leaves alone. -/
def Block.rest (b : Block) : Block := { b with regs := [], events := [], out := [] }

theorem rest_setReg (p o : Nat) (v : Word) : (b.setReg p o v).rest = b.rest := rfl
theorem rest_setN (p o v : Nat) : (b.setN p o v).rest = b.rest := rfl
theorem rest_setFld (p o l n v : Nat) : (b.setFld p o l n v).rest = b.rest := rfl
theorem rest_set64 (p o v : Nat) : (b.set64 p o v).rest = b.rest := rfl
theorem rest_emit (o : Out) : (b.emit o).rest = b.rest := rfl
theorem rest_ifSo (q : Bool) (f : Block → Block) (h : ∀ c : Block, (f c).rest = c.rest) : (b.ifSo q f).rest = b.rest := by
  cases q
  · rfl
  · exact h b

/-- An event touches the registers, the records and what goes out, and nothing else. -/
theorem raise_rest (page bit : Nat) (part : Option Nat) (x y : Nat) (extra : List Nat) :
    (b.raise page bit part x y extra).rest = b.rest := by
  unfold Block.raise
  dsimp only
  by_cases hs : severity page bit = 3
  · rw [if_pos hs]
    refine (rest_emit _ _).trans ((rest_setFld _ _ _ _ _ _).trans ((rest_ifSo _ _ _ fun c => rest_setN c _ _ _).trans rfl))
  · rw [if_neg hs]
    rfl

/-- So does an interrupt. -/
theorem msix_rest (fn v : Nat) : (b.msix fn v).rest = b.rest := by
  unfold Block.msix
  dsimp only
  split
  · exact rest_set64 _ _ _ _
  · split
    · exact rest_setFld _ _ _ _ _ _
    · exact rest_emit _ _

/-- So does a count. -/
theorem countEv_rest (p kind unit ev n : Nat) : (b.countEv p kind unit ev n).rest = b.rest := by
  unfold Block.countEv
  refine each_keeps (fun c => c.rest = b.rest) _ _ ?_ b rfl
  intro c k h
  dsimp only
  split
  · exact ((rest_ifSo _ _ _ fun c => raise_rest c _ _ _ _ _ _).trans (rest_set64 _ _ _ _)).trans h
  · exact h

@[simp] theorem raise_now (page bit : Nat) (part : Option Nat) (x y : Nat) (extra : List Nat) : (b.raise page bit part x y extra).now = b.now := by
  have h := congrArg Block.now (raise_rest b page bit part x y extra)
  exact h
@[simp] theorem raise_free (page bit : Nat) (part : Option Nat) (x y : Nat) (extra : List Nat) : (b.raise page bit part x y extra).free = b.free := by
  have h := congrArg Block.free (raise_rest b page bit part x y extra)
  exact h
@[simp] theorem raise_latch (page bit : Nat) (part : Option Nat) (x y : Nat) (extra : List Nat) : (b.raise page bit part x y extra).latch = b.latch := by
  have h := congrArg Block.latch (raise_rest b page bit part x y extra)
  exact h
@[simp] theorem raise_mem (page bit : Nat) (part : Option Nat) (x y : Nat) (extra : List Nat) : (b.raise page bit part x y extra).mem = b.mem := by
  have h := congrArg Block.mem (raise_rest b page bit part x y extra)
  exact h
@[simp] theorem raise_poison (page bit : Nat) (part : Option Nat) (x y : Nat) (extra : List Nat) : (b.raise page bit part x y extra).poison = b.poison := by
  have h := congrArg Block.poison (raise_rest b page bit part x y extra)
  exact h
@[simp] theorem raise_poisonB (page bit : Nat) (part : Option Nat) (x y : Nat) (extra : List Nat) : (b.raise page bit part x y extra).poisonB = b.poisonB := by
  have h := congrArg Block.poisonB (raise_rest b page bit part x y extra)
  exact h
@[simp] theorem raise_hostMem (page bit : Nat) (part : Option Nat) (x y : Nat) (extra : List Nat) : (b.raise page bit part x y extra).hostMem = b.hostMem := by
  have h := congrArg Block.hostMem (raise_rest b page bit part x y extra)
  exact h
@[simp] theorem raise_hostBad (page bit : Nat) (part : Option Nat) (x y : Nat) (extra : List Nat) : (b.raise page bit part x y extra).hostBad = b.hostBad := by
  have h := congrArg Block.hostBad (raise_rest b page bit part x y extra)
  exact h
@[simp] theorem raise_rings (page bit : Nat) (part : Option Nat) (x y : Nat) (extra : List Nat) : (b.raise page bit part x y extra).rings = b.rings := by
  have h := congrArg Block.rings (raise_rest b page bit part x y extra)
  exact h
@[simp] theorem raise_sems (page bit : Nat) (part : Option Nat) (x y : Nat) (extra : List Nat) : (b.raise page bit part x y extra).sems = b.sems := by
  have h := congrArg Block.sems (raise_rest b page bit part x y extra)
  exact h
@[simp] theorem raise_chans (page bit : Nat) (part : Option Nat) (x y : Nat) (extra : List Nat) : (b.raise page bit part x y extra).chans = b.chans := by
  have h := congrArg Block.chans (raise_rest b page bit part x y extra)
  exact h
@[simp] theorem raise_flights (page bit : Nat) (part : Option Nat) (x y : Nat) (extra : List Nat) : (b.raise page bit part x y extra).flights = b.flights := by
  have h := congrArg Block.flights (raise_rest b page bit part x y extra)
  exact h
@[simp] theorem raise_parts (page bit : Nat) (part : Option Nat) (x y : Nat) (extra : List Nat) : (b.raise page bit part x y extra).parts = b.parts := by
  have h := congrArg Block.parts (raise_rest b page bit part x y extra)
  exact h
@[simp] theorem raise_grants (page bit : Nat) (part : Option Nat) (x y : Nat) (extra : List Nat) : (b.raise page bit part x y extra).grants = b.grants := by
  have h := congrArg Block.grants (raise_rest b page bit part x y extra)
  exact h
@[simp] theorem raise_drafts (page bit : Nat) (part : Option Nat) (x y : Nat) (extra : List Nat) : (b.raise page bit part x y extra).drafts = b.drafts := by
  have h := congrArg Block.drafts (raise_rest b page bit part x y extra)
  exact h
@[simp] theorem raise_arrays (page bit : Nat) (part : Option Nat) (x y : Nat) (extra : List Nat) : (b.raise page bit part x y extra).arrays = b.arrays := by
  have h := congrArg Block.arrays (raise_rest b page bit part x y extra)
  exact h
@[simp] theorem raise_vecs (page bit : Nat) (part : Option Nat) (x y : Nat) (extra : List Nat) : (b.raise page bit part x y extra).vecs = b.vecs := by
  have h := congrArg Block.vecs (raise_rest b page bit part x y extra)
  exact h
@[simp] theorem raise_slots (page bit : Nat) (part : Option Nat) (x y : Nat) (extra : List Nat) : (b.raise page bit part x y extra).slots = b.slots := by
  have h := congrArg Block.slots (raise_rest b page bit part x y extra)
  exact h
@[simp] theorem raise_images (page bit : Nat) (part : Option Nat) (x y : Nat) (extra : List Nat) : (b.raise page bit part x y extra).images = b.images := by
  have h := congrArg Block.images (raise_rest b page bit part x y extra)
  exact h
@[simp] theorem raise_carts (page bit : Nat) (part : Option Nat) (x y : Nat) (extra : List Nat) : (b.raise page bit part x y extra).carts = b.carts := by
  have h := congrArg Block.carts (raise_rest b page bit part x y extra)
  exact h
@[simp] theorem raise_foldRun (page bit : Nat) (part : Option Nat) (x y : Nat) (extra : List Nat) : (b.raise page bit part x y extra).foldRun = b.foldRun := by
  have h := congrArg Block.foldRun (raise_rest b page bit part x y extra)
  exact h
@[simp] theorem raise_evQueues (page bit : Nat) (part : Option Nat) (x y : Nat) (extra : List Nat) : (b.raise page bit part x y extra).evQueues = b.evQueues := by
  have h := congrArg Block.evQueues (raise_rest b page bit part x y extra)
  exact h
@[simp] theorem raise_health (page bit : Nat) (part : Option Nat) (x y : Nat) (extra : List Nat) : (b.raise page bit part x y extra).health = b.health := by
  have h := congrArg Block.health (raise_rest b page bit part x y extra)
  exact h
@[simp] theorem raise_mailboxes (page bit : Nat) (part : Option Nat) (x y : Nat) (extra : List Nat) : (b.raise page bit part x y extra).mailboxes = b.mailboxes := by
  have h := congrArg Block.mailboxes (raise_rest b page bit part x y extra)
  exact h
@[simp] theorem raise_snoop (page bit : Nat) (part : Option Nat) (x y : Nat) (extra : List Nat) : (b.raise page bit part x y extra).snoop = b.snoop := by
  have h := congrArg Block.snoop (raise_rest b page bit part x y extra)
  exact h
@[simp] theorem raise_power (page bit : Nat) (part : Option Nat) (x y : Nat) (extra : List Nat) : (b.raise page bit part x y extra).power = b.power := by
  have h := congrArg Block.power (raise_rest b page bit part x y extra)
  exact h
@[simp] theorem raise_mcs (page bit : Nat) (part : Option Nat) (x y : Nat) (extra : List Nat) : (b.raise page bit part x y extra).mcs = b.mcs := by
  have h := congrArg Block.mcs (raise_rest b page bit part x y extra)
  exact h
@[simp] theorem raise_memQ (page bit : Nat) (part : Option Nat) (x y : Nat) (extra : List Nat) : (b.raise page bit part x y extra).memQ = b.memQ := by
  have h := congrArg Block.memQ (raise_rest b page bit part x y extra)
  exact h
@[simp] theorem raise_xlCaches (page bit : Nat) (part : Option Nat) (x y : Nat) (extra : List Nat) : (b.raise page bit part x y extra).xlCaches = b.xlCaches := by
  have h := congrArg Block.xlCaches (raise_rest b page bit part x y extra)
  exact h
@[simp] theorem raise_cacheSel (page bit : Nat) (part : Option Nat) (x y : Nat) (extra : List Nat) : (b.raise page bit part x y extra).cacheSel = b.cacheSel := by
  have h := congrArg Block.cacheSel (raise_rest b page bit part x y extra)
  exact h
@[simp] theorem raise_xlInvs (page bit : Nat) (part : Option Nat) (x y : Nat) (extra : List Nat) : (b.raise page bit part x y extra).xlInvs = b.xlInvs := by
  have h := congrArg Block.xlInvs (raise_rest b page bit part x y extra)
  exact h
@[simp] theorem raise_recs (page bit : Nat) (part : Option Nat) (x y : Nat) (extra : List Nat) : (b.raise page bit part x y extra).recs = b.recs := by
  have h := congrArg Block.recs (raise_rest b page bit part x y extra)
  exact h
@[simp] theorem raise_ports (page bit : Nat) (part : Option Nat) (x y : Nat) (extra : List Nat) : (b.raise page bit part x y extra).ports = b.ports := by
  have h := congrArg Block.ports (raise_rest b page bit part x y extra)
  exact h
@[simp] theorem raise_leafRuns (page bit : Nat) (part : Option Nat) (x y : Nat) (extra : List Nat) : (b.raise page bit part x y extra).leafRuns = b.leafRuns := by
  have h := congrArg Block.leafRuns (raise_rest b page bit part x y extra)
  exact h
@[simp] theorem raise_queues (page bit : Nat) (part : Option Nat) (x y : Nat) (extra : List Nat) : (b.raise page bit part x y extra).queues = b.queues := by
  have h := congrArg Block.queues (raise_rest b page bit part x y extra)
  exact h
@[simp] theorem raise_msgSeq (page bit : Nat) (part : Option Nat) (x y : Nat) (extra : List Nat) : (b.raise page bit part x y extra).msgSeq = b.msgSeq := by
  have h := congrArg Block.msgSeq (raise_rest b page bit part x y extra)
  exact h
@[simp] theorem raise_shards (page bit : Nat) (part : Option Nat) (x y : Nat) (extra : List Nat) : (b.raise page bit part x y extra).shards = b.shards := by
  have h := congrArg Block.shards (raise_rest b page bit part x y extra)
  exact h
@[simp] theorem raise_flows (page bit : Nat) (part : Option Nat) (x y : Nat) (extra : List Nat) : (b.raise page bit part x y extra).flows = b.flows := by
  have h := congrArg Block.flows (raise_rest b page bit part x y extra)
  exact h
@[simp] theorem raise_sessions (page bit : Nat) (part : Option Nat) (x y : Nat) (extra : List Nat) : (b.raise page bit part x y extra).sessions = b.sessions := by
  have h := congrArg Block.sessions (raise_rest b page bit part x y extra)
  exact h
@[simp] theorem raise_pdraws (page bit : Nat) (part : Option Nat) (x y : Nat) (extra : List Nat) : (b.raise page bit part x y extra).pdraws = b.pdraws := by
  have h := congrArg Block.pdraws (raise_rest b page bit part x y extra)
  exact h
@[simp] theorem raise_prDone (page bit : Nat) (part : Option Nat) (x y : Nat) (extra : List Nat) : (b.raise page bit part x y extra).prDone = b.prDone := by
  have h := congrArg Block.prDone (raise_rest b page bit part x y extra)
  exact h
@[simp] theorem raise_lost (page bit : Nat) (part : Option Nat) (x y : Nat) (extra : List Nat) : (b.raise page bit part x y extra).lost = b.lost := by
  have h := congrArg Block.lost (raise_rest b page bit part x y extra)
  exact h
@[simp] theorem raise_mail (page bit : Nat) (part : Option Nat) (x y : Nat) (extra : List Nat) : (b.raise page bit part x y extra).mail = b.mail := by
  have h := congrArg Block.mail (raise_rest b page bit part x y extra)
  exact h
@[simp] theorem raise_haw (page bit : Nat) (part : Option Nat) (x y : Nat) (extra : List Nat) : (b.raise page bit part x y extra).haw = b.haw := by
  have h := congrArg Block.haw (raise_rest b page bit part x y extra)
  exact h
@[simp] theorem raise_slew (page bit : Nat) (part : Option Nat) (x y : Nat) (extra : List Nat) : (b.raise page bit part x y extra).slew = b.slew := by
  have h := congrArg Block.slew (raise_rest b page bit part x y extra)
  exact h
@[simp] theorem raise_slewAcc (page bit : Nat) (part : Option Nat) (x y : Nat) (extra : List Nat) : (b.raise page bit part x y extra).slewAcc = b.slewAcc := by
  have h := congrArg Block.slewAcc (raise_rest b page bit part x y extra)
  exact h
@[simp] theorem raise_rebuilds (page bit : Nat) (part : Option Nat) (x y : Nat) (extra : List Nat) : (b.raise page bit part x y extra).rebuilds = b.rebuilds := by
  have h := congrArg Block.rebuilds (raise_rest b page bit part x y extra)
  exact h
@[simp] theorem raise_zeroing (page bit : Nat) (part : Option Nat) (x y : Nat) (extra : List Nat) : (b.raise page bit part x y extra).zeroing = b.zeroing := by
  have h := congrArg Block.zeroing (raise_rest b page bit part x y extra)
  exact h
@[simp] theorem raise_warm (page bit : Nat) (part : Option Nat) (x y : Nat) (extra : List Nat) : (b.raise page bit part x y extra).warm = b.warm := by
  have h := congrArg Block.warm (raise_rest b page bit part x y extra)
  exact h
@[simp] theorem raise_hdm (page bit : Nat) (part : Option Nat) (x y : Nat) (extra : List Nat) : (b.raise page bit part x y extra).hdm = b.hdm := by
  have h := congrArg Block.hdm (raise_rest b page bit part x y extra)
  exact h
@[simp] theorem raise_quiescing (page bit : Nat) (part : Option Nat) (x y : Nat) (extra : List Nat) : (b.raise page bit part x y extra).quiescing = b.quiescing := by
  have h := congrArg Block.quiescing (raise_rest b page bit part x y extra)
  exact h
@[simp] theorem raise_invWaits (page bit : Nat) (part : Option Nat) (x y : Nat) (extra : List Nat) : (b.raise page bit part x y extra).invWaits = b.invWaits := by
  have h := congrArg Block.invWaits (raise_rest b page bit part x y extra)
  exact h
@[simp] theorem raise_ide (page bit : Nat) (part : Option Nat) (x y : Nat) (extra : List Nat) : (b.raise page bit part x y extra).ide = b.ide := by
  have h := congrArg Block.ide (raise_rest b page bit part x y extra)
  exact h

@[simp] theorem raisePart_now (p bit x y : Nat) : (b.raisePart p bit x y).now = b.now := by
  exact raise_now b _ _ _ _ _ _
@[simp] theorem raisePart_free (p bit x y : Nat) : (b.raisePart p bit x y).free = b.free := by
  exact raise_free b _ _ _ _ _ _
@[simp] theorem raisePart_latch (p bit x y : Nat) : (b.raisePart p bit x y).latch = b.latch := by
  exact raise_latch b _ _ _ _ _ _
@[simp] theorem raisePart_mem (p bit x y : Nat) : (b.raisePart p bit x y).mem = b.mem := by
  exact raise_mem b _ _ _ _ _ _
@[simp] theorem raisePart_poison (p bit x y : Nat) : (b.raisePart p bit x y).poison = b.poison := by
  exact raise_poison b _ _ _ _ _ _
@[simp] theorem raisePart_poisonB (p bit x y : Nat) : (b.raisePart p bit x y).poisonB = b.poisonB := by
  exact raise_poisonB b _ _ _ _ _ _
@[simp] theorem raisePart_hostMem (p bit x y : Nat) : (b.raisePart p bit x y).hostMem = b.hostMem := by
  exact raise_hostMem b _ _ _ _ _ _
@[simp] theorem raisePart_hostBad (p bit x y : Nat) : (b.raisePart p bit x y).hostBad = b.hostBad := by
  exact raise_hostBad b _ _ _ _ _ _
@[simp] theorem raisePart_rings (p bit x y : Nat) : (b.raisePart p bit x y).rings = b.rings := by
  exact raise_rings b _ _ _ _ _ _
@[simp] theorem raisePart_sems (p bit x y : Nat) : (b.raisePart p bit x y).sems = b.sems := by
  exact raise_sems b _ _ _ _ _ _
@[simp] theorem raisePart_chans (p bit x y : Nat) : (b.raisePart p bit x y).chans = b.chans := by
  exact raise_chans b _ _ _ _ _ _
@[simp] theorem raisePart_flights (p bit x y : Nat) : (b.raisePart p bit x y).flights = b.flights := by
  exact raise_flights b _ _ _ _ _ _
@[simp] theorem raisePart_parts (p bit x y : Nat) : (b.raisePart p bit x y).parts = b.parts := by
  exact raise_parts b _ _ _ _ _ _
@[simp] theorem raisePart_grants (p bit x y : Nat) : (b.raisePart p bit x y).grants = b.grants := by
  exact raise_grants b _ _ _ _ _ _
@[simp] theorem raisePart_drafts (p bit x y : Nat) : (b.raisePart p bit x y).drafts = b.drafts := by
  exact raise_drafts b _ _ _ _ _ _
@[simp] theorem raisePart_arrays (p bit x y : Nat) : (b.raisePart p bit x y).arrays = b.arrays := by
  exact raise_arrays b _ _ _ _ _ _
@[simp] theorem raisePart_vecs (p bit x y : Nat) : (b.raisePart p bit x y).vecs = b.vecs := by
  exact raise_vecs b _ _ _ _ _ _
@[simp] theorem raisePart_slots (p bit x y : Nat) : (b.raisePart p bit x y).slots = b.slots := by
  exact raise_slots b _ _ _ _ _ _
@[simp] theorem raisePart_images (p bit x y : Nat) : (b.raisePart p bit x y).images = b.images := by
  exact raise_images b _ _ _ _ _ _
@[simp] theorem raisePart_carts (p bit x y : Nat) : (b.raisePart p bit x y).carts = b.carts := by
  exact raise_carts b _ _ _ _ _ _
@[simp] theorem raisePart_foldRun (p bit x y : Nat) : (b.raisePart p bit x y).foldRun = b.foldRun := by
  exact raise_foldRun b _ _ _ _ _ _
@[simp] theorem raisePart_evQueues (p bit x y : Nat) : (b.raisePart p bit x y).evQueues = b.evQueues := by
  exact raise_evQueues b _ _ _ _ _ _
@[simp] theorem raisePart_health (p bit x y : Nat) : (b.raisePart p bit x y).health = b.health := by
  exact raise_health b _ _ _ _ _ _
@[simp] theorem raisePart_mailboxes (p bit x y : Nat) : (b.raisePart p bit x y).mailboxes = b.mailboxes := by
  exact raise_mailboxes b _ _ _ _ _ _
@[simp] theorem raisePart_snoop (p bit x y : Nat) : (b.raisePart p bit x y).snoop = b.snoop := by
  exact raise_snoop b _ _ _ _ _ _
@[simp] theorem raisePart_power (p bit x y : Nat) : (b.raisePart p bit x y).power = b.power := by
  exact raise_power b _ _ _ _ _ _
@[simp] theorem raisePart_mcs (p bit x y : Nat) : (b.raisePart p bit x y).mcs = b.mcs := by
  exact raise_mcs b _ _ _ _ _ _
@[simp] theorem raisePart_memQ (p bit x y : Nat) : (b.raisePart p bit x y).memQ = b.memQ := by
  exact raise_memQ b _ _ _ _ _ _
@[simp] theorem raisePart_xlCaches (p bit x y : Nat) : (b.raisePart p bit x y).xlCaches = b.xlCaches := by
  exact raise_xlCaches b _ _ _ _ _ _
@[simp] theorem raisePart_cacheSel (p bit x y : Nat) : (b.raisePart p bit x y).cacheSel = b.cacheSel := by
  exact raise_cacheSel b _ _ _ _ _ _
@[simp] theorem raisePart_xlInvs (p bit x y : Nat) : (b.raisePart p bit x y).xlInvs = b.xlInvs := by
  exact raise_xlInvs b _ _ _ _ _ _
@[simp] theorem raisePart_recs (p bit x y : Nat) : (b.raisePart p bit x y).recs = b.recs := by
  exact raise_recs b _ _ _ _ _ _
@[simp] theorem raisePart_ports (p bit x y : Nat) : (b.raisePart p bit x y).ports = b.ports := by
  exact raise_ports b _ _ _ _ _ _
@[simp] theorem raisePart_leafRuns (p bit x y : Nat) : (b.raisePart p bit x y).leafRuns = b.leafRuns := by
  exact raise_leafRuns b _ _ _ _ _ _
@[simp] theorem raisePart_queues (p bit x y : Nat) : (b.raisePart p bit x y).queues = b.queues := by
  exact raise_queues b _ _ _ _ _ _
@[simp] theorem raisePart_msgSeq (p bit x y : Nat) : (b.raisePart p bit x y).msgSeq = b.msgSeq := by
  exact raise_msgSeq b _ _ _ _ _ _
@[simp] theorem raisePart_shards (p bit x y : Nat) : (b.raisePart p bit x y).shards = b.shards := by
  exact raise_shards b _ _ _ _ _ _
@[simp] theorem raisePart_flows (p bit x y : Nat) : (b.raisePart p bit x y).flows = b.flows := by
  exact raise_flows b _ _ _ _ _ _
@[simp] theorem raisePart_sessions (p bit x y : Nat) : (b.raisePart p bit x y).sessions = b.sessions := by
  exact raise_sessions b _ _ _ _ _ _
@[simp] theorem raisePart_pdraws (p bit x y : Nat) : (b.raisePart p bit x y).pdraws = b.pdraws := by
  exact raise_pdraws b _ _ _ _ _ _
@[simp] theorem raisePart_prDone (p bit x y : Nat) : (b.raisePart p bit x y).prDone = b.prDone := by
  exact raise_prDone b _ _ _ _ _ _
@[simp] theorem raisePart_lost (p bit x y : Nat) : (b.raisePart p bit x y).lost = b.lost := by
  exact raise_lost b _ _ _ _ _ _
@[simp] theorem raisePart_mail (p bit x y : Nat) : (b.raisePart p bit x y).mail = b.mail := by
  exact raise_mail b _ _ _ _ _ _
@[simp] theorem raisePart_haw (p bit x y : Nat) : (b.raisePart p bit x y).haw = b.haw := by
  exact raise_haw b _ _ _ _ _ _
@[simp] theorem raisePart_slew (p bit x y : Nat) : (b.raisePart p bit x y).slew = b.slew := by
  exact raise_slew b _ _ _ _ _ _
@[simp] theorem raisePart_slewAcc (p bit x y : Nat) : (b.raisePart p bit x y).slewAcc = b.slewAcc := by
  exact raise_slewAcc b _ _ _ _ _ _
@[simp] theorem raisePart_rebuilds (p bit x y : Nat) : (b.raisePart p bit x y).rebuilds = b.rebuilds := by
  exact raise_rebuilds b _ _ _ _ _ _
@[simp] theorem raisePart_zeroing (p bit x y : Nat) : (b.raisePart p bit x y).zeroing = b.zeroing := by
  exact raise_zeroing b _ _ _ _ _ _
@[simp] theorem raisePart_warm (p bit x y : Nat) : (b.raisePart p bit x y).warm = b.warm := by
  exact raise_warm b _ _ _ _ _ _
@[simp] theorem raisePart_hdm (p bit x y : Nat) : (b.raisePart p bit x y).hdm = b.hdm := by
  exact raise_hdm b _ _ _ _ _ _
@[simp] theorem raisePart_quiescing (p bit x y : Nat) : (b.raisePart p bit x y).quiescing = b.quiescing := by
  exact raise_quiescing b _ _ _ _ _ _
@[simp] theorem raisePart_invWaits (p bit x y : Nat) : (b.raisePart p bit x y).invWaits = b.invWaits := by
  exact raise_invWaits b _ _ _ _ _ _
@[simp] theorem raisePart_ide (p bit x y : Nat) : (b.raisePart p bit x y).ide = b.ide := by
  exact raise_ide b _ _ _ _ _ _

@[simp] theorem countEv_now (p kind unit ev n : Nat) : (b.countEv p kind unit ev n).now = b.now := by
  have h := congrArg Block.now (countEv_rest b p kind unit ev n)
  exact h
@[simp] theorem countEv_free (p kind unit ev n : Nat) : (b.countEv p kind unit ev n).free = b.free := by
  have h := congrArg Block.free (countEv_rest b p kind unit ev n)
  exact h
@[simp] theorem countEv_latch (p kind unit ev n : Nat) : (b.countEv p kind unit ev n).latch = b.latch := by
  have h := congrArg Block.latch (countEv_rest b p kind unit ev n)
  exact h
@[simp] theorem countEv_mem (p kind unit ev n : Nat) : (b.countEv p kind unit ev n).mem = b.mem := by
  have h := congrArg Block.mem (countEv_rest b p kind unit ev n)
  exact h
@[simp] theorem countEv_poison (p kind unit ev n : Nat) : (b.countEv p kind unit ev n).poison = b.poison := by
  have h := congrArg Block.poison (countEv_rest b p kind unit ev n)
  exact h
@[simp] theorem countEv_poisonB (p kind unit ev n : Nat) : (b.countEv p kind unit ev n).poisonB = b.poisonB := by
  have h := congrArg Block.poisonB (countEv_rest b p kind unit ev n)
  exact h
@[simp] theorem countEv_hostMem (p kind unit ev n : Nat) : (b.countEv p kind unit ev n).hostMem = b.hostMem := by
  have h := congrArg Block.hostMem (countEv_rest b p kind unit ev n)
  exact h
@[simp] theorem countEv_hostBad (p kind unit ev n : Nat) : (b.countEv p kind unit ev n).hostBad = b.hostBad := by
  have h := congrArg Block.hostBad (countEv_rest b p kind unit ev n)
  exact h
@[simp] theorem countEv_rings (p kind unit ev n : Nat) : (b.countEv p kind unit ev n).rings = b.rings := by
  have h := congrArg Block.rings (countEv_rest b p kind unit ev n)
  exact h
@[simp] theorem countEv_sems (p kind unit ev n : Nat) : (b.countEv p kind unit ev n).sems = b.sems := by
  have h := congrArg Block.sems (countEv_rest b p kind unit ev n)
  exact h
@[simp] theorem countEv_chans (p kind unit ev n : Nat) : (b.countEv p kind unit ev n).chans = b.chans := by
  have h := congrArg Block.chans (countEv_rest b p kind unit ev n)
  exact h
@[simp] theorem countEv_flights (p kind unit ev n : Nat) : (b.countEv p kind unit ev n).flights = b.flights := by
  have h := congrArg Block.flights (countEv_rest b p kind unit ev n)
  exact h
@[simp] theorem countEv_parts (p kind unit ev n : Nat) : (b.countEv p kind unit ev n).parts = b.parts := by
  have h := congrArg Block.parts (countEv_rest b p kind unit ev n)
  exact h
@[simp] theorem countEv_grants (p kind unit ev n : Nat) : (b.countEv p kind unit ev n).grants = b.grants := by
  have h := congrArg Block.grants (countEv_rest b p kind unit ev n)
  exact h
@[simp] theorem countEv_drafts (p kind unit ev n : Nat) : (b.countEv p kind unit ev n).drafts = b.drafts := by
  have h := congrArg Block.drafts (countEv_rest b p kind unit ev n)
  exact h
@[simp] theorem countEv_arrays (p kind unit ev n : Nat) : (b.countEv p kind unit ev n).arrays = b.arrays := by
  have h := congrArg Block.arrays (countEv_rest b p kind unit ev n)
  exact h
@[simp] theorem countEv_vecs (p kind unit ev n : Nat) : (b.countEv p kind unit ev n).vecs = b.vecs := by
  have h := congrArg Block.vecs (countEv_rest b p kind unit ev n)
  exact h
@[simp] theorem countEv_slots (p kind unit ev n : Nat) : (b.countEv p kind unit ev n).slots = b.slots := by
  have h := congrArg Block.slots (countEv_rest b p kind unit ev n)
  exact h
@[simp] theorem countEv_images (p kind unit ev n : Nat) : (b.countEv p kind unit ev n).images = b.images := by
  have h := congrArg Block.images (countEv_rest b p kind unit ev n)
  exact h
@[simp] theorem countEv_carts (p kind unit ev n : Nat) : (b.countEv p kind unit ev n).carts = b.carts := by
  have h := congrArg Block.carts (countEv_rest b p kind unit ev n)
  exact h
@[simp] theorem countEv_foldRun (p kind unit ev n : Nat) : (b.countEv p kind unit ev n).foldRun = b.foldRun := by
  have h := congrArg Block.foldRun (countEv_rest b p kind unit ev n)
  exact h
@[simp] theorem countEv_evQueues (p kind unit ev n : Nat) : (b.countEv p kind unit ev n).evQueues = b.evQueues := by
  have h := congrArg Block.evQueues (countEv_rest b p kind unit ev n)
  exact h
@[simp] theorem countEv_health (p kind unit ev n : Nat) : (b.countEv p kind unit ev n).health = b.health := by
  have h := congrArg Block.health (countEv_rest b p kind unit ev n)
  exact h
@[simp] theorem countEv_mailboxes (p kind unit ev n : Nat) : (b.countEv p kind unit ev n).mailboxes = b.mailboxes := by
  have h := congrArg Block.mailboxes (countEv_rest b p kind unit ev n)
  exact h
@[simp] theorem countEv_snoop (p kind unit ev n : Nat) : (b.countEv p kind unit ev n).snoop = b.snoop := by
  have h := congrArg Block.snoop (countEv_rest b p kind unit ev n)
  exact h
@[simp] theorem countEv_power (p kind unit ev n : Nat) : (b.countEv p kind unit ev n).power = b.power := by
  have h := congrArg Block.power (countEv_rest b p kind unit ev n)
  exact h
@[simp] theorem countEv_mcs (p kind unit ev n : Nat) : (b.countEv p kind unit ev n).mcs = b.mcs := by
  have h := congrArg Block.mcs (countEv_rest b p kind unit ev n)
  exact h
@[simp] theorem countEv_memQ (p kind unit ev n : Nat) : (b.countEv p kind unit ev n).memQ = b.memQ := by
  have h := congrArg Block.memQ (countEv_rest b p kind unit ev n)
  exact h
@[simp] theorem countEv_xlCaches (p kind unit ev n : Nat) : (b.countEv p kind unit ev n).xlCaches = b.xlCaches := by
  have h := congrArg Block.xlCaches (countEv_rest b p kind unit ev n)
  exact h
@[simp] theorem countEv_cacheSel (p kind unit ev n : Nat) : (b.countEv p kind unit ev n).cacheSel = b.cacheSel := by
  have h := congrArg Block.cacheSel (countEv_rest b p kind unit ev n)
  exact h
@[simp] theorem countEv_xlInvs (p kind unit ev n : Nat) : (b.countEv p kind unit ev n).xlInvs = b.xlInvs := by
  have h := congrArg Block.xlInvs (countEv_rest b p kind unit ev n)
  exact h
@[simp] theorem countEv_recs (p kind unit ev n : Nat) : (b.countEv p kind unit ev n).recs = b.recs := by
  have h := congrArg Block.recs (countEv_rest b p kind unit ev n)
  exact h
@[simp] theorem countEv_ports (p kind unit ev n : Nat) : (b.countEv p kind unit ev n).ports = b.ports := by
  have h := congrArg Block.ports (countEv_rest b p kind unit ev n)
  exact h
@[simp] theorem countEv_leafRuns (p kind unit ev n : Nat) : (b.countEv p kind unit ev n).leafRuns = b.leafRuns := by
  have h := congrArg Block.leafRuns (countEv_rest b p kind unit ev n)
  exact h
@[simp] theorem countEv_queues (p kind unit ev n : Nat) : (b.countEv p kind unit ev n).queues = b.queues := by
  have h := congrArg Block.queues (countEv_rest b p kind unit ev n)
  exact h
@[simp] theorem countEv_msgSeq (p kind unit ev n : Nat) : (b.countEv p kind unit ev n).msgSeq = b.msgSeq := by
  have h := congrArg Block.msgSeq (countEv_rest b p kind unit ev n)
  exact h
@[simp] theorem countEv_shards (p kind unit ev n : Nat) : (b.countEv p kind unit ev n).shards = b.shards := by
  have h := congrArg Block.shards (countEv_rest b p kind unit ev n)
  exact h
@[simp] theorem countEv_flows (p kind unit ev n : Nat) : (b.countEv p kind unit ev n).flows = b.flows := by
  have h := congrArg Block.flows (countEv_rest b p kind unit ev n)
  exact h
@[simp] theorem countEv_sessions (p kind unit ev n : Nat) : (b.countEv p kind unit ev n).sessions = b.sessions := by
  have h := congrArg Block.sessions (countEv_rest b p kind unit ev n)
  exact h
@[simp] theorem countEv_pdraws (p kind unit ev n : Nat) : (b.countEv p kind unit ev n).pdraws = b.pdraws := by
  have h := congrArg Block.pdraws (countEv_rest b p kind unit ev n)
  exact h
@[simp] theorem countEv_prDone (p kind unit ev n : Nat) : (b.countEv p kind unit ev n).prDone = b.prDone := by
  have h := congrArg Block.prDone (countEv_rest b p kind unit ev n)
  exact h
@[simp] theorem countEv_lost (p kind unit ev n : Nat) : (b.countEv p kind unit ev n).lost = b.lost := by
  have h := congrArg Block.lost (countEv_rest b p kind unit ev n)
  exact h
@[simp] theorem countEv_mail (p kind unit ev n : Nat) : (b.countEv p kind unit ev n).mail = b.mail := by
  have h := congrArg Block.mail (countEv_rest b p kind unit ev n)
  exact h
@[simp] theorem countEv_haw (p kind unit ev n : Nat) : (b.countEv p kind unit ev n).haw = b.haw := by
  have h := congrArg Block.haw (countEv_rest b p kind unit ev n)
  exact h
@[simp] theorem countEv_slew (p kind unit ev n : Nat) : (b.countEv p kind unit ev n).slew = b.slew := by
  have h := congrArg Block.slew (countEv_rest b p kind unit ev n)
  exact h
@[simp] theorem countEv_slewAcc (p kind unit ev n : Nat) : (b.countEv p kind unit ev n).slewAcc = b.slewAcc := by
  have h := congrArg Block.slewAcc (countEv_rest b p kind unit ev n)
  exact h
@[simp] theorem countEv_rebuilds (p kind unit ev n : Nat) : (b.countEv p kind unit ev n).rebuilds = b.rebuilds := by
  have h := congrArg Block.rebuilds (countEv_rest b p kind unit ev n)
  exact h
@[simp] theorem countEv_zeroing (p kind unit ev n : Nat) : (b.countEv p kind unit ev n).zeroing = b.zeroing := by
  have h := congrArg Block.zeroing (countEv_rest b p kind unit ev n)
  exact h
@[simp] theorem countEv_warm (p kind unit ev n : Nat) : (b.countEv p kind unit ev n).warm = b.warm := by
  have h := congrArg Block.warm (countEv_rest b p kind unit ev n)
  exact h
@[simp] theorem countEv_hdm (p kind unit ev n : Nat) : (b.countEv p kind unit ev n).hdm = b.hdm := by
  have h := congrArg Block.hdm (countEv_rest b p kind unit ev n)
  exact h
@[simp] theorem countEv_quiescing (p kind unit ev n : Nat) : (b.countEv p kind unit ev n).quiescing = b.quiescing := by
  have h := congrArg Block.quiescing (countEv_rest b p kind unit ev n)
  exact h
@[simp] theorem countEv_invWaits (p kind unit ev n : Nat) : (b.countEv p kind unit ev n).invWaits = b.invWaits := by
  have h := congrArg Block.invWaits (countEv_rest b p kind unit ev n)
  exact h
@[simp] theorem countEv_ide (p kind unit ev n : Nat) : (b.countEv p kind unit ev n).ide = b.ide := by
  have h := congrArg Block.ide (countEv_rest b p kind unit ev n)
  exact h


/-! The memory controllers (R205 to R229): an access counts in their pages and changes their slots, rows and check granules; nothing else of
the block. -/

/-- The block without its registers and its controllers: what an access leaves alone beside memory itself. -/
def Block.outside (b : Block) : Block := { b with regs := [], mcs := [] }

theorem outside_ifSo (q : Bool) (f : Block → Block) (h : ∀ c : Block, (f c).outside = c.outside) : (b.ifSo q f).outside = b.outside := by
  cases q
  · rfl
  · exact h b

theorem outside_setMc (t : Tier) (k : Nat) (x : McUnit) : (b.setMc t k x).outside = b.outside := rfl
theorem outside_add64 (p o n : Nat) : (b.add64 p o n).outside = b.outside := rfl
theorem outside_setN (p o v : Nat) : (b.setN p o v).outside = b.outside := rfl
theorem outside_setFld (p o l n v : Nat) : (b.setFld p o l n v).outside = b.outside := rfl

theorem devTouch_outside (t : Tier) (k q n : Nat) (w : Bool) : (b.devTouch t k q n w).outside = b.outside := by
  unfold Block.devTouch
  exact (outside_add64 _ _ _ _).trans ((outside_add64 _ _ _ _).trans ((outside_add64 _ _ _ _).trans (outside_setMc _ _ _ _)))
theorem peakSlots_outside (t : Tier) (k n : Nat) : (b.peakSlots t k n).outside = b.outside := outside_setN _ _ _ _

theorem holdSlot_outside (t : Tier) (k : Nat) (part : Option Nat) (va line : Nat) (m : Bool) :
    (b.holdSlot t k part va line m).outside = b.outside := by
  unfold Block.holdSlot
  dsimp only
  split
  · rfl
  · exact (outside_setMc _ _ _ _).trans (peakSlots_outside _ _ _ _)

theorem issueSlots_outside (t : Tier) (k : Nat) : ∀ (n : Nat) (done : List (Option Nat)) (ss : List MemSlot) (b : Block),
    (b.issueSlots t k n done ss).outside = b.outside
  | 0, _, _, _ => rfl
  | n + 1, done, ss, b => by
    unfold Block.issueSlots
    split
    · rfl
    · exact (issueSlots_outside t k n _ _ _).trans (devTouch_outside _ _ _ _ _ _)

theorem slowEnds_outside (t : Tier) (k : Nat) : (b.slowEnds t k).outside = b.outside := by
  unfold Block.slowEnds
  dsimp only
  exact (outside_setMc _ _ _ _).trans
    (each_keeps (fun c => c.outside = b.outside) _ _ (fun c q h => (outside_setFld _ _ _ _ _ _).trans h) b rfl)

theorem issueBatch_outside (t : Tier) (k : Nat) (sel : MemSlot → Bool) : (b.issueBatch t k sel).outside = b.outside := by
  unfold Block.issueBatch
  dsimp only
  split
  · rfl
  · exact (slowEnds_outside _ t k).trans ((issueSlots_outside t k _ _ _ _).trans (outside_setMc _ _ _ _))

theorem writeLine_outside (t : Tier) (k : Nat) (part : Option Nat) (va line : Nat) (m : Bool) :
    (b.writeLine t k part va line m).outside = b.outside := by
  unfold Block.writeLine
  dsimp only
  exact (outside_ifSo _ _ _ fun c => issueBatch_outside c t k _).trans
    ((holdSlot_outside _ t k part va line m).trans (outside_ifSo _ _ _ fun c => issueBatch_outside c t k _))

theorem mcRead_outside (a n : Nat) : (b.mcRead a n).outside = b.outside := by
  unfold Block.mcRead
  refine each_keeps (fun c => c.outside = b.outside) _ _ ?_ b rfl
  intro c q h
  dsimp only
  split
  · exact h
  · exact each_keeps (fun d => d.outside = b.outside) _ _ (fun d g hd => (devTouch_outside d _ _ _ _ _).trans hd) _
      ((peakSlots_outside _ _ _ _).trans ((outside_add64 _ _ _ _).trans h))

theorem mcWrite_outside (part : Option Nat) (va a n : Nat) (m : Nat → Bool) : (b.mcWrite part va a n m).outside = b.outside := by
  unfold Block.mcWrite
  refine each_keeps (fun c => c.outside = b.outside) _ _ ?_ b rfl
  intro c q h
  dsimp only
  split
  · exact h
  · exact each_keeps (fun d => d.outside = b.outside) _ _ (fun d g hd => (writeLine_outside d _ _ _ _ _ _).trans hd) _
      ((outside_add64 _ _ _ _).trans h)

theorem countTier_outside (a n : Nat) (w : Bool) : (b.countTier a n w).outside = b.outside := by
  unfold Block.countTier
  split
  · exact mcWrite_outside b _ _ _ _ _
  · exact mcRead_outside b _ _

/-- What leaves the rest alone leaves each part of it alone. -/
theorem Block.same {α : Type} (f : Block → α) {b c : Block} (h : c.outside = b.outside) (hf : ∀ d : Block, f d = f d.outside) : f c = f b := by
  rw [hf c, hf b, h]

@[simp] theorem mcRead_now (a n : Nat) : (b.mcRead a n).now = b.now := Block.same Block.now (mcRead_outside b a n) fun _ => rfl
@[simp] theorem mcRead_free (a n : Nat) : (b.mcRead a n).free = b.free := Block.same Block.free (mcRead_outside b a n) fun _ => rfl
@[simp] theorem mcRead_latch (a n : Nat) : (b.mcRead a n).latch = b.latch := Block.same Block.latch (mcRead_outside b a n) fun _ => rfl
@[simp] theorem mcRead_mem (a n : Nat) : (b.mcRead a n).mem = b.mem := Block.same Block.mem (mcRead_outside b a n) fun _ => rfl
@[simp] theorem mcRead_poison (a n : Nat) : (b.mcRead a n).poison = b.poison := Block.same Block.poison (mcRead_outside b a n) fun _ => rfl
@[simp] theorem mcRead_poisonB (a n : Nat) : (b.mcRead a n).poisonB = b.poisonB := Block.same Block.poisonB (mcRead_outside b a n) fun _ => rfl
@[simp] theorem mcRead_hostMem (a n : Nat) : (b.mcRead a n).hostMem = b.hostMem := Block.same Block.hostMem (mcRead_outside b a n) fun _ => rfl
@[simp] theorem mcRead_hostBad (a n : Nat) : (b.mcRead a n).hostBad = b.hostBad := Block.same Block.hostBad (mcRead_outside b a n) fun _ => rfl
@[simp] theorem mcRead_rings (a n : Nat) : (b.mcRead a n).rings = b.rings := Block.same Block.rings (mcRead_outside b a n) fun _ => rfl
@[simp] theorem mcRead_sems (a n : Nat) : (b.mcRead a n).sems = b.sems := Block.same Block.sems (mcRead_outside b a n) fun _ => rfl
@[simp] theorem mcRead_chans (a n : Nat) : (b.mcRead a n).chans = b.chans := Block.same Block.chans (mcRead_outside b a n) fun _ => rfl
@[simp] theorem mcRead_flights (a n : Nat) : (b.mcRead a n).flights = b.flights := Block.same Block.flights (mcRead_outside b a n) fun _ => rfl
@[simp] theorem mcRead_parts (a n : Nat) : (b.mcRead a n).parts = b.parts := Block.same Block.parts (mcRead_outside b a n) fun _ => rfl
@[simp] theorem mcRead_grants (a n : Nat) : (b.mcRead a n).grants = b.grants := Block.same Block.grants (mcRead_outside b a n) fun _ => rfl
@[simp] theorem mcRead_drafts (a n : Nat) : (b.mcRead a n).drafts = b.drafts := Block.same Block.drafts (mcRead_outside b a n) fun _ => rfl
@[simp] theorem mcRead_arrays (a n : Nat) : (b.mcRead a n).arrays = b.arrays := Block.same Block.arrays (mcRead_outside b a n) fun _ => rfl
@[simp] theorem mcRead_vecs (a n : Nat) : (b.mcRead a n).vecs = b.vecs := Block.same Block.vecs (mcRead_outside b a n) fun _ => rfl
@[simp] theorem mcRead_slots (a n : Nat) : (b.mcRead a n).slots = b.slots := Block.same Block.slots (mcRead_outside b a n) fun _ => rfl
@[simp] theorem mcRead_images (a n : Nat) : (b.mcRead a n).images = b.images := Block.same Block.images (mcRead_outside b a n) fun _ => rfl
@[simp] theorem mcRead_carts (a n : Nat) : (b.mcRead a n).carts = b.carts := Block.same Block.carts (mcRead_outside b a n) fun _ => rfl
@[simp] theorem mcRead_foldRun (a n : Nat) : (b.mcRead a n).foldRun = b.foldRun := Block.same Block.foldRun (mcRead_outside b a n) fun _ => rfl
@[simp] theorem mcRead_events (a n : Nat) : (b.mcRead a n).events = b.events := Block.same Block.events (mcRead_outside b a n) fun _ => rfl
@[simp] theorem mcRead_evQueues (a n : Nat) : (b.mcRead a n).evQueues = b.evQueues := Block.same Block.evQueues (mcRead_outside b a n) fun _ => rfl
@[simp] theorem mcRead_health (a n : Nat) : (b.mcRead a n).health = b.health := Block.same Block.health (mcRead_outside b a n) fun _ => rfl
@[simp] theorem mcRead_mailboxes (a n : Nat) : (b.mcRead a n).mailboxes = b.mailboxes := Block.same Block.mailboxes (mcRead_outside b a n) fun _ => rfl
@[simp] theorem mcRead_snoop (a n : Nat) : (b.mcRead a n).snoop = b.snoop := Block.same Block.snoop (mcRead_outside b a n) fun _ => rfl
@[simp] theorem mcRead_power (a n : Nat) : (b.mcRead a n).power = b.power := Block.same Block.power (mcRead_outside b a n) fun _ => rfl
@[simp] theorem mcRead_memQ (a n : Nat) : (b.mcRead a n).memQ = b.memQ := Block.same Block.memQ (mcRead_outside b a n) fun _ => rfl
@[simp] theorem mcRead_xlCaches (a n : Nat) : (b.mcRead a n).xlCaches = b.xlCaches := Block.same Block.xlCaches (mcRead_outside b a n) fun _ => rfl
@[simp] theorem mcRead_cacheSel (a n : Nat) : (b.mcRead a n).cacheSel = b.cacheSel := Block.same Block.cacheSel (mcRead_outside b a n) fun _ => rfl
@[simp] theorem mcRead_xlInvs (a n : Nat) : (b.mcRead a n).xlInvs = b.xlInvs := Block.same Block.xlInvs (mcRead_outside b a n) fun _ => rfl
@[simp] theorem mcRead_recs (a n : Nat) : (b.mcRead a n).recs = b.recs := Block.same Block.recs (mcRead_outside b a n) fun _ => rfl
@[simp] theorem mcRead_ports (a n : Nat) : (b.mcRead a n).ports = b.ports := Block.same Block.ports (mcRead_outside b a n) fun _ => rfl
@[simp] theorem mcRead_leafRuns (a n : Nat) : (b.mcRead a n).leafRuns = b.leafRuns := Block.same Block.leafRuns (mcRead_outside b a n) fun _ => rfl
@[simp] theorem mcRead_queues (a n : Nat) : (b.mcRead a n).queues = b.queues := Block.same Block.queues (mcRead_outside b a n) fun _ => rfl
@[simp] theorem mcRead_msgSeq (a n : Nat) : (b.mcRead a n).msgSeq = b.msgSeq := Block.same Block.msgSeq (mcRead_outside b a n) fun _ => rfl
@[simp] theorem mcRead_shards (a n : Nat) : (b.mcRead a n).shards = b.shards := Block.same Block.shards (mcRead_outside b a n) fun _ => rfl
@[simp] theorem mcRead_flows (a n : Nat) : (b.mcRead a n).flows = b.flows := Block.same Block.flows (mcRead_outside b a n) fun _ => rfl
@[simp] theorem mcRead_sessions (a n : Nat) : (b.mcRead a n).sessions = b.sessions := Block.same Block.sessions (mcRead_outside b a n) fun _ => rfl
@[simp] theorem mcRead_pdraws (a n : Nat) : (b.mcRead a n).pdraws = b.pdraws := Block.same Block.pdraws (mcRead_outside b a n) fun _ => rfl
@[simp] theorem mcRead_prDone (a n : Nat) : (b.mcRead a n).prDone = b.prDone := Block.same Block.prDone (mcRead_outside b a n) fun _ => rfl
@[simp] theorem mcRead_lost (a n : Nat) : (b.mcRead a n).lost = b.lost := Block.same Block.lost (mcRead_outside b a n) fun _ => rfl
@[simp] theorem mcRead_mail (a n : Nat) : (b.mcRead a n).mail = b.mail := Block.same Block.mail (mcRead_outside b a n) fun _ => rfl
@[simp] theorem mcRead_haw (a n : Nat) : (b.mcRead a n).haw = b.haw := Block.same Block.haw (mcRead_outside b a n) fun _ => rfl
@[simp] theorem mcRead_slew (a n : Nat) : (b.mcRead a n).slew = b.slew := Block.same Block.slew (mcRead_outside b a n) fun _ => rfl
@[simp] theorem mcRead_slewAcc (a n : Nat) : (b.mcRead a n).slewAcc = b.slewAcc := Block.same Block.slewAcc (mcRead_outside b a n) fun _ => rfl
@[simp] theorem mcRead_rebuilds (a n : Nat) : (b.mcRead a n).rebuilds = b.rebuilds := Block.same Block.rebuilds (mcRead_outside b a n) fun _ => rfl
@[simp] theorem mcRead_zeroing (a n : Nat) : (b.mcRead a n).zeroing = b.zeroing := Block.same Block.zeroing (mcRead_outside b a n) fun _ => rfl
@[simp] theorem mcRead_warm (a n : Nat) : (b.mcRead a n).warm = b.warm := Block.same Block.warm (mcRead_outside b a n) fun _ => rfl
@[simp] theorem mcRead_hdm (a n : Nat) : (b.mcRead a n).hdm = b.hdm := Block.same Block.hdm (mcRead_outside b a n) fun _ => rfl
@[simp] theorem mcRead_quiescing (a n : Nat) : (b.mcRead a n).quiescing = b.quiescing := Block.same Block.quiescing (mcRead_outside b a n) fun _ => rfl
@[simp] theorem mcRead_invWaits (a n : Nat) : (b.mcRead a n).invWaits = b.invWaits := Block.same Block.invWaits (mcRead_outside b a n) fun _ => rfl
@[simp] theorem mcRead_ide (a n : Nat) : (b.mcRead a n).ide = b.ide := Block.same Block.ide (mcRead_outside b a n) fun _ => rfl
@[simp] theorem mcRead_out (a n : Nat) : (b.mcRead a n).out = b.out := Block.same Block.out (mcRead_outside b a n) fun _ => rfl
@[simp] theorem mcWrite_now (part : Option Nat) (va a n : Nat) (m : Nat → Bool) : (b.mcWrite part va a n m).now = b.now :=
  Block.same Block.now (mcWrite_outside b part va a n m) fun _ => rfl
@[simp] theorem mcWrite_free (part : Option Nat) (va a n : Nat) (m : Nat → Bool) : (b.mcWrite part va a n m).free = b.free :=
  Block.same Block.free (mcWrite_outside b part va a n m) fun _ => rfl
@[simp] theorem mcWrite_latch (part : Option Nat) (va a n : Nat) (m : Nat → Bool) : (b.mcWrite part va a n m).latch = b.latch :=
  Block.same Block.latch (mcWrite_outside b part va a n m) fun _ => rfl
@[simp] theorem mcWrite_mem (part : Option Nat) (va a n : Nat) (m : Nat → Bool) : (b.mcWrite part va a n m).mem = b.mem :=
  Block.same Block.mem (mcWrite_outside b part va a n m) fun _ => rfl
@[simp] theorem mcWrite_poison (part : Option Nat) (va a n : Nat) (m : Nat → Bool) : (b.mcWrite part va a n m).poison = b.poison :=
  Block.same Block.poison (mcWrite_outside b part va a n m) fun _ => rfl
@[simp] theorem mcWrite_poisonB (part : Option Nat) (va a n : Nat) (m : Nat → Bool) : (b.mcWrite part va a n m).poisonB = b.poisonB :=
  Block.same Block.poisonB (mcWrite_outside b part va a n m) fun _ => rfl
@[simp] theorem mcWrite_hostMem (part : Option Nat) (va a n : Nat) (m : Nat → Bool) : (b.mcWrite part va a n m).hostMem = b.hostMem :=
  Block.same Block.hostMem (mcWrite_outside b part va a n m) fun _ => rfl
@[simp] theorem mcWrite_hostBad (part : Option Nat) (va a n : Nat) (m : Nat → Bool) : (b.mcWrite part va a n m).hostBad = b.hostBad :=
  Block.same Block.hostBad (mcWrite_outside b part va a n m) fun _ => rfl
@[simp] theorem mcWrite_rings (part : Option Nat) (va a n : Nat) (m : Nat → Bool) : (b.mcWrite part va a n m).rings = b.rings :=
  Block.same Block.rings (mcWrite_outside b part va a n m) fun _ => rfl
@[simp] theorem mcWrite_sems (part : Option Nat) (va a n : Nat) (m : Nat → Bool) : (b.mcWrite part va a n m).sems = b.sems :=
  Block.same Block.sems (mcWrite_outside b part va a n m) fun _ => rfl
@[simp] theorem mcWrite_chans (part : Option Nat) (va a n : Nat) (m : Nat → Bool) : (b.mcWrite part va a n m).chans = b.chans :=
  Block.same Block.chans (mcWrite_outside b part va a n m) fun _ => rfl
@[simp] theorem mcWrite_flights (part : Option Nat) (va a n : Nat) (m : Nat → Bool) : (b.mcWrite part va a n m).flights = b.flights :=
  Block.same Block.flights (mcWrite_outside b part va a n m) fun _ => rfl
@[simp] theorem mcWrite_parts (part : Option Nat) (va a n : Nat) (m : Nat → Bool) : (b.mcWrite part va a n m).parts = b.parts :=
  Block.same Block.parts (mcWrite_outside b part va a n m) fun _ => rfl
@[simp] theorem mcWrite_grants (part : Option Nat) (va a n : Nat) (m : Nat → Bool) : (b.mcWrite part va a n m).grants = b.grants :=
  Block.same Block.grants (mcWrite_outside b part va a n m) fun _ => rfl
@[simp] theorem mcWrite_drafts (part : Option Nat) (va a n : Nat) (m : Nat → Bool) : (b.mcWrite part va a n m).drafts = b.drafts :=
  Block.same Block.drafts (mcWrite_outside b part va a n m) fun _ => rfl
@[simp] theorem mcWrite_arrays (part : Option Nat) (va a n : Nat) (m : Nat → Bool) : (b.mcWrite part va a n m).arrays = b.arrays :=
  Block.same Block.arrays (mcWrite_outside b part va a n m) fun _ => rfl
@[simp] theorem mcWrite_vecs (part : Option Nat) (va a n : Nat) (m : Nat → Bool) : (b.mcWrite part va a n m).vecs = b.vecs :=
  Block.same Block.vecs (mcWrite_outside b part va a n m) fun _ => rfl
@[simp] theorem mcWrite_slots (part : Option Nat) (va a n : Nat) (m : Nat → Bool) : (b.mcWrite part va a n m).slots = b.slots :=
  Block.same Block.slots (mcWrite_outside b part va a n m) fun _ => rfl
@[simp] theorem mcWrite_images (part : Option Nat) (va a n : Nat) (m : Nat → Bool) : (b.mcWrite part va a n m).images = b.images :=
  Block.same Block.images (mcWrite_outside b part va a n m) fun _ => rfl
@[simp] theorem mcWrite_carts (part : Option Nat) (va a n : Nat) (m : Nat → Bool) : (b.mcWrite part va a n m).carts = b.carts :=
  Block.same Block.carts (mcWrite_outside b part va a n m) fun _ => rfl
@[simp] theorem mcWrite_foldRun (part : Option Nat) (va a n : Nat) (m : Nat → Bool) : (b.mcWrite part va a n m).foldRun = b.foldRun :=
  Block.same Block.foldRun (mcWrite_outside b part va a n m) fun _ => rfl
@[simp] theorem mcWrite_events (part : Option Nat) (va a n : Nat) (m : Nat → Bool) : (b.mcWrite part va a n m).events = b.events :=
  Block.same Block.events (mcWrite_outside b part va a n m) fun _ => rfl
@[simp] theorem mcWrite_evQueues (part : Option Nat) (va a n : Nat) (m : Nat → Bool) : (b.mcWrite part va a n m).evQueues = b.evQueues :=
  Block.same Block.evQueues (mcWrite_outside b part va a n m) fun _ => rfl
@[simp] theorem mcWrite_health (part : Option Nat) (va a n : Nat) (m : Nat → Bool) : (b.mcWrite part va a n m).health = b.health :=
  Block.same Block.health (mcWrite_outside b part va a n m) fun _ => rfl
@[simp] theorem mcWrite_mailboxes (part : Option Nat) (va a n : Nat) (m : Nat → Bool) : (b.mcWrite part va a n m).mailboxes = b.mailboxes :=
  Block.same Block.mailboxes (mcWrite_outside b part va a n m) fun _ => rfl
@[simp] theorem mcWrite_snoop (part : Option Nat) (va a n : Nat) (m : Nat → Bool) : (b.mcWrite part va a n m).snoop = b.snoop :=
  Block.same Block.snoop (mcWrite_outside b part va a n m) fun _ => rfl
@[simp] theorem mcWrite_power (part : Option Nat) (va a n : Nat) (m : Nat → Bool) : (b.mcWrite part va a n m).power = b.power :=
  Block.same Block.power (mcWrite_outside b part va a n m) fun _ => rfl
@[simp] theorem mcWrite_memQ (part : Option Nat) (va a n : Nat) (m : Nat → Bool) : (b.mcWrite part va a n m).memQ = b.memQ :=
  Block.same Block.memQ (mcWrite_outside b part va a n m) fun _ => rfl
@[simp] theorem mcWrite_xlCaches (part : Option Nat) (va a n : Nat) (m : Nat → Bool) : (b.mcWrite part va a n m).xlCaches = b.xlCaches :=
  Block.same Block.xlCaches (mcWrite_outside b part va a n m) fun _ => rfl
@[simp] theorem mcWrite_cacheSel (part : Option Nat) (va a n : Nat) (m : Nat → Bool) : (b.mcWrite part va a n m).cacheSel = b.cacheSel :=
  Block.same Block.cacheSel (mcWrite_outside b part va a n m) fun _ => rfl
@[simp] theorem mcWrite_xlInvs (part : Option Nat) (va a n : Nat) (m : Nat → Bool) : (b.mcWrite part va a n m).xlInvs = b.xlInvs :=
  Block.same Block.xlInvs (mcWrite_outside b part va a n m) fun _ => rfl
@[simp] theorem mcWrite_recs (part : Option Nat) (va a n : Nat) (m : Nat → Bool) : (b.mcWrite part va a n m).recs = b.recs :=
  Block.same Block.recs (mcWrite_outside b part va a n m) fun _ => rfl
@[simp] theorem mcWrite_ports (part : Option Nat) (va a n : Nat) (m : Nat → Bool) : (b.mcWrite part va a n m).ports = b.ports :=
  Block.same Block.ports (mcWrite_outside b part va a n m) fun _ => rfl
@[simp] theorem mcWrite_leafRuns (part : Option Nat) (va a n : Nat) (m : Nat → Bool) : (b.mcWrite part va a n m).leafRuns = b.leafRuns :=
  Block.same Block.leafRuns (mcWrite_outside b part va a n m) fun _ => rfl
@[simp] theorem mcWrite_queues (part : Option Nat) (va a n : Nat) (m : Nat → Bool) : (b.mcWrite part va a n m).queues = b.queues :=
  Block.same Block.queues (mcWrite_outside b part va a n m) fun _ => rfl
@[simp] theorem mcWrite_msgSeq (part : Option Nat) (va a n : Nat) (m : Nat → Bool) : (b.mcWrite part va a n m).msgSeq = b.msgSeq :=
  Block.same Block.msgSeq (mcWrite_outside b part va a n m) fun _ => rfl
@[simp] theorem mcWrite_shards (part : Option Nat) (va a n : Nat) (m : Nat → Bool) : (b.mcWrite part va a n m).shards = b.shards :=
  Block.same Block.shards (mcWrite_outside b part va a n m) fun _ => rfl
@[simp] theorem mcWrite_flows (part : Option Nat) (va a n : Nat) (m : Nat → Bool) : (b.mcWrite part va a n m).flows = b.flows :=
  Block.same Block.flows (mcWrite_outside b part va a n m) fun _ => rfl
@[simp] theorem mcWrite_sessions (part : Option Nat) (va a n : Nat) (m : Nat → Bool) : (b.mcWrite part va a n m).sessions = b.sessions :=
  Block.same Block.sessions (mcWrite_outside b part va a n m) fun _ => rfl
@[simp] theorem mcWrite_pdraws (part : Option Nat) (va a n : Nat) (m : Nat → Bool) : (b.mcWrite part va a n m).pdraws = b.pdraws :=
  Block.same Block.pdraws (mcWrite_outside b part va a n m) fun _ => rfl
@[simp] theorem mcWrite_prDone (part : Option Nat) (va a n : Nat) (m : Nat → Bool) : (b.mcWrite part va a n m).prDone = b.prDone :=
  Block.same Block.prDone (mcWrite_outside b part va a n m) fun _ => rfl
@[simp] theorem mcWrite_lost (part : Option Nat) (va a n : Nat) (m : Nat → Bool) : (b.mcWrite part va a n m).lost = b.lost :=
  Block.same Block.lost (mcWrite_outside b part va a n m) fun _ => rfl
@[simp] theorem mcWrite_mail (part : Option Nat) (va a n : Nat) (m : Nat → Bool) : (b.mcWrite part va a n m).mail = b.mail :=
  Block.same Block.mail (mcWrite_outside b part va a n m) fun _ => rfl
@[simp] theorem mcWrite_haw (part : Option Nat) (va a n : Nat) (m : Nat → Bool) : (b.mcWrite part va a n m).haw = b.haw :=
  Block.same Block.haw (mcWrite_outside b part va a n m) fun _ => rfl
@[simp] theorem mcWrite_slew (part : Option Nat) (va a n : Nat) (m : Nat → Bool) : (b.mcWrite part va a n m).slew = b.slew :=
  Block.same Block.slew (mcWrite_outside b part va a n m) fun _ => rfl
@[simp] theorem mcWrite_slewAcc (part : Option Nat) (va a n : Nat) (m : Nat → Bool) : (b.mcWrite part va a n m).slewAcc = b.slewAcc :=
  Block.same Block.slewAcc (mcWrite_outside b part va a n m) fun _ => rfl
@[simp] theorem mcWrite_rebuilds (part : Option Nat) (va a n : Nat) (m : Nat → Bool) : (b.mcWrite part va a n m).rebuilds = b.rebuilds :=
  Block.same Block.rebuilds (mcWrite_outside b part va a n m) fun _ => rfl
@[simp] theorem mcWrite_zeroing (part : Option Nat) (va a n : Nat) (m : Nat → Bool) : (b.mcWrite part va a n m).zeroing = b.zeroing :=
  Block.same Block.zeroing (mcWrite_outside b part va a n m) fun _ => rfl
@[simp] theorem mcWrite_warm (part : Option Nat) (va a n : Nat) (m : Nat → Bool) : (b.mcWrite part va a n m).warm = b.warm :=
  Block.same Block.warm (mcWrite_outside b part va a n m) fun _ => rfl
@[simp] theorem mcWrite_hdm (part : Option Nat) (va a n : Nat) (m : Nat → Bool) : (b.mcWrite part va a n m).hdm = b.hdm :=
  Block.same Block.hdm (mcWrite_outside b part va a n m) fun _ => rfl
@[simp] theorem mcWrite_quiescing (part : Option Nat) (va a n : Nat) (m : Nat → Bool) : (b.mcWrite part va a n m).quiescing = b.quiescing :=
  Block.same Block.quiescing (mcWrite_outside b part va a n m) fun _ => rfl
@[simp] theorem mcWrite_invWaits (part : Option Nat) (va a n : Nat) (m : Nat → Bool) : (b.mcWrite part va a n m).invWaits = b.invWaits :=
  Block.same Block.invWaits (mcWrite_outside b part va a n m) fun _ => rfl
@[simp] theorem mcWrite_ide (part : Option Nat) (va a n : Nat) (m : Nat → Bool) : (b.mcWrite part va a n m).ide = b.ide :=
  Block.same Block.ide (mcWrite_outside b part va a n m) fun _ => rfl
@[simp] theorem mcWrite_out (part : Option Nat) (va a n : Nat) (m : Nat → Bool) : (b.mcWrite part va a n m).out = b.out :=
  Block.same Block.out (mcWrite_outside b part va a n m) fun _ => rfl
@[simp] theorem countTier_now (a n : Nat) (w : Bool) : (b.countTier a n w).now = b.now := Block.same Block.now (countTier_outside b a n w) fun _ => rfl
@[simp] theorem countTier_free (a n : Nat) (w : Bool) : (b.countTier a n w).free = b.free := Block.same Block.free (countTier_outside b a n w) fun _ => rfl
@[simp] theorem countTier_latch (a n : Nat) (w : Bool) : (b.countTier a n w).latch = b.latch := Block.same Block.latch (countTier_outside b a n w) fun _ => rfl
@[simp] theorem countTier_mem (a n : Nat) (w : Bool) : (b.countTier a n w).mem = b.mem := Block.same Block.mem (countTier_outside b a n w) fun _ => rfl
@[simp] theorem countTier_poison (a n : Nat) (w : Bool) : (b.countTier a n w).poison = b.poison := Block.same Block.poison (countTier_outside b a n w) fun _ => rfl
@[simp] theorem countTier_poisonB (a n : Nat) (w : Bool) : (b.countTier a n w).poisonB = b.poisonB := Block.same Block.poisonB (countTier_outside b a n w) fun _ => rfl
@[simp] theorem countTier_hostMem (a n : Nat) (w : Bool) : (b.countTier a n w).hostMem = b.hostMem := Block.same Block.hostMem (countTier_outside b a n w) fun _ => rfl
@[simp] theorem countTier_hostBad (a n : Nat) (w : Bool) : (b.countTier a n w).hostBad = b.hostBad := Block.same Block.hostBad (countTier_outside b a n w) fun _ => rfl
@[simp] theorem countTier_rings (a n : Nat) (w : Bool) : (b.countTier a n w).rings = b.rings := Block.same Block.rings (countTier_outside b a n w) fun _ => rfl
@[simp] theorem countTier_sems (a n : Nat) (w : Bool) : (b.countTier a n w).sems = b.sems := Block.same Block.sems (countTier_outside b a n w) fun _ => rfl
@[simp] theorem countTier_chans (a n : Nat) (w : Bool) : (b.countTier a n w).chans = b.chans := Block.same Block.chans (countTier_outside b a n w) fun _ => rfl
@[simp] theorem countTier_flights (a n : Nat) (w : Bool) : (b.countTier a n w).flights = b.flights := Block.same Block.flights (countTier_outside b a n w) fun _ => rfl
@[simp] theorem countTier_parts (a n : Nat) (w : Bool) : (b.countTier a n w).parts = b.parts := Block.same Block.parts (countTier_outside b a n w) fun _ => rfl
@[simp] theorem countTier_grants (a n : Nat) (w : Bool) : (b.countTier a n w).grants = b.grants := Block.same Block.grants (countTier_outside b a n w) fun _ => rfl
@[simp] theorem countTier_drafts (a n : Nat) (w : Bool) : (b.countTier a n w).drafts = b.drafts := Block.same Block.drafts (countTier_outside b a n w) fun _ => rfl
@[simp] theorem countTier_arrays (a n : Nat) (w : Bool) : (b.countTier a n w).arrays = b.arrays := Block.same Block.arrays (countTier_outside b a n w) fun _ => rfl
@[simp] theorem countTier_vecs (a n : Nat) (w : Bool) : (b.countTier a n w).vecs = b.vecs := Block.same Block.vecs (countTier_outside b a n w) fun _ => rfl
@[simp] theorem countTier_slots (a n : Nat) (w : Bool) : (b.countTier a n w).slots = b.slots := Block.same Block.slots (countTier_outside b a n w) fun _ => rfl
@[simp] theorem countTier_images (a n : Nat) (w : Bool) : (b.countTier a n w).images = b.images := Block.same Block.images (countTier_outside b a n w) fun _ => rfl
@[simp] theorem countTier_carts (a n : Nat) (w : Bool) : (b.countTier a n w).carts = b.carts := Block.same Block.carts (countTier_outside b a n w) fun _ => rfl
@[simp] theorem countTier_foldRun (a n : Nat) (w : Bool) : (b.countTier a n w).foldRun = b.foldRun := Block.same Block.foldRun (countTier_outside b a n w) fun _ => rfl
@[simp] theorem countTier_events (a n : Nat) (w : Bool) : (b.countTier a n w).events = b.events := Block.same Block.events (countTier_outside b a n w) fun _ => rfl
@[simp] theorem countTier_evQueues (a n : Nat) (w : Bool) : (b.countTier a n w).evQueues = b.evQueues := Block.same Block.evQueues (countTier_outside b a n w) fun _ => rfl
@[simp] theorem countTier_health (a n : Nat) (w : Bool) : (b.countTier a n w).health = b.health := Block.same Block.health (countTier_outside b a n w) fun _ => rfl
@[simp] theorem countTier_mailboxes (a n : Nat) (w : Bool) : (b.countTier a n w).mailboxes = b.mailboxes := Block.same Block.mailboxes (countTier_outside b a n w) fun _ => rfl
@[simp] theorem countTier_snoop (a n : Nat) (w : Bool) : (b.countTier a n w).snoop = b.snoop := Block.same Block.snoop (countTier_outside b a n w) fun _ => rfl
@[simp] theorem countTier_power (a n : Nat) (w : Bool) : (b.countTier a n w).power = b.power := Block.same Block.power (countTier_outside b a n w) fun _ => rfl
@[simp] theorem countTier_memQ (a n : Nat) (w : Bool) : (b.countTier a n w).memQ = b.memQ := Block.same Block.memQ (countTier_outside b a n w) fun _ => rfl
@[simp] theorem countTier_xlCaches (a n : Nat) (w : Bool) : (b.countTier a n w).xlCaches = b.xlCaches := Block.same Block.xlCaches (countTier_outside b a n w) fun _ => rfl
@[simp] theorem countTier_cacheSel (a n : Nat) (w : Bool) : (b.countTier a n w).cacheSel = b.cacheSel := Block.same Block.cacheSel (countTier_outside b a n w) fun _ => rfl
@[simp] theorem countTier_xlInvs (a n : Nat) (w : Bool) : (b.countTier a n w).xlInvs = b.xlInvs := Block.same Block.xlInvs (countTier_outside b a n w) fun _ => rfl
@[simp] theorem countTier_recs (a n : Nat) (w : Bool) : (b.countTier a n w).recs = b.recs := Block.same Block.recs (countTier_outside b a n w) fun _ => rfl
@[simp] theorem countTier_ports (a n : Nat) (w : Bool) : (b.countTier a n w).ports = b.ports := Block.same Block.ports (countTier_outside b a n w) fun _ => rfl
@[simp] theorem countTier_leafRuns (a n : Nat) (w : Bool) : (b.countTier a n w).leafRuns = b.leafRuns := Block.same Block.leafRuns (countTier_outside b a n w) fun _ => rfl
@[simp] theorem countTier_queues (a n : Nat) (w : Bool) : (b.countTier a n w).queues = b.queues := Block.same Block.queues (countTier_outside b a n w) fun _ => rfl
@[simp] theorem countTier_msgSeq (a n : Nat) (w : Bool) : (b.countTier a n w).msgSeq = b.msgSeq := Block.same Block.msgSeq (countTier_outside b a n w) fun _ => rfl
@[simp] theorem countTier_shards (a n : Nat) (w : Bool) : (b.countTier a n w).shards = b.shards := Block.same Block.shards (countTier_outside b a n w) fun _ => rfl
@[simp] theorem countTier_flows (a n : Nat) (w : Bool) : (b.countTier a n w).flows = b.flows := Block.same Block.flows (countTier_outside b a n w) fun _ => rfl
@[simp] theorem countTier_sessions (a n : Nat) (w : Bool) : (b.countTier a n w).sessions = b.sessions := Block.same Block.sessions (countTier_outside b a n w) fun _ => rfl
@[simp] theorem countTier_pdraws (a n : Nat) (w : Bool) : (b.countTier a n w).pdraws = b.pdraws := Block.same Block.pdraws (countTier_outside b a n w) fun _ => rfl
@[simp] theorem countTier_prDone (a n : Nat) (w : Bool) : (b.countTier a n w).prDone = b.prDone := Block.same Block.prDone (countTier_outside b a n w) fun _ => rfl
@[simp] theorem countTier_lost (a n : Nat) (w : Bool) : (b.countTier a n w).lost = b.lost := Block.same Block.lost (countTier_outside b a n w) fun _ => rfl
@[simp] theorem countTier_mail (a n : Nat) (w : Bool) : (b.countTier a n w).mail = b.mail := Block.same Block.mail (countTier_outside b a n w) fun _ => rfl
@[simp] theorem countTier_haw (a n : Nat) (w : Bool) : (b.countTier a n w).haw = b.haw := Block.same Block.haw (countTier_outside b a n w) fun _ => rfl
@[simp] theorem countTier_slew (a n : Nat) (w : Bool) : (b.countTier a n w).slew = b.slew := Block.same Block.slew (countTier_outside b a n w) fun _ => rfl
@[simp] theorem countTier_slewAcc (a n : Nat) (w : Bool) : (b.countTier a n w).slewAcc = b.slewAcc := Block.same Block.slewAcc (countTier_outside b a n w) fun _ => rfl
@[simp] theorem countTier_rebuilds (a n : Nat) (w : Bool) : (b.countTier a n w).rebuilds = b.rebuilds := Block.same Block.rebuilds (countTier_outside b a n w) fun _ => rfl
@[simp] theorem countTier_zeroing (a n : Nat) (w : Bool) : (b.countTier a n w).zeroing = b.zeroing := Block.same Block.zeroing (countTier_outside b a n w) fun _ => rfl
@[simp] theorem countTier_warm (a n : Nat) (w : Bool) : (b.countTier a n w).warm = b.warm := Block.same Block.warm (countTier_outside b a n w) fun _ => rfl
@[simp] theorem countTier_hdm (a n : Nat) (w : Bool) : (b.countTier a n w).hdm = b.hdm := Block.same Block.hdm (countTier_outside b a n w) fun _ => rfl
@[simp] theorem countTier_quiescing (a n : Nat) (w : Bool) : (b.countTier a n w).quiescing = b.quiescing := Block.same Block.quiescing (countTier_outside b a n w) fun _ => rfl
@[simp] theorem countTier_invWaits (a n : Nat) (w : Bool) : (b.countTier a n w).invWaits = b.invWaits := Block.same Block.invWaits (countTier_outside b a n w) fun _ => rfl
@[simp] theorem countTier_ide (a n : Nat) (w : Bool) : (b.countTier a n w).ide = b.ide := Block.same Block.ide (countTier_outside b a n w) fun _ => rfl
@[simp] theorem countTier_out (a n : Nat) (w : Bool) : (b.countTier a n w).out = b.out := Block.same Block.out (countTier_outside b a n w) fun _ => rfl

@[simp] theorem noteInflight_now (p : Nat) : (b.noteInflight p).now = b.now := by
  unfold Block.noteInflight
  split <;> rfl
@[simp] theorem noteInflight_free (p : Nat) : (b.noteInflight p).free = b.free := by
  unfold Block.noteInflight
  split <;> rfl
@[simp] theorem noteInflight_latch (p : Nat) : (b.noteInflight p).latch = b.latch := by
  unfold Block.noteInflight
  split <;> rfl
@[simp] theorem noteInflight_mem (p : Nat) : (b.noteInflight p).mem = b.mem := by
  unfold Block.noteInflight
  split <;> rfl
@[simp] theorem noteInflight_poison (p : Nat) : (b.noteInflight p).poison = b.poison := by
  unfold Block.noteInflight
  split <;> rfl
@[simp] theorem noteInflight_poisonB (p : Nat) : (b.noteInflight p).poisonB = b.poisonB := by
  unfold Block.noteInflight
  split <;> rfl
@[simp] theorem noteInflight_hostMem (p : Nat) : (b.noteInflight p).hostMem = b.hostMem := by
  unfold Block.noteInflight
  split <;> rfl
@[simp] theorem noteInflight_hostBad (p : Nat) : (b.noteInflight p).hostBad = b.hostBad := by
  unfold Block.noteInflight
  split <;> rfl
@[simp] theorem noteInflight_rings (p : Nat) : (b.noteInflight p).rings = b.rings := by
  unfold Block.noteInflight
  split <;> rfl
@[simp] theorem noteInflight_sems (p : Nat) : (b.noteInflight p).sems = b.sems := by
  unfold Block.noteInflight
  split <;> rfl
@[simp] theorem noteInflight_chans (p : Nat) : (b.noteInflight p).chans = b.chans := by
  unfold Block.noteInflight
  split <;> rfl
@[simp] theorem noteInflight_flights (p : Nat) : (b.noteInflight p).flights = b.flights := by
  unfold Block.noteInflight
  split <;> rfl
@[simp] theorem noteInflight_parts (p : Nat) : (b.noteInflight p).parts = b.parts := by
  unfold Block.noteInflight
  split <;> rfl
@[simp] theorem noteInflight_grants (p : Nat) : (b.noteInflight p).grants = b.grants := by
  unfold Block.noteInflight
  split <;> rfl
@[simp] theorem noteInflight_drafts (p : Nat) : (b.noteInflight p).drafts = b.drafts := by
  unfold Block.noteInflight
  split <;> rfl
@[simp] theorem noteInflight_arrays (p : Nat) : (b.noteInflight p).arrays = b.arrays := by
  unfold Block.noteInflight
  split <;> rfl
@[simp] theorem noteInflight_vecs (p : Nat) : (b.noteInflight p).vecs = b.vecs := by
  unfold Block.noteInflight
  split <;> rfl
@[simp] theorem noteInflight_slots (p : Nat) : (b.noteInflight p).slots = b.slots := by
  unfold Block.noteInflight
  split <;> rfl
@[simp] theorem noteInflight_images (p : Nat) : (b.noteInflight p).images = b.images := by
  unfold Block.noteInflight
  split <;> rfl
@[simp] theorem noteInflight_carts (p : Nat) : (b.noteInflight p).carts = b.carts := by
  unfold Block.noteInflight
  split <;> rfl
@[simp] theorem noteInflight_foldRun (p : Nat) : (b.noteInflight p).foldRun = b.foldRun := by
  unfold Block.noteInflight
  split <;> rfl
@[simp] theorem noteInflight_events (p : Nat) : (b.noteInflight p).events = b.events := by
  unfold Block.noteInflight
  split <;> rfl
@[simp] theorem noteInflight_evQueues (p : Nat) : (b.noteInflight p).evQueues = b.evQueues := by
  unfold Block.noteInflight
  split <;> rfl
@[simp] theorem noteInflight_health (p : Nat) : (b.noteInflight p).health = b.health := by
  unfold Block.noteInflight
  split <;> rfl
@[simp] theorem noteInflight_mailboxes (p : Nat) : (b.noteInflight p).mailboxes = b.mailboxes := by
  unfold Block.noteInflight
  split <;> rfl
@[simp] theorem noteInflight_snoop (p : Nat) : (b.noteInflight p).snoop = b.snoop := by
  unfold Block.noteInflight
  split <;> rfl
@[simp] theorem noteInflight_power (p : Nat) : (b.noteInflight p).power = b.power := by
  unfold Block.noteInflight
  split <;> rfl
@[simp] theorem noteInflight_mcs (p : Nat) : (b.noteInflight p).mcs = b.mcs := by
  unfold Block.noteInflight
  split <;> rfl
@[simp] theorem noteInflight_memQ (p : Nat) : (b.noteInflight p).memQ = b.memQ := by
  unfold Block.noteInflight
  split <;> rfl
@[simp] theorem noteInflight_xlCaches (p : Nat) : (b.noteInflight p).xlCaches = b.xlCaches := by
  unfold Block.noteInflight
  split <;> rfl
@[simp] theorem noteInflight_cacheSel (p : Nat) : (b.noteInflight p).cacheSel = b.cacheSel := by
  unfold Block.noteInflight
  split <;> rfl
@[simp] theorem noteInflight_xlInvs (p : Nat) : (b.noteInflight p).xlInvs = b.xlInvs := by
  unfold Block.noteInflight
  split <;> rfl
@[simp] theorem noteInflight_recs (p : Nat) : (b.noteInflight p).recs = b.recs := by
  unfold Block.noteInflight
  split <;> rfl
@[simp] theorem noteInflight_ports (p : Nat) : (b.noteInflight p).ports = b.ports := by
  unfold Block.noteInflight
  split <;> rfl
@[simp] theorem noteInflight_leafRuns (p : Nat) : (b.noteInflight p).leafRuns = b.leafRuns := by
  unfold Block.noteInflight
  split <;> rfl
@[simp] theorem noteInflight_queues (p : Nat) : (b.noteInflight p).queues = b.queues := by
  unfold Block.noteInflight
  split <;> rfl
@[simp] theorem noteInflight_msgSeq (p : Nat) : (b.noteInflight p).msgSeq = b.msgSeq := by
  unfold Block.noteInflight
  split <;> rfl
@[simp] theorem noteInflight_shards (p : Nat) : (b.noteInflight p).shards = b.shards := by
  unfold Block.noteInflight
  split <;> rfl
@[simp] theorem noteInflight_flows (p : Nat) : (b.noteInflight p).flows = b.flows := by
  unfold Block.noteInflight
  split <;> rfl
@[simp] theorem noteInflight_sessions (p : Nat) : (b.noteInflight p).sessions = b.sessions := by
  unfold Block.noteInflight
  split <;> rfl
@[simp] theorem noteInflight_pdraws (p : Nat) : (b.noteInflight p).pdraws = b.pdraws := by
  unfold Block.noteInflight
  split <;> rfl
@[simp] theorem noteInflight_prDone (p : Nat) : (b.noteInflight p).prDone = b.prDone := by
  unfold Block.noteInflight
  split <;> rfl
@[simp] theorem noteInflight_lost (p : Nat) : (b.noteInflight p).lost = b.lost := by
  unfold Block.noteInflight
  split <;> rfl
@[simp] theorem noteInflight_mail (p : Nat) : (b.noteInflight p).mail = b.mail := by
  unfold Block.noteInflight
  split <;> rfl
@[simp] theorem noteInflight_haw (p : Nat) : (b.noteInflight p).haw = b.haw := by
  unfold Block.noteInflight
  split <;> rfl
@[simp] theorem noteInflight_slew (p : Nat) : (b.noteInflight p).slew = b.slew := by
  unfold Block.noteInflight
  split <;> rfl
@[simp] theorem noteInflight_slewAcc (p : Nat) : (b.noteInflight p).slewAcc = b.slewAcc := by
  unfold Block.noteInflight
  split <;> rfl
@[simp] theorem noteInflight_rebuilds (p : Nat) : (b.noteInflight p).rebuilds = b.rebuilds := by
  unfold Block.noteInflight
  split <;> rfl
@[simp] theorem noteInflight_zeroing (p : Nat) : (b.noteInflight p).zeroing = b.zeroing := by
  unfold Block.noteInflight
  split <;> rfl
@[simp] theorem noteInflight_warm (p : Nat) : (b.noteInflight p).warm = b.warm := by
  unfold Block.noteInflight
  split <;> rfl
@[simp] theorem noteInflight_hdm (p : Nat) : (b.noteInflight p).hdm = b.hdm := by
  unfold Block.noteInflight
  split <;> rfl
@[simp] theorem noteInflight_quiescing (p : Nat) : (b.noteInflight p).quiescing = b.quiescing := by
  unfold Block.noteInflight
  split <;> rfl
@[simp] theorem noteInflight_invWaits (p : Nat) : (b.noteInflight p).invWaits = b.invWaits := by
  unfold Block.noteInflight
  split <;> rfl
@[simp] theorem noteInflight_ide (p : Nat) : (b.noteInflight p).ide = b.ide := by
  unfold Block.noteInflight
  split <;> rfl
@[simp] theorem noteInflight_out (p : Nat) : (b.noteInflight p).out = b.out := by
  unfold Block.noteInflight
  split <;> rfl

@[simp] theorem addSem_now (i n : Nat) : (b.addSem i n).now = b.now := by
  unfold Block.addSem
  exact each_keeps (fun c => c.now = b.now) _ _ (fun c p h => by simpa using h) _ rfl
@[simp] theorem addSem_free (i n : Nat) : (b.addSem i n).free = b.free := by
  unfold Block.addSem
  exact each_keeps (fun c => c.free = b.free) _ _ (fun c p h => by simpa using h) _ rfl
@[simp] theorem addSem_latch (i n : Nat) : (b.addSem i n).latch = b.latch := by
  unfold Block.addSem
  exact each_keeps (fun c => c.latch = b.latch) _ _ (fun c p h => by simpa using h) _ rfl
@[simp] theorem addSem_mem (i n : Nat) : (b.addSem i n).mem = b.mem := by
  unfold Block.addSem
  exact each_keeps (fun c => c.mem = b.mem) _ _ (fun c p h => by simpa using h) _ rfl
@[simp] theorem addSem_poison (i n : Nat) : (b.addSem i n).poison = b.poison := by
  unfold Block.addSem
  exact each_keeps (fun c => c.poison = b.poison) _ _ (fun c p h => by simpa using h) _ rfl
@[simp] theorem addSem_poisonB (i n : Nat) : (b.addSem i n).poisonB = b.poisonB := by
  unfold Block.addSem
  exact each_keeps (fun c => c.poisonB = b.poisonB) _ _ (fun c p h => by simpa using h) _ rfl
@[simp] theorem addSem_hostMem (i n : Nat) : (b.addSem i n).hostMem = b.hostMem := by
  unfold Block.addSem
  exact each_keeps (fun c => c.hostMem = b.hostMem) _ _ (fun c p h => by simpa using h) _ rfl
@[simp] theorem addSem_hostBad (i n : Nat) : (b.addSem i n).hostBad = b.hostBad := by
  unfold Block.addSem
  exact each_keeps (fun c => c.hostBad = b.hostBad) _ _ (fun c p h => by simpa using h) _ rfl
@[simp] theorem addSem_rings (i n : Nat) : (b.addSem i n).rings = b.rings := by
  unfold Block.addSem
  exact each_keeps (fun c => c.rings = b.rings) _ _ (fun c p h => by simpa using h) _ rfl
@[simp] theorem addSem_chans (i n : Nat) : (b.addSem i n).chans = b.chans := by
  unfold Block.addSem
  exact each_keeps (fun c => c.chans = b.chans) _ _ (fun c p h => by simpa using h) _ rfl
@[simp] theorem addSem_flights (i n : Nat) : (b.addSem i n).flights = b.flights := by
  unfold Block.addSem
  exact each_keeps (fun c => c.flights = b.flights) _ _ (fun c p h => by simpa using h) _ rfl
@[simp] theorem addSem_parts (i n : Nat) : (b.addSem i n).parts = b.parts := by
  unfold Block.addSem
  exact each_keeps (fun c => c.parts = b.parts) _ _ (fun c p h => by simpa using h) _ rfl
@[simp] theorem addSem_grants (i n : Nat) : (b.addSem i n).grants = b.grants := by
  unfold Block.addSem
  exact each_keeps (fun c => c.grants = b.grants) _ _ (fun c p h => by simpa using h) _ rfl
@[simp] theorem addSem_drafts (i n : Nat) : (b.addSem i n).drafts = b.drafts := by
  unfold Block.addSem
  exact each_keeps (fun c => c.drafts = b.drafts) _ _ (fun c p h => by simpa using h) _ rfl
@[simp] theorem addSem_arrays (i n : Nat) : (b.addSem i n).arrays = b.arrays := by
  unfold Block.addSem
  exact each_keeps (fun c => c.arrays = b.arrays) _ _ (fun c p h => by simpa using h) _ rfl
@[simp] theorem addSem_vecs (i n : Nat) : (b.addSem i n).vecs = b.vecs := by
  unfold Block.addSem
  exact each_keeps (fun c => c.vecs = b.vecs) _ _ (fun c p h => by simpa using h) _ rfl
@[simp] theorem addSem_slots (i n : Nat) : (b.addSem i n).slots = b.slots := by
  unfold Block.addSem
  exact each_keeps (fun c => c.slots = b.slots) _ _ (fun c p h => by simpa using h) _ rfl
@[simp] theorem addSem_images (i n : Nat) : (b.addSem i n).images = b.images := by
  unfold Block.addSem
  exact each_keeps (fun c => c.images = b.images) _ _ (fun c p h => by simpa using h) _ rfl
@[simp] theorem addSem_carts (i n : Nat) : (b.addSem i n).carts = b.carts := by
  unfold Block.addSem
  exact each_keeps (fun c => c.carts = b.carts) _ _ (fun c p h => by simpa using h) _ rfl
@[simp] theorem addSem_foldRun (i n : Nat) : (b.addSem i n).foldRun = b.foldRun := by
  unfold Block.addSem
  exact each_keeps (fun c => c.foldRun = b.foldRun) _ _ (fun c p h => by simpa using h) _ rfl
@[simp] theorem addSem_events (i n : Nat) : (b.addSem i n).events = b.events := by
  unfold Block.addSem
  exact each_keeps (fun c => c.events = b.events) _ _ (fun c p h => by simpa using h) _ rfl
@[simp] theorem addSem_evQueues (i n : Nat) : (b.addSem i n).evQueues = b.evQueues := by
  unfold Block.addSem
  exact each_keeps (fun c => c.evQueues = b.evQueues) _ _ (fun c p h => by simpa using h) _ rfl
@[simp] theorem addSem_health (i n : Nat) : (b.addSem i n).health = b.health := by
  unfold Block.addSem
  exact each_keeps (fun c => c.health = b.health) _ _ (fun c p h => by simpa using h) _ rfl
@[simp] theorem addSem_mailboxes (i n : Nat) : (b.addSem i n).mailboxes = b.mailboxes := by
  unfold Block.addSem
  exact each_keeps (fun c => c.mailboxes = b.mailboxes) _ _ (fun c p h => by simpa using h) _ rfl
@[simp] theorem addSem_snoop (i n : Nat) : (b.addSem i n).snoop = b.snoop := by
  unfold Block.addSem
  exact each_keeps (fun c => c.snoop = b.snoop) _ _ (fun c p h => by simpa using h) _ rfl
@[simp] theorem addSem_power (i n : Nat) : (b.addSem i n).power = b.power := by
  unfold Block.addSem
  exact each_keeps (fun c => c.power = b.power) _ _ (fun c p h => by simpa using h) _ rfl
@[simp] theorem addSem_mcs (i n : Nat) : (b.addSem i n).mcs = b.mcs := by
  unfold Block.addSem
  exact each_keeps (fun c => c.mcs = b.mcs) _ _ (fun c p h => by simpa using h) _ rfl
@[simp] theorem addSem_memQ (i n : Nat) : (b.addSem i n).memQ = b.memQ := by
  unfold Block.addSem
  exact each_keeps (fun c => c.memQ = b.memQ) _ _ (fun c p h => by simpa using h) _ rfl
@[simp] theorem addSem_xlCaches (i n : Nat) : (b.addSem i n).xlCaches = b.xlCaches := by
  unfold Block.addSem
  exact each_keeps (fun c => c.xlCaches = b.xlCaches) _ _ (fun c p h => by simpa using h) _ rfl
@[simp] theorem addSem_cacheSel (i n : Nat) : (b.addSem i n).cacheSel = b.cacheSel := by
  unfold Block.addSem
  exact each_keeps (fun c => c.cacheSel = b.cacheSel) _ _ (fun c p h => by simpa using h) _ rfl
@[simp] theorem addSem_xlInvs (i n : Nat) : (b.addSem i n).xlInvs = b.xlInvs := by
  unfold Block.addSem
  exact each_keeps (fun c => c.xlInvs = b.xlInvs) _ _ (fun c p h => by simpa using h) _ rfl
@[simp] theorem addSem_recs (i n : Nat) : (b.addSem i n).recs = b.recs := by
  unfold Block.addSem
  exact each_keeps (fun c => c.recs = b.recs) _ _ (fun c p h => by simpa using h) _ rfl
@[simp] theorem addSem_ports (i n : Nat) : (b.addSem i n).ports = b.ports := by
  unfold Block.addSem
  exact each_keeps (fun c => c.ports = b.ports) _ _ (fun c p h => by simpa using h) _ rfl
@[simp] theorem addSem_leafRuns (i n : Nat) : (b.addSem i n).leafRuns = b.leafRuns := by
  unfold Block.addSem
  exact each_keeps (fun c => c.leafRuns = b.leafRuns) _ _ (fun c p h => by simpa using h) _ rfl
@[simp] theorem addSem_queues (i n : Nat) : (b.addSem i n).queues = b.queues := by
  unfold Block.addSem
  exact each_keeps (fun c => c.queues = b.queues) _ _ (fun c p h => by simpa using h) _ rfl
@[simp] theorem addSem_msgSeq (i n : Nat) : (b.addSem i n).msgSeq = b.msgSeq := by
  unfold Block.addSem
  exact each_keeps (fun c => c.msgSeq = b.msgSeq) _ _ (fun c p h => by simpa using h) _ rfl
@[simp] theorem addSem_shards (i n : Nat) : (b.addSem i n).shards = b.shards := by
  unfold Block.addSem
  exact each_keeps (fun c => c.shards = b.shards) _ _ (fun c p h => by simpa using h) _ rfl
@[simp] theorem addSem_flows (i n : Nat) : (b.addSem i n).flows = b.flows := by
  unfold Block.addSem
  exact each_keeps (fun c => c.flows = b.flows) _ _ (fun c p h => by simpa using h) _ rfl
@[simp] theorem addSem_sessions (i n : Nat) : (b.addSem i n).sessions = b.sessions := by
  unfold Block.addSem
  exact each_keeps (fun c => c.sessions = b.sessions) _ _ (fun c p h => by simpa using h) _ rfl
@[simp] theorem addSem_pdraws (i n : Nat) : (b.addSem i n).pdraws = b.pdraws := by
  unfold Block.addSem
  exact each_keeps (fun c => c.pdraws = b.pdraws) _ _ (fun c p h => by simpa using h) _ rfl
@[simp] theorem addSem_prDone (i n : Nat) : (b.addSem i n).prDone = b.prDone := by
  unfold Block.addSem
  exact each_keeps (fun c => c.prDone = b.prDone) _ _ (fun c p h => by simpa using h) _ rfl
@[simp] theorem addSem_lost (i n : Nat) : (b.addSem i n).lost = b.lost := by
  unfold Block.addSem
  exact each_keeps (fun c => c.lost = b.lost) _ _ (fun c p h => by simpa using h) _ rfl
@[simp] theorem addSem_mail (i n : Nat) : (b.addSem i n).mail = b.mail := by
  unfold Block.addSem
  exact each_keeps (fun c => c.mail = b.mail) _ _ (fun c p h => by simpa using h) _ rfl
@[simp] theorem addSem_haw (i n : Nat) : (b.addSem i n).haw = b.haw := by
  unfold Block.addSem
  exact each_keeps (fun c => c.haw = b.haw) _ _ (fun c p h => by simpa using h) _ rfl
@[simp] theorem addSem_slew (i n : Nat) : (b.addSem i n).slew = b.slew := by
  unfold Block.addSem
  exact each_keeps (fun c => c.slew = b.slew) _ _ (fun c p h => by simpa using h) _ rfl
@[simp] theorem addSem_slewAcc (i n : Nat) : (b.addSem i n).slewAcc = b.slewAcc := by
  unfold Block.addSem
  exact each_keeps (fun c => c.slewAcc = b.slewAcc) _ _ (fun c p h => by simpa using h) _ rfl
@[simp] theorem addSem_rebuilds (i n : Nat) : (b.addSem i n).rebuilds = b.rebuilds := by
  unfold Block.addSem
  exact each_keeps (fun c => c.rebuilds = b.rebuilds) _ _ (fun c p h => by simpa using h) _ rfl
@[simp] theorem addSem_zeroing (i n : Nat) : (b.addSem i n).zeroing = b.zeroing := by
  unfold Block.addSem
  exact each_keeps (fun c => c.zeroing = b.zeroing) _ _ (fun c p h => by simpa using h) _ rfl
@[simp] theorem addSem_warm (i n : Nat) : (b.addSem i n).warm = b.warm := by
  unfold Block.addSem
  exact each_keeps (fun c => c.warm = b.warm) _ _ (fun c p h => by simpa using h) _ rfl
@[simp] theorem addSem_hdm (i n : Nat) : (b.addSem i n).hdm = b.hdm := by
  unfold Block.addSem
  exact each_keeps (fun c => c.hdm = b.hdm) _ _ (fun c p h => by simpa using h) _ rfl
@[simp] theorem addSem_quiescing (i n : Nat) : (b.addSem i n).quiescing = b.quiescing := by
  unfold Block.addSem
  exact each_keeps (fun c => c.quiescing = b.quiescing) _ _ (fun c p h => by simpa using h) _ rfl
@[simp] theorem addSem_invWaits (i n : Nat) : (b.addSem i n).invWaits = b.invWaits := by
  unfold Block.addSem
  exact each_keeps (fun c => c.invWaits = b.invWaits) _ _ (fun c p h => by simpa using h) _ rfl
@[simp] theorem addSem_ide (i n : Nat) : (b.addSem i n).ide = b.ide := by
  unfold Block.addSem
  exact each_keeps (fun c => c.ide = b.ide) _ _ (fun c p h => by simpa using h) _ rfl
@[simp] theorem addSem_out (i n : Nat) : (b.addSem i n).out = b.out := by
  unfold Block.addSem
  exact each_keeps (fun c => c.out = b.out) _ _ (fun c p h => by simpa using h) _ rfl

@[simp] theorem msix_now (fn v : Nat) : (b.msix fn v).now = b.now := by
  have h := congrArg Block.now (msix_rest b fn v)
  exact h
@[simp] theorem msix_free (fn v : Nat) : (b.msix fn v).free = b.free := by
  have h := congrArg Block.free (msix_rest b fn v)
  exact h
@[simp] theorem msix_latch (fn v : Nat) : (b.msix fn v).latch = b.latch := by
  have h := congrArg Block.latch (msix_rest b fn v)
  exact h
@[simp] theorem msix_mem (fn v : Nat) : (b.msix fn v).mem = b.mem := by
  have h := congrArg Block.mem (msix_rest b fn v)
  exact h
@[simp] theorem msix_poison (fn v : Nat) : (b.msix fn v).poison = b.poison := by
  have h := congrArg Block.poison (msix_rest b fn v)
  exact h
@[simp] theorem msix_poisonB (fn v : Nat) : (b.msix fn v).poisonB = b.poisonB := by
  have h := congrArg Block.poisonB (msix_rest b fn v)
  exact h
@[simp] theorem msix_hostMem (fn v : Nat) : (b.msix fn v).hostMem = b.hostMem := by
  have h := congrArg Block.hostMem (msix_rest b fn v)
  exact h
@[simp] theorem msix_hostBad (fn v : Nat) : (b.msix fn v).hostBad = b.hostBad := by
  have h := congrArg Block.hostBad (msix_rest b fn v)
  exact h
@[simp] theorem msix_rings (fn v : Nat) : (b.msix fn v).rings = b.rings := by
  have h := congrArg Block.rings (msix_rest b fn v)
  exact h
@[simp] theorem msix_sems (fn v : Nat) : (b.msix fn v).sems = b.sems := by
  have h := congrArg Block.sems (msix_rest b fn v)
  exact h
@[simp] theorem msix_chans (fn v : Nat) : (b.msix fn v).chans = b.chans := by
  have h := congrArg Block.chans (msix_rest b fn v)
  exact h
@[simp] theorem msix_flights (fn v : Nat) : (b.msix fn v).flights = b.flights := by
  have h := congrArg Block.flights (msix_rest b fn v)
  exact h
@[simp] theorem msix_parts (fn v : Nat) : (b.msix fn v).parts = b.parts := by
  have h := congrArg Block.parts (msix_rest b fn v)
  exact h
@[simp] theorem msix_grants (fn v : Nat) : (b.msix fn v).grants = b.grants := by
  have h := congrArg Block.grants (msix_rest b fn v)
  exact h
@[simp] theorem msix_drafts (fn v : Nat) : (b.msix fn v).drafts = b.drafts := by
  have h := congrArg Block.drafts (msix_rest b fn v)
  exact h
@[simp] theorem msix_arrays (fn v : Nat) : (b.msix fn v).arrays = b.arrays := by
  have h := congrArg Block.arrays (msix_rest b fn v)
  exact h
@[simp] theorem msix_vecs (fn v : Nat) : (b.msix fn v).vecs = b.vecs := by
  have h := congrArg Block.vecs (msix_rest b fn v)
  exact h
@[simp] theorem msix_slots (fn v : Nat) : (b.msix fn v).slots = b.slots := by
  have h := congrArg Block.slots (msix_rest b fn v)
  exact h
@[simp] theorem msix_images (fn v : Nat) : (b.msix fn v).images = b.images := by
  have h := congrArg Block.images (msix_rest b fn v)
  exact h
@[simp] theorem msix_carts (fn v : Nat) : (b.msix fn v).carts = b.carts := by
  have h := congrArg Block.carts (msix_rest b fn v)
  exact h
@[simp] theorem msix_foldRun (fn v : Nat) : (b.msix fn v).foldRun = b.foldRun := by
  have h := congrArg Block.foldRun (msix_rest b fn v)
  exact h
@[simp] theorem msix_evQueues (fn v : Nat) : (b.msix fn v).evQueues = b.evQueues := by
  have h := congrArg Block.evQueues (msix_rest b fn v)
  exact h
@[simp] theorem msix_health (fn v : Nat) : (b.msix fn v).health = b.health := by
  have h := congrArg Block.health (msix_rest b fn v)
  exact h
@[simp] theorem msix_mailboxes (fn v : Nat) : (b.msix fn v).mailboxes = b.mailboxes := by
  have h := congrArg Block.mailboxes (msix_rest b fn v)
  exact h
@[simp] theorem msix_snoop (fn v : Nat) : (b.msix fn v).snoop = b.snoop := by
  have h := congrArg Block.snoop (msix_rest b fn v)
  exact h
@[simp] theorem msix_power (fn v : Nat) : (b.msix fn v).power = b.power := by
  have h := congrArg Block.power (msix_rest b fn v)
  exact h
@[simp] theorem msix_mcs (fn v : Nat) : (b.msix fn v).mcs = b.mcs := by
  have h := congrArg Block.mcs (msix_rest b fn v)
  exact h
@[simp] theorem msix_memQ (fn v : Nat) : (b.msix fn v).memQ = b.memQ := by
  have h := congrArg Block.memQ (msix_rest b fn v)
  exact h
@[simp] theorem msix_xlCaches (fn v : Nat) : (b.msix fn v).xlCaches = b.xlCaches := by
  have h := congrArg Block.xlCaches (msix_rest b fn v)
  exact h
@[simp] theorem msix_cacheSel (fn v : Nat) : (b.msix fn v).cacheSel = b.cacheSel := by
  have h := congrArg Block.cacheSel (msix_rest b fn v)
  exact h
@[simp] theorem msix_xlInvs (fn v : Nat) : (b.msix fn v).xlInvs = b.xlInvs := by
  have h := congrArg Block.xlInvs (msix_rest b fn v)
  exact h
@[simp] theorem msix_recs (fn v : Nat) : (b.msix fn v).recs = b.recs := by
  have h := congrArg Block.recs (msix_rest b fn v)
  exact h
@[simp] theorem msix_ports (fn v : Nat) : (b.msix fn v).ports = b.ports := by
  have h := congrArg Block.ports (msix_rest b fn v)
  exact h
@[simp] theorem msix_leafRuns (fn v : Nat) : (b.msix fn v).leafRuns = b.leafRuns := by
  have h := congrArg Block.leafRuns (msix_rest b fn v)
  exact h
@[simp] theorem msix_queues (fn v : Nat) : (b.msix fn v).queues = b.queues := by
  have h := congrArg Block.queues (msix_rest b fn v)
  exact h
@[simp] theorem msix_msgSeq (fn v : Nat) : (b.msix fn v).msgSeq = b.msgSeq := by
  have h := congrArg Block.msgSeq (msix_rest b fn v)
  exact h
@[simp] theorem msix_shards (fn v : Nat) : (b.msix fn v).shards = b.shards := by
  have h := congrArg Block.shards (msix_rest b fn v)
  exact h
@[simp] theorem msix_flows (fn v : Nat) : (b.msix fn v).flows = b.flows := by
  have h := congrArg Block.flows (msix_rest b fn v)
  exact h
@[simp] theorem msix_sessions (fn v : Nat) : (b.msix fn v).sessions = b.sessions := by
  have h := congrArg Block.sessions (msix_rest b fn v)
  exact h
@[simp] theorem msix_pdraws (fn v : Nat) : (b.msix fn v).pdraws = b.pdraws := by
  have h := congrArg Block.pdraws (msix_rest b fn v)
  exact h
@[simp] theorem msix_prDone (fn v : Nat) : (b.msix fn v).prDone = b.prDone := by
  have h := congrArg Block.prDone (msix_rest b fn v)
  exact h
@[simp] theorem msix_lost (fn v : Nat) : (b.msix fn v).lost = b.lost := by
  have h := congrArg Block.lost (msix_rest b fn v)
  exact h
@[simp] theorem msix_mail (fn v : Nat) : (b.msix fn v).mail = b.mail := by
  have h := congrArg Block.mail (msix_rest b fn v)
  exact h
@[simp] theorem msix_haw (fn v : Nat) : (b.msix fn v).haw = b.haw := by
  have h := congrArg Block.haw (msix_rest b fn v)
  exact h
@[simp] theorem msix_slew (fn v : Nat) : (b.msix fn v).slew = b.slew := by
  have h := congrArg Block.slew (msix_rest b fn v)
  exact h
@[simp] theorem msix_slewAcc (fn v : Nat) : (b.msix fn v).slewAcc = b.slewAcc := by
  have h := congrArg Block.slewAcc (msix_rest b fn v)
  exact h
@[simp] theorem msix_rebuilds (fn v : Nat) : (b.msix fn v).rebuilds = b.rebuilds := by
  have h := congrArg Block.rebuilds (msix_rest b fn v)
  exact h
@[simp] theorem msix_zeroing (fn v : Nat) : (b.msix fn v).zeroing = b.zeroing := by
  have h := congrArg Block.zeroing (msix_rest b fn v)
  exact h
@[simp] theorem msix_warm (fn v : Nat) : (b.msix fn v).warm = b.warm := by
  have h := congrArg Block.warm (msix_rest b fn v)
  exact h
@[simp] theorem msix_hdm (fn v : Nat) : (b.msix fn v).hdm = b.hdm := by
  have h := congrArg Block.hdm (msix_rest b fn v)
  exact h
@[simp] theorem msix_quiescing (fn v : Nat) : (b.msix fn v).quiescing = b.quiescing := by
  have h := congrArg Block.quiescing (msix_rest b fn v)
  exact h
@[simp] theorem msix_invWaits (fn v : Nat) : (b.msix fn v).invWaits = b.invWaits := by
  have h := congrArg Block.invWaits (msix_rest b fn v)
  exact h
@[simp] theorem msix_ide (fn v : Nat) : (b.msix fn v).ide = b.ide := by
  have h := congrArg Block.ide (msix_rest b fn v)
  exact h

/-! Units after an event. -/

@[simp] theorem chan_raise (page bit : Nat) (part : Option Nat) (x y : Nat) (extra : List Nat) (c : Nat) : (b.raise page bit part x y extra).chan c = b.chan c := by
  simp [Block.chan]
@[simp] theorem part_raise (page bit : Nat) (part : Option Nat) (x y : Nat) (extra : List Nat) (c : Nat) : (b.raise page bit part x y extra).part c = b.part c := by
  simp [Block.part]
@[simp] theorem grant_raise (page bit : Nat) (part : Option Nat) (x y : Nat) (extra : List Nat) (c : Nat) : (b.raise page bit part x y extra).grant c = b.grant c := by
  simp [Block.grant]
@[simp] theorem arr_raise (page bit : Nat) (part : Option Nat) (x y : Nat) (extra : List Nat) (c : Nat) : (b.raise page bit part x y extra).arr c = b.arr c := by
  simp [Block.arr]
@[simp] theorem vec_raise (page bit : Nat) (part : Option Nat) (x y : Nat) (extra : List Nat) (c : Nat) : (b.raise page bit part x y extra).vec c = b.vec c := by
  simp [Block.vec]
@[simp] theorem mbx_raise (page bit : Nat) (part : Option Nat) (x y : Nat) (extra : List Nat) (c : Nat) : (b.raise page bit part x y extra).mbx c = b.mbx c := by
  simp [Block.mbx]
@[simp] theorem sem_raise (page bit : Nat) (part : Option Nat) (x y : Nat) (extra : List Nat) (c : Nat) : (b.raise page bit part x y extra).sem c = b.sem c := by
  simp [Block.sem]
@[simp] theorem run_raise (page bit : Nat) (part : Option Nat) (x y : Nat) (extra : List Nat) (c : Nat) : (b.raise page bit part x y extra).run c = b.run c := by
  simp [Block.run]
@[simp] theorem evq_raise (page bit : Nat) (part : Option Nat) (x y : Nat) (extra : List Nat) (c : Nat) : (b.raise page bit part x y extra).evq c = b.evq c := by
  simp [Block.evq]
@[simp] theorem slot_raise (page bit : Nat) (part : Option Nat) (x y : Nat) (extra : List Nat) (c : Nat) : (b.raise page bit part x y extra).slot c = b.slot c := by
  simp [Block.slot]
@[simp] theorem image_raise (page bit : Nat) (part : Option Nat) (x y : Nat) (extra : List Nat) (c : Nat) : (b.raise page bit part x y extra).image c = b.image c := by
  simp [Block.image]
@[simp] theorem cart_raise (page bit : Nat) (part : Option Nat) (x y : Nat) (extra : List Nat) (c : Nat) : (b.raise page bit part x y extra).cart c = b.cart c := by
  simp [Block.cart]
@[simp] theorem fold_raise (page bit : Nat) (part : Option Nat) (x y : Nat) (extra : List Nat) (c : Nat) : (b.raise page bit part x y extra).fold c = b.fold c := by
  simp [Block.fold]
@[simp] theorem draft_raise (page bit : Nat) (part : Option Nat) (x y : Nat) (extra : List Nat) (c d : Nat) : (b.raise page bit part x y extra).draft c d = b.draft c d := by
  simp [Block.draft]
@[simp] theorem mc_raise (page bit : Nat) (part : Option Nat) (x y : Nat) (extra : List Nat) (t : Tier) (k : Nat) : (b.raise page bit part x y extra).mc t k = b.mc t k := by
  simp [Block.mc]
@[simp] theorem byte_raise (page bit : Nat) (part : Option Nat) (x y : Nat) (extra : List Nat) (a : Nat) : (b.raise page bit part x y extra).byte a = b.byte a := by
  simp [Block.byte]

/-! Registers after an event. -/

@[simp] theorem reg_emit (v : Out) (p o : Nat) : (b.emit v).reg p o = b.reg p o := rfl
@[simp] theorem regN_emit (v : Out) (p o : Nat) : (b.emit v).regN p o = b.regN p o := rfl
@[simp] theorem regN_reply (rq : Req) (code status : Nat) (ws : List Word) (p o : Nat) : (b.reply rq code status ws).regN p o = b.regN p o := rfl
@[simp] theorem fld_reply (rq : Req) (code status : Nat) (ws : List Word) (p o l n : Nat) : (b.reply rq code status ws).fld p o l n = b.fld p o l n := rfl

/-- An event writes its page's BLK_EVENT and, where it is FATAL, DEV_STATE and DEV_FATAL_CAUSE; no other register. -/
theorem reg_raise_ne (page bit : Nat) (part : Option Nat) (x y : Nat) (extra : List Nat) {p o : Nat}
    (h : regKey page 0x014 ≠ regKey p o) (h0 : regKey devPage 0x040 ≠ regKey p o) (h4 : regKey devPage 0x044 ≠ regKey p o) :
    (b.raise page bit part x y extra).reg p o = b.reg p o := by
  have hs (c : Block) (q off l n v : Nat) (hh : regKey q off ≠ regKey p o) : (c.setFld q off l n v).reg p o = c.reg p o :=
    reg_setReg_ne c _ hh
  unfold Block.raise
  dsimp only
  by_cases hs3 : severity page bit = 3
  · rw [if_pos hs3]
    unfold Block.platformEvent
    rw [reg_emit, show pageOf .dev 0 = devPage from rfl, hs _ _ _ _ _ _ h0]
    generalize (_ != 5) = q
    cases q
    · exact hs b page 0x014 _ _ _ h
    · refine (reg_setReg_ne _ _ h4).trans ?_
      exact hs b page 0x014 _ _ _ h
  · rw [if_neg hs3]
    exact hs b page 0x014 _ _ _ h

/-- The same of register numbers and fields. -/
theorem regN_raise_ne (page bit : Nat) (part : Option Nat) (x y : Nat) (extra : List Nat) {p o : Nat}
    (h : regKey page 0x014 ≠ regKey p o) (h0 : regKey devPage 0x040 ≠ regKey p o) (h4 : regKey devPage 0x044 ≠ regKey p o) :
    (b.raise page bit part x y extra).regN p o = b.regN p o := by
  unfold Block.regN; rw [reg_raise_ne b page bit part x y extra h h0 h4]

theorem fld_raise_ne (page bit : Nat) (part : Option Nat) (x y : Nat) (extra : List Nat) {p o : Nat} (l n : Nat)
    (h : regKey page 0x014 ≠ regKey p o) (h0 : regKey devPage 0x040 ≠ regKey p o) (h4 : regKey devPage 0x044 ≠ regKey p o) :
    (b.raise page bit part x y extra).fld p o l n = b.fld p o l n := by
  unfold Block.fld; rw [regN_raise_ne b page bit part x y extra h h0 h4]

/-- The event's bit is set. -/
theorem raise_bit (page bit : Nat) (part : Option Nat) (x y : Nat) (extra : List Nat) (hb : bit < 32) :
    (b.raise page bit part x y extra).fld page 0x014 bit 1 = 1 := by
  have h0 : regKey devPage 0x040 ≠ regKey page 0x014 := fun h => by
    have := ((regKey_inj (by decide) (by decide)).1 h).2
    exact absurd this (by decide)
  have h4 : regKey devPage 0x044 ≠ regKey page 0x014 := fun h => by
    have := ((regKey_inj (by decide) (by decide)).1 h).2
    exact absurd this (by decide)
  have key : (b.raise page bit part x y extra).regN page 0x014 = (b.setFld page 0x014 bit 1 1).regN page 0x014 := by
    unfold Block.raise
    dsimp only
    by_cases hs3 : severity page bit = 3
    · rw [if_pos hs3]
      unfold Block.platformEvent
      rw [regN_emit, show pageOf .dev 0 = devPage from rfl,
        regN_setFld_ne _ _ _ _ h0]
      generalize (_ != 5) = q
      cases q
      · rfl
      · exact regN_setN_ne _ _ h4
    · rw [if_neg hs3]
      rfl
  have := fld_setFld_same b page 0x014 bit 1 1 (by omega)
  unfold Block.fld at this ⊢
  rw [key]
  exact this.trans (by decide)

end Sys2Proof.Machine
end

