-- ==== Sys2Proof/Tests/Slice0.lean ====
section
/-!
SUPPORT. Tests: well-formedness refuses what the interface cannot carry; for every statement with hypotheses, small states that meet them;
and a few values worked out by hand from the spec's tables.
-/

set_option Elab.async false

namespace Sys2Proof.Machine

open Sys2Proof

/-- The reset state with another block. -/
def st (f : Block → Block) : State := { State.reset with block := f Block.reset }

/-- Leaf 0: virtual function 0, arrays 0 and 1, Cart engine 0, port 0, sequencer 0, channel 0 enabled, 16 semaphores, 64 KiB of each bay and of
the yard, and its grant loaded; every domain is on and ready. -/
def oneLeaf (b : Block) : Block :=
  let hold : Holding := ⟨3, 1, 1, 1, [0x10000, 0, 0, 0], [0, 0, 0, 0]⟩
  let b := b.setPart 0 { Part.none with present := true, leaf := true, top := 0, vf := some 0, hold := hold }
  let b := b.setGrant 0
    { Grant.none with
        loaded := true, arrays := 3, bayBytes := 0x10000, yardBytes := [0x10000, 0, 0, 0], channels := [0], semBase := 0, semCount := 16
        counters := 8, entitle := 31, ports := 1, folds := [(0, 0)] }
  let b := (b.setChan 0 { Chan.none with owner := some 0 }).chanEnable 0
  ((b.setN (partPage 0) 0x0C0 3).setN (pageOf .power 0) 0x050 0xFFFFF).setN (pageOf .power 0) 0x04C 0xFFFFF

/-- Every controller of both tiers serves. -/
def serving (b : Block) : Block :=
  (List.range 32).foldl (fun b k => (b.setFld (pageMc .near k) 0x044 0 3 2).setFld (pageMc .deep k) 0x044 0 3 2) b

/-- A rule record of one rule with working-copy format 1. -/
def ruleWord (rule : Nat) : BitVec 512 := BitVec.ofNat 512 (rule + 16)

/-- A command that is answered as function 0's through mailbox 0. -/
def rq0 : Req := ⟨0, 5, .pf⟩

/-- `n` numbers. -/
def zeros (n : Nat) : List Byte := List.replicate n 0

/-- A carriage from fields (byte, low bit, value). -/
def word (fs : List (Nat × Nat × Nat)) : Carriage := BitVec.ofNat 1024 ((fs.map fun q => q.2.2 * 2 ^ (8 * q.1 + q.2.1)).sum)

/-- A carriage at the read pointer of channel 0, its first check passed or not. -/
def atRing (w : Carriage) (ok : Bool) (b : Block) : Block :=
  let b := { b with rings := storePutList memDefault b.rings 0 (toBytes 128 w.toNat) }
  (b.setN (chanPage 0) 0x04C 1).setChan 0 { b.chan 0 with headOk := ok }

/-- A flight of leaf 0 from channel 0 on an engine. -/
def flight (w : Carriage) (e : Nat) : Flight := flightNew 0 0 w e 0 false false

/-- Leaf 0 with one carriage in flight. -/
def flying (w : Carriage) (e : Nat) (b : Block) : Block := { oneLeaf b with flights := [flight w e] }

/-- A flight of no draft runs where it is the oldest picked, no line it touches waits for the host and every channel it touches serves. -/
theorem runs_of {b : Block} {sel : Flight → Bool} {i : Nat} {f : Flight} (h1 : b.flights.findIdx? sel = some i) (h2 : b.flights[i]? = some f)
    (h3 : f.ctx.draft = none)
    (h4 : b.snoopFor f.part (b.sides f.part f.word) = (b, true) ∧ b.sidesHeld (b.sides f.part f.word) = false) : Runs b sel i f :=
  ⟨h1, h2, fun d h => by simp [h3] at h, h4⟩

/-- A carriage of no draft dispatches where it is at the read pointer, passed its check, and neither held nor refused. -/
theorem dispatches_of {b : Block} {c p : Nat} {w : Carriage} {t : Nat} (h1 : b.atHead c = some (p, w)) (h2 : (b.chan c).headOk = true)
    (h3 : cType w = t) (h4 : b.held c p w = false) (h5 : b.refusal p c w = none) (h6 : cDraft w = false) : Dispatches b c p w t :=
  ⟨h1, h2, h3, h4, h5, fun h => by simp [h6] at h⟩


/-! Registers. -/

theorem test_event_registers :
    pageKind 0x0400 = some (.chan, 0) ∧ (st oneLeaf).block.fld 0x0400 0x01C 0 1 = 0 ∧
    (st oneLeaf).block.pageRef (.vf 0) 0x0400 = .page 0x0400 ∧ (st oneLeaf).block.mayWrite (.vf 0) .chan 0 0x014 = true ∧
    (regWordAt .chan 0 0x014).map (fun w => halfMask w w.row.w1c) = some 3 := by decide +kernel

theorem test_event_registers_overflow_bit :
    pageKind 0x0100 = some (.array, 0) ∧ (st oneLeaf).block.pageRef .steward 0x0100 = .page 0x0100 ∧
    (st oneLeaf).block.mayWrite .steward .array 0 0x084 = true ∧
    (regWordAt .array 0 0x084).map (fun w => halfMask w w.row.w1c) = some (2 ^ 31) ∧ 0xFF8 % 8 = 0 ∧ 0xFF8 < 0x1000 := by decide +kernel

theorem test_writes_elsewhere :
    (st oneLeaf).block.pageRef .pf 0x3FFF = .absent ∧ (st oneLeaf).block.pageRef (.vf 0) 0x0401 = .absent ∧
    (st oneLeaf).block.pageRef .pf 0x0400 = .page 0x0400 ∧ (regWordAt .chan 0 0x04C).all (fun w => halfMask w w.row.rw == 0 &&
      halfMask w w.row.w1c == 0 && halfMask w w.row.wo == 0) = true ∧ (regWordAt .chan 0 0xFFC).isNone = true ∧
    goodWidth 2 4 = false ∧ goodWidth 0 2 = false ∧ goodWidth 0xFFC 8 = false := by decide +kernel

theorem test_locked_pages :
    pageKind 0x0400 = some (.chan, 0) ∧ (st oneLeaf).block.pageRef .steward 0x0400 = .page 0x0400 ∧ (1 : Word).toNat % 2 = 1 ∧
    (st fun b => (oneLeaf b).setN 0x0400 0x01C 1).block.pageRef (.vf 0) 0x0400 = .page 0x0400 ∧
    (st fun b => (oneLeaf b).setN 0x0400 0x01C 1).block.fld 0x0400 0x01C 0 1 = 1 := by decide +kernel

theorem test_halves :
    ((st oneLeaf).block.wordRef (.vf 0) 0x0090 0x080).map (fun q => (q.2.2.upper, q.2.2.row.wide, q.2.2.row.rc)) = some (false, true, false) ∧
    ((st oneLeaf).block.wordRef (.vf 0) 0x0090 0x084).map (fun q => q.2.2.upper) = some true ∧
    ((st oneLeaf).block.wordRef .steward 0x004F 0x248).map (fun q => (q.2.2.upper, q.2.2.row.wide, q.2.2.row.rc)) = some (false, true, true) ∧
    (st oneLeaf).block.latched (.vf 0) 0x0090 0x084 = none ∧ (st oneLeaf).block.wordRef .steward (partPage 63) 0x248 ≠ none := by decide +kernel

theorem test_reads_that_clear :
    (st oneLeaf).block.pageRef .steward (pageMc .deep 31) = .page (pageMc .deep 31) ∧
    (st oneLeaf).block.pageRef (.vf 0) (pageMc .near 0) = .absent ∧ (st oneLeaf).block.pageRef (.vf 0) (pageOf .part 0) = .page (pageOf .part 0) ∧
    ((st oneLeaf).block.wordRef (.vf 0) 0x0010 0x238).map (fun q => (q.2.2.upper, q.2.2.row.rc)) = some (false, true) := by decide +kernel

/-- R14: what hardware adds in the cycle of the read is what the next read returns. -/
theorem test_read_then_update :
    ((Block.reset.setN 0x0010 0x238 7).read32 .steward 0x0010 0x238 (some 2)).2 = 7 ∧
    (((Block.reset.setN 0x0010 0x238 7).read32 .steward 0x0010 0x238 (some 2)).1.read32 .steward 0x0010 0x238 none).2 = 2 := by decide +kernel

theorem test_absent_blocks :
    (st oneLeaf).block.pageRef (.vf 0) 0x0401 = .absent ∧ (st oneLeaf).block.pageRef (.vf 1) 0x0010 = .absent := by decide +kernel

/-! Counters and events. -/

theorem test_counters :
    (st oneLeaf).block.mayPerf (.vf 0) 0 0x040 = true ∧ (st oneLeaf).block.mayPerf (.vf 0) 0 0x11C = true := by decide +kernel

/-- Leaf 0 with an event queue of 64 records in its bay, its holdoff 3 µs, vector 2. -/
def queued (b : Block) : Block :=
  (((oneLeaf b).setN 0x0090 0x044 (1 + 2 ^ 7 + 2 * 2 ^ 8 + 3 * 2 ^ 19)).set64 0x0090 0x048 0xFE0000000000).setEvq 0 EvQueue.none

theorem test_queue_starts :
    (st oneLeaf).block.mayPerf (.vf 0) 0 0x044 = true ∧ (st oneLeaf).block.qEnabled (some 0) = false ∧
    fieldOf (1 + 10 * 2) 1 4 ≤ 10 := by decide +kernel

theorem test_queue_takes_record :
    let b : Block := { queued Block.reset with events := [⟨0, 0x0400, 1, 2, some 0, 1, 0, 0, [some 0]⟩] }
    b.events = [⟨0, 0x0400, 1, 2, some 0, 1, 0, 0, [some 0]⟩] ∧ b.qEnabled (some 0) = true ∧ b.qCredits (some 0) = 64 ∧ (b.evq 0).lost = 0 ∧
    b.qWhere (some 0) (b.reg64 (perfPage 0) 0x048 + 32 * (b.regN (perfPage 0) 0x050 % b.qSize (some 0))) = .dev 0xFE0000000000 := by decide +kernel

theorem test_queue_reads_consumer :
    let b := (queued Block.reset).setN 0x0090 0x050 64
    b.qEnabled (some 0) = true ∧ b.qCredits (some 0) = 0 ∧ (b.evq 0).lastRead = 0 ∧
    (b.qGet (some 0) (b.reg64 (perfPage 0) 0x048 + 32 * b.qSize (some 0)) 8).map Prod.snd = some (zeros 8) := by decide +kernel

theorem test_queue_fires :
    let b := ((queued Block.reset).setEvq 0 { EvQueue.none with covered := true }).setN (msixCtrlPage 1) 0 1
    (b.evq 0).covered = true ∧ (b.evq 0).holdEnd ≤ b.now ∧ b.fld (perfPage 0) 0x044 7 1 = 1 ∧ b.fnOf 0 = 1 ∧
    bitOf (b.regN (msixCtrlPage 1) 0) 0 = true ∧ bitOf (b.regN (msixCtrlPage 1) 0) 1 = false := by decide +kernel

theorem test_module_queue :
    let b := (Block.reset.setN devPage 0x200 1).set64 devPage 0x208 0xFF0000000000
    (0xFF0000000000 % 4096 = 0 ∧ (regionOf 0xFF0000000000).isSome = true ∧ (1 : Word).toNat < 2 ^ 27 ∧ fieldOf 1 1 4 ≤ 10) ∧
    (⟨0, 5, .steward⟩ : Req).by_ ≠ .pf ∧ b.qEnabled none = true ∧ b.qCredits none ≠ 0 ∧ (b.evq 64).lost = 0 ∧
    b.qWhere none (b.reg64 devPage 0x208 + 32 * (b.regN devPage 0x210 % b.qSize none)) = .dev 0xFF0000000000 := by decide +kernel

/-! Mailboxes. -/

/-- Mailbox 0 in queue mode. -/
def queueMbx (b : Block) : Block := b.setN (mbxPage 0) 0x040 1

theorem test_mailbox_requests :
    Block.reset.mbxOwner .pf 0 = true ∧ Block.reset.mbxQueue 0 = false ∧ (Block.reset.mbx 0).reqFull = false ∧
    ((Block.reset.setMbx 0 { Mailbox.none with reqFull := true }).mbx 0).reqFull = true ∧
    (queueMbx Block.reset).mbxOwner .pf 0 = true ∧ (queueMbx Block.reset).mbxQueue 0 = true ∧
    ((queueMbx Block.reset).mbx 0).reqQ.length = 0 ∧
    (((queueMbx Block.reset).setMbx 0 { Mailbox.none with reqQ := List.replicate 16 1 }).mbx 0).reqQ.length = 16 := by decide +kernel

theorem test_mailbox_takes :
    Block.reset.mbxExists 0 = true ∧ (Block.reset.mbx 0).taken.length < 8 ∧
    (let b := (queueMbx Block.reset).setMbx 0 { Mailbox.none with reqQ := [0x10071, 9] }
     b.mbxExists 0 = true ∧ b.mbxQueue 0 = true ∧ 1 + headLen ((b.mbx 0).reqQ.headD 0) ≤ (b.mbx 0).reqQ.length) ∧
    (let b := Block.reset.setMbx 0 { Mailbox.none with replies := [⟨0x71, 5, 0, [0]⟩] }
     (b.mbx 0).replies = [⟨0x71, 5, 0, [0]⟩] ∧ b.mbxQueue 0 = false ∧ (b.mbx 0).rplFull = false ∧
     (b.mbx 0).rplQ.length + (Reply.words' ⟨0x71, 5, 0, [0]⟩).length ≤ 16) := by decide +kernel

theorem test_mailbox_replies_read :
    (let b := Block.reset.setMbx 0 { Mailbox.none with rplFull := true }
     b.mbxOwner .pf 0 = true ∧ b.mbxQueue 0 = false ∧ b.mbxAck 0 = false ∧ (b.mbx 0).rplFull = true ∧ b.mbxRegs 0 - 1 < b.mbxRegs 0) ∧
    (let b := (queueMbx Block.reset).setMbx 0 { Mailbox.none with rplQ := [7, 8], rplLeft := 2 }
     b.mbxOwner .pf 0 = true ∧ b.mbxQueue 0 = true ∧ (b.mbx 0).rplQ = 7 :: [8] ∧ (b.mbx 0).rplLeft ≠ 0) := by decide +kernel

theorem test_mailbox_changes_hands :
    (st oneLeaf).block.pageRef .pf (mbxPage 2) = .page (mbxPage 2) ∧ (st oneLeaf).block.mayWrite .pf .mbx 2 0x040 = true ∧
    ((st oneLeaf).block.mbx 2).reqFull = false ∧ ((st oneLeaf).block.mbx 2).reqQ = [] ∧ fieldOf 0 1 2 ≠ 3 ∧
    ((st fun b => b.setMbx 0 { Mailbox.none with rplFull := true }).block.mbx 0).rplFull = true ∧
    rq0.mbx.val ≠ 63 ∧ ((st oneLeaf).block.part 0).present = true ∧ ((st oneLeaf).block.part 0).leaf = true ∧
    (st oneLeaf).block.resetting 0 = false := by decide +kernel

/-! Channels, semaphores, drafts. -/

theorem test_channels :
    (st oneLeaf).block.chanOf (.vf 0) 0 = some 0 ∧ (st oneLeaf).block.chanState 0 ≠ 0 ∧ (st oneLeaf).block.accepting = true ∧
    (st oneLeaf).block.published 0 63 = false ∧ 96 + (zeros 32).length ≤ 128 ∧ (st oneLeaf).block.chanPageOf (.vf 0) 0 = some 0 ∧
    (st oneLeaf).block.mayWrite (.vf 0) .chan 0 0x044 = true ∧ (st oneLeaf).block.chanState 0 ≠ 3 ∧
    (let b := (atRing (word []) false (oneLeaf Block.reset)).setChanState 0 3
     b.chanPageOf (.vf 0) 0 = some 0 ∧ b.mayWrite (.vf 0) .chan 0 0x044 = true ∧ b.chanState 0 = 3 ∧ b.rdPtr 0 ≠ b.wrPtr 0) := by decide +kernel

/-- R166: 64 slots ahead are published, 65 are an overrun. -/
theorem test_doorbell_boundary :
    ((oneLeaf Block.reset).doorbell 0 64).chanState 0 = 1 ∧ ((oneLeaf Block.reset).doorbell 0 65).chanState 0 = 3 ∧
    ((oneLeaf Block.reset).doorbell 0 65).wrPtr 0 = 0 := by decide +kernel

theorem test_first_check :
    let b := atRing (word [(0, 0, 8), (0x10, 0, 1), (0x18, 0, 1)]) false (oneLeaf Block.reset)
    b.atHead 0 = some (0, word [(0, 0, 8), (0x10, 0, 1), (0x18, 0, 1)]) ∧ (b.chan 0).headOk = false := by decide +kernel

/-- R174: a SIGNAL whose ADD is 0 or above 2³¹ holds a reserved encoding; 2³¹ itself does not. -/
theorem test_signal_add_bounds :
    (oneLeaf Block.reset).refusal 0 0 (word [(0, 0, 8), (0x10, 0, 1)]) = some 1 ∧
    (oneLeaf Block.reset).refusal 0 0 (word [(0, 0, 8), (0x10, 0, 1), (0x18, 0, 2 ^ 31 + 1)]) = some 1 ∧
    (oneLeaf Block.reset).refusal 0 0 (word [(0, 0, 8), (0x10, 0, 1), (0x18, 0, 2 ^ 31)]) = none := by decide +kernel

theorem test_dispatch_chain :
    Dispatches (atRing (word [(0, 0, 3), (0x10, 8, 0)]) true (oneLeaf Block.reset)) 0 0 (word [(0, 0, 3)]) 3 :=
  dispatches_of (by decide +kernel) (by decide +kernel) (by decide +kernel) (by decide +kernel) (by decide +kernel) (by decide +kernel)

theorem test_dispatch_idle :
    Dispatches (atRing (word []) true (oneLeaf Block.reset)) 0 0 (word []) 0 :=
  dispatches_of (by decide +kernel) (by decide +kernel) (by decide +kernel) (by decide +kernel) (by decide +kernel) (by decide +kernel)

theorem test_complete :
    (st fun b => { b with flights := [{ flight (word [(0, 11, 1), (12, 8, 5)]) 0 with rows := true }] }).block.flights =
      [{ flight (word [(0, 11, 1), (12, 8, 5)]) 0 with rows := true }] ∧
    (flight (word [(0, 11, 1), (12, 8, 5)]) 0).chan = (0 : Fin 256).val ∧
    ({ flight (word [(0, 11, 1), (12, 8, 5)]) 0 with rows := true } : Flight).done = true := by decide +kernel

theorem test_signal :
    Dispatches (atRing (word [(0, 0, 8), (0x10, 0, 1), (0x14, 0, 15), (0x18, 0, 2)]) true (oneLeaf Block.reset)) 0 0
      (word [(0, 0, 8), (0x10, 0, 1), (0x14, 0, 15), (0x18, 0, 2)]) 8 ∧
    (atRing (word [(0, 0, 8), (0x10, 0, 1), (0x14, 0, 15), (0x18, 0, 2)]) true (oneLeaf Block.reset)).fenceWaits 0 1 true = false :=
  ⟨dispatches_of (by decide +kernel) (by decide +kernel) (by decide +kernel) (by decide +kernel) (by decide +kernel) (by decide +kernel),
    by decide +kernel⟩

theorem test_wait :
    Dispatches (atRing (word [(0, 0, 9), (0x14, 0, 1)]) true (oneLeaf Block.reset)) 0 0 (word [(0, 0, 9), (0x14, 0, 1)]) 9 :=
  dispatches_of (by decide +kernel) (by decide +kernel) (by decide +kernel) (by decide +kernel) (by decide +kernel) (by decide +kernel)

theorem test_fence :
    Dispatches (atRing (word [(0, 0, 7), (0x10, 0, 1)]) true (oneLeaf Block.reset)) 0 0 (word [(0, 0, 7), (0x10, 0, 1)]) 7 :=
  dispatches_of (by decide +kernel) (by decide +kernel) (by decide +kernel) (by decide +kernel) (by decide +kernel) (by decide +kernel)

/-- R171: a wait is met when v − T, as a signed number, is 0 or more. -/
theorem test_wait_is_signed :
    semMet 5 5 = true ∧ semMet 4 5 = false ∧ semMet 0 0xFFFFFFFF = true ∧ semMet 0x80000000 0 = false := by decide +kernel

theorem test_draft_begin :
    Dispatches (atRing (word [(0, 0, 0x0A), (12, 0, 3), (0x10, 0, 1)]) true
      ((oneLeaf Block.reset).setGrant 0 { (oneLeaf Block.reset).grant 0 with draftBytes := 0x100000 })) 0 0
      (word [(0, 0, 0x0A), (12, 0, 3), (0x10, 0, 1)]) 0x0A :=
  dispatches_of (by decide +kernel) (by decide +kernel) (by decide +kernel) (by decide +kernel) (by decide +kernel) (by decide +kernel)

/-- Leaf 0 with draft 3 in a state, closed by `w` if it is. -/
def drafting (x : DraftState) (w : Option Carriage) (b : Block) : Block :=
  let b := oneLeaf b
  (b.setGrant 0 { b.grant 0 with draftBytes := 0x100000, commitWord := (List.range 32).map (64 * ·) }).setDraft 0 3
    { Draft.none with state := x, pageLimit := 4, closing := w, semCount := 1, semValues := [7] }

theorem test_draft_commit :
    Dispatches (atRing (word [(0, 0, 0x0B), (12, 0, 3)]) true (drafting .open_ none Block.reset)) 0 0 (word [(0, 0, 0x0B), (12, 0, 3)]) 0x0B :=
  dispatches_of (by decide +kernel) (by decide +kernel) (by decide +kernel) (by decide +kernel) (by decide +kernel) (by decide +kernel)

theorem test_draft_discard :
    Dispatches (atRing (word [(0, 0, 0x0C), (12, 0, 3)]) true (drafting .open_ none Block.reset)) 0 0 (word [(0, 0, 0x0C), (12, 0, 3)]) 0x0C :=
  dispatches_of (by decide +kernel) (by decide +kernel) (by decide +kernel) (by decide +kernel) (by decide +kernel) (by decide +kernel)

theorem test_draft_ends :
    (let b := drafting .spoiled (some (word [(0, 0, 0x0B), (12, 0, 3)])) Block.reset
     (b.draft 0 3).closing = some (word [(0, 0, 0x0B), (12, 0, 3)]) ∧ (b.draft 0 3).state = .spoiled ∧
     (b.flights.any fun f => f.part == 0 && cDraftOf f.word == some 3) = false) ∧
    (let b := drafting .open_ (some (word [(0, 0, 0x0C), (12, 0, 3)])) Block.reset
     (b.draft 0 3).state = .open_ ∧ cType (word [(0, 0, 0x0C), (12, 0, 3)]) = 0x0C) ∧
    (let w := word [(0, 0, 0x0B), (12, 0, 3)]
     let b := drafting .open_ (some w) Block.reset
     (b.draft 0 3).closing = some w ∧ (b.draft 0 3).state = .open_ ∧ cType w = 0x0B ∧ cb w 0x10 0 = false ∧
     (b.grant 0).commitWord.getD 3 0 + 8 ≤ (b.grant 0).commitWord.getD 19 0) ∧
    ((drafting .committing (some (word [(0, 0, 0x0B), (12, 0, 3)])) Block.reset).draft 0 3).state = .committing ∧
    (let w := word [(0, 0, 0x0C), (12, 0, 3)]
     let b := drafting .discarding (some w) Block.reset
     (b.draft 0 3).closing = some w ∧ (b.draft 0 3).state = .discarding ∧ cb w 0x20 30 = false ∧ (b.draft 0 3).semValues[0]? = some 7) := by
  decide +kernel

/-! Arrays and vector engines. -/

/-- A STREAM of one row in flight on array 0, whose slot 0 holds a tile of format 0. -/
def streaming (w : Carriage) (b : Block) : Block := (flying w 0 b).setFld (arrayPage 0) 0x044 4 1 1

theorem test_stream_runs :
    Runs (streaming (word [(0, 0, 1)]) Block.reset) (fun f => streamSel 0 f && decide (f.row < (streamOf f.word).rows)) 0
      (flight (word [(0, 0, 1)]) 0) :=
  runs_of (by decide +kernel) (by decide +kernel) (by decide +kernel) (by decide +kernel)

theorem test_stream_row :
    let w := word [(0, 0, 1), (0x10, 20, 2)]
    let b := streaming w Block.reset
    let f := flight w 0
    let c := streamOf w
    b.flights.findIdx? (fun f => streamSel 0 f && decide ((streamOf f.word).rows ≤ f.row)) = none ∧
    b.arrayRuns 0 = true ∧ b.slotPending 0 0 c.slot = false ∧ b.rowsWait 0 0 c = false ∧ (b.tile 0 c.slot).isSome = true ∧
    (b.tile 0 c.slot).map (fun t => widthClass t.fmt) = some (widthClass c.aFmt) ∧ c.aRing = 0 ∧ c.writesRows = false ∧
    c.writesTrans = false ∧ f.skid = [] ∧ b.skidOthers 0 0 < 16 ∧ b.skidFirst 0 0 = true ∧ f.row + 1 = c.rows ∧ c.entry + c.rows ≤ 256 ∧
    f.faulted = false ∧
    (match (b.servedFor f).streamInput { f with started := true } 0 c 0 with
      | (b1, .ok row) => !anyMark row && (match b1.streamScales { f with started := true } 0 c 0 with
        | (_, .ok sc) => !anyMark sc
        | _ => false)
      | _ => false) = true ∧
    (match (b.mark (0xFE0000000000 / 64) true).streamInput { f with started := true } 0 c 0 with
      | (_, .ok row) => anyMark row
      | _ => false) = true := by decide +kernel

theorem test_stream_ends :
    let w := word [(0, 0, 1), (0x10, 20, 1)]
    let b := streaming w Block.reset
    let f := { flight w 0 with started := true }
    b.ringsStart 0 f (streamRings 0 (streamOf w)) = some f ∧ f.ringPos = [] ∧
    (match b.tile 0 0 with
      | some t => (match (b.servedFor f).streamRows f 0 (streamOf w) t (16 - b.skidOthers 0 0) true 1 ⟨0, [], .done⟩ with
        | (b1, q) => decide (q = ⟨1, [], .done⟩) && decide (0 < b1.flights.length) && b1.skidFirst 0 0)
      | none => false) = true := by decide +kernel

/-- A STREAM of array 0 with all its rows broadcast and a transposed block to write. -/
def transposing : Flight := { flight (word [(0, 0, 1), (0x10, 20, 3), (0x10, 23, 1)]) 0 with started := true, row := 1 }

theorem test_stream_writes_out :
    let b := { oneLeaf Block.reset with flights := [transposing] }
    let c := streamOf transposing.word
    c.rows ≤ transposing.row ∧ c.writesTrans = true ∧
    b.flights.findIdx? (fun f => streamSel 0 f && decide ((streamOf f.word).rows ≤ f.row)) = some 0 ∧
    b.flights.findIdx? (fun f => streamSel 0 f && decide (f.row < (streamOf f.word).rows)) = none ∧ b.arrayRuns 0 = true ∧ transposing.skid = [] ∧
    (match (b.servedFor transposing).transRows transposing 0 c 128 0 with
      | (b1, k, .done) => decide (k = 128) && decide (0 < b1.flights.length)
      | _ => false) = true := by decide +kernel

theorem test_slot_load :
    Runs (flying (word [(0, 0, 1), (0x48, 0, 1), (0x48, 2, 2)]) 0 Block.reset) (fun f => f.engine == 0 && cType f.word == 0x01 && !f.loads) 0
      (flight (word [(0, 0, 1), (0x48, 0, 1), (0x48, 2, 2)]) 0) :=
  runs_of (by decide +kernel) (by decide +kernel) (by decide +kernel) (by decide +kernel)

theorem test_slot_load_sources :
    let w := word [(0, 0, 1), (0x48, 0, 1), (0x48, 8, 4)]
    let b := flying w 0 Block.reset
    let f' := { flight w 0 with started := true }
    let c := streamOf w
    b.arrayRuns 0 = true ∧ b.slotBusy 0 0 (1 - c.slot) = false ∧ c.slot < 2 ∧ c.lSrc = 0 ∧
    (match b.rawTile f' c with
      | (b1, .inl rows) => !rows.any anyMark && (match b1.tileScales f' c with
        | (_, .ok sc) => !anyMark sc
        | _ => false)
      | _ => false) = true := by decide +kernel

theorem test_slot_load_inbox :
    let w := word [(0, 0, 1), (0x48, 0, 1), (0x48, 8, 4), (0x48, 2, 2)]
    let f := { flight w 0 with started := true, buf := List.replicate 16320 (0, false) }
    let b := { oneLeaf Block.reset with flights := [f] }.setArr 0 { ArrayUnit.none with inbox := List.replicate 64 (7, false) }
    let c := streamOf w
    c.lSrc = 2 ∧ f.buf.length ≤ 16384 ∧ 16384 ≤ f.buf.length + (b.arr 0).inbox.length / 64 * 64 ∧ b.slotBusy 0 0 (1 - c.slot) = false ∧
    ((b.inboxPump 0).arr 0).inbox = (b.arr 0).inbox.drop (16384 - f.buf.length) := by decide +kernel

theorem test_fold :
    let w := word [(0, 0, 2), (0x14, 0, 1)]
    let b := flying w (engFold 0) Block.reset
    b.fold 0 = none ∧ b.flights.find? (fun f => f.engine == engFold 0 && !f.done) = some (flight w (engFold 0)) := by decide +kernel

/-- A FOLD of one group of one tile on array 0 in flight, taken by sequencer 0. -/
def folding (x : FoldRun) : Block := (flying x.word (engFold 0) Block.reset).setFold 0 (some x)
def foldWord : Carriage := word [(0, 0, 2), (0x14, 0, 1)]

theorem test_fold_runs :
    let b := folding ⟨foldWord, false, 0, 0, 0, []⟩
    b.fold 0 = some ⟨foldWord, false, 0, 0, 0, []⟩ ∧ b.foldUnits 0 (foldOf foldWord) = [0] ∧ [0].all b.arrayIdle = true ∧
    0 < ceilDiv (foldOf foldWord).rows 256 ∧ ((foldOf foldWord).parts 1) = 1 := by decide +kernel

theorem test_fold_is_oldest :
    Runs (folding ⟨foldWord, false, 0, 0, 0, []⟩) (fun f => f.engine == engFold 0 && f.word == foldWord && !f.done) 0
      (flight foldWord (engFold 0)) :=
  runs_of (by decide +kernel) (by decide +kernel) (by decide +kernel) (by decide +kernel)

theorem test_fold_goes_on :
    let x : FoldRun := ⟨foldWord, true, 1, 0, 0, [0]⟩
    let b := (folding x).setFld (arrayPage 0) 0x044 2 1 1
    let f := flight foldWord (engFold 0)
    x.begun = true ∧ f.faulted = false ∧ (b.foldUnits f.part (foldOf f.word)).all b.foldReady = true ∧
    (match (b.servedFor f).foldTiles (b.foldJob f) 2 x with
      | (b1, x', ok) => ok && decide (x'.group = 1) && decide (0 < b1.flights.length)) = true := by decide +kernel

/-- A VCHAIN of one row of one element and one stage in flight on vector engine 0. -/
def chain : Carriage := word [(0, 0, 3)]

theorem test_chain_runs :
    Runs (flying chain (engVec 0) Block.reset) (fun f => f.engine == engVec 0 && cType f.word == 0x03 && !f.done) 0 (flight chain (engVec 0)) :=
  runs_of (by decide +kernel) (by decide +kernel) (by decide +kernel) (by decide +kernel)

theorem test_chain_row :
    let b := flying chain (engVec 0) Block.reset
    let f := { flight chain (engVec 0) with started := true }
    let c := chainOf chain
    let v := VecRow.start c
    b.arrayRuns 0 = true ∧ b.ringsStart 0 f (chainRings 0 c) = some f ∧ (chainUsed c).all (fun x => x.v.ring == 0) = true ∧ c.dEn = false ∧
    c.rowEn = false ∧ c.bEn = false ∧ c.maskEn = false ∧ f.row + 1 = c.rows ∧
    (match gather (b.servedFor f) [fun b => b.chainRead f c.engine 0 (chainA c) 0 (elemBytes c.aFmt (c.first v.beat)) (elemBytes c.aFmt (c.count v.beat)),
        fun b => b.chainScales f 0 c 0 (c.first v.beat) (c.count v.beat), fun b => (b, .ok []), fun b => (b, .ok [])] with
      | (b1, some r) => decide (r.length = 4) && decide (0 < b1.flights.length)
      | _ => false) = true ∧
    (match (b.servedFor f).chainBeats 0 c 1 f with
      | (b1, g, .done) => decide (g.row = 1) && decide (0 < b1.flights.length)
      | _ => false) = true := by decide +kernel

theorem test_contexts :
    (oneLeaf Block.reset).ctxFree 127 = true ∧
    (let b := (Block.reset.setFld (arrayPage 5) 0x044 0 2 2).setN (arrayPage 5) 0x05C 2
     b.arrayState 5 = 2 ∧ b.regN (arrayPage 5) 0x05C = 2) ∧ Block.reset.arrayState 0 = 0 := by decide +kernel

theorem test_context_of_fold :
    let x : FoldRun := ⟨foldWord, true, 0, 0, 0, [0]⟩
    let b := (folding x).setFld (arrayPage 0) 0x044 2 1 1
    b.ctxFree 0 = true ∧ b.foldHeld 0 = true ∧ b.foldOn 0 = some 0 ∧ b.foldFlight 0 = some (0, flight foldWord (engFold 0)) ∧
    b.foldUnits 0 (foldOf foldWord) = [0] ∧ (oneLeaf Block.reset).foldHeld 0 = false ∧ (oneLeaf Block.reset).foldOn 0 = none ∧
    (oneLeaf Block.reset).imageMarked ((oneLeaf Block.reset).ctxAddr 0) = false := by decide +kernel

theorem test_parity :
    Block.reset.arrayState 127 ≠ 3 ∧ (Block.reset.setFld (arrayPage 127) 0x044 0 2 3).arrayState 127 = 3 ∧
    (let b := (Block.reset.setFld (arrayPage 3) 0x00C 0 1 1).setArr 3 { ArrayUnit.none with parityAt := [9, 5] }
     b.fld (arrayPage 3) 0x00C 0 1 = 1 ∧ b.arrayState 3 ≠ 3 ∧ 2 ≤ (b.arr 3).parityAt.length) ∧
    (let b := Block.reset.setFld (arrayPage 3) 0x00C 0 1 1
     b.fld (arrayPage 3) 0x00C 0 1 = 1 ∧ (b.arr 3).parityAt.length < 2 ∧ (b.arr 3).lentTo = none) := by decide +kernel

/-- Leaf 1 with one fill slot of field 0 and 64 KiB of fill bytes, its record allowing fills; leaf 0's record allows lends, in WARMUP. -/
def lending (b : Block) : Block :=
  let b := oneLeaf b
  let b := b.setPart 0 { b.part 0 with record := word [(0x68, 0, 1)] }
  let b := b.setPart 1
    { Part.none with
        present := true, leaf := true, top := 1, vf := some 1, hold := ⟨0, 0, 0, 0, [0, 0, 0, 0], [1, 0, 0, 0]⟩
        record := word [(0x34, 0, 65536), (0x68, 1, 1)] }
  let b := (b.setGrant 1 { Grant.none with loaded := true }).setN (partPage 1) 0x0C0 2
  ((b.setN (partPage 0) 0x0C0 2).setFld (partPage 0) 0x200 7 1 1).setN (partPage 0) 0x204 1

theorem test_lend_ends :
    (let b := (Block.reset.setArr 5 { ArrayUnit.none with lentTo := some ⟨1, 0, 0, none⟩ }).setFld (arrayPage 5) 0x044 0 2 2
     (b.arr 5).lentTo = some ⟨1, 0, 0, none⟩ ∧ b.arrayState 5 = 2 ∧ (b.slot (slotKey 1 0 0)).bound = none) ∧
    (let b := Block.reset.setArr 5 { ArrayUnit.none with lentTo := some ⟨1, 0, 0, some 7⟩ }
     (b.arr 5).lentTo = some ⟨1, 0, 0, some 7⟩ ∧ (0 < 64 ∧ 1 < 64)) := by decide +kernel

/-! Memory. -/

theorem test_memory_regions :
    inRegion 0x3BFFFFFFFF 1 = true ∧ inRegion 0x3BFFFFFFFF 2 = false ∧ inRegion 0x3C00000000 1 = false ∧ regionOf 0x010000000000 = some .deep ∧
    inRegion 0x800000000000 4 = true ∧ regionOf 0x800000000000 = some .host ∧ inRegion 0xFE0000000000 64 = true ∧
    regionOf 0xFF0007FFFFFF = some .yard := by decide +kernel

theorem test_memory_admitted :
    Admitted Block.reset .steward 0xFE0000000000 (.read 4) ∧ Admitted Block.reset .steward 0xFE0000000000 (.write (zeros 64) true) ∧
    Admitted (serving Block.reset) .steward 0x3BFFFFFFFF (.read 1) ∧ Admitted (serving Block.reset) .steward 0x1000 (.write (zeros 64) true) ∧
    Admitted (oneLeaf Block.reset) (.part 0 none) 0x3C00000000 (.read 1) ∧
    Block.reset.accessWait .steward 0x1000 (.read 1) none = some .service :=
  ⟨⟨by decide, by decide +kernel⟩, ⟨by decide, by decide +kernel⟩, ⟨by decide +kernel, by decide +kernel⟩,
    ⟨by decide +kernel, by decide +kernel⟩, ⟨by decide +kernel, by decide +kernel⟩, by decide +kernel⟩

theorem test_memory_partition :
    let b := oneLeaf Block.reset
    Admitted b (.part 0 none) 0xFE0000000000 (.read 4) ∧ b.xl ⟨0, none⟩ 0xFE0000000000 false = .dev 0xFE0000000000 ∧
    (b.accessPieces (.part 0 none) 0xFE0000000000 (.read 4)).all (fun q => q.2.2 != .bad && q.2.2 != .outside) = true ∧
    (match b.readV ⟨0, none⟩ 0xFE0000000000 4 with
      | (_, .ok bs) => decide (bs.length = 4)
      | _ => false) = true ∧
    b.xl ⟨0, none⟩ 0 false = .bad ∧ b.xl ⟨0, none⟩ 0x3C00000000 false = .outside ∧
    b.accessWait (.part 0 none) 0x1000 (.read 1) none = some .translation :=
  ⟨⟨by decide +kernel, by decide +kernel⟩, by decide +kernel, by decide +kernel, by decide +kernel, by decide +kernel, by decide +kernel,
    by decide +kernel⟩

theorem test_memory_errors :
    tierOf 0x3BFFFFFFFF = some .near ∧ inRegion 0x3BFFFFFFFF 1 = true ∧
    (let b := (serving Block.reset).setFld (pageMc .deep 31) 0x044 3 1 1
     b.mcState .deep 31 = 2 ∧ b.fld (pageMc .deep 31) 0x044 3 1 = 1 ∧ 5 < chanGranules .deep ∧ tierOf (chanAddr .deep 31 (64 * 5)) = some .deep) := by
  decide +kernel

theorem test_tiers :
    (serving Block.reset).mcState .near 31 = 2 ∧ ((serving Block.reset).setFld (pageMc .near 31) 0x044 3 1 1).fld (pageMc .near 31) 0x044 3 1 = 1 ∧
    (let b := (oneLeaf Block.reset).setFld devPage 0x040 0 3 1
     b.domainReady 16 = true ∧ b.domainReady 17 = true ∧ b.fld devPage 0x040 0 3 = 1 ∧ b.mcState .near 0 = 0) ∧
    (Block.reset.setFld devPage 0x040 0 3 3).fld devPage 0x040 0 3 = 3 := by decide +kernel

/-- A controller of the near tier that holds a write of line 64 since time 0. -/
def slotted (b : Block) : Block := (serving b).setMc .near 0 { McUnit.none with slots := [⟨none, 4096, 64, false, 0⟩] }

theorem test_controllers :
    (let b := { slotted Block.reset with now := 30000 }
     b.mcState .near 0 = 2 ∧ (b.mc .near 0).slots = [⟨none, 4096, 64, false, 0⟩] ∧ (0 : Fin 128).val = bankOfLine .near 64 ∧ 0 + 20000 < b.now ∧
     bitOf (b.regN (pageMc .near 0) (0x050 + 4 * (0 / 32))) (0 % 32) = false) ∧
    (let b := { serving Block.reset with now := 100000000 }.setMc .near 0 { McUnit.none with slowSince := [(63, 0)] }
     ((b.mc .near 0).slowSince.any fun q => q.1 == 63 && decide (q.2 + 100000000 ≤ b.now)) = true) ∧
    ({ Block.reset with invWaits := [(0, rq0, 0x20)] } : Block).invWaits = [(0, rq0, 0x20)] ∧ Block.reset.invPending 0 = false ∧
    ({ (serving Block.reset).setMc .deep 5 { McUnit.none with slots := [⟨some 0, 4096, 64, false, 0⟩] } with xlInvs := [(0, 1)] } : Block).invPending 0 = true ∧
    (serving Block.reset).recs = [] := by decide +kernel

theorem test_translation_misses :
    (oneLeaf Block.reset).xlHit 4 0 .near (3 * 2 ^ 21) = false ∧
    ((oneLeaf Block.reset).setXlCache 4 [⟨0, .near, false, 3⟩]).xlHit 4 0 .near ((oneLeaf Block.reset).fillOffset 0 .near 3) = true ∧
    (let r : MemReq := ⟨.part 0 none, 0, .read 4, .none, 0, .translation⟩
     let b := { (oneLeaf (serving Block.reset)) with memQ := [r] }
     b.fillOffset 0 .near 0 = 0 ∧ b.xlHit 4 0 .near (b.fillOffset 0 .near 0) = false ∧
     (b.xlMiss 4 0 .near (b.fillOffset 0 .near 0)).accessWait r.who r.va r.op (some (0, .near, 0)) = none) := by decide +kernel

/-- R204: the near tier spreads 4 KiB pages by three fields of the address, the deep tier by one. -/
theorem test_channel_of :
    channelOf .near 0x1000 = 1 ∧ channelOf .near 0x20000 = 1 ∧ channelOf .near 0x421000 = 1 ^^^ 1 ^^^ 1 ∧
    channelOf .deep 0x01000001F000 = 31 ∧ channelOf .deep 0x010000020000 = 0 := by decide +kernel

/-! Cart engines, rings, drain compressors. -/

/-- A CART of one row of 4 bytes in mode `m`, from bay 0 offset 0 to bay 1 offset 0. -/
def cart (m : Nat) (more : List (Nat × Nat × Nat)) : Carriage :=
  word ([(0, 0, 4), (0x10, 6, m), (0x14, 0, 3), (0x20, 0, 0xFE0000000000), (0x28, 0, 0xFE0000200000)] ++ more)

/-- A CART's row is all it moves, where its carriage is the oldest of its engine. -/
theorem oneRow_of {b : Block} {e i : Nat} {f : Flight} {m : Nat} (h : Runs b (fun f => f.engine == engCart e && !f.done) i f)
    (h2 : cDraft f.word = false ∧ f.started = false ∧ f.chained = false ∧ f.buf = [] ∧ f.ringPos = [] ∧ f.plane = 0 ∧ f.row = 0 ∧ f.faulted = false ∧
      (cartOf f.word).mode = m ∧ (cartOf f.word).rows = 1 ∧ (cartOf f.word).planes = 1 ∧ (cartOf f.word).dstKind = 0 ∧
      (cartOf f.word).codec = 0 ∧ (cartOf f.word).pass = false ∧ (cartOf f.word).srcRing = 0 ∧ (cartOf f.word).dstRing = 0) : OneRow b e i f m :=
  ⟨h, h2⟩

theorem test_cart_row_copy : OneRow (flying (cart 0 []) (engCart 0) Block.reset) 0 0 (flight (cart 0 []) (engCart 0)) 0 :=
  oneRow_of (runs_of (by decide +kernel) (by decide +kernel) (by decide +kernel) (by decide +kernel)) (by decide +kernel)

theorem test_cart_row_gather :
    OneRow (flying (cart 1 [(0x40, 0, 0xFE0000001000), (0x50, 0, 0xFE0000000000), (0x58, 0, 0x1000)]) (engCart 0) Block.reset) 0 0
      (flight (cart 1 [(0x40, 0, 0xFE0000001000), (0x50, 0, 0xFE0000000000), (0x58, 0, 0x1000)]) (engCart 0)) 1 :=
  oneRow_of (runs_of (by decide +kernel) (by decide +kernel) (by decide +kernel) (by decide +kernel)) (by decide +kernel)

theorem test_cart_row_scatter :
    OneRow (flying (cart 2 [(0x40, 0, 0xFE0000001000), (0x50, 0, 0xFE0000200000), (0x58, 0, 0x1000)]) (engCart 0) Block.reset) 0 0
      (flight (cart 2 [(0x40, 0, 0xFE0000001000), (0x50, 0, 0xFE0000200000), (0x58, 0, 0x1000)]) (engCart 0)) 2 :=
  oneRow_of (runs_of (by decide +kernel) (by decide +kernel) (by decide +kernel) (by decide +kernel)) (by decide +kernel)

theorem test_cart_row_fill : OneRow (flying (cart 3 []) (engCart 0) Block.reset) 0 0 (flight (cart 3 []) (engCart 0)) 3 :=
  oneRow_of (runs_of (by decide +kernel) (by decide +kernel) (by decide +kernel) (by decide +kernel)) (by decide +kernel)

theorem test_cart_places :
    let b := flying (cart 1 [(0x40, 0, 0xFE0000001000), (0x50, 0, 0xFE0000000000), (0x58, 0, 0x1000)]) (engCart 0) Block.reset
    LiesAt b 0 0xFE0000000000 4 false 0xFE0000000000 ∧ LiesAt b 0 0xFE0000200000 4 true 0xFE0000200000 ∧
    LiesAt b 0 0xFE0000001000 4 false 0xFE0000001000 ∧ anyMark (b.getM 0xFE0000001000 4) = false ∧ b.num 0xFE0000001000 4 = 0 :=
  ⟨⟨by decide, by decide +kernel, by decide +kernel⟩, ⟨by decide, by decide +kernel, by decide +kernel⟩,
    ⟨by decide, by decide +kernel, by decide +kernel⟩, by decide +kernel, by decide +kernel⟩

theorem test_cart_index_beyond :
    let c := cartOf (cart 1 [(0x40, 0, 0xFE0000001000), (0x50, 0, 0xFE0000000000), (0x58, 0, 0x1000), (0x30, 0, 0x1000)])
    let b := (oneLeaf Block.reset).putNum 0xFE0000001000 4 1
    b.num 0xFE0000001000 4 = 1 ∧ c.winBase + c.winLen < c.src + b.num 0xFE0000001000 4 * c.srcStride + c.rowBytes := by decide +kernel

theorem test_cart_many_rows :
    let w := cart 0 []
    let f := { flight w (engCart 0) with started := true, ringPos := [(0, 0)] }
    let b := { oneLeaf Block.reset with flights := [f] }
    let c := cartOf w
    f.ringPos ≠ [] ∧ c.dstKind = 0 ∧ f.faulted = false ∧
    (match b.cartRows ⟨0, 0, c⟩ (b.cartSide 0 c.src c.srcRing true) (b.cartSide 0 c.dst c.dstRing false)
        (c.rows * c.planes - f.plane * c.rows - f.row) f with
      | (b1, f1, .done) => decide (0 < b1.flights.length) && !f1.faulted
      | _ => false) = true := by decide +kernel

theorem test_run_ahead :
    let w := word [(0, 0, 4), (0x14, 0, 4095), (0x20, 0, 0), (0x50, 0, 0), (0x58, 0, 8192)]
    let b := (oneLeaf Block.reset).setCart 0 { CartUnit.none with last := some w, raStop := false }
    let c := cartOf w
    (b.cart 0).last = some w ∧ c.mode = 0 ∧ c.codec = 0 ∧ c.pass = false ∧ c.srcRing = 0 ∧ c.winLen ≠ 0 ∧ regionOf c.src = some .near ∧
    ceilDiv (c.planeSide c.src c.srcStride c.srcPStride false).hi 4096 * 4096 = 4096 ∧ c.winBase + c.winLen = 4096 + 4096 ∧
    (b.cart 0).broken = false ∧ (b.cart 0).raStop = false ∧ (b.cart 0).staged = [] ∧ b.mayFetch 0 4096 = false := by decide +kernel

/-- Leaf 0 with one page of the near tier, readable and writable, its table at device address 0. -/
def oneNear (b : Block) : Block :=
  ((oneLeaf b).putNum 0 8 (7 + 2 ^ 22)).setN (partPage 0) 0x108 1

theorem test_run_ahead_fetches :
    let b := (oneNear (serving Block.reset)).setCart 0 { CartUnit.none with raStop := false }
    b.mayFetch 0 4096 = true ∧ (match b.readPiece ⟨0, none⟩ 4096 4096 with
      | (_, .ok bs) => decide (bs.length = 4096)
      | _ => false) = true := by decide +kernel

theorem test_rings :
    let b := oneLeaf Block.reset
    let v := 2 ^ 20 + 0 * 2 ^ 9
    b.arrayPageOf (.vf 0) 0 (ringOff 1 0) = some 0 ∧ b.arrayPageOf (.vf 0) 1 (ringOff 7 0) = some 1 ∧ b.ringInUse 0 1 = false ∧
    bitOf v 20 = true ∧ fieldOf v 18 2 ≠ 3 ∧ fieldOf v 0 9 * 4096 + (fieldOf v 9 9 + 1) * 4096 ≤ baySize ∧
    fieldOf v 0 9 * 4096 + (fieldOf v 9 9 + 1) * 4096 ≤ b.bayBytesOf 0 := by decide +kernel

theorem test_ring_release :
    let w := word [(0, 0, 1), (0x1C, 21, 1)]
    let f := { flight w 0 with started := true }
    let b := { oneLeaf Block.reset with flights := [f] }
    b.flights.filter (fun f => f.started && b.namesRing 0 (0 + 1) f) = [f] ∧ cType f.word = 1 := by decide +kernel

theorem test_drain_compressor :
    (let b := oneLeaf Block.reset
     b.arrayPageOf (.vf 0) 0 0x180 = some 0 ∧ fieldOf 1 5 3 < 4 ∧ bitOf (b.regN (arrayPage 0) 0x180) 0 = false ∧ bitOf 1 0 = true) ∧
    (let b := (oneLeaf Block.reset).setArr 0 { ArrayUnit.none with pzBytes := [(1, false)] }
     (b.arr 0).pzBytes.length ≤ 4096 ∧ (b.arr 0).pzBytes ≠ []) := by decide +kernel


/-! Steps. -/

theorem test_num_snap_place :
    (oneLeaf Block.reset).pageRef (.vf 0) (pageOf .perf 0) = .page (pageOf .perf 0) ∧ (oneLeaf Block.reset).mayWrite (.vf 0) .perf 0 0x3F0 = true ∧
    Block.reset.pageRef .steward (pageOf .perf 63) = .page (pageOf .perf 63) ∧ Block.reset.mayWrite .steward .perf 63 0x3F0 = true := by decide +kernel

theorem test_step_reg_place :
    (oneLeaf Block.reset).pageRef (.vf 0) (partPage 0) = .page (partPage 0) ∧ 0x200 ∈ stepOffsets ∧ 0x264 ∈ stepOffsets ∧
    (oneLeaf Block.reset).mayWrite (.vf 0) .part 0 0x204 = true ∧ (regWordAt .part 0 0x204).isSome = true ∧
    (oneLeaf Block.reset).stepDeferred 0 0x204 = false ∧ ((oneLeaf Block.reset).run 0).gov = [] ∧
    (oneLeaf Block.reset).regN (partPage 0) 0x204 = 0 ∧
    ((oneLeaf Block.reset).setN (partPage 0) 0x204 1).stepDeferred 0 0x208 = true := by decide +kernel

theorem test_step_reg_eight :
    let s := st oneLeaf
    goodWidth 0x200 8 = true ∧ 0x204 ∈ stepOffsets ∧
    (match exec (.stepRegWrite (.vf 0) 0 0x200 4 0x100000041) s with
      | .next t => (match exec (.stepRegWrite (.vf 0) 0 0x204 4 1) t with
        | .next u => u.block.regN (partPage 0) 0x204 == 1 && u.block.regN (partPage 0) 0x200 == 0x41
        | _ => false)
      | _ => false) = true := by decide +kernel

/-- A PRUNE of leaf 0. -/
def prune (fs : List (Nat × Nat × Nat)) : Carriage := word ([(0, 0, 5)] ++ fs)

/-- ACCUM of block 0 into bay 0 from FP32 at offset 0x1000, with SSQ. -/
def accum : Carriage := prune [(0x10, 0, 0x30), (0x48, 0, 0xFE0000000000), (0x68, 0, 0xFE0000001000)]

theorem test_accum_runs :
    Runs (flying accum (engPrune 0) Block.reset) (pruneSel 0 0) 0 (flight accum (engPrune 0)) ∧
    HasTurn (flying accum (engPrune 0) Block.reset) 0 (flight accum (engPrune 0)) :=
  ⟨runs_of (by decide +kernel) (by decide +kernel) (by decide +kernel) (by decide +kernel), by unfold HasTurn; decide +kernel⟩

theorem test_accum :
    let b := flying accum (engPrune 0) Block.reset
    let f := flight accum (engPrune 0)
    let c := pruneOf f.word
    c.first = false ∧ f.faulted = false ∧ cDraft f.word = false ∧ c.nblk = 1 ∧ c.srcEn = true ∧ c.ssq = true ∧ c.srcFmt = 0 ∧
    LiesAt b f.part c.src 4096 false 0xFE0000001000 ∧ LiesAt b f.part (pieceAddr c.accum 4096 c.g0) 4096 false 0xFE0000000000 ∧
    LiesAt b f.part (pieceAddr c.accum 4096 c.g0) 4096 true 0xFE0000000000 ∧ anyMark (b.getM 0xFE0000001000 4096) = false ∧
    anyMark (b.getM 0xFE0000000000 4096) = false :=
  ⟨by decide +kernel, by decide +kernel, by decide +kernel, by decide +kernel, by decide +kernel, by decide +kernel, by decide +kernel,
    ⟨by decide, by decide +kernel, by decide +kernel⟩, ⟨by decide, by decide +kernel, by decide +kernel⟩,
    ⟨by decide, by decide +kernel, by decide +kernel⟩, by decide +kernel, by decide +kernel⟩

theorem test_accum_blocks :
    let b := flying accum (engPrune 0) Block.reset
    let f := flight accum (engPrune 0)
    let c := pruneOf f.word
    (match ((b.servedFor f).noteAccum 0 c).accumBlocks f.ctx c c.nblk c.g0 with
      | (b1, _, .done) => decide (0 < b1.flights.length)
      | _ => false) = true := by decide +kernel

/-- UPDATE of block 0 at step 1, its rule record, master, first moment, accumulator and stamp in bay 0. -/
def update : Carriage :=
  prune [(0x10, 0, 1), (0x14, 0, 1), (0x28, 0, 0xFE0000004000), (0x30, 0, 0xFE0000000000), (0x38, 0, 0xFE0000005000), (0x48, 0, 0xFE0000002000),
    (0x50, 0, 0xFE0000001000)]

/-- The update has started. -/
def updating (rule : Nat) : Flight := { flight update (engPrune 0) with started := true, rule := ruleWord rule, next := List.replicate 32 0 }

theorem test_ledger_block :
    let f := updating 0
    let b := { oneLeaf Block.reset with flights := [f] }
    let c := pruneOf f.word
    f.next.length = 32 ∧ b.prunerTurn 0 0 = true ∧ b.passWaits f.ctx c f.ruleRec (f.blockOf 0) = false ∧
    (match (b.servedFor f).updateBlock f.ctx c f.ruleRec f.clip (f.blockOf 0) with
      | (b1, .done) => decide (0 < b1.flights.length)
      | _ => false) = true := by decide +kernel

theorem test_ledger_block_runs :
    Runs { oneLeaf Block.reset with flights := [updating 0] } (updateSel 0) 0 (updating 0) :=
  runs_of (by decide +kernel) (by decide +kernel) (by decide +kernel) (by decide +kernel)

theorem test_ledger_block_skips :
    let f := updating 1
    let b := { (oneLeaf Block.reset).putNum 0xFE0000001000 4 1 with flights := [f] }
    let c := pruneOf f.word
    f.next.length = 32 ∧ cDraft f.word = false ∧ f.ruleRec.rule ≠ 0 ∧ b.passWaits f.ctx c f.ruleRec (f.blockOf 0) = false ∧
    LiesAt b f.part (pieceAddr c.stamp 4 (f.blockOf 0)) 4 false 0xFE0000001000 ∧ anyMark (b.getM 0xFE0000001000 4) = false ∧
    b.num 0xFE0000001000 4 = c.step :=
  ⟨by decide +kernel, by decide +kernel, by decide +kernel, by decide +kernel, ⟨by decide, by decide +kernel, by decide +kernel⟩,
    by decide +kernel, by decide +kernel⟩

/-- Leaf 0 with the update of block 0 under rule 1 in flight; the parts of the block are zero. -/
def ledgered : Block := { oneLeaf Block.reset with flights := [updating 1] }

/-- The block's entry and its new values. -/
def ledgerEntry : Entry := ledgered.entryOf 0 (pruneOf update) (updating 1).ruleRec 0 0 [zeros 4096, zeros 2048, zeros 4096]
def ledgerStored : Stored :=
  stored (updating 1).ruleRec (fun _ => 0) (newBlock (updating 1).ruleRec (updating 1).clip [zeros 4096, zeros 2048, zeros 4096])

theorem test_ledger_block_ready :
    let f := updating 1
    let c := pruneOf update
    f.blockOf 0 = 0 ∧ ledgered.passWaits f.ctx c f.ruleRec 0 = false ∧ f.ruleRec.rule = 1 ∧ f.ruleRec.conv = 0 ∧ c.wcEn = false ∧
    c.shadowEn = false ∧ (pruneWrites c f.ruleRec 0).all (fun q => ledgered.firstBad f.ctx true q.1 q.2 == none) = true ∧
    ledgered.unretired 0 = 0 ∧ ledgered.nextSeq 0 = 1 ∧ ledgerEntry.addrs = [0xFE0000000000, 0xFE0000005000, 0, 0xFE0000001000] := by
  decide +kernel

theorem test_ledger_block_reads :
    (match (ledgered.servedFor (updating 1)).readAll ⟨0, none⟩ [(0xFE0000001000, 4)] with
      | (b1, .ok [sb]) => ofBytes sb == 0 && (match b1.readAll ⟨0, none⟩ (pruneReads (pruneOf update) (updating 1).ruleRec 0) with
        | (_, .ok bss) => bss == [zeros 4096, zeros 2048, zeros 4096]
        | _ => false)
      | _ => false) = true := by decide +kernel

/-- A block of zeros under rule 1: each of its parameters comes out the same. -/
theorem newBlock_zeros (r : RuleRec) (clip : Word) (bss : List (List Byte)) (hr : r.rule = 1) (hk : r.moments = 1)
    (hm : (unpackWords 4 (bss.getD 0 [])).map (BitVec.ofNat 32) = List.replicate 1024 0)
    (h1 : (unpackWords 2 (bss.getD 1 [])).map bfWord = List.replicate 1024 0)
    (ha : (unpackWords 4 (bss.getLastD [])).map (BitVec.ofNat 32) = List.replicate 1024 0) :
    newBlock r clip bss = List.replicate 1024 (r.apply clip 0 0 0 0) := by
  have z (i : Nat) : (List.replicate 1024 (0 : Word)).getD i 0 = 0 := by
    rw [List.getD_eq_getElem?_getD, List.getElem?_replicate]; split <;> rfl
  unfold newBlock
  simp only [hr, hk, show ¬(1 : Nat) = 4 by decide, show ¬(1 : Nat) = 2 by decide, show ¬(1 : Nat) = 0 by decide, if_false, if_true, Nat.le_refl,
    hm, h1, ha, z, List.getD_nil]
  rw [List.map_const', List.length_range]

/-- Such a block is finite where one of its parameters is. -/
theorem stored_finite (r : RuleRec) (x : NewParam) (n : Nat) (hr : r.rule = 1) (hk : r.moments = 1) (hc : r.conv = 0)
    (hw : isFinV (decF32 x.w) = true) (hm : bfFinite (convScalar 1 0 0 (decF32 x.m1)) = true) :
    (stored r (fun _ => 0) (List.replicate n x)).finite = true := by
  unfold stored toBf16 convVec
  simp only [hr, hk, hc, show isMx 1 = false from rfl, show ¬(1 : Nat) = 4 by decide, show ¬(1 : Nat) = 2 by decide, if_false, if_true, Nat.le_refl,
    List.map_replicate, List.all_nil, Bool.and_true, Bool.and_eq_true, List.all_eq_true, List.mem_map, Bool.false_eq_true]
  refine ⟨fun w h => (List.eq_of_mem_replicate h) ▸ hw, ?_⟩
  rintro c ⟨q, h, rfl⟩
  rw [List.eq_of_mem_replicate (List.fst_mem_of_mem_zipIdx h)]
  exact hm

theorem test_ledger_block_finite : ledgerStored.finite = true := by
  unfold ledgerStored
  rw [newBlock_zeros _ _ _ (by decide +kernel) (by decide +kernel) (by decide +kernel) (by decide +kernel) (by decide +kernel)]
  exact stored_finite _ _ _ (by decide +kernel) (by decide +kernel) (by decide +kernel) (by decide +kernel) (by decide +kernel)

theorem test_ledger_block_apart :
    ledgerStored.pieces.map List.length = [4096, 2048, 0] ∧
    Apart [(0xFE0000000000, 4096), (0xFE0000005000, 2048), (0xFE0000001000, 4), (ringAddr (ledgered.ringBase 0) 0 retiredOff, 64)] :=
  ⟨by decide +kernel, by unfold Apart; decide +kernel⟩

/-- Leaf 0 with an update in flight, the record of rule 1 and the stamp of its step where it names them. -/
def updated (b : Block) : Block := ((flying update (engPrune 0) b).putNum 0xFE0000004000 4 17).putNum 0xFE0000001000 4 1

theorem test_update_begins :
    let b := flying update (engPrune 0) ((Block.reset).putNum 0xFE0000004000 4 16)
    let f := flight update (engPrune 0)
    ((b.servedFor f).beginUpdate 0 { f with started := true }).2.isSome = true ∧
    (let b := updated Block.reset
     let c := pruneOf f.word
     let r := ruleOf (b.bytes 0xFE0000004000 64)
     f.part = 0 ∧ f.next = [] ∧ f.faulted = false ∧ cDraft f.word = false ∧ c.nblk = 1 ∧ c.step ≤ b.committed 0 + 1 ∧ c.normClip = false ∧
     c.rule = 0xFE0000004000 ∧ anyMark (b.getM 0xFE0000004000 64) = false ∧ r.good = true ∧ r.rule = 1 ∧ b.prunerTurn 0 (c.g0 % 32) = true ∧
     b.passWaits f.ctx c r c.g0 = false ∧ b.num 0xFE0000001000 4 = c.step) := by decide +kernel

theorem test_update_places :
    LiesAt (updated Block.reset) 0 0xFE0000004000 64 false 0xFE0000004000 ∧
    LiesAt (updated Block.reset) 0 (pieceAddr (pruneOf update).stamp 4 (pruneOf update).g0) 4 false 0xFE0000001000 ∧
    Runs (updated Block.reset) (pruneSel 0 1) 0 (flight update (engPrune 0)) :=
  ⟨⟨by decide, by decide +kernel, by decide +kernel⟩, ⟨by decide, by decide +kernel, by decide +kernel⟩,
    runs_of (by decide +kernel) (by decide +kernel) (by decide +kernel) (by decide +kernel)⟩

theorem test_update_runs :
    Runs (flying update (engPrune 0) ((Block.reset).putNum 0xFE0000004000 4 16)) (pruneSel 0 1) 0 (flight update (engPrune 0)) :=
  runs_of (by decide +kernel) (by decide +kernel) (by decide +kernel) (by decide +kernel)

/-- A deferred pass that is ready. -/
def deferred : Deferred := ⟨update, none, true⟩

/-- Draft 3 of leaf 0 holds it, under the record of `rule`, with the stamp `stamp`. -/
def holding (rule stamp : Nat) (b : Block) : Block :=
  (((oneLeaf b).putNum 0xFE0000004000 4 (16 + rule)).putNum 0xFE0000001000 4 stamp).setDraft 0 3 { Draft.none with deferred := [deferred] }

theorem test_deferred_pass :
    (let b := holding 0 0 Block.reset
     let c := pruneOf deferred.word
     (b.draft 0 3).deferred = [deferred] ∧ deferred.ready = true ∧ deferred.begun = none ∧
     b.snoopFor 0 (pruneSides c (ruleOf (b.peekV 0 c.rule 64)) false) = (b, true) ∧
     (match b.updateStart ⟨0, none⟩ c with
       | (b1, .go rule clip) =>
         decide ((b1.passBlocks ⟨0, none⟩ c (ruleOf (toBytes 64 rule.toNat)) clip c.nblk c.g0).2 = .done)
       | _ => false) = true) ∧
    (let b := holding 1 1 Block.reset
     let c := pruneOf deferred.word
     let r := ruleOf (b.bytes 0xFE0000004000 64)
     (b.draft 0 3).deferred = [deferred] ∧ b.hdmBase 0 = none ∧ c.nblk = 1 ∧ c.step ≤ b.committed 0 + 1 ∧ c.normClip = false ∧
     anyMark (b.getM 0xFE0000004000 64) = false ∧ r.good = true ∧ r.rule = 1 ∧ b.passWaits ⟨0, none⟩ c r c.g0 = false ∧
     anyMark (b.getM 0xFE0000001000 4) = false ∧ b.num 0xFE0000001000 4 = c.step) := by decide +kernel

/-- A deferred pass waits where its Pruner's journal has no room. -/
theorem test_deferred_pass_waits :
    let b := (holding 1 0 Block.reset).set64 (prunerPage 0) 0x058 17
    let c := pruneOf deferred.word
    (match b.updateStart ⟨0, none⟩ c with
      | (b1, .go rule clip) => (b1.passBlocks ⟨0, none⟩ c (ruleOf (toBytes 64 rule.toNat)) clip c.nblk c.g0).2
      | _ => .done) = .wait 0 := by decide +kernel

theorem test_ledger_recovery :
    ((oneLeaf Block.reset).setN (partPage 0) 0x2A0 1).fld (partPage 0) 0x2A0 0 1 = 1 := by decide +kernel

/-- The entry of an update of step 5 on PRUNER[0] is open: its master lies at 4096 and its stamp at 8192 of the deep tier. -/
def open_ : Entry :=
  ⟨0, 1, 5, 0, [0x010000001000, 0, 0, 0x010000002000], [zeros 4096, [], []], 4⟩
/-- Leaf 0 recovers its ledger with one entry open. -/
def ledgerLeaf : Block := ((oneLeaf Block.reset).set64 (prunerPage 0) 0x058 2).setN (partPage 0) 0x2A0 1

/-- The same with `h` as the entry's header. -/
def openLedger (h : List Byte) : Block := { ledgerLeaf with mem := storePutList memDefault [] 64 h }

theorem storeGetList_nil (i n : Nat) : storeGetList memDefault [] i n = List.replicate n 0 := by
  induction n generalizing i with
  | zero => rfl
  | succ n ih => rw [storeGetList, ih, List.replicate_succ]; rfl

theorem ofBytes_word (x : BitVec 32) : ofBytes (toBytes 4 x.toNat) = x.toNat := by
  rw [ofBytes_toBytes]; exact Nat.mod_eq_of_lt x.isLt

theorem open_head_length : (open_.head 1).length = 60 := by decide +kernel

theorem open_body : open_.body = zeros 4096 ++ zeros 4096 := by
  simp only [Entry.body, open_, List.getD_cons_zero, List.getD_cons_succ, padTo, zeros, List.nil_append, List.take_append,
    List.length_replicate, Nat.sub_self, List.take_replicate, Nat.min_self, List.append_assoc]
  rw [show min 0 4096 = 0 by decide, List.replicate_zero, List.nil_append, List.replicate_append_replicate]

theorem open_fields :
    let v := ofBytes (open_.head 1)
    v < 2 ^ 480 ∧ fieldOf v 0 64 = 1 ∧ fieldOf v 102 4 = 1 ∧ fieldOf v 96 6 = 0 ∧ fieldOf v 64 32 = 5 ∧ fieldOf v 128 64 = 0 ∧
    fieldOf v 192 64 = 0x010000001000 ∧ fieldOf v 256 64 = 0 ∧ fieldOf v 320 64 = 0 ∧ fieldOf v 384 64 = 0x010000002000 ∧ fieldOf v 448 32 = 4 := by decide +kernel

theorem open_sealed_length : (open_.sealed 1).length = 64 := by
  rw [Entry.sealed, List.length_append, length_toBytes, open_head_length]

theorem ringBase_mem (b : Block) (m : Store Byte) (k : Nat) : ({ b with mem := m } : Block).ringBase k = b.ringBase k := rfl

theorem ledger_ring (h : List Byte) : (openLedger h).ringBase 0 = 0 := by
  unfold openLedger
  rw [ringBase_mem]
  decide +kernel

theorem ledger_head (h : List Byte) (hl : h.length = 64) : (openLedger h).headAt 0 1 = h := by
  have := storeGetList_putList memDefault [] 64 h
  rw [hl] at this
  unfold Block.headAt
  rwa [ledger_ring, show ringAddr 0 0 (headOff 1) = 64 by decide +kernel]

theorem ledger_body (h : List Byte) (hl : h.length = 64) : (openLedger h).bodyAt 0 1 = open_.body := by
  have key (x : Nat) (hx : 128 ≤ x) : (openLedger h).bytes x 4096 = storeGetList memDefault [] x 4096 :=
    storeGetList_putList_apart memDefault [] 64 h x 4096 (.inr (by omega))
  unfold Block.bodyAt
  simp only [ledger_ring]
  rw [key _ (by decide +kernel), key _ (by decide +kernel), open_body]
  rw [storeGetList_nil, storeGetList_nil]
  rfl

theorem pow_bytes {n m : Nat} (h : 8 * n = m) : 256 ^ n = 2 ^ m := by
  subst h; exact (Nat.pow_mul 2 8 n).symm

theorem seal_word (v c : Nat) (h : v < 2 ^ 480) (hc : c < 2 ^ 32) : fieldOf (v + 2 ^ 480 * c) (8 * 0x3C) 32 = c := by
  rw [fieldOf_high _ _ _ _ h, Nat.mod_eq_of_lt hc]

theorem ledger_seals : (openLedger (open_.sealed 1)).sealedEntry 0 1 = some open_ := by
  have hc : ofBytes (open_.sealed 1) = ofBytes (open_.head 1) + 2 ^ 480 * (crc32c (open_.head 1 ++ open_.body)).toNat := by
    rw [Entry.sealed, ofBytes_append, ofBytes_word, open_head_length, pow_bytes (n := 60) (m := 480) rfl]
  have ht : (open_.sealed 1).take 0x3C = open_.head 1 := by
    rw [Entry.sealed]; exact List.take_left' open_head_length
  unfold Block.sealedEntry
  simp only [ledger_head _ open_sealed_length, ledger_body _ open_sealed_length, hc, ht]
  have hlt := (crc32c (open_.head 1 ++ open_.body)).isLt
  generalize (crc32c (open_.head 1 ++ open_.body)).toNat = c at *
  have e := open_fields
  simp only at e
  obtain ⟨e0, e1, e2, e3, e4, e5, e6, e7, e8, e9, e10⟩ := e
  generalize ofBytes (open_.head 1) = v at *
  rw [seal_word v c e0 hlt]
  have low (lo len : Nat) (h : lo + len ≤ 480) : fieldOf (v + 2 ^ 480 * c) lo len = fieldOf v lo len := fieldOf_low _ _ _ _ _ h
  rw [low 0 64 (by decide), low (8 * 0x0C + 6) 4 (by decide), low (8 * 0x0C) 6 (by decide), low (8 * 8) 32 (by decide),
    low (8 * 0x10) 64 (by decide), low (8 * 0x38) 32 (by decide)]
  rw [show (List.range 4).map (fun i => fieldOf (v + 2 ^ 480 * c) (8 * (0x18 + 8 * i)) 64) = open_.addrs by
    rw [show List.range 4 = [0, 1, 2, 3] from rfl]
    simp only [List.map_cons, List.map_nil]
    rw [low (8 * (0x18 + 8 * 0)) 64 (by decide), low (8 * (0x18 + 8 * 1)) 64 (by decide), low (8 * (0x18 + 8 * 2)) 64 (by decide),
      low (8 * (0x18 + 8 * 3)) 64 (by decide)]
    exact congr (congrArg _ e6) (congr (congrArg _ e7) (congr (congrArg _ e8) (congr (congrArg _ e9) rfl)))]
  simp only [e1, e2, e3, e4, e5, e10]
  rw [show List.take (if (decide (1 = 4) || decide (1 = 0xE)) = true then 2048 else 4096) open_.body = zeros 4096 by
    rw [open_body, if_neg (by decide)]
    exact List.take_left' List.length_replicate, if_pos (by decide), if_pos (show open_.addrs.getD 1 0 = 0 from rfl),
    if_pos (show open_.addrs.getD 2 0 = 0 from rfl)]
  rfl

/-- What the recovery of leaf 0 asks of a block beside the entry itself. -/
def Recoverable (b : Block) : Prop :=
  b.fld (partPage 0) 0x2A0 0 1 = 1 ∧ b.openSeqs 0 = [1] ∧ (∀ k, k < 32 → k ≠ 0 → b.unretired k = 0) ∧ b.ringFailed 0 = false ∧
  b.entryPoisoned 0 1 = false ∧ b.committed 0 < open_.step

theorem recoverable_mem (b : Block) (m : Store Byte) : Recoverable { b with mem := m } ↔ Recoverable b := Iff.rfl

theorem test_ledger_recovery_restores :
    Recoverable (openLedger (open_.sealed 1)) ∧ (openLedger (open_.sealed 1)).sealedEntry 0 1 = some open_ ∧ open_.part = 0 ∧
    open_.addrs.getD 3 0 ≠ 0 ∧ Apart [(0x010000001000, 4096), (0x010000002000, 4), (ringAddr 0 0 retiredOff, 64)] :=
  ⟨(recoverable_mem ledgerLeaf _).2 ⟨by decide +kernel, by decide +kernel, by decide +kernel, by decide +kernel, by decide +kernel,
    by decide +kernel⟩, ledger_seals, rfl, by decide, by unfold Apart; decide +kernel⟩

/-! The norm tree and the commit. -/

/-- Leaf 0 in a norm tree: STEP_CTRL is `ctrl`, its record goes to the start of bay 0, its step's parameters are at their least. -/
def inTree (ctrl : Nat) (b : Block) : Block :=
  (((oneLeaf b).setN (partPage 0) 0x200 ctrl).set64 (partPage 0) 0x210 0xFE0000000000).setN (partPage 0) 0x220 1

/-- NORM_CLOSE of step 1. -/
def normClose : Carriage := prune [(0x10, 0, 2), (0x14, 0, 1)]

theorem test_norm_close_runs : Runs (flying normClose (engPrune 0) Block.reset) (pruneSel 0 2) 0 (flight normClose (engPrune 0)) :=
  runs_of (by decide +kernel) (by decide +kernel) (by decide +kernel) (by decide +kernel)

theorem test_norm_close :
    let b := { inTree 1 Block.reset with flights := [flight normClose (engPrune 0)] }
    ((b.flights.take 0).any fun q => pruneSel 0 0 q) = false ∧ b.normEn 0 = true ∧ (pruneOf normClose).step = b.stepNow 0 ∧
    (b.run 0).norm.terms.any (fun q => q.1.isNone) = false := by decide +kernel

theorem test_norm_send :
    (let b := (inTree 1 Block.reset).setNorm 0 { NormUnit.none with terms := [(none, 5)] }
     b.normEn 0 = true ∧ b.normWhole 0 = true ∧ b.isRoot 0 = false ∧ (b.run 0).norm.record = none ∧ (b.run 0).norm.sentAt = none) ∧
    (let b := ((inTree 1 Block.reset).setRun 0 { LeafRun.none with norm := { NormUnit.none with terms := [(none, 5)], sentAt := some 3 }, toldNorm := true })
     b.normWhole 0 = true ∧ (b.run 0).norm.record = none ∧ (b.run 0).toldNorm = true) ∧
    (let b := (inTree 7 Block.reset).setNorm 0 { NormUnit.none with terms := [(none, 5), (some 9, 2)] }
     b.normEn 0 = true ∧ b.normWhole 0 = true ∧ b.isRoot 0 = true ∧ (b.run 0).norm.record = none ∧
     LiesAt b 0 (b.reg64 (partPage 0) 0x210) 16 true 0xFE0000000000) :=
  ⟨by decide +kernel, by decide +kernel, by decide +kernel, by decide +kernel, by decide +kernel, by decide +kernel,
    ⟨by decide, by decide +kernel, by decide +kernel⟩⟩

theorem test_norm_value :
    let b := inTree 5 Block.reset
    b.normEn 0 = true ∧ b.isRoot 0 = false ∧ (1#32).toNat = b.stepNow 0 ∧ 9 ∉ (b.run 0).norm.children ∧
    (b.run 0).norm.children.length < b.childCount 0 ∧ (b.run 0).norm.record = none := by decide +kernel

/-- 1 ms after the norm's start. -/
def late (b : Block) : Block := { b with now := 1000000 }

theorem test_norm_timeout :
    (let b := late ((inTree 5 Block.reset).setNorm 0 { NormUnit.none with terms := [(none, 5)], closedAt := some 0 })
     (b.run 0).toldNorm = false ∧ b.overdue 0 (b.run 0).norm.closedAt = true ∧ (b.run 0).norm.children.length < b.childCount 0) ∧
    (let b := late ((inTree 1 Block.reset).setNorm 0 { NormUnit.none with sentAt := some 0 })
     (b.run 0).toldRec = false ∧ b.overdue 0 (b.run 0).norm.sentAt = true ∧ (b.run 0).norm.record = none ∧
     b.overdue 0 (b.run 0).norm.closedAt = false) := by decide +kernel

/-- BARRIER of step 1. -/
def barrierC : Carriage := prune [(0x10, 0, 3), (0x14, 0, 1)]

theorem test_barrier_runs : Runs (flying barrierC (engPrune 0) Block.reset) (pruneSel 0 3) 0 (flight barrierC (engPrune 0)) :=
  runs_of (by decide +kernel) (by decide +kernel) (by decide +kernel) (by decide +kernel)

theorem test_barrier_ready :
    (((flying barrierC (engPrune 0) Block.reset).run 0).barrier.word = none) ∧
    (let b := (flying barrierC (engPrune 0) Block.reset).setBarrier 0 { Barrier.none with word := some barrierC }
     (b.run 0).barrier.word = some barrierC ∧ (b.run 0).barrier.record = none ∧ b.barrierMet 0 barrierC = true ∧ b.normEn 0 = false) ∧
    (let b := (inTree 7 Block.reset).setBarrier 0 { Barrier.none with word := some barrierC, own := true, ready := [9] }
     (b.run 0).barrier.own = true ∧ b.isRoot 0 = true ∧ b.childCount 0 ≤ (b.run 0).barrier.ready.length) ∧
    (let b := (inTree 5 Block.reset).setBarrier 0 { Barrier.none with word := some barrierC, own := true, ready := [9] }
     b.normEn 0 = true ∧ b.isRoot 0 = false ∧ b.childCount 0 ≤ (b.run 0).barrier.ready.length ∧ (b.run 0).barrier.sentAt = none) := by decide +kernel

theorem test_ready_received :
    let b := inTree 5 Block.reset
    b.normEn 0 = true ∧ (1#32).toNat = b.stepNow 0 ∧ (b.run 0).barrier.own = false ∧ 9 ∉ (b.run 0).barrier.ready ∧
    (b.run 0).barrier.ready.length < b.childCount 0 := by decide +kernel

theorem test_step_commit :
    (let b := (inTree 1 Block.reset).setBarrier 0 { Barrier.none with word := some barrierC, own := true, sentAt := some 0 }
     b.normEn 0 = true ∧ b.isRoot 0 = false ∧ (1#32).toNat = b.stepNow 0 ∧ (b.run 0).barrier.sentAt = some 0 ∧
     (b.run 0).barrier.record = none ∧ (late b).overdue 0 (b.run 0).barrier.sentAt = true ∧ (b.run 0).toldStep = false) ∧
    (let b := (oneLeaf Block.reset).setBarrier 0 { Barrier.none with word := some barrierC, own := true, record := some 1 }
     (b.run 0).barrier.record = some 1 ∧ b.exchState 0 = 0 ∧ b.fld (partPage 0) 0x600 0 1 = 0 ∧ b.quiescing = none ∧ (b.shard 0).held = false ∧
     b.regN (partPage 0) 0x208 = b.govern 0 0x208) := by decide +kernel

/-! Shards. -/

/-- Leaf 0 with one 2 MiB page of the deep tier, its table at the deep tier's start. -/
def deepLeaf (b : Block) : Block :=
  let b := oneLeaf b
  let b := (serving b).setGrant 0 { b.grant 0 with deepBytes := 2 ^ 21 }
  ((b.set64 (partPage 0) 0x110 0x010000000000).setN (partPage 0) 0x10C 1).putNum 0x010000000000 8 (0x010000200000 + 7)

/-- A shard of one block at site 1, shard 7, its areas in the page; INBOUND of `len` bytes; the staleness weight of the last round is 1. -/
def shardDesc (len : Nat) : BitVec 2048 :=
  let d := 0x010000000000
  BitVec.ofNat 2048 (([(0, 0, 1), (4, 0, 7), (0x10, 0, 1), (0x14, 0, 1), (0x14, 16, 1), (0x18, 0, 100), (0x1C, 9, 1), (0x28, 0, d),
    (0x30, 0, d + 0x20000), (0x38, 0, d + 0x40000), (0x40, 0, d + 0x60000), (0x48, 0, d + 0x80000), (0x50, 0, d + 0xA0000),
    (0x58, 0, d + 0xB0000), (0x60, 0, d + 0xC0000), (0x68, 0, d + 0xD0000), (0x70, 0, len), (0x78, 0, d + 0xE0000),
    (0x80, 0, d + 0xF0000), (0x88, 0, d + 0x100000), (0x90, 0, d + 0x110000), (0xA0, 0, 0x3F800000)].map
      fun q => q.2.2 * 2 ^ (8 * q.1 + q.2.1)).sum)

/-- The partner of site 2, session 3. -/
def siteTwo : BitVec 512 := BitVec.ofNat 512 (2 + 2 ^ 16 + 3 * 2 ^ 48)

/-- A leaf 0 bound to the shard with site 2 as partner, in exchange state `e`, round 4 over anchor 3, the leaders in the given order; session 3
has a key, and its flow 9 is on port 0, an Ethernet port that is up. -/
def bound (e : Nat) (order : List Nat) (b : Block) : Block :=
  let b := b.setShard 0 { Shard.none with desc := shardDesc (2 ^ 25), partners := [siteTwo], order := order, orderRound := 3 }
  let b := ((b.setFld (partPage 0) 0x300 0 4 e).setN (partPage 0) 0x304 4).setN (partPage 0) 0x308 3
  let b := (b.setFlow 9 ⟨⟨3, 0, 0, 0, 0, 9216, 64⟩, true, 8000 * 9216, 0, []⟩).setSession 3 { Keys.none with send := some ⟨0, [], [], 0, none⟩ }
  (b.setFld (portPage 0) 0x040 1 1 1).setFld (portPage 0) 0x044 0 3 3

/-- COACH carriages of one OP with the descriptor at the start of bay 0. -/
def coach (op : Nat) : Carriage := word [(0, 0, 6), (0x10, 0, op), (0x18, 0, 0xFE0000000000)]

/-- Leaf 0 with a COACH carriage in flight, descriptor and an empty partner table in memory. -/
def binding (op : Nat) : Block :=
  { (deepLeaf Block.reset).put 0xFE0000000000 (toBytes 256 (shardDesc 0x10000).toNat) false with flights := [flight (coach op) (engCoach 0)] }

theorem test_bind_runs : Runs (binding 0) (coachSel 0 0) 0 (flight (coach 0) (engCoach 0)) :=
  runs_of (by decide +kernel) (by decide +kernel) (by decide +kernel) (by decide +kernel)

theorem test_bind_reads :
    (match (binding 0).readV ⟨0, none⟩ (cf (coach 0) 0x18 0 48) 256 with
      | (b1, .ok bs) =>
        let w : BitVec 2048 := BitVec.ofNat 2048 (ofBytes (raw bs))
        decide (w = shardDesc 0x10000) && !anyMark bs && descClean w && b1.descInGrant 0 (descOf w) &&
          match b1.readPartners 0 (descOf w).partners with
          | (b2, some ps) => decide (0 < b2.flights.length) && ps.length == 256 && ((ps.map partnerOf)[cf (coach 2) 0x10 8 8]?).isSome
          | _ => false
      | _ => false) = true := by decide +kernel

theorem test_bind_refused :
    let b := flying (coach 0) (engCoach 0) Block.reset
    (match b.readV ⟨0, none⟩ (cf (coach 0) 0x18 0 48) 256 with
      | (_, .ok bs) => descClean (BitVec.ofNat 2048 (ofBytes (raw bs))) == false
      | _ => false) = true := by decide +kernel

theorem test_unbind_runs : Runs (flying (coach 3) (engCoach 0) Block.reset) (coachSel 0 3) 0 (flight (coach 3) (engCoach 0)) :=
  runs_of (by decide +kernel) (by decide +kernel) (by decide +kernel) (by decide +kernel)

theorem test_partners_runs : Runs (flying (coach 4) (engCoach 0) Block.reset) (coachSel 0 4) 0 (flight (coach 4) (engCoach 0)) :=
  runs_of (by decide +kernel) (by decide +kernel) (by decide +kernel) (by decide +kernel)

theorem test_release :
    (let b := { bound 1 [1, 2] (oneLeaf Block.reset) with flights := [flight (coach 3) (engCoach 0)] }
     let b := b.setShard 0 { b.shard 0 with unbind := true }
     b.exchState 0 = 1 ∧ (b.shard 0).unbind = true ∧ b.flights.findIdx? (coachSel 0 3) = some 0) ∧
    (let b := { bound 1 [1, 2] (deepLeaf Block.reset) with flights := [flight (coach 4) (engCoach 0)] }
     let b := b.setShard 0 { b.shard 0 with reread := true }
     b.exchState 0 = 1 ∧ (b.shard 0).reread = true ∧ b.flights.findIdx? (coachSel 0 4) = some 0 ∧
     (match b.readPartners 0 (b.desc 0).partners with
      | (b1, some _) => decide (b1.flights = b.flights)
      | _ => false) = true) := by decide +kernel

/-! Rounds. -/

theorem test_chunk_flow :
    let b := bound 3 [1, 2] (oneLeaf Block.reset)
    b.leaderOf 0 4 = 2 ∧ b.chunkFlow 0 9 = some (2, 3) ∧ 0 < (b.desc 0).nseg ∧ (b.shard 0).sent = [] ∧
    (b.flow 9).queue = [] ∧ (b.session 3).send = some ⟨0, [], [], 0, none⟩ ∧ KeyDir.spent ⟨0, [], [], 0, none⟩ b.now = false ∧
    (b.chunkMails 0 2 3 0).length = 1 := by decide +kernel

/-- A chunk whose packets its flow's bucket holds. -/
theorem test_chunk_goes :
    let b := bound 3 [1, 2] (oneLeaf Block.reset)
    ((b.chunkMails 0 2 3 0).map fun q => 8000 * b.packetLen (b.seal q.1 0 (0 + q.2))).sum ≤ ((b.flow 9).refill b.now).tokens := by
  decide +kernel

/-- No packet waits for a flow where none waits for one that the store lists. -/
theorem flowsEmpty_of {b : Block} (h : b.flows.all (fun q => q.2.queue.isEmpty) = true) : FlowsEmpty b := by
  intro i
  unfold Block.flow
  revert h
  induction b.flows with
  | nil => intro _; rfl
  | cons q r ih =>
    intro h
    simp only [List.all_cons, Bool.and_eq_true, List.isEmpty_iff] at h
    simp only [storeGet]
    split
    · exact h.1
    · exact ih h.2

theorem test_flows_empty (e : Fin 16) : FlowsEmpty (bound e [1, 2] (oneLeaf Block.reset)) :=
  flowsEmpty_of (by revert e; decide +kernel)

theorem test_chunk_resend :
    let b := bound 3 [1, 2] (oneLeaf Block.reset)
    let c : SentChunk := ⟨0, 0, 0, 9, 0, false, true⟩
    let b := b.setShard 0 { b.shard 0 with sent := [c] }
    b.chunkFlow 0 9 = some (2, 3) ∧ (b.shard 0).sent.find? (fun c => c.seg == 0) = some c ∧ c.acked = false ∧ c.queued = true ∧
    (b.session 3).mayRepeat b.now c.epoch = true ∧ (b.session 3).mayRepeat b.now 5 = false ∧
    (let b := { b with now := 10 ^ 12 }.setShard 0 { b.shard 0 with sent := [{ c with epoch := 5, queued := false }] }
     b.chunkWaits 0 0 = false ∧ 0 + (b.desc 0).resendMs * 1000000 ≤ b.now ∧ b.chunkFlow 0 9 = some (2, 3)) := by decide +kernel

/-- A header of site 2 for the shard. -/
def hdr (type_ round : Nat) : SHdr :=
  { type_ := type_, version := 1, rsv := 0, srcSite := 2, dstSite := 1, shard := 7, round := round, length := 0 }

theorem test_shard_bound :
    ∀ e : Fin 16, e ≠ 0 → (bound e [1, 2] (oneLeaf Block.reset)).bound 0 = true ∧ ((bound e [1, 2] (oneLeaf Block.reset)).partnerAt 0 2).isSome = true ∧
      7 = ((bound e [1, 2] (oneLeaf Block.reset)).desc 0).shard ∧ 1 = ((bound e [1, 2] (oneLeaf Block.reset)).desc 0).site := by decide +kernel

theorem test_heard (e : Fin 16) (h : e ≠ 0) (t r : Nat) : Heard (bound e [1, 2] (oneLeaf Block.reset)) 0 (hdr t r) t := by
  obtain ⟨isBound, knows, shard, site⟩ := test_shard_bound e h
  exact ⟨isBound, rfl, rfl, rfl, knows, shard, site⟩

/-- Leaf 0, bound and changed. -/
def boundWith (e : Nat) (order : List Nat) (f : Shard → Shard) : Block :=
  let b := bound e order (oneLeaf Block.reset)
  b.setShard 0 (f (b.shard 0))

theorem exch_setShard (b : Block) (x : Shard) : (b.setShard 0 x).exchState 0 = b.exchState 0 := rfl

theorem busy_setShard (b : Block) (x : Shard) : (b.setShard 0 x).coachBusy 0 = b.coachBusy 0 := rfl

/-- A raw chunk of zeros. -/
def zeroChunk : ChunkMsg :=
  { index := 0, baseRound := 3, frag := 0, nfrag := 1, privet := false, wireBytes := 544, crc := (crc32c (zeros 544)).toNat,
    poisoned := false, bytes := zeros 544 }

theorem test_chunk :
    let b := boundWith 4 [1] fun x => { x with deadline := some 1000 }
    let m := zeroChunk
    b.roundNow 0 = 4 ∧ b.leads 0 4 = true ∧ b.exchState 0 = 4 ∧ (b.shard 0).stuck = false ∧ (b.shard 0).deadline = some 1000 ∧
    (b.shard 0).frags = [] ∧ m.index < (b.desc 0).nseg ∧ (b.shard 0).inbound = [] ∧
    isZeroV (decF32 ((b.desc 0).weight 4 m.baseRound)) = false ∧ m.bytes.length = m.wireBytes ∧ m.bytes.length ≤ 8192 ∧
    (chunkPlain ((b.desc 0).segLen m.index) m.privet m.bytes).isSome = true ∧ b.inboundFits 0 m.bytes.length = true ∧
    (b.desc 0).quorum = 0 := by decide +kernel

theorem test_chunk_crc : (crc32c zeroChunk.bytes).toNat = zeroChunk.crc := by simp only [zeroChunk]

theorem test_follower :
    let b := bound 3 [1, 2] (oneLeaf Block.reset)
    b.round 0 = 4 ∧ b.leaderOf 0 4 = 2 ∧ b.exchState 0 = 3 ∧ 0 ≤ (b.desc 0).nseg ∧ (b.shard 0).order ≠ [] ∧ (b.shard 0).orderRound = 3 ∧
    b.turnOf 0 4 2 = some (b.shard 0).turn ∧ (b.shard 0).heardAt + (b.desc 0).leaderSec * 1000000000 ≤ { b with now := 20000000000 }.now ∧
    (b.shard 0).helloAt + 1000000000 ≤ { b with now := 1000000000 }.now := by decide +kernel

theorem test_deadline :
    (let b := boundWith 3 [1, 2] fun x => { x with deadline := some 0 }
     (b.shard 0).deadline = some 0 ∧ 0 ≤ b.now ∧ b.exchState 0 = 3) ∧
    (let b := boundWith 4 [1] fun x => { x with deadline := some 0 }
     (b.shard 0).deadline = some 0 ∧ b.exchState 0 = 4 ∧ b.leads 0 (b.roundNow 0) = true ∧
     (b.shard 0).heardAt + 1000000000 ≤ { b with now := 1000000000 }.now) := by decide +kernel

/-- The record of round `r` under leader 2 with root `root`. -/
def recordOf (r : Nat) (root : List Byte) : Manifest := { foundRecord (descOf (shardDesc 0)) root with round := r, leader := 2 }

theorem test_hello :
    let own := recordOf 3 [1]
    let b := boundWith 1 [1, 2] fun x => { x with record := some own }
    (b.shard 0).record = some own ∧ own.round = 3 ∧ own.newRoot ≠ [2] ∧ (b.shard 0).rival = none ∧
    winsOver 2 1 own.contrib.length own.leader = true := by decide +kernel

/-! Records. -/

/-- The rule record of OUTER. -/
def outerBytes : List Byte := toBytes 64 (ruleWord 4).toNat

/-- The shard at a merge, its rule record in memory, the block's OUTER of the round already done; its INBOUND lies at address 0, which is not
mapped. -/
def merging : Block :=
  let b := ((bound 5 [1, 2] (deepLeaf Block.reset)).put 0x010000300000 outerBytes false).putNum 0x010000260000 4 4
  b.setShard 0 { b.shard 0 with desc := BitVec.ofNat 2048 ((shardDesc 0).toNat - 0x0100000D0000 * 2 ^ (8 * 0x68)) }

theorem test_segment :
    let d := merging.desc 0
    let r := merging.round 0
    merging.exchState 0 = 5 ∧ (merging.shard 0).pos = 0 ∧ 0 < d.nseg ∧ (merging.shard 0).stuck = false ∧ d.segLen 0 = 1 ∧
    (match merging.peekM 0 (d.storeAt r 0) 544 with
      | (b1, own) =>
        match (b1.poke 0 d.inbound (packWords 4 ((mergedDelta 1 ((d.site, d.weight r (merging.anchorRound 0), storeSubs own) ::
            ((merging.shard 0).inbound.filter fun c => c.index == 0).map fun c => (c.site, d.weight r c.base, chunkSubs 1 c.bytes))).map
              (·.toNat)))).outerRule 0 with
        | (b2, some rule) => rule.good && rule.rule == 4 &&
            decide (((b2.segPatterns 0 0).1.passBlocks ⟨0, none⟩ (outerPrune d r 0) rule (rule.c 9) 1 d.g0).2 = .done)
        | _ => false) = true := by decide +kernel

theorem test_manifest_sign :
    (let b := bound 6 [1, 2] (oneLeaf Block.reset)
     b.exchState 0 = 6 ∧ b.debugOpen = false ∧ (b.setFld hawPage 0x040 3 1 1).debugOpen = true) ∧
    (let b := boundWith 5 [1, 2] fun x => { x with pos := 1 }
     b.exchState 0 = 5 ∧ (b.shard 0).pos = (b.desc 0).nseg) := by decide +kernel

/-- A whole manifest in one fragment under a signature. -/
def manFrag (m : Manifest) (sig : List Byte) : FragMsg :=
  { segment := 0, frag := 0, nfrag := 1, total := (manifestBytes m ++ sig).length, bytes := manifestBytes m ++ sig }

/-- The record of round 4 as it would come, over the root `prev`. -/
def comes (prev : List Byte) : Manifest := { recordOf 4 [1] with prevRoot := prev, bitmaps := [[0]] }

theorem test_manifest :
    let b := bound 3 [1, 2] (oneLeaf Block.reset)
    let m := comes []
    (manFrag m []).bytes.length ≤ 8192 ∧ (manFrag m []).bytes.length = (manFrag m []).total ∧ (b.shard 0).manFrags = [] ∧
    (b.shard 0).order ≠ [] ∧ manifestFormed m = true ∧ m.shard = (b.desc 0).shard ∧ m.nseg = (b.desc 0).nseg ∧ b.exchState 0 = 3 ∧
    m.round = b.round 0 ∧ 2 = b.leaderOf 0 m.round ∧ b.manifestSigned 0 { m with leader := 7 } [] [] = false := by decide +kernel

/-- A signature that verifies under the key of the leader's entry passes. -/
theorem test_manifest_signed (key sig : List Byte) (h1 : Config.shake256 key 32 = List.replicate 32 0)
    (h2 : Config.falconVerify key (manifestBytes (comes [])) sig = true) :
    (bound 3 [1, 2] (oneLeaf Block.reset)).manifestSigned 0 (comes []) key sig = true := by
  have h3 : (bound 3 [1, 2] (oneLeaf Block.reset)).partnerAt 0 (comes []).leader = some (partnerOf siteTwo) := by decide +kernel
  have h4 : (partnerOf siteTwo).keyHash = List.replicate 32 0 := by decide +kernel
  simp [Block.manifestSigned, h3, h4, h1, h2]

theorem test_body :
    let b := bound 3 [1, 2] (oneLeaf Block.reset)
    let m : FragMsg := { segment := 0, frag := 0, nfrag := 1, total := 4, bytes := zeros 4 }
    m.bytes.length ≤ 8192 ∧ m.bytes.length = m.total ∧ b.exchState 0 = 3 ∧ b.round 0 = 4 ∧ 2 = b.leaderOf 0 4 ∧ 0 < (b.desc 0).nseg ∧
    storeGet (fun _ => []) (b.shard 0).bodies 0 = [] ∧ (b.shard 0).bodyFrags = [] ∧ b.inboundFits 0 4 = true := by decide +kernel

/-- An adoption whose one body has come. -/
def adopting (m : Manifest) : Block := boundWith 7 [1, 2] fun x => { x with incoming := some m, bodies := [(0, zeros 64)] }

theorem test_adoption (hash : List Byte) (n : Nat) :
    let m := { comes [] with bodyHash := hash, bodyBytes := n }
    ((adopting m).shard 0).incoming = some m ∧ (adopting m).exchState 0 = 7 ∧ (adopting m).coachBusy 0 = false ∧
    ((adopting m).shard 0).bodies = [(0, zeros 64)] ∧ ((adopting m).shard 0).pos = 0 :=
  ⟨by simp [adopting, boundWith, Block.shard, Block.setShard], (exch_setShard ..).trans (by decide +kernel),
    (busy_setShard ..).trans (by decide +kernel), by simp [adopting, boundWith, Block.shard, Block.setShard],
    by simpa [adopting, boundWith, Block.shard, Block.setShard] using
      show ((bound 7 [1, 2] (oneLeaf Block.reset)).shard 0).pos = 0 by decide +kernel⟩

theorem test_adoption_bodies :
    (adopting (comes [])).bodiesWhole 0 = true ∧ 0 < ((adopting (comes [])).desc 0).nseg ∧
    (adopting (comes [])).bodyBytes 0 [(0, zeros 64)] = zeros 64 := by decide +kernel

/-- A body of another length is refused; one whose hash and length agree is adopted. -/
theorem test_adoption_cases :
    (zeros 64).length ≠ (comes []).bodyBytes ∧
    (let m := { comes [] with bodyHash := Config.shake256 (zeros 64) 32, bodyBytes := 64 }
     Config.shake256 (zeros 64) 32 = m.bodyHash ∧ (zeros 64).length = m.bodyBytes) := ⟨by decide +kernel, rfl, rfl⟩

theorem test_rebase :
    (let b := bound 9 [1, 2] (deepLeaf Block.reset)
     b.exchState 0 = 9 ∧ (b.shard 0).pos < (b.desc 0).nblk ∧ b.fld (partPage 0) 0x600 0 1 = 0) ∧
    (let b := boundWith 9 [1, 2] fun x => { x with pos := 1 }
     b.exchState 0 = 9 ∧ (b.desc 0).nblk ≤ (b.shard 0).pos ∧ (b.shard 0).pos % 1024 ≠ 0) ∧
    (let b := boundWith 1 [1, 2] fun x => { x with recovering := true }
     (b.shard 0).recovering = true) ∧
    (let b := bound 13 [1, 2] (oneLeaf Block.reset)
     rq0.by_ = .pf ∧ b.exchState 0 = 13 ∧ b.resetting 0 = false) := by decide +kernel

/-- A block of the rebase beyond its first segment's first whose master is not mapped reads as poison. -/
theorem test_rebase_poison :
    let b := (bound 9 [1, 2] (oneLeaf Block.reset)).setShard 0
      { (bound 9 [1, 2] (oneLeaf Block.reset)).shard 0 with
          desc := BitVec.ofNat 2048 ((shardDesc 0).toNat + 2 ^ (8 * 0x10)), pos := 1 }
    b.exchState 0 = 9 ∧ (b.shard 0).pos < (b.desc 0).nblk ∧ (b.shard 0).pos % 1024 ≠ 0 ∧
    (match b.peekM 0 (pieceAddr (b.desc 0).master 4096 1) 4096 with
      | (b1, w) => anyMark (w ++ (b1.peekM 0 (pieceAddr (b.desc 0).anchor 2048 1) 2048).2)) = true := by decide +kernel

/-! Replicas. -/

theorem test_reconcile (root : List Byte) (h : rootOfState (zeros 4096) = root) :
    let w : Peer := ⟨2, 3, 2, 2, 3, root⟩
    let b := boundWith 1 [1, 2] fun x => { x with rival := some w }
    let m := { recordOf 3 root with bitmaps := [[0]] }
    ([] : List Manifest).all manifestFormed = true ∧ isLineage ([] ++ [m]) = true ∧
    (b.shard 0).rival = some w ∧ b.exchState 0 = 1 ∧ manifestFormed m = true ∧ m.round = w.round ∧ m.newRoot = w.root ∧
    m.nseg = ((bound 1 [1, 2] (oneLeaf Block.reset)).desc 0).nseg ∧
    (zeros 4096).length = 4096 * ((bound 1 [1, 2] (oneLeaf Block.reset)).desc 0).nblk ∧ rootOfState (zeros 4096) = w.root :=
  ⟨rfl, rfl, by simp [boundWith, Block.shard, Block.setShard], (exch_setShard ..).trans (by decide +kernel),
    show manifestFormed (comes []) = true by decide +kernel, rfl, rfl,
    show (comes []).nseg = ((bound 1 [1, 2] (oneLeaf Block.reset)).desc 0).nseg by decide +kernel,
    show (zeros 4096).length = 4096 * ((bound 1 [1, 2] (oneLeaf Block.reset)).desc 0).nblk by decide +kernel, h⟩

/-- An answer to DIGEST_REQ for site 2. -/
def digestMail : Mail := ⟨0, 2, 3, mDigestResp, 4, [0, 0, 1], zeros 8, 20⟩

/-- An answer to BLOCK_REQ for site 2, of a leaf or of a block. -/
def blockMail (bs : List Byte) : Mail := ⟨0, 2, 3, mBlockData, 4, [0, 0], bs, 16 + bs.length⟩

theorem test_posts (e : Fin 16) :
    Posts (bound e [1, 2] (oneLeaf Block.reset)) digestMail ⟨0, [], [], 0, none⟩ 9 ∧
    Posts (bound e [1, 2] (oneLeaf Block.reset)) (blockMail []) ⟨0, [], [], 0, none⟩ 9 ∧
    Posts (bound e [1, 2] (oneLeaf Block.reset)) (blockMail (zeros 4096)) ⟨0, [], [], 0, none⟩ 9 := by
  refine ⟨⟨⟨partnerOf siteTwo, ?_, ?_⟩, ?_, ?_, ?_, ?_, ?_⟩, ⟨⟨partnerOf siteTwo, ?_, ?_⟩, ?_, ?_, ?_, ?_, ?_⟩,
    ⟨⟨partnerOf siteTwo, ?_, ?_⟩, ?_, ?_, ?_, ?_, ?_⟩⟩ <;> revert e <;> decide +kernel

theorem test_digest_req :
    let b := bound 1 [2] (oneLeaf Block.reset)
    0 < (b.desc 0).levels.length ∧ 256 * 0 < (b.desc 0).levels.getD 0 0 ∧ b.leads 0 (b.roundNow 0) = false ∧ (b.desc 0).g0 ≤ 0 ∧
    0 < (b.desc 0).g0 + (b.desc 0).nblk := by decide +kernel

/-- A joiner that waits for two groups of leaves. -/
def joiner : Block :=
  let b := bound 11 [1, 2] (deepLeaf Block.reset)
  b.setShard 0 { b.shard 0 with incoming := some (comes []), joining := some 2, wantNodes := [0, 1] }

theorem test_digest_resp :
    joiner.exchState 0 = 11 ∧ (joiner.shard 0).incoming = some (comes []) ∧ (joiner.shard 0).joining = some 2 ∧
    0 ∈ (joiner.shard 0).wantNodes ∧ (∃ n ∈ (joiner.shard 0).wantNodes, n ≠ 0) ∧
    ([5] : List Nat).length = min 256 ((joiner.desc 0).levels.getD 0 0 - 256 * 0) ∧
    LiesAt joiner 0 ((joiner.desc 0).digestAt 0 (256 * 0)) 8 true 0x0100002E0000 :=
  ⟨by decide +kernel, by decide +kernel, by decide +kernel, by decide +kernel, ⟨1, by decide +kernel, by decide⟩, by decide +kernel,
    ⟨by decide, by decide +kernel, by decide +kernel⟩⟩

theorem test_block_data :
    let b := boundWith 1 [1, 2] fun x => { x with wantBlocks := [0] }
    (zeros 4096).length = 4096 ∧ (b.desc 0).g0 ≤ 0 ∧ 0 - (b.desc 0).g0 ∈ (b.shard 0).wantBlocks ∧ 0 - (b.desc 0).g0 ∉ (b.rebuildOf 0).left ∧
    b.exchState 0 ≠ 11 := by decide +kernel

/-! Ports and frames. -/

/-- Leaf 0 with port 0 switched on, in state `s`, in Ethernet mode or not. -/
def portIn (s : Nat) (eth : Bool) (b : Block) : Block :=
  let b := oneLeaf b
  (b.setN (portPage 0) 0x040 (1 + 2 * b2n eth)).setFld (portPage 0) 0x044 0 3 s

theorem test_port_train :
    (let b := portIn 0 false Block.reset
     b.mayTrain 0 = true ∧ b.portEth 0 = false ∧ b.portState 0 = 0) ∧
    (let b := { portIn 1 false Block.reset with now := 10 ^ 10 }
     b.portState 0 = 1 ∧ (b.port 0).phaseAt + phaseBound false (b.port 0).phase ≤ b.now ∧ (b.port 0).attempt < 3 ∧
     ¬((b.setPort 0 { b.port 0 with attempt := 3 }).port 0).attempt < 3) ∧
    (let b := portIn 1 false Block.reset
     b.portState 1 = 0 ∧ b.portState 0 = 1 ∧ (b.setPort 0 { b.port 0 with lanes := 3 }).portLanes 0 = 3 ∧
     (((b.setPort 0 { b.port 0 with lanes := 3 }).port 0).lanes &&& 2) ≠ 0 ∧ (b.port 0).phase < 3 ∧ (b.port 0).sendQ = []) ∧
    (let b := (portIn 1 false Block.reset).setPort 0 { PortUnit.none with lanes := 3, phase := 3, attempt := 1 }
     (b.port 0).lanes &&& 1 ≠ 0 ∧ 3 ≤ (b.port 0).phase ∧ (b.port 0).sendQ = [] ∧ b.portEnc 0 = false ∧ (b.port 0).attempt < 3) := by decide +kernel

/-- A data flit with SEQ 0 and an empty payload, its CRC as computed. -/
def goodFlit : Flit :=
  let f : Flit := { seq := 0, vc := 0, ftype := 0, ack := 0, nak := false, rsv := 0, credit := [0, 0, 0, 0], payload := [], crc := 0 }
  { f with crc := (crc32c (flitBytes f)).toNat }

theorem test_flit :
    let b := portIn 3 false Block.reset
    b.portUp 0 = true ∧ b.portEth 0 = false ∧ (crc32c (flitBytes goodFlit)).toNat = goodFlit.crc ∧ goodFlit.ftype = 0 ∧ goodFlit.rsv = 0 ∧
    goodFlit.credit.length = 4 ∧ goodFlit.seq = ((b.port 0).rxSeq + 1) % 4096 ∧ (b.port 0).dropping = false ∧ (b.port 0).sendQ = [] :=
  ⟨by decide +kernel, by decide +kernel, by simp only [goodFlit, flitBytes], rfl, rfl, rfl, by decide +kernel, by decide +kernel, by decide +kernel⟩

theorem test_flit_bad (f : Flit) (h : f.crc = 2 ^ 32) : (crc32c (flitBytes f)).toNat ≠ f.crc := by
  have := (crc32c (flitBytes f)).isLt
  omega

theorem test_port_states :
    (portIn 4 false Block.reset).portState 0 = 4 ∧ (portIn 3 true Block.reset).portUp 0 = true ∧ (portIn 3 true Block.reset).portEth 0 = true ∧
    (let b := { portIn 1 true Block.reset with now := 1000000000 }
     let b := b.setPort 0 { PortUnit.none with ethSince := some 0 }
     b.portEth 0 = true ∧ (b.port 0).ethSince = some 0 ∧ b.portOn 0 = true ∧ b.portState 0 = 1 ∧ 0 + 1000000000 ≤ b.now ∧ b.mayTrain 0 = true) := by
  decide +kernel

/-- A WRITE of 4 bytes to bay 0 of the leaf of partition 0 at module `m`. -/
def plainFrame (m kind addr : Nat) : Frame :=
  { hdr := { destMod := m, destPart := 0, vc := 0, srcMod := 5, srcPart := 1, rsv := 0, life := 100, kind := kind, red := 0, last := true,
             poison := false, enc := false, epoch := 0, dstAddr := addr, msgSeq := 0, frameIdx := 0, frameCtr := 0 },
    payload := [1, 2, 3, 4], tag := [] }

/-- Port 0 is up, the module is 7, and window 0 of the leaf admits writes of bay 0's first page. -/
def windowed (b : Block) : Block :=
  let b := (portIn 3 false b).setFld (portPage 0) 0x04C 0 24 7
  ((b.set64 (partPage 0) 0x400 0xFE0000000000).set64 (partPage 0) 0x408 4096).setN (partPage 0) 0x410 (2 ^ 15)

/-- The block once the frame has come through the port. -/
def opened (b : Block) (f : Frame) : Block := (b.add64 (portPage 0) 0x058 1).add64 (portPage 0) 0x068 f.payload.length

theorem test_frame_lands :
    let f := plainFrame 7 0 0xFE0000000010
    let b := opened (windowed Block.reset) f
    (windowed Block.reset).portUp 0 = true ∧ (windowed Block.reset).portEth 0 = false ∧ frameFormed f = true ∧ b.openFrame 0 f = (b, some f) ∧
    f.hdr.destPart < 64 ∧ f.hdr.destMod = b.moduleId 0 ∧ f.hdr.kind < 2 ∧ (b.grant 0).loaded = true ∧ b.windowFor 0 f = some 0 ∧
    (streamAfter (b.streamOf 0 f.hdr) f.hdr).2 = false ∧ 1 ≤ f.payload.length ∧
    LiesAt b 0 f.hdr.dstAddr 4 true 0xFE0000000010 ∧ LiesAt b 0 f.hdr.dstAddr 4 false 0xFE0000000010 :=
  by intro f b; refine ⟨?_, ?_, ?_, ?_, ?_, ?_, ?_, ?_, ?_, ?_, ?_, ⟨?_, ?_, ?_⟩, ⟨?_, ?_, ?_⟩⟩ <;> decide +kernel

theorem test_frame_refused :
    let f := plainFrame 7 0 0xFE0000001000
    let b := opened (windowed Block.reset) f
    f.hdr.destMod = b.moduleId 0 ∧ (b.grant 0).loaded = true ∧ b.windowFor 0 f = none ∧ frameFormed f = true ∧ b.openFrame 0 f = (b, some f) := by
  decide +kernel

/-- A QUEUE frame for an empty queue, where the queue has room for one. -/
theorem test_frame_queues (h : 0 < Config.queueCredits 2) :
    let f := plainFrame 7 2 2
    let b := opened (windowed Block.reset) f
    frameFormed f = true ∧ b.openFrame 0 f = (b, some f) ∧ f.hdr.destMod = b.moduleId 0 ∧ f.hdr.kind = 2 ∧ (b.port 0).vc3 = [] ∧
    b.queueOpen 2 = true :=
  ⟨by decide +kernel, by decide +kernel, by decide +kernel, by decide +kernel, by decide +kernel, by
    have e : ((opened (windowed Block.reset) (plainFrame 7 2 2)).queue 2).length = 0 := by decide +kernel
    simp [Block.queueOpen, e, h]⟩

/-- Port 1 is up with room for a frame, and port 0's table sends module 9 there. -/
def routed (b : Block) : Block :=
  let b := (windowed b).setFld (portPage 1) 0x044 0 3 3
  (b.setPort 1 { b.port 1 with credit := [384, 384, 192, 64] }).set64 (portPage 0) 0x800 (9 + 0xFFFFFF * 2 ^ 24 + 2 ^ 48 + 2 ^ 55)

theorem test_frame_forwards :
    let f := plainFrame 9 0 0
    let b := opened (routed Block.reset) f
    f.hdr.destMod ≠ b.moduleId 0 ∧ (opened (windowed Block.reset) f).egressOf 0 9 = none ∧ b.egressOf 0 9 = some 1 ∧ b.portUp 1 = true ∧
    b.portEth 1 = false ∧ lifeUsed (8 + (b.port 0).delay) < f.hdr.life ∧ f.hdr.life ≤ lifeUsed (800 + (b.port 0).delay) ∧ b.portEnc 1 = false ∧
    (b.port 1).sendQ = [] ∧ f.hdr.vc < 4 ∧ frameFlits f.payload.length false ≤ (b.port 1).credit.getD f.hdr.vc 0 ∧
    (b.port 1).replay.length + frameFlits f.payload.length false ≤ 512 := by decide +kernel

theorem test_arrival :
    let a : Arrival := ⟨5, 1, 0, some 3⟩
    let b := (portIn 3 false Block.reset).setPort 0 { PortUnit.none with arrivals := [a] }
    (b.port 0).arrivals.findIdx? (fun a => a.srcMod == 5 && a.srcPart == 1) = some 0 ∧ (b.port 0).arrivals[0]? = some a ∧ a.sem = some 3 ∧
    ∀ m, m < 48 → (b.port m).vc3 = [] := by decide +kernel

theorem test_flows :
    let b := portIn 3 true Block.reset
    let f : FlowFields := ⟨255, 0, 63, 0, 400000, 9216, 64⟩
    flowFormed f = true ∧ (b.flow 4095).used = false ∧ b.flowsOf f.session < 64 ∧ b.portEth f.port = true ∧ rq0.by_ = .pf ∧
    ((b.setFlow 4095 ⟨f, true, 0, 0, []⟩).flow 4095).used = true := by decide +kernel

theorem test_window :
    let b := oneLeaf Block.reset
    (b.part 0).present = true ∧ (b.part 0).leaf = true ∧ windowFormed ⟨2 ^ 48 - 4096, 4096, 2 ^ 17 - 1, 0, 0⟩ = true ∧ b.fnOfLeaf (.vf 0) 0 = true ∧
    b.fnOfLeaf .pf 0 = true ∧ b.resetting 0 = false := by decide +kernel

/-! Keys. -/

/-- Hawthorn runs with entropy, and port 0 encrypts and is in state `s`. -/
def keyed (s : Nat) (b : Block) : Block :=
  let b := oneLeaf b
  ((b.setN hawPage 0x040 (1 + 2 ^ 4)).setN (portPage 0) 0x040 (1 + 2 ^ 4)).setFld (portPage 0) 0x044 0 3 s

/-- A key of epoch 3 that has been used `n` times. -/
def usedKey (n : Nat) : KeyDir := ⟨3, [], [], n, none⟩

theorem test_rekey :
    (let b := keyed 2 Block.reset
     (b.keysOf (.hop 0)).busy = false ∧ (b.keysOf (.hop 0)).ready = none ∧ b.mayShake (.hop 0) = true ∧ (b.keysOf (.hop 0)).send = none ∧
     (b.portState 0 == 2) = true) ∧
    (let b := (keyed 3 Block.reset).setKeys (.hop 0) { Keys.none with send := some (usedKey (2 ^ 32 - 2 ^ 28)) }
     (b.keysOf (.hop 0)).busy = false ∧ b.mayShake (.hop 0) = true ∧ (b.keysOf (.hop 0)).send = some (usedKey (2 ^ 32 - 2 ^ 28)) ∧
     (usedKey (2 ^ 32 - 2 ^ 28)).ageing b.now = true) ∧
    (let b := (bound 3 [1, 2] (keyed 3 Block.reset)).setSession 3 { Keys.none with fresh := true }
     (b.keysOf (.e2e 3)).busy = false ∧ b.mayShake (.e2e 3) = true ∧ (b.session 3).fresh = true) := by decide +kernel

theorem test_key_wait :
    (usedKey (2 ^ 32)).spent 0 = true ∧ (usedKey (2 ^ 32 - 1)).spent 0 = false ∧
    (let b := Block.reset.setSession 3 { Keys.none with send := some (usedKey (2 ^ 32)), waitSince := some 0 }
     (b.keysOf (.e2e 3)).send = some (usedKey (2 ^ 32)) ∧ (b.keysOf (.e2e 3)).waitSince = some 0) ∧
    (let b := Block.reset.setSession 3 { Keys.none with graceEnd := some 5 }
     (b.keysOf (.e2e 3)).graceEnd = some 5 ∧ (b.keysOf (.e2e 3)).graceLeft = 0) := by decide +kernel

/-- An INIT for the first key, of a public key and a signature. -/
def initMsg (pub sig : List Byte) : KeyMsg :=
  { ktype := 1, newEpoch := 0, fresh := true, sessionId := 9, random := [], kem := [], pubKey := pub, signature := sig }

theorem test_init_fresh (m : KeyMsg) : ((keyed 2 Block.reset).keysOf (.hop 0)).init ≠ keyMsgBytes m := by
  have e : ((keyed 2 Block.reset).keysOf (.hop 0)).init = [] := by decide +kernel
  rw [e]
  intro h
  have h2 : (keyMsgBytes m).length = 0 := by rw [← h]; rfl
  rw [keyMsgBytes, List.length_append, padTo, List.length_take, List.length_append, List.length_replicate] at h2
  omega

/-- No key is known to a port whose fabric list is empty. -/
theorem test_init_bad (m : KeyMsg) : (keyed 2 Block.reset).peerKnown (.hop 0) m.pubKey = false := by
  have e : ((keyed 2 Block.reset).port 0).fabric = [] := by decide +kernel
  simp [Block.peerKnown, e]

/-- The partner's key is known where its hash is in the fabric list. -/
theorem test_init_known (pub : List Byte) :
    ((keyed 2 Block.reset).setPort 0 { PortUnit.none with fabric := [Config.shake256 (padTo 1793 pub) 32] }).peerKnown (.hop 0) pub = true := by
  simp [Block.peerKnown, Block.port, Block.setPort]

theorem test_handshake :
    (let k : Keys := { Keys.none with busy := true, mine := true, newEpoch := 4, sentAt := 0 }
     let b := { (keyed 2 Block.reset).setKeys (.hop 0) k with now := 250000000 }
     (b.keysOf (.hop 0)).busy = true ∧ (b.keysOf (.hop 0)).mine = true ∧ (b.keysOf (.hop 0)).resp = [] ∧ (b.keysOf (.hop 0)).newEpoch = 4 ∧
     b.mayShake (.hop 0) = true ∧ b.ownerLive (.hop 0) = true ∧ (b.keysOf (.hop 0)).sentAt + 250000000 ≤ b.now) ∧
    (let k : Keys := { Keys.none with busy := true, newEpoch := 4, ready := some (usedKey 0), expect := [7] }
     let b := (keyed 2 Block.reset).setKeys (.hop 0) k
     (b.keysOf (.hop 0)).ready = some (usedKey 0) ∧ (b.keysOf (.hop 0)).newEpoch = 4 ∧ (b.keysOf (.hop 0)).expect = [7] ∧ (b.port 0).sendQ = []) := by
  decide +kernel

/-- Session 3 of the bound leaf receives under epoch 3, as identifier 9. -/
def receiving : Block :=
  let b := bound 3 [1, 2] (oneLeaf Block.reset)
  b.setSession 3 { b.session 3 with recv := some (usedKey 0), idIn := 9 }

theorem test_envelope :
    receiving.portEth 0 = true ∧ receiving.portUp 0 = true ∧
    receiving.sessions.find? (fun q => q.2.idIn == 8 && q.2.recv.isSome) = none ∧
    (match receiving.sessions.find? (fun q => q.2.idIn == 9 && q.2.recv.isSome) with
      | some (i, k) => i == 3 && k.forEpoch 0 3 == some (usedKey 0) && k.forEpoch 0 4 == none && k.forEpoch 0 2 == none && k.recv == some (usedKey 0)
      | none => false) = true ∧ (receiving.useKey 3 1).isSome = true := by decide +kernel

theorem test_stale_epoch :
    let c : SentChunk := ⟨0, 0, 0, 9, 0, false, false⟩
    let b := boundWith 3 [1, 2] fun x => { x with sent := [c] }
    (match b.sessionPartner 3 with
      | some (p, q) => p == 0 && q.site == b.leaderOf 0 (b.round 0) && (b.partnerAt p q.site).isSome
      | none => false) = true ∧ b.exchState 0 = 3 ∧ (b.shard 0).stopped = false ∧
    (b.shard 0).sent.find? (fun c => !c.acked && c.epoch == 0 && decide (c.counter ≤ 0) &&
      decide (0 < c.counter + ceilDiv (544 * (b.desc 0).segLen c.seg) 8192)) = some c ∧
    (match b.chunkWire 0 (b.round 0) c.seg with
      | (b1, wire) => (b1.useKey 3 (fragments 8192 wire).length).isSome) = true := by decide +kernel

/-! Recovery. -/

/-- A recovery of a domain with a deadline. -/
def recovering (d : Domain) (b : Block) : Block := { b with recs := [⟨d, 0, some 5, some 5, false⟩], now := 5 }

theorem test_recoveries :
    (let b := recovering (.array 3) Block.reset
     ∃ r ∈ b.recs, r.domain = .array 3 ∧ r.deadline = some 5 ∧ 5 ≤ b.now) ∧
    (rq0.by_ = .pf ∧ relaidDomain (.field 2) = true ∧ (recovering (.field 2) Block.reset).recOpen (.field 2) = true) ∧
    (∀ i, i < 32 → (Block.reset.arr (32 * 3 + i)).lentTo = none) ∧
    ((Block.reset.setMc .deep 31 { McUnit.none with filling := true }).mc .deep 31).filling = true :=
  ⟨⟨_, List.mem_singleton.2 rfl, rfl, rfl, by decide⟩, by decide +kernel, by decide +kernel, by decide +kernel⟩

/-- Leaf 0 both exports a shadow and keeps a neighbour's, a second after its start. -/
def keeping (b : Block) : Block := { (oneLeaf b).setN (partPage 0) 0x600 3 with now := 1000000000 }

theorem test_keeper :
    let b := keeping Block.reset
    b.keeps 0 = true ∧ b.exports 0 = true ∧ (b.run 0).keep.keptGone = false ∧ (b.run 0).keep.keptHeard + 1000000000 ≤ b.now ∧
    (b.run 0).keep.keeperGone = false ∧ (b.run 0).keep.keeperHeard + 1000000000 ≤ b.now ∧ (b.part 0).present = true ∧ (b.part 0).leaf = true ∧
    b.resetting 0 = false ∧ (b.grant 0).loaded = true ∧ b.exchState 0 = 0 ∧
    keeperFormed ⟨2 ^ 30 - 1, 0, 2 ^ 30 - 1, 4096, 64, 0, 2 ^ 27 - 1, 64, true, true⟩ = true := by decide +kernel

theorem test_rebuild_binds : ((binding 0).bindRebuild 0 0xFE0000000000).2 = true := by decide +kernel

theorem test_rebuild_block :
    let b := (boundWith 11 [1, 2] fun x => { x with incoming := some (comes []), wantBlocks := [0] }).setRebuild 0 ⟨true, 0, 5, none, [0], []⟩
    (b.rebuildOf 0).active = true ∧ (b.shard 0).incoming ≠ none ∧ (b.shard 0).wantNodes = [] ∧ (b.desc 0).g0 ≤ 0 ∧
    0 - (b.desc 0).g0 ∈ (b.rebuildOf 0).left ∧ (zeros 4096).length = 4096 ∧ b.leafAdmits 0 (0 - (b.desc 0).g0) (zeros 4096) = true := by
  decide +kernel

theorem test_rebuild_done :
    let b := (boundWith 11 [1, 2] fun x => { x with incoming := some (comes []) }).setRebuild 0 ⟨true, 0, 5, none, [], []⟩
    (b.rebuildOf 0).active = true ∧ (b.rebuildOf 0).left = [] ∧ (b.rebuildOf 0).channel = none ∧ (b.shard 0).incoming = some (comes []) ∧
    b.exchState 0 = 11 ∧ (comes []).round = (4#32).toNat := by decide +kernel

/-! Partitions and manifests. -/

/-- A record from fields. -/
def recWord (fs : List (Nat × Nat × Nat)) : BitVec 1024 := word fs

/-- The record as an argument. -/
def recArg (fs : List (Nat × Nat × Nat)) : Src := .host (toBytes 128 (recWord fs).toNat)

/-- A leaf 5 at the top with array 0. -/
def leafFive : List (Nat × Nat × Nat) := [(0, 0, 5), (0, 7, 1), (0, 8, 127), (8, 0, 1), (0x60, 0, 8)]

/-- Function 0 by a mailbox that may manage. -/
def rqF0 : Req := { rq0 with by_ := .pf }

theorem test_create_top :
    let r := recOf (Block.reset.recordArg (recArg leafFive))
    let b := Block.reset.setN (pageOf .power 0) 0x050 0xFFFFF
    recClean (b.recordArg (recArg leafFive)) = true ∧ r.id = 5 ∧ (b.part r.id).present = false ∧ r.parent = 127 ∧ rqF0.mbx.val < 32 ∧
    (List.range 16).find? (fun v => (b.partOfVf v).isNone) = some 0 ∧
    (match b.holdOf none r with
      | some h => b.fits none none r h && ((List.range 16).all fun d => fieldOf h.arrays.toNat (8 * d) 8 == 0 || b.domainReady d)
      | none => false) = true := by decide +kernel

/-- An interior partition 64 at the top with array 0, for virtual function 0. -/
def interior : Block :=
  let b := Block.reset.setN (pageOf .power 0) 0x050 0xFFFFF
  b.setPart 64 { present := true, leaf := false, parent := 127, depth := 1, top := 64, vf := some 0, view := none,
                 record := recWord [(0, 0, 64), (0, 8, 127), (8, 0, 1), (0x60, 0, 8)], hold := ⟨1, 0, 0, 0, [0, 0, 0, 0], [0, 0, 0, 0]⟩ }

/-- A leaf 5 below partition 64, numbered in its view. -/
def leafBelow : List (Nat × Nat × Nat) := [(0, 0, 5), (0, 7, 1), (0, 8, 64), (8, 0, 1)]

theorem test_create_below :
    let rq : Req := { rq0 with by_ := .vf 0 }
    let b := interior
    let r := recOf (b.recordArg (recArg leafBelow))
    recClean (b.recordArg (recArg leafBelow)) = true ∧ (b.part r.id).present = false ∧ r.parent = 64 ∧ b.mayManage rq r.parent = true ∧
    (b.part r.parent).present = true ∧ (b.part r.parent).depth < 4 ∧ (b.part r.parent).leaf = false ∧
    (match b.holdOf (b.callerView rq.by_) r with
      | some h => b.fits (some r.parent) none r h && ((List.range 16).all fun d => fieldOf h.arrays.toNat (8 * d) 8 == 0 || b.domainReady d)
      | none => false) = true := by decide +kernel

theorem test_resize :
    let src := recArg [(0, 0, 64), (0, 8, 127), (8, 0, 3), (0x60, 0, 8)]
    let b := interior
    let r := recOf (b.recordArg src)
    recClean (b.recordArg src) = true ∧ (b.part r.id).present = true ∧ b.mayManage rqF0 r.id = true ∧ (b.part r.id).parent = r.parent ∧
    b.zeroingOf r.id = none ∧ (b.part r.id).leaf = false ∧
    (match b.holdOf (b.callerView rqF0.by_) r with
      | some h => b.covers r.id r h && b.fits none (some r.id) r h && ((List.range 16).all fun d => fieldOf h.arrays.toNat (8 * d) 8 == 0 || b.domainReady d)
      | none => false) = true := by decide +kernel

theorem test_destroy :
    (interior.part 64).present = true ∧ interior.mayManage rqF0 64 = true ∧ interior.children 64 = [] ∧ (interior.part 64).leaf = false ∧
    (let b := (oneLeaf Block.reset).setFld (partPage 0) 0x0C0 0 3 1
     (b.part 0).present = true ∧ b.mayManage rqF0 0 = true ∧ b.children 0 = [] ∧ (b.part 0).leaf = true ∧ b.partState 0 = 1 ∧
     b.zeroingOf 0 = none ∧ b.resetting 0 = false) := by decide +kernel

/-- A zeroing of leaf 0 under way. -/
def zeroingJob (unload destroy : Bool) (b : Block) : Block :=
  { oneLeaf b with zeroing := [⟨rq0, 0x24, 0, ⟨1, 0, 0, 0, [0, 0, 0, 0], [0, 0, 0, 0]⟩, unload, destroy⟩] }

theorem test_zeroing :
    ((zeroingJob true false Block.reset).zeroingOf 0).isSome = true ∧ (zeroingJob true false Block.reset).leafBusy 0 = false ∧
    ((zeroingJob false false Block.reset).zeroingOf 0).isSome = true ∧
    (∀ d, d < 16 → fieldOf ((zeroingJob false false Block.reset).part 0).hold.arrays.toNat (8 * d) 8 = 0 ∨
      (zeroingJob false false Block.reset).domainReady d = true) := by decide +kernel

/-- Leaf 0 waits for its manifest on a running device. -/
def waiting : Block :=
  let b := oneLeaf Block.reset
  let b := (b.setGrant 0 Grant.none).setFld (partPage 0) 0x0C0 0 3 1
  let b := (b.setChan 0 Chan.none).setFld devPage 0x040 0 3 4
  b.setPart 0 { b.part 0 with record := recWord [(0, 7, 1), (0, 8, 127), (8, 0, 3), (0x28, 8, 1), (0x2C, 0, 16), (0x30, 0, 4096)] }

/-- A manifest for leaf 0: array 0, one channel, 16 semaphores, a seed. -/
def manifestWord (version arrays : Nat) : BitVec 2048 :=
  BitVec.ofNat 2048 (([(0, 0x4D464E31), (4, version), (8, 256), (0x10, arrays), (0x30, 4096), (0x60, 1), (0x64, 16), (0x88, 9)].map
    fun q => q.2 * 2 ^ (8 * q.1)).sum)

/-- Where it is placed. -/
def place : Placement :=
  { nearTable := 0x010000000000, deepTable := 0x010000001000, hostTable := 0x010000002000, pieceTable := 0x010020000000, nearFrames := [],
    deepFrames := [], draftPages := [], yardBase := [0, 0, 0, 0], channels := [255], semBase := 16, semWin := 0,
    commitWord := List.replicate 16 0x10000000 ++ List.replicate 16 0x10001000, commitRec := 0x010030000000 }

theorem test_manifest_load :
    let w : BitVec 2048 := BitVec.ofNat 2048 (ofBytes (waiting.argBytes (some 0) (.host (toBytes 256 (manifestWord 1 1).toNat)) 256))
    let m := manOf w
    waiting.fld devPage 0x040 0 3 = 4 ∧ waiting.partState 0 ≠ 4 ∧ manClean w = true ∧ m.version = 1 ∧ waiting.manRefused rqF0 0 m place = none ∧ m.seed ≠ 0 := by decide +kernel

theorem test_manifest_refused :
    manClean (manifestWord 1 0x10) = true ∧ (manOf (manifestWord 1 0x10)).version = 1 ∧
    waiting.manRefused rqF0 0 (manOf (manifestWord 1 0x10)) place = some (0x04, 4) ∧ manClean 0 = false := by decide +kernel

theorem test_unload :
    let b := oneLeaf Block.reset
    let b := b.setFld (partPage 0) 0x0C0 0 3 2
    (b.part 0).present = true ∧ (b.part 0).leaf = true ∧ b.mayManage rqF0 0 = true ∧ b.partState 0 = 2 ∧ b.exchState 0 = 0 ∧
    b.fld (partPage 0) 0x600 0 2 = 0 ∧ b.zeroingOf 0 = none ∧ b.hdmOf 0 = false ∧ (1007 : Fin 1025).val * 64 < 1024 * 63 ∧
    (b.setFld (partPage 0) 0x0C4 3 1 1).fld (partPage 0) 0x0C4 3 2 ≠ 0 := by decide +kernel

/-! The host. -/

theorem test_host_windows :
    let b := (oneLeaf Block.reset).setN (partPage 0) 0x130 4
    b.winRefused rqF0 0 0 4 = none ∧ (∀ i, i < 1 → fieldOf (ofBytes (((b.argBytes (some 0) (.host (toBytes 8 0x1F)) 8).drop (8 * i)).take 8)) 5 16 = 0) ∧
    (1#32).toNat ≠ 0 ∧ (0x80000000#32).toNat ≤ 2 ^ 31 ∧ b.semOfFn (.vf 0) 3 = some 3 := by decide +kernel

/-- The HDM window bound to leaf 0's deep tier. -/
def bindHdm (b : Block) : Block := b.setHdm (some (0, 0x010000000000))

theorem test_hdm_access :
    let b := bindHdm (deepLeaf Block.reset)
    0x1040 < hdmSize ∧ b.hdm.held = [] ∧ b.hdm.move = none ∧ b.hdmBound = some (0, 0x010000000000) ∧
    b.xlTier 0 .deep (0x010000000000 + 0x1040 / 64 * 64 - regionBase .deep) false = .dev 0x010000201040 ∧
    b.xlTier 0 .deep (0x010000000000 + 0x1040 - regionBase .deep) true = .dev 0x010000201040 ∧ b.tierServes 0x010000201040 = true ∧
    b.snoop.length < filterLines := by decide +kernel

/-- A tracked line. -/
def line (w : Option Bool) (sent : Nat) : SfLine := ⟨0x1040, 0x010000201040, false, w, sent⟩

theorem test_hdm_lines :
    (let b := { bindHdm (oneLeaf Block.reset) with snoop := [line none 0] }
     b.hdm.move = none ∧ b.hdm.held = [] ∧ (b.snoop.any fun l => l.off == 0x1040 / 64 * 64) = true) ∧
    (let b := { bindHdm (oneLeaf Block.reset) with snoop := [line (some true) 0] }
     (b.snoop.find? fun l => l.off == 0x1040 / 64 * 64 && l.waiting.isSome) = some (line (some true) 0)) ∧
    (let b := { bindHdm (oneLeaf Block.reset) with snoop := [line (some false) 0] }
     (b.snoop.find? fun l => l.off == 0x1040 / 64 * 64 && l.waiting.isSome) = some (line (some false) 0)) ∧
    (let b := { bindHdm (oneLeaf Block.reset) with snoop := [line (some false) 0], now := 10000000 }
     (b.snoop.any fun l => l.waiting.isSome && decide (l.sent + 10000000 ≤ b.now)) = true) ∧
    (let b := { oneLeaf Block.reset with hdm := { Block.reset.hdm with move := some ⟨some (rq0, 0x30), some (0, 0)⟩ } }
     0x1040 < hdmSize ∧ b.hdm.move.isSome = true) ∧
    (Block.reset.hdm.move = none ∧ Block.reset.hdm.held = [] ∧ Block.reset.hdmBound = none ∧ Block.reset.snoop = []) := by decide +kernel

theorem test_hdm_bind :
    let b := (oneLeaf Block.reset).setFld (partPage 0) 0x0C0 0 3 2
    rqF0.by_ = .pf ∧ b.hdm.move = none ∧ 0x010000200000 % 0x200000 = 0 ∧ regionOf 0x010000200000 = some .deep ∧ (b.part 0).present = true ∧
    (b.part 0).leaf = true ∧ (b.grant 0).loaded = true ∧ b.partState 0 = 2 ∧ b.snoop = [] := by decide +kernel

theorem test_host_error :
    let w := word [(0, 0, 4), (0x10, 6, 0), (0x14, 0, 3), (0x20, 0, 0x800000000000), (0x28, 0, 0xFE0000000000)]
    let f := { flight w (engCart 0) with started := true }
    let b := { oneLeaf Block.reset with flights := [f] }
    b.hostFlights (· == 0) = (0, f) :: [] := by decide +kernel

theorem test_host_links :
    Block.reset.fld hostPage 0x040 10 1 = 0 ∧ (Block.reset.setFld hostPage 0x040 10 1 1).fld hostPage 0x040 10 1 = 1 ∧ 8 ∈ [1, 2, 4, 8] ∧
    LinkDownKind.hotReset ≠ LinkDownKind.linkDown := by decide +kernel

/-- A quiesce of mode `m` whose time is over. -/
def quiescing (m : Nat) (b : Block) : Block := { oneLeaf b with quiescing := some ⟨rq0, m, 0⟩ }

theorem test_quiesce :
    (oneLeaf Block.reset).quiescing = none ∧ (quiescing 0 Block.reset).quiescing = some ⟨rq0, 0, 0⟩ ∧ 0 ≤ (quiescing 0 Block.reset).now ∧
    (let b := quiescing 1 Block.reset
     let b := b.setChan 0 { b.chan 0 with quiesced := true }
     b.runningLeaves.all b.leafStopped = true ∧ (b.flights.any fun f => f.engine < 2 ^ 20) = false ∧ b.hdm.move = none ∧ b.snoop = []) := by
  decide +kernel

/-! Resets. -/

theorem test_resets :
    Block.reset.warm = none ∧ ({ Block.reset with warm := some ⟨[], false⟩ } : Block).warm = some ⟨[], false⟩ ∧
    (let b := Block.reset.setMc .near 3 { McUnit.none with draining := some 7 }
     (b.mc .near 3).draining = some 7 ∧ b.now ≤ 7 + 50000 ∧ 7 + 50000 ≤ ({ b with now := 50007 } : Block).now) ∧
    (let b := { Block.reset with warm := some ⟨[rq0], false⟩ }
     b.warm = some ⟨[rq0], false⟩ ∧ (∀ k, k < 32 → (b.mc .near k).draining = none ∧ (b.mc .deep k).draining = none) ∧ b.power.tripped = 0) ∧
    ({ Block.reset.haw with released := true } : Haw).released = true ∧
    (let b := (oneLeaf Block.reset).setFld (partPage 0) 0x0C0 0 3 2
     (b.part 0).present = true ∧ (b.part 0).leaf = true ∧ (∀ d, d < 16 → (b.draft 0 d).state = .free) ∧ (b.grant 0).loaded = true ∧
     b.partState 0 = 2 ∧ b.partOfVf 0 = some 0 ∧ 0 ∈ b.leavesUnder 0 ∧ b.partOfVf 1 = none) ∧
    (4799 < 4800 ∧ tolerated 5500 = false ∧ ¬ (6000 < 5500)) := by decide +kernel

/-! Lending. -/

/-- Leaf 0 in WARMUP lends array 0 to slot 0 of leaf 1's fill. -/
theorem test_lend : (lending Block.reset).mayLend 0 1 0 0 = true := by decide +kernel

/-- The same leaf in STEADY, one of two microbatches done, its array lent. -/
def lent (b : Block) : Block :=
  { (oneLeaf b).setN (partPage 0) 0x204 2 with sems := [(0, 1)] }.setArr 0 { ArrayUnit.none with lentTo := some ⟨1, 0, 0, none⟩ }

theorem test_reclaim :
    ((lent Block.reset).arr 0).lentTo = some ⟨1, 0, 0, none⟩ ∧ (lent Block.reset).fld (arrayPage 0) 0x00C 0 1 = 0 ∧
    (lent Block.reset).phase 0 = 2 := by decide +kernel

/-! Hawthorn. -/

/-- Hawthorn's state is `n`. -/
def haw (n : Nat) (b : Block) : Block := b.setFld hawPage 0x040 0 2 n

/-- Function 0 by MBX[1], the Steward by MBX[3]. -/
def rqHaw : Req := ⟨1, 5, .pf⟩
def rqSte : Req := ⟨3, 5, .steward⟩

theorem test_hawthorn :
    Block.reset.hawState = 0 ∧ (haw 1 Block.reset).hawState = 1 ∧ (haw 2 Block.reset).hawState = 2 ∧ (haw 1 Block.reset).haw.released = false ∧
    isF0 rqHaw = true ∧ isS rqSte = true ∧ isF0 rqSte = false ∧ isS rqHaw = false ∧
    (let b := { haw 1 Block.reset with now := 1000000000 }
     b.entropyOk = false ∧ b.haw.failedAt + 1000000000 ≤ b.now) ∧
    (let b := Block.reset.setFld hawPage 0x040 4 1 1
     let b := { b with haw := { b.haw with sinceSeed := 2 ^ 20 } }
     2 ^ 20 ≤ b.haw.sinceSeed ∧ b.entropyOk = true) := by decide +kernel

/-- The records with owner slots 0 and 1 valid. -/
def owned : NonVolatile :=
  { NonVolatile.factory with fuses := { NonVolatile.factory.fuses with ownerValid := [(0, FuseBit.whole), (1, ⟨1, 0⟩)] } }

theorem test_fuses :
    (NonVolatile.factory.fuses.validBit 3).blown = false ∧ NonVolatile.factory.fuses.ownerTouched.getLsbD 3 = false ∧
    owned.fuses.ownerActive 0 = true ∧ owned.fuses.ownerActive 1 = true ∧ owned.fuses.ownerActive 2 = false ∧ owned.fuses.owned = true ∧
    NonVolatile.factory.fuses.vendorActive 1 = true ∧ NonVolatile.factory.fuses.dbgSeal.blown = false ∧
    (haw 1 Block.reset).debugOpen = false ∧ (7#32).toNat < 8 ∧ ([] : List (List Byte)).length ≤ 1024 := by decide +kernel

/-- R534: one cell under one margin is enough for a bit to read blown, and boot blows the other cells again. -/
theorem test_fuse_mend : owned.fuses.mend.validBit 1 = FuseBit.whole ∧ (owned.fuses.mend.validBit 2) = FuseBit.intact := by decide +kernel

/-! Thorn. -/

/-- An operation of slot 2 over one byte that has been given. -/
def macRun : ThornRun := ⟨2, zeros 32, 1, [7]⟩
def macing (b : Block) : Block := { b with haw := { b.haw with thornRun := some macRun } }

theorem test_thorn :
    Block.reset.haw.thornRun = none ∧ bitOf (10#32).toNat 3 = true ∧ (macing Block.reset).haw.thornRun = some macRun ∧
    macRun.msg.length = macRun.len ∧ macRun.slot = 2 ∧ (zeros 8).length = 8 ∧
    12 ≤ (Block.reset.setFld (mbxPage 1) 0x040 1 2 1).mbxRegs 1 ∧ (Block.reset.setFld (mbxPage 1) 0x040 0 1 1).mbxQueue 1 = true ∧
    (Block.reset.thornSlot 7).next = [] := by decide +kernel

/-! Attestation. -/

/-- A running Hawthorn whose responder is negotiated as far as `n`. -/
def spoken (n : Nat) : Block :=
  let b := haw 1 Block.reset
  { b with haw := { b.haw with spdm := { Spdm.none with stage := n } } }

/-- Its session 3 in a phase. -/
def talking (p : SpdmPhase) : Block := (spoken 3).setSpdmSession 3 ⟨p, [1]⟩

theorem test_spdm :
    (spoken 0).hawState = 1 ∧ 1 ≤ (spoken 1).haw.spdm.stage ∧ 2 ≤ (spoken 2).haw.spdm.stage ∧ 3 ≤ (spoken 3).haw.spdm.stage ∧
    (spoken 0).haw.spdm.stage < 1 ∧ ((talking .shaking).spdmSession 3).phase = .shaking ∧
    ((talking .established).spdmSession 3).phase = .established ∧ (talking .established).hawState = 1 := by decide +kernel

theorem test_spdm_chunks :
    (let b := spoken 2
     let b := { b with haw := { b.haw with spdm := { b.haw.spdm with sending := some ⟨4, 1, [7]⟩, taking := some ⟨4, 2, [7]⟩ } } }
     b.hawState = 1 ∧ 2 ≤ b.haw.spdm.stage ∧ b.haw.spdm.sending = some ⟨4, 1, [7]⟩ ∧ b.haw.spdm.taking = some ⟨4, 2, [7]⟩) := by decide +kernel

/-- Stream 4 has key set 1, or goes by key set 0 and has both. -/
def ideKeys (cur : Option Nat) : IdeStream := ⟨[(0, some [2]), (1, some [1])], cur, 0, 0, false⟩

theorem test_ide :
    (let b := (talking .established).setIde 4 (ideKeys (some 0))
     (storeGet (fun _ => none) (b.ideOf 4).keys 1).isSome = true ∧ (b.ideOf 4).cur = some (1 - 1)) ∧
    (let b := (talking .established).setIde 4 (ideKeys none)
     (storeGet (fun _ => none) (b.ideOf 4).keys 0).isSome = true ∧ (b.ideOf 4).cur = none) ∧
    ((Block.reset.setIde 0 (ideKeys (some 1))).ideOf 0).cur = some 1 := by decide +kernel

/-- R551's boundaries: the warning at 2³² units, the failure at 2³⁴. -/
theorem test_ide_bounds :
    (match execIdeRekey 4 (2 ^ 32) (st fun b => b.setIde 4 (ideKeys (some 0))) with
      | .next t => (t.block.ideOf 4).told && (t.block.ideOf 4).cur == some 0 && t.block.fld hawPage 0x014 7 1 == 1
      | _ => false) = true ∧
    (match execIdeRekey 4 (2 ^ 34) (st fun b => b.setIde 4 (ideKeys (some 0))) with
      | .next t => (t.block.ideOf 4).cur == none && t.block.fld hostPage 0x014 3 1 == 1
      | _ => false) = true := by decide +kernel

/-! The debug port. -/

/-- The port is unlocked for a scope. -/
def debugging (scope : Word) (b : Block) : Block :=
  let b := (haw 1 b).setFld hawPage 0x040 3 1 1
  { b with haw := { b.haw with scope := scope, halted := 0x80 } }

theorem test_debug_port :
    (let b := debugging 7 Block.reset
     b.mbxExists 2 = true ∧ b.debugOpen = true ∧ bitOf b.haw.scope.toNat 0 = true ∧ bitOf b.haw.scope.toNat 1 = true ∧
     bitOf b.haw.scope.toNat 2 = true ∧ b.haw.halted.getLsbD 7 = true ∧ b.haw.halted.getLsbD 0 = false) ∧
    goodSpan 0xFC8 14 = true ∧ coreReg 64 = true ∧ coreReg 0x1FFF = true ∧ coreReg 65 = false ∧ Block.reset.debugOpen = false ∧
    Block.reset.mbxExists 2 = true ∧ (Block.reset.setN hawPage 0x044 1).mbxExists 2 = false ∧
    debugRange 0xFF0007FFFFC0 64 = true ∧ debugRange 0x800000000000 4 = false := by decide +kernel

theorem test_debug_page :
    pageKind devPage = some (.dev, 0) ∧ (debugging 7 (oneLeaf Block.reset)).pageRef .debug devPage = .page devPage ∧
    (debugging 7 (oneLeaf Block.reset)).fld devPage 0x01C 0 1 = 0 ∧ (debugging 7 Block.reset).latched .debug devPage 0x040 = none ∧
    ((debugging 7 (oneLeaf Block.reset)).setFld devPage 0x01C 0 1 1).fld devPage 0x01C 0 1 = 1 := by decide +kernel

/-! Power. -/

theorem test_power :
    (let b := haw 1 Block.reset
     let b := { b with haw := { b.haw with released := true } }
     b.sideband = true) ∧
    (Block.reset.mayBeOff 15 = true ∧ (Block.reset.setFld devPage 0x040 0 3 4).mayBeOff 17 = false ∧ Block.reset.mayBeOff 19 = true ∧
      ((oneLeaf Block.reset).setN (portPage 47) 0x040 1).mayBeOff 19 = false) ∧
    (Block.reset.power.wakeQueue = (16 : Fin 20).val :: [17, 18, 19, 0, 1, 2, 3, 4, 5, 6, 7, 8, 9, 10, 11, 12, 13, 14, 15] ∧
      Block.reset.power.lastOn = none) ∧
    (let b := { (oneLeaf Block.reset) with now := 520000 }
     bitOf (b.regN powerPage 0x04C) 19 = true ∧ storeGet (fun _ => 0) b.power.onAt 19 + 520000 ≤ b.now) ∧
    Block.reset.power.alarm = false ∧ Block.reset.power.tripped = 0 := by decide +kernel

/-- R570's duty at the boundaries of its cases. -/
theorem test_duty :
    dutyAfter 5 2600 2901 0 = 32 ∧ dutyAfter 40 2600 2901 0 = 40 ∧ dutyAfter 64 2600 0 2601 = 64 ∧ dutyAfter 5 2600 0 2600 = 5 ∧
    dutyAfter 5 2600 0 2548 = 5 ∧ dutyAfter 5 2600 0 2547 = 4 ∧ dutyAfter 0 2600 0 0 = 0 := by decide

/-- More than 1 % of the last second's samples were above 0. -/
theorem test_alarm :
    let b := { Block.reset with power := { Block.reset.power with govHigh := List.replicate 1001 0 } }
    1000 < (b.power.govHigh.filter (b.now < · + 1000000000)).length := by decide +kernel

/-! Ageing. -/

theorem test_ageing :
    (List.replicate 512 (50 : Int)).length = 512 ∧ rqF0.by_ = .pf ∧
    (let b := { Block.reset with power := { Block.reset.power with decided := [(3, true)] } }
     b.stepDecided 3 = true ∧ b.fieldBusy 3 (b.fieldClk 3 - 25) = false) := by decide +kernel

/-! Steps. -/

/-- A sealed module steps. -/
theorem test_sealed :
    let nv := { NonVolatile.factory with fuses := { NonVolatile.factory.fuses with dbgSeal := FuseBit.whole } }
    nv.fuses.dbgSeal.blown = true ∧ step ⟨[], nv, Block.reset⟩ = .next (idle ⟨[], nv, Block.reset⟩) :=
  ⟨by decide +kernel, rfl⟩

/-! Well-formedness: the terms below each break one check of the command's. -/

def header : SHdr := ⟨0x01, 1, 0, 1, 0, 3, 4, 64⟩
def chunkOf (i crc : Nat) : ChunkMsg := ⟨i, 0, 0, 1, false, 0, crc, false, []⟩
def fragOf : FragMsg := ⟨0, 0, 1, 0, []⟩
def flitOf (seq ack : Nat) (n : Nat) : Flit := ⟨seq, 0, 0, ack, false, 0, [], zeros n, 0⟩
def frameHdr : FrameHdr := ⟨0, 0, 0, 0, 0, 0, 4, 0, 0, true, false, false, 0, 0, 0, 0, 0⟩
def keyMsg (t e i : Nat) : KeyMsg := ⟨t, e, true, i, [], [], [], []⟩
def envelopeOf (t e i c n : Nat) : Envelope := ⟨t, e, 0, i, c, [], zeros n⟩
def signedReq (c d n a s : Nat) : SignedReq := ⟨c, d, zeros n, zeros a, s, [], []⟩
def noImage : FwImage := ⟨0, 1, 0, 0, 0, [], false, true, [], [], [], [], [], []⟩
def noManifest : Manifest := ⟨0, 0, 0, 0, 0, 0, [], [], [], [], []⟩
def flowOf : FlowFields := ⟨0, 0, 0, 0, 0, 0, 0⟩
def windowOf : WindowFields := ⟨0, 0, 0, 0, 0⟩
def keeperOf (a b : Nat) : KeeperArgs := ⟨a, 0, b, 0, 0, 0, 0, 1, false, false⟩

/-- Commands none of which is well formed. -/
abbrev Refused (l : List Instr) : Prop := (l.all fun i => !wellFormed i) = true

theorem test_refused_registers : Refused
    [.regWrite .pf 0x6400 0 4 0, .regWrite .pf 0 0 3 0, .regWrite .pf 0 0xFFC 8 0, .eventClear .pf 0x6400 0x014 4 0 0, .eventClear .pf 0 0x014 5 0 0,
     .eventClear .pf 0 0x1000 1 0 0, .lowHalfRead .pf 0x6400 ⟨0, 4⟩ none, .lowHalfRead .pf 0 ⟨0x1000, 4⟩ none, .lowHalfRead .pf 0 ⟨0, 3⟩ none,
     .blkLockWrite 0x4000 1 none, .blkLockWrite 0 1 (some (0x1000, 0)), .blkLockWrite 0 1 (some (2, 0)), .rplQRead .pf 64, .doorbell .pf 256 0,
     .resume .pf 256, .dropPkt .pf 256, .flush .pf 256, .stepRegWrite .pf 0 0xFFD 4 0, .stepRegWrite .pf 0 0x200 6 0] := by
  decide

theorem test_refused_memory : Refused
    [.memAccess .steward (2 ^ 48) (.read 1) .none, .memAccess .steward 0 (.read 0) .none, .memAccess .steward 0 (.read 4097) .none,
     .memAccess .steward 0 (.write [] false) .none, .translationFill 0 0 .near (2 ^ 20), .refresh .near 0 128, .tierTraining .near [(0, 0)],
     .tierTraining .near [(0, 4)], .ringEnable .pf 128 0 0, .pzEnable .pf 128 0, .pzFlush .pf 128] := by
  decide

/-- Contents longer than a message or a page carries. -/
theorem test_refused_lengths :
    (∀ bs : List Byte, 4096 < bs.length → wellFormed (.memAccess .steward 0 (.write bs false) .none) = false ∧
      wellFormed (.spdmChunkSend 0 0 true bs) = false) ∧
    (∀ hits : List ScrubHit, 65536 < hits.length → wellFormed (.scrubPass .near 0 hits) = false) ∧
    (∀ bs : List Byte, 8192 < bs.length → wellFormed (.chunk 0 header (ChunkMsg.mk 0 0 0 1 false 0 0 false bs)) = false ∧
      wellFormed (.manifest 0 header (FragMsg.mk 0 0 1 0 bs) noManifest [] [] []) = false ∧
      wellFormed (.body 0 header (FragMsg.mk 0 0 1 0 bs)) = false) := by
  refine ⟨fun bs h => ?_, fun hits h => ?_, fun bs h => ?_⟩ <;> simp [wellFormed, memShape] <;> omega

theorem test_refused_headers : Refused
    ([{ header with type_ := 256 }, { header with version := 256 }, { header with srcSite := 65536 }, { header with dstSite := 65536 },
      { header with shard := 2 ^ 32 }, { header with round := 2 ^ 32 }].flatMap fun h =>
      [.chunk 0 h (chunkOf 0 0), .ack 0 h [], .close 0 h false 0, .open_ 0 h ⟨0, 0, false, 0, zeros 32⟩, .hello 0 h ⟨0, 0, 0, 0, false, zeros 32⟩,
       .manifest 0 h fragOf noManifest [] [] [], .body 0 h fragOf, .digestReq 0 h 0 0, .digestResp 0 h 0 0 [], .blockReq 0 h 0 false [],
       .blockData 0 h 0 0 []]) := by
  decide +kernel

theorem test_refused_siori : Refused
    [.readyReceived 0 (2 ^ 24) 0, .normValueReceived 0 (2 ^ 24) 0 0, .chunkSend 0 65536 0, .chunkSend 0 0 4096, .chunkResend 0 65536 0,
     .chunkResend 0 0 4096, .chunk 0 header (chunkOf 65536 0), .chunk 0 header (chunkOf 0 (2 ^ 32)), .ack 0 header [65536],
     .close 0 header false 65536, .open_ 0 header ⟨0, 0, false, 0, zeros 31⟩, .hello 0 header ⟨0, 0, 0, 0, false, zeros 33⟩, .segmentOuter 0 65536,
     .envelope 0 (envelopeOf 256 0 0 0 16), .envelope 0 (envelopeOf 0 256 0 0 16), .envelope 0 (envelopeOf 0 0 (2 ^ 32) 0 16),
     .envelope 0 (envelopeOf 0 0 0 (2 ^ 64) 16), .envelope 0 (envelopeOf 0 0 0 0 15), .staleEpoch 1024 0 0, .staleEpoch 0 256 0,
     .staleEpoch 0 0 (2 ^ 64), .rekeying 1024] := by
  decide +kernel

theorem test_refused_ports : Refused
    [.flit 0 (flitOf 4096 0 1) false, .flit 0 (flitOf 0 4096 1) false, .flit 0 (flitOf 0 0 245) false, .nak 0 4096,
     .frame 0 ⟨{ frameHdr with destMod := 2 ^ 24 }, [], []⟩ 0, .frame 0 ⟨{ frameHdr with destPart := 64 }, [], []⟩ 0,
     .frame 0 ⟨{ frameHdr with srcMod := 2 ^ 24 }, [], []⟩ 0, .frame 0 ⟨{ frameHdr with srcPart := 64 }, [], []⟩ 0,
     .frame 0 ⟨{ frameHdr with vc := 4 }, [], []⟩ 0, .frame 0 ⟨{ frameHdr with epoch := 256 }, [], []⟩ 0, .arrivalSignal 0 (2 ^ 24) 0,
     .arrivalSignal 0 0 64, .handshakeInit (.hop 0) (keyMsg 256 0 0), .handshakeInit (.hop 0) (keyMsg 0 256 0),
     .handshakeInit (.hop 0) (keyMsg 0 0 (2 ^ 32)), .handshakeResp (.e2e 0) (keyMsg 256 0 0), .handshakeConfirm (.hop 0) (keyMsg 0 256 0),
     .flowAdd rq0 (2 ^ 32) flowOf, .flowRate rq0 (2 ^ 32) 0, .flowRate rq0 0 (2 ^ 32), .flowWithdraw rq0 (2 ^ 32),
     .windowSet rq0 0 (2 ^ 32) windowOf, .hostErr 0 .timeout (2 ^ 48), .hostLinkUp 3 1, .hostLinkUp 8 0, .hostLinkUp 8 4] := by
  decide +kernel

theorem test_refused_leaves : Refused
    [.rebuild rq0 0 (2 ^ 64) 0 0 0 0, .rebuild rq0 0 0 (2 ^ 48) 0 0 0, .keeperSet rq0 0 (keeperOf (2 ^ 24) 0), .keeperSet rq0 0 (keeperOf 0 (2 ^ 24)),
     .partDestroy rq0 (2 ^ 32), .partQuery rq0 (2 ^ 32) 0, .partQuery rq0 0 (2 ^ 64), .lend 0 1 0 32, .shortfall 0 false (2 ^ 64) 1024,
     .hdmBind rq0 0 (2 ^ 64), .hostwinMap rq0 0 (2 ^ 32) 0 (.virt 0), .hostwinMap rq0 0 0 (2 ^ 32) (.virt 0), .hostwinUnmap rq0 0 (2 ^ 32) 0,
     .hostwinUnmap rq0 0 0 (2 ^ 32), .mbxAssign rq0 (2 ^ 32) 0, .mbxAssign rq0 0 (2 ^ 32), .quiesce rq0 (2 ^ 32) 0, .quiesce rq0 0 (2 ^ 32),
     .semAdd .pf 16384 0, .reqGo .pf 64 0, .reqQ .pf 64 0, .rplDone .pf 64 0, .rplDropPkt .pf 64, .mbxCfgWrite .pf 64 0, .hdmHostRead 63,
     .hdmHostWrite 1 (zeros 64), .hdmHostWrite 0 (zeros 63), .hostEviction 32, .birsp 1 none, .birsp 0 (some (zeros 65)), .h2dSnoop (2 ^ 64),
     .eventTest rq0 (2 ^ 32), .ringSlotWrite .pf 256 0 0 [], .ringSlotWrite .pf 0 64 0 [], .ringSlotWrite .pf 0 0 128 [0], .rplMsgRead .pf 64 0,
     .rplMsgRead .pf 0 16] := by
  decide +kernel

theorem test_refused_hawthorn : Refused
    ([.stewardRelease 0 [], .random rq0 (2 ^ 32), .fwStage rq0 (2 ^ 32) noImage, .fwActivate rq0 (2 ^ 32), .svnCommit rq0 (2 ^ 32),
      .ownerKeyAdd rq0 (2 ^ 32) (zeros 1793) none true, .ownerKeyAdd rq0 0 (zeros 1792) none true, .mrExtend rq0 (2 ^ 32) (zeros 32),
      .mrExtend rq0 3 (zeros 31), .fabricSet rq0 [zeros 31] none, .thornKeySet rq0 (2 ^ 32) [0, 0, 0, 0, 0, 0, 0, 0], .thornKeySet rq0 1 [0],
      .thornKeyDerive rq0 (2 ^ 32) [0, 0, 0, 0], .thornKeyDerive rq0 1 [0], .thornMac rq0 (2 ^ 32) (.virt 0) 0, .thornMac rq0 1 (.virt 0) (2 ^ 32),
      .getCertificate 8 0 0, .getCertificate 0 65536 0, .getCertificate 0 0 65536, .challenge [], .getMeasurements 256 (zeros 32),
      .getMeasurements 0 [], .keyExchange [], .chunkGet 256 0, .chunkGet 0 65536, .vendorDefinedRequest 0 0 0 [], .spdmChunkSend 256 0 true [],
      .spdmChunkSend 0 65536 true [], .ownerKeyRevoke rq0 (2 ^ 32) (signedReq 8 0 32 32 0), .vendorKeyRevoke rq0 (2 ^ 32) (signedReq 9 0 32 32 4)] ++
     ([signedReq 256 0 32 32 0, signedReq 8 (2 ^ 64) 32 32 0, signedReq 8 0 31 32 0, signedReq 8 0 32 31 0, signedReq 8 0 32 32 8].flatMap fun r =>
      [.ownerKeyRevoke rq0 0 r, .vendorKeyRevoke rq0 0 r, .debugUnlock rq0 1 r])) := by
  decide +kernel

theorem test_refused_debug_power : Refused
    [.pageRead 0 0x4000 0 1, .pageRead 0 0 (2 ^ 32) 1, .pageRead 0 0 0 (2 ^ 32), .pageWrite 0 0x4000 0 [0], .pageWrite 0 0 (2 ^ 32) [0],
     .pageWrite 0 0 0 (List.replicate 13 0), .memRead 0 (2 ^ 64) 1, .memRead 0 0 (2 ^ 32), .memWrite 0 (2 ^ 64) [0],
     .memWrite 0 0 (List.replicate 13 0), .coreStep 0 (2 ^ 32) 1, .coreStep 0 0 (2 ^ 32), .coreRegRead 0 (2 ^ 32) 0, .coreRegRead 0 0 (2 ^ 32),
     .coreRegWrite 0 (2 ^ 32) 0 0, .coreRegWrite 0 0 (2 ^ 32) 0, .powerCapSet rq0 (2 ^ 32), .domainPower rq0 (2 ^ 32) true, .ageingReading [0],
     .ageingMeasure rq0 [0], .ageingConfig rq0 (2 ^ 32) 5 1500, .ageingConfig rq0 1 (2 ^ 32) 1500, .ageingConfig rq0 1 5 (2 ^ 32),
     .evqModuleSet rq0 (2 ^ 64) 0] := by
  decide +kernel

/-- Commands at the ends of their ranges are well formed. -/
theorem test_well_formed :
    [.regWrite .pf 0x63FF 0xFF8 8 0, .lowHalfRead .pf 0x63FF ⟨0xFF8, 8⟩ none, .blkLockWrite 0x3FFF 1 (some (0xFFC, 0)), .doorbell .pf 255 0,
     .memAccess .steward (2 ^ 48 - 1) (.read 4096) .none, .memAccess .steward 0 (.write [0] true) .none, .tierTraining .near [(31, 3)],
     .chunk 0 header (chunkOf 65535 (2 ^ 32 - 1)), .flit 0 (flitOf 4095 4095 244) false, .frame 0 ⟨frameHdr, [], []⟩ 0,
     .envelope 0 (envelopeOf 255 255 (2 ^ 32 - 1) (2 ^ 64 - 1) 16), .lend 0 1 0 31, .hostLinkUp 8 3, .ringSlotWrite .pf 255 63 127 [0],
     .debugUnlock rq0 7 (signedReq 255 0 32 32 5), .getCertificate 7 65535 65535, .pageWrite 0 0x3FFF 0xFFC [0], .nonce rq0].all wellFormed = true := by
  decide +kernel
end Sys2Proof.Machine
end

section
/-!
SUPPORT. Laws of register accesses: the page map and the register tables as an access meets them, what a read returns, clears and
latches, what a write of a word does, and how an access is cut into words.
-/

namespace Sys2Proof.Machine

open Sys2Proof

/-! Commands whose whole effect is on the block. -/

theorem does_of_onBlock {i : Instr} {s : State} {f : Block → Block} {P : Block → Prop} (h : exec i s = onBlock f s) (hp : P (f s.block)) :
    Does i s P := ⟨{ s with block := f s.block }, h, rfl, rfl, hp⟩

theorem onBlock_eq_self {f : Block → Block} {s : State} (h : f s.block = s.block) : onBlock f s = .next s := by
  unfold onBlock
  rw [h]

theorem exec_regWrite (who : Agent) (x off width : Nat) (v : DWord) (s : State) :
    exec (.regWrite who x off width v) s = onBlock (fun b => b.writeAccess who x off width v.toNat 0) s := rfl

theorem exec_eventClear (who : Agent) (x off width : Nat) (v hw : DWord) (s : State) :
    exec (.eventClear who x off width v hw) s = onBlock (fun b => b.writeAccess who x off width v.toNat hw.toNat) s := rfl

theorem exec_lowHalfRead (who : Agent) (x off width : Nat) (u : Option DWord) (s : State) :
    exec (.lowHalfRead who x ⟨off, width⟩ u) s =
      onBlock (fun b => Block.answer who x off (b.readAccess who x off width (u.map BitVec.toNat))) s := rfl

theorem exec_slotsPeakRead (who : Agent) (t : Tier) (k : Fin 32) (u : Option Word) (s : State) :
    exec (.slotsPeakRead who t k u) s = onBlock (fun b => b.readRc who (pageMc t k) 0x0A4 (u.map BitVec.toNat)) s := rfl

theorem exec_inflightHwmRead (who : Agent) (p : Fin 64) (u : Option Word) (s : State) :
    exec (.inflightHwmRead who p u) s = onBlock (fun b => b.readRc who (pageOf .part p) 0x238 (u.map BitVec.toNat)) s := rfl

theorem exec_stashHwmRead (who : Agent) (p : Fin 64) (u : Option DWord) (s : State) :
    exec (.stashHwmRead who p u) s = onBlock (fun b => b.readRc who (pageOf .part p) 0x248 (u.map BitVec.toNat)) s := rfl

theorem exec_reclaimMaxRead (who : Agent) (p : Fin 64) (u : Option Word) (s : State) :
    exec (.reclaimMaxRead who p u) s = onBlock (fun b => b.readRc who (pageOf .part p) 0x0E8 (u.map BitVec.toNat)) s := rfl

/-! What is kept. -/

/-- Memory and its poison marks lie in three fields of the block. -/
theorem memoryKept_of_fields {b b' : Block} (hm : b'.mem = b.mem) (hp : b'.poison = b.poison) (hq : b'.poisonB = b.poisonB) :
    MemoryKept b b' := fun a => by
  unfold Block.byte Block.marked Block.poisonA Block.poisonBit
  rw [hm, hp, hq]
  exact ⟨rfl, rfl⟩

/-- What changes no more than an event does leaves memory alone. -/
theorem memoryKept_of_rest {b b' : Block} (h : b'.rest = b.rest) : MemoryKept b b' := by
  have hm := congrArg Block.mem h
  have hp := congrArg Block.poison h
  have hq := congrArg Block.poisonB h
  exact memoryKept_of_fields hm hp hq

/-- And the units. -/
theorem unitsKept_of_rest {b b' : Block} (h : b'.rest = b.rest) : UnitsKept b b' := by
  have hs := congrArg Block.sems h
  have hc := congrArg Block.chans h
  have hd := congrArg Block.drafts h
  have ha := congrArg Block.arrays h
  have hv := congrArg Block.vecs h
  exact ⟨hs, hc, hd, ha, hv⟩

/-- The registers that are kept depend on the registers alone. -/
theorem RegsKeptBut.congr {b c b' c' : Block} {l : List (Nat × Nat)} (hb : c.regs = b.regs) (hb' : c'.regs = b'.regs)
    (h : RegsKeptBut b b' l) : RegsKeptBut c c' l := fun p o hn ho => by
  rw [reg_congr hb', reg_congr hb, h p o hn ho]

theorem regsKeptBut_setN (b : Block) (p o v : Nat) (ho : o < 0x1000) : RegsKeptBut b (b.setN p o v) [(p, o)] := fun p' o' hn ho' =>
  reg_setReg_ne b _ fun he => hn (by
    obtain ⟨rfl, rfl⟩ := (regKey_inj ho ho').1 he
    exact List.mem_singleton_self _)

/-- Registers kept by one update and by the next are kept by both. -/
theorem RegsKeptBut.trans {b c d : Block} {l m : List (Nat × Nat)} (h : RegsKeptBut b c l) (h' : RegsKeptBut c d m) :
    RegsKeptBut b d (l ++ m) := fun p o hn ho => by
  rw [List.mem_append, not_or] at hn
  rw [h' p o hn.2 ho, h p o hn.1 ho]

/-! Bits of a word. -/

theorem bitOf_eq_testBit (v i : Nat) : bitOf v i = v.testBit i := by
  rw [Nat.testBit_eq_decide_div_mod_eq]
  rfl

/-- The bits of a word outside a mask. -/
theorem testBit_notMask (m i : Nat) (hi : i < 32) : (2 ^ 32 - 1 - m % 2 ^ 32).testBit i = !m.testBit i := by
  rw [Nat.sub_sub, Nat.add_comm, Nat.testBit_two_pow_sub_succ (Nat.mod_lt _ (Nat.two_pow_pos 32)), Nat.testBit_mod_two_pow]
  simp [hi]

/-- Bits taken from `v` under a mask, the others from `old`. -/
theorem testBit_masked (old v m i : Nat) (hi : i < 32) :
    ((old &&& (2 ^ 32 - 1 - m % 2 ^ 32)) ||| (v &&& m % 2 ^ 32)).testBit i = if m.testBit i then v.testBit i else old.testBit i := by
  rw [Nat.testBit_or, Nat.testBit_and, Nat.testBit_and, testBit_notMask m i hi, Nat.testBit_mod_two_pow]
  cases m.testBit i <;> simp [hi]

/-- W1C bits (R12, R13): those hardware sets stay set, those written 1 are cleared, no other changes. -/
theorem testBit_cleared (old v hw m i : Nat) (hi : i < 32) :
    ((old &&& (2 ^ 32 - 1 - (v &&& m) % 2 ^ 32)) ||| (hw &&& m) % 2 ^ 32).testBit i =
      if m.testBit i then hw.testBit i || (old.testBit i && !v.testBit i) else old.testBit i := by
  rw [Nat.testBit_or, Nat.testBit_and, testBit_notMask _ i hi, Nat.testBit_mod_two_pow, Nat.testBit_and, Nat.testBit_and]
  cases m.testBit i <;> simp [hi, Bool.or_comm]

/-! The page map (R608) and the register tables. -/

/-- A page the map lists is that of its kind and number. -/
theorem pageKind_eq_some {x : Nat} {k : Kind} {n : Nat} (h : pageKind x = some (k, n)) : x = pageOf k n ∧ n < (kindPages k).2 := by
  obtain ⟨k', hk, he⟩ := Option.map_eq_some_iff.1 h
  obtain ⟨rfl, rfl⟩ := Prod.mk.inj he
  have hr := List.find?_some hk
  simp only [Bool.and_eq_true, decide_eq_true_eq] at hr
  unfold pageOf
  omega

/-- The map lies within BAR 0. -/
theorem pageOf_lt {k : Kind} {n : Nat} (h : n < (kindPages k).2) : pageOf k n < 0x4000 := by
  cases k <;> simp only [kindPages, pageOf] at h ⊢ <;> omega

theorem pageKind_lt {x : Nat} {k : Kind} {n : Nat} (h : pageKind x = some (k, n)) : x < 0x4000 := by
  obtain ⟨rfl, hn⟩ := pageKind_eq_some h
  exact pageOf_lt hn

theorem pageKind_part (p : Fin 64) : pageKind (pageOf .part p) = some (.part, p.val) := by revert p; decide
theorem pageKind_perf (p : Fin 64) : pageKind (pageOf .perf p) = some (.perf, p.val) := by revert p; decide
theorem pageKind_nearmc (k : Fin 32) : pageKind (pageOf .nearmc k) = some (.nearmc, k.val) := by revert k; decide
theorem pageKind_deepmc (k : Fin 32) : pageKind (pageOf .deepmc k) = some (.deepmc, k.val) := by revert k; decide

/-- 64-bit registers are 8-byte aligned (R17): every wide row starts and steps by multiples of 8. -/
theorem wideRows_aligned (k : Kind) (n : Nat) :
    (headerRows k ++ bodyRows k n).all (fun r => !r.wide || (r.off % 8 == 0 && r.stride % 8 == 0)) = true := by
  cases k <;> rfl

/-- A word that is no upper half belongs to a row that hits its offset. -/
theorem rowHits_of_regWordAt {k : Kind} {n off : Nat} {w : RegWord} (h : regWordAt k n off = some w) (hu : w.upper = false) :
    w.row ∈ headerRows k ++ bodyRows k n ∧ rowHits w.row off = true := by
  unfold regWordAt at h
  dsimp only at h
  split at h
  case _ r hr =>
    have hh := List.find?_some hr
    cases h
    exact ⟨List.mem_of_find?_eq_some hr, hh⟩
  case _ hr =>
    split at h
    · cases h
      cases hu
    · cases h

theorem wide_off_mod {k : Kind} {n off : Nat} {w : RegWord} (h : regWordAt k n off = some w) (hu : w.upper = false)
    (hw : w.row.wide = true) : off % 8 = 0 := by
  obtain ⟨hm, hh⟩ := rowHits_of_regWordAt h hu
  have ha := List.all_eq_true.1 (wideRows_aligned k n) _ hm
  simp only [hw, Bool.not_true, Bool.false_or, Bool.and_eq_true, beq_iff_eq] at ha
  simp only [rowHits, Bool.and_eq_true, decide_eq_true_eq, beq_iff_eq] at hh
  have hd : 8 ∣ off - w.row.off := Nat.dvd_trans (Nat.dvd_of_mod_eq_zero ha.2) (Nat.dvd_of_mod_eq_zero hh.1.2)
  omega

/-! Which page and word an access meets. -/

section
variable {b : Block} {who : Agent} {x off : Nat} {k : Kind} {n : Nat} {w : RegWord}

theorem wordRef_absent (hr : b.pageRef who x = .absent) : b.wordRef who x off = none := by
  unfold Block.wordRef
  rw [hr]

theorem wordRef_eq_some : b.wordRef who x off = some (k, n, w) ↔
    ∃ y, b.pageRef who x = .page y ∧ pageKind y = some (k, n) ∧ hidden who k off = false ∧ regWordAt k n off = some w := by
  unfold Block.wordRef
  constructor
  · intro h
    split at h
    case _ y hr =>
      split at h
      case _ k' n' hk =>
        split at h
        · cases h
        case _ hh =>
          obtain ⟨w', hw, he⟩ := Option.map_eq_some_iff.1 h
          cases he
          exact ⟨y, hr, hk, Bool.eq_false_iff.2 hh, hw⟩
      · cases h
    · cases h
  · rintro ⟨y, hr, hk, hh, hw⟩
    simp [hr, hk, hh, hw]

theorem regWordAt_of_wordRef (h : b.wordRef who x off = some (k, n, w)) : regWordAt k n off = some w := by
  obtain ⟨_, _, _, _, hw⟩ := wordRef_eq_some.1 h
  exact hw

end

/-- A page shown under a condition is shown as itself or absent. -/
theorem page_or_absent (c : Prop) [Decidable c] (x : Nat) :
    (if c then PageRef.page x else .absent) = .page x ∨ (if c then PageRef.page x else .absent) = .absent := by
  by_cases h : c
  · exact .inl (if_pos h)
  · exact .inr (if_neg h)

/-- And one hidden under a condition. -/
theorem page_or_hidden (c : Prop) [Decidable c] (x : Nat) :
    (if c then PageRef.absent else .page x) = .page x ∨ (if c then PageRef.absent else .page x) = .absent := by
  by_cases h : c
  · exact .inr (if_pos h)
  · exact .inl (if_neg h)

/-- A requester sees a PART page as itself or not at all (R609). -/
theorem pageRef_part (b : Block) (who : Agent) (p : Fin 64) :
    b.pageRef who (pageOf .part p) = .page (pageOf .part p) ∨ b.pageRef who (pageOf .part p) = .absent := by
  unfold Block.pageRef Block.viewPage
  rw [pageKind_part]
  dsimp only
  split
  · split
    · exact page_or_absent _ _
    · exact .inr rfl
  · exact page_or_hidden _ _
  · exact page_or_hidden _ _
  · exact .inl rfl

/-! What a read returns. -/

section
variable {b : Block} {who : Agent} {x y off : Nat} {k : Kind} {n : Nat}

/-- A block the view does not show reads 0 (R19). -/
theorem readWord_absent (hx : x < 0x4000) (hr : b.pageRef who x = .absent) : b.readWord who x off = 0 := by
  unfold Block.readWord
  rw [if_neg (Nat.not_le.2 hx), hr]

/-- A register of a page that no view alters reads as its value. -/
theorem readWord_page (hx : x < 0x4000) (hr : b.pageRef who x = .page y) (hk : pageKind y = some (k, n))
    (hv : k ≠ .perfUser ∧ k ≠ .array ∧ k ≠ .vec) (hh : hidden who k off = false) (h0 : off ≠ 0) (hw : (regWordAt k n off).isSome = true) :
    b.readWord who x off = b.value k n off := by
  unfold Block.readWord
  rw [if_neg (Nat.not_le.2 hx), hr]
  simp [hk, hv, hh, h0, hw]

end

/-! Registers that clear when read (R14). -/

section
variable (b : Block) (k : Kind) (n off : Nat) (wide : Bool) (u : Option Nat)

theorem clearRc_rest : (b.clearRc k n off wide u).rest = b.rest := by
  unfold Block.clearRc
  rw [rest_ifSo _ _ _ fun c => rest_setN c _ _ _, rest_setN]

theorem regN_clearRc_low : (b.clearRc k n off wide u).regN (pageOf k n) off = u.getD 0 % 2 ^ 32 := by
  have hne : regKey (pageOf k n) (off + 4) ≠ regKey (pageOf k n) off := by unfold regKey; omega
  cases wide
  · exact (regN_setN_same _ _ _ _).trans (Nat.mod_mod _ _)
  · exact ((regN_setN_ne _ _ hne).trans (regN_setN_same _ _ _ _)).trans (Nat.mod_mod _ _)

theorem regN_clearRc_high : (b.clearRc k n off true u).regN (pageOf k n) (off + 4) = u.getD 0 / 2 ^ 32 % 2 ^ 32 := regN_setN_same _ _ _ _

theorem reg64_clearRc : (b.clearRc k n off true u).reg64 (pageOf k n) off = u.getD 0 % 2 ^ 64 := by
  unfold Block.reg64
  rw [regN_clearRc_low, regN_clearRc_high]
  omega

theorem regsKeptBut_clearRc (ho : off < 0x1000) (hw : wide = true → off + 4 < 0x1000) :
    RegsKeptBut b (b.clearRc k n off wide u) ([(pageOf k n, off)] ++ if wide then [(pageOf k n, off + 4)] else []) := by
  cases wide
  · exact regsKeptBut_setN b _ _ _ ho
  · exact (regsKeptBut_setN b _ _ _ ho).trans (regsKeptBut_setN _ _ _ _ (hw rfl))

end

/-! Read accesses (R17, R616). -/

theorem goodWidth_four {off : Nat} (h4 : off % 4 = 0) (ho : off < 0x1000) : goodWidth off 4 = true := by
  have h : off + 4 ≤ 0x1000 := by omega
  simp [goodWidth, h4, h]

theorem goodWidth_eight {off : Nat} (h8 : off % 8 = 0) (ho : off < 0x1000) : goodWidth off 8 = true := by
  have h : off + 8 ≤ 0x1000 := by omega
  simp [goodWidth, h8, h]

/-- The block after a 4-byte read of a lower half or of a narrow register: the upper half latched, what clears when read cleared. -/
def Block.readLower (b : Block) (who : Agent) (x off : Nat) (k : Kind) (n : Nat) (wide rc : Bool) (u : Option Nat) : Block :=
  (b.ifSo wide fun c => c.setLatch who x (off + 4) (some (BitVec.ofNat 32 (c.readWord who x (off + 4))))).ifSo rc
    fun c => c.clearRc k n off wide u

section
variable (b : Block) (who : Agent) (x off : Nat) (k : Kind) (n : Nat) (wide rc : Bool) (u : Option Nat)

theorem readLower_memoryKept : MemoryKept b (b.readLower who x off k n wide rc u) := by
  cases rc <;> cases wide <;> exact fun _ => ⟨rfl, rfl⟩

theorem readLower_unitsKept : UnitsKept b (b.readLower who x off k n wide rc u) := by
  cases rc <;> cases wide <;> exact ⟨rfl, rfl, rfl, rfl, rfl⟩

@[simp] theorem readLower_mem : (b.readLower who x off k n wide rc u).mem = b.mem := by
  cases rc <;> cases wide <;> rfl

/-- A register that no read clears stays. -/
@[simp] theorem readLower_regs : (b.readLower who x off k n wide false u).regs = b.regs := by
  cases wide <;> rfl

/-- One that clears is cleared as by a read of the whole. -/
theorem readLower_regs_rc : (b.readLower who x off k n wide true u).regs = (b.clearRc k n off wide u).regs := by
  cases wide <;> rfl

/-- The upper half is latched for the requester as it stands. -/
theorem latched_readLower : (b.readLower who x off k n true rc u).latched who x (off + 4) =
    some (BitVec.ofNat 32 (b.readWord who x (off + 4))) := by
  have hl := latched_setLatch_same b who x (off + 4) (some (BitVec.ofNat 32 (b.readWord who x (off + 4))))
  cases rc <;> exact hl

end

section
variable {b : Block} {who : Agent} {x off : Nat} {k : Kind} {n : Nat} {w : RegWord} {u : Option Nat}

theorem readAccess_four (h4 : off % 4 = 0) (ho : off < 0x1000) : b.readAccess who x off 4 u = b.read32 who x off u := by
  unfold Block.readAccess
  rw [if_pos (goodWidth_four h4 ho), if_pos rfl]

/-- An 8-byte read of a 64-bit register is one of the whole. -/
theorem readAccess_eight (h8 : off % 8 = 0) (ho : off < 0x1000) (h : b.wordRef who x off = some (k, n, w)) (hu : w.upper = false)
    (hw : w.row.wide = true) : b.readAccess who x off 8 u = b.readWhole who x off u := by
  unfold Block.readAccess
  simp [goodWidth_eight h8 ho, h, hu, hw]

theorem read32_lower (h : b.wordRef who x off = some (k, n, w)) (hu : w.upper = false) :
    b.read32 who x off u = (b.readLower who x off k n w.row.wide w.row.rc u, b.readWord who x off) := by
  unfold Block.read32 Block.readLower
  simp [h, hu]

/-- A read of an upper half that is latched returns what was latched and ends the latch. -/
theorem read32_upper_latched {l : Word} (h : b.wordRef who x off = some (k, n, w)) (hu : w.upper = true)
    (hl : b.latched who x off = some l) : b.read32 who x off u = (b.setLatch who x off none, l.toNat) := by
  unfold Block.read32
  simp [h, hu, hl]

theorem read32_upper_free (h : b.wordRef who x off = some (k, n, w)) (hu : w.upper = true) (hl : b.latched who x off = none) :
    b.read32 who x off u = (b, b.readWord who x off) := by
  unfold Block.read32
  simp [h, hu, hl]

theorem readWhole_word (h : b.wordRef who x off = some (k, n, w)) : b.readWhole who x off u =
    (b.ifSo w.row.rc fun c => c.clearRc k n off w.row.wide u,
      if w.row.wide then b.readWord who x off + 2 ^ 32 * b.readWord who x (off + 4) else b.readWord who x off) := by
  unfold Block.readWhole
  rw [h]

theorem readWhole_none (h : b.wordRef who x off = none) : b.readWhole who x off u = (b, 0) := by
  unfold Block.readWhole
  rw [h]

end

/-! The registers with a command of their own that clears them when read (R242, R316, R317, R498). -/

/-- At `off` of its page, block `n` of a kind has a register that clears when read, which every view of the page shows as it is stored. -/
structure RcWord (k : Kind) (n off : Nat) (wide : Bool) : Prop where
  page : pageKind (pageOf k n) = some (k, n)
  inPage : 0 < off ∧ off < 0x1000
  plain : k ≠ .perfUser ∧ k ≠ .array ∧ k ≠ .vec
  shown : ∀ who, hidden who k off = false
  word : ∃ row, regWordAt k n off = some ⟨row, false⟩ ∧ row.rc = true ∧ row.wide = wide
  value : ∀ b : Block, b.value k n off = b.regN (pageOf k n) off

theorem rcWord_slotsPeak (t : Tier) (k : Fin 32) : ∃ kind n, pageMc t k = pageOf kind n ∧ RcWord kind n 0x0A4 false := by
  cases t
  case near =>
    exact ⟨.nearmc, k, rfl, pageKind_nearmc k, by decide, by decide, fun who => by cases who <;> rfl, ⟨_, rfl, rfl, rfl⟩, fun _ => rfl⟩
  case deep =>
    exact ⟨.deepmc, k, rfl, pageKind_deepmc k, by decide, by decide, fun who => by cases who <;> rfl, ⟨_, rfl, rfl, rfl⟩, fun _ => rfl⟩

theorem rcWord_inflightHwm (p : Fin 64) : RcWord .part p 0x238 false :=
  ⟨pageKind_part p, by decide, by decide, fun who => by cases who <;> rfl, ⟨_, rfl, rfl, rfl⟩, fun _ => rfl⟩

theorem rcWord_reclaimMax (p : Fin 64) : RcWord .part p 0x0E8 false :=
  ⟨pageKind_part p, by decide, by decide, fun who => by cases who <;> rfl, ⟨_, rfl, rfl, rfl⟩, fun _ => rfl⟩

theorem rcWord_stashHwm (p : Fin 64) : RcWord .part p 0x248 true :=
  ⟨pageKind_part p, by decide, by decide, fun who => by cases who <;> rfl, ⟨_, rfl, rfl, rfl⟩, fun _ => rfl⟩

section
variable {b : Block} {who : Agent} {k : Kind} {n off : Nat} {wide : Bool} {u : Option Nat}

theorem RcWord.wordRef (h : RcWord k n off wide) (hr : b.pageRef who (pageOf k n) = .page (pageOf k n)) :
    ∃ row, b.wordRef who (pageOf k n) off = some (k, n, ⟨row, false⟩) ∧ row.rc = true ∧ row.wide = wide := by
  obtain ⟨row, hw, hrc, hwide⟩ := h.word
  exact ⟨row, wordRef_eq_some.2 ⟨_, hr, h.page, h.shown who, hw⟩, hrc, hwide⟩

theorem RcWord.readWord (h : RcWord k n off wide) (hr : b.pageRef who (pageOf k n) = .page (pageOf k n)) :
    b.readWord who (pageOf k n) off = b.regN (pageOf k n) off := by
  obtain ⟨row, hw, _, _⟩ := h.word
  rw [readWord_page (pageKind_lt h.page) hr h.page h.plain (h.shown who) (Nat.ne_of_gt h.inPage.1) (by rw [hw]; rfl), h.value]

theorem RcWord.readWhole (h : RcWord k n off wide) (hr : b.pageRef who (pageOf k n) = .page (pageOf k n)) :
    b.readWhole who (pageOf k n) off u = (b.clearRc k n off wide u,
      if wide then b.regN (pageOf k n) off + 2 ^ 32 * b.readWord who (pageOf k n) (off + 4) else b.regN (pageOf k n) off) := by
  obtain ⟨row, hw, hrc, rfl⟩ := h.wordRef hr
  rw [readWhole_word hw, h.readWord hr, hrc, ifSo_true]

end

/-- What hardware adds, as a number. -/
theorem getD_toNat {m : Nat} (u : Option (BitVec m)) : (u.map BitVec.toNat).getD 0 = (u.getD 0).toNat := Option.getD_map BitVec.toNat 0 u

/-- A clearing register takes just what hardware adds in the cycle of the read (R14). -/
theorem reg_clearRc_update (b : Block) (k : Kind) (n off : Nat) (wide : Bool) (u : Option Word) :
    (b.clearRc k n off wide (u.map BitVec.toNat)).reg (pageOf k n) off = u.getD 0 := by
  apply BitVec.eq_of_toNat_eq
  have h := regN_clearRc_low b k n off wide (u.map BitVec.toNat)
  rw [getD_toNat] at h
  exact h.trans (Nat.mod_eq_of_lt (u.getD 0).isLt)

/-- A whole read of a narrow one. -/
theorem readRc_narrow {b : Block} {who : Agent} {k : Kind} {n off : Nat} (h : RcWord k n off false)
    (hr : b.pageRef who (pageOf k n) = .page (pageOf k n)) (u : Option Word) :
    Sent (b.readRc who (pageOf k n) off (u.map BitVec.toNat)) (.readData who (pageOf k n) off (BitVec.ofNat 64 (b.regN (pageOf k n) off))) ∧
    (b.readRc who (pageOf k n) off (u.map BitVec.toNat)).reg (pageOf k n) off = u.getD 0 ∧
    RegsKeptBut b (b.readRc who (pageOf k n) off (u.map BitVec.toNat)) [(pageOf k n, off)] ∧
    MemoryKept b (b.readRc who (pageOf k n) off (u.map BitVec.toNat)) := by
  unfold Block.readRc
  rw [h.readWhole hr]
  exact ⟨rfl, reg_clearRc_update b k n off false u, regsKeptBut_clearRc b k n off false (u.map BitVec.toNat) h.inPage.2 nofun,
    memoryKept_of_rest (clearRc_rest b k n off false (u.map BitVec.toNat))⟩

/-- STASH_HWM stands in PART as one 64-bit register. -/
theorem readWord_stashHwm_high {b : Block} {who : Agent} (p : Fin 64) (hr : b.pageRef who (pageOf .part p) = .page (pageOf .part p)) :
    b.readWord who (pageOf .part p) 0x24C = b.regN (pageOf .part p) 0x24C :=
  readWord_page (pageKind_lt (pageKind_part p)) hr (pageKind_part p) (by decide) (by cases who <;> rfl) (by decide) rfl

/-- Settles O5: a read that clears returns the old value and leaves what the same cycle adds. -/
theorem readsThatClear : Obligations.ReadsThatClear := by
  unfold Obligations.ReadsThatClear
  refine ⟨?_, ?_, ?_, ?_, ?_⟩
  case refine_1 =>
    intro s who t k u hr
    obtain ⟨kind, n, hp, h⟩ := rcWord_slotsPeak t k
    rw [hp] at hr ⊢
    refine does_of_onBlock (exec_slotsPeakRead who t k u s) ?_
    rw [hp]
    exact readRc_narrow h hr u
  case refine_2 =>
    intro s who t k u hr
    refine does_of_onBlock (exec_slotsPeakRead who t k u s) ?_
    unfold Block.readRc
    rw [readWhole_none (wordRef_absent hr)]
    exact ⟨rfl, rfl⟩
  case refine_3 =>
    intro s who p u hr
    exact ⟨does_of_onBlock (exec_inflightHwmRead who p u s) (readRc_narrow (rcWord_inflightHwm p) hr u),
      does_of_onBlock (exec_reclaimMaxRead who p u s) (readRc_narrow (rcWord_reclaimMax p) hr u)⟩
  case refine_4 =>
    intro s who p u hr
    refine does_of_onBlock (exec_stashHwmRead who p u s) ?_
    unfold Block.readRc
    rw [(rcWord_stashHwm p).readWhole hr, if_pos rfl, readWord_stashHwm_high p hr]
    refine ⟨rfl, ?_, regsKeptBut_clearRc s.block .part p 0x248 true (u.map BitVec.toNat) (by decide) (fun _ => by decide),
      memoryKept_of_rest (clearRc_rest s.block .part p 0x248 true (u.map BitVec.toNat))⟩
    have h := reg64_clearRc s.block .part p 0x248 (u.map BitVec.toNat)
    rw [getD_toNat, Nat.mod_eq_of_lt (u.getD 0).isLt] at h
    exact h
  case refine_5 =>
    intro s who x off k n w u h4 ho hw hu hrc
    refine does_of_onBlock (exec_lowHalfRead who x off 4 u s) ?_
    have ho4 (hwide : w.row.wide = true) : off + 4 < 0x1000 := by
      have h8 := wide_off_mod (regWordAt_of_wordRef hw) hu hwide
      omega
    rw [readAccess_four h4 ho, read32_lower hw hu, hrc]
    have hregs := readLower_regs_rc s.block who x off k n w.row.wide (u.map BitVec.toNat)
    refine ⟨rfl, ?_, ?_, ?_, readLower_memoryKept s.block who x off k n w.row.wide true _⟩
    · exact (regN_congr hregs _ _).trans (getD_toNat u ▸ regN_clearRc_low s.block k n off w.row.wide (u.map BitVec.toNat))
    · intro hwide
      rw [hwide] at hregs ⊢
      refine ((regN_congr hregs _ _).trans (regN_clearRc_high s.block k n off (u.map BitVec.toNat))).trans ?_
      rw [getD_toNat, Nat.mod_eq_of_lt]
      have := (u.getD 0).isLt
      omega
    · exact (regsKeptBut_clearRc s.block k n off w.row.wide _ ho ho4).congr rfl hregs

/-- Settles O4: the latch of R17, from the read of the lower half to the read of the upper. -/
theorem halvesReadAsOneValue : Obligations.HalvesReadAsOneValue := by
  unfold Obligations.HalvesReadAsOneValue
  refine ⟨?_, ?_, ?_, ?_⟩
  case refine_1 =>
    intro s who x off k n w h4 ho hw hu hwide
    have h8 := wide_off_mod (regWordAt_of_wordRef hw) hu hwide
    refine ⟨_, exec_lowHalfRead who x off 4 none s, rfl, rfl, ?_⟩
    dsimp only
    rw [readAccess_four h4 ho, read32_lower hw hu, hwide]
    refine ⟨rfl, ?_, readLower_mem .., readLower_unitsKept .., ?_⟩
    · split
      case isTrue hrc =>
        rw [hrc]
        have hregs := readLower_regs_rc s.block who x off k n true none
        refine ⟨?_, (regsKeptBut_clearRc s.block k n off true none ho fun _ => by omega).congr rfl hregs⟩
        have h0 := reg64_clearRc s.block k n off none
        unfold Block.reg64 at h0 ⊢
        rw [← regN_congr hregs, ← regN_congr hregs] at h0
        exact h0
      case isFalse hrc =>
        rw [Bool.eq_false_iff.2 hrc]
        exact readLower_regs s.block who x off k n true none
    · intro t' k' n' w' hl hw' hu'
      have hl' : t'.block.latched who x (off + 4) = some (BitVec.ofNat 32 (s.block.readWord who x (off + 4))) := by
        unfold Block.latched
        rw [hl]
        exact latched_readLower s.block who x off k n w.row.rc none
      refine does_of_onBlock (exec_lowHalfRead who x (off + 4) 4 none t') ?_
      rw [readAccess_four (by omega) (by omega), read32_upper_latched hw' hu' hl']
      exact ⟨rfl, latched_setLatch_same t'.block who x (off + 4) none, rfl⟩
  case refine_2 =>
    intro s who x off k n w h4 ho hw hu hl
    refine does_of_onBlock (exec_lowHalfRead who x off 4 none s) ?_
    rw [readAccess_four h4 ho, read32_upper_free hw hu hl]
    exact ⟨rfl, rfl, rfl⟩
  case refine_3 =>
    intro s who x off k n w h8 ho hw hu hwide
    refine does_of_onBlock (exec_lowHalfRead who x off 8 none s) ?_
    rw [readAccess_eight h8 ho hw hu hwide, readWhole_word hw, hwide, if_pos rfl]
    split
    case isTrue hrc =>
      rw [hrc]
      have hrest := clearRc_rest s.block k n off true none
      have hmem := congrArg Block.mem hrest
      exact ⟨rfl, reg64_clearRc s.block k n off none, hmem, unitsKept_of_rest hrest⟩
    case isFalse hrc =>
      rw [Bool.eq_false_iff.2 hrc]
      exact ⟨rfl, rfl, rfl, rfl, rfl, rfl, rfl, rfl⟩
  case refine_4 =>
    intro s who p hne
    rcases pageRef_part s.block who p with hr | hr
    · refine does_of_onBlock (exec_stashHwmRead who p none s) ?_
      obtain ⟨row, hw, hrc, hwide⟩ := (rcWord_stashHwm p).wordRef hr
      unfold Block.readRc
      rw [readWhole_word hw, hrc, hwide]
      refine ⟨rfl, fun k n w hw' => ?_⟩
      cases hw.symm.trans hw'
      exact reg64_clearRc s.block .part p 0x248 none
    · exact absurd (wordRef_absent hr) hne

/-! Write accesses: how one is cut into words (R616). -/

section
variable {b : Block} {who : Agent} {x y off : Nat} {k : Kind} {n : Nat} {w : RegWord} {v hw : Nat}

theorem writeAt_page (hx : x < 0x4000) : b.writeAt who x off v hw = b.writeWord who x off v hw := by
  unfold Block.writeAt
  rw [if_pos hx]

theorem writeAccess_four (h4 : off % 4 = 0) (ho : off < 0x1000) :
    b.writeAccess who x off 4 v hw = b.writeAt who x off (v % 2 ^ 32) (hw % 2 ^ 32) := by
  unfold Block.writeAccess
  rw [if_pos (goodWidth_four h4 ho), if_neg]
  · rfl
  · split
    · split <;> exact Bool.false_ne_true
    · exact Bool.false_ne_true

/-- An 8-byte write of no reserved encoding is one word after the other. -/
theorem writeAccess_eight (h8 : off % 8 = 0) (ho : off < 0x1000)
    (hr : ∀ y k n, b.pageRef who x = .page y → pageKind y = some (k, n) → b.wideReserved k n off v = false) :
    b.writeAccess who x off 8 v hw =
      (b.writeAt who x off (v % 2 ^ 32) (hw % 2 ^ 32)).writeAt who x (off + 4) (v / 2 ^ 32 % 2 ^ 32) (hw / 2 ^ 32 % 2 ^ 32) := by
  unfold Block.writeAccess
  rw [if_pos (goodWidth_eight h8 ho), if_neg]
  · rfl
  · split
    case _ y hy =>
      split
      case _ k n hk => simp [hr y k n hy hk]
      · exact Bool.false_ne_true
    · exact Bool.false_ne_true

/-! What a write of one word does (R12, R13). -/

theorem writeWord_absent (hr : b.pageRef who x = .absent) : b.writeWord who x off v hw = b := by
  unfold Block.writeWord
  rw [hr]

/-- A write that reaches W1C bits. -/
theorem writeWord_w1c (hr : b.pageRef who x = .page y) (hk : pageKind y = some (k, n)) (hw' : regWordAt k n off = some w)
    (h1 : halfMask w w.row.w1c ≠ 0) (hm : b.mayWrite who k n off = true) :
    b.writeWord who x off v hw = b.clearBits k n off (halfMask w w.row.w1c) v hw := by
  unfold Block.writeWord
  simp [hr, hk, hw', h1, hm]

/-- A write that reaches a word without W1C bits. -/
theorem writeWord_start (hr : b.pageRef who x = .page y) (hk : pageKind y = some (k, n)) (hw' : regWordAt k n off = some w)
    (h1 : halfMask w w.row.w1c = 0) (hm : b.mayWrite who k n off = true) (hb : halfMask w w.row.rw ≠ 0 ∨ halfMask w w.row.wo ≠ 0) :
    b.writeWord who x off v hw = b.startWord who k n x off (halfMask w w.row.rw) v := by
  unfold Block.writeWord
  have hne : ¬(halfMask w w.row.rw = 0 ∧ halfMask w w.row.wo = 0) := fun h => hb.elim (· h.1) (· h.2)
  simp [hr, hk, hw', h1, hm, hne]

/-- A write that does not reach its word, or reaches none of its bits, while hardware sets none (R16, R609). -/
theorem writeWord_ignored (hr : b.pageRef who x = .page y) (hk : pageKind y = some (k, n)) (hw' : regWordAt k n off = some w)
    (hm : b.mayWrite who k n off = false ∨ halfMask w w.row.w1c = 0 ∧ halfMask w w.row.rw = 0 ∧ halfMask w w.row.wo = 0) :
    b.writeWord who x off v 0 = b := by
  unfold Block.writeWord
  rcases hm with hm | ⟨h1, h2, h3⟩
  · simp [hr, hk, hw', hm]
  · simp [hr, hk, hw', h1, h2, h3]

/-- A block the view does not show takes no write (R19). -/
theorem writeAccess_absent {width : Nat} (hx : x < 0x4000) (hr : b.pageRef who x = .absent) : b.writeAccess who x off width v 0 = b := by
  have hwords (m : Nat) : ∀ (o v hw : Nat), b.writeWords who x o m v hw = b := by
    induction m with
    | zero => exact fun _ _ _ => rfl
    | succ m ih =>
      intro o v hw
      unfold Block.writeWords
      rw [writeAt_page hx, writeWord_absent hr, ih]
  have hhw (o hw : Nat) : b.hwWord who x o hw = b := by
    unfold Block.hwWord
    rw [hr]
  unfold Block.writeAccess
  split
  · rw [hr, hwords, if_neg Bool.false_ne_true]
  · rw [hhw]
    cases decide (4 < width)
    · rfl
    · exact hhw _ _

end

/-- And every read of one is of zero bytes. -/
theorem readAccess_absent {b : Block} {who : Agent} {x off width : Nat} (hx : x < 0x4000) (hr : b.pageRef who x = .absent) :
    b.readAccess who x off width none = (b, 0) := by
  have hw (o : Nat) : b.wordRef who x o = none := wordRef_absent hr
  have h32 (o : Nat) : b.read32 who x o none = (b, 0) := by
    unfold Block.read32 Block.barTaken
    simp [hw, readWord_absent hx hr, hx]
  unfold Block.readAccess
  simp [hw, h32, readWord_absent hx hr, fieldOf]

/-! BLK_EVENT_EN (R18, R504) and W1C bits. -/

/-- Every kind of page has BLK_EVENT_EN at 0x018, its writable bits those of the events the page defines. -/
theorem regWordAt_eventEnable (k : Kind) (n : Nat) : regWordAt k n 0x018 = some ⟨rw 0x018 (eventMask k), false⟩ := by
  cases k <;> rfl

theorem eventMask_lt (k : Kind) : eventMask k < 2 ^ 32 := by cases k <;> decide

/-- No encoding of it is reserved, and its write starts nothing. -/
theorem startWord_eventEnable (b : Block) (who : Agent) (k : Kind) (n x m v : Nat) (hn : n < (kindPages k).2) :
    b.startWord who k n x 0x018 m v =
      b.setN (pageOf k n) 0x018 ((b.regN (pageOf k n) 0x018 &&& (2 ^ 32 - 1 - m % 2 ^ 32)) ||| (v &&& m % 2 ^ 32)) := by
  cases k
  case thorn =>
    obtain rfl : n = 0 := Nat.lt_one_iff.1 hn
    rfl
  case port => exact dif_pos hn
  all_goals rfl

/-- The Steward may write it, and function 0 while the page is not locked (R504, R614). -/
theorem mayWrite_eventEnable {b : Block} {who : Agent} {k : Kind} {n : Nat} (hk : k ≠ .perfUser)
    (hwho : who = .steward ∨ who = .pf ∧ b.fld (pageOf k n) 0x01C 0 1 = 0) : b.mayWrite who k n 0x018 = true := by
  unfold Block.mayWrite
  rcases hwho with rfl | ⟨rfl, hl⟩
  · simp [hk]
  · simp [hk, hl]

/-- Both see every page the map lists, but for the mailboxes that do not exist (R518). -/
theorem pageRef_of_device {b : Block} {who : Agent} {x : Nat} {k : Kind} {n : Nat} (h : pageKind x = some (k, n))
    (hwho : who = .steward ∨ who = .pf) : b.pageRef who x = .page x ∨ k = .mbx ∧ b.pageRef who x = .absent := by
  unfold Block.pageRef
  rw [h]
  cases k
  case mbx => rcases hwho with rfl | rfl <;> exact (page_or_absent _ _).imp_right fun h => ⟨rfl, h⟩
  all_goals rcases hwho with rfl | rfl <;> exact .inl rfl

/-- What a write of BLK_EVENT_EN leaves: its new bits where the page defines events; of a page without any, the same block. -/
theorem writeWord_eventEnable {b : Block} {who : Agent} {x : Nat} {k : Kind} {n : Nat} (v : Nat) (h : pageKind x = some (k, n))
    (hk : k ≠ .perfUser) (hwho : who = .steward ∨ who = .pf ∧ b.fld x 0x01C 0 1 = 0) :
    b.writeWord who x 0x018 v 0 = b ∧ eventMask k = 0 ∨ b.writeWord who x 0x018 v 0 =
      b.setN x 0x018 ((b.regN x 0x018 &&& (2 ^ 32 - 1 - eventMask k % 2 ^ 32)) ||| (v &&& eventMask k % 2 ^ 32)) := by
  obtain ⟨rfl, hn⟩ := pageKind_eq_some h
  have hmask : halfMask ⟨rw 0x018 (eventMask k), false⟩ (eventMask k) = eventMask k := Nat.mod_eq_of_lt (eventMask_lt k)
  rcases pageRef_of_device h (hwho.imp_right And.left) with hr | ⟨rfl, hr⟩
  · by_cases h0 : eventMask k = 0
    · exact .inl ⟨writeWord_ignored hr h (regWordAt_eventEnable k n) (.inr ⟨rfl, hmask.trans h0, rfl⟩), h0⟩
    · right
      rw [writeWord_start hr h (regWordAt_eventEnable k n) rfl (mayWrite_eventEnable hk hwho) (.inl fun h => h0 (hmask.symm.trans h)),
        startWord_eventEnable b who k n _ _ v hn]
      exact congrArg (fun m => b.setN _ _ ((_ &&& (2 ^ 32 - 1 - m % 2 ^ 32)) ||| (v &&& m % 2 ^ 32))) hmask
  · exact .inl ⟨writeWord_absent hr, rfl⟩

/-- The bits of a word that a register has just been set to. -/
theorem bitOf_regN_setN (b : Block) (p o v i : Nat) (hi : i < 32) : bitOf ((b.setN p o v).regN p o) i = v.testBit i := by
  rw [bitOf_eq_testBit, regN_setN_same, Nat.testBit_mod_two_pow]
  simp [hi]

/-- A word's bits do not change when it is cut to 32. -/
theorem testBit_word (v i : Nat) (hi : i < 32) : (v % 2 ^ 32).testBit i = bitOf v i := by
  rw [bitOf_eq_testBit, Nat.testBit_mod_two_pow]
  simp [hi]

/-- Settles O1: event registers take writes by their masks, and hardware's bits win over a clearing of the same cycle. -/
theorem eventRegistersTakeWrites : Obligations.EventRegistersTakeWrites := by
  unfold Obligations.EventRegistersTakeWrites
  refine ⟨?_, ?_, ?_⟩
  case refine_1 =>
    intro s who x k n v hk hu hwho
    refine does_of_onBlock (exec_regWrite who x 0x018 4 v s) ?_
    rw [writeAccess_four (by decide) (by decide), writeAt_page (pageKind_lt hk)]
    rcases writeWord_eventEnable (v.toNat % 2 ^ 32) hk hu hwho with ⟨he, h0⟩ | he
    · rw [Nat.zero_mod, he, h0]
      exact ⟨fun i _ => by simp [bitOf], fun _ _ _ _ => rfl, fun _ => ⟨rfl, rfl⟩, rfl, rfl, rfl, rfl, rfl⟩
    · rw [Nat.zero_mod, he]
      refine ⟨fun i hi => ?_, regsKeptBut_setN _ _ _ _ (by decide), memoryKept_of_rest (rest_setN _ _ _ _), unitsKept_of_rest (rest_setN _ _ _ _)⟩
      rw [bitOf_regN_setN _ _ _ _ _ hi, testBit_masked _ _ _ _ hi, testBit_word _ _ hi, bitOf_eq_testBit (eventMask k),
        bitOf_eq_testBit (s.block.regN x _)]
  case refine_2 =>
    intro s who x y off k n w v hw hx hr hk h4 ho hword h1 hm
    obtain ⟨rfl, _⟩ := pageKind_eq_some hk
    refine does_of_onBlock (exec_eventClear who x off 4 v hw s) ?_
    rw [writeAccess_four h4 ho, writeAt_page hx, writeWord_w1c hr hk hword h1 hm]
    unfold Block.clearBits
    refine ⟨fun i hi => ?_, regsKeptBut_setN _ _ _ _ ho, memoryKept_of_rest (rest_setN _ _ _ _), unitsKept_of_rest (rest_setN _ _ _ _)⟩
    rw [bitOf_regN_setN _ _ _ _ _ hi, testBit_cleared _ _ _ _ _ hi, testBit_word _ _ hi, testBit_word _ _ hi, bitOf_eq_testBit (halfMask _ _),
      bitOf_eq_testBit (s.block.regN _ _)]
  case refine_3 =>
    intro s who x off v hw h8 ho hres
    have hhigh (u : DWord) : (u >>> 32).toNat = u.toNat / 2 ^ 32 := by
      rw [BitVec.toNat_ushiftRight, Nat.shiftRight_eq_div_pow]
    have hcut (hw : Nat) : s.block.writeAccess who x off 8 v.toNat hw =
        (s.block.writeAccess who x off 4 v.toNat hw).writeAccess who x (off + 4) 4 (v >>> 32).toNat (hw / 2 ^ 32) := by
      rw [writeAccess_eight h8 ho hres, writeAccess_four (by omega) ho, writeAccess_four (by omega) (by omega), hhigh]
    refine ⟨⟨_, exec_eventClear who x off 4 v hw s, ?_⟩, ⟨_, exec_regWrite who x off 4 v s, ?_⟩⟩
    · rw [exec_eventClear, exec_eventClear, hhigh hw]
      exact congrArg (fun b => Host.Outcome.next { s with block := b }) (hcut hw.toNat)
    · rw [exec_regWrite, exec_regWrite]
      exact congrArg (fun b => Host.Outcome.next { s with block := b }) (hcut 0)

/-! The counters of a PERF page (R592, R593). -/

/-- The words of counter `k`: the counter, its latch and its PERF_SEL. -/
def counterWords (k : Nat) : List Nat := [0x080 + 8 * k, 0x084 + 8 * k, 0x0C0 + 8 * k, 0x0C4 + 8 * k, 0x100 + 4 * k]

/-- Each stands in one of three ranges of the page, and its number follows from its offset. -/
theorem counterWords_range {k off : Nat} (hk : k < 8) (ho : off ∈ counterWords k) :
    off % 4 = 0 ∧ ((0x080 ≤ off ∧ off < 0x0C0 ∧ (off - 0x080) / 8 = k) ∨ (0x0C0 ≤ off ∧ off < 0x100 ∧ (off - 0x0C0) / 8 = k) ∨
      (0x100 ≤ off ∧ off < 0x120 ∧ (off - 0x100) / 4 = k)) := by
  simp only [counterWords, List.mem_cons, List.not_mem_nil, or_false] at ho
  omega

/-- A PERF page has a register at each; those of the latches have no bits a write reaches. -/
theorem regWordAt_counterWords {k off : Nat} (n : Nat) (hk : k < 8) (ho : off ∈ counterWords k) :
    ∃ w, regWordAt .perf n off = some w ∧
      (0x0C0 ≤ off → off < 0x100 → halfMask w w.row.w1c = 0 ∧ halfMask w w.row.rw = 0 ∧ halfMask w w.row.wo = 0) := by
  have hall : ∀ k : Fin 8, ∀ off ∈ counterWords k, (regWordAt .perf 0 off).any (fun w => !(decide (0x0C0 ≤ off) && decide (off < 0x100)) ||
      (halfMask w w.row.w1c == 0 && halfMask w w.row.rw == 0 && halfMask w w.row.wo == 0)) = true := by decide
  have h := hall ⟨k, hk⟩ off ho
  cases hw : regWordAt .perf 0 off with
  | none => simp [hw] at h
  | some w => exact ⟨w, hw, fun h1 h2 => by simpa [hw, h1, h2, and_assoc] using h⟩

/-- What a counter's words read as: 0 from COUNTERS on, what they hold below. -/
theorem value_counterWords (b : Block) (n : Nat) {k off : Nat} (hk : k < 8) (ho : off ∈ counterWords k) :
    b.value .perf n off = if (b.grant n).counters ≤ k then 0 else b.regN (pageOf .perf n) off := by
  obtain ⟨_, hr⟩ := counterWords_range hk ho
  unfold Block.value
  split
  case h_5 =>
    dsimp only
    rw [if_neg (by omega), if_neg (by omega), if_neg (by simp; omega)]
    congr 1
    simp only [Bool.or_eq_true, Bool.and_eq_true, decide_eq_true_eq, eq_iff_iff]
    omega
  all_goals omega

/-- No requester's write reaches a word of a counter from COUNTERS on, its latch apart. -/
theorem mayWrite_counterWords {b : Block} (who : Agent) (n : Nat) {k off : Nat} (hk : k < 8) (ho : off ∈ counterWords k)
    (hc : (b.grant n).counters ≤ k) (hl : ¬(0x0C0 ≤ off ∧ off < 0x100)) : b.mayWrite who .perf n off = false := by
  obtain ⟨_, hr⟩ := counterWords_range hk ho
  have hgone : ((decide (0x080 ≤ off) && decide (off < 0x0C0) && decide ((b.grant n).counters ≤ (off - 0x080) / 8)) ||
      (decide (0x100 ≤ off) && decide (off < 0x120) && decide ((b.grant n).counters ≤ (off - 0x100) / 4))) = true := by
    simp only [Bool.or_eq_true, Bool.and_eq_true, decide_eq_true_eq]
    omega
  have h14 : off ≠ 0x014 := by omega
  have h18 : off ≠ 0x018 := by omega
  have h1C : off ≠ 0x01C := by omega
  unfold Block.mayWrite
  cases who <;> simp [hgone, h14, h18, h1C]

/-- So a write of one changes nothing (R593). -/
theorem writeWord_counterWords {b : Block} {who : Agent} {v : Nat} (p : Fin 64) {k off : Nat} (hk : k < 8) (ho : off ∈ counterWords k)
    (hr : b.pageRef who (pageOf .perf p) = .page (pageOf .perf p)) (hc : (b.grant p).counters ≤ k) :
    b.writeWord who (pageOf .perf p) off v 0 = b := by
  obtain ⟨w, hw, hlatch⟩ := regWordAt_counterWords p.val hk ho
  refine writeWord_ignored hr (pageKind_perf p) hw ?_
  by_cases hl : 0x0C0 ≤ off ∧ off < 0x100
  · exact .inr (hlatch hl.1 hl.2)
  · exact .inl (mayWrite_counterWords who p.val hk ho hc hl)

/-- And a read finds what `value_counterWords` says. -/
theorem readWord_counterWords {b : Block} {who : Agent} (p : Fin 64) {k off : Nat} (hk : k < 8) (ho : off ∈ counterWords k)
    (hr : b.pageRef who (pageOf .perf p) = .page (pageOf .perf p)) :
    b.readWord who (pageOf .perf p) off = if (b.grant p).counters ≤ k then 0 else b.regN (pageOf .perf p) off := by
  obtain ⟨w, hw, _⟩ := regWordAt_counterWords p.val hk ho
  obtain ⟨_, hrange⟩ := counterWords_range hk ho
  rw [readWord_page (pageKind_lt (pageKind_perf p)) hr (pageKind_perf p) (by decide) (by cases who <;> rfl) (by omega) (by rw [hw]; rfl),
    value_counterWords b p hk ho]

/-- Settles O58: blocks outside a view, and counters beyond COUNTERS, read 0 and take no write. -/
theorem absentBlocksAndCountersReadZero : Obligations.AbsentBlocksAndCountersReadZero := by
  unfold Obligations.AbsentBlocksAndCountersReadZero
  refine ⟨?_, ?_⟩
  case refine_1 =>
    intro s who x off width v hx hr
    refine ⟨does_of_onBlock (exec_lowHalfRead who x off width none s) ?_, ?_⟩
    · rw [show (none : Option DWord).map BitVec.toNat = none from rfl, readAccess_absent hx hr]
      rfl
    · rw [exec_regWrite]
      exact onBlock_eq_self (writeAccess_absent hx hr)
  case refine_2 =>
    intro s who p k v hr hk
    refine ⟨fun hc off ho => ⟨?_, ?_⟩, fun hc off ho => ?_⟩
    · rw [readWord_counterWords p hk ho hr, if_pos hc]
    · obtain ⟨h4, hrange⟩ := counterWords_range hk ho
      rw [exec_regWrite]
      apply onBlock_eq_self
      rw [writeAccess_four h4 (by omega), writeAt_page (pageKind_lt (pageKind_perf p))]
      exact writeWord_counterWords p hk ho hr hc
    · rw [readWord_counterWords p hk ho hr, if_neg (Nat.not_le.2 hc)]

end Sys2Proof.Machine
end
